-- ==== Sys2Proof/Word.lean ====
section
/-!
DEFINITION. The words of the part: bytes, 64-byte memory lines, byte masks and 36-bit byte addresses
(spec/00_scope.md, CONVENTIONS).
-/

namespace Sys2Proof

/-- One byte. -/
abbrev Byte := BitVec 8

/-- One memory line of 64 bytes. The byte at offset `i` of the line is bits `8*i+7 .. 8*i`, so a little-endian
field at offset `i` of `n` bytes (R192) is the `8*n` bits from bit `8*i` up. -/
abbrev Line := BitVec 512

/-- The byte mask of one written line, bit `i` for the byte at offset `i`. -/
abbrev ByteMask := BitVec 64

/-- A byte address of 36 bits. -/
abbrev Addr := BitVec 36

/-- A page number: an address divided by 4096. -/
abbrev Page := Nat

/-- The line of all ones, with which denied and failed reads are answered (R2, R19). -/
def onesLine : Line := BitVec.allOnes 512

/-- The full byte mask. -/
def fullMask : ByteMask := BitVec.allOnes 64

/-- Eight bytes in offset order, the first in the low bits: a serial, a nonce or a tag (R192), or the eight digits
of a PIN, most significant digit at the lowest offset (section 11.3). -/
abbrev Word8 := BitVec 64

end Sys2Proof
end

