-- ==== Sys2Proof/Syntax.lean ====
section
/-!
DEFINITION. The commands of the part: one constructor of `Instr` for each row of spec/opcode_table.json, with the
operands the outside world supplies (a transaction, a reply frame, the data a port delivers, a command's parameters).
Parameters of ring commands are carried as the raw numbers that software wrote; the owner's checks judge them.
-/

namespace Sys2Proof

/-- The direction of a transaction, and so the request channel of UP it is presented on (R3). -/
inductive Dir where
  | read
  | write
  deriving DecidableEq, Repr, Inhabited

/-- One written line with its byte mask. -/
structure WriteLine where
  data : Line
  mask : ByteMask
  deriving DecidableEq, Repr, Inhabited

/-- What a transaction asks: a read of so many lines, or a write of these lines. -/
inductive TxnOp where
  | read (lines : Nat)
  | write (lines : List WriteLine)
  deriving DecidableEq, Repr, Inhabited

/-- An upstream transaction (section 1.1). `id` is the identity that its response carries (R2). -/
structure Txn where
  id : Nat
  source : Fin 16
  addr : Addr
  op : TxnOp
  deriving DecidableEq, Repr, Inhabited

/-- The direction of a transaction. -/
def Txn.dir (t : Txn) : Dir :=
  match t.op with
  | .read _ => .read
  | .write _ => .write

/-- The length of a transaction in lines. -/
def Txn.len (t : Txn) : Nat :=
  match t.op with
  | .read n => n
  | .write ls => ls.length

/-- The lines a write carries; none for a read. -/
def Txn.writeLines (t : Txn) : List WriteLine :=
  match t.op with
  | .read _ => []
  | .write ls => ls

/-- Which outstanding forwarded transaction DN completes: one that still holds its tracker slot, or the one at this
position among those that LRST left issued on DN without a slot (R28). -/
inductive DnRef where
  | slot (i : Fin 32)
  | orphan (k : Nat)
  deriving DecidableEq, Repr, Inhabited

/-- The fields of REGION_SET (section 11.3). List values are positions in their lists. -/
structure RegionSetParams where
  index : Nat
  cls : Nat
  priv : Nat
  job : Option Nat
  base : Nat
  count : Nat
  readMask : BitVec 16
  writeMask : BitVec 16
  rawMask : BitVec 16
  behaviour : Nat
  plane : Option Nat
  depth : Option Nat
  stride : Option Nat
  frameLines : Option Nat
  deriving DecidableEq, Repr, Inhabited

/-- The parameters of JOB_OPEN (R45). -/
structure JobOpenParams where
  user : Nat
  pin : Word8
  kind : Nat
  hold : Nat
  declared : Option Nat
  passes : Nat
  verify : Nat
  deriving DecidableEq, Repr, Inhabited

/-- The parameters of CLASS_SET (R92): the service PIN, a class index and the five fields of one entry. -/
structure ClassSetParams where
  pin : Word8
  index : Nat
  valid : Nat
  maxLines : Nat
  maxDots : Nat
  basePrice : Nat
  colourPrice : Nat
  deriving DecidableEq, Repr, Inhabited

/-- The parameters of TARIFF_SET (R93). -/
structure TariffSetParams where
  pin : Word8
  free : Nat
  surcharge : Nat
  cap : Nat
  threshold : Nat
  deriving DecidableEq, Repr, Inhabited

/-- The parameters of USER_SET (R117). -/
structure UserSetParams where
  servicePin : Word8
  user : Nat
  state : Nat
  department : Option Nat
  maxJobs : Nat
  pin : Word8
  balance : Int
  overdraft : Nat
  lifeMono : Nat
  lifeColour : Nat
  lifeCharge : Nat
  deriving DecidableEq, Repr, Inhabited

/-- The parameters of BAY_CONFIG (R151): the service PIN, a bay and the seven fields of R150. -/
structure BayConfigParams where
  pin : Word8
  bay : Nat
  policy : Nat
  attach : Nat
  detach : Nat
  dotMass : Nat
  quantum : Nat
  lowMark : Nat
  grace : Nat
  deriving DecidableEq, Repr, Inhabited

/-- The parameters of WIPE_RANGE (R174). -/
structure WipeRangeParams where
  base : Nat
  count : Nat
  passes : Nat
  verify : Nat
  deriving DecidableEq, Repr, Inhabited

/-- The department operand of PERIOD_RESET (R121). -/
inductive DeptChoice where
  | one (index : Nat)
  | all
  deriving DecidableEq, Repr, Inhabited

/-- The commands of the block: the rows of spec/opcode_table.json, in the table's order.
`tag` is the 16-bit tag of a ring command (section 10.4). -/
inductive Instr where
  | por (straps : BitVec 2)
  | lrst (straps : BitVec 2)
  | wake (asserted : Bool)
  | loadingEnd
  | takeTransaction (channel : Dir) (presented : Option Txn)
  | releasedTaken
  | downstreamGrant
  | readReturn (ref : DnRef) (okay : Bool) (lines : List Line)
  | writeAnswer (ref : DnRef) (okay : Bool)
  | commitCompletion
  | recordSettle
  | jobLeavesClosing (job : Fin 16)
  | wipeStart
  | wipeWriteIssue
  | wipeWriteAnswer (slot : Fin 8) (okay : Bool)
  | verifyReadIssue
  | verifyReadReturn (slot : Fin 8) (okay : Bool) (lines : List Line)
  | wipeDone
  | fetchStart
  | fetchReadReturn (slot : Fin 8) (okay : Bool) (line : Line)
  | reportWriteIssue
  | reportWriteAnswer (slot : Fin 8) (okay : Bool)
  | indexWriteIssue
  | indexWriteAnswer (slot : Fin 8) (okay : Bool)
  | accountFault
  | amemWriteStart
  | amemWriteComplete
  | lockoutExpiry
  | statusReq (bay : Fin 4)
  | identReq (bay : Fin 4)
  | proveReq (bay : Fin 4)
  | debitReq (bay : Fin 4)
  | statusRep (bay : Fin 4) (frame : List Byte)
  | identRep (bay : Fin 4) (frame : List Byte)
  | proveRep (bay : Fin 4) (frame : List Byte)
  | debitRep (bay : Fin 4) (frame : List Byte)
  | exchangeTimeout (bay : Fin 4)
  | standbyDrainEnd
  | flushComplete
  | standbyPostEnd
  | regionSet (tag : BitVec 16) (p : RegionSetParams)
  | regionClear (tag : BitVec 16) (index : Nat)
  | regionsCommit (tag : BitVec 16)
  | captureClear (tag : BitVec 16)
  | jobOpen (tag : BitVec 16) (p : JobOpenParams)
  | jobRelease (tag : BitVec 16) (job : Nat) (pin : Word8)
  | jobClose (tag : BitVec 16) (job : Nat)
  | jobQuery (tag : BitVec 16) (job : Nat)
  | markSelect (tag : BitVec 16) (job : Nat)
  | markInterrupt (tag : BitVec 16) (job : Nat)
  | markResume (tag : BitVec 16)
  | classSet (tag : BitVec 16) (p : ClassSetParams)
  | tariffSet (tag : BitVec 16) (p : TariffSetParams)
  | userSet (tag : BitVec 16) (p : UserSetParams)
  | userAdjust (tag : BitVec 16) (pin : Word8) (user : Nat) (amount : Int)
  | userQuery (tag : BitVec 16) (pin : Word8) (user : Nat)
  | deptSet (tag : BitVec 16) (pin : Word8) (dept : Nat) (allowance : Option Nat)
  | periodReset (tag : BitVec 16) (pin : Word8) (which : DeptChoice)
  | meterQuery (tag : BitVec 16) (pin : Word8)
  | servicePinSet (tag : BitVec 16) (pin : Word8) (newPin : Word8)
  | bayQuery (tag : BitVec 16) (bay : Nat)
  | bayConfig (tag : BitVec 16) (p : BayConfigParams)
  | wipeRange (tag : BitVec 16) (p : WipeRangeParams)
  | standbyEnter (tag : BitVec 16) (mode : Nat)
  | unknownKind (tag : BitVec 16) (kind : BitVec 16)
  | replyFrameBegins (bay : Fin 4)
  | supplyLoss
  deriving DecidableEq, Repr

end Sys2Proof
end

