-- ==== Sys2Proof/Machine/Records.lean ====
section
/-!
DEFINITION. The account records that ACE keeps and AMEM stores (chapters 5 to 7): the stored fields of each record,
their ranges (R129) and what the part leaves manufacture with.
-/

namespace Sys2Proof.Machine

/-- A PIN digest (R111). Its width and construction are no part of the interface. -/
structure Digest where
  value : Nat
  deriving DecidableEq, Repr, Inhabited

/-- The state of a user record (R110), in the order of the list. -/
inductive UserState where
  | unused
  | active
  | locked
  | suspect
  deriving DecidableEq, Repr, Inhabited

/-- The stored fields of a user record (R110). -/
structure UserStored where
  state : UserState
  digest : Option Digest
  failures : Nat
  department : Option (Fin 16)
  balance : Int
  overdraft : Nat
  maxJobs : Nat
  lifeMono : Nat
  lifeColour : Nat
  lifeCharge : Nat
  deriving DecidableEq, Repr, Inhabited

/-- The stored fields of a department record (R112): `none` is the allowance UNLIMITED. -/
structure DeptStored where
  allowance : Option Nat
  used : Nat
  deriving DecidableEq, Repr, Inhabited

/-- The device meters (R113): two banks of 16 counters, that of class `c` at `2*c` for mono and `2*c+1` for colour. -/
structure Meters where
  contract : Vector Nat 16
  outside : Vector Nat 16
  deriving DecidableEq, Repr, Inhabited

/-- An entry of the Sheet Class Table with its five fields (R91). An invalid entry holds its other fields too, as CLASS_SET
wrote them; they are not consulted (R92). -/
structure ClassEntry where
  valid : Bool
  maxLines : Nat
  maxDots : Nat
  basePrice : Nat
  colourPrice : Nat
  deriving DecidableEq, Repr, Inhabited

/-- The Sheet Class Table. -/
abbrev ClassTable := Vector ClassEntry 8

/-- The tariff (R93): F, S, M and Tc. -/
structure Tariff where
  free : Nat
  surcharge : Nat
  cap : Nat
  threshold : Nat
  deriving DecidableEq, Repr, Inhabited

/-- The policy of a plane's bay (R150). -/
inductive Policy where
  | genuineOnly
  | allowUnproven
  deriving DecidableEq, Repr, Inhabited

/-- The configuration of one bay (R150). -/
structure BayConf where
  policy : Policy
  attach : Nat
  detach : Nat
  dotMass : Nat
  quantum : Nat
  lowMark : Nat
  grace : Nat
  deriving DecidableEq, Repr, Inhabited

/-- The bay configuration record: one configuration for each bay. -/
abbrev BayConfs := Vector BayConf 4

/-- The stored fields of the service credential (section 6.4). -/
structure ServiceStored where
  digest : Digest
  failures : Nat
  deriving DecidableEq, Repr, Inhabited

/-- The 277 AMEM records by name (chapter 6). -/
inductive RecId where
  | service
  | tariff
  | classes
  | bays
  | meters
  | dept (i : Fin 16)
  | user (i : Fin 256)
  deriving DecidableEq, Repr, Inhabited

/-- The content of one AMEM write: which record, and its stored fields. -/
inductive AmemContent where
  | service (c : ServiceStored)
  | tariff (c : Tariff)
  | classes (c : ClassTable)
  | bays (c : BayConfs)
  | meters (c : Meters)
  | dept (i : Fin 16) (c : DeptStored)
  | user (i : Fin 256) (c : UserStored)
  deriving DecidableEq, Repr

/-- The record that an AMEM write writes. -/
def AmemContent.id : AmemContent → RecId
  | .service _ => .service
  | .tariff _ => .tariff
  | .classes _ => .classes
  | .bays _ => .bays
  | .meters _ => .meters
  | .dept i _ => .dept i
  | .user i _ => .user i

/-- The 32 bits of a saturating or unsigned 32-bit field. -/
def max32 : Nat := 2 ^ 32 - 1

/-- Every field of a stored user record lies in its stated range (R110, R129). -/
def UserStored.inRange (u : UserStored) : Bool :=
  u.failures ≤ 5 && (-(2 ^ 31 : Int) ≤ u.balance && u.balance ≤ 2 ^ 31 - 1) && u.overdraft ≤ 1000000000
    && (1 ≤ u.maxJobs && u.maxJobs ≤ 4) && u.lifeMono ≤ max32 && u.lifeColour ≤ max32 && u.lifeCharge ≤ max32

/-- Every field of a stored department record lies in its stated range (R112, R129). -/
def DeptStored.inRange (d : DeptStored) : Bool :=
  (match d.allowance with
    | none => true
    | some a => a ≤ 2 ^ 31 - 1) && d.used ≤ max32

/-- Every counter of the stored device meters lies in 32 bits (R113, R129). -/
def Meters.inRange (m : Meters) : Bool :=
  m.contract.toList.all (· ≤ max32) && m.outside.toList.all (· ≤ max32)

/-- The four fields of a valid class entry lie in the ranges of R91. -/
def ClassEntry.inRange (e : ClassEntry) : Bool :=
  (1 ≤ e.maxLines && e.maxLines ≤ 16384) && (1 ≤ e.maxDots && e.maxDots ≤ 65536)
    && e.basePrice ≤ 65535 && e.colourPrice ≤ 65535

/-- The four tariff parameters lie in the ranges of R93. -/
def Tariff.inRange (t : Tariff) : Bool :=
  t.free ≤ 40000 && t.surcharge ≤ 65535 && t.cap ≤ 65535 && (1 ≤ t.threshold && t.threshold ≤ 10000)

/-- The seven fields of a bay's configuration lie in the ranges of R150. -/
def BayConf.inRange (b : BayConf) : Bool :=
  (1 ≤ b.attach && b.attach ≤ 15) && (1 ≤ b.detach && b.detach ≤ 7) && (1 ≤ b.dotMass && b.dotMass ≤ 65535)
    && (1 ≤ b.quantum && b.quantum ≤ 1000) && b.lowMark ≤ 65535 && b.grace ≤ 65535

/-- The failure count of the service credential lies in 0 to 5. -/
def ServiceStored.inRange (s : ServiceStored) : Bool := s.failures ≤ 5

/-- Each field of `a` is at most that of `b` (the monotone condition of R91 for two valid entries). -/
def ClassEntry.le (a b : ClassEntry) : Bool :=
  a.maxLines ≤ b.maxLines && a.maxDots ≤ b.maxDots && a.basePrice ≤ b.basePrice && a.colourPrice ≤ b.colourPrice

/-- Neighbouring entries of a list of valid class entries are in order. -/
def classListMonotone : List ClassEntry → Bool
  | a :: b :: rest => a.le b && classListMonotone (b :: rest)
  | _ => true

/-- The valid entries of a class table, in ascending index. -/
def ClassTable.valids (t : ClassTable) : List ClassEntry := t.toList.filter ClassEntry.valid

/-- The two conditions of R91: monotone over the valid entries, and not empty. -/
def ClassTable.sound (t : ClassTable) : Bool := classListMonotone (ClassTable.valids t) && !(ClassTable.valids t).isEmpty

/-- A stored class table in range, monotone and not empty (R129). The fields of an invalid entry, which CLASS_SET takes without
a range check and nothing consults (R92), are not tested (log entry 33). -/
def ClassTable.inRange (t : ClassTable) : Bool := (ClassTable.valids t).all ClassEntry.inRange && ClassTable.sound t

/-- An invalid entry of the factory class table. R95 gives a dash for its other fields: each holds the least value of its range
(R91), the model's choice (log entry 33). -/
def invalidClass : ClassEntry := ⟨false, 1, 1, 0, 0⟩

/-- The factory class table (R95). -/
def factoryClasses : ClassTable :=
  #v[⟨true, 5000, 3600, 20, 30⟩, ⟨true, 7100, 5200, 40, 60⟩, ⟨true, 10000, 7200, 80, 120⟩, ⟨true, 14100, 10200, 160, 240⟩,
    invalidClass, invalidClass, invalidClass, invalidClass]

/-- The factory tariff (R93). -/
def factoryTariff : Tariff := ⟨500, 1000, 100, 5⟩

/-- The factory configuration of one bay (R150). -/
def factoryBay : BayConf := ⟨.genuineOnly, 3, 2, 5548, 50, 5000, 2000⟩

/-- The factory bay configuration, the same for all four bays (R150). -/
def factoryBays : BayConfs := Vector.replicate 4 factoryBay

/-- Meters of all zeros (R129, R131). -/
def zeroMeters : Meters := ⟨Vector.replicate 16 0, Vector.replicate 16 0⟩

/-- An UNUSED user as the part leaves manufacture (R129); the fields that R129 does not give are zero, none and the
least max jobs (log entry 3). -/
def factoryUser : UserStored := ⟨.unused, none, 0, none, 0, 0, 1, 0, 0, 0⟩

/-- A department as the part leaves manufacture: UNLIMITED, used 0 (R129). -/
def factoryDept : DeptStored := ⟨none, 0⟩

/-- The substitute of a bad user record (R131). -/
def suspectUser : UserStored := ⟨.suspect, none, 0, none, 0, 0, 1, 0, 0, 0⟩

/-- The substitute of a bad department record (R131). -/
def substituteDept : DeptStored := ⟨some 0, 0⟩

end Sys2Proof.Machine
end

