-- ==== Sys2Proof/Config.lean ====
section
/-!
DEFINITION. What the manual leaves open: free values, each an opaque constant without a body, so that a claim holds
whatever it is (log entries 4 to 7).
-/

namespace Sys2Proof

open Sys2Proof.Machine

/-- A job key: a secret value of fixed width, the width not stated (section 2.1). -/
structure Key where
  value : Nat
  deriving DecidableEq, Repr, Inhabited

/-- The line cipher (R32): for a key and a line address, a one-to-one map of lines. E is the map and D its inverse.
R32 gives D (E x) = x on all 64-byte lines; on a finite set that makes E one-to-one and onto (DEDUCED, log entry 4). -/
opaque Config.lineCipher : Key → Addr → Equiv.Perm Line

/-- What the internal random source supplies at its `n`-th draw (R31): free. -/
opaque Config.randomDraw : Nat → Nat

/-- How a draw is written as a key: a free one-to-one map, so that nothing is known of a key but that another draw gives another. -/
opaque Config.keyCode : Equiv.Perm Nat

/-- The key of the `n`-th draw (R31): what the source supplies, told apart by the draw, so that no key is ever drawn twice (R30: a
new key is never equal to a destroyed one; R31: a slot opened again has a different key). -/
def Config.randomKey (n : Nat) : Key := ⟨Config.keyCode (Nat.pair n (Config.randomDraw n))⟩

/-- The 8-byte nonce that the internal random source supplies at its `n`-th draw (R140, R146). -/
opaque Config.randomNonce : Nat → Word8

/-- The cartridge key Kc derived from the family root key and a serial (R139). -/
opaque Config.cartridgeKey : Word8 → Key

/-- The proof function P (R139): key, nonce, serial, level and sequence. -/
opaque Config.proofTag : Key → Word8 → Word8 → BitVec 32 → BitVec 16 → Word8

/-- How 8 digits make digests of user indices: for each PIN a free one-to-one map of the index, of which nothing else is known. -/
opaque Config.digestCode : Word8 → Equiv.Perm Nat

/-- The digest of a user PIN: a fixed function of the user index and the 8 digits. Two users with the same PIN hold different
digests (R111). -/
def Config.userDigest (user : Fin 256) (pin : Word8) : Digest := ⟨Config.digestCode pin user.val⟩

/-- The digest of a service PIN (section 6.4). -/
opaque Config.serviceDigest : Word8 → Digest

/-- The digest of the factory service credential, fixed at manufacture (R129). -/
opaque Config.factoryServiceDigest : Digest

/-- The charge class and detected class bytes of a PAGE_ABORTED report (section 11.4): no class is computed for an
aborted record and no rule gives these bytes, so they are free, by the record's place in the order of opening. -/
opaque Config.abortedClasses : Nat → Byte × Byte

/-- Whether the check code of the record torn by the `n`-th loss of supply happens to agree with the torn content
(R129: a chance of about 1 in 65,536). -/
opaque Config.tornAgrees : Nat → Bool

/-- The content that the `n`-th loss of supply leaves of a write in flight: partly old, partly new (R127). -/
opaque Config.tornService : Nat → ServiceStored → ServiceStored → ServiceStored
/-- As `tornService`, for the tariff. -/
opaque Config.tornTariff : Nat → Tariff → Tariff → Tariff
/-- As `tornService`, for the Sheet Class Table. -/
opaque Config.tornClasses : Nat → ClassTable → ClassTable → ClassTable
/-- As `tornService`, for the bay configuration. -/
opaque Config.tornBays : Nat → BayConfs → BayConfs → BayConfs
/-- As `tornService`, for the device meters. -/
opaque Config.tornMeters : Nat → Meters → Meters → Meters
/-- As `tornService`, for a department. -/
opaque Config.tornDept : Nat → DeptStored → DeptStored → DeptStored
/-- As `tornService`, for a user. -/
opaque Config.tornUser : Nat → UserStored → UserStored → UserStored

end Sys2Proof
end

