-- ==== Sys2Proof/Machine/State.lean ====
section
/-!
DEFINITION. The state of the part as plain data, block by block (spec/00_scope.md, BLOCK CHART), the reports and the
outputs it makes, and `State.reset`: the part right after POR.
-/

namespace Sys2Proof.Machine

/-! ## Path Front End (chapter 1) -/

/-- The role of a source (section 1.2). -/
inductive Role where
  | proc
  | scanIn
  | image
  | mark
  | net
  | store
  | other
  deriving DecidableEq, Repr, Inhabited

/-- The behaviour of a denial (R19). -/
inductive Behaviour where
  | error
  | fill
  | trap
  deriving DecidableEq, Repr, Inhabited

/-- The miss policy the anchor gives (R10). -/
inductive MissPolicy where
  | openAll
  | strict
  deriving DecidableEq, Repr, Inhabited

/-- The capture mode (R20). -/
inductive CaptureMode where
  | any
  | writes
  deriving DecidableEq, Repr, Inhabited

/-- The reason of a denial, in the order of the table of section 1.7. -/
inductive Reason where
  | malformed
  | closed
  | wiping
  | ring
  | noRegion
  | notPermitted
  | jobState
  | partialPrivate
  | notMarking
  | geometry
  | cartridge
  | tonerOut
  | quota
  deriving DecidableEq, Repr, Inhabited

/-- The entry a denial is captured with: an entry index or a pseudo-index (R20). -/
inductive CapEntry where
  | entry (i : Fin 32)
  | miss
  | ring
  | wipe
  | malformed
  deriving DecidableEq, Repr, Inhabited

/-- The record of the Violation Capture (R20). -/
structure CaptureRec where
  source : Fin 16
  dir : Dir
  addr : Addr
  entry : CapEntry
  reason : Reason
  deriving DecidableEq, Repr, Inhabited

/-- The view of an accepted transaction (R33). -/
inductive View where
  | none
  | plain
  | raw
  deriving DecidableEq, Repr, Inhabited

/-- The meter mark of one line of a read (R22). A record is named by its place in the order of opening. -/
inductive LineMark where
  | none
  | first (record : Nat) (plane : Fin 4)
  | remark (record : Option Nat) (plane : Fin 4)
  deriving DecidableEq, Repr, Inhabited

/-- A Read Tracker slot (R22), with the plane and dot depth of a metered read (R67). -/
structure ReadSlot where
  id : Nat
  source : Fin 16
  addr : Addr
  len : Nat
  entry : Option (Fin 32)
  job : Option (Fin 16)
  view : View
  marks : List LineMark
  meter : Option (Fin 4 × Nat)
  deriving DecidableEq, Repr, Inhabited

/-- A Write Tracker slot (R24), carrying the forwarded form of the data (R35). -/
structure WriteSlot where
  id : Nat
  source : Fin 16
  addr : Addr
  lines : List WriteLine
  entry : Option (Fin 32)
  job : Option (Fin 16)
  view : View
  indexLine : Bool
  deriving DecidableEq, Repr, Inhabited

/-- Why a transaction is held (section 1.6); an ASSEMBLY hold names the job that was marking (R87). -/
inductive HoldCause where
  | commit
  | assembly (job : Fin 16)
  deriving DecidableEq, Repr, Inhabited

/-- An entry of the Hold Queue. -/
structure HoldEntry where
  txn : Txn
  cause : HoldCause
  released : Bool
  deriving DecidableEq, Repr, Inhabited

/-- A ring window: its first line number (address / 64) and its slot count; it is slot count + 1 lines long (R7). -/
structure Window where
  baseLine : Nat
  slots : Nat
  deriving DecidableEq, Repr, Inhabited

/-- The state of PFE. `portReads` and `portWrites` are the transactions presented on the two request channels of UP
and not yet taken (R3, R28). -/
structure Path where
  roles : Option (Vector Role 16)
  cmdWindow : Option Window
  repWindow : Option Window
  missPolicy : Option MissPolicy
  captureMode : CaptureMode
  closed : Bool
  portReads : List Txn
  portWrites : List Txn
  reads : Vector (Option ReadSlot) 32
  writes : Vector (Option WriteSlot) 32
  hold : List HoldEntry
  capture : Option CaptureRec
  captureCount : Nat
  deriving DecidableEq, Repr

/-! ## The downstream port (section 1.9) -/

/-- A forwarded transaction waiting for a credit, by its tracker slot. -/
inductive FwdRef where
  | read (i : Fin 32)
  | write (i : Fin 32)
  deriving DecidableEq, Repr, Inhabited

/-- What an internal transaction is for, with what its block needs at completion. `retried` says that it has been
handed a second time (R170, R186, R190). -/
inductive Purpose where
  | fetch (retried : Bool)
  | reportSlot (slot : Nat) (data : Line) (retried : Bool)
  | indexWrite (head tail : BitVec 16)
  | wipeWrite (pass : Nat) (seedReg : BitVec 23) (retried : Bool)
  | verifyRead (passes : Nat) (seedReg : BitVec 23)
  deriving DecidableEq, Repr, Inhabited

/-- An Internal Tracker slot (R25). `discard` marks a transaction of RCI whose completion LRST has voided (R28). -/
structure InternalSlot where
  purpose : Purpose
  addr : Addr
  len : Nat
  discard : Bool
  deriving DecidableEq, Repr, Inhabited

/-- A forwarded transaction that LRST left issued on DN without a slot (R28). -/
structure Orphan where
  dir : Dir
  addr : Addr
  len : Nat
  deriving DecidableEq, Repr, Inhabited

/-- The state of the downstream port: the Internal Tracker, the credits, the two lists and the run count. -/
structure Down where
  internal : Vector (Option InternalSlot) 8
  credits : Nat
  forwarded : List FwdRef
  internalList : List (Fin 8)
  run : Nat
  orphans : List Orphan
  deriving DecidableEq, Repr

/-! ## Region Table (section 1.4) -/

/-- The class of a region entry. -/
inductive RegionClass where
  | plain
  | image
  | raster
  deriving DecidableEq, Repr, Inhabited

/-- A raster geometry (section 4.2). -/
structure Geometry where
  stride : Nat
  depth : Nat
  frameLines : Nat
  deriving DecidableEq, Repr, Inhabited

/-- The RASTER fields of an entry: its plane and its geometry. -/
structure Raster where
  plane : Fin 4
  geom : Geometry
  deriving DecidableEq, Repr, Inhabited

/-- A valid region entry. Absent fields are `none`, false or zero, so that two entries are equal, as section 1.4
defines it, exactly when they are the same data. -/
structure RegionEntry where
  cls : RegionClass
  priv : Bool
  job : Option (Fin 16)
  base : Nat
  count : Nat
  readMask : BitVec 16
  writeMask : BitVec 16
  rawMask : BitVec 16
  behaviour : Behaviour
  raster : Option Raster
  deriving DecidableEq, Repr, Inhabited

/-- The 32 entries of a table; `none` is an invalid entry. -/
abbrev RegionTable := Vector (Option RegionEntry) 32

/-- A pending commit: its changed set C and the tag of the command that made it (R14). -/
structure Commit where
  changed : List (Fin 32)
  tag : BitVec 16
  deriving DecidableEq, Repr, Inhabited

/-- The state of RGT. -/
structure Regions where
  live : RegionTable
  shadow : RegionTable
  inFlight : Vector Nat 32
  commit : Option Commit
  deriving DecidableEq, Repr

/-! ## Raster Meter (chapter 4) -/

/-- A plane tracker (R72); `tied` names a record of the same context. -/
structure Tracker where
  frame : Option Nat
  geom : Option Geometry
  hw : Nat
  tied : Option Nat
  deriving DecidableEq, Repr, Inhabited

/-- The status of an expected plane of a record (R73). -/
inductive PlaneStatus where
  | notSeen
  | opened
  | closed
  | absent
  deriving DecidableEq, Repr, Inhabited

/-- What a record holds for one expected plane (R73). -/
structure PlaneRec where
  geom : Geometry
  status : PlaneStatus
  chunks : Nat
  dots : Nat
  deriving DecidableEq, Repr, Inhabited

/-- A page record (R73). `opened` is the model's own name for it: its place in the order of opening since POR, which
does not wrap as the 32-bit record number does (log entry 12). -/
structure PageRecord where
  opened : Nat
  number : BitVec 32
  frame : Nat
  planes : Vector (Option PlaneRec) 4
  lines : Nat
  irregular : Bool
  incomplete : Bool
  unproven : Bool
  reserve : Nat
  job : Fin 16
  nonce : BitVec 32
  user : Fin 256
  deriving DecidableEq, Repr, Inhabited

/-- A meter context (section 4.4): four plane trackers and a Page Assembly Queue, oldest record first. -/
structure Context where
  trackers : Vector Tracker 4
  queue : List PageRecord
  deriving DecidableEq, Repr, Inhabited

/-- The counters of RMU: the 32-bit record counter (R73), and the model's count of records opened. -/
structure Rmu where
  recordCounter : BitVec 32
  opened : Nat
  deriving DecidableEq, Repr

/-! ## Job Context Table (chapter 3) -/

/-- Why a job is HELD. -/
inductive HoldReason where
  | secure
  | quota
  deriving DecidableEq, Repr, Inhabited

/-- The state of a job slot (R43); the hold reason is present when HELD. -/
inductive JobState where
  | free
  | opened
  | held (why : HoldReason)
  | closing
  | wiping
  deriving DecidableEq, Repr, Inhabited

/-- The kind of a job. -/
inductive JobKind where
  | copy
  | scan
  | print
  deriving DecidableEq, Repr, Inhabited

/-- The counters of a job slot (R43). -/
structure JobCounters where
  mono : Nat
  colour : Nat
  aborted : Nat
  charge : Nat
  dots : Vector Nat 4
  deriving DecidableEq, Repr, Inhabited

/-- A job slot (R43). `closeTag` is the tag of the JOB_CLOSE that JOB_CLOSED answers (section 10.4). -/
structure JobSlot where
  state : JobState
  kind : JobKind
  user : Fin 256
  declared : Option (Fin 8)
  passes : Nat
  verify : Bool
  closePending : Bool
  marked : Bool
  refs : Nat
  bound : Nat
  wipes : Nat
  own : Option Context
  counters : JobCounters
  nonce : BitVec 32
  closeTag : BitVec 16
  deriving DecidableEq, Repr, Inhabited

/-- A marking or stacked job with its meter context (R56). -/
structure Marked where
  job : Fin 16
  ctx : Context
  deriving DecidableEq, Repr, Inhabited

/-- The state of JCT: the slots, the open counter, the marking register with the current context, and the Marking
Stack, top first. -/
structure Jobs where
  slots : Vector JobSlot 16
  openCounter : BitVec 32
  marking : Option Marked
  stack : List Marked
  deriving DecidableEq, Repr

/-! ## Account Engine and Account Memory (chapters 5 and 6) -/

/-- The write-back state of a working record (R124). -/
inductive WbState where
  | clean
  | dirty
  | waiting
  | queued
  | writing (changed : Bool)
  deriving DecidableEq, Repr, Inhabited

/-- A working user record (R110): the stored fields and the volatile ones. -/
structure UserRec where
  stored : UserStored
  reserved : Nat
  posting : Nat
  wb : WbState
  deriving DecidableEq, Repr, Inhabited

/-- A working department record (R112). -/
structure DeptRec where
  stored : DeptStored
  reserved : Nat
  posting : Nat
  wb : WbState
  deriving DecidableEq, Repr, Inhabited

/-- The working device-meter record (R113); `zeroed` is the mark METER_QUERY shows (R122). -/
structure MeterRec where
  stored : Meters
  posting : Nat
  wb : WbState
  zeroed : Bool
  deriving DecidableEq, Repr, Inhabited

/-- The fault list (R130, R132). -/
structure FaultList where
  users : BitVec 256
  depts : BitVec 16
  meters : Bool
  classes : Bool
  tariff : Bool
  bays : Bool
  service : Bool
  deriving DecidableEq, Repr, Inhabited

/-- The state of ACE: the 277 working records, the lockout start time, the Account Write-back Queue, the Waiting List,
the write in flight and the fault list. -/
structure Ace where
  users : Vector UserRec 256
  depts : Vector DeptRec 16
  meters : MeterRec
  classes : ClassTable
  classesWb : WbState
  tariff : Tariff
  tariffWb : WbState
  bays : BayConfs
  baysWb : WbState
  service : ServiceStored
  serviceWb : WbState
  lockout : Option (BitVec 32)
  queue : List RecId
  waiting : List RecId
  writing : Option AmemContent
  faults : FaultList
  deriving DecidableEq, Repr

/-- An AMEM record: its content and whether its 16-bit check code agrees with that content (R129, log entry 7). -/
structure Cell (α : Type) where
  content : α
  agrees : Bool
  deriving DecidableEq, Repr

/-- Account Memory: the non-volatile records (R129). -/
structure Amem where
  service : Cell ServiceStored
  tariff : Cell Tariff
  classes : Cell ClassTable
  bays : Cell BayConfs
  meters : Cell Meters
  depts : Vector (Cell DeptStored) 16
  users : Vector (Cell UserStored) 256
  deriving DecidableEq, Repr

/-! ## Cartridge Check Unit (chapter 7) -/

/-- The state of a bay (R137). -/
inductive BayState where
  | vacant
  | settling
  | identifying
  | proving
  | genuine
  | unproven
  | wrongBay
  deriving DecidableEq, Repr, Inhabited

/-- The cause of a bay's last state change (R145). -/
inductive BayCause where
  | attach
  | settleLost
  | settled
  | wrongColour
  | duplicate
  | identified
  | proofGood
  | proofBad
  | debitTagBad
  | detach
  | restarted
  | standby
  deriving DecidableEq, Repr, Inhabited

/-- The four kinds of exchange on a line (section 7.1). -/
inductive Exch where
  | status
  | ident
  | prove
  | debit
  deriving DecidableEq, Repr, Inhabited

/-- The exchange in progress on a line (R134): its kind, the moment its present deadline is measured from, whether the
reply has begun, and the nonce a PROVE_REQ carried. -/
structure Exchange where
  kind : Exch
  since : BitVec 32
  begun : Bool
  nonce : Word8
  deriving DecidableEq, Repr, Inhabited

/-- The open debit of a bay (R146). `sends` counts the sends made, for which no rule gives a width: it does not end (log
entry 39). -/
structure OpenDebit where
  seq : BitVec 16
  amount : Nat
  nonce : Word8
  sends : Nat
  deriving DecidableEq, Repr, Inhabited

/-- An unconfirmed debit (R148). -/
structure Unconfirmed where
  seq : BitVec 16
  amount : Nat
  deriving DecidableEq, Repr, Inhabited

/-- When the next exchange of a bay's line falls due (R136): never (during LOADING and in standby), at once, or 200 ms
after the end of the last exchange. -/
inductive Due where
  | never
  | atOnce
  | after (lastEnd : BitVec 32)
  deriving DecidableEq, Repr, Inhabited

/-- A bay record (R137). `waiting` says that a debit request is waiting (R146). -/
structure Bay where
  state : BayState
  settle : Nat
  failures : Nat
  serial : Option Word8
  foreign : Option Word8
  colour : Option Byte
  capacity : Option (BitVec 32)
  reported : BitVec 32
  statusLevel : BitVec 32
  statusFlags : Byte
  issued : Option (BitVec 16)
  openDebit : Option OpenDebit
  unconfirmed : Option Unconfirmed
  lastCause : Option BayCause
  lastChange : BitVec 32
  line : Option Exchange
  due : Due
  waiting : Bool
  deriving DecidableEq, Repr, Inhabited

/-- An entry of the Departed Cartridge List (R149). -/
structure Departed where
  serial : Word8
  plane : Fin 4
  mg : Nat
  pg : Nat
  unconfirmed : Option Unconfirmed
  deriving DecidableEq, Repr, Inhabited

/-- The state of CCU: the bay records and the Departed Cartridge List, oldest first. -/
structure Ccu where
  bays : Vector Bay 4
  departed : List Departed
  deriving DecidableEq, Repr

/-! ## Toner Meter (chapter 8) -/

/-- The level state of a plane (R164). -/
inductive LevelState where
  | none
  | normal
  | low
  | out
  deriving DecidableEq, Repr, Inhabited

/-- The figures of one plane (R155). Totals are pairs of whole milligrams and a picogram remainder. -/
structure Figures where
  pg : Nat
  pending : Nat
  inFlight : Nat
  round : Option Nat
  stale : Option Nat
  flush : Bool
  view : BayState
  viewLevel : Nat
  level : LevelState
  overrun : Nat
  meteredMg : Nat
  meteredPg : Nat
  postedMg : Nat
  writtenMg : Nat
  writtenPg : Nat
  deriving DecidableEq, Repr, Inhabited

/-! ## Wipe Engine (chapter 9) -/

/-- The origin of a wipe entry (R168); an EXPLICIT entry keeps the tag of its WIPE_RANGE. -/
inductive WipeOrigin where
  | explicit (tag : BitVec 16)
  | job (slot : Fin 16) (nonce : BitVec 32)
  deriving DecidableEq, Repr, Inhabited

/-- The progress of a wipe entry (R168): in a pass or in VERIFY, the next line to hand, the transactions outstanding
and the generator's register at that line (R171). -/
inductive Progress where
  | waiting
  | pass (k : Nat) (next : Nat) (outstanding : Nat) (reg : BitVec 23)
  | verify (next : Nat) (outstanding : Nat) (reg : BitVec 23)
  deriving DecidableEq, Repr, Inhabited

/-- A Wipe Queue entry (R168). -/
structure WipeEntry where
  number : BitVec 32
  base : Nat
  count : Nat
  passes : Nat
  verify : Bool
  origin : WipeOrigin
  progress : Progress
  mismatch : Nat
  deriving DecidableEq, Repr, Inhabited

/-- The state of WPE: the Wipe Queue, head first, and the wipe counter. -/
structure Wpe where
  queue : List WipeEntry
  counter : BitVec 32
  deriving DecidableEq, Repr

/-! ## Reports (chapters 10 and 11) -/

/-- The result codes, in the order of section 10.5. -/
inductive ResultCode where
  | ok
  | badParam
  | badCredential
  | unknownKind
  | noSlot
  | badUser
  | badPin
  | userLocked
  | userSuspect
  | userBusy
  | jobState
  | pageOpen
  | stackFull
  | stackEmpty
  | overlap
  | wipeOverlap
  | dupPlane
  | geometry
  | busyCommit
  | markingActive
  | limitBelowUse
  | quota
  | busyWipe
  | busyMarking
  | queueFull
  deriving DecidableEq, Repr, Inhabited

/-- The marking position of a job that JOB_QUERY shows (R55). -/
inductive MarkPosition where
  | marking
  | stacked (depth : Nat)
  | ownContext (records : Nat)
  | none
  deriving DecidableEq, Repr, Inhabited

/-- The values a result report carries, by command. -/
inductive ResultValues where
  | none
  | msLeft (ms : Nat)
  | capture (record : Option CaptureRec) (count : Nat)
  | jobOpened (slot : Fin 16) (nonce : BitVec 32)
  | jobInfo (slot : JobSlot) (position : MarkPosition)
  | depth (n : Nat)
  | resumed (marking : Option (Fin 16)) (discarded : Nat)
  | classTable (t : ClassTable)
  | tariff (t : Tariff)
  | userInfo (u : UserRec) (jobs : Nat)
  | adjusted (balance : Int) (reserved : Nat) (clamped : Bool)
  | deptInfo (allowance : Option Nat) (used reserved : Nat)
  | usedAmounts (used : List Nat)
  | meters (m : Meters) (zeroed : Bool)
  | bayInfo (bay : Bay) (conf : BayConf) (figures : Figures) (estimate : Option Nat) (departed : List Departed)
  | bayConf (c : BayConf)
  | wipeNumber (n : BitVec 32)
  deriving DecidableEq, Repr

/-- A refused field of a command index line (R185): the value offered and the value kept. -/
structure RefusedIndex where
  isReportHead : Bool
  offered : BitVec 16
  kept : BitVec 16
  deriving DecidableEq, Repr, Inhabited

/-- The cause of a RING_FAULT report: INDEX (R185), FETCH (R186) or POST (R190). -/
inductive RingFault where
  | index (refused : List RefusedIndex)
  | fetch (slot : Nat)
  | post (slot : Nat)
  deriving DecidableEq, Repr, Inhabited

/-- The items of a PAGE_CHARGED report (R106). -/
structure PageCharge where
  record : PageRecord
  chargeClass : Nat
  detectedClass : Nat
  oversize : Bool
  colour : Bool
  coverage : Vector Nat 4
  covsum : Nat
  surcharge : Nat
  charge : Nat
  balance : Int
  deriving DecidableEq, Repr

/-- What became of a departing cartridge's toner share (R145, R148). -/
inductive ShareFate where
  | entryMade
  | writtenOff
  | nothingPending
  deriving DecidableEq, Repr, Inhabited

/-- The departure items of a BAY_STATE report (R145): the share's fate and amounts, and the entry dropped from a full
list. -/
structure DepartureItems where
  fate : ShareFate
  mg : Nat
  pg : Nat
  dropped : Option Departed
  deriving DecidableEq, Repr, Inhabited

/-- The items of a BAY_STATE report (R145). -/
structure BayReport where
  bay : Fin 4
  before : BayState
  after : BayState
  cause : BayCause
  serial : Option Word8
  level : Option (BitVec 32)
  returned : Option (Nat × Nat)
  confirmed : Option Nat
  departure : Option DepartureItems
  deriving DecidableEq, Repr, Inhabited

/-- Why a range was skipped (R169). -/
inductive SkipCause where
  | overLimit
  | queueFull
  deriving DecidableEq, Repr, Inhabited

/-- The mode of STANDBY_ENTER (R176). -/
inductive StandbyMode where
  | retain
  | erase
  deriving DecidableEq, Repr, Inhabited

/-- The counts the STANDBY report carries (R177). -/
structure StandbyTally where
  ended : Nat
  freed : Nat
  bays : Nat
  writes : Nat
  deriving DecidableEq, Repr, Inhabited

/-- The body of a report (section 10.6). -/
inductive ReportBody where
  | result (kind : BitVec 16) (code : ResultCode) (values : ResultValues)
  | ringFault (cause : RingFault)
  | regionsCommitted (dropped : Nat)
  | violation (captured : Bool) (what : CaptureRec)
  | jobHeld (slot : Fin 16) (nonce : BitVec 32) (user : Fin 256) (why : HoldReason)
  | jobClosed (slot : Fin 16) (nonce : BitVec 32) (user : Fin 256) (counters : JobCounters) (appended skipped : Nat)
      (after : JobState)
  | jobFreed (slot : Fin 16) (nonce : BitVec 32)
  | pageCharged (p : PageCharge)
  | pageAborted (r : PageRecord)
  | accountFault (f : FaultList)
  | bayState (b : BayReport)
  | tonerLevel (plane : Fin 4) (isOut : Bool) (estimate : Nat) (reported : Nat) (state : BayState)
      (serial : Option Word8) (overrun : Nat)
  | wipeDone (number : BitVec 32) (base count passes : Nat) (verify : Bool) (origin : WipeOrigin) (mismatch : Nat)
  | wipeSkipped (slot : Fin 16) (nonce : BitVec 32) (appended skipped : Nat) (cause : SkipCause)
      (ranges : List (Nat × Nat))
  | standby (mode : StandbyMode) (tally : StandbyTally)
  deriving DecidableEq, Repr

/-- A report as an event hands it to RCI: its body, its tag, and whether the held entry of R188 is kept for it. -/
structure Handed where
  body : ReportBody
  tag : BitVec 16
  usesHeld : Bool
  deriving DecidableEq, Repr

/-- A report in the Report Queue (R188): with its time stamp, the DROPPED flag and the lost-report count. -/
structure Report where
  body : ReportBody
  tag : BitVec 16
  time : BitVec 32
  dropped : Bool
  lost : Nat
  deriving DecidableEq, Repr

/-! ## Ring Interface (chapters 9 and 10) -/

/-- The start-up state (R180). -/
inductive Startup where
  | loading
  | awaitAnchor
  | anchored
  deriving DecidableEq, Repr, Inhabited

/-- The anchored ring values and the four indices (R183). The anchor is held exactly when these are present. -/
structure Rings where
  cmdBase : Addr
  cmdSlots : Nat
  repBase : Addr
  repSlots : Nat
  cmdHead : BitVec 16
  cmdTail : BitVec 16
  repHead : BitVec 16
  repTail : BitVec 16
  deriving DecidableEq, Repr, Inhabited

/-- The report being posted: how many of its slot writes have been handed, and how many are done (R190). -/
structure Posting where
  handed : Nat
  done : Nat
  deriving DecidableEq, Repr, Inhabited

/-- The phase of standby entry at the end of an event (R177). ERASE and DETACH begin and end inside one event. -/
inductive StandbyPhase where
  | drain
  | flush
  | post
  deriving DecidableEq, Repr, Inhabited

/-- The standby state (section 9.4). While ENTERING it holds the mode, the phase, the tag of STANDBY_ENTER and the
counts of the STANDBY report. -/
inductive Standby where
  | running
  | entering (mode : StandbyMode) (phase : StandbyPhase) (tag : BitVec 16) (tally : StandbyTally)
  | standby
  deriving DecidableEq, Repr, Inhabited

/-- The state of RCI. `indexWritten` holds the values of the last report index line write answered OKAY (R190);
`hand` says that a command is in hand (R186) and `held` that a report entry is held for its result (R188). `faultAt` is present
while an ACCOUNT_FAULT waits (R189): the counter's value in the event in which it was handed (R188). -/
structure Rci where
  startup : Startup
  rings : Option Rings
  straps : BitVec 2
  hand : Bool
  held : Bool
  queue : List Report
  lost : Nat
  droppedMark : Bool
  posting : Option Posting
  indexWritten : Option (BitVec 16 × BitVec 16)
  faultAt : Option (BitVec 32)
  standby : Standby
  wakePin : Bool
  deriving DecidableEq, Repr

/-- An ACCOUNT_FAULT waits (R189). -/
def Rci.faultWaiting (r : Rci) : Bool := r.faultAt.isSome

/-! ## Outputs -/

/-- What is issued on DN: a read of so many lines, or written lines with their masks. -/
inductive DnOp where
  | read (lines : Nat)
  | write (lines : List WriteLine)
  deriving DecidableEq, Repr

/-- What an event puts on the part's ports: a response on UP (R2), a transaction issued on DN (R26), a request frame on
a cartridge line (R134). -/
inductive Output where
  | response (id : Nat) (dir : Dir) (okay : Bool) (lines : List Line)
  | issue (addr : Addr) (op : DnOp)
  | frame (bay : Fin 4) (bytes : List Byte)
  deriving DecidableEq, Repr

/-! ## The whole state -/

/-- The state of the part. The fields after `rci` are: the millisecond counter (R184), whether supply is present, the
model's counts of random draws and of supply losses (log entries 5 and 7), the outputs of the latest event, the reports
that the event in progress has handed, and the queue of commands that wait. -/
structure State where
  path : Path
  down : Down
  rgt : Regions
  keys : Vector (Option Key) 16
  jct : Jobs
  rmu : Rmu
  ace : Ace
  amem : Amem
  ccu : Ccu
  tmu : Vector Figures 4
  wpe : Wpe
  rci : Rci
  ms : BitVec 32
  powered : Bool
  draws : Nat
  losses : Nat
  out : List Output
  handed : List Handed
  pending : List Instr
  deriving DecidableEq, Repr

/-- The reasons for a fault. There is none: the manual stops the part on no command, and a command whose event cannot
occur leaves the state as it is (log entry 1). -/
inductive Fault where
  deriving DecidableEq, Repr

/-- The reasons for a refusal. -/
inductive Refusal where
  /-- Raised by `exec` for a row of the table that has no meaning yet (safe); no arm raises it. -/
  | notModelled (mnemonic : String)
  deriving DecidableEq, Repr

/-! ## Values after power-on reset -/

/-- PFE at POR (R27). That what was presented on UP and not yet taken is gone too is the model's choice: R28 states it for LRST
alone (log entry 40). -/
def Path.por : Path :=
  { roles := none, cmdWindow := none, repWindow := none, missPolicy := none, captureMode := .any, closed := false,
    portReads := [], portWrites := [], reads := Vector.replicate 32 none, writes := Vector.replicate 32 none,
    hold := [], capture := none, captureCount := 0 }

/-- The downstream port at POR (R27). -/
def Down.por : Down :=
  { internal := Vector.replicate 8 none, credits := 48, forwarded := [], internalList := [], run := 0, orphans := [] }

/-- RGT at POR (R27). -/
def Regions.por : Regions :=
  { live := Vector.replicate 32 none, shadow := Vector.replicate 32 none, inFlight := Vector.replicate 32 0,
    commit := none }

/-- Job counters of zero. -/
def JobCounters.zero : JobCounters := ⟨0, 0, 0, 0, Vector.replicate 4 0⟩

/-- A FREE job slot that no job has held since POR (R54, R66). Kind, user, declared class and wipe settings are not
consulted while the slot is FREE. -/
def JobSlot.por : JobSlot :=
  { state := .free, kind := .copy, user := 0, declared := none, passes := 0, verify := false, closePending := false,
    marked := false, refs := 0, bound := 0, wipes := 0, own := none, counters := .zero, nonce := 0, closeTag := 0 }

/-- JCT at POR (R66). -/
def Jobs.por : Jobs := { slots := Vector.replicate 16 .por, openCounter := 0, marking := none, stack := [] }

/-- An empty fault list. -/
def FaultList.empty : FaultList := ⟨0, 0, false, false, false, false, false⟩

/-- ACE at POR: volatile amounts 0 and the write-back queues empty (R109, R133). The working records are loaded by
LOADING_END; until then they stand at their manufacture values (log entry 3). -/
def Ace.por : Ace :=
  { users := Vector.replicate 256 ⟨factoryUser, 0, 0, .clean⟩, depts := Vector.replicate 16 ⟨factoryDept, 0, 0, .clean⟩,
    meters := ⟨zeroMeters, 0, .clean, false⟩, classes := factoryClasses, classesWb := .clean, tariff := factoryTariff,
    tariffWb := .clean, bays := factoryBays, baysWb := .clean, service := ⟨Config.factoryServiceDigest, 0⟩,
    serviceWb := .clean, lockout := none, queue := [], waiting := [], writing := none, faults := .empty }

/-- AMEM as the part leaves manufacture (R129). -/
def Amem.factory : Amem :=
  { service := ⟨⟨Config.factoryServiceDigest, 0⟩, true⟩, tariff := ⟨factoryTariff, true⟩, classes := ⟨factoryClasses, true⟩,
    bays := ⟨factoryBays, true⟩, meters := ⟨zeroMeters, true⟩, depts := Vector.replicate 16 ⟨factoryDept, true⟩,
    users := Vector.replicate 256 ⟨factoryUser, true⟩ }

/-- A bay at POR (R154); the time of the last change, which no rule states, is 0 (log entry 3). -/
def Bay.por : Bay :=
  { state := .vacant, settle := 0, failures := 0, serial := none, foreign := none, colour := none, capacity := none,
    reported := 0, statusLevel := 0, statusFlags := 0, issued := none, openDebit := none, unconfirmed := none,
    lastCause := none, lastChange := 0, line := none, due := .never, waiting := false }

/-- CCU at POR (R154). -/
def Ccu.por : Ccu := { bays := Vector.replicate 4 .por, departed := [] }

/-- The figures of a plane at POR (R167). -/
def Figures.por : Figures :=
  { pg := 0, pending := 0, inFlight := 0, round := none, stale := none, flush := false, view := .vacant, viewLevel := 0,
    level := .none, overrun := 0, meteredMg := 0, meteredPg := 0, postedMg := 0, writtenMg := 0, writtenPg := 0 }

/-- WPE at POR (R175). -/
def Wpe.por : Wpe := { queue := [], counter := 0 }

/-- RCI at POR (R184), with the straps sampled at that reset. -/
def Rci.por (straps : BitVec 2) : Rci :=
  { startup := .loading, rings := none, straps := straps, hand := false, held := false, queue := [], lost := 0,
    droppedMark := false, posting := none, indexWritten := none, faultAt := none, standby := .running,
    wakePin := false }

/-- The part right after POR (R27, R42, R66, R89, R109, R133, R154, R167, R175, R184), with AMEM as it leaves manufacture
and both straps sampled low (log entry 3). -/
def State.reset : State :=
  { path := .por, down := .por, rgt := .por, keys := Vector.replicate 16 none, jct := .por,
    rmu := ⟨0, 0⟩, ace := .por, amem := .factory, ccu := .por, tmu := Vector.replicate 4 .por, wpe := .por,
    rci := .por 0, ms := 0, powered := true, draws := 0, losses := 0, out := [], handed := [], pending := [] }

end Sys2Proof.Machine
end

