-- ==== Sys2Proof/Machine/Bytes.lean ====
section
/-!
DEFINITION. Byte order and bit fields (R192), the dot sum of a line (R80) and the pattern generator (R171).
-/

namespace Sys2Proof.Machine

/-- The `n` bytes from offset `off` of a line, little-endian (R192). -/
def Line.field (l : Line) (off n : Nat) : Nat := (l.extractLsb' (8 * off) (8 * n)).toNat

/-- The 16-bit field at offset `off` of a line. -/
def Line.field16 (l : Line) (off : Nat) : BitVec 16 := l.extractLsb' (8 * off) 16

/-- The eight bytes from offset `off` of a line. -/
def Line.word8 (l : Line) (off : Nat) : Word8 := l.extractLsb' (8 * off) 64

/-- The signed 32-bit field at offset `off` of a line (R192). -/
def Line.signed32 (l : Line) (off : Nat) : Int := (l.extractLsb' (8 * off) 32).toInt

/-- A field that holds all ones in its `n` bytes when absent (R192). -/
def Line.fieldOpt (l : Line) (off n : Nat) : Option Nat :=
  if Line.field l off n = 256 ^ n - 1 then none else some (Line.field l off n)

/-- A field that holds 0 when absent (section 11.3: dot depth, line stride, frame lines). -/
def Line.fieldOptZero (l : Line) (off n : Nat) : Option Nat :=
  if Line.field l off n = 0 then none else some (Line.field l off n)

/-- The low `n` bytes of a number, least significant first (R192). -/
def leBytes : Nat → Nat → List Byte
  | 0, _ => []
  | n + 1, v => BitVec.ofNat 8 v :: leBytes n (v / 256)

/-- A number as one byte. -/
def byte (v : Nat) : Byte := BitVec.ofNat 8 v

/-- Yes and no as a byte (R192). -/
def yesNo (b : Bool) : Byte := if b then 1 else 0

/-- A signed 32-bit number in two's complement (R192). -/
def leInt32 (v : Int) : List Byte := leBytes 4 (BitVec.ofInt 32 v).toNat

/-- The eight bytes of a serial, nonce or tag in offset order (R192). -/
def word8Bytes (w : Word8) : List Byte := leBytes 8 w.toNat

/-- An item that may be absent where all ones lies within its range: a yes/no byte, then the item's bytes, 0 when none
is present (R192). -/
def presence (n : Nat) : Option (List Byte) → List Byte
  | none => 0 :: List.replicate n 0
  | some bs => 1 :: bs

/-- The line whose bytes in ascending offset are these, the rest 0. -/
def lineOfBytes (bs : List Byte) : Line := bs.foldr (fun b acc => (acc <<< 8) ||| b.setWidth 512) 0

/-- The number that bytes spell, least significant first (R192). -/
def natOfBytes (bs : List Byte) : Nat := bs.foldr (fun b acc => b.toNat + 256 * acc) 0

/-- The bytes from position `off` of a frame, `n` of them, as a number. -/
def frameField (bs : List Byte) (off n : Nat) : Nat := natOfBytes ((bs.drop off).take n)

/-! ## Addresses -/

/-- The page of an address (R1). -/
def pageOf (a : Addr) : Page := a.toNat / 4096

/-- The number of the line an address lies in. -/
def lineOf (a : Addr) : Nat := a.toNat / 64

/-- The address of the `k`-th line from an address (section 2.2). -/
def lineAddr (a : Addr) (k : Nat) : Addr := a + BitVec.ofNat 36 (64 * k)

/-- Two page ranges share a page (section 1.4). -/
def rangesOverlap (b₁ n₁ b₂ n₂ : Nat) : Bool := b₁ < b₂ + n₂ && b₂ < b₁ + n₁

/-- A page lies in a range. -/
def inRangeOf (p base count : Nat) : Bool := base ≤ p && p < base + count

/-! ## Dot sums (R80) -/

/-- The sum of the dot values of a line at a depth: 512 / depth values of depth bits each. The order of the dots does
not matter (R80). -/
def dotSum (depth : Nat) (l : Line) : Nat :=
  ((List.range (512 / depth)).map fun i => (l.extractLsb' (i * depth) depth).toNat).sum

/-! ## The pattern generator (R171) -/

/-- The seed of an entry: stage `k` of the register is bit `k - 1`. -/
def prbsSeed (base : Nat) : BitVec 23 := BitVec.ofNat 23 (base % 2 ^ 23) ||| 1

/-- One step of the register: stages move up by one, stage 1 takes stage 23 exclusive-or stage 18. -/
def prbsStep (r : BitVec 23) : BitVec 23 :=
  (r <<< 1) ||| (if r.getLsbD 22 != r.getLsbD 17 then 1 else 0)

/-- The register after `n` steps. -/
def prbsRun : Nat → BitVec 23 → BitVec 23
  | 0, r => r
  | n + 1, r => prbsRun n (prbsStep r)

/-- The next `n` output bits, each the content of stage 23 before its step. -/
def prbsBits : Nat → BitVec 23 → List Bool
  | 0, _ => []
  | n + 1, r => r.getLsbD 22 :: prbsBits n (prbsStep r)

/-- A byte from eight output bits, the first taken the most significant. -/
def byteOfBits (bs : List Bool) : Byte := BitVec.ofNat 8 (bs.foldl (fun acc b => 2 * acc + b.toNat) 0)

/-- `n` bytes from the register, in ascending address order. -/
def prbsBytes : Nat → BitVec 23 → List Byte
  | 0, _ => []
  | n + 1, r => byteOfBits (prbsBits 8 r) :: prbsBytes n (prbsRun 8 r)

/-- The PRBS line that starts with the register `r`. -/
def prbsLine (r : BitVec 23) : Line := lineOfBytes (prbsBytes 64 r)

/-- The pattern of pass `k` for the line whose first bit the register `r` gives (R170). -/
def patternLine (k : Nat) (r : BitVec 23) : Line :=
  if k = 1 then prbsLine r else if k = 2 then ~~~ prbsLine r else 0

/-- The patterns of `n` lines in a row from the register `r`. -/
def patternLines (k : Nat) : Nat → BitVec 23 → List Line
  | 0, _ => []
  | n + 1, r => patternLine k r :: patternLines k n (prbsRun 512 r)

end Sys2Proof.Machine
end

