-- ==== Sys2Proof/Machine/Reports.lean ====
section
/-!
DEFINITION. How a report is written into report slots (R192, R193, section 11.4). The layouts that section 11.4 does not
lay down are packed by R192; where R192 leaves the form of an item open, log entry 14 says what is chosen.
-/

namespace Sys2Proof.Machine

/-! ## Positions in lists (R192) -/

/-- The number of a result code (section 10.5, OK 0 to QUEUE_FULL 24). -/
def ResultCode.number : ResultCode → Nat
  | .ok => 0 | .badParam => 1 | .badCredential => 2 | .unknownKind => 3 | .noSlot => 4 | .badUser => 5 | .badPin => 6
  | .userLocked => 7 | .userSuspect => 8 | .userBusy => 9 | .jobState => 10 | .pageOpen => 11 | .stackFull => 12
  | .stackEmpty => 13 | .overlap => 14 | .wipeOverlap => 15 | .dupPlane => 16 | .geometry => 17 | .busyCommit => 18
  | .markingActive => 19 | .limitBelowUse => 20 | .quota => 21 | .busyWipe => 22 | .busyMarking => 23 | .queueFull => 24

/-- The kind of a report (section 10.6, RESULT 1 to STANDBY 15). -/
def ReportBody.kind : ReportBody → Nat
  | .result .. => 1 | .ringFault .. => 2 | .regionsCommitted .. => 3 | .violation .. => 4 | .jobHeld .. => 5
  | .jobClosed .. => 6 | .jobFreed .. => 7 | .pageCharged .. => 8 | .pageAborted .. => 9 | .accountFault .. => 10
  | .bayState .. => 11 | .tonerLevel .. => 12 | .wipeDone .. => 13 | .wipeSkipped .. => 14 | .standby .. => 15

def dirNumber : Dir → Nat
  | .read => 0 | .write => 1

def Reason.number : Reason → Nat
  | .malformed => 0 | .closed => 1 | .wiping => 2 | .ring => 3 | .noRegion => 4 | .notPermitted => 5 | .jobState => 6
  | .partialPrivate => 7 | .notMarking => 8 | .geometry => 9 | .cartridge => 10 | .tonerOut => 11 | .quota => 12

/-- An entry index, or a pseudo-index after the indices, in the order R20 lists them. -/
def CapEntry.number : CapEntry → Nat
  | .entry i => i.val | .miss => 32 | .ring => 33 | .wipe => 34 | .malformed => 35

def HoldReason.number : HoldReason → Nat
  | .secure => 0 | .quota => 1

def JobState.number : JobState → Nat
  | .free => 0 | .opened => 1 | .held _ => 2 | .closing => 3 | .wiping => 4

def JobKind.number : JobKind → Nat
  | .copy => 0 | .scan => 1 | .print => 2

def PlaneStatus.number : PlaneStatus → Nat
  | .notSeen => 0 | .opened => 1 | .closed => 2 | .absent => 3

def UserState.number : UserState → Nat
  | .unused => 0 | .active => 1 | .locked => 2 | .suspect => 3

/-- The write-back states in their order (R124). The changed mark of WRITING, of which R119 says nothing, is not shown: the model's
choice (log entry 14). -/
def WbState.number : WbState → Nat
  | .clean => 0 | .dirty => 1 | .waiting => 2 | .queued => 3 | .writing _ => 4

def BayState.number : BayState → Nat
  | .vacant => 0 | .settling => 1 | .identifying => 2 | .proving => 3 | .genuine => 4 | .unproven => 5 | .wrongBay => 6

def BayCause.number : BayCause → Nat
  | .attach => 0 | .settleLost => 1 | .settled => 2 | .wrongColour => 3 | .duplicate => 4 | .identified => 5
  | .proofGood => 6 | .proofBad => 7 | .debitTagBad => 8 | .detach => 9 | .restarted => 10 | .standby => 11

/-- The kind of the exchange in progress in BAY_QUERY (R152). The manual gives no list of the four: the order of the requests in section
7.1 is the model's choice (log entry 14). -/
def Exch.number : Exch → Nat
  | .status => 0 | .ident => 1 | .prove => 2 | .debit => 3

def LevelState.number : LevelState → Nat
  | .none => 0 | .normal => 1 | .low => 2 | .out => 3

def Policy.number : Policy → Nat
  | .genuineOnly => 0 | .allowUnproven => 1

def ShareFate.number : ShareFate → Nat
  | .entryMade => 0 | .writtenOff => 1 | .nothingPending => 2

/-! ## Items -/

/-- A one-byte optional field, $FF when absent (R192). -/
def optByte : Option Nat → Byte
  | none => 255
  | some v => byte v

/-- An item that may be absent, where all ones lies outside its range: all ones in its width of `n` bytes when absent (R192). -/
def orOnes (n : Nat) (item : Option (List Byte)) : List Byte := item.getD (List.replicate n 255)

def packCapture (c : CaptureRec) : List Byte :=
  byte c.source.val :: byte (dirNumber c.dir) :: leBytes 5 c.addr.toNat ++ [byte c.entry.number, byte c.reason.number]

def packCounters (c : JobCounters) : List Byte :=
  leBytes 4 c.mono ++ leBytes 4 c.colour ++ leBytes 4 c.aborted ++ leBytes 4 c.charge
    ++ (c.dots.toList.flatMap (leBytes 6))

def packPosition : MarkPosition → List Byte
  | .marking => [0, 255]
  | .stacked d => [1, byte d]
  | .ownContext n => [2, byte n]
  | .none => [3, 255]

def packJobInfo (j : JobSlot) (p : MarkPosition) : List Byte :=
  [byte j.state.number,
    (match j.state with
      | .held why => byte why.number
      | _ => 255),
    byte j.kind.number, byte j.user.val, optByte (j.declared.map Fin.val), byte j.passes, yesNo j.verify,
    yesNo j.closePending, yesNo j.marked, byte j.refs, byte j.bound, byte j.wipes]
    ++ packCounters j.counters ++ leBytes 4 j.nonce.toNat ++ packPosition p

/-- The five fields of a class entry, valid or not (R91, R92). -/
def packClass (e : ClassEntry) : List Byte :=
  yesNo e.valid :: leBytes 2 e.maxLines ++ leBytes 4 e.maxDots ++ leBytes 2 e.basePrice ++ leBytes 2 e.colourPrice

def packTariff (t : Tariff) : List Byte :=
  leBytes 2 t.free ++ leBytes 2 t.surcharge ++ leBytes 2 t.cap ++ leBytes 2 t.threshold

def packUser (u : UserRec) (jobs : Nat) : List Byte :=
  [byte u.stored.state.number, byte u.stored.failures, optByte (u.stored.department.map Fin.val)]
    ++ leInt32 u.stored.balance ++ leBytes 4 u.stored.overdraft ++ [byte u.stored.maxJobs]
    ++ leBytes 4 u.stored.lifeMono ++ leBytes 4 u.stored.lifeColour ++ leBytes 4 u.stored.lifeCharge
    ++ [yesNo u.stored.digest.isSome] ++ leBytes 4 u.reserved ++ [byte u.posting, byte u.wb.number, byte jobs]

/-- The 32 counters of METER_QUERY (R122). No rule gives an order within a bank: that of `meterIndex`, class by class with mono before
colour, is the model's choice (log entry 14). -/
def packMeters (m : Meters) : List Byte :=
  m.contract.toList.flatMap (leBytes 4) ++ m.outside.toList.flatMap (leBytes 4)

def packUnconfirmed (u : Option Unconfirmed) : List Byte :=
  presence 4 (u.map fun d => leBytes 2 d.seq.toNat ++ leBytes 2 d.amount)

def packBayConf (c : BayConf) : List Byte :=
  [byte c.policy.number, byte c.attach, byte c.detach] ++ leBytes 2 c.dotMass ++ leBytes 2 c.quantum
    ++ leBytes 2 c.lowMark ++ leBytes 2 c.grace

/-- The bay record without the nonces (R152). The sends made of an open debit show in one byte (log entry 39). -/
def packBay (b : Bay) : List Byte :=
  [byte b.state.number, byte b.settle, byte b.failures]
    ++ presence 8 (b.serial.map word8Bytes) ++ presence 8 (b.foreign.map word8Bytes)
    ++ [b.colour.getD 255] ++ presence 4 (b.capacity.map fun c => leBytes 4 c.toNat)
    ++ leBytes 4 b.reported.toNat ++ leBytes 4 b.statusLevel.toNat ++ [b.statusFlags]
    ++ presence 2 (b.issued.map fun q => leBytes 2 q.toNat)
    ++ presence 5 (b.openDebit.map fun d => leBytes 2 d.seq.toNat ++ leBytes 2 d.amount ++ [byte d.sends])
    ++ packUnconfirmed b.unconfirmed ++ [optByte (b.lastCause.map BayCause.number)] ++ leBytes 4 b.lastChange.toNat
    ++ orOnes 5 (b.line.map fun e => byte e.kind.number :: leBytes 4 (e.since + 20).toNat)

def packFigures (f : Figures) (estimate : Option Nat) : List Byte :=
  leBytes 4 f.pg ++ leBytes 4 f.pending ++ leBytes 2 f.inFlight ++ [optByte f.round]
    ++ presence 2 (f.stale.map (leBytes 2)) ++ [yesNo f.flush, byte f.view.number] ++ leBytes 4 f.viewLevel
    ++ [byte f.level.number] ++ leBytes 4 f.overrun ++ leBytes 8 f.meteredMg ++ leBytes 4 f.meteredPg
    ++ leBytes 8 f.postedMg ++ leBytes 8 f.writtenMg ++ leBytes 4 f.writtenPg
    ++ presence 4 (estimate.map (leBytes 4))

def packDeparted (d : Departed) : List Byte :=
  word8Bytes d.serial ++ [byte d.plane.val] ++ leBytes 4 d.mg ++ leBytes 4 d.pg ++ packUnconfirmed d.unconfirmed

/-- The values of a result report. The zeros behind the valid byte of a capture record that is not valid (R20, R21) are the model's
choice (log entry 14). -/
def ResultValues.pack : ResultValues → List Byte
  | .none => []
  | .msLeft n => leBytes 2 n
  | .capture r n =>
    (match r with
      | .none => List.replicate 10 0
      | .some c => 1 :: packCapture c) ++ leBytes 2 n
  | .jobOpened j n => byte j.val :: leBytes 4 n.toNat
  | .jobInfo j p => packJobInfo j p
  | .depth n => [byte n]
  | .resumed m n => [optByte (m.map Fin.val), byte n]
  | .classTable t => t.toList.flatMap packClass
  | .tariff t => packTariff t
  | .userInfo u n => packUser u n
  | .adjusted b r c => leInt32 b ++ leBytes 4 r ++ [yesNo c]
  | .deptInfo a u r => leBytes 4 (a.getD max32) ++ leBytes 4 u ++ leBytes 4 r
  | .usedAmounts us => byte us.length :: us.flatMap (leBytes 4)
  | .meters m z => packMeters m ++ [yesNo z]
  | .bayInfo b c f e ds =>
    packBay b ++ packBayConf c ++ packFigures f e ++ byte ds.length :: ds.flatMap packDeparted
  | .bayConf c => packBayConf c
  | .wipeNumber n => leBytes 4 n.toNat

/-- The expected planes of a record as a mask (section 11.4). -/
def PageRecord.planeMask (r : PageRecord) : Nat :=
  ((List.finRange 4).map fun p => if (r.planes[p]).isSome then 2 ^ p.val else 0).sum

/-- The flags byte of a page report (section 11.4): bit 0 OVERSIZE, 1 colour, 2 IRREGULAR, 3 INCOMPLETE, 4 UNPROVEN,
5 outside bank. -/
def pageFlags (oversize colour outside : Bool) (r : PageRecord) : Nat :=
  oversize.toNat + 2 * colour.toNat + 4 * r.irregular.toNat + 8 * r.incomplete.toNat + 16 * r.unproven.toNat
    + 32 * outside.toNat

/-- Offsets 16 to 29 of a page report. -/
def packPageHead (r : PageRecord) : List Byte :=
  leBytes 4 r.number.toNat ++ leBytes 4 r.nonce.toNat ++ leBytes 4 r.frame ++ [byte r.job.val, byte r.user.val]

/-- The payload of PAGE_CHARGED (section 11.4). The outside bank is the one of a record with UNPROVEN set (R105). -/
def packPageCharge (p : PageCharge) : List Byte :=
  packPageHead p.record
    ++ [byte p.chargeClass, byte p.detectedClass, byte p.record.planeMask,
        byte (pageFlags p.oversize p.colour p.record.unproven p.record)]
    ++ leBytes 2 p.covsum ++ p.coverage.toList.flatMap (leBytes 2) ++ leBytes 2 p.surcharge ++ [0, 0]
    ++ leBytes 4 p.charge ++ leBytes 4 p.record.reserve ++ leInt32 p.balance

/-- The payload of PAGE_ABORTED (section 11.4); the two class bytes are free (log entry 15). A plane that is not expected has no
chunks reached (R107): its item is all ones (R192), and its status $FF. -/
def packPageAborted (r : PageRecord) : List Byte :=
  packPageHead r
    ++ [(Config.abortedClasses r.opened).1, (Config.abortedClasses r.opened).2, byte r.planeMask,
        byte (pageFlags false false false r)]
    ++ (r.planes.toList.flatMap fun q => orOnes 5 (q.map fun q => leBytes 4 q.chunks ++ [byte q.status.number]))
    ++ [0, 0] ++ leBytes 4 r.reserve

def packRefused (r : RefusedIndex) : List Byte :=
  yesNo r.isReportHead :: leBytes 2 r.offered.toNat ++ leBytes 2 r.kept.toNat

def packRingFault : RingFault → List Byte
  | .index rs => 0 :: byte rs.length :: rs.flatMap packRefused
  | .fetch i => 1 :: leBytes 2 i
  | .post i => 2 :: leBytes 2 i

def packFaults (f : FaultList) : List Byte :=
  leBytes 32 f.users.toNat ++ leBytes 2 f.depts.toNat
    ++ [yesNo f.meters, yesNo f.classes, yesNo f.tariff, yesNo f.bays, yesNo f.service]

def packDeparture (d : DepartureItems) : List Byte :=
  byte d.fate.number :: leBytes 4 d.mg ++ leBytes 4 d.pg
    ++ orOnes 16 (d.dropped.map fun e => word8Bytes e.serial ++ leBytes 4 e.mg ++ leBytes 4 e.pg)

def packBayReport (b : BayReport) : List Byte :=
  [byte b.bay.val, byte b.before.number, byte b.after.number, byte b.cause.number]
    ++ presence 8 (b.serial.map word8Bytes) ++ presence 4 (b.level.map fun l => leBytes 4 l.toNat)
    ++ orOnes 8 (b.returned.map fun r => leBytes 4 r.1 ++ leBytes 4 r.2)
    ++ presence 2 (b.confirmed.map (leBytes 2)) ++ orOnes 25 (b.departure.map packDeparture)

def packOrigin : WipeOrigin → List Byte
  | .explicit _ => 255 :: List.replicate 4 0
  | .job j n => byte j.val :: leBytes 4 n.toNat

/-- The packed payload of a report. The number of AMEM writes in a STANDBY report, to which R177 gives no range, takes 4 bytes
(log entry 14). A TONER_LEVEL report always carries a serial, for its bay is GENUINE or UNPROVEN (R164). -/
def ReportBody.payload : ReportBody → List Byte
  | .result _ _ v => v.pack
  | .ringFault c => packRingFault c
  | .regionsCommitted n => [byte n]
  | .violation captured c => packCapture c ++ [yesNo captured]
  | .jobHeld j n u w => byte j.val :: leBytes 4 n.toNat ++ [byte u.val, byte w.number]
  | .jobClosed j n u c a k st =>
    byte j.val :: leBytes 4 n.toNat ++ [byte u.val] ++ packCounters c ++ [byte a, byte k, byte st.number]
  | .jobFreed j n => byte j.val :: leBytes 4 n.toNat
  | .pageCharged p => packPageCharge p
  | .pageAborted r => packPageAborted r
  | .accountFault f => packFaults f
  | .bayState b => packBayReport b
  | .tonerLevel p isOut e l st sn ov =>
    [byte p.val, yesNo isOut] ++ leBytes 4 e ++ leBytes 4 l ++ [byte st.number] ++ word8Bytes (sn.getD 0)
      ++ presence 4 (if isOut then some (leBytes 4 ov) else none)
  | .wipeDone n b c p v o m =>
    leBytes 4 n.toNat ++ leBytes 4 b ++ leBytes 4 c ++ [byte p, yesNo v] ++ packOrigin o ++ leBytes 4 m
  | .wipeSkipped j n a k c rs =>
    byte j.val :: leBytes 4 n.toNat
      ++ [byte a, byte k, (match c with | .overLimit => 0 | .queueFull => 1), byte rs.length]
      ++ rs.flatMap fun r => leBytes 4 r.1 ++ leBytes 4 r.2
  | .standby m t =>
    [(match m with | .retain => 0 | .erase => 1), byte t.ended, byte t.freed, byte t.bays] ++ leBytes 4 t.writes

/-- The command kind of a RESULT; 0 otherwise (R193). -/
def ReportBody.cmdKind : ReportBody → Nat
  | .result k _ _ => k.toNat
  | _ => 0

/-- The result code of a RESULT; 0 otherwise (R193). -/
def ReportBody.code : ReportBody → Nat
  | .result _ c _ => c.number
  | _ => 0

/-- The number of report slots a report fills: the least whose payload room, 48 + 64 × (n − 1) bytes, holds the payload
(R193). -/
def ReportBody.slots (b : ReportBody) : Nat := (b.payload.length + 16 + 63) / 64

/-- The header and payload of a report (R193). -/
def Report.bytes (r : Report) : List Byte :=
  leBytes 2 r.body.kind ++ leBytes 2 r.tag.toNat ++ leBytes 4 r.time.toNat ++ [byte r.body.slots, yesNo r.dropped]
    ++ leBytes 2 (if r.dropped then r.lost else 0) ++ leBytes 2 r.body.cmdKind ++ leBytes 2 r.body.code
    ++ r.body.payload

/-- The line that RCI writes into the `k`-th slot of a report. -/
def Report.line (r : Report) (k : Nat) : Line := lineOfBytes ((r.bytes.drop (64 * k)).take 64)

/-- The report index line (section 11.2). -/
def indexLine (head tail : BitVec 16) : Line := lineOfBytes (leBytes 2 head.toNat ++ leBytes 2 tail.toNat)

end Sys2Proof.Machine
end

