-- ==== Sys2Proof/Machine/Ops.lean ====
section
/-!
DEFINITION. The operations that the blocks share: updates of one slot, bay or plane; handing a report; free tracker
slots; time; and the Report Queue's joining (R188, R189), with which every event ends.
-/

namespace Sys2Proof.Machine

/-- A table with the entry at `i` changed by `f`. -/
def upd {α : Type} {n : Nat} (v : Vector α n) (i : Fin n) (f : α → α) : Vector α n := v.set i (f v[i])

/-- The job in slot `j`. -/
def State.job (s : State) (j : Fin 16) : JobSlot := s.jct.slots[j]

/-- The state with job slot `j` changed. -/
def State.modJob (s : State) (j : Fin 16) (f : JobSlot → JobSlot) : State :=
  { s with jct := { s.jct with slots := upd s.jct.slots j f } }

/-- The record of bay `p`. -/
def State.bay (s : State) (p : Fin 4) : Bay := s.ccu.bays[p]

/-- The state with the record of bay `p` changed. -/
def State.modBay (s : State) (p : Fin 4) (f : Bay → Bay) : State :=
  { s with ccu := { s.ccu with bays := upd s.ccu.bays p f } }

/-- The toner figures of plane `p`. -/
def State.plane (s : State) (p : Fin 4) : Figures := s.tmu[p]

/-- The state with the figures of plane `p` changed. -/
def State.modPlane (s : State) (p : Fin 4) (f : Figures → Figures) : State := { s with tmu := upd s.tmu p f }

/-- The configuration of bay `p` in the working record (R150). -/
def State.conf (s : State) (p : Fin 4) : BayConf := s.ace.bays[p]

/-- An event hands RCI a spontaneous report. -/
def State.hand (s : State) (b : ReportBody) (tag : BitVec 16 := 0) : State :=
  { s with handed := s.handed ++ [⟨b, tag, false⟩] }

/-- An event puts something on a port. -/
def State.give (s : State) (o : Output) : State := { s with out := s.out ++ [o] }

/-- A draw from the internal random source: its count rises. -/
def State.draw (s : State) : State := { s with draws := s.draws + 1 }

/-- The milliseconds from a moment to now, modulo 2^32 (CONVENTIONS, TIME). -/
def State.since (s : State) (t : BitVec 32) : Nat := (s.ms - t).toNat

/-- Time passes until `n` ms after `t`, if that moment has not been reached (log entry 2). -/
def State.waitUntil (s : State) (t : BitVec 32) (n : Nat) : State :=
  if s.since t < n then { s with ms := t + BitVec.ofNat 32 n } else s

/-- On an empty queue one millisecond passes (R184, log entry 19). -/
def State.tick (s : State) : State := if s.powered then { s with ms := s.ms + 1 } else s

/-- The lowest-numbered free slot of a tracker (log entry 9). -/
def freeSlot? {α : Type} {n : Nat} (v : Vector (Option α) n) : Option (Fin n) :=
  (List.finRange n).find? fun i => (v[i]).isNone

/-! ## Ordering of an event's reports (R188) -/

/-- The place of a report among those of one event (R188): page reports, then the result, then the order of the report
table, with WIPE_DONE before JOB_FREED (R173). `freed` tells whether the event hands a JOB_FREED (log entry 13). -/
def ReportBody.rank (freed : Bool) : ReportBody → Nat
  | .pageCharged .. => 0
  | .pageAborted .. => 0
  | .result .. => 1
  | .ringFault .. => 2
  | .regionsCommitted .. => 3
  | .violation .. => 4
  | .jobHeld .. => 5
  | .jobClosed .. => 6
  | .wipeDone .. => if freed then 7 else 12
  | .jobFreed .. => 8
  | .accountFault .. => 9
  | .bayState .. => 10
  | .tonerLevel .. => 11
  | .wipeSkipped .. => 13
  | .standby .. => 14

/-- A body is a JOB_FREED report. -/
def ReportBody.isFreed : ReportBody → Bool
  | .jobFreed .. => true
  | _ => false

/-- The reports of one event in the order in which they join the queue. -/
def joinOrder (hs : List Handed) : List Handed :=
  (List.range 15).flatMap fun k => hs.filter fun h => h.body.rank (hs.any (·.body.isFreed)) == k

/-- The Report Queue has an entry for a report: any free one for a result, one that is not held for another (R188). -/
def Rci.hasEntry (r : Rci) (usesHeld : Bool) : Bool :=
  r.queue.length < (if r.held && !usesHeld then 15 else 16)

/-- One report, handed at the counter value `at`, joins the Report Queue, or is dropped and counted (R188). -/
def State.joinAt (s : State) (time : BitVec 32) (h : Handed) : State :=
  if s.rci.hasEntry h.usesHeld then
    { s with rci := { s.rci with
        queue := s.rci.queue ++ [⟨h.body, h.tag, time, s.rci.droppedMark, if s.rci.droppedMark then s.rci.lost else 0⟩]
        lost := 0, droppedMark := false, held := s.rci.held && !h.usesHeld } }
  else
    { s with rci := { s.rci with
        lost := min 65535 (s.rci.lost + 1), droppedMark := true, held := s.rci.held && !h.usesHeld } }

/-- One report that the event in progress hands joins, or is dropped. -/
def State.joinOne (s : State) (h : Handed) : State := s.joinAt s.ms h

/-- A waiting ACCOUNT_FAULT joins as soon as an entry is free, with the time stamp of the event in which it was handed (R188),
and the fault list is then empty (R189). -/
def State.joinFault (s : State) : State :=
  match s.rci.faultAt with
  | none => s
  | some time =>
    if s.rci.hasEntry false then
      { (s.joinAt time ⟨.accountFault s.ace.faults, 0, false⟩) with
        ace := { s.ace with faults := .empty }
        rci := { (s.joinAt time ⟨.accountFault s.ace.faults, 0, false⟩).rci with faultAt := none } }
    else s

/-- The reports that an event has handed join the queue, in order. -/
def State.joinHanded (s : State) : State := { ((joinOrder s.handed).foldl State.joinOne s) with handed := [] }

/-- The reports of an event join the queue: a waiting ACCOUNT_FAULT first (R189), then the rest in order. -/
def State.joinAll (s : State) : State := s.joinFault.joinHanded

/-- The free report slots of the report ring (R190). -/
def Rings.freeReportSlots (r : Rings) : Nat := r.repSlots - (r.repTail - r.repHead).toNat

end Sys2Proof.Machine
end

