-- ==== Sys2Proof/Machine/Accounts.lean ====
section
/-!
DEFINITION. ACE's working records and their write-back (sections 6.4, 6.6 and 6.7): the credential check, changes and
triggers, the AMEM write, and the power-on load.
-/

namespace Sys2Proof.Machine

/-! ## Write-back states (R124 to R126) -/

/-- The write-back state of a record. -/
def Ace.wb (a : Ace) : RecId → WbState
  | .service => a.serviceWb
  | .tariff => a.tariffWb
  | .classes => a.classesWb
  | .bays => a.baysWb
  | .meters => a.meters.wb
  | .dept i => (a.depts[i]).wb
  | .user i => (a.users[i]).wb

/-- ACE with the write-back state of one record set. -/
def Ace.setWb (a : Ace) (r : RecId) (w : WbState) : Ace :=
  match r with
  | .service => { a with serviceWb := w }
  | .tariff => { a with tariffWb := w }
  | .classes => { a with classesWb := w }
  | .bays => { a with baysWb := w }
  | .meters => { a with meters := { a.meters with wb := w } }
  | .dept i => { a with depts := upd a.depts i fun d => { d with wb := w } }
  | .user i => { a with users := upd a.users i fun u => { u with wb := w } }

/-- What an alteration of a stored field does to the write-back state (R124). -/
def WbState.changed : WbState → WbState
  | .clean => .dirty
  | .dirty => .dirty
  | .waiting => .waiting
  | .queued => .queued
  | .writing _ => .writing true

/-- A trigger of write-back (R125, R126): only a DIRTY record moves, to the queue's tail, or to the Waiting List's while
that list holds records or the queue is full. -/
def Ace.trigger (a : Ace) (r : RecId) : Ace :=
  match a.wb r with
  | .dirty =>
    if a.waiting.isEmpty && a.queue.length < 16 then
      { a.setWb r .queued with queue := a.queue ++ [r] }
    else
      { a.setWb r .waiting with waiting := a.waiting ++ [r] }
  | _ => a

/-- Triggers of several records, in order. -/
def Ace.triggerAll (a : Ace) (rs : List RecId) : Ace := rs.foldl Ace.trigger a

/-- Every record, in the order of loading (R130). -/
def allRecords : List RecId :=
  [.service, .tariff, .classes, .bays, .meters] ++ (List.finRange 16).map .dept ++ (List.finRange 256).map .user

/-- A user's stored fields are replaced; an alteration makes the record dirty (R124). -/
def Ace.putUser (a : Ace) (i : Fin 256) (u : UserStored) : Ace :=
  { a with users := upd a.users i fun r =>
      { r with stored := u, wb := if u = r.stored then r.wb else r.wb.changed } }

/-- A department's stored fields are replaced. -/
def Ace.putDept (a : Ace) (i : Fin 16) (d : DeptStored) : Ace :=
  { a with depts := upd a.depts i fun r =>
      { r with stored := d, wb := if d = r.stored then r.wb else r.wb.changed } }

/-- The device meters are replaced. -/
def Ace.putMeters (a : Ace) (m : Meters) : Ace :=
  { a with meters := { a.meters with
      stored := m, wb := if m = a.meters.stored then a.meters.wb else a.meters.wb.changed } }

/-- The Sheet Class Table is replaced. -/
def Ace.putClasses (a : Ace) (t : ClassTable) : Ace :=
  { a with classes := t, classesWb := if t = a.classes then a.classesWb else a.classesWb.changed }

/-- The tariff is replaced. -/
def Ace.putTariff (a : Ace) (t : Tariff) : Ace :=
  { a with tariff := t, tariffWb := if t = a.tariff then a.tariffWb else a.tariffWb.changed }

/-- The bay configuration is replaced. -/
def Ace.putBays (a : Ace) (b : BayConfs) : Ace :=
  { a with bays := b, baysWb := if b = a.bays then a.baysWb else a.baysWb.changed }

/-- The service credential is replaced. -/
def Ace.putService (a : Ace) (c : ServiceStored) : Ace :=
  { a with service := c, serviceWb := if c = a.service then a.serviceWb else a.serviceWb.changed }

/-- The three records triggered when a job ends: its user's, that of the user's department, and the device meters
(R53 step 7, R125). -/
def Ace.jobEnded (a : Ace) (u : Fin 256) : Ace :=
  a.triggerAll (.user u :: ((a.users[u]).stored.department.map RecId.dept).toList ++ [.meters])

/-! ## The service credential (R114, R115) -/

/-- The outcome of a credential check: passed, or the values of the BAD_CREDENTIAL result. -/
inductive Credential where
  | passed
  | refused (values : ResultValues)
  deriving DecidableEq, Repr

/-- The whole milliseconds left of a lockout that started at `t` (R114). -/
def State.lockoutLeft (s : State) (t : BitVec 32) : Nat := 60000 - s.since t

/-- The failure count of the service credential takes a value; a change is triggered for write-back (R114, R115). -/
def Ace.serviceFailures (a : Ace) (n : Nat) : Ace :=
  if n = a.service.failures then a else (a.putService { a.service with failures := n }).trigger .service

/-- The examination of a PIN while no lockout is in force (R114). -/
def State.examinePin (s : State) (pin : Word8) : State × Credential :=
  if Config.serviceDigest pin = s.ace.service.digest then
    ({ s with ace := s.ace.serviceFailures 0 }, .passed)
  else
    ({ s with ace := { s.ace.serviceFailures (min 5 (s.ace.service.failures + 1)) with
        lockout := if 5 ≤ s.ace.service.failures + 1 then some s.ms else none } }, .refused .none)

/-- The lockout's expiry (R115): at 60,000 ms the lockout ends, the failure count becomes 0 and the record is
triggered. -/
def State.expireLockout (s : State) (t : BitVec 32) : State :=
  { s.waitUntil t 60000 with ace := { (s.ace.serviceFailures 0) with lockout := none } }

/-- Step 1 of every admin command (R114, R115). A lockout in force refuses it with the milliseconds left: 0 at the moment of
expiry, when the command is taken before the expiry. A lockout whose 60,000 ms are over has ended: its expiry, if no
LOCKOUT_EXPIRY row has brought it, comes first (log entry 2). -/
def State.credential (s : State) (pin : Word8) : State × Credential :=
  match s.ace.lockout with
  | none => s.examinePin pin
  | some t => if s.since t ≤ 60000 then (s, .refused (.msLeft (s.lockoutLeft t))) else (s.expireLockout t).examinePin pin

/-! ## PIN check (R47) -/

/-- The offered PIN matches the digest of a user's record; a record without a digest matches none (R111). -/
def State.pinMatches (s : State) (u : Fin 256) (pin : Word8) : Bool :=
  (s.ace.users[u]).stored.digest == some (Config.userDigest u pin)

/-- The effect of a PIN check on the user's record (R47): a match clears the failure count, a mismatch raises it and at
5 locks the record; a change is triggered for write-back. -/
def State.pinChecked (s : State) (u : Fin 256) (good : Bool) : State :=
  let r := (s.ace.users[u]).stored
  let r' : UserStored :=
    if good then { r with failures := 0 }
    else if 5 ≤ r.failures + 1 then { r with failures := 5, state := .locked }
    else { r with failures := r.failures + 1 }
  if r' = r then s else { s with ace := (s.ace.putUser u r').trigger (.user u) }

/-! ## The AMEM write (R127) -/

/-- The content that a write of a record forms from the present working values. -/
def Ace.content (a : Ace) : RecId → AmemContent
  | .service => .service a.service
  | .tariff => .tariff a.tariff
  | .classes => .classes a.classes
  | .bays => .bays a.bays
  | .meters => .meters a.meters.stored
  | .dept i => .dept i (a.depts[i]).stored
  | .user i => .user i (a.users[i]).stored

/-- The posting count of a user, department or device-meter record becomes 0 as its write starts. -/
def Ace.clearPosting (a : Ace) : RecId → Ace
  | .meters => { a with meters := { a.meters with posting := 0 } }
  | .dept i => { a with depts := upd a.depts i fun d => { d with posting := 0 } }
  | .user i => { a with users := upd a.users i fun u => { u with posting := 0 } }
  | .service => a
  | .tariff => a
  | .classes => a
  | .bays => a

/-- A freed queue entry is filled from the head of the Waiting List (R126). -/
def Ace.refill (a : Ace) : Ace :=
  match a.waiting with
  | [] => a
  | r :: rest => { a.setWb r .queued with queue := a.queue ++ [r], waiting := rest }

/-- A write may start: none is in flight, the queue is not empty, and LOADING is over (R127). -/
def State.writeMayStart (s : State) : Bool :=
  s.ace.writing.isNone && !s.ace.queue.isEmpty && s.rci.startup != .loading

/-- Start of the head record's write (R127). -/
def Ace.startWrite (a : Ace) : Ace :=
  match a.queue with
  | [] => a
  | r :: rest =>
    Ace.refill { ((a.clearPosting r).setWb r (.writing false)) with queue := rest, writing := some (a.content r) }

/-- AMEM holding a completed write, with a check code over its content. -/
def Amem.store (m : Amem) : AmemContent → Amem
  | .service c => { m with service := ⟨c, true⟩ }
  | .tariff c => { m with tariff := ⟨c, true⟩ }
  | .classes c => { m with classes := ⟨c, true⟩ }
  | .bays c => { m with bays := ⟨c, true⟩ }
  | .meters c => { m with meters := ⟨c, true⟩ }
  | .dept i c => { m with depts := m.depts.set i ⟨c, true⟩ }
  | .user i c => { m with users := m.users.set i ⟨c, true⟩ }

/-- AMEM after the `n`-th loss of supply during a write: the record is torn (R127, R129, log entry 7). -/
def Amem.tear (m : Amem) (n : Nat) : AmemContent → Amem
  | .service c => { m with service := ⟨Config.tornService n m.service.content c, Config.tornAgrees n⟩ }
  | .tariff c => { m with tariff := ⟨Config.tornTariff n m.tariff.content c, Config.tornAgrees n⟩ }
  | .classes c => { m with classes := ⟨Config.tornClasses n m.classes.content c, Config.tornAgrees n⟩ }
  | .bays c => { m with bays := ⟨Config.tornBays n m.bays.content c, Config.tornAgrees n⟩ }
  | .meters c => { m with meters := ⟨Config.tornMeters n m.meters.content c, Config.tornAgrees n⟩ }
  | .dept i c => { m with depts := upd m.depts i fun o => ⟨Config.tornDept n o.content c, Config.tornAgrees n⟩ }
  | .user i c => { m with users := upd m.users i fun o => ⟨Config.tornUser n o.content c, Config.tornAgrees n⟩ }

/-- Completion of the write in flight (R127): AMEM holds the content; the record is CLEAN, or DIRTY and triggered at once
if it changed during the write. -/
def State.completeWrite (s : State) : State :=
  match s.ace.writing with
  | none => s
  | some c =>
    { s with
      amem := s.amem.store c
      ace := match s.ace.wb c.id with
        | .writing true => (({ s.ace with writing := none } : Ace).setWb c.id .dirty).trigger c.id
        | _ => ({ s.ace with writing := none } : Ace).setWb c.id .clean }

/-- Every posting count is 0, as the flush leaves it (R133). A count may stand on a record that is CLEAN, which no write clears: that
of a department whose used amount a charge of 0 left as it was (log entry 35). -/
def Ace.clearCounts (a : Ace) : Ace :=
  { a with
    users := a.users.map fun r => { r with posting := 0 }
    depts := a.depts.map fun r => { r with posting := 0 }
    meters := { a.meters with posting := 0 } }

/-- Every record is CLEAN and no write is in flight (R128). -/
def Ace.flushed (a : Ace) : Bool := a.writing.isNone && allRecords.all fun r => a.wb r == .clean

/-! ## The power-on load (R129 to R131) -/

/-- A working record loaded CLEAN from a good record, or the substitute, DIRTY and held to be triggered. -/
def loadWb (good : Bool) : WbState := if good then .clean else .dirty

/-- A user record is good (R129). -/
def goodUser (c : Cell UserStored) : Bool := c.agrees && c.content.inRange

/-- A department record is good (R129). -/
def goodDept (c : Cell DeptStored) : Bool := c.agrees && c.content.inRange

/-- The working record of a user after the load. -/
def loadUser (c : Cell UserStored) : UserRec :=
  ⟨if goodUser c then c.content else suspectUser, 0, 0, loadWb (goodUser c)⟩

/-- The working record of a department after the load. -/
def loadDept (c : Cell DeptStored) : DeptRec :=
  ⟨if goodDept c then c.content else substituteDept, 0, 0, loadWb (goodDept c)⟩

/-- The set of the positions at which a list holds true, as a mask. -/
def maskOf (bs : List Bool) : Nat := bs.foldr (fun b acc => b.toNat + 2 * acc) 0

/-- The records that a load finds bad (R130, R131). -/
def faultsOf (m : Amem) : FaultList :=
  { users := BitVec.ofNat 256 (maskOf (m.users.toList.map fun c => !goodUser c))
    depts := BitVec.ofNat 16 (maskOf (m.depts.toList.map fun c => !goodDept c))
    meters := !(m.meters.agrees && m.meters.content.inRange)
    classes := !(m.classes.agrees && ClassTable.inRange m.classes.content)
    tariff := !(m.tariff.agrees && m.tariff.content.inRange)
    bays := !(m.bays.agrees && m.bays.content.toList.all BayConf.inRange)
    service := !(m.service.agrees && m.service.content.inRange) }

/-- ACE with every working record loaded from AMEM or substituted (R130, R131). The other state of ACE stands. -/
def Ace.load (a : Ace) (m : Amem) : Ace :=
  let f := faultsOf m
  { a with
    service := if f.service then ⟨Config.factoryServiceDigest, 0⟩ else m.service.content
    serviceWb := loadWb (!f.service)
    tariff := if f.tariff then factoryTariff else m.tariff.content
    tariffWb := loadWb (!f.tariff)
    classes := if f.classes then factoryClasses else m.classes.content
    classesWb := loadWb (!f.classes)
    bays := if f.bays then factoryBays else m.bays.content
    baysWb := loadWb (!f.bays)
    meters := ⟨if f.meters then zeroMeters else m.meters.content, 0, loadWb (!f.meters), f.meters⟩
    depts := m.depts.map loadDept
    users := m.users.map loadUser
    faults := f }

/-- The fault list names some record. -/
def FaultList.nonempty (f : FaultList) : Bool :=
  f.users != 0 || f.depts != 0 || f.meters || f.classes || f.tariff || f.bays || f.service

/-- What the event that ends LOADING does at ACE (R130): the load stands, each substituted record is triggered in the
order of loading, and a loaded failure count of 5 starts a lockout. -/
def State.endLoad (s : State) : State :=
  let a := s.ace.load s.amem
  { s with ace := { (a.triggerAll allRecords) with
      lockout := if a.service.failures = 5 then some s.ms else none } }

end Sys2Proof.Machine
end

