-- ==== Sys2Proof/Machine/Charging.lean ====
section
/-!
DEFINITION. Impression charging (chapter 5): the class lookups, the page reserve and its check, the charge of a record,
and its posting.
-/

namespace Sys2Proof.Machine

/-! ## Frame geometry (section 4.2) -/

/-- Chunks per raster line. -/
def Geometry.chunksPerLine (g : Geometry) : Nat := g.stride / 64

/-- Chunks per frame. -/
def Geometry.chunksPerFrame (g : Geometry) : Nat := g.chunksPerLine * g.frameLines

/-- Frame bytes. -/
def Geometry.frameBytes (g : Geometry) : Nat := g.stride * g.frameLines

/-- W, dots per raster line. -/
def Geometry.width (g : Geometry) : Nat := g.stride * 8 / g.depth

/-- V, the maximum dot value. -/
def Geometry.maxDot (g : Geometry) : Nat := 2 ^ g.depth - 1

/-- Frame capacity: frame lines × W × V. -/
def Geometry.capacity (g : Geometry) : Nat := g.frameLines * g.width * g.maxDot

/-- Whole frames of a region of `count` pages (R12 step 5, R68). -/
def Geometry.frames (g : Geometry) (count : Nat) : Nat := count * 4096 / g.frameBytes

/-! ## Class lookups (R91) -/

/-- The largest valid index of a class table. -/
def largestClass (t : ClassTable) : Fin 8 := ((List.finRange 8).reverse.find? fun i => (t[i]).valid).getD 0

/-- The smallest valid index of a class table. -/
def smallestClass (t : ClassTable) : Fin 8 := ((List.finRange 8).find? fun i => (t[i]).valid).getD 0

/-- A valid entry admits a sheet of `lines` by `dots`. -/
def ClassEntry.admits (e : ClassEntry) (lines dots : Nat) : Bool := lines ≤ e.maxLines && dots ≤ e.maxDots

/-- The class of (L, W), and whether the lookup is oversize (R91). -/
def classOf (t : ClassTable) (lines dots : Nat) : Fin 8 × Bool :=
  match (List.finRange 8).find? (fun i => (t[i]).valid && (t[i]).admits lines dots) with
  | some i => (i, false)
  | none => (largestClass t, true)

/-- The effective declared class (R91). -/
def effectiveClass (t : ClassTable) (d : Fin 8) : Fin 8 :=
  ((List.finRange 8).find? fun i => d ≤ i && (t[i]).valid).getD (largestClass t)

/-- The higher of a class and the effective declared class, when one is declared (R96, R100). -/
def raisedClass (t : ClassTable) (declared : Option (Fin 8)) (c : Fin 8) : Fin 8 :=
  match declared with
  | none => c
  | some d => max c (effectiveClass t d)

/-- The entry whose prices a class index names. -/
def classEntry (t : ClassTable) (i : Fin 8) : ClassEntry := t[i]

/-! ## The reserve (R96, R97) -/

/-- The greatest of a list of numbers, 0 when there is none. -/
def listMax (ns : List Nat) : Nat := ns.foldr max 0

/-- The class that fixes a job's page reserve (R96): that of the largest frame, raised by the declared class; without a
RASTER entry, the effective declared class or the smallest valid index. -/
def reserveClass (t : ClassTable) (declared : Option (Fin 8)) (es : List Raster) : Fin 8 :=
  match es with
  | [] =>
    match declared with
    | none => smallestClass t
    | some d => effectiveClass t d
  | e :: rest =>
    raisedClass t declared
      (classOf t (listMax ((e :: rest).map fun r => r.geom.frameLines))
        (listMax ((e :: rest).map fun r => r.geom.width))).1

/-- A plane is one of C, M and Y. -/
def isColourPlane (p : Fin 4) : Bool := p != 0

/-- The page reserve of a job (R96). -/
def pageReserve (t : ClassTable) (tar : Tariff) (declared : Option (Fin 8)) (es : List Raster) : Nat :=
  (classEntry t (reserveClass t declared es)).basePrice
    + (if es.any fun e => isColourPlane e.plane then (classEntry t (reserveClass t declared es)).colourPrice else 0)
    + tar.cap

/-- The valid live RASTER entries of a job, in ascending index. -/
def Regions.rastersOf (g : Regions) (j : Fin 16) : List Raster :=
  g.live.toList.filterMap fun e =>
    match e with
    | some e => if e.job = some j then e.raster else none
    | none => none

/-- The page reserve of job `j` at this moment. -/
def State.reserveOf (s : State) (j : Fin 16) : Nat :=
  pageReserve s.ace.classes s.ace.tariff (s.job j).declared (s.rgt.rastersOf j)

/-- The department of a user. -/
def Ace.deptOf (a : Ace) (u : Fin 256) : Option (Fin 16) := (a.users[u]).stored.department

/-- The user test of the reserve check (R97), with `more` already granted in the same trial (R98). -/
def Ace.userTest (a : Ace) (u : Fin 256) (more r : Nat) : Bool :=
  -((a.users[u]).stored.overdraft : Int) ≤ (a.users[u]).stored.balance - ((a.users[u]).reserved + more : Nat) - r

/-- The department test of the reserve check (R97). -/
def Ace.deptTest (a : Ace) (u : Fin 256) (more r : Nat) : Bool :=
  match a.deptOf u with
  | none => true
  | some d =>
    match (a.depts[d]).stored.allowance with
    | none => true
    | some limit => (a.depts[d]).stored.used + ((a.depts[d]).reserved + more) + r ≤ limit

/-- The reserve check (R97). -/
def Ace.reservePasses (a : Ace) (u : Fin 256) (more r : Nat) : Bool := a.userTest u more r && a.deptTest u more r

/-- The reserved amounts of a user and of its department change (R99). -/
def Ace.modReserved (a : Ace) (u : Fin 256) (f : Nat → Nat) : Ace :=
  { a with
    users := upd a.users u fun r => { r with reserved := f r.reserved }
    depts := match a.deptOf u with
      | none => a.depts
      | some d => upd a.depts d fun r => { r with reserved := f r.reserved } }

/-! ## The charge (R100 to R103) -/

/-- A 32-bit saturating sum. -/
def sat32 (n : Nat) : Nat := min max32 n

/-- The expected planes of a record, with what it holds for each. -/
def PageRecord.expected (r : PageRecord) : List (Fin 4 × PlaneRec) :=
  (List.finRange 4).filterMap fun p => (r.planes[p]).map fun q => (p, q)

/-- The lines that a plane reached: ceil(chunks reached / chunks per line) (R100). -/
def PlaneRec.linesReached (q : PlaneRec) : Nat := (q.chunks + (q.geom.chunksPerLine - 1)) / q.geom.chunksPerLine

/-- The coverage of a plane in permyriad (R101): 0 unless CLOSED. -/
def PlaneRec.coverage (q : PlaneRec) : Nat :=
  if q.status = .closed then q.dots * 10000 / q.geom.capacity else 0

/-- L: the largest number of lines reached over the CLOSED planes (R100). -/
def PageRecord.pageLines (r : PageRecord) : Nat :=
  listMax ((r.expected.filter fun e => e.2.status = .closed).map fun e => e.2.linesReached)

/-- W: the largest width over all expected planes (R100). -/
def PageRecord.pageWidth (r : PageRecord) : Nat := listMax (r.expected.map fun e => e.2.geom.width)

/-- The page is colour (R102). -/
def PageRecord.isColour (r : PageRecord) (threshold : Nat) : Bool :=
  r.expected.any fun e => isColourPlane e.1 && threshold ≤ e.2.coverage

/-- The coverage sum as used for the surcharge (R102): full coverage of every expected plane on an IRREGULAR page. -/
def PageRecord.covsum (r : PageRecord) : Nat :=
  if r.irregular then 10000 * r.expected.length else (r.expected.map fun e => e.2.coverage).sum

/-- The surcharge (R103). -/
def surchargeOf (tar : Tariff) (covsum : Nat) : Nat := min tar.cap ((covsum - tar.free) * tar.surcharge / 10000)

/-- The priced record (R100 to R103, R106); `balance` is the balance after posting. -/
def priceOf (t : ClassTable) (tar : Tariff) (declared : Option (Fin 8)) (r : PageRecord) (balance : Int) : PageCharge :=
  let detected := classOf t r.pageLines r.pageWidth
  let charged := raisedClass t declared detected.1
  let colour := r.isColour tar.threshold
  { record := r
    chargeClass := charged.val
    detectedClass := detected.1.val
    oversize := detected.2
    colour := colour
    coverage := r.planes.map fun q => (q.map PlaneRec.coverage).getD 0
    covsum := r.covsum
    surcharge := surchargeOf tar r.covsum
    charge := (classEntry t charged).basePrice + (if colour then (classEntry t charged).colourPrice else 0)
      + surchargeOf tar r.covsum
    balance := balance }

/-- A settling record is charged: some expected plane reached half its chunks (R84). -/
def PageRecord.isCharged (r : PageRecord) : Bool :=
  r.expected.any fun e => e.2.geom.chunksPerFrame ≤ e.2.chunks * 2

/-! ## Posting (R104 to R107) -/

/-- The posting count rises by one, up to 32 (R104). -/
def postingUp (n : Nat) : Nat := min 32 (n + 1)

/-- The user's stored fields after a charge `x` (R104). -/
def UserStored.post (u : UserStored) (x : Nat) (colour : Bool) : UserStored :=
  { u with
    balance := u.balance - x
    lifeMono := if colour then u.lifeMono else sat32 (u.lifeMono + 1)
    lifeColour := if colour then sat32 (u.lifeColour + 1) else u.lifeColour
    lifeCharge := sat32 (u.lifeCharge + x) }

/-- A posting raises the user's posting count, and 32 triggers a write-back (R125). That a later posting which finds the count at 32
already triggers once more is the model's choice (log entry 43). -/
def Ace.countUser (a : Ace) (u : Fin 256) : Ace :=
  let a := { a with users := upd a.users u fun r => { r with posting := postingUp r.posting } }
  if (a.users[u]).posting = 32 then a.trigger (.user u) else a

/-- As `countUser`, for a department. -/
def Ace.countDept (a : Ace) (d : Fin 16) : Ace :=
  let a := { a with depts := upd a.depts d fun r => { r with posting := postingUp r.posting } }
  if (a.depts[d]).posting = 32 then a.trigger (.dept d) else a

/-- As `countUser`, for the device meters. -/
def Ace.countMeters (a : Ace) : Ace :=
  let a := { a with meters := { a.meters with posting := postingUp a.meters.posting } }
  if a.meters.posting = 32 then a.trigger .meters else a

/-- A charge is posted to the user's department (R104). -/
def Ace.postDept (a : Ace) (u : Fin 256) (x : Nat) : Ace :=
  match a.deptOf u with
  | none => a
  | some d =>
    (a.putDept d { (a.depts[d]).stored with used := sat32 ((a.depts[d]).stored.used + x) }).countDept d

/-- The place of a counter in a meter bank: class by class, mono before colour. R113 names the pairs without an order; this one is the
model's choice (log entry 14). -/
def meterIndex (cls : Fin 8) (colour : Bool) : Fin 16 := ⟨2 * cls.val + colour.toNat, by cases colour <;> simp <;> omega⟩

/-- The device meters with one counter raised (R105). -/
def Meters.raise (m : Meters) (outside : Bool) (i : Fin 16) : Meters :=
  if outside then { m with outside := upd m.outside i fun n => sat32 (n + 1) }
  else { m with contract := upd m.contract i fun n => sat32 (n + 1) }

/-- A charged record is posted to the user, the department and the device meters (R104, R105). The model's choices: the write-backs
that one posting triggers come in this order (log entry 42), and a posting whose counter already stands at its end counts as one that
raises it (R113, log entry 44). -/
def Ace.postCharge (a : Ace) (r : PageRecord) (p : PageCharge) : Ace :=
  let a := (a.putUser r.user ((a.users[r.user]).stored.post p.charge p.colour)).countUser r.user
  let a := a.postDept r.user p.charge
  let a := a.modReserved r.user (· - r.reserve)
  let i := meterIndex (Fin.ofNat 8 p.chargeClass) p.colour
  (a.putMeters (a.meters.stored.raise r.unproven i)).countMeters

/-- The job counters after a charge (R105). -/
def JobCounters.post (c : JobCounters) (x : Nat) (colour : Bool) : JobCounters :=
  { c with
    mono := if colour then c.mono else sat32 (c.mono + 1)
    colour := if colour then sat32 (c.colour + 1) else c.colour
    charge := sat32 (c.charge + x) }

/-- The price of a record handed over CHARGED, against the present table and tariff and its job's declared class. -/
def State.price (s : State) (r : PageRecord) : PageCharge :=
  let p := priceOf s.ace.classes s.ace.tariff (s.job r.job).declared r 0
  { p with balance := (s.ace.users[r.user]).stored.balance - p.charge }

/-- ACE posts a settled record and hands its report (R104 to R107); at LRST no report is made (R108). -/
def State.settle (report : Bool) (s : State) (r : PageRecord) : State :=
  if r.isCharged then
    let p := s.price r
    let t : State := { s with ace := s.ace.postCharge r p }
    let t := t.modJob r.job fun j => { j with counters := j.counters.post p.charge p.colour }
    if report then t.hand (.pageCharged p) else t
  else
    let t : State := { s with ace := s.ace.modReserved r.user (· - r.reserve) }
    let t := t.modJob r.job fun j => { j with counters := { j.counters with aborted := sat32 (j.counters.aborted + 1) } }
    if report then t.hand (.pageAborted r) else t

end Sys2Proof.Machine
end

