-- ==== Sys2Proof/Machine/Metering.lean ====
section
/-!
DEFINITION. Raster metering (chapter 4): records and trackers, the trial of a metered read, force-close, the settling of
records, and the dot sums of a return.
-/

namespace Sys2Proof.Machine

/-! ## Records and contexts (sections 4.4 and 4.7) -/

/-- A fresh tracker (R72). -/
def Tracker.fresh : Tracker := ⟨none, none, 0, none⟩

/-- A fresh context (R57). -/
def Context.fresh : Context := ⟨Vector.replicate 4 .fresh, []⟩

/-- A plane status that needs no further pass. -/
def PlaneStatus.isDone : PlaneStatus → Bool
  | .closed => true
  | .absent => true
  | .notSeen => false
  | .opened => false

/-- A record is closed: every expected plane is CLOSED or ABSENT (R83). -/
def PageRecord.isClosed (r : PageRecord) : Bool := r.expected.all fun e => e.2.status.isDone

/-- A record is due to settle (R84): closed, with no lines in flight. -/
def PageRecord.isDue (r : PageRecord) : Bool := r.isClosed && r.lines == 0

/-- A record with what it holds for plane `p` changed, if `p` is expected. -/
def PageRecord.modPlane (r : PageRecord) (p : Fin 4) (f : PlaneRec → PlaneRec) : PageRecord :=
  { r with planes := upd r.planes p fun q => q.map f }

/-- A context with the record named `n` changed. -/
def Context.modRecord (c : Context) (n : Nat) (f : PageRecord → PageRecord) : Context :=
  { c with queue := c.queue.map fun r => if r.opened = n then f r else r }

/-- The record of a context named `n`. -/
def Context.record? (c : Context) (n : Nat) : Option PageRecord := c.queue.find? fun r => r.opened == n

/-- A tracker tied to one of these records is untied; its frame, geometry and hw stay (R85). -/
def Tracker.untie (gone : List Nat) (t : Tracker) : Tracker :=
  match t.tied with
  | some n => if gone.contains n then { t with tied := none } else t
  | none => t

/-- The due records leave the queue, and the trackers tied to them are untied (R84, R85). -/
def Context.dropDue (c : Context) : Context :=
  { trackers := c.trackers.map (Tracker.untie ((c.queue.filter PageRecord.isDue).map PageRecord.opened))
    queue := c.queue.filter fun r => !r.isDue }

/-- What a force-close does to a plane (R86). -/
def PlaneRec.forceClose (q : PlaneRec) : PlaneRec :=
  match q.status with
  | .notSeen => { q with status := .absent }
  | .opened => { q with status := .closed }
  | .closed => q
  | .absent => q

/-- What a force-close does to a record (R86). -/
def PageRecord.forceClose (r : PageRecord) : PageRecord :=
  { r with planes := r.planes.map (Option.map PlaneRec.forceClose), incomplete := true }

/-- A tracker tied to one of these records is untied and cleared (R86). -/
def Tracker.clearTie (ns : List Nat) (t : Tracker) : Tracker :=
  match t.tied with
  | some n => if ns.contains n then .fresh else t
  | none => t

/-- Force-close of one record of a context (R86). -/
def Context.forceClose (c : Context) (n : Nat) : Context :=
  { trackers := c.trackers.map (Tracker.clearTie [n])
    queue := (c.modRecord n PageRecord.forceClose).queue }

/-- Force-close of every record of a context (R61, R60). -/
def Context.forceCloseAll (c : Context) : Context :=
  { trackers := c.trackers.map (Tracker.clearTie (c.queue.map PageRecord.opened))
    queue := c.queue.map PageRecord.forceClose }

/-- The force-close of a full queue (R77): the oldest record that is not closed, if there is one. -/
def Context.makeRoom (c : Context) : Context :=
  match c.queue.find? fun r => !r.isClosed with
  | some r => c.forceClose r.opened
  | none => c

/-! ## The trial of a metered read (R71, section 4.5) -/

/-- What a trial is run against: the matched entry, its raster, the job with its nonce and user, the planes its live
RASTER entries give, whether the plane's bay is GENUINE, and the page reserve. -/
structure TrialEnv where
  base : Nat
  raster : Raster
  job : Fin 16
  nonce : BitVec 32
  user : Fin 256
  planes : Vector (Option Geometry) 4
  genuine : Bool
  reserve : Nat

/-- A trial in progress: the trial context, the RMU counters, the records opened so far, the marks of the lines so far,
and the records that the trial has settled. -/
structure Trial where
  ctx : Context
  rmu : Rmu
  openedNow : Nat
  marks : List LineMark
  settled : List PageRecord
  deriving DecidableEq, Repr

/-- Why a trial stops short of acceptance (R71). -/
inductive TrialStop where
  | held
  | quota
  deriving DecidableEq, Repr

/-- The frame and chunk of a line at an address (R68). -/
def TrialEnv.place (env : TrialEnv) (a : Addr) : Nat × Nat :=
  let off := a.toNat - env.base * 4096
  (off / env.raster.geom.frameBytes, off % env.raster.geom.frameBytes / 64)

/-- The pass of a tracker is complete (R72). -/
def Tracker.isComplete (t : Tracker) : Bool :=
  match t.geom with
  | none => false
  | some g => t.hw == g.chunksPerFrame

/-- The new-pass test (R75). -/
def Tracker.needsPass (t : Tracker) (g : Geometry) (frame chunk : Nat) : Bool :=
  t.frame != some frame || t.geom != some g || (t.isComplete && chunk == 0)

/-- Step 1 of a pass start (R75): an OPEN plane of the tied record becomes CLOSED, the tracker is untied, and a record
that this closes with no lines in flight settles at once. -/
def Trial.closeTie (tr : Trial) (p : Fin 4) : Trial :=
  match (tr.ctx.trackers[p]).tied with
  | none => tr
  | some n =>
    let c := tr.ctx.modRecord n fun r =>
      r.modPlane p fun q => if q.status = .opened then { q with status := .closed } else q
    let c := { c with trackers := upd c.trackers p fun t => { t with tied := none } }
    { tr with ctx := c.dropDue, settled := tr.settled ++ c.queue.filter PageRecord.isDue }

/-- A record that plane `p` of frame `f` may be tied to (R75 step 2). -/
def PageRecord.lacks (r : PageRecord) (p : Fin 4) (f : Nat) (g : Geometry) : Bool :=
  r.frame == f && (r.planes[p]).any fun q => q.status == .notSeen && q.geom == g

/-- The record that opens for frame `f` (R76). -/
def TrialEnv.newRecord (env : TrialEnv) (m : Rmu) (f : Nat) : PageRecord :=
  { opened := m.opened + 1, number := m.recordCounter + 1, frame := f
    planes := env.planes.map fun g => g.map fun g => ⟨g, .notSeen, 0, 0⟩
    lines := 0, irregular := false, incomplete := false, unproven := false, reserve := env.reserve
    job := env.job, nonce := env.nonce, user := env.user }

/-- Step 2 of a pass start (R75 to R77): the oldest record that lacks the plane, or a new one if there is room and its
reserve passes. -/
def Trial.choose (env : TrialEnv) (passes : Nat → Bool) (tr : Trial) (f : Nat) : Except TrialStop (Trial × Nat) :=
  match tr.ctx.queue.find? fun r => r.lacks env.raster.plane f env.raster.geom with
  | some r => .ok (tr, r.opened)
  | none =>
    if 4 ≤ tr.ctx.queue.length then .error .held
    else if passes (tr.openedNow * env.reserve) then
      .ok ({ tr with
          ctx := { tr.ctx with queue := tr.ctx.queue ++ [env.newRecord tr.rmu f] }
          rmu := ⟨tr.rmu.recordCounter + 1, tr.rmu.opened + 1⟩
          openedNow := tr.openedNow + 1 }, tr.rmu.opened + 1)
    else .error .quota

/-- Steps 3 and 4 of a pass start (R75): the tracker is set and tied, the plane becomes OPEN, and a start past chunk 0
sets IRREGULAR. -/
def Trial.tie (env : TrialEnv) (tr : Trial) (n f chunk : Nat) : Trial :=
  let c := tr.ctx.modRecord n fun r =>
    { (r.modPlane env.raster.plane fun q => { q with status := .opened, chunks := 0 }) with
      irregular := r.irregular || chunk != 0 }
  { tr with ctx := { c with
      trackers := upd c.trackers env.raster.plane fun _ => ⟨some f, some env.raster.geom, 0, some n⟩ } }

/-- A pass starts for a line at frame `f`, chunk `chunk` (R75). -/
def Trial.startPass (env : TrialEnv) (passes : Nat → Bool) (tr : Trial) (f chunk : Nat) : Except TrialStop Trial :=
  match (tr.closeTie env.raster.plane).choose env passes f with
  | .error e => .error e
  | .ok (tr', n) => .ok (tr'.tie env n f chunk)

/-- The effects of a FIRST line on its record (R78, R79). -/
def PageRecord.firstLine (r : PageRecord) (env : TrialEnv) (hw : Nat) (skipped : Bool) : PageRecord :=
  { (r.modPlane env.raster.plane fun q =>
      { q with chunks := hw, status := if hw = env.raster.geom.chunksPerFrame then .closed else q.status }) with
    lines := r.lines + 1, irregular := r.irregular || skipped, unproven := r.unproven || !env.genuine }

/-- Classification of the line at chunk `chunk` (R78, R79). -/
def Trial.classify (env : TrialEnv) (tr : Trial) (chunk : Nat) : Trial :=
  let t := tr.ctx.trackers[env.raster.plane]
  match t.tied with
  | some n =>
    if t.isComplete || chunk < t.hw then
      { tr with marks := tr.marks ++ [.remark (some n) env.raster.plane] }
    else
      let c := tr.ctx.modRecord n fun r => r.firstLine env (chunk + 1) (t.hw < chunk)
      { tr with
        ctx := { c with trackers := upd c.trackers env.raster.plane fun t => { t with hw := chunk + 1 } }
        marks := tr.marks ++ [.first n env.raster.plane] }
  | none => { tr with marks := tr.marks ++ [.remark none env.raster.plane] }

/-- One line of the trial: the new-pass test, a pass start if it calls for one, and classification (section 4.5). -/
def Trial.line (env : TrialEnv) (passes : Nat → Bool) (tr : Trial) (a : Addr) : Except TrialStop Trial :=
  let (f, c) := env.place a
  if (tr.ctx.trackers[env.raster.plane]).needsPass env.raster.geom f c then
    match tr.startPass env passes f c with
    | .error e => .error e
    | .ok tr' => .ok (tr'.classify env c)
  else .ok (tr.classify env c)

/-- The trial of a read's lines in address order (R71). -/
def Trial.run (env : TrialEnv) (passes : Nat → Bool) : List Addr → Trial → Except TrialStop Trial
  | [], tr => .ok tr
  | a :: rest, tr =>
    match tr.line env passes a with
    | .error e => .error e
    | .ok tr' => Trial.run env passes rest tr'

/-! ## Contexts of the part (R57) -/

/-- Every meter context with the slot of its job: current, saved on the stack, own. -/
def Jobs.contexts (j : Jobs) : List Marked :=
  j.marking.toList ++ j.stack
    ++ (List.finRange 16).filterMap fun i => (j.slots[i]).own.map fun c => ⟨i, c⟩

/-- Every meter context changed by `f`. -/
def Jobs.mapContexts (j : Jobs) (f : Context → Context) : Jobs :=
  { j with
    marking := j.marking.map fun m => { m with ctx := f m.ctx }
    stack := j.stack.map fun m => { m with ctx := f m.ctx }
    slots := j.slots.map fun q => { q with own := q.own.map f } }

/-- The records due to settle, in every context. -/
def Jobs.due (j : Jobs) : List PageRecord := j.contexts.flatMap fun m => m.ctx.queue.filter PageRecord.isDue

/-- A record is put among others in the order of opening. -/
def insertRecord (r : PageRecord) : List PageRecord → List PageRecord
  | [] => [r]
  | q :: rest => if r.opened ≤ q.opened then r :: q :: rest else q :: insertRecord r rest

/-- Records in the order in which they opened (R106). -/
def sortRecords (rs : List PageRecord) : List PageRecord := rs.foldr insertRecord []

/-- An own context without records is discarded (R57, R85). -/
def JobSlot.dropEmptyOwn (q : JobSlot) : JobSlot :=
  { q with own := q.own.filter fun c => !c.queue.isEmpty }

/-- A Hold Queue entry with cause ASSEMBLY that names one of these jobs is released (R87). -/
def HoldEntry.releaseFor (js : List (Fin 16)) (h : HoldEntry) : HoldEntry :=
  match h.cause with
  | .assembly j => if js.contains j then { h with released := true } else h
  | .commit => h

/-- The ASSEMBLY holds that name one of these jobs are released. -/
def State.releaseAssembly (s : State) (js : List (Fin 16)) : State :=
  { s with path := { s.path with hold := s.path.hold.map (HoldEntry.releaseFor js) } }

/-- Every due record settles (R84, R85): it leaves its queue, ACE posts it, in the order of opening, the ASSEMBLY holds
of its context's job are released, and an own context left without records is discarded. -/
def State.settleDue (s : State) : State :=
  let owners := (s.jct.contexts.filter fun m => m.ctx.queue.any PageRecord.isDue).map Marked.job
  let due := sortRecords s.jct.due
  let s := { s with jct := s.jct.mapContexts Context.dropDue }
  let s := { s with jct := { s.jct with slots := s.jct.slots.map JobSlot.dropEmptyOwn } }
  due.foldl (State.settle true) (s.releaseAssembly owners)

/-! ## Return of a metered read (R81, R82) -/

/-- A 48-bit saturating sum (R81). -/
def sat48 (n : Nat) : Nat := min (2 ^ 48 - 1) n

/-- The effect of one returned mark on the records: a FIRST line adds its dot sum and is no longer in flight (R81, R82). -/
def Jobs.returnMark (j : Jobs) (mark : LineMark) (sum : Nat) : Jobs :=
  match mark with
  | .first n p =>
    j.mapContexts fun c => c.modRecord n fun r =>
      { (r.modPlane p fun q => { q with dots := q.dots + sum }) with lines := r.lines - 1 }
  | .remark _ _ => j
  | .none => j

/-- The dot sums of a read's marked lines, in order; 0 for a line that is not metered. -/
def markSums (depth : Nat) (marks : List LineMark) (lines : List Line) : List Nat :=
  (marks.zip lines).map fun m => if m.1 = .none then 0 else dotSum depth m.2

end Sys2Proof.Machine
end

