-- ==== Sys2Proof/Machine/Toner.lean ====
section
/-!
DEFINITION. Toner metering (chapter 8): accrual, the debit test and its rounds, the level estimate and its states, and the
figures' part in departures, identification and proof.
-/

namespace Sys2Proof.Machine

/-- One milligram in picograms. -/
def pgPerMg : Nat := 1000000000

/-! ## Levels (R163 to R165) -/

/-- The level estimate (R163): max(0, reported level − pending − in flight) while the bay view is GENUINE or UNPROVEN. -/
def Figures.estimate (f : Figures) : Option Nat :=
  if f.view = .genuine ∨ f.view = .unproven then some (f.viewLevel - (f.pending + f.inFlight)) else none

/-- A TONER_LEVEL report of plane `p` as its figures stand (R164). -/
def State.tonerReport (s : State) (p : Fin 4) (isOut : Bool) : State :=
  s.hand (.tonerLevel p isOut ((s.plane p).estimate.getD 0) (s.plane p).viewLevel (s.plane p).view (s.bay p).serial
    (s.plane p).overrun)

/-- The level state falls to LOW at or below the low mark (R164). -/
def State.checkLow (s : State) (p : Fin 4) : State :=
  if (s.plane p).level = .normal ∧ (s.plane p).estimate.any (· ≤ (s.conf p).lowMark) then
    (s.modPlane p fun f => { f with level := .low }).tonerReport p false
  else s

/-- The level state falls to OUT at an estimate of 0, and the over-run is set (R164, R165). -/
def State.checkOut (s : State) (p : Fin 4) : State :=
  if ((s.plane p).level = .normal ∨ (s.plane p).level = .low) ∧ (s.plane p).estimate = some 0 then
    (s.modPlane p fun f =>
      { f with level := .out, overrun := min max32 (f.pending + f.inFlight - f.viewLevel) }).tonerReport p true
  else s

/-- Evaluation of the level of plane `p` (R164): LOW first, then OUT. -/
def State.evalLevel (s : State) (p : Fin 4) : State := (s.checkLow p).checkOut p

/-- The grace of plane `p` is exhausted (R165). -/
def State.graceExhausted (s : State) (p : Fin 4) : Bool :=
  (s.plane p).level == .out && (s.conf p).grace ≤ (s.plane p).overrun

/-! ## Rounds (R158 to R161) -/

/-- CCU takes a first send (R146): while the bay is GENUINE, the issued sequence rises, a fresh nonce is drawn, and the
open debit becomes that sequence, the amount and the nonce. -/
def State.takeFirstSend (s : State) (p : Fin 4) (amount : Nat) : State :=
  (s.modBay p fun b =>
    { b with
      issued := some (b.issued.getD 0 + 1)
      openDebit := some ⟨b.issued.getD 0 + 1, amount, Config.randomNonce s.draws, 0⟩
      waiting := true }).draw

/-- The amount of a round returns to pending and the round ends (R160). -/
def Figures.endRound (f : Figures) : Figures :=
  { f with pending := f.pending + f.inFlight, inFlight := 0, round := none }

/-- The outcome WITHDRAWN (R160). -/
def State.withdrawn (s : State) (p : Fin 4) : State := (s.modPlane p Figures.endRound).evalLevel p

/-- The amount that a round starts with: the stale debit's, or min(pending, 65535) (R159). -/
def Figures.roundAmount (f : Figures) : Nat := f.stale.getD (min f.pending 65535)

/-- The figures as a round starts (R159). -/
def Figures.startRound (f : Figures) : Figures :=
  { f with
    pending := f.pending - f.roundAmount, inFlight := f.roundAmount, round := some 1, stale := none, flush := false }

/-- Start of a round (R159): TMU hands CCU the repeat of a stale debit or a first send; a bay that is not GENUINE answers
WITHDRAWN (R146). -/
def State.startRound (s : State) (p : Fin 4) : State :=
  let t := s.modPlane p Figures.startRound
  if (s.bay p).state = .genuine then
    if (s.plane p).stale.isSome then t.modBay p fun b => { b with waiting := true }
    else t.takeFirstSend p (s.plane p).roundAmount
  else t.withdrawn p

/-- The debit test starts a round (R158). -/
def State.roundIsDue (s : State) (p : Fin 4) : Bool :=
  (s.plane p).view == .genuine && (s.plane p).round.isNone
    && ((s.plane p).stale.isSome || (s.conf p).quantum ≤ (s.plane p).pending
        || ((s.plane p).flush && 1 ≤ (s.plane p).pending))

/-- The debit test of plane `p` (R158); a set flush mark with nothing pending is cleared. -/
def State.debitTest (s : State) (p : Fin 4) : State :=
  if s.roundIsDue p then s.startRound p
  else if (s.plane p).flush ∧ (s.plane p).pending = 0 then s.modPlane p fun f => { f with flush := false }
  else s

/-- A close notice (R158): the flush mark of every plane is set, and the test is applied to each in ascending order. -/
def State.closeNotice (s : State) : State :=
  (List.finRange 4).foldl State.debitTest { s with tmu := s.tmu.map fun f => { f with flush := true } }

/-! ## Accrual (R156) -/

/-- The figures after a product of picograms is metered (R156 steps 1 to 4). -/
def Figures.accrue (f : Figures) (product : Nat) : Figures :=
  let carry := (f.pg + product) / pgPerMg
  { f with
    pg := (f.pg + product) % pgPerMg
    pending := f.pending + carry
    meteredMg := f.meteredMg + (f.meteredPg + product) / pgPerMg
    meteredPg := (f.meteredPg + product) % pgPerMg
    overrun := if f.level = .out then min max32 (f.overrun + carry) else f.overrun }

/-- An accrual notice of plane `p` with the sum `d` of a read's dot sums (R156). -/
def State.accrue (s : State) (p : Fin 4) (d : Nat) : State :=
  ((s.modPlane p fun f => f.accrue (d * (s.conf p).dotMass)).evalLevel p).debitTest p

/-! ## Outcomes (R160, R161) -/

/-- The outcome GOOD with the new level (R160): the amount is posted, the level is evaluated and the test applied. -/
def State.roundGood (s : State) (p : Fin 4) (level : Nat) : State :=
  ((s.modPlane p fun f =>
    { f with postedMg := f.postedMg + f.inFlight, inFlight := 0, round := none, viewLevel := level }).evalLevel p).debitTest p

/-- The outcome TAG_BAD (R160): the amount returns to pending, the round ends, the bay view becomes UNPROVEN. -/
def State.roundTagBad (s : State) (p : Fin 4) : State :=
  (s.modPlane p fun f => { f.endRound with view := .unproven }).evalLevel p

/-- The figures after a third FAILED (R161): the round ends with a stale debit. -/
def Figures.goStale (f : Figures) : Figures := { f.endRound with stale := some f.inFlight }

/-- The outcome FAILED, when the bay does not depart in the same event (R160): a repeat after the first and second, a
stale debit after the third. -/
def State.roundFailed (s : State) (p : Fin 4) : State :=
  match (s.plane p).round with
  | none => s
  | some n =>
    if n < 3 then
      ((s.modPlane p fun f => { f with round := some (n + 1) }).modBay p fun b => { b with waiting := true }).evalLevel p
    else (s.modPlane p Figures.goStale).evalLevel p

/-! ## Shares and proof (R157, R162, R164) -/

/-- Amounts added to the written-off total, carrying pg into mg (R157). -/
def Figures.writeOff (f : Figures) (mg pg : Nat) : Figures :=
  { f with
    writtenMg := f.writtenMg + mg + (f.writtenPg + pg) / pgPerMg
    writtenPg := (f.writtenPg + pg) % pgPerMg }

/-- The figures after a departure took the share (R157): pending and remainder 0, no stale debit, no flush mark. -/
def Figures.takeShare (f : Figures) : Figures := { f with pending := 0, pg := 0, stale := none, flush := false }

/-- The bay view leaves GENUINE and UNPROVEN (R148, R164): level state NONE, over-run 0. -/
def Figures.departed (f : Figures) : Figures := { f with view := .vacant, level := .none, overrun := 0 }

/-- A share returns at identification (R157). -/
def Figures.giveShare (f : Figures) (mg pg : Nat) : Figures :=
  { f with pending := f.pending + mg + (f.pg + pg) / pgPerMg, pg := (f.pg + pg) % pgPerMg }

/-- A confirmation of an amount (R162). -/
def State.confirm (s : State) (p : Fin 4) (amount : Nat) : State :=
  (s.modPlane p fun f => { f with pending := f.pending - amount, postedMg := f.postedMg + amount }).evalLevel p

/-- CCU hands TMU the outcome of a proof (R140, R164): the level state is set afresh and evaluated, and GENUINE brings the
debit test (R158). -/
def State.proofView (s : State) (p : Fin 4) (view : BayState) (level : Nat) : State :=
  let t := (s.modPlane p fun f => { f with view := view, viewLevel := level, level := .normal }).evalLevel p
  if view = .genuine then t.debitTest p else t

end Sys2Proof.Machine
end

