-- ==== Sys2Proof/Machine/Cartridge.lean ====
section
/-!
DEFINITION. The cartridge lines and bays (chapter 7): frames, exchanges, supervision, identification, proof, the debit
exchange, departure and the Departed Cartridge List.
-/

namespace Sys2Proof.Machine

/-! ## Frames (section 11.5) -/

/-- The check byte that makes kind, length, payload and check sum to 0 modulo 256 (section 7.1). -/
def checkByte (bs : List Byte) : Byte := -(bs.foldr (· + ·) 0)

/-- A frame of a kind code and a payload. -/
def mkFrame (code : Byte) (payload : List Byte) : List Byte :=
  0xA5#8 :: (code :: byte payload.length :: payload) ++ [checkByte (code :: byte payload.length :: payload)]

/-- The kind code of a request. -/
def Exch.requestCode : Exch → Byte
  | .status => 0x01 | .ident => 0x02 | .prove => 0x03 | .debit => 0x04

/-- The kind code of a reply. -/
def Exch.replyCode : Exch → Byte
  | .status => 0x81 | .ident => 0x82 | .prove => 0x83 | .debit => 0x84

/-- The payload length of a reply. -/
def Exch.replyLength : Exch → Nat
  | .status => 5 | .ident => 13 | .prove => 14 | .debit => 14

/-- A frame begins with the start mark, has a right check byte, and its bytes are as many as its length says. -/
def frameWhole (fr : List Byte) : Bool :=
  fr.head? == some 0xA5#8 && fr.length == frameField fr 2 1 + 4 && fr.tail.foldr (· + ·) 0 == 0

/-- The sequence field of a DEBIT_REP. -/
def debitSeq (fr : List Byte) : BitVec 16 := BitVec.ofNat 16 (frameField fr 7 2)

/-- Acceptance of a reply (R135): to a request of kind `k`, with the open debit's sequence for a DEBIT_REP. -/
def replyAccepted (k : Exch) (seq : Option (BitVec 16)) (fr : List Byte) : Bool :=
  frameWhole fr && frameField fr 1 1 == k.replyCode.toNat && frameField fr 2 1 == k.replyLength
    && (k != .debit || seq == some (debitSeq fr))

/-! ## Bay reports (R145) -/

/-- The event's end for bay `p` (R145): if its state changed, the cause and the time are recorded and one BAY_STATE report
is handed. -/
def State.bayChanged (s : State) (r : BayReport) : State :=
  if r.before = r.after then s
  else (s.modBay r.bay fun b => { b with lastCause := some r.cause, lastChange := s.ms }).hand (.bayState r)

/-- A BAY_STATE report without items beyond the serial. -/
def plainBayReport (p : Fin 4) (before after : BayState) (cause : BayCause) (serial : Option Word8) : BayReport :=
  ⟨p, before, after, cause, serial, none, none, none, none⟩

/-- The serial a bay state report concerns: the cartridge serial or the foreign serial (R145). -/
def Bay.anySerial (b : Bay) : Option Word8 := b.serial.orElse fun _ => b.foreign

/-! ## Departure (R148, R149, R157) -/

/-- The unconfirmed debit of a departure (R148 step 2). -/
def Bay.departingDebit (b : Bay) : Option Unconfirmed :=
  match b.openDebit with
  | some d => if 1 ≤ d.sends then some ⟨d.seq, d.amount⟩ else b.unconfirmed
  | none => b.unconfirmed

/-- The bay record after a departure (R148 step 5). -/
def Bay.vacated (b : Bay) : Bay :=
  { b with
    state := .vacant, settle := 0, failures := 0, serial := none, foreign := none, colour := none, capacity := none,
    issued := none, openDebit := none, unconfirmed := none, waiting := false }

/-- An entry joins the Departed Cartridge List; a full list drops its head, whose amounts are written off for its plane
(R149). -/
def State.appendDeparted (s : State) (d : Departed) : State × Option Departed :=
  match s.ccu.departed with
  | e :: rest =>
    if 8 ≤ s.ccu.departed.length then
      (({ s with ccu := { s.ccu with departed := rest ++ [d] } } : State).modPlane e.plane fun f => f.writeOff e.mg e.pg,
        some e)
    else ({ s with ccu := { s.ccu with departed := s.ccu.departed ++ [d] } }, none)
  | [] => ({ s with ccu := { s.ccu with departed := [d] } }, none)

/-- Step 2 of a departure: a waiting request is answered WITHDRAWN, and any amount in flight returns to pending. -/
def State.withdrawDebit (s : State) (p : Fin 4) : State :=
  if (s.bay p).waiting then (s.modBay p fun b => { b with waiting := false }).withdrawn p
  else s.modPlane p Figures.endRound

/-- Steps 3 and 4 of a departure: the share is taken and disposed of. A share of 0 mg and 0 pg is reported as nothing pending for
an UNPROVEN bay too, and so is a departure without a serial, which takes no share: the model's choices (log entry 38). -/
def State.disposeShare (s : State) (p : Fin 4) (unconf : Option Unconfirmed) : State × DepartureItems :=
  let mg := (s.plane p).pending
  let pg := (s.plane p).pg
  match (s.bay p).serial with
  | none => (s, ⟨.nothingPending, 0, 0, none⟩)
  | some serial =>
    let t := s.modPlane p Figures.takeShare
    if mg = 0 ∧ pg = 0 then (t, ⟨.nothingPending, 0, 0, none⟩)
    else if (s.bay p).state = .unproven then (t.modPlane p fun f => f.writeOff mg pg, ⟨.writtenOff, mg, pg, none⟩)
    else
      let (t, dropped) := t.appendDeparted ⟨serial, p, mg, pg, unconf⟩
      (t, ⟨.entryMade, mg, pg, dropped⟩)

/-- A departure of bay `p` (R148 steps 2 to 6, without the report). -/
def State.depart (s : State) (p : Fin 4) : State × DepartureItems :=
  let unconf := (s.bay p).departingDebit
  let (t, items) := (s.withdrawDebit p).disposeShare p unconf
  ((t.modBay p Bay.vacated).modPlane p Figures.departed, items)

/-- The report of a departure that found the bay as `b` and leaves it in state `after`. -/
def departReport (p : Fin 4) (b : Bay) (after : BayState) (cause : BayCause) (items : DepartureItems) : BayReport :=
  ⟨p, b.state, after, cause, b.anySerial, none, none, none, some items⟩

/-! ## The line (R134, R136) -/

/-- CCU sends a request on bay `p`'s line, and the 20 ms for a reply to begin start. -/
def State.sendFrame (s : State) (p : Fin 4) (k : Exch) (nonce : Word8) (payload : List Byte) : State :=
  (s.modBay p fun b => { b with line := some ⟨k, s.ms, false, nonce⟩ }).give (.frame p (mkFrame k.requestCode payload))

/-- The exchange on bay `p`'s line ends now: the line is idle and the next poll is timed from here (R136). -/
def State.endExchange (s : State) (p : Fin 4) : State :=
  s.modBay p fun b => { b with line := none, due := .after s.ms }

/-- The moment at which the next exchange of a bay is due comes, if it is ever due (R136, log entry 2). -/
def State.waitDue (s : State) (p : Fin 4) : State :=
  match (s.bay p).due with
  | .never => s
  | .atOnce => s
  | .after t => s.waitUntil t 200

/-- The line of bay `p` is idle and an exchange will fall due. -/
def Bay.canSend (b : Bay) : Bool := b.line.isNone && b.due != .never

/-- A poll is due on the bay (R136): not while a debit request waits, nor in IDENTIFYING and PROVING. -/
def Bay.pollDue (b : Bay) : Bool :=
  b.canSend && b.state != .identifying && b.state != .proving && !(b.state == .genuine && b.waiting)

/-- The reply deadline has been missed: more than 20 ms since the moment it is measured from (R134). -/
def State.deadlineMissed (s : State) (e : Exchange) : Bool := 20 < s.since e.since

/-! ## Supervision (R138, R141, R147) -/

/-- A bay enters IDENTIFYING when its settle count reaches the attach count (R138); the IDENT exchange is due at once. -/
def State.attachTest (s : State) (p : Fin 4) : State :=
  if (s.conf p).attach ≤ (s.bay p).settle then s.modBay p fun b => { b with state := .identifying, due := .atOnce }
  else s

/-- A failed exchange at bay `p` (R134, R138, R141, R147). `isDebit` says that it was a DEBIT exchange, whose outcome goes
to TMU before a departure acts. -/
def State.exchangeFailed (s : State) (p : Fin 4) (isDebit : Bool) : State :=
  let b := s.bay p
  let s := s.endExchange p
  match b.state with
  | .vacant => s
  | .settling =>
    (s.modBay p fun b => { b with state := .vacant, settle := 0 }).bayChanged
      (plainBayReport p .settling .vacant .settleLost none)
  | _ =>
    let s := s.modBay p fun b => { b with failures := min 7 (b.failures + 1) }
    if (s.conf p).detach ≤ (s.bay p).failures then
      let s := if isDebit then s.evalLevel p else s
      let (t, items) := s.depart p
      t.bayChanged (departReport p b .vacant .detach items)
    else if isDebit then s.roundFailed p
    else s

/-- A good STATUS_REP at bay `p` (R138, R141 to R143). -/
def State.goodStatus (s : State) (p : Fin 4) (fr : List Byte) : State :=
  let b := s.bay p
  let s := (s.endExchange p).modBay p fun b =>
    { b with statusLevel := BitVec.ofNat 32 (frameField fr 3 4), statusFlags := byte (frameField fr 7 1) }
  let restarted := (byte (frameField fr 7 1)).getLsbD 0
  match b.state with
  | .vacant =>
    let t := (s.modBay p fun b => { b with state := .settling, settle := 1, failures := 0 }).attachTest p
    t.bayChanged (plainBayReport p .vacant (t.bay p).state
      (if (t.bay p).state = .identifying then .settled else .attach) none)
  | .settling =>
    let t := (s.modBay p fun b => { b with settle := min 15 (b.settle + 1) }).attachTest p
    t.bayChanged (plainBayReport p .settling (t.bay p).state .settled none)
  | .identifying => s.modBay p fun b => { b with failures := 0 }
  | .proving => s.modBay p fun b => { b with failures := 0 }
  | _ =>
    if restarted then
      let (t, items) := s.depart p
      let t := (t.modBay p fun b => { b with state := .settling, settle := 1, failures := 0 }).attachTest p
      t.bayChanged (departReport p b (t.bay p).state .restarted items)
    else s.modBay p fun b => { b with failures := 0 }

/-! ## Identification (R138) -/

/-- Another bay in PROVING, GENUINE or UNPROVEN holds this serial. -/
def State.heldElsewhere (s : State) (p : Fin 4) (serial : Word8) : Bool :=
  (List.finRange 4).any fun q => q != p && (s.bay q).serial == some serial
    && ((s.bay q).state == .proving || (s.bay q).state == .genuine || (s.bay q).state == .unproven)

/-- The serial is in the Departed Cartridge List with another plane. -/
def Ccu.departedElsewhere (c : Ccu) (p : Fin 4) (serial : Word8) : Bool :=
  c.departed.any fun d => d.serial == serial && d.plane != p

/-- The entry of a serial in the Departed Cartridge List. -/
def Ccu.departedEntry? (c : Ccu) (serial : Word8) : Option Departed := c.departed.find? fun d => d.serial == serial

/-- The bay goes to WRONG_BAY with this serial as the foreign serial (R138 steps 1 and 2). -/
def State.wrongBay (s : State) (p : Fin 4) (cause : BayCause) (serial : Word8) (colour : Byte) (cap : BitVec 32) : State :=
  (s.modBay p fun b =>
    { b with state := .wrongBay, failures := 0, foreign := some serial, colour := some colour, capacity := some cap }).bayChanged
    (plainBayReport p .identifying .wrongBay cause (some serial))

/-- Identification accepted (R138 step 3): the bay is PROVING, and a departed share of the serial returns to it. -/
def State.identified (s : State) (p : Fin 4) (serial : Word8) (colour : Byte) (cap : BitVec 32) : State :=
  let entry := s.ccu.departedEntry? serial
  let s := s.modBay p fun b =>
    { b with state := .proving, failures := 0, serial := some serial, colour := some colour, capacity := some cap,
             unconfirmed := entry.bind Departed.unconfirmed, due := .atOnce }
  let s := { s with ccu := { s.ccu with departed := s.ccu.departed.eraseP fun d => d.serial == serial } }
  let s := match entry with
    | some e => s.modPlane p fun f => f.giveShare e.mg e.pg
    | none => s
  s.bayChanged ⟨p, .identifying, .proving, .identified, some serial, none, entry.map fun e => (e.mg, e.pg), none, none⟩

/-- A good IDENT_REP (R138). In any state but IDENTIFYING it only counts as a good reply (R141). -/
def State.goodIdent (s : State) (p : Fin 4) (fr : List Byte) : State :=
  let serial : Word8 := BitVec.ofNat 64 (frameField fr 3 8)
  let colour := byte (frameField fr 11 1)
  let cap := BitVec.ofNat 32 (frameField fr 12 4)
  let s := s.endExchange p
  if (s.bay p).state = .identifying then
    if colour.toNat ≠ p.val then s.wrongBay p .wrongColour serial colour cap
    else if s.heldElsewhere p serial || s.ccu.departedElsewhere p serial then s.wrongBay p .duplicate serial colour cap
    else s.identified p serial colour cap
  else s.modBay p fun b => { b with failures := 0 }

/-! ## Proof (R139, R140) -/

/-- The tag of R139 for a serial, with the cartridge key derived from it. -/
def expectedTag (serial nonce : Word8) (level : BitVec 32) (seq : BitVec 16) : Word8 :=
  Config.proofTag (Config.cartridgeKey serial) nonce serial level seq

/-- The proof matches (R140): the bay is GENUINE, an unconfirmed debit with the cartridge's own sequence is confirmed, and
TMU takes the new state and level. That the confirmation comes first, while the level state is NONE, is the model's choice (log
entry 45). -/
def State.proofGood (s : State) (p : Fin 4) (level : BitVec 32) (seq : BitVec 16) : State :=
  let confirmed := ((s.bay p).unconfirmed.filter fun u => u.seq == seq).map Unconfirmed.amount
  let s := s.modBay p fun b =>
    { b with state := .genuine, reported := level, failures := 0, issued := some seq, unconfirmed := none }
  let s := match confirmed with
    | some a => s.confirm p a
    | none => s
  (s.proofView p .genuine level.toNat).bayChanged
    ⟨p, .proving, .genuine, .proofGood, (s.bay p).serial, some level, none, confirmed, none⟩

/-- The proof does not match (R140): the bay is UNPROVEN. -/
def State.proofBad (s : State) (p : Fin 4) (level : BitVec 32) : State :=
  let s := s.modBay p fun b => { b with state := .unproven, reported := level, failures := 0, unconfirmed := none }
  (s.proofView p .unproven level.toNat).bayChanged
    ⟨p, .proving, .unproven, .proofBad, (s.bay p).serial, some level, none, none, none⟩

/-- A good PROVE_REP, to the nonce of the request (R140). -/
def State.goodProve (s : State) (p : Fin 4) (nonce : Word8) (fr : List Byte) : State :=
  let level := BitVec.ofNat 32 (frameField fr 3 4)
  let seq := BitVec.ofNat 16 (frameField fr 7 2)
  let tag : Word8 := BitVec.ofNat 64 (frameField fr 9 8)
  let s := s.endExchange p
  match (s.bay p).state, (s.bay p).serial with
  | .proving, some serial =>
    if expectedTag serial nonce level seq = tag then s.proofGood p level seq else s.proofBad p level
  | _, _ => s.modBay p fun b => { b with failures := 0 }

/-! ## Debit (R147) -/

/-- A good DEBIT_REP whose tag matches (R147). -/
def State.debitGood (s : State) (p : Fin 4) (level : BitVec 32) : State :=
  (s.modBay p fun b => { b with reported := level, openDebit := none, failures := 0 }).roundGood p level.toNat

/-- A good DEBIT_REP whose tag does not match (R147): GENUINE becomes UNPROVEN. -/
def State.debitTagBad (s : State) (p : Fin 4) : State :=
  let b := s.bay p
  ((s.modBay p fun b => { b with state := .unproven, openDebit := none, failures := 0 }).roundTagBad p).bayChanged
    ⟨p, b.state, .unproven, .debitTagBad, b.serial, some b.reported, none, none, none⟩

/-- A good DEBIT_REP at bay `p` (R147). -/
def State.goodDebit (s : State) (p : Fin 4) (fr : List Byte) : State :=
  let level := BitVec.ofNat 32 (frameField fr 3 4)
  let tag : Word8 := BitVec.ofNat 64 (frameField fr 9 8)
  let s := s.endExchange p
  match (s.bay p).openDebit, (s.bay p).serial with
  | some d, some serial =>
    if expectedTag serial d.nonce level (debitSeq fr) = tag then s.debitGood p level else s.debitTagBad p
  | _, _ => s.modBay p fun b => { b with failures := 0 }

/-! ## The end of a reply frame (R134, R135) -/

/-- A good reply of the kind that was asked for. -/
def State.goodReply (s : State) (p : Fin 4) (e : Exchange) (fr : List Byte) : State :=
  match e.kind with
  | .status => s.goodStatus p fr
  | .ident => s.goodIdent p fr
  | .prove => s.goodProve p e.nonce fr
  | .debit => s.goodDebit p fr

/-- A reply frame of kind `k` ends on bay `p`'s line (R134, R135). Bytes that arrive while no reply is awaited, or after a
missed deadline, are discarded; a frame of another kind than the request asks for is refused. -/
def State.replyEnds (s : State) (k : Exch) (p : Fin 4) (fr : List Byte) : State :=
  match (s.bay p).line with
  | none => s
  | some e =>
    if s.deadlineMissed e then s
    else if e.kind = k ∧ replyAccepted k ((s.bay p).openDebit.map OpenDebit.seq) fr then s.goodReply p e fr
    else s.exchangeFailed p (e.kind == .debit)

/-! ## Standby and wake (R153) -/

/-- A bay detaches for standby (R153): an exchange in progress is abandoned, and a bay that is not VACANT departs. -/
def State.detachBay (s : State) (p : Fin 4) : State :=
  let b := s.bay p
  let s := s.modBay p fun b => { b with line := none, due := .never }
  if b.state = .vacant then s
  else
    let (t, items) := s.depart p
    t.bayChanged (departReport p b .vacant .standby items)

/-- CCU detaches every bay, in ascending order (R153). -/
def State.detachAll (s : State) : State := (List.finRange 4).foldl State.detachBay s

/-- The number of bays that are not VACANT. -/
def State.attachedBays (s : State) : Nat := ((List.finRange 4).filter fun p => (s.bay p).state != .vacant).length

/-- The first poll of every bay is due at once (R136). -/
def State.firstPolls (s : State) : State :=
  { s with ccu := { s.ccu with bays := s.ccu.bays.map fun b => { b with due := .atOnce } } }

end Sys2Proof.Machine
end

