-- ==== Sys2Proof/Machine/Regions.lean ====
section
/-!
DEFINITION. The Region Table (sections 1.4 and 1.5, R44): fields of an entry, overlap, bound ranges, and the commit.
-/

namespace Sys2Proof.Machine

/-- An entry is job-bound: IMAGE or RASTER. -/
def RegionEntry.jobBound (e : RegionEntry) : Bool := e.cls != .plain

/-- The page lies in the range of the entry. -/
def RegionEntry.covers (e : RegionEntry) (p : Page) : Bool := inRangeOf p e.base e.count

/-- Two entries overlap: their ranges share a page (section 1.4). -/
def RegionEntry.overlaps (a b : RegionEntry) : Bool := rangesOverlap a.base a.count b.base b.count

/-- An entry names job `j`. -/
def RegionEntry.names (e : RegionEntry) (j : Fin 16) : Bool := e.job == some j

/-- The source's bit of a mask. -/
def sourceBit (m : BitVec 16) (src : Fin 16) : Bool := m.getLsbD src.val

/-! ## Bound ranges (R44) -/

/-- The range of an entry, if it is valid and names job `j`. -/
def boundRange (j : Fin 16) (e : Option RegionEntry) : Option (Nat × Nat) :=
  (e.filter fun e => e.names j).map fun e => (e.base, e.count)

/-- A list without its later repeats. -/
def distinct (rs : List (Nat × Nat)) : List (Nat × Nat) :=
  rs.foldl (fun acc r => if acc.contains r then acc else acc ++ [r]) []

/-- The distinct ranges of job `j`, in ascending entry index, live before shadow at one index (R44, R53 step 2). -/
def Regions.rangesOf (g : Regions) (j : Fin 16) : List (Nat × Nat) :=
  distinct ((List.finRange 32).flatMap fun i => (boundRange j g.live[i]).toList ++ (boundRange j g.shadow[i]).toList)

/-- The bound range counts brought up to date (R44). -/
def State.refreshBound (s : State) : State :=
  (List.finRange 16).foldl (fun t j => t.modJob j fun q => { q with bound := (s.rgt.rangesOf j).length }) s

/-- The state with a new Region Table and its bound range counts. -/
def State.setRegions (s : State) (g : Regions) : State := ({ s with rgt := g } : State).refreshBound

/-! ## Invalidation (R16) -/

/-- Direct invalidation of entries, live and shadow. -/
def Regions.invalidate (g : Regions) (gone : RegionEntry → Bool) : Regions :=
  { g with live := g.live.map (Option.filter fun e => !gone e), shadow := g.shadow.map (Option.filter fun e => !gone e) }

/-! ## REGION_SET (R12, R13) -/

/-- A number in a list of classes (section 11.3). -/
def regionClass? : Nat → Option RegionClass
  | 0 => some .plain
  | 1 => some .image
  | 2 => some .raster
  | _ => none

/-- A number in the list of behaviours (section 11.3). -/
def behaviour? : Nat → Option Behaviour
  | 0 => some .error
  | 1 => some .fill
  | 2 => some .trap
  | _ => none

/-- A yes/no byte (R192). -/
def yesNo? : Nat → Option Bool
  | 0 => some false
  | 1 => some true
  | _ => none

/-- The number as an index below `n`. -/
def fin? (n v : Nat) : Option (Fin n) := if h : v < n then some ⟨v, h⟩ else none

/-- The number as an index below `n`, for a field that may be absent: `none` when out of range. -/
def finOpt? (n : Nat) : Option Nat → Option (Option (Fin n))
  | none => some none
  | some v => (fin? n v).map some

/-- A geometry with every field in the range of section 1.4. -/
def geometry? (stride depth frameLines : Option Nat) : Option Geometry :=
  match stride, depth, frameLines with
  | some s, some d, some f =>
    if (64 ≤ s ∧ s ≤ 8192 ∧ s % 64 = 0) ∧ (d = 1 ∨ d = 2 ∨ d = 4) ∧ 1 ≤ f ∧ f ≤ 16384 then some ⟨s, d, f⟩ else none
  | _, _, _ => none

/-- The RASTER fields: present and in range for class RASTER, absent for any other (R12 step 2). -/
def raster? (p : RegionSetParams) (c : RegionClass) : Option (Option Raster) :=
  match c with
  | .raster =>
    match p.plane.bind (fin? 4), geometry? p.stride p.depth p.frameLines with
    | some pl, some g => some (some ⟨pl, g⟩)
    | _, _ => none
  | _ => if p.plane.isNone ∧ p.depth.isNone ∧ p.stride.isNone ∧ p.frameLines.isNone then some none else none

/-- The range of an entry is in its bounds (section 1.4). -/
def rangeOk (base count : Nat) : Bool := base < 2 ^ 24 && 1 ≤ count && count ≤ 2 ^ 20 && base + count ≤ 2 ^ 24

/-- The entry that REGION_SET's fields spell, if each is in its range, present where required and absent where it must be
(R12 step 2). -/
def regionEntry? (p : RegionSetParams) : Option RegionEntry :=
  match regionClass? p.cls, yesNo? p.priv, behaviour? p.behaviour, finOpt? 16 p.job with
  | some c, some priv, some b, some job =>
    match raster? p c with
    | some r =>
      if rangeOk p.base p.count ∧ (job.isSome ↔ c ≠ .plain) ∧ (priv = true → c ≠ .plain)
          ∧ (priv = true ∨ p.rawMask = 0) then
        some ⟨c, priv, job, p.base, p.count, p.readMask, p.writeMask, p.rawMask, b, r⟩
      else none
    | none => none
  | _, _, _, _ => none

/-- The new entry at index `i` may not overlap the other one, which stands at index `k` of the live (`isLive`) or shadow
table (R13). -/
def overlapForbidden (i : Fin 32) (e : RegionEntry) (isLive : Bool) (k : Fin 32) (o : RegionEntry) : Bool :=
  e.overlaps o && (e.jobBound || o.jobBound)
    && !(isLive && k == i && e.jobBound && o.jobBound && e.job == o.job && e.base == o.base && e.count == o.count)

/-- The new entry at index `i` is refused OVERLAP (R13). -/
def Regions.overlapRefused (g : Regions) (i : Fin 32) (e : RegionEntry) : Bool :=
  (List.finRange 32).any fun k =>
    (g.live[k]).any (overlapForbidden i e true k) || (k != i && (g.shadow[k]).any (overlapForbidden i e false k))

/-- The job already has another valid RASTER shadow entry, at another index, for the same plane (R12 step 6). -/
def Regions.dupPlane (g : Regions) (i : Fin 32) (e : RegionEntry) : Bool :=
  match e.raster with
  | none => false
  | some r =>
    (List.finRange 32).any fun k =>
      k != i && (g.shadow[k]).any fun o => o.job == e.job && (o.raster.any fun q => q.plane == r.plane)

/-- The range overlaps that of a Wipe Queue entry (R12 step 8). -/
def Wpe.overlaps (w : Wpe) (base count : Nat) : Bool := w.queue.any fun x => rangesOverlap base count x.base x.count

/-- A range of pages includes a line of a window. -/
def Window.touches (w : Window) (base count : Nat) : Bool :=
  rangesOverlap (base * 64) (count * 64) w.baseLine (w.slots + 1)

/-- A range of pages includes a line of either ring window (R12 step 9, R174 step 2). -/
def Path.ringTouches (p : Path) (base count : Nat) : Bool :=
  (p.cmdWindow.any fun w => w.touches base count) || (p.repWindow.any fun w => w.touches base count)

/-- The job of an entry is in a state that REGION_SET and the commit accept: OPEN or HELD (R12 step 3, R15). -/
def JobState.bindable : JobState → Bool
  | .opened => true
  | .held _ => true
  | .free => false
  | .closing => false
  | .wiping => false

/-- Steps 3 to 9 of R12 for an entry whose fields passed step 2. -/
def State.regionCheck (s : State) (i : Fin 32) (e : RegionEntry) : ResultCode :=
  if e.job.any (fun j => !(s.job j).state.bindable) then .jobState
  else if e.raster.isSome && e.job.any (fun j => (s.job j).kind == .scan) then .badParam
  else if e.raster.any (fun r => r.geom.frames e.count == 0) then .geometry
  else if s.rgt.dupPlane i e then .dupPlane
  else if s.rgt.overlapRefused i e then .overlap
  else if s.wpe.overlaps e.base e.count then .wipeOverlap
  else if e.jobBound && s.path.ringTouches e.base e.count then .badParam
  else .ok

/-- REGION_SET at RGT (R12): the result code and the state. -/
def State.regionSet (s : State) (p : RegionSetParams) : ResultCode × State :=
  if s.rgt.commit.isSome then (.busyCommit, s)
  else
    match fin? 32 p.index, regionEntry? p with
    | some i, some e =>
      match s.regionCheck i e with
      | .ok => (.ok, s.setRegions { s.rgt with shadow := s.rgt.shadow.set i (some e) })
      | code => (code, s)
    | _, _ => (.badParam, s)

/-- REGION_CLEAR at RGT (R12). -/
def State.regionClear (s : State) (index : Nat) : ResultCode × State :=
  if s.rgt.commit.isSome then (.busyCommit, s)
  else
    match fin? 32 index with
    | some i => (.ok, s.setRegions { s.rgt with shadow := s.rgt.shadow.set i none })
    | none => (.badParam, s)

/-! ## Commit (R14, R15) -/

/-- The changed set C (R14): the indices whose shadow entry is not equal to the live entry. -/
def Regions.changedSet (g : Regions) : List (Fin 32) := (List.finRange 32).filter fun i => g.shadow[i] != g.live[i]

/-- REGIONS_COMMIT at RGT (R14). A commit whose counts are already zero completes in the same event (see `completeCommit`
among the consequences). -/
def State.regionsCommit (s : State) (tag : BitVec 16) : ResultCode × State :=
  if s.rgt.commit.isSome then (.busyCommit, s)
  else if s.rgt.changedSet.isEmpty then (.ok, s)
  else (.ok, { s with rgt := { s.rgt with commit := some ⟨s.rgt.changedSet, tag⟩ } })

/-- A pending commit may complete: every entry in C has an in-flight count of zero (R15). -/
def Regions.commitDue (g : Regions) : Bool :=
  match g.commit with
  | none => false
  | some c => c.changed.all fun i => g.inFlight[i] == 0

/-- A shadow entry that a completing commit drops: job-bound, its job slot not OPEN or HELD (R15). -/
def State.isDropped (s : State) (e : RegionEntry) : Bool := e.job.any fun j => !(s.job j).state.bindable

/-- The shadow entry after step 1 of R15. -/
def State.committed (s : State) (i : Fin 32) : Option RegionEntry := (s.rgt.shadow[i]).filter fun e => !s.isDropped e

/-- One index of a completing commit (R15): the shadow entry is dropped or kept, and live takes its value. -/
def Regions.carry (g : Regions) (i : Fin 32) (e : Option RegionEntry) : Regions :=
  { g with shadow := g.shadow.set i e, live := g.live.set i e }

/-- The number of entries in C that the completing commit drops (R15). -/
def State.droppedCount (s : State) (changed : List (Fin 32)) : Nat :=
  (changed.filter fun i => (s.rgt.shadow[i]).any s.isDropped).length

/-- The Region Table after the completion (R15). -/
def State.carried (s : State) (changed : List (Fin 32)) : Regions :=
  { (changed.foldl (fun g i => g.carry i (s.committed i)) s.rgt) with commit := none }

/-- Every Hold Queue entry with cause COMMIT is released (R15, R18). -/
def HoldEntry.releaseCommit (h : HoldEntry) : HoldEntry :=
  match h.cause with
  | .commit => { h with released := true }
  | .assembly _ => h

/-- Completion of the pending commit, if it is due (R15). -/
def State.completeCommit (s : State) : State :=
  match s.rgt.commit with
  | none => s
  | some c =>
    if s.rgt.commitDue then
      let t := s.setRegions (s.carried c.changed)
      ({ t with path := { t.path with hold := t.path.hold.map HoldEntry.releaseCommit } } : State).hand
        (.regionsCommitted (s.droppedCount c.changed)) c.tag
    else s

end Sys2Proof.Machine
end

