-- ==== Sys2Proof/Machine/Wipe.lean ====
section
/-!
DEFINITION. The Wipe Engine (sections 9.1 to 9.3): joining the Wipe Queue, the start of a wipe, its passes and verify, and
completion.
-/

namespace Sys2Proof.Machine

/-- An entry joins the tail of the Wipe Queue (R168, R169): the wipe counter rises, and its value is the wipe number. -/
def Wpe.join (w : Wpe) (base count passes : Nat) (verify : Bool) (origin : WipeOrigin) : Wpe :=
  { queue := w.queue ++ [⟨w.counter + 1, base, count, passes, verify, origin, .waiting, 0⟩], counter := w.counter + 1 }

/-- Several ranges join, in order, with the same settings. -/
def Wpe.joinAll (w : Wpe) (rs : List (Nat × Nat)) (passes : Nat) (verify : Bool) (origin : WipeOrigin) : Wpe :=
  rs.foldl (fun w r => w.join r.1 r.2 passes verify origin) w

/-- The free entries of the Wipe Queue. -/
def Wpe.room (w : Wpe) : Nat := 32 - w.queue.length

/-! ## WIPE_RANGE (R174) -/

/-- The range overlaps a valid job-bound entry, live or shadow (R174 step 3). -/
def Regions.jobBoundOverlaps (g : Regions) (base count : Nat) : Bool :=
  (g.live.toList ++ g.shadow.toList).any fun e =>
    e.any fun e => e.jobBound && rangesOverlap base count e.base e.count

/-- WIPE_RANGE at WPE (R174): the result and the wipe number. -/
def State.wipeRange (s : State) (tag : BitVec 16) (p : WipeRangeParams) : (ResultCode × ResultValues) × State :=
  match yesNo? p.verify with
  | none => ((.badParam, .none), s)
  | some v =>
    if !rangeOk p.base p.count || p.passes < 1 || 3 < p.passes then ((.badParam, .none), s)
    else if s.path.ringTouches p.base p.count then ((.badParam, .none), s)
    else if s.rgt.jobBoundOverlaps p.base p.count || s.wpe.overlaps p.base p.count then ((.wipeOverlap, .none), s)
    else if 32 ≤ s.wpe.queue.length then ((.queueFull, .none), s)
    else
      ((.ok, .wipeNumber (s.wpe.counter + 1)),
        { s with wpe := s.wpe.join p.base p.count p.passes v (.explicit tag) })

/-! ## Start (R170) -/

/-- A forwarded transaction at an address lies in a range: its lines are in one page (R1). -/
def addrIn (a : Addr) (base count : Nat) : Bool := inRangeOf (pageOf a) base count

/-- The range is quiet (R170): no Read or Write Tracker slot, and no transaction that LRST left issued, lies in it. -/
def State.quiet (s : State) (base count : Nat) : Bool :=
  (s.path.reads.toList.all fun r => !(r.any fun r => addrIn r.addr base count))
    && (s.path.writes.toList.all fun w => !(w.any fun w => addrIn w.addr base count))
    && s.down.orphans.all fun o => !addrIn o.addr base count

/-- The progress with which pass `k` of a range begins: the generator is seeded afresh (R171). -/
def passStart (k base : Nat) : Progress := .pass k 0 0 (prbsSeed base)

/-- The head entry may leave WAITING: its range is quiet (R170). -/
def State.wipeStartDue (s : State) : Bool :=
  match s.wpe.queue with
  | [] => false
  | e :: _ => e.progress == .waiting && s.quiet e.base e.count

/-- The head entry changed by `f`. -/
def Wpe.modHead (w : Wpe) (f : WipeEntry → WipeEntry) : Wpe :=
  match w.queue with
  | [] => w
  | e :: rest => { w with queue := f e :: rest }

/-- The head entry leaves WAITING for pass 1, if it may (R170). -/
def State.startWipe (s : State) : State :=
  if s.wipeStartDue then { s with wpe := s.wpe.modHead fun e => { e with progress := passStart 1 e.base } } else s

/-! ## Passes and verify (R170 to R172) -/

/-- The lines of an entry's range. -/
def WipeEntry.totalLines (e : WipeEntry) : Nat := e.count * 64

/-- The address of a line of the range. -/
def WipeEntry.lineAddr (e : WipeEntry) (j : Nat) : Addr := BitVec.ofNat 36 (e.base * 4096 + 64 * j)

/-- An internal transaction is handed to the arbiter: it takes slot `i` and joins the internal list (R25, R26). -/
def Down.handInternal (d : Down) (i : Fin 8) (x : InternalSlot) : Down :=
  { d with internal := d.internal.set i (some x), internalList := d.internalList ++ [i] }

/-- WPE hands the next pattern write, if a pass has lines left and a slot is free (R170). -/
def State.issueWipeWrite (s : State) : State :=
  match s.wpe.queue, freeSlot? s.down.internal with
  | e :: _, some i =>
    match e.progress with
    | .pass k next out reg =>
      if next < e.totalLines then
        { s with
          down := s.down.handInternal i ⟨.wipeWrite k reg false, e.lineAddr next, 8, false⟩
          wpe := s.wpe.modHead fun e => { e with progress := .pass k (next + 8) (out + 1) (prbsRun 4096 reg) } }
      else s
    | _ => s
  | _, _ => s

/-- WPE hands the next verify read, if VERIFY has lines left and a slot is free (R172). -/
def State.issueVerifyRead (s : State) : State :=
  match s.wpe.queue, freeSlot? s.down.internal with
  | e :: _, some i =>
    match e.progress with
    | .verify next out reg =>
      if next < e.totalLines then
        { s with
          down := s.down.handInternal i ⟨.verifyRead e.passes reg, e.lineAddr next, 8, false⟩
          wpe := s.wpe.modHead fun e => { e with progress := .verify (next + 8) (out + 1) (prbsRun 4096 reg) } }
      else s
    | _ => s
  | _, _ => s

/-- The mismatch count rises, saturating at 32 bits (R168). -/
def WipeEntry.addMismatch (e : WipeEntry) (n : Nat) : WipeEntry := { e with mismatch := min max32 (e.mismatch + n) }

/-- One transaction of the entry is done. -/
def WipeEntry.oneDone (e : WipeEntry) : WipeEntry :=
  match e.progress with
  | .pass k next out reg => { e with progress := .pass k next (out - 1) reg }
  | .verify next out reg => { e with progress := .verify next (out - 1) reg }
  | .waiting => e

/-- When every write of a pass is done, the next pass or VERIFY begins (R170, R172). -/
def WipeEntry.advance (e : WipeEntry) : WipeEntry :=
  match e.progress with
  | .pass k next 0 _ =>
    if next < e.totalLines then e
    else if k < e.passes then { e with progress := passStart (k + 1) e.base }
    else if e.verify then { e with progress := .verify 0 0 (prbsSeed e.base) }
    else e
  | _ => e

/-- The entry has nothing left to do (R173): its last pass is done, or with verify its VERIFY. -/
def WipeEntry.isDone (e : WipeEntry) : Bool :=
  match e.progress with
  | .pass k next 0 _ => e.totalLines ≤ next && e.passes ≤ k && !e.verify
  | .verify next 0 _ => e.totalLines ≤ next
  | _ => false

/-- An internal transaction completes: its slot is free and its credit returns (R25, R26). -/
def Down.freeInternal (d : Down) (i : Fin 8) : Down :=
  { d with internal := d.internal.set i none, credits := d.credits + 1 }

/-- An internal transaction answered ERROR is handed again (R170, R186, R190): its credit returns. That it keeps its slot and joins
the internal list's tail in the same event is the model's choice: R25 frees the slot at DN's completion and lets either
waiting block take it (log entry 37). -/
def Down.handAgain (d : Down) (i : Fin 8) (p : Purpose) : Down :=
  { d with
    internal := upd d.internal i (Option.map fun x => { x with purpose := p })
    credits := d.credits + 1
    internalList := d.internalList ++ [i] }

/-- The internal transaction of slot `i` that is outstanding on DN: its slot is taken and it is no longer in the list. -/
def Down.outstanding? (d : Down) (i : Fin 8) : Option InternalSlot :=
  if d.internalList.contains i then none else d.internal[i]

/-- DN answers the pattern write of slot `i` (R170). -/
def State.answerWipeWrite (s : State) (i : Fin 8) (okay : Bool) : State :=
  match s.down.outstanding? i with
  | some ⟨.wipeWrite k reg retried, _, _, _⟩ =>
    if !okay && !retried then { s with down := s.down.handAgain i (.wipeWrite k reg true) }
    else
      { s with
        down := s.down.freeInternal i
        wpe := s.wpe.modHead fun e => ((if okay then e else e.addMismatch 8).oneDone).advance }
  | _ => s

/-- The number of returned lines that differ from the expected ones in any bit (R172). -/
def differing (got want : List Line) : Nat := ((got.zip want).filter fun x => x.1 != x.2).length

/-- The verify read of slot `i` returns (R172). -/
def State.returnVerifyRead (s : State) (i : Fin 8) (okay : Bool) (lines : List Line) : State :=
  match s.down.outstanding? i with
  | some ⟨.verifyRead passes reg, _, len, _⟩ =>
    if okay && lines.length != len then s
    else
      { s with
        down := s.down.freeInternal i
        wpe := s.wpe.modHead fun e =>
          ((e.addMismatch (if okay then differing lines (patternLines passes len reg) else 8)).oneDone).advance }
  | _ => s

/-! ## Completion (R173, R54) -/

/-- The values of a free slot (R54); the nonce is kept. -/
def JobSlot.freed (q : JobSlot) : JobSlot :=
  { q with
    state := .free, closePending := false, marked := false, refs := 0, bound := 0, wipes := 0, own := none,
    counters := .zero }

/-- The tally of standby entry changed, while the part is ENTERING in a given phase (R177). -/
def Rci.tally (r : Rci) (ph : StandbyPhase) (f : StandbyTally → StandbyTally) : Rci :=
  match r.standby with
  | .entering m q t n => if q = ph then { r with standby := .entering m q t (f n) } else r
  | .running => r
  | .standby => r

/-- A wipe of job `j` completes: its wipes outstanding fall, and at 0 the slot is FREE and JOB_FREED is handed (R54). -/
def State.jobWiped (s : State) (j : Fin 16) : State :=
  let s := s.modJob j fun q => { q with wipes := q.wipes - 1 }
  if (s.job j).wipes = 0 ∧ (s.job j).state = .wiping then
    let t := (s.modJob j JobSlot.freed).hand (.jobFreed j (s.job j).nonce)
    { t with rci := t.rci.tally .drain fun n => { n with freed := n.freed + 1 } }
  else s

/-- The head entry is done. -/
def Wpe.doneDue (w : Wpe) : Bool := (w.queue.head?).any WipeEntry.isDone

/-- The head entry completes, if it is done (R173). -/
def State.finishWipe (s : State) : State :=
  match s.wpe.queue with
  | [] => s
  | e :: rest =>
    if e.isDone then
      let t := ({ s with wpe := { s.wpe with queue := rest } } : State).hand
        (.wipeDone e.number e.base e.count e.passes e.verify e.origin e.mismatch)
        (match e.origin with
          | .explicit tag => tag
          | .job _ _ => 0)
      match e.origin with
      | .explicit _ => t
      | .job j _ => t.jobWiped j
    else s

end Sys2Proof.Machine
end

