-- ==== Sys2Proof/Machine/Jobs.lean ====
section
/-!
DEFINITION. The Job Context Table (chapter 3): opening, releasing, closing and querying jobs, the marking register and the
Marking Stack, and leaving CLOSING.
-/

namespace Sys2Proof.Machine

/-- A PIN's eight bytes are digits 0 to 9. -/
def pinDigits (pin : Word8) : Bool := (List.range 8).all fun i => (pin.extractLsb' (8 * i) 8).toNat ≤ 9

/-- A number in the list of job kinds. -/
def jobKind? : Nat → Option JobKind
  | 0 => some .copy
  | 1 => some .scan
  | 2 => some .print
  | _ => none

/-! ## Opening (R45, R46) -/

/-- The parameters of a JOB_OPEN that passed step 1 of R45. -/
structure JobOpenOk where
  user : Fin 256
  kind : JobKind
  hold : Bool
  declared : Option (Fin 8)
  passes : Nat
  verify : Bool

/-- Step 1 of R45. -/
def jobOpenOk? (p : JobOpenParams) : Option JobOpenOk :=
  match fin? 256 p.user, jobKind? p.kind, yesNo? p.hold, finOpt? 8 p.declared, yesNo? p.verify with
  | some u, some k, some h, some d, some v =>
    if p.passes ≤ 3 ∧ pinDigits p.pin ∧ (h = true → k = .print) then some ⟨u, k, h, d, p.passes, v⟩ else none
  | _, _, _, _, _ => none

/-- The number of job slots not FREE whose user is this user (R45 step 6). -/
def Jobs.countOf (j : Jobs) (u : Fin 256) : Nat :=
  (j.slots.toList.filter fun q => q.state != .free && q.user == u).length

/-- The lowest-numbered FREE job slot (R46). -/
def Jobs.freeJob? (j : Jobs) : Option (Fin 16) := (List.finRange 16).find? fun i => (j.slots[i]).state == .free

/-- Steps 2 to 4 of R45: the state of the user's record. -/
def userRefusal : UserState → Option ResultCode
  | .unused => some .badUser
  | .locked => some .userLocked
  | .suspect => some .userSuspect
  | .active => none

/-- The new job of R46. -/
def JobOpenOk.slot (k : JobOpenOk) (nonce : BitVec 32) : JobSlot :=
  { state := if k.hold then .held .secure else .opened, kind := k.kind, user := k.user, declared := k.declared
    passes := k.passes, verify := k.verify, closePending := false, marked := false, refs := 0, bound := 0, wipes := 0
    own := none, counters := .zero, nonce := nonce, closeTag := 0 }

/-- Steps 6 and 7 of R45, and the opening of R46 with its key (R31). -/
def State.openSlot (s : State) (k : JobOpenOk) : (ResultCode × ResultValues) × State :=
  if (s.ace.users[k.user]).stored.maxJobs ≤ s.jct.countOf k.user then ((.userBusy, .none), s)
  else
    match s.jct.freeJob? with
    | none => ((.noSlot, .none), s)
    | some j =>
      ((.ok, .jobOpened j (s.jct.openCounter + 1)),
        ({ s with
          jct := { s.jct with
            slots := s.jct.slots.set j (k.slot (s.jct.openCounter + 1)), openCounter := s.jct.openCounter + 1 }
          keys := s.keys.set j (some (Config.randomKey s.draws)) } : State).draw)

/-- JOB_OPEN at JCT (R45 to R47). -/
def State.jobOpen (s : State) (p : JobOpenParams) : (ResultCode × ResultValues) × State :=
  match jobOpenOk? p with
  | none => ((.badParam, .none), s)
  | some k =>
    match userRefusal (s.ace.users[k.user]).stored.state with
    | some code => ((code, .none), s)
    | none =>
      if k.hold then s.openSlot k
      else if s.pinMatches k.user p.pin then (s.pinChecked k.user true).openSlot k
      else ((.badPin, .none), s.pinChecked k.user false)

/-! ## Releasing (R50) -/

/-- Step 5 of R50: the reserve check for one page of job `j`. -/
def State.trialPasses (s : State) (j : Fin 16) : Bool := s.ace.reservePasses (s.job j).user 0 (s.reserveOf j)

/-- JOB_RELEASE at JCT (R50). -/
def State.jobRelease (s : State) (job : Nat) (pin : Word8) : ResultCode × State :=
  match fin? 16 job with
  | none => (.badParam, s)
  | some j =>
    if !pinDigits pin then (.badParam, s)
    else
      match (s.job j).state with
      | .held why =>
        if (s.ace.users[(s.job j).user]).stored.state = .locked then (.userLocked, s)
        else if !s.pinMatches (s.job j).user pin then (.badPin, s.pinChecked (s.job j).user false)
        else
          let t := s.pinChecked (s.job j).user true
          if why = .quota ∧ !t.trialPasses j then (.quota, t)
          else (.ok, t.modJob j fun q => { q with state := .opened })
      | _ => (.jobState, s)

/-! ## Closing (R51) -/

/-- The job is the marking job. -/
def Jobs.isMarking (j : Jobs) (i : Fin 16) : Bool := j.marking.any fun m => m.job == i

/-- The job is on the Marking Stack. -/
def Jobs.isStacked (j : Jobs) (i : Fin 16) : Bool := j.stack.any fun m => m.job == i

/-- A context that stops being current without being pushed becomes its job's own context, if records are left (R57).
The records that are due settle, and an own context without records is discarded, in the same event (`settleDue`). -/
def State.ownContext (s : State) (m : Marked) : State :=
  (s.modJob m.job fun q => { q with own := some m.ctx.forceCloseAll }).releaseAssembly [m.job]

/-- The job goes to CLOSING and its context action is taken (R51, R61, R62). -/
def State.closeJob (s : State) (j : Fin 16) (tag : BitVec 16) : State :=
  let s := s.modJob j fun q => { q with state := .closing, closeTag := tag }
  match s.jct.marking with
  | some m =>
    if m.job = j then ({ s with jct := { s.jct with marking := none } } : State).ownContext m
    else if s.jct.isStacked j then s.modJob j fun q => { q with closePending := true }
    else s
  | none => if s.jct.isStacked j then s.modJob j fun q => { q with closePending := true } else s

/-- JOB_CLOSE at JCT (R51). -/
def State.jobClose (s : State) (job : Nat) (tag : BitVec 16) : ResultCode × State :=
  match fin? 16 job with
  | none => (.badParam, s)
  | some j =>
    if (s.job j).state.bindable then (.ok, s.closeJob j tag) else (.jobState, s)

/-! ## Querying (R55) -/

/-- The position of a job in the Marking Stack, top first, counting from 1. -/
def stackDepth (j : Fin 16) : List Marked → Nat → Option Nat
  | [], _ => none
  | m :: rest, n => if m.job = j then some n else stackDepth j rest (n + 1)

/-- The marking position of a job (R55). -/
def Jobs.position (j : Jobs) (i : Fin 16) : MarkPosition :=
  if j.isMarking i then .marking
  else
    match stackDepth i j.stack 1 with
    | some d => .stacked d
    | none =>
      match (j.slots[i]).own with
      | some c => .ownContext c.queue.length
      | none => .none

/-- JOB_QUERY at JCT (R55). -/
def State.jobQuery (s : State) (job : Nat) : ResultCode × ResultValues :=
  match fin? 16 job with
  | none => (.badParam, .none)
  | some j => (.ok, .jobInfo (s.job j) (s.jct.position j))

/-! ## Marking (R58 to R60) -/

/-- The current context holds at least one record. -/
def Jobs.pageOpen (j : Jobs) : Bool := j.marking.any fun m => !m.ctx.queue.isEmpty

/-- The marking register takes `j` with a fresh context, and its marked field becomes yes (R58). -/
def State.mark (s : State) (j : Fin 16) : State :=
  ({ s with jct := { s.jct with marking := some ⟨j, .fresh⟩ } } : State).modJob j fun q => { q with marked := true }

/-- The job of a selection, if its number passes step 1 of R58 and R59. The kind of a FREE slot is not consulted (R54). -/
def State.selectable? (s : State) (job : Nat) : Option (Fin 16) :=
  match fin? 16 job with
  | none => none
  | some j => if (s.job j).kind = .scan ∧ (s.job j).state ≠ .free then none else some j

/-- The ASSEMBLY holds of the marking job, if any, are released as its context stops being current (R87). -/
def State.releaseMarking (s : State) : State := s.releaseAssembly (s.jct.marking.map Marked.job).toList

/-- MARK_SELECT at JCT (R58). -/
def State.markSelect (s : State) (job : Nat) : ResultCode × State :=
  match s.selectable? job with
  | none => (.badParam, s)
  | some j =>
    if (s.job j).state ≠ .opened ∨ s.jct.isStacked j then (.jobState, s)
    else if s.jct.pageOpen then (.pageOpen, s)
    else (.ok, s.releaseMarking.mark j)

/-- MARK_INTERRUPT at JCT (R59). -/
def State.markInterrupt (s : State) (job : Nat) : (ResultCode × ResultValues) × State :=
  match s.selectable? job with
  | none => ((.badParam, .none), s)
  | some j =>
    if (s.job j).state ≠ .opened ∨ s.jct.isMarking j ∨ s.jct.isStacked j then ((.jobState, .none), s)
    else
      match s.jct.marking with
      | none => ((.ok, .depth s.jct.stack.length), s.mark j)
      | some m =>
        if 4 ≤ s.jct.stack.length then ((.stackFull, .none), s)
        else
          ((.ok, .depth (s.jct.stack.length + 1)),
            ({ s.releaseMarking with jct := { s.jct with stack := m :: s.jct.stack } } : State).mark j)

/-- The pops of MARK_RESUME (R60 steps 2 to 4): close-pending jobs are discarded until one that marks again, or none.
The number counts those discarded. -/
def State.popStack (s : State) : List Marked → Nat → State × Nat
  | [], n => ({ s with jct := { s.jct with marking := none, stack := [] } }, n)
  | m :: rest, n =>
    if (s.job m.job).closePending then (s.ownContext m).popStack rest (n + 1)
    else ({ s with jct := { s.jct with marking := some m, stack := rest } }, n)

/-- MARK_RESUME at JCT (R60). -/
def State.markResume (s : State) : (ResultCode × ResultValues) × State :=
  if s.jct.stack.isEmpty then ((.stackEmpty, .none), s)
  else if s.jct.pageOpen then ((.pageOpen, .none), s)
  else
    let (t, n) := s.releaseMarking.popStack s.jct.stack 0
    ((.ok, .resumed (t.jct.marking.map Marked.job) n), t)

/-! ## Leaving CLOSING (R52, R53) -/

/-- R52: the job in CLOSING may leave. -/
def State.mayLeave (s : State) (j : Fin 16) : Bool :=
  (s.job j).state == .closing && (s.job j).refs == 0 && !s.jct.isMarking j && !s.jct.isStacked j
    && (s.job j).own.isNone && ((s.job j).passes == 0 || min (s.job j).bound 32 ≤ s.wpe.room)

/-- The wipe ranges that a job forms (R53 step 2): none with wipe passes 0. -/
def State.wipeRanges (s : State) (j : Fin 16) : List (Nat × Nat) :=
  if (s.job j).passes = 0 then [] else s.rgt.rangesOf j

/-- The wipe entries of job `j` for these ranges join the queue. -/
def State.appendWipes (s : State) (j : Fin 16) (rs : List (Nat × Nat)) : State :=
  { s with wpe := s.wpe.joinAll rs (s.job j).passes (s.job j).verify (.job j (s.job j).nonce) }

/-- A WIPE_SKIPPED report, if some range was skipped (R169). -/
def State.reportSkipped (s : State) (j : Fin 16) (appended : Nat) (skipped : List (Nat × Nat)) (cause : SkipCause) : State :=
  if skipped.isEmpty then s
  else s.hand (.wipeSkipped j (s.job j).nonce appended skipped.length cause (skipped.take 4))

/-- The job slot as the job leaves CLOSING (R53 steps 4 and 5). -/
def JobSlot.left (q : JobSlot) (appended : Nat) : JobSlot :=
  if appended = 0 then q.freed else { q with state := .wiping, wipes := appended }

/-- Steps 7 and 8 of R53: ACE is told, and TMU takes the close notice of a job that marked. -/
def State.tellEnded (s : State) (user : Fin 256) (marked : Bool) : State :=
  let t : State := { s with ace := s.ace.jobEnded user }
  if marked then t.closeNotice else t

/-- Job `j` leaves CLOSING (R53). -/
def State.leaveClosing (s : State) (j : Fin 16) : State :=
  let q := s.job j
  let rs := s.wipeRanges j
  let app := rs.take (min 32 s.wpe.room)
  let t := s.appendWipes j app
  let t := { t with keys := t.keys.set j none }
  let t := t.setRegions (t.rgt.invalidate fun e => e.names j)
  let t := t.modJob j fun q => q.left app.length
  let t := t.hand (.jobClosed j q.nonce q.user q.counters app.length (rs.length - app.length) (t.job j).state) q.closeTag
  (t.reportSkipped j app.length (rs.drop app.length) .overLimit).tellEnded q.user q.marked

/-- Job `j` leaves CLOSING if it may (R52). -/
def State.leaveIfDue (s : State) (j : Fin 16) : State := if s.mayLeave j then s.leaveClosing j else s

/-- The CLOSING jobs that may leave do so, one at a time, in ascending slot order (R52, log entry 10). -/
def State.leaveAll (s : State) : State := (List.finRange 16).foldl State.leaveIfDue s

end Sys2Proof.Machine
end

