-- ==== Sys2Proof/Machine/Rings.lean ====
section
/-!
DEFINITION. The Ring Interface (chapter 10): the anchor line, the index values, the command fetch, and the posting of
reports and of the report index line.
-/

namespace Sys2Proof.Machine

/-! ## The anchor (R181 to R183) -/

/-- The anchor line that the strap pins choose (R181): bit 0 is AST0, bit 1 is AST1. -/
def anchorLine (straps : BitVec 2) : Addr :=
  match straps.getLsbD 1, straps.getLsbD 0 with
  | false, false => 0x00000F000#36
  | false, true => 0x000100000#36
  | true, false => 0x040000000#36
  | true, true => 0xFFFFFF000#36

/-- A number in the list of roles (section 11.1). -/
def role? : Nat → Option Role
  | 0 => some .proc
  | 1 => some .scanIn
  | 2 => some .image
  | 3 => some .mark
  | 4 => some .net
  | 5 => some .store
  | 6 => some .other
  | _ => none

/-- The values of a good anchor record (R182). -/
structure Anchor where
  roles : Vector Role 16
  cmdBase : Addr
  cmdSlots : Nat
  repBase : Addr
  repSlots : Nat
  miss : MissPolicy
  mode : CaptureMode
  deriving DecidableEq, Repr

/-- A slot count of the list of R182. -/
def slotCountOk (n : Nat) : Bool := [16, 32, 64, 128, 256, 512, 1024].contains n

/-- The role number of source `n` in an anchor line: bits 4n to 4n + 3 of the eight bytes at offset 8. -/
def roleNumber (l : Line) (n : Nat) : Nat := (l.extractLsb' (64 + 4 * n) 4).toNat

/-- The sixteen words of the line sum to 0 modulo 2^32 (R182 condition 2). -/
def anchorSumOk (l : Line) : Bool := ((List.range 16).map fun k => Line.field l (4 * k) 4).sum % 2 ^ 32 == 0

/-- A ring base is a multiple of 64 and its window ends at or below $F_FFFF_FFFF (R182 condition 4). -/
def ringBaseOk (base slots : Nat) : Bool := base % 64 == 0 && base + 64 * (slots + 1) ≤ 2 ^ 36

/-- The window of a ring (R7). -/
def ringWindow (base slots : Nat) : Window := ⟨base / 64, slots⟩

/-- The lines from number `first`, `n` of them, touch the window. -/
def Window.hasLine (w : Window) (first n : Nat) : Bool := rangesOverlap first n w.baseLine (w.slots + 1)

/-- The lines from number `first`, `n` of them, lie in the window. -/
def Window.holdsLines (w : Window) (first n : Nat) : Bool :=
  w.baseLine ≤ first && first + n ≤ w.baseLine + (w.slots + 1)

/-- Conditions 4 to 6 of R182 on the two rings. -/
def ringsOk (cb cs rb rs : Nat) (anchor : Addr) : Bool :=
  ringBaseOk cb cs && ringBaseOk rb rs
    && !rangesOverlap (cb / 64) (cs + 1) (rb / 64) (rs + 1)
    && !(ringWindow cb cs).hasLine (lineOf anchor) 1 && !(ringWindow rb rs).hasLine (lineOf anchor) 1

/-- The miss policy of an anchor line. -/
def missPolicy? : Nat → Option MissPolicy
  | 0 => some .openAll
  | 1 => some .strict
  | _ => none

/-- The capture mode of an anchor line. -/
def captureMode? : Nat → Option CaptureMode
  | 0 => some .any
  | 1 => some .writes
  | _ => none

/-- The anchor record of a line, if the line is good (R182, section 11.1). -/
def anchor? (l : Line) (anchor : Addr) : Option Anchor :=
  let cb := Line.field l 16 8
  let cs := Line.field l 24 2
  let rs := Line.field l 26 2
  let rb := Line.field l 28 8
  match missPolicy? (Line.field l 36 1), captureMode? (Line.field l 37 1) with
  | some miss, some mode =>
    if Line.field l 0 4 = 0x73406E4B ∧ Line.field l 4 4 = 1 ∧ anchorSumOk l
        ∧ (List.range 16).all (fun n => (role? (roleNumber l n)).isSome)
        ∧ slotCountOk cs ∧ slotCountOk rs ∧ ringsOk cb cs rb rs anchor then
      some ⟨Vector.ofFn fun n => (role? (roleNumber l n.val)).getD .other, BitVec.ofNat 36 cb, cs, BitVec.ofNat 36 rb,
        rs, miss, mode⟩
    else none
  | _, _ => none

/-- The anchoring event's part at RCI and ACE (R183, R132): the state is ANCHORED, and a fault list that is not empty is
handed as ACCOUNT_FAULT, which joins or waits (R189). The index write is due because none has been answered. -/
def State.anchoring (s : State) : State :=
  { s with rci := { s.rci with
      startup := .anchored
      faultAt := s.rci.faultAt.orElse fun _ => if s.ace.faults.nonempty then some s.ms else none } }

/-- A good line is taken as the anchor (R183). -/
def State.takeAnchor (s : State) (a : Anchor) : State :=
  let t : State := { s with
    path := { s.path with
      roles := some a.roles, cmdWindow := some (ringWindow a.cmdBase.toNat a.cmdSlots)
      repWindow := some (ringWindow a.repBase.toNat a.repSlots), missPolicy := some a.miss, captureMode := a.mode }
    rci := { s.rci with
      rings := some ⟨a.cmdBase, a.cmdSlots, a.repBase, a.repSlots, 0, 0, 0, 0⟩, indexWritten := none } }
  if s.rci.startup = .awaitAnchor then t.anchoring else t

/-- The written line of a transaction at line number `n`, if it includes that line. -/
def writtenLine? (addr : Addr) (lines : List WriteLine) (n : Nat) : Option WriteLine :=
  if lineOf addr ≤ n then lines[n - lineOf addr]? else none

/-- A completed write is offered as an anchor (R181): no anchor is held, and it includes the anchor line with a full mask;
a good line is taken (R182). -/
def State.offerAnchor (s : State) (addr : Addr) (lines : List WriteLine) : State :=
  match s.rci.rings, writtenLine? addr lines (lineOf (anchorLine s.rci.straps)) with
  | none, some l =>
    if l.mask = fullMask then
      match anchor? l.data (anchorLine s.rci.straps) with
      | some a => s.takeAnchor a
      | none => s
    else s
  | _, _ => s

/-! ## Index values (R185) -/

/-- A field of two bytes at offset `off` of the index line is offered: both its bytes are enabled. -/
def offered? (l : WriteLine) (off : Nat) : Option (BitVec 16) :=
  if l.mask.getLsbD off && l.mask.getLsbD (off + 1) then some (Line.field16 l.data off) else none

/-- An offered command tail is valid (R185). -/
def Rings.tailOk (r : Rings) (hand : Bool) (t : BitVec 16) : Bool :=
  (t - r.cmdHead).toNat ≤ r.cmdSlots && (!hand || 1 ≤ (t - r.cmdHead).toNat)

/-- An offered report head is valid (R185). -/
def Rings.headOk (r : Rings) (h : BitVec 16) : Bool := (r.repTail - h).toNat ≤ r.repSlots

/-- The fields that an index line write offers and R185 refuses. -/
def Rings.refusedIndices (r : Rings) (hand : Bool) (l : WriteLine) : List RefusedIndex :=
  (((offered? l 0).filter fun t => !r.tailOk hand t).map fun t => ⟨false, t, r.cmdTail⟩).toList
    ++ (((offered? l 2).filter fun h => !r.headOk h).map fun h => ⟨true, h, r.repHead⟩).toList

/-- The indices after an index line write (R185): each valid offered field is taken. -/
def Rings.taken (r : Rings) (hand : Bool) (l : WriteLine) : Rings :=
  { r with
    cmdTail := ((offered? l 0).filter (r.tailOk hand)).getD r.cmdTail
    repHead := ((offered? l 2).filter r.headOk).getD r.repHead }

/-- RCI takes the data of an answered index line write (R185), only while ANCHORED. -/
def State.takeIndex (s : State) (l : WriteLine) : State :=
  match s.rci.startup, s.rci.rings with
  | .anchored, some r =>
    let t : State := { s with rci := { s.rci with rings := some (r.taken s.rci.hand l) } }
    if (r.refusedIndices s.rci.hand l).isEmpty then t
    else t.hand (.ringFault (.index (r.refusedIndices s.rci.hand l)))
  | _, _ => s

/-! ## Fetch (R186) -/

/-- The address of slot `i` of a ring (section 10.3). -/
def slotAddr (base : Addr) (i : Nat) : Addr := base + BitVec.ofNat 36 (64 * (1 + i))

/-- The slot that the command head names. -/
def Rings.cmdSlot (r : Rings) : Nat := r.cmdHead.toNat % r.cmdSlots

/-- A fetch may start (R186, R189), a free internal slot apart. -/
def State.fetchReady (s : State) : Bool :=
  s.rci.startup == .anchored && !s.rci.faultWaiting && s.rci.standby == .running && !s.rci.hand
    && (s.rci.rings.any fun r => r.cmdTail != r.cmdHead) && s.rci.queue.length ≤ 14

/-- A fetch starts, if it may (R186): the command is in hand, and one report entry is held for its result (R188). -/
def State.startFetch (s : State) : State :=
  match s.rci.rings, freeSlot? s.down.internal with
  | some r, some i =>
    if s.fetchReady then
      { s with
        down := s.down.handInternal i ⟨.fetch false, slotAddr r.cmdBase r.cmdSlot, 1, false⟩
        rci := { s.rci with hand := true, held := true } }
    else s
  | _, _ => s

/-- The command in hand is finished with (R187): the command head rises by one. -/
def Rci.commandDone (r : Rci) : Rci :=
  { r with hand := false, rings := r.rings.map fun g => { g with cmdHead := g.cmdHead + 1 } }

/-- A report that takes the entry held for a result (R188). -/
def State.handHeld (s : State) (b : ReportBody) (tag : BitVec 16) : State :=
  { s with handed := s.handed ++ [⟨b, tag, true⟩] }

/-- The slot that the command head names, 0 when there is no ring. -/
def Rci.cmdSlot (r : Rci) : Nat :=
  match r.rings with
  | some g => g.cmdSlot
  | none => 0

/-- The fetch read fails twice: the command is skipped (R186). -/
def State.skipCommand (s : State) : State :=
  ({ s with rci := s.rci.commandDone } : State).handHeld (.ringFault (.fetch s.rci.cmdSlot)) 0

/-! ## Posting (R190) -/

/-- Posting goes on in this state (R190): ANCHORED, and not in STANDBY. -/
def Rci.mayPost (r : Rci) : Bool := r.startup == .anchored && r.standby != .standby

/-- The next slot write of the report at the queue's head: the posting as it stands, if the report is being posted and has
writes left, or fits the free report slots. -/
def Rci.nextPosting (r : Rci) (g : Rings) (rep : Report) : Option Posting :=
  match r.posting with
  | some p => if p.handed < rep.body.slots then some p else none
  | none => if rep.body.slots ≤ g.freeReportSlots then some ⟨0, 0⟩ else none

/-- RCI hands the next slot write of the head report (R190 step 1). -/
def State.issueReportWrite (s : State) : State :=
  match s.rci.rings, s.rci.queue, freeSlot? s.down.internal with
  | some g, rep :: _, some i =>
    if s.rci.mayPost then
      match s.rci.nextPosting g rep with
      | some p =>
        let slot := (g.repTail.toNat + p.handed) % g.repSlots
        { s with
          down := s.down.handInternal i ⟨.reportSlot slot (rep.line p.handed) false, slotAddr g.repBase slot, 1, false⟩
          rci := { s.rci with posting := some ⟨p.handed + 1, p.done⟩ } }
      | none => s
    else s
  | _, _, _ => s

/-- One slot write of the head report is done (R190 step 3): when all are, the report leaves the queue and the report tail
rises by its slot count. -/
def Rci.slotDone (r : Rci) : Rci :=
  match r.posting, r.queue with
  | some p, rep :: rest =>
    if rep.body.slots ≤ p.done + 1 then
      { r with
        posting := none, queue := rest
        rings := r.rings.map fun g => { g with repTail := g.repTail + BitVec.ofNat 16 rep.body.slots } }
    else { r with posting := some ⟨p.handed, p.done + 1⟩ }
  | _, _ => r

/-- DN answers the report slot write of slot `i` (R190 step 2); a completion that LRST voided is discarded (R28). -/
def State.answerReportWrite (s : State) (i : Fin 8) (okay : Bool) : State :=
  match s.down.outstanding? i with
  | some ⟨.reportSlot slot data retried, _, _, discard⟩ =>
    if discard then { s with down := s.down.freeInternal i }
    else if okay then { s with down := s.down.freeInternal i, rci := s.rci.slotDone }
    else if retried then
      ({ s with down := s.down.freeInternal i, rci := s.rci.slotDone } : State).hand (.ringFault (.post slot))
    else { s with down := s.down.handAgain i (.reportSlot slot data true) }
  | _ => s

/-! ## The report index line (R190) -/

/-- The internal slot carries an index write that is still counted. -/
def InternalSlot.isIndexWrite (x : InternalSlot) : Bool :=
  match x.purpose with
  | .indexWrite _ _ => !x.discard
  | _ => false

/-- An index write is outstanding. -/
def Down.indexBusy (d : Down) : Bool := d.internal.toList.any fun x => x.any InternalSlot.isIndexWrite

/-- The report index line write is due (R190): the command head or the report tail differs from the values of the last
such write answered OKAY. -/
def Rci.indexDue (r : Rci) (g : Rings) : Bool := r.indexWritten != some (g.cmdHead, g.repTail)

/-- RCI hands the report index line write, if it is due and none is outstanding (R190). The rule sets no condition on the standby
state, and STANDBY bars fetching and posting alone (R191): a write that POST leaves due goes out in STANDBY (log entry 34). -/
def State.issueIndexWrite (s : State) : State :=
  match s.rci.rings, freeSlot? s.down.internal with
  | some g, some i =>
    if s.rci.startup == .anchored && s.rci.indexDue g && !s.down.indexBusy then
      { s with down := s.down.handInternal i ⟨.indexWrite g.cmdHead g.repTail, g.repBase, 1, false⟩ }
    else s
  | _, _ => s

/-- DN answers the index write of slot `i` (R190): OKAY records its values, ERROR leaves it due. -/
def State.answerIndexWrite (s : State) (i : Fin 8) (okay : Bool) : State :=
  match s.down.outstanding? i with
  | some ⟨.indexWrite h t, _, _, discard⟩ =>
    if okay && !discard then
      { s with down := s.down.freeInternal i, rci := { s.rci with indexWritten := some (h, t) } }
    else { s with down := s.down.freeInternal i }
  | _ => s

end Sys2Proof.Machine
end

