-- ==== Sys2Proof/Machine/Path.lean ====
section
/-!
DEFINITION. The memory path (chapters 1, 2 and 4): the order of checks, denials and the Violation Capture, acceptance with
the line cipher, the Hold Queue, returns and answers, and the downstream arbiter.
-/

namespace Sys2Proof

open Sys2Proof.Machine

/-! ## Transactions (R1, R7, R36) -/

/-- A well-formed transaction (R1). -/
def Txn.wellFormed (t : Txn) : Bool :=
  t.addr.toNat % 64 == 0 && 1 ≤ t.len && t.len ≤ 8 && t.addr.toNat % 4096 + 64 * t.len ≤ 4096

/-- The page of a transaction (R1). -/
def Txn.page (t : Txn) : Page := pageOf t.addr

/-- Some line of a transaction lies in a window. -/
def Txn.touches (t : Txn) (w : Option Window) : Bool := w.any fun w => w.hasLine (lineOf t.addr) t.len

/-- Every line of a transaction lies in a window. -/
def Txn.within (t : Txn) (w : Option Window) : Bool := w.any fun w => w.holdsLines (lineOf t.addr) t.len

/-- The addresses of a transaction's lines. -/
def Txn.lineAddrs (t : Txn) : List Addr := (List.range t.len).map (lineAddr t.addr)

/-- Step 9w (R36): the write has a full byte mask on every line. -/
def Txn.wholeLines (t : Txn) : Bool := t.writeLines.all fun l => l.mask == fullMask

end Sys2Proof

namespace Sys2Proof.Machine

/-! ## Form, wipe shadow and ring windows (R1, R6, R7) -/

/-- A page lies under the wipe shadow (R6). -/
def Wpe.shadows (w : Wpe) (p : Page) : Bool := w.queue.any fun e => inRangeOf p e.base e.count

/-- The role of a source (R4). -/
def Path.role? (p : Path) (src : Fin 16) : Option Role := p.roles.map fun r => r[src]

/-- A transaction is a ring access (R7). -/
def Path.isRingAccess (p : Path) (t : Txn) : Bool := t.touches p.cmdWindow || t.touches p.repWindow

/-- A ring access is permitted (R7): PROC, wholly in the command window, or a read wholly in the report window, with no
line in the other window. -/
def Path.ringPermitted (p : Path) (t : Txn) : Bool :=
  p.role? t.source == some .proc
    && ((t.within p.cmdWindow && !t.touches p.repWindow)
        || (t.within p.repWindow && !t.touches p.cmdWindow && t.dir == .read))

/-- A transaction includes the command window's index line (R24). -/
def Path.hasIndexLine (p : Path) (t : Txn) : Bool :=
  p.cmdWindow.any fun w => lineOf t.addr ≤ w.baseLine && w.baseLine < lineOf t.addr + t.len

/-! ## Commit hold and matching (R14, R10) -/

/-- The pending commit holds a page (R14): it lies in the live or shadow range of an entry of C. -/
def Regions.commitHolds (g : Regions) (p : Page) : Bool :=
  match g.commit with
  | none => false
  | some c => c.changed.any fun i => (g.live[i]).any (·.covers p) || (g.shadow[i]).any (·.covers p)

/-- The lowest-numbered valid live entry that covers a page (R10). -/
def Regions.matched? (g : Regions) (p : Page) : Option (Fin 32) :=
  (List.finRange 32).find? fun i => (g.live[i]).any (·.covers p)

/-! ## Verdicts -/

/-- A denial: reason, behaviour, and the entry or pseudo-index of the capture (section 1.7). -/
structure Denial where
  reason : Reason
  behaviour : Behaviour
  entry : CapEntry
  deriving DecidableEq, Repr

/-- What an accepted transaction's tracker slot takes from the examination; `trial` is that of a metered read, with its
plane, dot depth and the reserve of each record it opened. -/
structure Accept where
  entry : Option (Fin 32)
  job : Option (Fin 16)
  view : View
  indexLine : Bool
  trial : Option (Trial × Fin 4 × Nat × Nat)
  deriving DecidableEq, Repr

/-- The outcome of an examination. -/
inductive Verdict where
  | accept (a : Accept)
  | deny (d : Denial)
  | holdCommit
  | holdAssembly (job : Fin 16)
  | quota (entry : Fin 32) (job : Fin 16)
  deriving DecidableEq, Repr

/-- Acceptance as PLAIN, with no entry and no job. -/
def Accept.plain : Accept := ⟨none, none, .none, false, none⟩

/-- A denial with behaviour ERROR. -/
def denyError (r : Reason) (e : CapEntry) : Verdict := .deny ⟨r, .error, e⟩

/-- A denial with the behaviour of the matched entry. -/
def denyAs (r : Reason) (e : RegionEntry) (i : Fin 32) : Verdict := .deny ⟨r, e.behaviour, .entry i⟩

/-! ## The marking gate (section 4.3) -/

/-- What a trial of a read of raster `r` of entry `e`, job `j`, is run against. -/
def State.trialEnv (s : State) (e : RegionEntry) (r : Raster) (j : Fin 16) : TrialEnv :=
  { base := e.base, raster := r, job := j, nonce := (s.job j).nonce, user := (s.job j).user
    planes := Vector.ofFn fun p => ((s.rgt.rastersOf j).find? fun q => q.plane == p).map Raster.geom
    genuine := (s.bay r.plane).state == .genuine
    reserve := s.reserveOf j }

/-- The distinct numbers of a list. -/
def distinctNats (ns : List Nat) : List Nat := ns.foldl (fun acc n => if acc.contains n then acc else acc ++ [n]) []

/-- Gate step 2 (R69): every line lies in a whole frame, and the lines span at most two frames. -/
def geometryOk (env : TrialEnv) (count : Nat) (addrs : List Addr) : Bool :=
  (addrs.all fun a => (env.place a).1 < env.raster.geom.frames count)
    && (distinctNats (addrs.map fun a => (env.place a).1)).length ≤ 2

/-- Gate step 3 (R144): bay `p` may mark under its policy. -/
def State.mayMark (s : State) (p : Fin 4) : Bool :=
  (s.bay p).state == .genuine || ((s.bay p).state == .unproven && (s.conf p).policy == .allowUnproven)

/-- A trial that has seen no line. -/
def Trial.start (c : Context) (m : Rmu) : Trial := ⟨c, m, 0, [], []⟩

/-- Gate step 5 (R71): the trial of the read's lines on a copy of the current context. -/
def State.runTrial (s : State) (env : TrialEnv) (c : Context) (addrs : List Addr) : Except TrialStop Trial :=
  Trial.run env (fun more => s.ace.reservePasses env.user more env.reserve) addrs (.start c s.rmu)

/-- The marking gate (R69 to R71) for a read of raster `r` of entry `i`, whose job is `j`. -/
def State.gate (s : State) (t : Txn) (i : Fin 32) (e : RegionEntry) (r : Raster) (j : Fin 16) (v : View) : Verdict :=
  match s.jct.marking with
  | none => denyError .notMarking (.entry i)
  | some m =>
    let env := s.trialEnv e r j
    if m.job ≠ j then denyError .notMarking (.entry i)
    else if !geometryOk env e.count t.lineAddrs then denyError .geometry (.entry i)
    else if !s.mayMark r.plane then denyError .cartridge (.entry i)
    else if s.graceExhausted r.plane then denyError .tonerOut (.entry i)
    else
      match s.runTrial env m.ctx t.lineAddrs with
      | .ok tr => .accept ⟨some i, some j, v, false, some (tr, r.plane, r.geom.depth, env.reserve)⟩
      | .error .held => .holdAssembly j
      | .error .quota => .quota i j

/-! ## The order of checks (R5) -/

/-- The view of a transaction of source `src` on entry `e` (R33). -/
def RegionEntry.view (e : RegionEntry) (src : Fin 16) : View :=
  if !e.priv then .none else if sourceBit e.rawMask src then .raw else .plain

/-- Step 7 (R11). -/
def RegionEntry.permits (e : RegionEntry) (d : Dir) (src : Fin 16) : Bool :=
  match d with
  | .read => sourceBit e.readMask src
  | .write => sourceBit e.writeMask src

/-- Step 8 (R48): the job's state lets the transaction pass; `marks` says that it is a MARK read of a RASTER entry. A FREE
or WIPING job, which no valid entry names (section 3.1), lets nothing pass. -/
def JobState.letsPass (st : JobState) (marks : Bool) : Bool :=
  match st with
  | .opened => true
  | .held _ => !marks
  | .closing => false
  | .wiping => false
  | .free => false

/-- Steps 8 and 9 for a permitted transaction on a job-bound entry. -/
def State.examineJob (s : State) (t : Txn) (i : Fin 32) (e : RegionEntry) (j : Fin 16) : Verdict :=
  let marks := t.dir == .read && e.raster.isSome && s.path.role? t.source == some .mark
  if !(s.job j).state.letsPass marks then denyAs .jobState e i
  else if t.dir == .write && e.priv && !t.wholeLines then denyAs .partialPrivate e i
  else
    match e.raster with
    | some r =>
      if marks then s.gate t i e r j (e.view t.source) else .accept ⟨some i, some j, e.view t.source, false, none⟩
    | none => .accept ⟨some i, some j, e.view t.source, false, none⟩

/-- Steps 7 to 9 for a transaction matched to entry `i`. -/
def State.examineEntry (s : State) (t : Txn) (i : Fin 32) (e : RegionEntry) : Verdict :=
  if !e.permits t.dir t.source then denyAs .notPermitted e i
  else
    match e.job with
    | none => .accept ⟨some i, none, .none, false, none⟩
    | some j => s.examineJob t i e j

/-- Step 6 (R10). -/
def State.examineMiss (s : State) : Verdict :=
  if s.path.missPolicy = some .strict then denyError .noRegion .miss else .accept .plain

/-- Steps 5 to 9. -/
def State.examineMatch (s : State) (t : Txn) : Verdict :=
  if s.rgt.commitHolds t.page then .holdCommit
  else
    match s.rgt.matched? t.page with
    | none => s.examineMiss
    | some i =>
      match s.rgt.live[i] with
      | some e => s.examineEntry t i e
      | none => s.examineMiss

/-- Steps 2 to 9 while ANCHORED; steps 3 alone otherwise (R5). -/
def State.examineFrom2 (s : State) (t : Txn) : Verdict :=
  if s.rci.startup = .anchored ∧ s.path.closed then denyError .closed .miss
  else if s.wpe.shadows t.page then denyError .wiping .wipe
  else if s.rci.startup ≠ .anchored then .accept .plain
  else if s.path.isRingAccess t then
    if s.path.ringPermitted t then .accept { Accept.plain with indexLine := t.dir == .write && s.path.hasIndexLine t }
    else denyError .ring .ring
  else s.examineMatch t

/-- The order of checks for a transaction taken from the port (R5). -/
def State.examine (s : State) (t : Txn) : Verdict :=
  if !t.wellFormed then denyError .malformed .malformed else s.examineFrom2 t

/-! ## Denial (R19, R20) -/

/-- A denial is admitted to the capture (R20). -/
def Path.admits (p : Path) (d : Denial) (dir : Dir) : Bool :=
  d.reason != .closed && (p.captureMode == .any || dir == .write)

/-- The capture record of a denial. -/
def Denial.record (d : Denial) (t : Txn) : CaptureRec := ⟨t.source, t.dir, t.addr, d.entry, d.reason⟩

/-- The response to a denied transaction (R19). -/
def Denial.answer (d : Denial) (t : Txn) : Output :=
  .response t.id t.dir (d.behaviour != .error)
    (match t.dir with
      | .read => List.replicate t.len onesLine
      | .write => [])

/-- The Violation Capture after an admitted denial (R20 steps 1 and 2). -/
def Path.capture1 (p : Path) (r : CaptureRec) : Path :=
  { p with capture := some (p.capture.getD r), captureCount := min 65535 (p.captureCount + 1) }

/-- PFE denies a transaction (R19, R20). -/
def State.deny (s : State) (t : Txn) (d : Denial) : State :=
  let s := s.give (d.answer t)
  if s.path.admits d t.dir then
    let u : State := { s with path := s.path.capture1 (d.record t) }
    if s.path.capture.isNone then u.hand (.violation true (d.record t))
    else if d.behaviour = .trap then u.hand (.violation false (d.record t))
    else u
  else if d.behaviour = .trap then s.hand (.violation false (d.record t))
  else s

/-! ## Acceptance (R9, R22, R24, R35) -/

/-- The in-flight count of an entry rises (R9). -/
def Regions.raise (g : Regions) (i : Option (Fin 32)) : Regions :=
  match i with
  | none => g
  | some i => { g with inFlight := upd g.inFlight i (· + 1) }

/-- The in-flight count of an entry falls (R9). -/
def Regions.lower (g : Regions) (i : Option (Fin 32)) : Regions :=
  match i with
  | none => g
  | some i => { g with inFlight := upd g.inFlight i (· - 1) }

/-- The reference count of a job rises (R25). -/
def State.addRef (s : State) (j : Option (Fin 16)) : State :=
  match j with
  | none => s
  | some j => s.modJob j fun q => { q with refs := q.refs + 1 }

/-- The reference count of a job falls (R25). -/
def State.dropRef (s : State) (j : Option (Fin 16)) : State :=
  match j with
  | none => s
  | some j => s.modJob j fun q => { q with refs := q.refs - 1 }

/-- The key that a view uses: that of the slot's job. -/
def State.keyOf (s : State) (j : Option (Fin 16)) : Option Key := j.bind fun j => s.keys[j]

/-- The line enciphered at its address (R32); without a key, which R30 rules out, the line as it is. -/
def encipher (k : Option Key) (a : Addr) (x : Line) : Line :=
  match k with
  | some k => Config.lineCipher k a x
  | none => x

/-- The line deciphered at its address (R32). -/
def decipher (k : Option Key) (a : Addr) (y : Line) : Line :=
  match k with
  | some k => (Config.lineCipher k a).symm y
  | none => y

/-- The data forwarded on DN for a write (R35). -/
def forwardedLines (v : View) (k : Option Key) (a : Addr) (ls : List WriteLine) : List WriteLine :=
  match v with
  | .none => ls
  | .raw => ls.map fun l => ⟨l.data, fullMask⟩
  | .plain => ls.mapIdx fun n l => ⟨encipher k (lineAddr a n) l.data, fullMask⟩

/-- The trial becomes the current context, its reserves are taken (R71, R98), and the records it settled are handed on
(R84). -/
def State.takeTrial (s : State) (j : Fin 16) (tr : Trial) (reserve : Nat) : State :=
  let t : State := { s with
    jct := { s.jct with marking := s.jct.marking.map fun m => { m with ctx := tr.ctx } }
    rmu := tr.rmu
    ace := s.ace.modReserved (s.job j).user (· + tr.openedNow * reserve) }
  if tr.settled.isEmpty then t
  else (sortRecords tr.settled).foldl (State.settle true) (t.releaseAssembly [j])

/-- The effects of an acceptance beside its tracker slot. -/
def State.acceptEffects (s : State) (a : Accept) : State :=
  let t := ({ s with rgt := s.rgt.raise a.entry } : State).addRef a.job
  match a.trial, a.job with
  | some (tr, _, _, reserve), some j => t.takeTrial j tr reserve
  | _, _ => t

/-- The Read Tracker slot of an accepted read (R22, R67). -/
def Accept.readSlot (a : Accept) (t : Txn) : ReadSlot :=
  { id := t.id, source := t.source, addr := t.addr, len := t.len, entry := a.entry, job := a.job, view := a.view
    marks := match a.trial with
      | some (tr, _) => tr.marks
      | none => List.replicate t.len .none
    meter := a.trial.map fun x => (x.2.1, x.2.2.1) }

/-- The Write Tracker slot of an accepted write (R24), with the forwarded form of its data. -/
def Accept.writeSlot (a : Accept) (t : Txn) (k : Option Key) : WriteSlot :=
  { id := t.id, source := t.source, addr := t.addr, lines := forwardedLines a.view k t.addr t.writeLines
    entry := a.entry, job := a.job, view := a.view, indexLine := a.indexLine }

/-- A read takes Read Tracker slot `i` and is forwarded. -/
def State.placeRead (s : State) (i : Fin 32) (r : ReadSlot) : State :=
  { s with
    path := { s.path with reads := s.path.reads.set i (some r) }
    down := { s.down with forwarded := s.down.forwarded ++ [.read i] } }

/-- A write takes Write Tracker slot `i` and is forwarded. -/
def State.placeWrite (s : State) (i : Fin 32) (w : WriteSlot) : State :=
  { s with
    path := { s.path with writes := s.path.writes.set i (some w) }
    down := { s.down with forwarded := s.down.forwarded ++ [.write i] } }

/-- PFE accepts a transaction: its slot is the lowest-numbered free one (log entry 9). -/
def State.accept (s : State) (t : Txn) (a : Accept) : State :=
  match t.dir with
  | .read =>
    match freeSlot? s.path.reads with
    | some i => (s.placeRead i (a.readSlot t)).acceptEffects a
    | none => s
  | .write =>
    match freeSlot? s.path.writes with
    | some i => (s.placeWrite i (a.writeSlot t (s.keyOf a.job))).acceptEffects a
    | none => s

/-! ## Holds (R17, R18, R49, R77) -/

/-- The one force-close of R77, in the real context. -/
def Jobs.makeRoom (j : Jobs) : Jobs := { j with marking := j.marking.map fun m => { m with ctx := m.ctx.makeRoom } }

/-- QUOTA (R49): the read is denied, the job is HELD, and JOB_HELD is handed. -/
def State.quotaDenied (s : State) (t : Txn) (i : Fin 32) (j : Fin 16) : State :=
  ((s.deny t ⟨.quota, .error, .entry i⟩).modJob j fun q => { q with state := .held .quota }).hand
    (.jobHeld j (s.job j).nonce (s.job j).user .quota)

/-- The verdict on a transaction takes effect; a held transaction's cause is answered, for its Hold Queue entry. -/
def State.resolve (s : State) (t : Txn) : Verdict → State × Option HoldCause
  | .accept a => (s.accept t a, none)
  | .deny d => (s.deny t d, none)
  | .holdCommit => (s, some .commit)
  | .holdAssembly j => ({ s with jct := s.jct.makeRoom }, some (.assembly j))
  | .quota i j => (s.quotaDenied t i j, none)

/-- The tracker of a direction has a free slot (R3). -/
def Path.trackerFree (p : Path) : Dir → Bool
  | .read => (freeSlot? p.reads).isSome
  | .write => (freeSlot? p.writes).isSome

/-! ## Taking from the port (R3, R5) -/

/-- The list of a request channel. -/
def Path.port (p : Path) : Dir → List Txn
  | .read => p.portReads
  | .write => p.portWrites

/-- A request channel with its list replaced. -/
def Path.setPort (p : Path) (d : Dir) (ts : List Txn) : Path :=
  match d with
  | .read => { p with portReads := ts }
  | .write => { p with portWrites := ts }

/-- A transaction is presented on the channel of its direction and waits behind those before it. -/
def State.present (s : State) (t : Option Txn) : State :=
  match t with
  | none => s
  | some t => { s with path := s.path.setPort t.dir (s.path.port t.dir ++ [t]) }

/-- The Hold Queue holds a released transaction. -/
def Path.hasReleased (p : Path) : Bool := p.hold.any (·.released)

/-- PFE may take the head of a channel (R3): no released transaction waits, the Hold Queue has a free entry, and the
tracker of the direction a free slot. -/
def Path.mayTake (p : Path) (d : Dir) : Bool := !p.hasReleased && p.hold.length < 8 && p.trackerFree d

/-- A taken transaction that is held joins the Hold Queue's tail, unreleased (R17). -/
def State.joinHold (s : State) (t : Txn) : Option HoldCause → State
  | none => s
  | some c => { s with path := { s.path with hold := s.path.hold ++ [⟨t, c, false⟩] } }

/-- PFE takes the head of a channel, if it may, and examines it (R3, R5). -/
def State.takePort (s : State) (d : Dir) : State :=
  match s.path.port d with
  | [] => s
  | t :: rest =>
    if s.path.mayTake d then
      let u : State := { s with path := s.path.setPort d rest }
      (u.resolve t (u.examine t)).1.joinHold t (u.resolve t (u.examine t)).2
    else s

/-- The oldest released entry of the Hold Queue, between the entries before it and those behind it (R18). -/
def splitReleased : List HoldEntry → Option (List HoldEntry × HoldEntry × List HoldEntry)
  | [] => none
  | h :: rest => if h.released then some ([], h, rest) else (splitReleased rest).map fun x => (h :: x.1, x.2)

/-- A released transaction that is held again keeps its place, with the new cause and the released mark cleared (R18). -/
def State.putHold (s : State) (n : Nat) (t : Txn) : Option HoldCause → State
  | none => s
  | some c => { s with path := { s.path with hold := s.path.hold.take n ++ ⟨t, c, false⟩ :: s.path.hold.drop n } }

/-- PFE takes the oldest released transaction, if the tracker of its direction has a free slot, and examines it anew from
step 2 (R3, R18). -/
def State.takeReleased (s : State) : State :=
  match splitReleased s.path.hold with
  | none => s
  | some (before, h, behind) =>
    if s.path.trackerFree h.txn.dir then
      let u : State := { s with path := { s.path with hold := before ++ behind } }
      let r := u.resolve h.txn (u.examineFrom2 h.txn)
      r.1.putHold before.length h.txn r.2
    else s

/-! ## Returns and answers (R23, R24, R34, R81, R82) -/

/-- The lines of a returned read in the form that goes upstream (R34). -/
def upstreamLines (v : View) (k : Option Key) (a : Addr) (ls : List Line) : List Line :=
  match v with
  | .none => ls
  | .raw => ls
  | .plain => ls.mapIdx fun n l => decipher k (lineAddr a n) l

/-- The job's toner dots for a plane rise (R81). -/
def State.addDots (s : State) (j : Fin 16) (p : Fin 4) (d : Nat) : State :=
  s.modJob j fun q => { q with counters := { q.counters with dots := upd q.counters.dots p fun n => sat48 (n + d) } }

/-- The marks of a returned read settle with these dot sums (R81, R82). -/
def State.settleMarks (s : State) (marks : List LineMark) (sums : List Nat) : State :=
  { s with jct := (marks.zip sums).foldl (fun j m => j.returnMark m.1 m.2) s.jct }

/-- RMU's part in a return OKAY of a metered read (R81): the marks settle, and the sum goes to the job and to TMU. -/
def State.meterReturn (s : State) (r : ReadSlot) (lines : List Line) : State :=
  match r.meter, r.job with
  | some (p, depth), some j =>
    let sums := markSums depth r.marks lines
    ((s.settleMarks r.marks sums).addDots j p sums.sum).accrue p sums.sum
  | _, _ => s

/-- RMU's part in a return ERROR (R82). -/
def State.meterLost (s : State) (r : ReadSlot) : State := s.settleMarks r.marks (List.replicate r.marks.length 0)

/-- A forwarded transaction's slot is freed (R9, R25) and its credit returns (R26). -/
def State.releaseSlot (s : State) (entry : Option (Fin 32)) (job : Option (Fin 16)) : State :=
  ({ s with rgt := s.rgt.lower entry, down := { s.down with credits := s.down.credits + 1 } } : State).dropRef job

/-- The read of slot `i`, if it is issued on DN: its slot is taken and it is no longer in the forwarded list. -/
def State.issuedRead? (s : State) (i : Fin 32) : Option ReadSlot :=
  if s.down.forwarded.contains (.read i) then none else s.path.reads[i]

/-- The write of slot `i`, if it is issued on DN. -/
def State.issuedWrite? (s : State) (i : Fin 32) : Option WriteSlot :=
  if s.down.forwarded.contains (.write i) then none else s.path.writes[i]

/-- The response to a returned read (R2, R23). -/
def ReadSlot.response (r : ReadSlot) (okay : Bool) (lines : List Line) : Output :=
  .response r.id .read okay (if okay then lines else List.replicate r.len onesLine)

/-- The read of slot `i` returns (R23). -/
def State.returnRead (s : State) (i : Fin 32) (r : ReadSlot) (okay : Bool) (lines : List Line) : State :=
  let up := upstreamLines r.view (s.keyOf r.job) r.addr lines
  let t := if okay then s.meterReturn r up else s.meterLost r
  (({ t with path := { t.path with reads := t.path.reads.set i none } } : State).releaseSlot r.entry r.job).give
    (r.response okay up)

/-- A completion that LRST left without a slot is discarded; its credit returns (R28). -/
def State.dropOrphan (s : State) (k : Nat) (d : Dir) : State :=
  match s.down.orphans[k]? with
  | some o =>
    if o.dir = d then
      { s with down := { s.down with orphans := s.down.orphans.eraseIdx k, credits := s.down.credits + 1 } }
    else s
  | none => s

/-- DN completes a forwarded read (R23). A return OKAY that does not carry the read's number of lines is no completion of
it (log entry 1). -/
def State.completeRead (s : State) (ref : DnRef) (okay : Bool) (lines : List Line) : State :=
  match ref with
  | .orphan k => s.dropOrphan k .read
  | .slot i =>
    match s.issuedRead? i with
    | some r => if okay && lines.length != r.len then s else s.returnRead i r okay lines
    | none => s

/-- PFE hands RCI the data of an answered index line write (R8). -/
def State.handIndex (s : State) (w : WriteSlot) : State :=
  match s.path.cmdWindow with
  | some win =>
    match (if w.indexLine then writtenLine? w.addr w.lines win.baseLine else none) with
    | some l => s.takeIndex l
    | none => s
  | none => s

/-- The write of slot `i` is answered (R24); an OKAY answer brings index values (R185) or offers an anchor (R181). -/
def State.answerWrite (s : State) (i : Fin 32) (w : WriteSlot) (okay : Bool) : State :=
  let t := (({ s with path := { s.path with writes := s.path.writes.set i none } } : State).releaseSlot w.entry w.job).give
    (.response w.id .write okay [])
  if okay then (t.handIndex w).offerAnchor w.addr w.lines else t

/-- DN answers a forwarded write (R24). -/
def State.completeWriteAt (s : State) (ref : DnRef) (okay : Bool) : State :=
  match ref with
  | .orphan k => s.dropOrphan k .write
  | .slot i =>
    match s.issuedWrite? i with
    | some w => s.answerWrite i w okay
    | none => s

/-! ## The downstream arbiter (R26) -/

/-- What is issued on DN for a forwarded transaction. -/
def State.forwardedIssue (s : State) : FwdRef → Output
  | .read i =>
    match s.path.reads[i] with
    | some r => .issue r.addr (.read r.len)
    | none => .issue 0 (.read 0)
  | .write i =>
    match s.path.writes[i] with
    | some w => .issue w.addr (.write w.lines)
    | none => .issue 0 (.write [])

/-- The operation on DN of an internal transaction. -/
def InternalSlot.op (x : InternalSlot) : DnOp :=
  match x.purpose with
  | .fetch _ => .read x.len
  | .reportSlot _ data _ => .write [⟨data, fullMask⟩]
  | .indexWrite h t => .write [⟨indexLine h t, fullMask⟩]
  | .wipeWrite k reg _ => .write ((patternLines k x.len reg).map fun l => ⟨l, fullMask⟩)
  | .verifyRead _ _ => .read x.len

/-- What is issued on DN for an internal transaction. -/
def Down.internalIssue (d : Down) (i : Fin 8) : Output :=
  match d.internal[i] with
  | some x => .issue x.addr x.op
  | none => .issue 0 (.read 0)

/-- The head of the forwarded list is granted (R26). -/
def State.grantForwarded (s : State) (f : FwdRef) (rest : List FwdRef) : State :=
  ({ s with down := { s.down with
      forwarded := rest, credits := s.down.credits - 1
      run := if s.down.internalList.isEmpty then 0 else s.down.run + 1 } } : State).give (s.forwardedIssue f)

/-- The head of the internal list is granted (R26). -/
def State.grantInternal (s : State) (i : Fin 8) (rest : List (Fin 8)) : State :=
  ({ s with down := { s.down with internalList := rest, credits := s.down.credits - 1, run := 0 } } : State).give
    (s.down.internalIssue i)

/-- The arbiter grants a free credit (R26). -/
def State.grant (s : State) : State :=
  if s.down.credits = 0 then s
  else
    match s.down.forwarded, s.down.internalList with
    | [], [] => s
    | f :: rest, [] => s.grantForwarded f rest
    | [], i :: rest => s.grantInternal i rest
    | f :: rest, i :: rest' => if 3 ≤ s.down.run then s.grantInternal i rest' else s.grantForwarded f rest

end Sys2Proof.Machine
end

