-- ==== Sys2Proof/Machine/Admin.lean ====
section
/-!
DEFINITION. The admin commands (R92 to R94, R116 to R123, R151) and BAY_QUERY (R152): each answers the result code, the
values of the result and the state.
-/

namespace Sys2Proof.Machine

/-- The answer of a command's owner: result code, values and state. -/
abbrev Answer := (ResultCode × ResultValues) × State

/-- The frame of an admin command (R116): step 1 is the credential check. -/
def State.admin (s : State) (pin : Word8) (body : State → Answer) : Answer :=
  match s.credential pin with
  | (t, .refused v) => ((.badCredential, v), t)
  | (t, .passed) => body t

/-- A refusal that changes nothing further. -/
def State.refuse (s : State) (c : ResultCode) : Answer := ((c, .none), s)

/-! ## Changes by an admin command (R116): what is altered is triggered -/

/-- A user record takes stored fields; an alteration is triggered. -/
def Ace.setUser (a : Ace) (i : Fin 256) (u : UserStored) : Ace :=
  if u = (a.users[i]).stored then a else (a.putUser i u).trigger (.user i)

/-- A department record takes stored fields; an alteration is triggered. -/
def Ace.setDept (a : Ace) (i : Fin 16) (d : DeptStored) : Ace :=
  if d = (a.depts[i]).stored then a else (a.putDept i d).trigger (.dept i)

/-- The class table is replaced; an alteration is triggered. -/
def Ace.setClasses (a : Ace) (t : ClassTable) : Ace := if t = a.classes then a else (a.putClasses t).trigger .classes

/-- The tariff is replaced; an alteration is triggered. -/
def Ace.setTariff (a : Ace) (t : Tariff) : Ace := if t = a.tariff then a else (a.putTariff t).trigger .tariff

/-- The bay configuration is replaced; an alteration is triggered. -/
def Ace.setBays (a : Ace) (b : BayConfs) : Ace := if b = a.bays then a else (a.putBays b).trigger .bays

/-- The service credential is replaced; an alteration is triggered. -/
def Ace.setService (a : Ace) (c : ServiceStored) : Ace := if c = a.service then a else (a.putService c).trigger .service

/-! ## CLASS_SET and TARIFF_SET (R92 to R94) -/

/-- The freeze (R94): a marking job, a stacked job or an own context. -/
def Jobs.frozen (j : Jobs) : Bool := j.marking.isSome || !j.stack.isEmpty || j.slots.toList.any fun q => q.own.isSome

/-- The entry that CLASS_SET's fields spell, if they pass step 2 of R92: for valid = yes each in its range, for valid = no as
they are. -/
def classEntry? (p : ClassSetParams) : Option ClassEntry :=
  match yesNo? p.valid with
  | none => none
  | some v =>
    let e : ClassEntry := ⟨v, p.maxLines, p.maxDots, p.basePrice, p.colourPrice⟩
    if v && !e.inRange then none else some e

/-- Steps 2 to 4 of R92. -/
def State.classSetBody (p : ClassSetParams) (s : State) : Answer :=
  match fin? 8 p.index, classEntry? p with
  | some i, some e =>
    if !ClassTable.sound (s.ace.classes.set i e) then s.refuse .badParam
    else if s.jct.frozen then s.refuse .markingActive
    else
      ((.ok, .classTable (s.ace.classes.set i e)), { s with ace := s.ace.setClasses (s.ace.classes.set i e) })
  | _, _ => s.refuse .badParam

/-- CLASS_SET at ACE (R92). -/
def State.classSet (s : State) (p : ClassSetParams) : Answer := s.admin p.pin (State.classSetBody p)

/-- The tariff that TARIFF_SET's parameters spell. -/
def tariffOf (p : TariffSetParams) : Tariff := ⟨p.free, p.surcharge, p.cap, p.threshold⟩

/-- Steps 2 and 3 of R93. -/
def State.tariffSetBody (t : Tariff) (s : State) : Answer :=
  if !t.inRange then s.refuse .badParam
  else if s.jct.frozen then s.refuse .markingActive
  else ((.ok, .tariff t), { s with ace := s.ace.setTariff t })

/-- TARIFF_SET at ACE (R93). -/
def State.tariffSet (s : State) (p : TariffSetParams) : Answer :=
  s.admin p.pin (State.tariffSetBody (tariffOf p))

/-! ## Users (R117 to R119) -/

/-- A state that USER_SET may give (R117): not SUSPECT. -/
def settableState? : Nat → Option UserState
  | 0 => some .unused
  | 1 => some .active
  | 2 => some .locked
  | _ => none

/-- A number fits the signed 32-bit field it is carried in. -/
def fits32 (n : Int) : Bool := -(2 ^ 31 : Int) ≤ n && n ≤ 2 ^ 31 - 1

/-- The user and the record that USER_SET's fields spell, if they pass step 2 of R117. -/
def userRecord? (p : UserSetParams) : Option (Fin 256 × UserStored) :=
  match fin? 256 p.user, settableState? p.state, finOpt? 16 p.department with
  | some u, some st, some d =>
    let r : UserStored := ⟨st, some (Config.userDigest u p.pin), 0, d, p.balance, p.overdraft, p.maxJobs, p.lifeMono,
      p.lifeColour, p.lifeCharge⟩
    if pinDigits p.pin && r.inRange then some (u, r) else none
  | _, _, _ => none

/-- The record of a user as USER_QUERY shows it (R119). -/
def State.userInfo (s : State) (u : Fin 256) : ResultValues := .userInfo s.ace.users[u] (s.jct.countOf u)

/-- Steps 2 to 4 of R117. -/
def State.userSetBody (p : UserSetParams) (s : State) : Answer :=
  match userRecord? p with
  | none => s.refuse .badParam
  | some (u, r) =>
    if 0 < (s.ace.users[u]).reserved ∨ 0 < s.jct.countOf u then s.refuse .userBusy
    else if r.balance < -(r.overdraft : Int) then s.refuse .limitBelowUse
    else
      let t : State := { s with ace := s.ace.setUser u r }
      ((.ok, t.userInfo u), t)

/-- USER_SET at ACE (R117). -/
def State.userSet (s : State) (p : UserSetParams) : Answer := s.admin p.servicePin (State.userSetBody p)

/-- The balance after an adjustment, clamped (R118). -/
def adjusted (b : Int) : Int := min b (2 ^ 31 - 1)

/-- Step 5 and the action of R118, for a user whose record passed steps 3 and 4. -/
def State.adjustBalance (s : State) (u : Fin 256) (amount : Int) : Answer :=
  let r := s.ace.users[u]
  let b := r.stored.balance + amount
  if b - r.reserved < -(r.stored.overdraft : Int) then s.refuse .limitBelowUse
  else
    ((.ok, .adjusted (adjusted b) r.reserved (2 ^ 31 - 1 < b)),
      { s with ace := s.ace.setUser u { r.stored with balance := adjusted b } })

/-- Steps 2 to 5 of R118. -/
def State.userAdjustBody (user : Nat) (amount : Int) (s : State) : Answer :=
  match fin? 256 user with
  | none => s.refuse .badParam
  | some u =>
    if !fits32 amount then s.refuse .badParam
    else
      match (s.ace.users[u]).stored.state with
      | .unused => s.refuse .badUser
      | .suspect => s.refuse .userSuspect
      | .active => s.adjustBalance u amount
      | .locked => s.adjustBalance u amount

/-- USER_ADJUST at ACE (R118). -/
def State.userAdjust (s : State) (pin : Word8) (user : Nat) (amount : Int) : Answer :=
  s.admin pin (State.userAdjustBody user amount)

/-- The steps of R119 after the credential check. -/
def State.userQueryBody (user : Nat) (s : State) : Answer :=
  match fin? 256 user with
  | none => s.refuse .badParam
  | some u => ((.ok, s.userInfo u), s)

/-- USER_QUERY at ACE (R119). -/
def State.userQuery (s : State) (pin : Word8) (user : Nat) : Answer := s.admin pin (State.userQueryBody user)

/-! ## Departments (R120, R121) -/

/-- An allowance value that a department may hold (R112). -/
def allowanceOk : Option Nat → Bool
  | none => true
  | some a => a ≤ 2 ^ 31 - 1

/-- A new allowance is below what is in use (R120 step 3). -/
def DeptRec.belowUse (d : DeptRec) : Option Nat → Bool
  | none => false
  | some a => a < d.stored.used + d.reserved

/-- Steps 2 and 3 of R120. -/
def State.deptSetBody (dept : Nat) (allowance : Option Nat) (s : State) : Answer :=
  match fin? 16 dept with
  | none => s.refuse .badParam
  | some d =>
    if !allowanceOk allowance then s.refuse .badParam
    else if (s.ace.depts[d]).belowUse allowance then s.refuse .limitBelowUse
    else
      ((.ok, .deptInfo allowance (s.ace.depts[d]).stored.used (s.ace.depts[d]).reserved),
        { s with ace := s.ace.setDept d { (s.ace.depts[d]).stored with allowance := allowance } })

/-- DEPT_SET at ACE (R120). -/
def State.deptSet (s : State) (pin : Word8) (dept : Nat) (allowance : Option Nat) : Answer :=
  s.admin pin (State.deptSetBody dept allowance)

/-- The departments that PERIOD_RESET names, ascending; none when the index is above 15. -/
def deptsNamed? : DeptChoice → Option (List (Fin 16))
  | .all => some (List.finRange 16)
  | .one i => (fin? 16 i).map fun d => [d]

/-- The used amount of a department becomes 0 (R121). -/
def Ace.resetUsed (a : Ace) (d : Fin 16) : Ace := a.setDept d { (a.depts[d]).stored with used := 0 }

/-- The steps of R121 after the credential check. -/
def State.periodResetBody (which : DeptChoice) (s : State) : Answer :=
  match deptsNamed? which with
  | none => s.refuse .badParam
  | some ds =>
    ((.ok, .usedAmounts (ds.map fun d => (s.ace.depts[d]).stored.used)), { s with ace := ds.foldl Ace.resetUsed s.ace })

/-- PERIOD_RESET at ACE (R121). -/
def State.periodReset (s : State) (pin : Word8) (which : DeptChoice) : Answer :=
  s.admin pin (State.periodResetBody which)

/-! ## Device meters and the service PIN (R122, R123) -/

/-- The result of METER_QUERY (R122). -/
def State.meterQueryBody (s : State) : Answer := ((.ok, .meters s.ace.meters.stored s.ace.meters.zeroed), s)

/-- METER_QUERY at ACE (R122). -/
def State.meterQuery (s : State) (pin : Word8) : Answer := s.admin pin State.meterQueryBody

/-- Step 2 and the action of R123. -/
def State.servicePinSetBody (newPin : Word8) (s : State) : Answer :=
  if !pinDigits newPin then s.refuse .badParam
  else
    ((.ok, .none), { s with ace := s.ace.setService { s.ace.service with digest := Config.serviceDigest newPin } })

/-- SERVICE_PIN_SET at ACE (R123). -/
def State.servicePinSet (s : State) (pin newPin : Word8) : Answer := s.admin pin (State.servicePinSetBody newPin)

/-! ## Bays (R151, R152) -/

/-- A number in the list of policies (R150). -/
def policy? : Nat → Option Policy
  | 0 => some .genuineOnly
  | 1 => some .allowUnproven
  | _ => none

/-- The configuration that BAY_CONFIG's fields spell, if they pass step 2 of R151. -/
def bayConf? (p : BayConfigParams) : Option BayConf :=
  match policy? p.policy with
  | none => none
  | some pol =>
    let c : BayConf := ⟨pol, p.attach, p.detach, p.dotMass, p.quantum, p.lowMark, p.grace⟩
    if c.inRange then some c else none

/-- Step 2 and the action of R151. -/
def State.bayConfigBody (p : BayConfigParams) (s : State) : Answer :=
  match fin? 4 p.bay, bayConf? p with
  | some b, some c => ((.ok, .bayConf c), { s with ace := s.ace.setBays (s.ace.bays.set b c) })
  | _, _ => s.refuse .badParam

/-- BAY_CONFIG at CCU and ACE (R151). -/
def State.bayConfig (s : State) (p : BayConfigParams) : Answer := s.admin p.pin (State.bayConfigBody p)

/-- BAY_QUERY at CCU (R152). -/
def State.bayQuery (s : State) (bay : Nat) : Answer :=
  match fin? 4 bay with
  | none => s.refuse .badParam
  | some p => ((.ok, .bayInfo (s.bay p) (s.conf p) (s.plane p) (s.plane p).estimate s.ccu.departed), s)

end Sys2Proof.Machine
end

