-- ==== Sys2Proof/Machine/Standby.lean ====
section
/-!
DEFINITION. Standby (section 9.4): STANDBY_ENTER, the phases of entry, and wake.
-/

namespace Sys2Proof.Machine

/-- A number in the list of standby modes (R176). -/
def standbyMode? : Nat → Option StandbyMode
  | 0 => some .retain
  | 1 => some .erase
  | _ => none

/-- The acceptance of STANDBY_ENTER (R176): ENTERING in phase DRAIN, and the path closes. -/
def State.enterStandby (s : State) (m : StandbyMode) (tag : BitVec 16) : State :=
  { s with
    rci := { s.rci with standby := .entering m .drain tag ⟨0, 0, 0, 0⟩ }
    path := { s.path with closed := true } }

/-- STANDBY_ENTER at RCI (R176). -/
def State.standbyEnter (s : State) (mode : Nat) (tag : BitVec 16) : Answer :=
  match standbyMode? mode with
  | none => s.refuse .badParam
  | some m =>
    if s.jct.marking.isSome || !s.jct.stack.isEmpty then s.refuse .busyMarking
    else if !s.wpe.queue.isEmpty then s.refuse .busyWipe
    else ((.ok, .none), s.enterStandby m tag)

/-- The end condition of phase DRAIN (R177). -/
def State.drained (s : State) : Bool :=
  (s.path.reads.toList.all Option.isNone) && (s.path.writes.toList.all Option.isNone) && s.path.hold.isEmpty
    && s.rgt.commit.isNone && (s.jct.slots.toList.all fun q => q.state != .closing) && s.wpe.queue.isEmpty

/-- A job that a forced ending ends: OPEN, HELD or CLOSING (R64, R65). -/
def JobState.live : JobState → Bool
  | .opened => true
  | .held _ => true
  | .closing => true
  | .free => false
  | .wiping => false

/-- The slots of the jobs that a forced ending ends, ascending. -/
def Jobs.liveJobs (j : Jobs) : List (Fin 16) := (List.finRange 16).filter fun i => (j.slots[i]).state.live

/-- Phase ERASE for one job (R65): its slot is FREE, its key is destroyed, and ACE and TMU are told. -/
def State.eraseJob (s : State) (j : Fin 16) : State :=
  ({ (s.modJob j JobSlot.freed) with keys := s.keys.set j none } : State).tellEnded (s.job j).user (s.job j).marked

/-- Phase ERASE (R177, R65, R41, R16): every job-bound entry is invalid, and every job ends. The jobs are taken in ascending slot
order, which R65 does not give and which shows in the order of the write-back triggers (log entry 10). -/
def State.erase (s : State) : State :=
  (s.jct.liveJobs.foldl State.eraseJob (s.setRegions (s.rgt.invalidate RegionEntry.jobBound)))

/-- The jobs that phase ERASE ends. -/
def State.eraseCount (s : State) : StandbyMode → Nat
  | .retain => 0
  | .erase => s.jct.liveJobs.length

/-- Phases ERASE and DETACH, in the event that ends DRAIN (R177), and the start of FLUSH. -/
def State.eraseAndDetach (s : State) (m : StandbyMode) (tag : BitVec 16) (n : StandbyTally) : State :=
  let t := match m with
    | .retain => s
    | .erase => s.erase
  let u := t.detachAll
  { u with rci := { u.rci with
      standby := .entering m .flush tag { n with ended := s.eraseCount m, bays := t.attachedBays } } }

/-- The end of phase DRAIN, if it has come (R177). -/
def State.drainEnd (s : State) : State :=
  match s.rci.standby with
  | .entering m .drain tag n => if s.drained then s.eraseAndDetach m tag n else s
  | _ => s

/-- While FLUSH lasts, every DIRTY record is triggered (R128). The order of the triggers, which R128 does not give, is that of
loading: the model's choice (log entry 36). -/
def State.flushTrigger (s : State) : State :=
  match s.rci.standby with
  | .entering _ .flush _ _ => { s with ace := s.ace.triggerAll allRecords }
  | _ => s

/-- The end of phase FLUSH, if it has come (R128, R177): the posting counts are 0 (R133), RCI hands itself the STANDBY report, and
POST starts. -/
def State.flushEnd (s : State) : State :=
  match s.rci.standby with
  | .entering m .flush tag n =>
    if s.ace.flushed then
      ({ s with
        ace := s.ace.clearCounts, rci := { s.rci with standby := .entering m .post tag n } } : State).hand (.standby m n) tag
    else s
  | _ => s

/-- An internal transaction is a report or index write of RCI whose completion still counts. -/
def InternalSlot.isPost (x : InternalSlot) : Bool :=
  match x.purpose with
  | .reportSlot _ _ _ => !x.discard
  | .indexWrite _ _ => !x.discard
  | .fetch _ => false
  | .wipeWrite _ _ _ => false
  | .verifyRead _ _ => false

/-- The head report needs more report slots than are free (R177). -/
def Rci.headBlocked (r : Rci) : Bool :=
  match r.queue, r.rings with
  | rep :: _, some g => r.posting.isNone && g.freeReportSlots < rep.body.slots
  | _, _ => false

/-- The end condition of phase POST (R177): the queue is empty with no report write outstanding, or its head does not fit. A
report or index line write that has been handed to the arbiter counts as outstanding while it waits for its credit (log
entry 16). -/
def State.posted (s : State) : Bool :=
  (s.rci.queue.isEmpty && !(s.down.internal.toList.any fun x => x.any InternalSlot.isPost)) || s.rci.headBlocked

/-- The end of phase POST, if it has come: the part is in STANDBY (R177). -/
def State.postEnd (s : State) : State :=
  match s.rci.standby with
  | .entering _ .post _ _ => if s.posted then { s with rci := { s.rci with standby := .standby } } else s
  | _ => s

/-- The part wakes (R178): RUNNING, the path reopens, and every first poll is due at once. -/
def State.wakeUp (s : State) : State :=
  State.firstPolls { s with
    rci := { s.rci with standby := .running }
    path := { s.path with closed := false } }

/-- The part wakes in the first event in which it is in STANDBY and the wake pin is asserted (R178). -/
def State.wakeCheck (s : State) : State := if s.rci.standby = .standby ∧ s.rci.wakePin then s.wakeUp else s

end Sys2Proof.Machine
end

