-- ==== Sys2Proof/Machine/Events.lean ====
section
/-!
DEFINITION. What every event of the part does beside its own effect: the steps that fall due in the same event, the joining
of its reports, and the ends of standby entry and of standby (log entries 1, 8 and 13).
-/

namespace Sys2Proof.Machine

/-- An event begins: the outputs of the event before it are gone, and no report has been handed. -/
def State.beginEvent (s : State) : State := { s with out := [], handed := [] }

/-- The step of standby entry that falls due (R177): the end of DRAIN with ERASE and DETACH, the flush's triggers, and the
end of FLUSH. -/
def State.standbyStep (s : State) : State := s.drainEnd.flushTrigger.flushEnd

/-- The steps that come about in an event because of its effect (spec/95_what_each_step_holds.md): records settle (R84), a
commit completes (R15), the head wipe completes (R173), jobs leave CLOSING (R52), a wipe starts (R170), standby entry goes
on (R177). Each leaves the state as it is when it is not due. That the jobs in CLOSING take room of the Wipe Queue in the event that
frees it, before any WIPE_RANGE can, is the model's choice (R52 allows either, log entry 41). -/
def State.consequences (s : State) : State :=
  s.settleDue.completeCommit.finishWipe.leaveAll.startWipe.standbyStep

/-- An event ends: what falls due comes about, the reports join the queue (R188), POST may end (R177), and the part may
wake (R178). -/
def State.endEvent (s : State) : State := s.consequences.joinAll.postEnd.wakeCheck

/-- The event of a link reset ends: a waiting ACCOUNT_FAULT is kept, with the fault list (R184), for the next event; the reports
that the event hands after the emptying of the Report Queue join it. -/
def State.endReset (s : State) : State := s.consequences.joinHanded.postEnd.wakeCheck

/-- The event of a link reset. Without supply nothing happens. -/
def resetEvent (body : State → State) (s : State) : Host.Outcome State Fault Refusal :=
  .next (if s.powered then (body s.beginEvent).endReset else s.beginEvent)

/-- One event with its own effect `body`. Without supply nothing happens. -/
def event (body : State → State) (s : State) : Host.Outcome State Fault Refusal :=
  .next (if s.powered then (body s.beginEvent).endEvent else s.beginEvent)

/-! ## Ring commands as rows of their own (R187) -/

/-- A ring command may be executed now: what a fetch asks (R186), the ring's indices apart (log entry 17). -/
def State.commandReady (s : State) : Bool :=
  s.rci.startup == .anchored && !s.rci.faultWaiting && s.rci.standby == .running && !s.rci.hand
    && s.rci.queue.length ≤ 14

/-- The execution of a ring command that stands alone: one report entry is held for its result (R188). -/
def State.direct (s : State) (run : State → State) : State :=
  if s.commandReady then run { s with rci := { s.rci with held := true } } else s

/-- The event of a ring command that stands alone. -/
def ringEvent (run : State → State) (s : State) : Host.Outcome State Fault Refusal := event (fun t => t.direct run) s

end Sys2Proof.Machine
end

