-- ==== Sys2Proof/Machine/AccountRows.lean ====
section
/-!
DEFINITION. The meanings of ACE's rows: the AMEM write and the lockout's expiry.
-/

namespace Sys2Proof.Machine

/-- A write that FLUSH starts counts in the STANDBY report (R177). -/
def Rci.tallyWrite (r : Rci) : Rci := r.tally .flush fun n => { n with writes := n.writes + 1 }

/-- The head of the write-back queue starts its AMEM write, if one may start (R127). -/
def State.beginWrite (s : State) : State :=
  if s.writeMayStart then { s with ace := s.ace.startWrite, rci := s.rci.tallyWrite } else s

/-- The lockout in force reaches its end (R115). -/
def State.lockoutEnds (s : State) : State :=
  match s.ace.lockout with
  | some t => s.expireLockout t
  | none => s

/-- AMEM_WRITE_START (R127): an AMEM write starts. -/
def execAmemWriteStart (s : State) : Host.Outcome State Fault Refusal := event State.beginWrite s

/-- AMEM_WRITE_COMPLETE (R127): the AMEM write in flight completes. -/
def execAmemWriteComplete (s : State) : Host.Outcome State Fault Refusal := event State.completeWrite s

/-- LOCKOUT_EXPIRY (R115): 60,000 ms have passed since the lockout's start. -/
def execLockoutExpiry (s : State) : Host.Outcome State Fault Refusal := event State.lockoutEnds s

end Sys2Proof.Machine
end

