-- ==== Sys2Proof/Machine/Operands.lean ====
section
/-!
DEFINITION. Command slots (section 11.3): the command that a fetched line spells. Parameters are read raw; the owner's
checks judge them (R187). Layouts that section 11.3 does not lay down are packed in the order of their rule (R192,
log entry 14).
-/

namespace Sys2Proof.Machine

/-- The number of a ring command's kind, in the order of the command table (R192). -/
def kindOf : Instr → BitVec 16
  | .regionSet .. => 1 | .regionClear .. => 2 | .regionsCommit .. => 3 | .captureClear .. => 4
  | .jobOpen .. => 5 | .jobRelease .. => 6 | .jobClose .. => 7 | .jobQuery .. => 8
  | .markSelect .. => 9 | .markInterrupt .. => 10 | .markResume .. => 11
  | .classSet .. => 12 | .tariffSet .. => 13
  | .userSet .. => 14 | .userAdjust .. => 15 | .userQuery .. => 16 | .deptSet .. => 17 | .periodReset .. => 18
  | .meterQuery .. => 19 | .servicePinSet .. => 20
  | .bayQuery .. => 21 | .bayConfig .. => 22 | .wipeRange .. => 23 | .standbyEnter .. => 24
  | .unknownKind _ k => k
  | .por .. => 0 | .lrst .. => 0 | .wake .. => 0 | .loadingEnd => 0 | .takeTransaction .. => 0 | .releasedTaken => 0
  | .downstreamGrant => 0 | .readReturn .. => 0 | .writeAnswer .. => 0 | .commitCompletion => 0 | .recordSettle => 0
  | .jobLeavesClosing .. => 0 | .wipeStart => 0 | .wipeWriteIssue => 0 | .wipeWriteAnswer .. => 0
  | .verifyReadIssue => 0 | .verifyReadReturn .. => 0 | .wipeDone => 0 | .fetchStart => 0 | .fetchReadReturn .. => 0
  | .reportWriteIssue => 0 | .reportWriteAnswer .. => 0 | .indexWriteIssue => 0 | .indexWriteAnswer .. => 0
  | .accountFault => 0 | .amemWriteStart => 0 | .amemWriteComplete => 0 | .lockoutExpiry => 0 | .statusReq .. => 0
  | .identReq .. => 0 | .proveReq .. => 0 | .debitReq .. => 0 | .statusRep .. => 0 | .identRep .. => 0
  | .proveRep .. => 0 | .debitRep .. => 0 | .exchangeTimeout .. => 0 | .standbyDrainEnd => 0 | .flushComplete => 0
  | .standbyPostEnd => 0 | .replyFrameBegins .. => 0 | .supplyLoss => 0

/-- The parameters of REGION_SET at their offsets (section 11.3). -/
def regionSetOf (l : Line) : RegionSetParams :=
  { index := Line.field l 4 1, cls := Line.field l 5 1, priv := Line.field l 6 1, job := Line.fieldOpt l 7 1
    base := Line.field l 8 4, count := Line.field l 12 4, readMask := Line.field16 l 16, writeMask := Line.field16 l 18
    rawMask := Line.field16 l 20, behaviour := Line.field l 22 1, plane := Line.fieldOpt l 23 1
    depth := Line.fieldOptZero l 24 1, stride := Line.fieldOptZero l 26 2, frameLines := Line.fieldOptZero l 28 2 }

/-- The parameters of JOB_OPEN at their offsets (section 11.3). -/
def jobOpenOf (l : Line) : JobOpenParams :=
  { user := Line.field l 4 2, pin := Line.word8 l 6, kind := Line.field l 14 1, hold := Line.field l 15 1
    declared := Line.fieldOpt l 16 1, passes := Line.field l 17 1, verify := Line.field l 18 1 }

/-- The parameters of USER_SET at their offsets (section 11.3). -/
def userSetOf (l : Line) : UserSetParams :=
  { servicePin := Line.word8 l 4, user := Line.field l 12 2, state := Line.field l 14 1
    department := Line.fieldOpt l 15 1, maxJobs := Line.field l 16 1, pin := Line.word8 l 18
    balance := Line.signed32 l 26, overdraft := Line.field l 30 4, lifeMono := Line.field l 34 4
    lifeColour := Line.field l 38 4, lifeCharge := Line.field l 42 4 }

/-- The parameters of CLASS_SET, packed. -/
def classSetOf (l : Line) : ClassSetParams :=
  { pin := Line.word8 l 4, index := Line.field l 12 1, valid := Line.field l 13 1, maxLines := Line.field l 14 2
    maxDots := Line.field l 16 4, basePrice := Line.field l 20 2, colourPrice := Line.field l 22 2 }

/-- The parameters of TARIFF_SET, packed. -/
def tariffSetOf (l : Line) : TariffSetParams :=
  { pin := Line.word8 l 4, free := Line.field l 12 2, surcharge := Line.field l 14 2, cap := Line.field l 16 2
    threshold := Line.field l 18 2 }

/-- The parameters of BAY_CONFIG, packed. -/
def bayConfigOf (l : Line) : BayConfigParams :=
  { pin := Line.word8 l 4, bay := Line.field l 12 1, policy := Line.field l 13 1, attach := Line.field l 14 1
    detach := Line.field l 15 1, dotMass := Line.field l 16 2, quantum := Line.field l 18 2, lowMark := Line.field l 20 2
    grace := Line.field l 22 2 }

/-- The parameters of WIPE_RANGE, packed. -/
def wipeRangeOf (l : Line) : WipeRangeParams :=
  { base := Line.field l 4 4, count := Line.field l 8 4, passes := Line.field l 12 1, verify := Line.field l 13 1 }

/-- The department operand of PERIOD_RESET: all ones is ALL (R192). -/
def deptChoiceOf (l : Line) : DeptChoice :=
  match Line.fieldOpt l 12 1 with
  | none => .all
  | some d => .one d

/-- The command of a kind number with a tag. A kind of 0 or above 24 is none of the command table's (R192). -/
def commandOf (kind tag : BitVec 16) (l : Line) : Instr :=
  match kind.toNat with
  | 1 => .regionSet tag (regionSetOf l)
  | 2 => .regionClear tag (Line.field l 4 1)
  | 3 => .regionsCommit tag
  | 4 => .captureClear tag
  | 5 => .jobOpen tag (jobOpenOf l)
  | 6 => .jobRelease tag (Line.field l 4 1) (Line.word8 l 5)
  | 7 => .jobClose tag (Line.field l 4 1)
  | 8 => .jobQuery tag (Line.field l 4 1)
  | 9 => .markSelect tag (Line.field l 4 1)
  | 10 => .markInterrupt tag (Line.field l 4 1)
  | 11 => .markResume tag
  | 12 => .classSet tag (classSetOf l)
  | 13 => .tariffSet tag (tariffSetOf l)
  | 14 => .userSet tag (userSetOf l)
  | 15 => .userAdjust tag (Line.word8 l 4) (Line.field l 12 1) (Line.signed32 l 13)
  | 16 => .userQuery tag (Line.word8 l 4) (Line.field l 12 1)
  | 17 => .deptSet tag (Line.word8 l 4) (Line.field l 12 1) (Line.fieldOpt l 13 4)
  | 18 => .periodReset tag (Line.word8 l 4) (deptChoiceOf l)
  | 19 => .meterQuery tag (Line.word8 l 4)
  | 20 => .servicePinSet tag (Line.word8 l 4) (Line.word8 l 12)
  | 21 => .bayQuery tag (Line.field l 4 1)
  | 22 => .bayConfig tag (bayConfigOf l)
  | 23 => .wipeRange tag (wipeRangeOf l)
  | 24 => .standbyEnter tag (Line.field l 4 1)
  | _ => .unknownKind tag kind

/-- The command that a fetched command slot spells. -/
def commandOfLine (l : Line) : Instr := commandOf (Line.field16 l 0) (Line.field16 l 2) l

end Sys2Proof.Machine
end

