-- ==== Sys2Proof/Machine/Commands.lean ====
section
/-!
DEFINITION. The execution of ring commands (R187): each runs at its owner and hands its result report; `runCommand`
executes the command that a fetched slot spells.
-/

namespace Sys2Proof.Machine

/-- The owner hands RCI the result report (R187), which takes the held entry (R188). -/
def report (kind tag : BitVec 16) (a : Answer) : State := a.2.handHeld (.result kind a.1.1 a.1.2) tag

/-- An answer of a result code alone. -/
def plainAnswer (r : ResultCode × State) : Answer := ((r.1, .none), r.2)

/-- REGION_SET (R12, R13). -/
def State.runRegionSet (tag : BitVec 16) (p : RegionSetParams) (s : State) : State :=
  report 1 tag (plainAnswer (s.regionSet p))

/-- REGION_CLEAR (R12). -/
def State.runRegionClear (tag : BitVec 16) (index : Nat) (s : State) : State :=
  report 2 tag (plainAnswer (s.regionClear index))

/-- REGIONS_COMMIT (R14). -/
def State.runRegionsCommit (tag : BitVec 16) (s : State) : State := report 3 tag (plainAnswer (s.regionsCommit tag))

/-- The Violation Capture emptied (R21). -/
def State.clearCapture (s : State) : State := { s with path := { s.path with capture := none, captureCount := 0 } }

/-- CAPTURE_CLEAR (R21). -/
def State.runCaptureClear (tag : BitVec 16) (s : State) : State :=
  report 4 tag ((.ok, .capture s.path.capture s.path.captureCount), s.clearCapture)

/-- JOB_OPEN (R45 to R47). -/
def State.runJobOpen (tag : BitVec 16) (p : JobOpenParams) (s : State) : State := report 5 tag (s.jobOpen p)

/-- JOB_RELEASE (R50). -/
def State.runJobRelease (tag : BitVec 16) (job : Nat) (pin : Word8) (s : State) : State :=
  report 6 tag (plainAnswer (s.jobRelease job pin))

/-- JOB_CLOSE (R51). -/
def State.runJobClose (tag : BitVec 16) (job : Nat) (s : State) : State := report 7 tag (plainAnswer (s.jobClose job tag))

/-- JOB_QUERY (R55). -/
def State.runJobQuery (tag : BitVec 16) (job : Nat) (s : State) : State := report 8 tag (s.jobQuery job, s)

/-- MARK_SELECT (R58). -/
def State.runMarkSelect (tag : BitVec 16) (job : Nat) (s : State) : State := report 9 tag (plainAnswer (s.markSelect job))

/-- MARK_INTERRUPT (R59). -/
def State.runMarkInterrupt (tag : BitVec 16) (job : Nat) (s : State) : State := report 10 tag (s.markInterrupt job)

/-- MARK_RESUME (R60). -/
def State.runMarkResume (tag : BitVec 16) (s : State) : State := report 11 tag s.markResume

/-- CLASS_SET (R92). -/
def State.runClassSet (tag : BitVec 16) (p : ClassSetParams) (s : State) : State := report 12 tag (s.classSet p)

/-- TARIFF_SET (R93). -/
def State.runTariffSet (tag : BitVec 16) (p : TariffSetParams) (s : State) : State := report 13 tag (s.tariffSet p)

/-- USER_SET (R117). -/
def State.runUserSet (tag : BitVec 16) (p : UserSetParams) (s : State) : State := report 14 tag (s.userSet p)

/-- USER_ADJUST (R118). -/
def State.runUserAdjust (tag : BitVec 16) (pin : Word8) (user : Nat) (amount : Int) (s : State) : State :=
  report 15 tag (s.userAdjust pin user amount)

/-- USER_QUERY (R119). -/
def State.runUserQuery (tag : BitVec 16) (pin : Word8) (user : Nat) (s : State) : State :=
  report 16 tag (s.userQuery pin user)

/-- DEPT_SET (R120). -/
def State.runDeptSet (tag : BitVec 16) (pin : Word8) (dept : Nat) (allowance : Option Nat) (s : State) : State :=
  report 17 tag (s.deptSet pin dept allowance)

/-- PERIOD_RESET (R121). -/
def State.runPeriodReset (tag : BitVec 16) (pin : Word8) (which : DeptChoice) (s : State) : State :=
  report 18 tag (s.periodReset pin which)

/-- METER_QUERY (R122). -/
def State.runMeterQuery (tag : BitVec 16) (pin : Word8) (s : State) : State := report 19 tag (s.meterQuery pin)

/-- SERVICE_PIN_SET (R123). -/
def State.runServicePinSet (tag : BitVec 16) (pin newPin : Word8) (s : State) : State :=
  report 20 tag (s.servicePinSet pin newPin)

/-- BAY_QUERY (R152). -/
def State.runBayQuery (tag : BitVec 16) (bay : Nat) (s : State) : State := report 21 tag (s.bayQuery bay)

/-- BAY_CONFIG (R151). -/
def State.runBayConfig (tag : BitVec 16) (p : BayConfigParams) (s : State) : State := report 22 tag (s.bayConfig p)

/-- WIPE_RANGE (R174). -/
def State.runWipeRange (tag : BitVec 16) (p : WipeRangeParams) (s : State) : State := report 23 tag (s.wipeRange tag p)

/-- STANDBY_ENTER (R176). -/
def State.runStandbyEnter (tag : BitVec 16) (mode : Nat) (s : State) : State := report 24 tag (s.standbyEnter mode tag)

/-- A kind outside the command table, refused by RCI itself (R187). -/
def State.runUnknownKind (tag kind : BitVec 16) (s : State) : State := report kind tag (s.refuse .unknownKind)

/-- A kind number lies in the command table (R192). -/
def kindKnown (kind : BitVec 16) : Bool := 1 ≤ kind.toNat && kind.toNat ≤ 24

/-- The execution of a ring command. A row of the table that is no ring command executes nothing here; no command slot
spells one. -/
def runCommand : Instr → State → State
  | .regionSet tag p, s => s.runRegionSet tag p
  | .regionClear tag i, s => s.runRegionClear tag i
  | .regionsCommit tag, s => s.runRegionsCommit tag
  | .captureClear tag, s => s.runCaptureClear tag
  | .jobOpen tag p, s => s.runJobOpen tag p
  | .jobRelease tag j pin, s => s.runJobRelease tag j pin
  | .jobClose tag j, s => s.runJobClose tag j
  | .jobQuery tag j, s => s.runJobQuery tag j
  | .markSelect tag j, s => s.runMarkSelect tag j
  | .markInterrupt tag j, s => s.runMarkInterrupt tag j
  | .markResume tag, s => s.runMarkResume tag
  | .classSet tag p, s => s.runClassSet tag p
  | .tariffSet tag p, s => s.runTariffSet tag p
  | .userSet tag p, s => s.runUserSet tag p
  | .userAdjust tag pin u a, s => s.runUserAdjust tag pin u a
  | .userQuery tag pin u, s => s.runUserQuery tag pin u
  | .deptSet tag pin d a, s => s.runDeptSet tag pin d a
  | .periodReset tag pin w, s => s.runPeriodReset tag pin w
  | .meterQuery tag pin, s => s.runMeterQuery tag pin
  | .servicePinSet tag pin n, s => s.runServicePinSet tag pin n
  | .bayQuery tag b, s => s.runBayQuery tag b
  | .bayConfig tag p, s => s.runBayConfig tag p
  | .wipeRange tag p, s => s.runWipeRange tag p
  | .standbyEnter tag m, s => s.runStandbyEnter tag m
  | .unknownKind tag k, s => s.runUnknownKind tag k
  | .por .., s => s | .lrst .., s => s | .wake .., s => s | .loadingEnd, s => s | .takeTransaction .., s => s
  | .releasedTaken, s => s | .downstreamGrant, s => s | .readReturn .., s => s | .writeAnswer .., s => s
  | .commitCompletion, s => s | .recordSettle, s => s | .jobLeavesClosing .., s => s | .wipeStart, s => s
  | .wipeWriteIssue, s => s | .wipeWriteAnswer .., s => s | .verifyReadIssue, s => s | .verifyReadReturn .., s => s
  | .wipeDone, s => s | .fetchStart, s => s | .fetchReadReturn .., s => s | .reportWriteIssue, s => s
  | .reportWriteAnswer .., s => s | .indexWriteIssue, s => s | .indexWriteAnswer .., s => s | .accountFault, s => s
  | .amemWriteStart, s => s | .amemWriteComplete, s => s | .lockoutExpiry, s => s | .statusReq .., s => s
  | .identReq .., s => s | .proveReq .., s => s | .debitReq .., s => s | .statusRep .., s => s | .identRep .., s => s
  | .proveRep .., s => s | .debitRep .., s => s | .exchangeTimeout .., s => s | .standbyDrainEnd, s => s
  | .flushComplete, s => s | .standbyPostEnd, s => s | .replyFrameBegins .., s => s | .supplyLoss, s => s

/-- A fetched line is executed (R187): its command runs, the command head rises, and no command is in hand. -/
def State.executeLine (s : State) (l : Line) : State :=
  let t := runCommand (commandOfLine l) s
  { t with rci := t.rci.commandDone }

/-- The fetch read of internal slot `i` returns (R186, R187). -/
def State.returnFetch (s : State) (i : Fin 8) (okay : Bool) (l : Line) : State :=
  match s.down.outstanding? i with
  | some ⟨.fetch retried, _, _, discard⟩ =>
    if discard then { s with down := s.down.freeInternal i }
    else if okay then ({ s with down := s.down.freeInternal i } : State).executeLine l
    else if retried then ({ s with down := s.down.freeInternal i } : State).skipCommand
    else { s with down := s.down.handAgain i (.fetch true) }
  | _ => s

end Sys2Proof.Machine
end

