-- ==== Sys2Proof/Machine/CommandRows.lean ====
section
/-!
DEFINITION. The meanings of the ring commands' rows (section 10.4), each standing alone (log entry 17).
-/

namespace Sys2Proof.Machine

/-- REGION_SET (R12, R13). -/
def execRegionSet (tag : BitVec 16) (p : RegionSetParams) (s : State) : Host.Outcome State Fault Refusal :=
  ringEvent (State.runRegionSet tag p) s

/-- REGION_CLEAR (R12). -/
def execRegionClear (tag : BitVec 16) (index : Nat) (s : State) : Host.Outcome State Fault Refusal :=
  ringEvent (State.runRegionClear tag index) s

/-- REGIONS_COMMIT (R14, R15). -/
def execRegionsCommit (tag : BitVec 16) (s : State) : Host.Outcome State Fault Refusal :=
  ringEvent (State.runRegionsCommit tag) s

/-- CAPTURE_CLEAR (R21). -/
def execCaptureClear (tag : BitVec 16) (s : State) : Host.Outcome State Fault Refusal :=
  ringEvent (State.runCaptureClear tag) s

/-- JOB_OPEN (R45 to R47). -/
def execJobOpen (tag : BitVec 16) (p : JobOpenParams) (s : State) : Host.Outcome State Fault Refusal :=
  ringEvent (State.runJobOpen tag p) s

/-- JOB_RELEASE (R50). -/
def execJobRelease (tag : BitVec 16) (job : Nat) (pin : Word8) (s : State) : Host.Outcome State Fault Refusal :=
  ringEvent (State.runJobRelease tag job pin) s

/-- JOB_CLOSE (R51). -/
def execJobClose (tag : BitVec 16) (job : Nat) (s : State) : Host.Outcome State Fault Refusal :=
  ringEvent (State.runJobClose tag job) s

/-- JOB_QUERY (R55). -/
def execJobQuery (tag : BitVec 16) (job : Nat) (s : State) : Host.Outcome State Fault Refusal :=
  ringEvent (State.runJobQuery tag job) s

/-- MARK_SELECT (R58). -/
def execMarkSelect (tag : BitVec 16) (job : Nat) (s : State) : Host.Outcome State Fault Refusal :=
  ringEvent (State.runMarkSelect tag job) s

/-- MARK_INTERRUPT (R59). -/
def execMarkInterrupt (tag : BitVec 16) (job : Nat) (s : State) : Host.Outcome State Fault Refusal :=
  ringEvent (State.runMarkInterrupt tag job) s

/-- MARK_RESUME (R60). -/
def execMarkResume (tag : BitVec 16) (s : State) : Host.Outcome State Fault Refusal :=
  ringEvent (State.runMarkResume tag) s

/-- CLASS_SET (R92). -/
def execClassSet (tag : BitVec 16) (p : ClassSetParams) (s : State) : Host.Outcome State Fault Refusal :=
  ringEvent (State.runClassSet tag p) s

/-- TARIFF_SET (R93). -/
def execTariffSet (tag : BitVec 16) (p : TariffSetParams) (s : State) : Host.Outcome State Fault Refusal :=
  ringEvent (State.runTariffSet tag p) s

/-- USER_SET (R117). -/
def execUserSet (tag : BitVec 16) (p : UserSetParams) (s : State) : Host.Outcome State Fault Refusal :=
  ringEvent (State.runUserSet tag p) s

/-- USER_ADJUST (R118). -/
def execUserAdjust (tag : BitVec 16) (pin : Word8) (user : Nat) (amount : Int) (s : State) : Host.Outcome State Fault Refusal :=
  ringEvent (State.runUserAdjust tag pin user amount) s

/-- USER_QUERY (R119). -/
def execUserQuery (tag : BitVec 16) (pin : Word8) (user : Nat) (s : State) : Host.Outcome State Fault Refusal :=
  ringEvent (State.runUserQuery tag pin user) s

/-- DEPT_SET (R120). -/
def execDeptSet (tag : BitVec 16) (pin : Word8) (dept : Nat) (allowance : Option Nat) (s : State) : Host.Outcome State Fault Refusal :=
  ringEvent (State.runDeptSet tag pin dept allowance) s

/-- PERIOD_RESET (R121). -/
def execPeriodReset (tag : BitVec 16) (pin : Word8) (which : DeptChoice) (s : State) : Host.Outcome State Fault Refusal :=
  ringEvent (State.runPeriodReset tag pin which) s

/-- METER_QUERY (R122). -/
def execMeterQuery (tag : BitVec 16) (pin : Word8) (s : State) : Host.Outcome State Fault Refusal :=
  ringEvent (State.runMeterQuery tag pin) s

/-- SERVICE_PIN_SET (R123). -/
def execServicePinSet (tag : BitVec 16) (pin newPin : Word8) (s : State) : Host.Outcome State Fault Refusal :=
  ringEvent (State.runServicePinSet tag pin newPin) s

/-- BAY_QUERY (R152). -/
def execBayQuery (tag : BitVec 16) (bay : Nat) (s : State) : Host.Outcome State Fault Refusal :=
  ringEvent (State.runBayQuery tag bay) s

/-- BAY_CONFIG (R151). -/
def execBayConfig (tag : BitVec 16) (p : BayConfigParams) (s : State) : Host.Outcome State Fault Refusal :=
  ringEvent (State.runBayConfig tag p) s

/-- WIPE_RANGE (R174). -/
def execWipeRange (tag : BitVec 16) (p : WipeRangeParams) (s : State) : Host.Outcome State Fault Refusal :=
  ringEvent (State.runWipeRange tag p) s

/-- STANDBY_ENTER (R176). -/
def execStandbyEnter (tag : BitVec 16) (mode : Nat) (s : State) : Host.Outcome State Fault Refusal :=
  ringEvent (State.runStandbyEnter tag mode) s

/-- RCI refuses a kind that the command table does not hold; a kind that it holds is no event of this row (log entry 1). -/
def State.refuseKind (tag kind : BitVec 16) (s : State) : State :=
  if kindKnown kind then s else s.direct (State.runUnknownKind tag kind)

/-- UNKNOWN_KIND (R187): a command whose kind is not in the command table. -/
def execUnknownKind (tag kind : BitVec 16) (s : State) : Host.Outcome State Fault Refusal :=
  event (State.refuseKind tag kind) s

end Sys2Proof.Machine
end

