-- ==== Sys2Proof/Machine/LineRows.lean ====
section
/-!
DEFINITION. The meanings of the cartridge lines' rows (chapter 7) and of the standby rows (R177).
-/

namespace Sys2Proof.Machine

/-- CCU sends the poll that is due on bay `p` (R136). -/
def State.sendStatus (s : State) (p : Fin 4) : State :=
  if (s.bay p).pollDue then (s.waitDue p).sendFrame p .status 0 [] else s

/-- CCU sends IDENT_REQ on bay `p` in IDENTIFYING (R136, R138). -/
def State.sendIdent (s : State) (p : Fin 4) : State :=
  if (s.bay p).canSend ∧ (s.bay p).state = .identifying then (s.waitDue p).sendFrame p .ident 0 [] else s

/-- CCU sends PROVE_REQ with a fresh nonce on bay `p` in PROVING (R136, R140). -/
def State.sendProve (s : State) (p : Fin 4) : State :=
  if (s.bay p).canSend ∧ (s.bay p).state = .proving then
    ((s.waitDue p).sendFrame p .prove (Config.randomNonce s.draws) (word8Bytes (Config.randomNonce s.draws))).draw
  else s

/-- The payload of a DEBIT_REQ (section 11.5). -/
def OpenDebit.payload (d : OpenDebit) : List Byte :=
  leBytes 2 d.seq.toNat ++ leBytes 2 d.amount ++ word8Bytes d.nonce

/-- CCU sends the waiting debit request of bay `p` (R136, R146): sends made rises by one. -/
def State.sendDebit (s : State) (p : Fin 4) : State :=
  match (s.bay p).openDebit with
  | some d =>
    if (s.bay p).canSend ∧ (s.bay p).state = .genuine ∧ (s.bay p).waiting then
      (s.modBay p fun b =>
        { b with waiting := false, openDebit := some { d with sends := d.sends + 1 } }).sendFrame p .debit d.nonce d.payload
    else s
  | none => s

/-- The exchange in progress on bay `p` fails by its deadline, more than 20 ms after the moment it is measured from
(R134). -/
def State.timeOut (s : State) (p : Fin 4) : State :=
  match (s.bay p).line with
  | some e => (s.waitUntil e.since 21).exchangeFailed p (e.kind == .debit)
  | none => s

/-- The first byte of a reply arrives in time (R134): 20 ms for its end start now. -/
def State.replyBegins (s : State) (p : Fin 4) : State :=
  match (s.bay p).line with
  | some e =>
    if e.begun || s.deadlineMissed e then s
    else s.modBay p fun b => { b with line := some { e with begun := true, since := s.ms } }
  | none => s

/-- STATUS_REQ (R136): CCU polls a bay. -/
def execStatusReq (bay : Fin 4) (s : State) : Host.Outcome State Fault Refusal := event (fun t => t.sendStatus bay) s

/-- IDENT_REQ (R136, R138): CCU asks a cartridge for its identity. -/
def execIdentReq (bay : Fin 4) (s : State) : Host.Outcome State Fault Refusal := event (fun t => t.sendIdent bay) s

/-- PROVE_REQ (R136, R140): CCU sends a challenge. -/
def execProveReq (bay : Fin 4) (s : State) : Host.Outcome State Fault Refusal := event (fun t => t.sendProve bay) s

/-- DEBIT_REQ (R136, R146): CCU sends the waiting debit request. -/
def execDebitReq (bay : Fin 4) (s : State) : Host.Outcome State Fault Refusal := event (fun t => t.sendDebit bay) s

/-- STATUS_REP (R135, R138, R141 to R143): a STATUS_REP frame ends. -/
def execStatusRep (bay : Fin 4) (frame : List Byte) (s : State) : Host.Outcome State Fault Refusal :=
  event (fun t => t.replyEnds .status bay frame) s

/-- IDENT_REP (R135, R138): an IDENT_REP frame ends. -/
def execIdentRep (bay : Fin 4) (frame : List Byte) (s : State) : Host.Outcome State Fault Refusal :=
  event (fun t => t.replyEnds .ident bay frame) s

/-- PROVE_REP (R135, R140): a PROVE_REP frame ends. -/
def execProveRep (bay : Fin 4) (frame : List Byte) (s : State) : Host.Outcome State Fault Refusal :=
  event (fun t => t.replyEnds .prove bay frame) s

/-- DEBIT_REP (R135, R147): a DEBIT_REP frame ends. -/
def execDebitRep (bay : Fin 4) (frame : List Byte) (s : State) : Host.Outcome State Fault Refusal :=
  event (fun t => t.replyEnds .debit bay frame) s

/-- EXCHANGE_TIMEOUT (R134): a reply deadline is missed. -/
def execExchangeTimeout (bay : Fin 4) (s : State) : Host.Outcome State Fault Refusal := event (fun t => t.timeOut bay) s

/-- REPLY_FRAME_BEGINS (R134): the first byte of a reply arrives. -/
def execReplyFrameBegins (bay : Fin 4) (s : State) : Host.Outcome State Fault Refusal :=
  event (fun t => t.replyBegins bay) s

/-- STANDBY_DRAIN_END (R177), standing alone: DRAIN ends if it may, and ERASE and DETACH follow. -/
def execStandbyDrainEnd (s : State) : Host.Outcome State Fault Refusal := event State.drainEnd s

/-- FLUSH_COMPLETE (R128, R177), standing alone: FLUSH ends if every record is CLEAN. -/
def execFlushComplete (s : State) : Host.Outcome State Fault Refusal := event State.flushEnd s

/-- STANDBY_POST_END (R177), standing alone: POST ends if it may. -/
def execStandbyPostEnd (s : State) : Host.Outcome State Fault Refusal := event State.postEnd s

end Sys2Proof.Machine
end

