-- ==== Sys2Proof/Machine/PathRows.lean ====
section
/-!
DEFINITION. The meanings of the memory path's rows, and of the commit, record and job steps.
-/

namespace Sys2Proof.Machine

/-- TAKE_TRANSACTION (R3, R5): a transaction may be presented, and PFE takes the head of a channel if it may. -/
def execTakeTransaction (channel : Dir) (presented : Option Txn) (s : State) : Host.Outcome State Fault Refusal :=
  event (fun t => (t.present presented).takePort channel) s

/-- RELEASED_TAKEN (R18): PFE takes the oldest released transaction again. -/
def execReleasedTaken (s : State) : Host.Outcome State Fault Refusal := event State.takeReleased s

/-- DOWNSTREAM_GRANT (R26): the arbiter grants a free credit. -/
def execDownstreamGrant (s : State) : Host.Outcome State Fault Refusal := event State.grant s

/-- READ_RETURN (R23): DN completes a forwarded read. -/
def execReadReturn (ref : DnRef) (okay : Bool) (lines : List Line) (s : State) : Host.Outcome State Fault Refusal :=
  event (fun t => t.completeRead ref okay lines) s

/-- WRITE_ANSWER (R24): DN answers a forwarded write. -/
def execWriteAnswer (ref : DnRef) (okay : Bool) (s : State) : Host.Outcome State Fault Refusal :=
  event (fun t => t.completeWriteAt ref okay) s

/-- COMMIT_COMPLETION (R15), standing alone: the pending commit completes if it is due. -/
def execCommitCompletion (s : State) : Host.Outcome State Fault Refusal := event State.completeCommit s

/-- RECORD_SETTLE (R84), standing alone: every due record settles. -/
def execRecordSettle (s : State) : Host.Outcome State Fault Refusal := event State.settleDue s

/-- JOB_LEAVES_CLOSING (R53), standing alone: the job leaves CLOSING if it may. -/
def execJobLeavesClosing (job : Fin 16) (s : State) : Host.Outcome State Fault Refusal :=
  event (fun t => t.leaveIfDue job) s

end Sys2Proof.Machine
end

