-- ==== Sys2Proof/Machine/Resets.lean ====
section
/-!
DEFINITION. Power-on reset (R27, R42, R66, R89, R109, R133, R154, R167, R175, R184), loss of supply (R127), the end of
LOADING (R130, R183) and link reset (R28, R40, R64, R89, R108, R175, R179, R184).
-/

namespace Sys2Proof.Machine

/-! ## Supply (R127, R27) -/

/-- AMEM keeps its contents; a write in flight is torn (R127). -/
def State.tearWrite (s : State) : State :=
  match s.ace.writing with
  | some c => { s with amem := s.amem.tear s.losses c, losses := s.losses + 1 }
  | none => s

/-- Every volatile store at its value after POR, with the straps sampled; AMEM, the wake pin's level and the queue of
commands stand, and the model's counts go on. -/
def State.volatileReset (s : State) (straps : BitVec 2) : State :=
  { State.reset with
    amem := s.amem, rci := { Rci.por straps with wakePin := s.rci.wakePin }, draws := s.draws, losses := s.losses
    pending := s.pending }

/-- Supply is lost: the volatile stores are lost, and they stand at the values POR will give them (log entry 18). -/
def State.loseSupply (s : State) : State :=
  if s.powered then { s.tearWrite.volatileReset s.rci.straps with powered := false } else s.beginEvent

/-- POR: supply is applied (R27). A POR while supply is present is a loss of supply followed by its return (log entry 18). -/
def State.powerOn (s : State) (straps : BitVec 2) : State :=
  (if s.powered then s.tearWrite else s).volatileReset straps

/-! ## The end of LOADING (R130, R183) -/

/-- RCI's part in the end of LOADING (R180): ANCHORED if an anchor is held, and then the anchoring event. -/
def State.leaveLoading (s : State) : State :=
  if s.rci.rings.isSome then s.anchoring else { s with rci := { s.rci with startup := .awaitAnchor } }

/-- LOADING ends, if it lasts (R130, R131, R136). -/
def State.finishLoading (s : State) : State :=
  if s.rci.startup = .loading then s.endLoad.leaveLoading.firstPolls else s

/-! ## Link reset -/

/-- The forwarded transactions that LRST leaves issued on DN without a slot (R28). -/
def State.issuedOrphans (s : State) : List Orphan :=
  (List.finRange 32).filterMap (fun i => (s.issuedRead? i).map fun r => ⟨.read, r.addr, r.len⟩)
    ++ (List.finRange 32).filterMap fun i => (s.issuedWrite? i).map fun w => ⟨.write, w.addr, w.lines.length⟩

/-- An internal transaction of RCI. -/
def InternalSlot.isRci (x : InternalSlot) : Bool :=
  match x.purpose with
  | .fetch _ => true
  | .reportSlot _ _ _ => true
  | .indexWrite _ _ => true
  | .wipeWrite _ _ _ => false
  | .verifyRead _ _ => false

/-- An internal slot at LRST (R28): RCI's is freed when it waits in the list, and its completion is voided when it is
issued; WPE's goes on. -/
def Down.resetSlot (d : Down) (i : Fin 8) : Option InternalSlot :=
  match d.internal[i] with
  | none => none
  | some x => if x.isRci then (if d.internalList.contains i then none else some { x with discard := true }) else some x

/-- The downstream port at LRST (R28). -/
def Down.linkReset (d : Down) (issued : List Orphan) : Down :=
  { internal := Vector.ofFn d.resetSlot
    credits := d.credits
    forwarded := []
    internalList := d.internalList.filter fun i => !(d.internal[i]).any InternalSlot.isRci
    run := 0
    orphans := d.orphans ++ issued }

/-- The lines in flight of a context's records are lost (R82). -/
def Context.loseLines (c : Context) : Context := { c with queue := c.queue.map fun r => { r with lines := 0 } }

/-- Every reference is gone, and the meter marks have settled with zero dots (R64 step 1). -/
def Jobs.loseLines (j : Jobs) : Jobs :=
  { (j.mapContexts Context.loseLines) with
    slots := (j.mapContexts Context.loseLines).slots.map fun q => { q with refs := 0 } }

/-- Step 1 of R64: every forwarded transaction's slot is freed, the meter marks settle with zero dots, and the reference
and in-flight counts are 0. -/
def State.freeTrackers (s : State) : State :=
  { s with
    path := { s.path with reads := Vector.replicate 32 none, writes := Vector.replicate 32 none }
    down := s.down.linkReset s.issuedOrphans
    rgt := { s.rgt with inFlight := Vector.replicate 32 0 }
    jct := s.jct.loseLines }

/-- Every record of every context, in the order of opening. -/
def Jobs.allRecords (j : Jobs) : List PageRecord := sortRecords (j.contexts.flatMap fun m => m.ctx.queue)

/-- Steps 2 and 3 of R64: every record is force-closed and settles without a report (R108), every context is discarded,
and the marking register and the stack are emptied. That the records of all contexts settle in the order of opening is the model's
choice, as no report shows it (log entry 42). -/
def State.endContexts (s : State) : State :=
  let t := (s.jct.allRecords.map PageRecord.forceClose).foldl (State.settle false) s
  { t with jct := { t.jct with
      marking := none, stack := [], slots := t.jct.slots.map fun q => { q with own := none } } }

/-- Step 4 of R64 for one forced job: its wipe entries join while the queue has room, and the number appended is kept in its
wipes outstanding; the skipped ranges are reported (R169). -/
def State.forceWipes (s : State) (j : Fin 16) : State :=
  let rs := s.wipeRanges j
  let app := rs.take s.wpe.room
  ((s.appendWipes j app).modJob j fun q => { q with wipes := app.length }).reportSkipped j app.length
    (rs.drop app.length) .queueFull

/-- Step 6 of R64 for one forced job. -/
def JobSlot.forced (q : JobSlot) : JobSlot :=
  if q.wipes = 0 then q.freed else { q with state := .wiping, closePending := false }

/-- Step 6 of R64. -/
def State.forceState (s : State) (j : Fin 16) : State := s.modJob j JobSlot.forced

/-- Step 5 of R64 (R40, R16): every key is destroyed, every entry is invalid, and a pending commit ends. -/
def State.clearKeysAndRegions (s : State) : State :=
  ({ s with keys := Vector.replicate 16 none } : State).setRegions
    { live := Vector.replicate 32 none, shadow := Vector.replicate 32 none, inFlight := s.rgt.inFlight, commit := none }

/-- Step 7 of R64 for a job, with its marked field as it stood. -/
def State.forceTellAs (s : State) (x : Fin 16 × Bool) : State := s.tellEnded (s.job x.1).user x.2

/-- The forcing of jobs at LRST (R64). Step 7 gives no order among the forced jobs: that ACE and TMU are told of them in ascending
slot order is the model's choice (log entry 10). -/
def State.forceJobs (s : State) : State :=
  let js := s.jct.liveJobs
  let marks := js.map fun j => (j, (s.job j).marked)
  let t := js.foldl State.forceWipes s.freeTrackers.endContexts
  marks.foldl State.forceTellAs (js.foldl State.forceState t.clearKeysAndRegions)

/-- PFE's other state at LRST (R28). -/
def Path.linkReset (p : Path) : Path :=
  { Path.por with reads := p.reads, writes := p.writes }

/-- The bays were detached by a standby entry, or the part is in STANDBY (R136, R179). -/
def Standby.baysDetached : Standby → Bool
  | .running => false
  | .standby => true
  | .entering _ ph _ _ =>
    match ph with
    | .drain => false
    | .flush => true
    | .post => true

/-- RCI at LRST (R184). -/
def Rci.linkReset (r : Rci) (straps : BitVec 2) : Rci :=
  { Rci.por straps with
    startup := if r.startup = .loading then .loading else .awaitAnchor
    faultAt := r.faultAt, wakePin := r.wakePin }

/-- LRST (R28, R40, R64, R89, R108, R133, R154, R175, R179, R184). The reports that it hands join after the emptying of the
Report Queue. -/
def State.linkReset (s : State) (straps : BitVec 2) : State :=
  let t := { s with path := s.path.linkReset, rci := s.rci.linkReset straps }
  let t := t.forceJobs
  if s.rci.standby.baysDetached then t.firstPolls else t

end Sys2Proof.Machine
end

