-- ==== Sys2Proof/Machine/PinRows.lean ====
section
/-!
DEFINITION. The meanings of the pin and supply rows: POR, LRST, WAKE, LOADING_END, SUPPLY_LOSS.
-/

namespace Sys2Proof.Machine

/-- POR (R27): supply is applied, every volatile store takes its reset value, the straps are sampled, LOADING begins. -/
def execPor (straps : BitVec 2) (s : State) : Host.Outcome State Fault Refusal := .next (s.powerOn straps)

/-- LRST (R28, R64): the link-reset pin is asserted, with the straps as they are sampled. -/
def execLrst (straps : BitVec 2) (s : State) : Host.Outcome State Fault Refusal := resetEvent (fun t => t.linkReset straps) s

/-- The wake pin's level (R178). -/
def State.setWakePin (s : State) (asserted : Bool) : State := { s with rci := { s.rci with wakePin := asserted } }

/-- WAKE (R178): the wake pin takes a level; the part wakes if it is in STANDBY and the pin is asserted. -/
def execWake (asserted : Bool) (s : State) : Host.Outcome State Fault Refusal :=
  event (fun t => t.setWakePin asserted) s

/-- LOADING_END (R130): the AMEM load ends. -/
def execLoadingEnd (s : State) : Host.Outcome State Fault Refusal := event State.finishLoading s

/-- SUPPLY_LOSS (R127): supply is lost, and a write in flight is torn. -/
def execSupplyLoss (s : State) : Host.Outcome State Fault Refusal := .next s.loseSupply

end Sys2Proof.Machine
end

