-- ==== Sys2Proof/Machine/RingRows.lean ====
section
/-!
DEFINITION. The meanings of RCI's rows: fetch, report posting, index writes and ACCOUNT_FAULT.
-/

namespace Sys2Proof.Machine

/-- FETCH_START (R186): RCI hands the arbiter the fetch read of the command at the head. -/
def execFetchStart (s : State) : Host.Outcome State Fault Refusal := event State.startFetch s

/-- FETCH_READ_RETURN (R186, R187): the fetch read returns, and the command is executed, fetched again or skipped. -/
def execFetchReadReturn (slot : Fin 8) (okay : Bool) (line : Line) (s : State) : Host.Outcome State Fault Refusal :=
  event (fun t => t.returnFetch slot okay line) s

/-- REPORT_WRITE_ISSUE (R190): RCI hands the next slot write of the head report. -/
def execReportWriteIssue (s : State) : Host.Outcome State Fault Refusal := event State.issueReportWrite s

/-- REPORT_WRITE_ANSWER (R190): DN answers a report slot write. -/
def execReportWriteAnswer (slot : Fin 8) (okay : Bool) (s : State) : Host.Outcome State Fault Refusal :=
  event (fun t => t.answerReportWrite slot okay) s

/-- INDEX_WRITE_ISSUE (R190): RCI hands the report index line write, if it is due. -/
def execIndexWriteIssue (s : State) : Host.Outcome State Fault Refusal := event State.issueIndexWrite s

/-- INDEX_WRITE_ANSWER (R190): DN answers the report index line write. -/
def execIndexWriteAnswer (slot : Fin 8) (okay : Bool) (s : State) : Host.Outcome State Fault Refusal :=
  event (fun t => t.answerIndexWrite slot okay) s

/-- ACCOUNT_FAULT (R132, R189), standing alone: a waiting report joins if an entry is free. -/
def execAccountFault (s : State) : Host.Outcome State Fault Refusal := event State.joinFault s

end Sys2Proof.Machine
end

