-- ==== Sys2Proof/Machine/WipeRows.lean ====
section
/-!
DEFINITION. The meanings of the Wipe Engine's rows.
-/

namespace Sys2Proof.Machine

/-- WIPE_START (R170), standing alone: the head entry leaves WAITING if its range is quiet. -/
def execWipeStart (s : State) : Host.Outcome State Fault Refusal := event State.startWipe s

/-- WIPE_WRITE_ISSUE (R170): WPE hands the arbiter the next pattern write. -/
def execWipeWriteIssue (s : State) : Host.Outcome State Fault Refusal := event State.issueWipeWrite s

/-- WIPE_WRITE_ANSWER (R170): DN answers a pattern write. -/
def execWipeWriteAnswer (slot : Fin 8) (okay : Bool) (s : State) : Host.Outcome State Fault Refusal :=
  event (fun t => t.answerWipeWrite slot okay) s

/-- VERIFY_READ_ISSUE (R172): WPE hands the arbiter the next verify read. -/
def execVerifyReadIssue (s : State) : Host.Outcome State Fault Refusal := event State.issueVerifyRead s

/-- VERIFY_READ_RETURN (R172): a verify read returns. -/
def execVerifyReadReturn (slot : Fin 8) (okay : Bool) (lines : List Line) (s : State) : Host.Outcome State Fault Refusal :=
  event (fun t => t.returnVerifyRead slot okay lines) s

/-- WIPE_DONE (R173), standing alone: the head entry completes if it is done. -/
def execWipeDone (s : State) : Host.Outcome State Fault Refusal := event State.finishWipe s

end Sys2Proof.Machine
end

