-- ==== Sys2Proof/Machine/Dispatch.lean ====
section
/-! DEFINITION. One arm for each command of the table: a direct call of its meaning. -/

namespace Sys2Proof.Machine

def exec (i : Instr) (s : State) : Host.Outcome State Fault Refusal :=
  match i with
  | .por straps => Sys2Proof.Machine.execPor straps s
  | .lrst straps => Sys2Proof.Machine.execLrst straps s
  | .wake asserted => Sys2Proof.Machine.execWake asserted s
  | .loadingEnd => Sys2Proof.Machine.execLoadingEnd s
  | .takeTransaction channel presented => Sys2Proof.Machine.execTakeTransaction channel presented s
  | .releasedTaken => Sys2Proof.Machine.execReleasedTaken s
  | .downstreamGrant => Sys2Proof.Machine.execDownstreamGrant s
  | .readReturn ref okay lines => Sys2Proof.Machine.execReadReturn ref okay lines s
  | .writeAnswer ref okay => Sys2Proof.Machine.execWriteAnswer ref okay s
  | .commitCompletion => Sys2Proof.Machine.execCommitCompletion s
  | .recordSettle => Sys2Proof.Machine.execRecordSettle s
  | .jobLeavesClosing job => Sys2Proof.Machine.execJobLeavesClosing job s
  | .wipeStart => Sys2Proof.Machine.execWipeStart s
  | .wipeWriteIssue => Sys2Proof.Machine.execWipeWriteIssue s
  | .wipeWriteAnswer slot okay => Sys2Proof.Machine.execWipeWriteAnswer slot okay s
  | .verifyReadIssue => Sys2Proof.Machine.execVerifyReadIssue s
  | .verifyReadReturn slot okay lines => Sys2Proof.Machine.execVerifyReadReturn slot okay lines s
  | .wipeDone => Sys2Proof.Machine.execWipeDone s
  | .fetchStart => Sys2Proof.Machine.execFetchStart s
  | .fetchReadReturn slot okay line => Sys2Proof.Machine.execFetchReadReturn slot okay line s
  | .reportWriteIssue => Sys2Proof.Machine.execReportWriteIssue s
  | .reportWriteAnswer slot okay => Sys2Proof.Machine.execReportWriteAnswer slot okay s
  | .indexWriteIssue => Sys2Proof.Machine.execIndexWriteIssue s
  | .indexWriteAnswer slot okay => Sys2Proof.Machine.execIndexWriteAnswer slot okay s
  | .accountFault => Sys2Proof.Machine.execAccountFault s
  | .amemWriteStart => Sys2Proof.Machine.execAmemWriteStart s
  | .amemWriteComplete => Sys2Proof.Machine.execAmemWriteComplete s
  | .lockoutExpiry => Sys2Proof.Machine.execLockoutExpiry s
  | .statusReq bay => Sys2Proof.Machine.execStatusReq bay s
  | .identReq bay => Sys2Proof.Machine.execIdentReq bay s
  | .proveReq bay => Sys2Proof.Machine.execProveReq bay s
  | .debitReq bay => Sys2Proof.Machine.execDebitReq bay s
  | .statusRep bay frame => Sys2Proof.Machine.execStatusRep bay frame s
  | .identRep bay frame => Sys2Proof.Machine.execIdentRep bay frame s
  | .proveRep bay frame => Sys2Proof.Machine.execProveRep bay frame s
  | .debitRep bay frame => Sys2Proof.Machine.execDebitRep bay frame s
  | .exchangeTimeout bay => Sys2Proof.Machine.execExchangeTimeout bay s
  | .standbyDrainEnd => Sys2Proof.Machine.execStandbyDrainEnd s
  | .flushComplete => Sys2Proof.Machine.execFlushComplete s
  | .standbyPostEnd => Sys2Proof.Machine.execStandbyPostEnd s
  | .regionSet tag p => Sys2Proof.Machine.execRegionSet tag p s
  | .regionClear tag index => Sys2Proof.Machine.execRegionClear tag index s
  | .regionsCommit tag => Sys2Proof.Machine.execRegionsCommit tag s
  | .captureClear tag => Sys2Proof.Machine.execCaptureClear tag s
  | .jobOpen tag p => Sys2Proof.Machine.execJobOpen tag p s
  | .jobRelease tag job pin => Sys2Proof.Machine.execJobRelease tag job pin s
  | .jobClose tag job => Sys2Proof.Machine.execJobClose tag job s
  | .jobQuery tag job => Sys2Proof.Machine.execJobQuery tag job s
  | .markSelect tag job => Sys2Proof.Machine.execMarkSelect tag job s
  | .markInterrupt tag job => Sys2Proof.Machine.execMarkInterrupt tag job s
  | .markResume tag => Sys2Proof.Machine.execMarkResume tag s
  | .classSet tag p => Sys2Proof.Machine.execClassSet tag p s
  | .tariffSet tag p => Sys2Proof.Machine.execTariffSet tag p s
  | .userSet tag p => Sys2Proof.Machine.execUserSet tag p s
  | .userAdjust tag pin user amount => Sys2Proof.Machine.execUserAdjust tag pin user amount s
  | .userQuery tag pin user => Sys2Proof.Machine.execUserQuery tag pin user s
  | .deptSet tag pin dept allowance => Sys2Proof.Machine.execDeptSet tag pin dept allowance s
  | .periodReset tag pin which => Sys2Proof.Machine.execPeriodReset tag pin which s
  | .meterQuery tag pin => Sys2Proof.Machine.execMeterQuery tag pin s
  | .servicePinSet tag pin newPin => Sys2Proof.Machine.execServicePinSet tag pin newPin s
  | .bayQuery tag bay => Sys2Proof.Machine.execBayQuery tag bay s
  | .bayConfig tag p => Sys2Proof.Machine.execBayConfig tag p s
  | .wipeRange tag p => Sys2Proof.Machine.execWipeRange tag p s
  | .standbyEnter tag mode => Sys2Proof.Machine.execStandbyEnter tag mode s
  | .unknownKind tag kind => Sys2Proof.Machine.execUnknownKind tag kind s
  | .replyFrameBegins bay => Sys2Proof.Machine.execReplyFrameBegins bay s
  | .supplyLoss => Sys2Proof.Machine.execSupplyLoss s

end Sys2Proof.Machine
end

