-- ==== Sys2Proof/Safety.lean ====
section
/-!
DEFINITION. What counts as a safe state of the part, in the terms the statements use: nothing that the manual makes happen
at once is left undone, and the laws of the device that the chapters name hold.
-/

namespace Sys2Proof.Machine

/-! ## Nothing is due -/

/-- No record of any context waits to settle (R84), and no own context is empty (R57). -/
def Jobs.metered (j : Jobs) : Bool :=
  j.due.isEmpty && j.slots.toList.all fun q => !(q.own.any fun c => c.queue.isEmpty)

/-- The phase of standby entry has not reached its end (R177), and a flush has left no record untriggered (R128). -/
def State.standbySettled (s : State) : Bool :=
  match s.rci.standby with
  | .running => true
  | .standby => !s.rci.wakePin
  | .entering _ ph _ _ =>
    match ph with
    | .drain => !s.drained
    | .flush => !s.ace.flushed && allRecords.all fun r => s.ace.wb r != .dirty
    | .post => !s.posted

/-- Nothing that an event must bring about at once is left undone: no record to settle (R84), no commit to complete (R15),
no wipe to complete (R173) or to start (R170), no job to leave CLOSING (R52), no phase of standby entry to end (R177), no
ACCOUNT_FAULT to join while the part is ANCHORED (R189; one that LRST kept joins in the event after it, R184), no wake
(R178). -/
def State.nothingDue (s : State) : Bool :=
  s.jct.metered && !s.rgt.commitDue && !s.wpe.doneDue && (List.finRange 16).all (fun j => !s.mayLeave j)
    && !s.wipeStartDue && s.standbySettled && !(s.rci.startup == .anchored && s.rci.faultWaiting && s.rci.hasEntry false)

/-- The part rests between events while it runs: supply is present, it is not entering or in standby, no ACCOUNT_FAULT
waits, and nothing is due. -/
def State.resting (s : State) : Bool :=
  s.powered && s.rci.standby == .running && !s.rci.faultWaiting && s.nothingDue

/-- No job is in CLOSING. -/
def State.noneClosing (s : State) : Bool := s.jct.slots.toList.all fun q => q.state != .closing

/-- The part rests, and a ring command may be executed now, with no job in CLOSING. -/
def State.ready (s : State) : Bool := s.resting && s.commandReady && !s.rci.held && s.noneClosing

/-! ## The end of an event in closed form -/

/-- RCI with one more report in its queue, which had room: the report carries the loss before it (R188). -/
def Rci.joined (r : Rci) (b : ReportBody) (tag : BitVec 16) (ms : BitVec 32) : Rci :=
  { r with
    queue := r.queue ++ [⟨b, tag, ms, r.droppedMark, if r.droppedMark then r.lost else 0⟩], lost := 0, droppedMark := false }

/-- The state after an event that hands one report, with these outputs. -/
def State.reported (s : State) (b : ReportBody) (tag : BitVec 16) (out : List Output := []) : State :=
  { s with out := out, handed := [], rci := s.rci.joined b tag s.ms }

/-- The state after an event that hands no report, with these outputs. -/
def State.quietly (s : State) (out : List Output := []) : State := { s with out := out, handed := [] }

/-- The state after the event of a command whose owner gives this answer. -/
def answered (kind tag : BitVec 16) (a : Answer) : State := a.2.reported (.result kind a.1.1 a.1.2) tag

/-- The state after a command that is refused and changes nothing but the Report Queue. -/
def State.refused (s : State) (kind tag : BitVec 16) (code : ResultCode) : State :=
  s.reported (.result kind code .none) tag

/-- Nothing keeps an event from ending where its effect leaves it: the part runs, no ACCOUNT_FAULT waits, nothing is due. -/
def State.still (s : State) : Bool := s.rci.standby == .running && !s.rci.faultWaiting && s.nothingDue

/-- The state after an event that has no consequences: its reports have joined, in order. -/
def State.concluded (s : State) : State := { ((joinOrder s.handed).foldl State.joinOne s) with handed := [] }

/-- The state after the denial `x` of transaction `t` (R19, R20), with its report in the queue if one is handed. -/
def State.denied (s : State) (t : Txn) (x : Denial) : State :=
  let rec' : CaptureRec := ⟨t.source, t.dir, t.addr, x.entry, x.reason⟩
  let answer : Output :=
    .response t.id t.dir (x.behaviour != .error) (if t.dir = .read then List.replicate t.len onesLine else [])
  if x.reason ≠ .closed ∧ (s.path.captureMode = .any ∨ t.dir = .write) then
    let u : State := { s with path := { s.path with
      capture := some (s.path.capture.getD rec'), captureCount := min 65535 (s.path.captureCount + 1) } }
    if s.path.capture = none then u.reported (.violation true rec') 0 [answer]
    else if x.behaviour = .trap then u.reported (.violation false rec') 0 [answer]
    else u.quietly [answer]
  else if x.behaviour = .trap then s.reported (.violation false rec') 0 [answer]
  else s.quietly [answer]

/-- The state after a tracker slot of entry `e` and job `j` is taken: their counts rise by one (R9, R25). -/
def State.counted (s : State) (e : Option (Fin 32)) (j : Option (Fin 16)) : State :=
  { s with
    rgt := match e with
      | none => s.rgt
      | some i => { s.rgt with inFlight := s.rgt.inFlight.set i (s.rgt.inFlight[i] + 1) }
    jct := match j with
      | none => s.jct
      | some j => { s.jct with slots := s.jct.slots.set j { s.jct.slots[j] with refs := s.jct.slots[j].refs + 1 } } }

/-- The state after a tracker slot of entry `e` and job `j` is freed (R9, R25) and its credit is back (R26). -/
def State.uncounted (s : State) (e : Option (Fin 32)) (j : Option (Fin 16)) : State :=
  { s with
    down := { s.down with credits := s.down.credits + 1 }
    rgt := match e with
      | none => s.rgt
      | some i => { s.rgt with inFlight := s.rgt.inFlight.set i (s.rgt.inFlight[i] - 1) }
    jct := match j with
      | none => s.jct
      | some j => { s.jct with slots := s.jct.slots.set j { s.jct.slots[j] with refs := s.jct.slots[j].refs - 1 } } }

/-- The tag of a command and the service PIN it carries, if it is one of the ten admin commands (R114). -/
def adminPin? : Instr → Option (BitVec 16 × Word8)
  | .classSet tag p => some (tag, p.pin) | .tariffSet tag p => some (tag, p.pin) | .userSet tag p => some (tag, p.servicePin)
  | .userAdjust tag pin _ _ => some (tag, pin) | .userQuery tag pin _ => some (tag, pin)
  | .deptSet tag pin _ _ => some (tag, pin) | .periodReset tag pin _ => some (tag, pin)
  | .meterQuery tag pin => some (tag, pin) | .servicePinSet tag pin _ => some (tag, pin)
  | .bayConfig tag p => some (tag, p.pin)
  | _ => none

/-- The state in which an admin command's steps after the credential check run: no lockout is in force, the PIN matches, and
the failure count becomes 0 (R114). -/
def State.checked (s : State) : State := { s with ace := s.ace.serviceFailures 0 }

/-- The credential check passes (R114). -/
def State.passes (s : State) (pin : Word8) : Bool :=
  s.ace.lockout.isNone && decide (Config.serviceDigest pin = s.ace.service.digest)

/-! ## Laws of the device -/

/-- The law of the Violation Capture (R20): the count is at least 1 whenever the record is valid, and at most 65535. -/
def Path.captureLaw (p : Path) : Prop := (p.capture.isSome → 1 ≤ p.captureCount) ∧ p.captureCount ≤ 65535

/-- The law of the key slots (R30): key slot `i` is LIVE exactly when job slot `i` is OPEN, HELD or CLOSING. -/
def State.keyLaw (s : State) : Prop := ∀ j : Fin 16, (s.keys[j]).isSome = (s.job j).state.live

/-- The law of the keys themselves (R30, R31): each LIVE key is that of an earlier draw, and no two slots have the same. -/
def State.drawnLaw (s : State) : Prop :=
  (∀ j : Fin 16, ∀ k ∈ s.keys[j], ∃ n, n < s.draws ∧ k = Config.randomKey n)
    ∧ ∀ i j : Fin 16, i ≠ j → ∀ k ∈ s.keys[i], s.keys[j] ≠ some k

/-- The bounds of the marking register and the Marking Stack (R56): at most 4 entries, and distinct slots. -/
def Jobs.stackLaw (j : Jobs) : Prop :=
  j.stack.length ≤ 4 ∧ ((j.marking.toList ++ j.stack).map Marked.job).Nodup

/-- No Page Assembly Queue holds more than 4 records (R88). -/
def Jobs.queueLaw (j : Jobs) : Prop := ∀ m ∈ j.contexts, m.ctx.queue.length ≤ 4

/-- The capacities of the queues (spec/00_scope.md, CAPACITIES): Hold Queue 8, Report Queue 16, Wipe Queue 32, Account
Write-back Queue 16, Departed Cartridge List 8. -/
def State.capacities (s : State) : Prop :=
  s.path.hold.length ≤ 8 ∧ s.rci.queue.length ≤ 16 ∧ s.wpe.queue.length ≤ 32 ∧ s.ace.queue.length ≤ 16
    ∧ s.ccu.departed.length ≤ 8

/-- The forwarded reads that are issued on DN. -/
def State.readsOut (s : State) : Nat := ((List.finRange 32).filter fun i => (s.issuedRead? i).isSome).length

/-- The forwarded writes that are issued on DN. -/
def State.writesOut (s : State) : Nat := ((List.finRange 32).filter fun i => (s.issuedWrite? i).isSome).length

/-- The internal transactions that are issued on DN. -/
def Down.internalOut (d : Down) : Nat := ((List.finRange 8).filter fun i => (d.outstanding? i).isSome).length

/-- The transactions outstanding on DN: those of the trackers, the internal ones, and those that LRST left without a slot
(R26, R28). -/
def State.outstanding (s : State) : Nat := s.readsOut + s.writesOut + s.down.internalOut + s.down.orphans.length

/-- A forwarded reference names an occupied slot. -/
def Path.occupied (p : Path) : FwdRef → Bool
  | .read i => (p.reads[i]).isSome
  | .write i => (p.writes[i]).isSome

/-- The law of the credits (R26): each transaction outstanding on DN keeps one of the 48 credits, and the two lists hold
occupied slots, each once. -/
def State.creditLaw (s : State) : Prop :=
  s.down.credits + s.outstanding = 48
    ∧ s.down.forwarded.Nodup ∧ (∀ f ∈ s.down.forwarded, s.path.occupied f = true)
    ∧ s.down.internalList.Nodup ∧ ∀ i ∈ s.down.internalList, (s.down.internal[i]).isSome = true

/-- The tracker slots that name job `j` (R25). -/
def State.slotsOfJob (s : State) (j : Fin 16) : Nat :=
  ((List.finRange 32).filter fun i => (s.path.reads[i]).any fun r => r.job == some j).length
    + ((List.finRange 32).filter fun i => (s.path.writes[i]).any fun w => w.job == some j).length

/-- The tracker slots that name entry `k` as their matched entry (R9). -/
def State.slotsOfEntry (s : State) (k : Fin 32) : Nat :=
  ((List.finRange 32).filter fun i => (s.path.reads[i]).any fun r => r.entry == some k).length
    + ((List.finRange 32).filter fun i => (s.path.writes[i]).any fun w => w.entry == some k).length

/-- The law of the counts (R9, R25): a job's reference count and an entry's in-flight count are the numbers of tracker slots that
name them, and no slot names a job that is FREE or WIPING. -/
def State.referenceLaw (s : State) : Prop :=
  (∀ j : Fin 16, (s.job j).refs = s.slotsOfJob j ∧ ((s.job j).state.live = false → (s.job j).refs = 0))
    ∧ ∀ k : Fin 32, s.rgt.inFlight[k] = s.slotsOfEntry k

/-! ## Marking jobs (R56) -/

/-- An internal slot carries a command fetch whose completion counts. -/
def InternalSlot.isFetch (x : InternalSlot) : Bool :=
  match x.purpose with
  | .fetch _ => !x.discard
  | .reportSlot _ _ _ => false
  | .indexWrite _ _ => false
  | .wipeWrite _ _ _ => false
  | .verifyRead _ _ => false

/-- One command at a time (R186), and only while commands are executed (R180, R176): a command is in hand exactly when a fetch is
on its way; and where no command is executed, no job marks or is stacked. -/
def State.commandLaw (s : State) : Prop :=
  ((List.finRange 8).filter fun i => (s.down.internal[i]).any InternalSlot.isFetch).length = (if s.rci.hand then 1 else 0)
    ∧ (s.rci.hand = true → s.rci.startup = .anchored ∧ s.rci.standby = .running)
    ∧ (s.rci.startup ≠ .anchored ∨ s.rci.standby ≠ .running → s.jct.marking = none ∧ s.jct.stack = [])

/-- The law of the marking jobs (R56): the marking job and the stacked ones are distinct slots, at most 4 are stacked, and each is
OPEN, HELD or CLOSING; only a stacked one is CLOSING, and then it has close pending. -/
def State.markingLaw (s : State) : Prop :=
  s.jct.stackLaw ∧ s.commandLaw
    ∧ (∀ m ∈ s.jct.marking, (s.job m.job).state.bindable = true)
    ∧ ∀ m ∈ s.jct.stack, (s.job m.job).state.bindable = true
        ∨ ((s.job m.job).state = .closing ∧ (s.job m.job).closePending = true)

/-! ## Reserved amounts (R99, R104) -/

/-- The open page records of every context. -/
def Jobs.records (j : Jobs) : List PageRecord := j.contexts.flatMap fun m => m.ctx.queue

/-- No open record has a name that is still to be given (log entry 12). -/
def State.namesLaw (s : State) : Prop := ∀ r ∈ s.jct.records, r.opened ≤ s.rmu.opened

/-- The sum of the reserves of the open page records of user `u`'s jobs. -/
def Jobs.reservesOf (j : Jobs) (u : Fin 256) : Nat := ((j.records.filter fun r => r.user == u).map PageRecord.reserve).sum

/-- The sum of the reserved amounts of the users of department `d`. -/
def Ace.reservedIn (a : Ace) (d : Fin 16) : Nat :=
  (((List.finRange 256).filter fun u => a.deptOf u == some d).map fun u => (a.users[u]).reserved).sum

/-- The law of the reserved amounts (R99): a user's reserved amount is the sum of the reserves of the open records of its jobs, and
a department's is that of its users. With it stands what keeps a record with its job's user: an own context is that of a CLOSING
job that neither marks nor is stacked (R57, R61), and a record's job and user are those of its context. -/
def State.reserveLaw (s : State) : Prop :=
  s.markingLaw
    ∧ (∀ j : Fin 16, (s.job j).own.isSome = true → s.rci.startup = .anchored ∧ (s.job j).state = .closing
        ∧ s.jct.isMarking j = false ∧ s.jct.isStacked j = false)
    ∧ (∀ j : Fin 16, (s.job j).closePending = true → (s.job j).state = .closing ∨ (s.job j).state = .wiping)
    ∧ (∀ m ∈ s.jct.contexts, ∀ r ∈ m.ctx.queue, r.job = m.job ∧ r.user = (s.job m.job).user)
    ∧ (∀ u : Fin 256, (s.ace.users[u]).reserved = s.jct.reservesOf u)
    ∧ ∀ d : Fin 16, (s.ace.depts[d]).reserved = s.ace.reservedIn d

/-- The user and department bounds (R104), with the upper end of the balance's field (R110). -/
def Ace.limitLaw (a : Ace) : Prop :=
  (∀ u : Fin 256, (a.users[u]).stored.balance ≤ 2 ^ 31 - 1
      ∧ -((a.users[u]).stored.overdraft : Int) ≤ (a.users[u]).stored.balance - (a.users[u]).reserved)
    ∧ ∀ (d : Fin 16) (limit : Nat), (a.depts[d]).stored.allowance = some limit →
        (a.depts[d]).stored.used + (a.depts[d]).reserved ≤ limit

/-- Every open record costs at most its reserve, whatever its dots, flags and plane states when it settles: what
`Obligations.ChargeWithinReserve` gives for a record whose planes are RASTER entries of its job. Every live RASTER geometry is in the
ranges of section 1.4 as far as a frame needs it. -/
def State.chargesCovered (s : State) : Prop :=
  (∀ (i : Fin 32), ∀ e ∈ s.rgt.live[i], ∀ r ∈ e.raster, 64 ≤ r.geom.stride ∧ 1 ≤ r.geom.frameLines)
    ∧ ∀ r ∈ s.jct.records, ∀ x : PageRecord, x.job = r.job →
        (∀ p : Fin 4, (x.planes[p]).map (fun q => (q.geom, q.chunks)) = (r.planes[p]).map fun q => (q.geom, q.chunks)) →
        (s.price x).charge ≤ r.reserve

/-- Every entry behind the head of the Wipe Queue is WAITING (R170), and every entry has at least one page (R168). -/
def Wpe.shapeLaw (w : Wpe) : Prop := (∀ e ∈ w.queue.tail, e.progress = .waiting) ∧ ∀ e ∈ w.queue, 1 ≤ e.count

/-- Every valid entry of the Region Table has at least one page (section 1.4). -/
def Regions.countLaw (g : Regions) : Prop :=
  ∀ i : Fin 32, (∀ e ∈ g.live[i], 1 ≤ e.count) ∧ ∀ e ∈ g.shadow[i], 1 ≤ e.count

/-- The generator of a pass stands at the bit with which its next line begins (R171). -/
def WipeEntry.patternLaw (e : WipeEntry) : Prop :=
  match e.progress with
  | .waiting => True
  | .pass _ next _ reg => reg = prbsRun (512 * next) (prbsSeed e.base)
  | .verify next _ reg => reg = prbsRun (512 * next) (prbsSeed e.base)

/-- The pattern law of every entry of the Wipe Queue. -/
def Wpe.patternLaw (w : Wpe) : Prop := ∀ e ∈ w.queue, e.patternLaw

/-- No job's bound range count is above the number of its distinct ranges (R44). -/
def State.boundLaw (s : State) : Prop := ∀ j : Fin 16, (s.job j).bound ≤ (s.rgt.rangesOf j).length

/-- The settled-state law: nothing is due, and the Wipe Queue, the Region Table and the bound range counts have the shapes
that keep it so. -/
def State.settledLaw (s : State) : Prop :=
  s.nothingDue = true ∧ s.wpe.shapeLaw ∧ s.rgt.countLaw ∧ s.boundLaw

/-! ## Toner accounts (R166) -/

/-- The toner metered for a plane, in picograms. -/
def Figures.metered (f : Figures) : Nat := f.meteredMg * pgPerMg + f.meteredPg

/-- The toner of a plane that is posted, in flight, pending at the bay or written off, in picograms. -/
def Figures.accounted (f : Figures) : Nat :=
  (f.postedMg + f.inFlight + f.pending + f.writtenMg) * pgPerMg + f.pg + f.writtenPg

/-- The toner that departed cartridges of plane `p` carry, in picograms. -/
def Ccu.departedPg (c : Ccu) (p : Fin 4) : Nat :=
  ((c.departed.filter fun d => d.plane == p).map fun d => d.mg * pgPerMg + d.pg).sum

/-- The law of the toner account of plane `p` (R166). -/
def State.tonerLaw (s : State) (p : Fin 4) : Prop := (s.plane p).metered = (s.plane p).accounted + s.ccu.departedPg p

/-- What keeps the toner account whole over a step: outside a round nothing is in flight; a stale debit and an unconfirmed one are
parts of what is pending, an open debit of what is pending and in flight, and a departed one of its share; and each of them stands
only in the bay states that the rules give it (R140, R146 to R149, R159 to R162). -/
def State.tonerShape (s : State) : Prop :=
  (∀ p : Fin 4,
    ((s.plane p).round = none → (s.plane p).inFlight = 0)
    ∧ (∀ a ∈ (s.plane p).stale, a ≤ (s.plane p).pending ∧ ((s.bay p).state = .genuine ∨ (s.bay p).state = .unproven))
    ∧ (∀ d ∈ (s.bay p).openDebit, d.amount ≤ (s.plane p).pending + (s.plane p).inFlight ∧ (s.bay p).state = .genuine)
    ∧ (∀ u ∈ (s.bay p).unconfirmed, u.amount ≤ (s.plane p).pending ∧ (s.bay p).state = .proving)
    ∧ ((s.bay p).state = .proving ∨ (s.bay p).state = .genuine ∨ (s.bay p).state = .unproven → (s.bay p).serial.isSome = true)
    ∧ ∀ e ∈ (s.bay p).line, e.kind = .debit → (s.bay p).state = .genuine)
  ∧ ∀ d ∈ s.ccu.departed, ∀ u ∈ d.unconfirmed, u.amount ≤ d.mg

end Sys2Proof.Machine
end

