-- ==== Sys2Proof/Certificates/Slice0/Obligations.lean ====
section
/-!
DEFINITION. The statements for the provers. Each is about the commands of spec/opcode_table.json or about what every step
keeps; its docstring names the rules it rests on. `s.resting` and `s.ready` (Sys2Proof/Safety.lean) say that nothing is due
at once, so that the command's own effect is all that happens; a statement without them holds of every powered state.
-/

open Sys2Proof Sys2Proof.Machine

/-! ## The queue of commands -/

/-- The command at the front of the queue runs with the queue's rest. On an empty queue, by the model's choice (log entry 19),
one millisecond passes while there is supply, and nothing else happens. -/
def Obligations.StepRunsFront : Prop :=
  (∀ (c : Instr) (rest : List Instr) (s : State), s.pending = c :: rest → step s = exec c { s with pending := rest })
  ∧ ∀ s : State, s.pending = [] → step s = .next (if s.powered then { s with ms := s.ms + 1 } else s)

/-- No command stops the part, whatever the state: each goes on to a next state, leaves the queue of commands alone, and
leaves no report handed and not joined or dropped (R188). That a row whose event cannot occur in the state goes on, and leaves the
part as it is, is the model's choice (log entry 1), and so is that no row touches the queue of commands (log entry 24). -/
def Obligations.EveryCommandGoesOn : Prop :=
  ∀ (c : Instr) (s : State), ∃ t, exec c s = .next t ∧ t.pending = s.pending ∧ t.handed = []

/-! ## Laws that every step keeps -/

/-- The laws of the device hold right after reset. -/
def Obligations.LawsAtReset : Prop :=
  State.reset.settledLaw ∧ State.reset.creditLaw ∧ State.reset.keyLaw ∧ State.reset.jct.stackLaw
    ∧ State.reset.jct.queueLaw ∧ State.reset.path.captureLaw ∧ State.reset.capacities ∧ State.reset.wpe.patternLaw
    ∧ (∀ p, State.reset.tonerLaw p)
    ∧ State.reset.referenceLaw ∧ State.reset.markingLaw ∧ State.reset.reserveLaw ∧ State.reset.ace.limitLaw
    ∧ State.reset.tonerShape ∧ State.reset.namesLaw ∧ State.reset.drawnLaw

/-- No step leaves undone what the manual makes happen at once: after every step no record waits to settle (R84), no commit
to complete (R15), no wipe to complete or start (R173, R170), no job to leave CLOSING (R52), no phase of standby to end
(R177), no ACCOUNT_FAULT to join (R189), and no wake to come (R178). -/
def Obligations.StepKeepsSettled : Prop := ∀ s t : State, s.settledLaw → step s = .next t → t.settledLaw

/-- Every step keeps the law of the credits (R26): with the free ones, the transactions outstanding on DN account for all
48 credits, so that they never exceed 48; the arbiter's two lists hold occupied slots, each once.
Every step keeps the law of the counts (R9, R25): the in-flight count of an entry and the reference count of a job are the numbers
of tracker slots that name them, and no slot names a FREE or WIPING job. -/
def Obligations.StepKeepsCredits : Prop :=
  (∀ s t : State, s.creditLaw → step s = .next t → t.creditLaw)
  ∧ ∀ s t : State, s.referenceLaw → step s = .next t → t.referenceLaw

/-- Every step keeps the law of the key slots (R30): key slot i is LIVE exactly when job slot i is OPEN, HELD or CLOSING.
Every step keeps the law of the keys themselves (R30, R31): each is that of an earlier draw, and no two slots have the same. That no
key is drawn twice is read from R30 and R31 and brought about by the model (log entry 5, DEDUCED). -/
def Obligations.StepKeepsKeys : Prop :=
  (∀ s t : State, s.keyLaw → step s = .next t → t.keyLaw)
  ∧ ∀ s t : State, s.drawnLaw → step s = .next t → t.drawnLaw

/-- Every step keeps the bounds of the marking register and the Marking Stack (R56) and of the Page Assembly Queues (R88).
Every step keeps the capacities of the queues (spec/00_scope.md, CAPACITIES) and the law of the Violation Capture (R20):
its count is at least 1 whenever the record is valid, and it never exceeds 65535.
Every step keeps the law of the pattern generator (R171): at the start of each line of a pass or of VERIFY, its register
is the one reached from the entry's seed after 512 bits for each line before it.
Every step keeps the law of the marking jobs (R56): each marking or stacked job is OPEN, HELD or CLOSING, and only a stacked one is
CLOSING, with close pending; it stands with the law of the command in hand (R186).
Every step keeps the names of the open records below the ones still to be given (R76, log entry 12). -/
def Obligations.StepKeepsBounds : Prop :=
  ((∀ s t : State, s.jct.stackLaw ∧ s.jct.queueLaw → step s = .next t → t.jct.stackLaw ∧ t.jct.queueLaw)
    ∧ (∀ s t : State, s.capacities ∧ s.path.captureLaw → step s = .next t → t.capacities ∧ t.path.captureLaw))
  ∧ (∀ s t : State, s.wpe.patternLaw → step s = .next t → t.wpe.patternLaw)
  ∧ (∀ s t : State, s.markingLaw → step s = .next t → t.markingLaw)
  ∧ ∀ s t : State, s.namesLaw → step s = .next t → t.namesLaw

/-! ## Supply and power-on -/

/-- POR gives PFE, RGT and the downstream port the values of R27. -/
def Obligations.PowerOnPath : Prop :=
  ∀ (straps : BitVec 2) (s : State), ∃ t, exec (.por straps) s = .next t
    ∧ t.path.roles = none ∧ t.path.cmdWindow = none ∧ t.path.repWindow = none ∧ t.path.missPolicy = none
    ∧ t.path.captureMode = .any ∧ t.path.closed = false
    ∧ (∀ i : Fin 32, t.rgt.live[i] = none ∧ t.rgt.shadow[i] = none ∧ t.rgt.inFlight[i] = 0) ∧ t.rgt.commit = none
    ∧ (∀ i : Fin 32, t.path.reads[i] = none ∧ t.path.writes[i] = none) ∧ (∀ i : Fin 8, t.down.internal[i] = none)
    ∧ t.path.hold = [] ∧ t.path.capture = none ∧ t.path.captureCount = 0
    ∧ t.down.credits = 48 ∧ t.down.forwarded = [] ∧ t.down.internalList = [] ∧ t.down.run = 0

/-- POR gives every other volatile store its reset value and samples the straps (R42, R54, R66, R89, R109, R133, R154, R167,
R175, R184); AMEM keeps its contents. The values that no rule states (the working records before the load, the kind, user and wipe
settings of a free slot, the time of a bay's last change) are the model's (log entry 3), and so is what a POR without a loss of
supply before it does to a write in flight (log entry 18): supply is absent here.
A loss of supply tears the AMEM write in flight and no other record (R127, R129): the record written holds a content that is free
and a check code that may agree or not (log entry 7), and every other record stands. Without a write in flight AMEM keeps its
contents. -/
def Obligations.PowerOnRest : Prop :=
  (∀ (straps : BitVec 2) (s : State), s.powered = false → ∃ t, exec (.por straps) s = .next t
    ∧ t.powered = true ∧ t.amem = s.amem ∧ t.pending = s.pending ∧ t.ms = 0
    ∧ (∀ j : Fin 16, t.keys[j] = none ∧ (t.job j).state = .free ∧ (t.job j).nonce = 0
        ∧ (t.job j).closePending = false ∧ (t.job j).marked = false ∧ (t.job j).refs = 0 ∧ (t.job j).bound = 0
        ∧ (t.job j).wipes = 0 ∧ (t.job j).own = none ∧ (t.job j).counters = ⟨0, 0, 0, 0, Vector.replicate 4 0⟩)
    ∧ t.jct.openCounter = 0 ∧ t.jct.marking = none ∧ t.jct.stack = [] ∧ t.rmu.recordCounter = 0
    ∧ t.ace.queue = [] ∧ t.ace.waiting = [] ∧ t.ace.writing = none ∧ t.ace.lockout = none
    ∧ t.ace.faults = ⟨0, 0, false, false, false, false, false⟩
    ∧ (∀ u : Fin 256, (t.ace.users[u]).reserved = 0 ∧ (t.ace.users[u]).posting = 0)
    ∧ (∀ d : Fin 16, (t.ace.depts[d]).reserved = 0 ∧ (t.ace.depts[d]).posting = 0) ∧ t.ace.meters.posting = 0
    ∧ (∀ p : Fin 4,
        let b := t.bay p
        b.state = .vacant ∧ b.line = none ∧ b.due = .never ∧ b.waiting = false ∧ b.settle = 0 ∧ b.failures = 0
          ∧ b.serial = none ∧ b.foreign = none ∧ b.colour = none ∧ b.capacity = none ∧ b.issued = none
          ∧ b.openDebit = none ∧ b.unconfirmed = none ∧ b.reported = 0 ∧ b.statusLevel = 0 ∧ b.statusFlags = 0
          ∧ b.lastCause = none)
    ∧ t.ccu.departed = []
    ∧ (∀ p : Fin 4, t.plane p = ⟨0, 0, 0, none, none, false, .vacant, 0, .none, 0, 0, 0, 0, 0, 0⟩)
    ∧ t.wpe.queue = [] ∧ t.wpe.counter = 0
    ∧ t.rci = ⟨.loading, none, straps, false, false, [], 0, false, none, none, none, .running, s.rci.wakePin⟩)
  ∧ ∀ s : State, s.powered = true → ∃ t, exec .supplyLoss s = .next t ∧ t.powered = false ∧ t.pending = s.pending
    ∧ (s.ace.writing = none → t.amem = s.amem)
    ∧ ∀ c, s.ace.writing = some c →
        (c.id ≠ .service → t.amem.service = s.amem.service) ∧ (c.id ≠ .tariff → t.amem.tariff = s.amem.tariff)
        ∧ (c.id ≠ .classes → t.amem.classes = s.amem.classes) ∧ (c.id ≠ .bays → t.amem.bays = s.amem.bays)
        ∧ (c.id ≠ .meters → t.amem.meters = s.amem.meters)
        ∧ (∀ i : Fin 16, c.id ≠ .dept i → t.amem.depts[i] = s.amem.depts[i])
        ∧ (∀ i : Fin 256, c.id ≠ .user i → t.amem.users[i] = s.amem.users[i])
        ∧ (∀ x, c = .service x →
            t.amem.service = ⟨Config.tornService s.losses s.amem.service.content x, Config.tornAgrees s.losses⟩)
        ∧ (∀ x, c = .tariff x →
            t.amem.tariff = ⟨Config.tornTariff s.losses s.amem.tariff.content x, Config.tornAgrees s.losses⟩)
        ∧ (∀ x, c = .classes x →
            t.amem.classes = ⟨Config.tornClasses s.losses s.amem.classes.content x, Config.tornAgrees s.losses⟩)
        ∧ (∀ x, c = .bays x →
            t.amem.bays = ⟨Config.tornBays s.losses s.amem.bays.content x, Config.tornAgrees s.losses⟩)
        ∧ (∀ x, c = .meters x →
            t.amem.meters = ⟨Config.tornMeters s.losses s.amem.meters.content x, Config.tornAgrees s.losses⟩)
        ∧ (∀ (i : Fin 16) (x : DeptStored), c = .dept i x →
            t.amem.depts[i] = ⟨Config.tornDept s.losses (s.amem.depts[i]).content x, Config.tornAgrees s.losses⟩)
        ∧ ∀ (i : Fin 256) (u : UserStored), c = .user i u →
            t.amem.users[i] = ⟨Config.tornUser s.losses (s.amem.users[i]).content u, Config.tornAgrees s.losses⟩

/-! ## Reserved amounts and bounds over every step -/

/-- Every step keeps the law of the reserved amounts (R99): a user's reserved amount is the sum of the reserves of the open page
records of its jobs, in every context, and a department's reserved amount is the sum of its users'.
Every step out of LOADING keeps the user and department bounds (R104), from a state in which no open record costs more than its
reserve however it settles; `ChargeWithinReserve` says why a record does not. -/
def Obligations.StepKeepsReserves : Prop :=
  (∀ s t : State, s.reserveLaw → step s = .next t → t.reserveLaw)
  ∧ ∀ s t : State, s.reserveLaw → s.ace.limitLaw → s.chargesCovered → s.rci.startup ≠ .loading → step s = .next t →
      t.ace.limitLaw

/-! ## Link reset, loading and wake -/

/-- LRST (R28, R184): the path's stores take their POR values, port transactions, held transactions and tracker slots are
dropped without a response, what is issued on DN keeps its credit, and RCI awaits an anchor, or goes on loading; a waiting
ACCOUNT_FAULT stays, with the fault list. AMEM, the time and the counters of jobs and records stand.
LRST forces every job (R64, R40): afterwards no key is LIVE, no context is left, and no job is OPEN, HELD or CLOSING. The ranges of
the forced jobs, in ascending slot order, join the Wipe Queue as far as it has room; a forced job with an entry is WIPING, any other
is FREE. A FREE job stays FREE, and a WIPING one stays so with its wipes outstanding, where no wipe is done.
LRST settles the open records (R108): a lone one is charged or aborted on the chunks it reached, without a page report; the other
records of ACE stand, and the write-back queues keep what they hold. Bays and toner stand where no forced job had marked (R154,
R167), but that a detached bay's first poll is due at once (R136). -/
def Obligations.LinkReset : Prop :=
  (∀ (straps : BitVec 2) (s : State), s.powered = true → ∃ t, exec (.lrst straps) s = .next t
      ∧ t.path = Path.por ∧ t.out = [] ∧ t.rgt = Regions.por
      ∧ t.down = { s.down with
          internal := Vector.ofFn s.down.resetSlot, forwarded := []
          internalList := s.down.internalList.filter fun i => !(s.down.internal[i]).any InternalSlot.isRci
          run := 0, orphans := s.down.orphans ++ s.issuedOrphans }
      ∧ t.rci.startup = (if s.rci.startup = .loading then .loading else .awaitAnchor)
      ∧ t.rci.rings = none ∧ t.rci.straps = straps ∧ t.rci.hand = false ∧ t.rci.posting = none
      ∧ t.rci.indexWritten = none ∧ t.rci.standby = .running ∧ t.amem = s.amem ∧ t.ms = s.ms
      ∧ t.jct.openCounter = s.jct.openCounter ∧ t.rmu = s.rmu
      ∧ t.rci.faultAt = s.rci.faultAt ∧ t.ace.faults = s.ace.faults)
  ∧ (∀ (straps : BitVec 2) (s : State), s.powered = true → ∃ t, exec (.lrst straps) s = .next t
      ∧ (∀ j : Fin 16, t.keys[j] = none ∧ (t.job j).state.live = false ∧ (t.job j).own = none ∧ (t.job j).refs = 0)
      ∧ t.jct.marking = none ∧ t.jct.stack = []
      ∧ ∀ j : Fin 16, (s.job j).state = .free → (t.job j).state = .free)
  ∧ (∀ (straps : BitVec 2) (s : State), s.powered = true → s.wpe.doneDue = false → ∃ t, exec (.lrst straps) s = .next t
      ∧ (∀ j : Fin 16, (s.job j).state = .wiping →
          (t.job j).state = .wiping ∧ (t.job j).wipes = (s.job j).wipes ∧ (t.job j).nonce = (s.job j).nonce)
      ∧ (let forced := (List.finRange 16).filter fun j => (s.job j).state.live
        let ranges := forced.flatMap fun j =>
          (if (s.job j).passes = 0 then [] else s.rgt.rangesOf j).map fun r => (j, r.1, r.2)
        let joined := ranges.take (32 - s.wpe.queue.length)
        t.wpe.queue.length = s.wpe.queue.length + joined.length
        ∧ t.wpe.counter = s.wpe.counter + BitVec.ofNat 32 joined.length
        ∧ t.wpe.queue.tail.take (s.wpe.queue.length - 1) = s.wpe.queue.tail
        ∧ (∀ k j base count, joined[k]? = some (j, base, count) → ∃ e, t.wpe.queue[s.wpe.queue.length + k]? = some e
            ∧ e.number = s.wpe.counter + BitVec.ofNat 32 (k + 1) ∧ e.base = base ∧ e.count = count
            ∧ e.passes = (s.job j).passes ∧ e.verify = (s.job j).verify ∧ e.origin = .job j (s.job j).nonce
            ∧ e.mismatch = 0)
        ∧ ∀ j ∈ forced,
            let n := (joined.filter fun x => x.1 == j).length
            (t.job j).state = (if n = 0 then .free else .wiping) ∧ (t.job j).wipes = n))
  ∧ ∀ (straps : BitVec 2) (s : State), s.powered = true → ∃ t, exec (.lrst straps) s = .next t
      ∧ (∀ x ∈ t.rci.queue, (∀ p, x.body ≠ .pageCharged p) ∧ ∀ r, x.body ≠ .pageAborted r)
      ∧ t.ace.classes = s.ace.classes ∧ t.ace.tariff = s.ace.tariff ∧ t.ace.bays = s.ace.bays
      ∧ t.ace.service = s.ace.service ∧ t.ace.lockout = s.ace.lockout ∧ t.ace.writing = s.ace.writing
      ∧ s.ace.queue <+: t.ace.queue ∧ s.ace.waiting <+: t.ace.waiting ∧ t.ccu.departed = s.ccu.departed
      ∧ (let posted := fun a : Ace =>
          (∀ u : Fin 256, (t.ace.users[u]).stored = (a.users[u]).stored ∧ (t.ace.users[u]).reserved = (a.users[u]).reserved
            ∧ (t.ace.users[u]).posting = (a.users[u]).posting)
          ∧ (∀ d : Fin 16, (t.ace.depts[d]).stored = (a.depts[d]).stored ∧ (t.ace.depts[d]).reserved = (a.depts[d]).reserved
            ∧ (t.ace.depts[d]).posting = (a.depts[d]).posting)
          ∧ t.ace.meters.stored = a.meters.stored ∧ t.ace.meters.posting = a.meters.posting
        (s.jct.records = [] → posted s.ace)
        ∧ ∀ r, s.jct.records = [r] →
          let x : PageRecord := { r with
            lines := 0, incomplete := true
            planes := r.planes.map fun q => q.map fun q => { q with
              status := if q.status = .notSeen then .absent else if q.status = .opened then .closed else q.status } }
          (x.isCharged = true → posted (s.ace.postCharge x (s.price x)))
          ∧ (x.isCharged = false → posted (s.ace.modReserved r.user (· - r.reserve))))
      ∧ ((∀ j : Fin 16, (s.job j).state.live = true → (s.job j).marked = false) →
          t.tmu = s.tmu
          ∧ (s.rci.standby = .running → t.ccu.bays = s.ccu.bays)
          ∧ (s.rci.standby = .standby → t.ccu.bays = s.ccu.bays.map fun b => { b with due := .atOnce }))

/-- LOADING ends (R130, R131, R136, R180): ACE has loaded every record or its substitute and triggered the substitutes, a
loaded failure count of 5 starts a lockout, every first poll is due, and RCI awaits an anchor when it holds none.
WAKE (R178, R136): a part in STANDBY whose wake pin is asserted runs again, with the path open and every first poll due at
once; a part that runs takes the pin's level alone.
What the load gives (R129 to R131): a good record, whose check code agrees and whose fields lie in their ranges, is copied and CLEAN;
a bad one is substituted, DIRTY, and marked in the fault list; from an empty queue the bad ones are triggered in the order of loading,
the first 16 into the queue. That an invalid class entry's other fields are not tested is the model's choice (log entry 33). -/
def Obligations.LoadingEndsAndWake : Prop :=
  (∀ s : State, s.powered = true → s.still = true → s.rci.startup = .loading → s.rci.rings = none →
      exec .loadingEnd s = .next { s with
        ace := { ((s.ace.load s.amem).triggerAll allRecords) with
          lockout := if (s.ace.load s.amem).service.failures = 5 then some s.ms else none }
        ccu := { s.ccu with bays := s.ccu.bays.map fun b => { b with due := .atOnce } }
        rci := { s.rci with startup := .awaitAnchor }
        out := [], handed := [] })
  ∧ (∀ s : State, s.powered = true → s.nothingDue = true → s.rci.faultWaiting = false →
      (s.rci.standby = .standby → exec (.wake true) s = .next { s with
        rci := { s.rci with standby := .running, wakePin := true }
        path := { s.path with closed := false }
        ccu := { s.ccu with bays := s.ccu.bays.map fun b => { b with due := .atOnce } }
        out := [], handed := [] })
      ∧ ∀ b, s.rci.standby = .running → exec (.wake b) s = .next { s with
          rci := { s.rci with wakePin := b }, out := [], handed := [] })
  ∧ ∀ (a : Ace) (m : Amem),
    let b := a.load m
    let goodService := m.service.agrees = true ∧ m.service.content.failures ≤ 5
    let goodTariff := m.tariff.agrees = true ∧ m.tariff.content.free ≤ 40000 ∧ m.tariff.content.surcharge ≤ 65535
      ∧ m.tariff.content.cap ≤ 65535 ∧ 1 ≤ m.tariff.content.threshold ∧ m.tariff.content.threshold ≤ 10000
    let t := m.classes.content
    let goodClasses := m.classes.agrees = true
      ∧ (∀ i : Fin 8, (t[i]).valid = true → 1 ≤ (t[i]).maxLines ∧ (t[i]).maxLines ≤ 16384 ∧ 1 ≤ (t[i]).maxDots
          ∧ (t[i]).maxDots ≤ 65536 ∧ (t[i]).basePrice ≤ 65535 ∧ (t[i]).colourPrice ≤ 65535)
      ∧ (∀ i j : Fin 8, i < j → (t[i]).valid = true → (t[j]).valid = true → (t[i]).maxLines ≤ (t[j]).maxLines
          ∧ (t[i]).maxDots ≤ (t[j]).maxDots ∧ (t[i]).basePrice ≤ (t[j]).basePrice ∧ (t[i]).colourPrice ≤ (t[j]).colourPrice)
      ∧ ∃ i : Fin 8, (t[i]).valid = true
    let goodBays := m.bays.agrees = true ∧ ∀ p : Fin 4,
      let c := m.bays.content[p]
      1 ≤ c.attach ∧ c.attach ≤ 15 ∧ 1 ≤ c.detach ∧ c.detach ≤ 7 ∧ 1 ≤ c.dotMass ∧ c.dotMass ≤ 65535 ∧ 1 ≤ c.quantum
        ∧ c.quantum ≤ 1000 ∧ c.lowMark ≤ 65535 ∧ c.grace ≤ 65535
    let goodMeters := m.meters.agrees = true
      ∧ ∀ k : Fin 16, m.meters.content.contract[k] ≤ max32 ∧ m.meters.content.outside[k] ≤ max32
    let goodDept := fun c : Cell DeptStored => c.agrees = true ∧ (∀ x ∈ c.content.allowance, x ≤ 2 ^ 31 - 1)
      ∧ c.content.used ≤ max32
    let goodUser := fun c : Cell UserStored => c.agrees = true ∧ c.content.failures ≤ 5
      ∧ -(2 ^ 31 : Int) ≤ c.content.balance ∧ c.content.balance ≤ 2 ^ 31 - 1 ∧ c.content.overdraft ≤ 1000000000
      ∧ 1 ≤ c.content.maxJobs ∧ c.content.maxJobs ≤ 4 ∧ c.content.lifeMono ≤ max32 ∧ c.content.lifeColour ≤ max32
      ∧ c.content.lifeCharge ≤ max32
    (goodService → b.service = m.service.content ∧ b.serviceWb = .clean ∧ b.faults.service = false)
    ∧ (¬ goodService → b.service = ⟨Config.factoryServiceDigest, 0⟩ ∧ b.serviceWb = .dirty ∧ b.faults.service = true)
    ∧ (goodTariff → b.tariff = m.tariff.content ∧ b.tariffWb = .clean ∧ b.faults.tariff = false)
    ∧ (¬ goodTariff → b.tariff = ⟨500, 1000, 100, 5⟩ ∧ b.tariffWb = .dirty ∧ b.faults.tariff = true)
    ∧ (goodClasses → b.classes = t ∧ b.classesWb = .clean ∧ b.faults.classes = false)
    ∧ (¬ goodClasses → b.classes[0] = ⟨true, 5000, 3600, 20, 30⟩ ∧ b.classes[1] = ⟨true, 7100, 5200, 40, 60⟩
      ∧ b.classes[2] = ⟨true, 10000, 7200, 80, 120⟩ ∧ b.classes[3] = ⟨true, 14100, 10200, 160, 240⟩
      ∧ (∀ i : Fin 8, 4 ≤ i.val → (b.classes[i]).valid = false) ∧ b.classesWb = .dirty ∧ b.faults.classes = true)
    ∧ (goodBays → b.bays = m.bays.content ∧ b.baysWb = .clean ∧ b.faults.bays = false)
    ∧ (¬ goodBays → b.bays = Vector.replicate 4 ⟨.genuineOnly, 3, 2, 5548, 50, 5000, 2000⟩ ∧ b.baysWb = .dirty
      ∧ b.faults.bays = true)
    ∧ (goodMeters → b.meters = ⟨m.meters.content, 0, .clean, false⟩ ∧ b.faults.meters = false)
    ∧ (¬ goodMeters → b.meters = ⟨⟨Vector.replicate 16 0, Vector.replicate 16 0⟩, 0, .dirty, true⟩ ∧ b.faults.meters = true)
    ∧ (∀ d : Fin 16,
      (goodDept m.depts[d] → b.depts[d] = ⟨(m.depts[d]).content, 0, 0, .clean⟩ ∧ b.faults.depts.getLsbD d.val = false)
      ∧ (¬ goodDept m.depts[d] → b.depts[d] = ⟨⟨some 0, 0⟩, 0, 0, .dirty⟩ ∧ b.faults.depts.getLsbD d.val = true))
    ∧ (∀ u : Fin 256,
      (goodUser m.users[u] → b.users[u] = ⟨(m.users[u]).content, 0, 0, .clean⟩ ∧ b.faults.users.getLsbD u.val = false)
      ∧ (¬ goodUser m.users[u] → b.users[u] = ⟨⟨.suspect, none, 0, none, 0, 0, 1, 0, 0, 0⟩, 0, 0, .dirty⟩
        ∧ b.faults.users.getLsbD u.val = true))
    ∧ b.queue = a.queue ∧ b.waiting = a.waiting ∧ b.writing = a.writing ∧ b.lockout = a.lockout
    ∧ (a.queue = [] → a.waiting = [] →
      let bad := (([.service, .tariff, .classes, .bays, .meters] : List RecId) ++ (List.finRange 16).map RecId.dept
        ++ (List.finRange 256).map RecId.user).filter fun r => b.wb r == .dirty
      (b.triggerAll allRecords).queue = bad.take 16 ∧ (b.triggerAll allRecords).waiting = bad.drop 16)

/-! ## The order of checks -/

/-- Form, path closed and wipe shadow (R1, R5, R6): the first of them that fails decides, and before the anchor a transaction
that passes form and wipe shadow is accepted as PLAIN. A CLOSED denial is never captured; that it names the capture entry MISS is the
model's choice (log entry 30).
Ring windows (R7): while ANCHORED, an open path takes a PROC access wholly in the command window, and a PROC read wholly in
the report window, as PLAIN, with no entry and no job, whatever the Region Table holds; every other access with a line in a
window is denied RING. `c` and `r` are the windows. -/
def Obligations.EarlyChecks : Prop :=
  (∀ (s : State) (t : Txn),
      (¬ (t.addr.toNat % 64 = 0 ∧ 1 ≤ t.len ∧ t.len ≤ 8 ∧ t.addr.toNat / 4096 = (t.addr.toNat + 64 * t.len - 1) / 4096) →
        s.examine t = .deny ⟨.malformed, .error, .malformed⟩)
      ∧ (t.addr.toNat % 64 = 0 → 1 ≤ t.len → t.len ≤ 8 → t.addr.toNat / 4096 = (t.addr.toNat + 64 * t.len - 1) / 4096 →
        (s.rci.startup = .anchored → s.path.closed = true → s.examine t = .deny ⟨.closed, .error, .miss⟩)
        ∧ (s.rci.startup = .anchored → s.path.closed = false →
            (∃ e ∈ s.wpe.queue, e.base ≤ t.addr.toNat / 4096 ∧ t.addr.toNat / 4096 < e.base + e.count) →
            s.examine t = .deny ⟨.wiping, .error, .wipe⟩)
        ∧ (s.rci.startup ≠ .anchored →
            ((∃ e ∈ s.wpe.queue, e.base ≤ t.addr.toNat / 4096 ∧ t.addr.toNat / 4096 < e.base + e.count) →
              s.examine t = .deny ⟨.wiping, .error, .wipe⟩)
            ∧ ((∀ e ∈ s.wpe.queue, ¬ (e.base ≤ t.addr.toNat / 4096 ∧ t.addr.toNat / 4096 < e.base + e.count)) →
              s.examine t = .accept ⟨none, none, .none, false, none⟩))))
  ∧ (∀ (s : State) (t : Txn) (roles : Vector Role 16) (c r : Window),
      s.rci.startup = .anchored → s.path.closed = false → t.wellFormed = true → s.wpe.shadows t.page = false →
      s.path.roles = some roles → s.path.cmdWindow = some c → s.path.repWindow = some r →
      let lines := (List.range t.len).map fun k => t.addr.toNat / 64 + k
      let inC := fun n => c.baseLine ≤ n ∧ n < c.baseLine + (c.slots + 1)
      let inR := fun n => r.baseLine ≤ n ∧ n < r.baseLine + (r.slots + 1)
      ((∃ n ∈ lines, inC n ∨ inR n) →
        (roles[t.source] = .proc →
          ((∀ n ∈ lines, inC n ∧ ¬ inR n) →
            s.examine t = .accept ⟨none, none, .none, decide (t.dir = .write ∧ c.baseLine ∈ lines), none⟩)
          ∧ ((∀ n ∈ lines, inR n ∧ ¬ inC n) → t.dir = .read → s.examine t = .accept ⟨none, none, .none, false, none⟩)
          ∧ ((∀ n ∈ lines, inR n ∧ ¬ inC n) → t.dir = .write → s.examine t = .deny ⟨.ring, .error, .ring⟩)
          ∧ ((∃ n ∈ lines, ¬ inC n) → (∃ n ∈ lines, ¬ inR n) → s.examine t = .deny ⟨.ring, .error, .ring⟩))
        ∧ (roles[t.source] ≠ .proc → s.examine t = .deny ⟨.ring, .error, .ring⟩)))

/-- Commit hold, match, miss policy, source permission, job-state gate and whole-line rule (R5 steps 5 to 9w; R10, R11, R14,
R33, R36, R48), for a transaction that is no ring access and no MARK read of a RASTER entry. -/
def Obligations.RegionChecks : Prop :=
  ∀ (s : State) (t : Txn), s.rci.startup = .anchored → s.path.closed = false → t.wellFormed = true →
    s.wpe.shadows t.page = false → s.path.isRingAccess t = false →
    (s.rgt.commitHolds t.page = true → s.examine t = .holdCommit)
    ∧ (s.rgt.commitHolds t.page = false →
      ((∀ i : Fin 32, ∀ e ∈ s.rgt.live[i], ¬ (e.base ≤ t.page ∧ t.page < e.base + e.count)) →
        (s.path.missPolicy = some .strict → s.examine t = .deny ⟨.noRegion, .error, .miss⟩)
        ∧ (s.path.missPolicy = some .openAll → s.examine t = .accept ⟨none, none, .none, false, none⟩))
      ∧ ∀ (i : Fin 32) (e : RegionEntry), s.rgt.live[i] = some e → e.base ≤ t.page → t.page < e.base + e.count →
        (∀ k < i, ∀ o ∈ s.rgt.live[k], ¬ (o.base ≤ t.page ∧ t.page < o.base + o.count)) →
        let allowed := (if t.dir = .read then e.readMask else e.writeMask).getLsbD t.source.val
        let view : View := if e.priv = false then .none else if e.rawMask.getLsbD t.source.val then .raw else .plain
        (allowed = false → s.examine t = .deny ⟨.notPermitted, e.behaviour, .entry i⟩)
        ∧ (allowed = true → e.job = none → s.examine t = .accept ⟨some i, none, .none, false, none⟩)
        ∧ ∀ j, allowed = true → e.job = some j → ¬ (t.dir = .read ∧ e.raster.isSome ∧ s.path.role? t.source = some .mark) →
          ((s.job j).state = .closing → s.examine t = .deny ⟨.jobState, e.behaviour, .entry i⟩)
          ∧ ((s.job j).state = .opened ∨ (∃ why, (s.job j).state = .held why) →
            (t.dir = .write → e.priv = true → (∃ l ∈ t.writeLines, l.mask ≠ fullMask) →
              s.examine t = .deny ⟨.partialPrivate, e.behaviour, .entry i⟩)
            ∧ ((t.dir = .write → e.priv = true → ∀ l ∈ t.writeLines, l.mask = fullMask) →
              s.examine t = .accept ⟨some i, some j, view, false, none⟩)))

/-- The marking gate (R48, R69, R70, R144, R165) for a permitted MARK read of a RASTER entry: the steps before the trial, each
denial with ERROR, but for JOB_STATE, which takes the entry's behaviour. -/
def Obligations.MarkingGate : Prop :=
  ∀ (s : State) (t : Txn) (i : Fin 32) (e : RegionEntry) (j : Fin 16) (r : Raster),
    s.rci.startup = .anchored → s.path.closed = false → t.wellFormed = true → s.wpe.shadows t.page = false →
    s.path.isRingAccess t = false → s.rgt.commitHolds t.page = false → s.rgt.matched? t.page = some i →
    s.rgt.live[i] = some e → e.job = some j → e.raster = some r → t.dir = .read →
    e.readMask.getLsbD t.source.val = true → s.path.role? t.source = some .mark →
    let g := r.geom
    let frames := e.count * 4096 / (g.stride * g.frameLines)
    let frameOf := fun k : Nat => ((t.addr.toNat + 64 * k) - e.base * 4096) / (g.stride * g.frameLines)
    let deny := fun why : Reason => s.examine t = .deny ⟨why, .error, .entry i⟩
    let marks := (s.bay r.plane).state = .genuine
      ∨ ((s.bay r.plane).state = .unproven ∧ (s.conf r.plane).policy = .allowUnproven)
    let tonerOut := (s.plane r.plane).level = .out ∧ (s.conf r.plane).grace ≤ (s.plane r.plane).overrun
    let twoFrames := ∀ a < t.len, ∀ b < t.len, ∀ c < t.len,
      frameOf a = frameOf b ∨ frameOf b = frameOf c ∨ frameOf a = frameOf c
    let view : View := if e.priv = false then .none else if e.rawMask.getLsbD t.source.val then .raw else .plain
    ((∃ why, (s.job j).state = .held why) ∨ (s.job j).state = .closing →
        s.examine t = .deny ⟨.jobState, e.behaviour, .entry i⟩)
    ∧ ((s.job j).state = .opened →
      ((∀ m, s.jct.marking = some m → m.job ≠ j) → deny .notMarking)
      ∧ ∀ m, s.jct.marking = some m → m.job = j →
        ((∃ k < t.len, frames ≤ frameOf k) ∨ ¬ twoFrames → deny .geometry)
        ∧ ((∀ k < t.len, frameOf k < frames) → twoFrames →
          (¬ marks → deny .cartridge)
          ∧ (marks → tonerOut → deny .tonerOut)
          ∧ (marks → ¬ tonerOut →
            (∀ tr, s.runTrial (s.trialEnv e r j) m.ctx t.lineAddrs = .ok tr →
              s.examine t = .accept ⟨some i, some j, view, false, some (tr, r.plane, g.depth, s.reserveOf j)⟩)
            ∧ (s.runTrial (s.trialEnv e r j) m.ctx t.lineAddrs = .error .held → s.examine t = .holdAssembly j)
            ∧ (s.runTrial (s.trialEnv e r j) m.ctx t.lineAddrs = .error .quota → s.examine t = .quota i j))))

/-! ## Taking a transaction -/

/-- A transaction that comes to the port waits behind those presented before it on its channel (R3, R28). PFE takes nothing
from the port while a released transaction waits, while the Hold Queue is full, or while the tracker of the channel's
direction has no free slot (R3, R17). -/
def Obligations.PortWaits : Prop :=
  (∀ (d : Dir) (x : Txn) (s : State), s.powered = true →
    exec (.takeTransaction d (some x)) s = exec (.takeTransaction d none) { s with path := match x.dir with
      | .read => { s.path with portReads := s.path.portReads ++ [x] }
      | .write => { s.path with portWrites := s.path.portWrites ++ [x] } })
  ∧ ∀ (d : Dir) (s : State), s.resting = true →
    ((∃ h ∈ s.path.hold, h.released = true) ∨ 8 ≤ s.path.hold.length
      ∨ (d = .read ∧ ∀ i : Fin 32, s.path.reads[i] ≠ none) ∨ (d = .write ∧ ∀ i : Fin 32, s.path.writes[i] ≠ none)) →
    exec (.takeTransaction d none) s = .next s.quietly

/-- A denied transaction (R19, R20): it is answered at once, takes no tracker slot and raises no count; an admitted denial
counts in the Violation Capture and fills an empty one; one VIOLATION report serves the capture and TRAP. -/
def Obligations.TakeDenied : Prop :=
  ∀ (d : Dir) (s : State) (t : Txn) (rest : List Txn) (x : Denial), s.resting = true → s.rci.hasEntry false = true →
    s.path.port d = t :: rest → s.path.mayTake d = true → s.examine t = .deny x →
    exec (.takeTransaction d none) s = .next (({ s with path := s.path.setPort d rest } : State).denied t x)

/-- An accepted read that is not metered (R9, R22, R25): it takes a free Read Tracker slot with mark NONE on every line, joins
the forwarded list, and raises its entry's in-flight count and its job's reference count. That the slot is the
lowest-numbered free one is the model's choice (log entry 9).
An accepted write (R9, R24, R25, R33, R35): it takes a free Write Tracker slot, which carries the forwarded form of the
data: the written lines as they are for view NONE, with full masks for RAW, and for PLAIN each line enciphered at its own
address with the key of the entry's job, with a full mask. -/
def Obligations.TakeAccepted : Prop :=
  (∀ (s : State) (t : Txn) (rest : List Txn) (e : Option (Fin 32)) (j : Option (Fin 16)) (v : View) (x : Bool) (i : Fin 32),
      s.resting = true → s.path.portReads = t :: rest → t.dir = .read → s.path.mayTake .read = true →
      s.examine t = .accept ⟨e, j, v, x, none⟩ → freeSlot? s.path.reads = some i →
      exec (.takeTransaction .read none) s = .next
        (({ s with
          path := { s.path with
            portReads := rest
            reads := s.path.reads.set i (some ⟨t.id, t.source, t.addr, t.len, e, j, v, List.replicate t.len .none, none⟩) }
          down := { s.down with forwarded := s.down.forwarded ++ [.read i] } } : State).counted e j).quietly)
  ∧ (∀ (s : State) (t : Txn) (rest : List Txn) (e : Option (Fin 32)) (j : Option (Fin 16)) (v : View) (x : Bool) (i : Fin 32)
      (ls out : List WriteLine),
      s.resting = true → s.path.portWrites = t :: rest → t.op = .write ls → s.path.mayTake .write = true →
      s.examine t = .accept ⟨e, j, v, x, none⟩ → freeSlot? s.path.writes = some i →
      (v = .none → out = ls) → (v = .raw → out = ls.map fun l => ⟨l.data, fullMask⟩) →
      (v = .plain → ∃ (q : Fin 16) (k : Key), j = some q ∧ s.keys[q] = some k
        ∧ out = ls.mapIdx fun n l => ⟨Config.lineCipher k (t.addr + BitVec.ofNat 36 (64 * n)) l.data, fullMask⟩) →
      exec (.takeTransaction .write none) s = .next
        (({ s with
          path := { s.path with
            portWrites := rest, writes := s.path.writes.set i (some ⟨t.id, t.source, t.addr, out, e, j, v, x⟩) }
          down := { s.down with forwarded := s.down.forwarded ++ [.write i] } } : State).counted e j).quietly)

/-- A transaction that must wait joins the Hold Queue's tail, unreleased, with its cause (R14, R17); one that waits for
ASSEMBLY has first had the oldest record that is not closed force-closed, where there is one (R77, R86). -/
def Obligations.TakeHeld : Prop :=
  ∀ (d : Dir) (s : State) (t : Txn) (rest : List Txn), s.resting = true → s.path.port d = t :: rest →
    s.path.mayTake d = true →
    (s.examine t = .holdCommit → exec (.takeTransaction d none) s = .next (({ s with
      path := { s.path.setPort d rest with hold := s.path.hold ++ [⟨t, .commit, false⟩] } } : State).quietly))
    ∧ ∀ (j : Fin 16) (m : Marked), s.examine t = .holdAssembly j → s.jct.marking = some m →
      let ctx := match m.ctx.queue.find? fun r => !r.isClosed with
        | some r => m.ctx.forceClose r.opened
        | none => m.ctx
      ctx.queue.all (fun r => !r.isDue) = true →
      exec (.takeTransaction d none) s = .next (({ s with
        jct := { s.jct with marking := some ⟨m.job, ctx⟩ }
        path := { s.path.setPort d rest with hold := s.path.hold ++ [⟨t, .assembly j, false⟩] } } : State).quietly)

/-- A metered read for which a record's reserve does not pass is denied QUOTA, its job is HELD with reason QUOTA, and JOB_HELD
is reported (R49, R98); here at a capture that is already valid.
An accepted metered read whose trial settles no record (R67, R71, R98, R99): the trial's context becomes the current
context, each record that it opened reserves the page reserve for the job's user and department, and the tracker slot holds
the lines' marks, the plane and the dot depth. That the slot is the lowest-numbered free one is the model's choice (log entry 9). -/
def Obligations.TakeMetered : Prop :=
  (∀ (s : State) (t : Txn) (rest : List Txn) (i : Fin 32) (j : Fin 16), s.resting = true → s.rci.hasEntry false = true →
      s.path.portReads = t :: rest → t.dir = .read → s.path.mayTake .read = true → s.examine t = .quota i j →
      s.path.capture.isSome = true →
      exec (.takeTransaction .read none) s = .next (({ s with
        path := { s.path with
          portReads := rest
          captureCount := if s.path.captureMode = .any then min 65535 (s.path.captureCount + 1) else s.path.captureCount }
        jct := { s.jct with slots := s.jct.slots.set j { s.jct.slots[j] with state := .held .quota } } } : State).reported
        (.jobHeld j (s.job j).nonce (s.job j).user .quota) 0
        [.response t.id .read false (List.replicate t.len onesLine)]))
  ∧ (∀ (s : State) (t : Txn) (rest : List Txn) (e : Fin 32) (j : Fin 16) (v : View) (tr : Trial) (p : Fin 4)
      (depth reserve : Nat) (i : Fin 32) (m : Marked),
      s.resting = true → s.path.portReads = t :: rest → t.dir = .read → s.path.mayTake .read = true →
      s.examine t = .accept ⟨some e, some j, v, false, some (tr, p, depth, reserve)⟩ → freeSlot? s.path.reads = some i →
      s.jct.marking = some m → tr.settled = [] → tr.ctx.queue.all (fun r => !r.isDue) = true →
      exec (.takeTransaction .read none) s = .next
        (({ s with
          path := { s.path with
            portReads := rest
            reads := s.path.reads.set i (some ⟨t.id, t.source, t.addr, t.len, some e, some j, v, tr.marks, some (p, depth)⟩) }
          down := { s.down with forwarded := s.down.forwarded ++ [.read i] }
          jct := { s.jct with marking := some ⟨m.job, tr.ctx⟩ }
          rmu := tr.rmu
          ace := s.ace.modReserved (s.job j).user (· + tr.openedNow * reserve) } : State).counted (some e) (some j)).quietly)

/-- A released transaction is taken again, oldest first, and examined from step 2 on (R3, R18): denied, its entry is freed;
held again, its entry stays in its place with the new cause and the released mark cleared, after the force-close of R77 where it
waits for ASSEMBLY; with no free tracker slot it waits; accepted, its entry is freed and it takes a tracker slot as a transaction
from the port does; refused QUOTA, its job is HELD, here at a capture that is already valid. That the slot is the lowest-numbered
free one is the model's choice (log entry 9). -/
def Obligations.ReleasedTaken : Prop :=
  ∀ (s : State) (before behind : List HoldEntry) (h : HoldEntry), s.resting = true →
    s.path.hold = before ++ h :: behind → h.released = true → (∀ x ∈ before, x.released = false) →
    (s.path.trackerFree h.txn.dir = false → exec .releasedTaken s = .next s.quietly)
    ∧ (s.path.trackerFree h.txn.dir = true →
      (∀ x, s.examineFrom2 h.txn = .deny x → s.rci.hasEntry false = true →
        exec .releasedTaken s = .next (({ s with path := { s.path with hold := before ++ behind } } : State).denied h.txn x))
      ∧ (s.examineFrom2 h.txn = .holdCommit → exec .releasedTaken s = .next
          (({ s with path := { s.path with hold := before ++ ⟨h.txn, .commit, false⟩ :: behind } } : State).quietly))
      ∧ (∀ (e : Option (Fin 32)) (j : Option (Fin 16)) (v : View) (x : Bool) (i : Fin 32),
        s.examineFrom2 h.txn = .accept ⟨e, j, v, x, none⟩ → h.txn.dir = .read → freeSlot? s.path.reads = some i →
        exec .releasedTaken s = .next
          (({ s with
            path := { s.path with
              hold := before ++ behind
              reads := s.path.reads.set i
                (some ⟨h.txn.id, h.txn.source, h.txn.addr, h.txn.len, e, j, v, List.replicate h.txn.len .none, none⟩) }
            down := { s.down with forwarded := s.down.forwarded ++ [.read i] } } : State).counted e j).quietly)
      ∧ (∀ (e : Option (Fin 32)) (j : Option (Fin 16)) (v : View) (x : Bool) (i : Fin 32) (ls out : List WriteLine),
        s.examineFrom2 h.txn = .accept ⟨e, j, v, x, none⟩ → h.txn.op = .write ls → freeSlot? s.path.writes = some i →
        (v = .none → out = ls) → (v = .raw → out = ls.map fun l => ⟨l.data, fullMask⟩) →
        (v = .plain → ∃ (q : Fin 16) (k : Key), j = some q ∧ s.keys[q] = some k
          ∧ out = ls.mapIdx fun n l =>
            ⟨Config.lineCipher k (h.txn.addr + BitVec.ofNat 36 (64 * n)) l.data, fullMask⟩) →
        exec .releasedTaken s = .next
          (({ s with
            path := { s.path with
              hold := before ++ behind
              writes := s.path.writes.set i (some ⟨h.txn.id, h.txn.source, h.txn.addr, out, e, j, v, x⟩) }
            down := { s.down with forwarded := s.down.forwarded ++ [.write i] } } : State).counted e j).quietly)
      ∧ (∀ (e : Fin 32) (j : Fin 16) (v : View) (tr : Trial) (p : Fin 4) (depth reserve : Nat) (i : Fin 32) (m : Marked),
        s.examineFrom2 h.txn = .accept ⟨some e, some j, v, false, some (tr, p, depth, reserve)⟩ → h.txn.dir = .read →
        freeSlot? s.path.reads = some i → s.jct.marking = some m → tr.settled = [] →
        tr.ctx.queue.all (fun r => !r.isDue) = true →
        exec .releasedTaken s = .next
          (({ s with
            path := { s.path with
              hold := before ++ behind
              reads := s.path.reads.set i (some ⟨h.txn.id, h.txn.source, h.txn.addr, h.txn.len, some e, some j, v, tr.marks,
                some (p, depth)⟩) }
            down := { s.down with forwarded := s.down.forwarded ++ [.read i] }
            jct := { s.jct with marking := some ⟨m.job, tr.ctx⟩ }
            rmu := tr.rmu
            ace := s.ace.modReserved (s.job j).user (· + tr.openedNow * reserve) } : State).counted (some e) (some j)).quietly)
      ∧ (∀ (j : Fin 16) (m : Marked), s.examineFrom2 h.txn = .holdAssembly j → s.jct.marking = some m →
        let ctx := match m.ctx.queue.find? fun r => !r.isClosed with
          | some r => m.ctx.forceClose r.opened
          | none => m.ctx
        ctx.queue.all (fun r => !r.isDue) = true →
        exec .releasedTaken s = .next (({ s with
          jct := { s.jct with marking := some ⟨m.job, ctx⟩ }
          path := { s.path with hold := before ++ ⟨h.txn, .assembly j, false⟩ :: behind } } : State).quietly))
      ∧ ∀ (i : Fin 32) (j : Fin 16), s.examineFrom2 h.txn = .quota i j → h.txn.dir = .read → s.rci.hasEntry false = true →
        s.path.capture.isSome = true →
        exec .releasedTaken s = .next (({ s with
          path := { s.path with
            hold := before ++ behind
            captureCount := if s.path.captureMode = .any then min 65535 (s.path.captureCount + 1) else s.path.captureCount }
          jct := { s.jct with slots := s.jct.slots.set j { s.jct.slots[j] with state := .held .quota } } } : State).reported
          (.jobHeld j (s.job j).nonce (s.job j).user .quota) 0
          [.response h.txn.id .read false (List.replicate h.txn.len onesLine)]))

/-! ## The downstream port -/

/-- The arbiter (R26): a lone list's head is granted; with both waiting the forwarded head, but the internal head after three
forwarded grants in a row made while the internal list was not empty. The grant leaves its list, is issued on DN and takes a
credit; the run count follows. Without a credit nothing is granted. -/
def Obligations.DownstreamGrant : Prop :=
  ∀ s : State, s.resting = true →
    (s.down.credits = 0 → exec .downstreamGrant s = .next s.quietly)
    ∧ (s.down.forwarded = [] → s.down.internalList = [] → exec .downstreamGrant s = .next s.quietly)
    ∧ (0 < s.down.credits →
      (∀ f rest, s.down.forwarded = f :: rest → (s.down.internalList = [] ∨ s.down.run < 3) →
        exec .downstreamGrant s = .next (({ s with down := { s.down with
          forwarded := rest, credits := s.down.credits - 1
          run := if s.down.internalList = [] then 0 else s.down.run + 1 } } : State).quietly [s.forwardedIssue f]))
      ∧ ∀ i rest, s.down.internalList = i :: rest → (s.down.forwarded = [] ∨ 3 ≤ s.down.run) →
        exec .downstreamGrant s = .next (({ s with down := { s.down with
          internalList := rest, credits := s.down.credits - 1, run := 0 } } : State).quietly [s.down.internalIssue i]))

/-- What a grant issues on DN (R22, R24, R35, section 11.2, R170): a forwarded read of its lines, a forwarded write in its
forwarded form, a fetch or verify read, a report slot or index line with a full mask, the pattern of a wipe. -/
def Obligations.IssuedOnDn : Prop :=
  ∀ s : State,
    (∀ i r, s.path.reads[i] = some r → s.forwardedIssue (.read i) = .issue r.addr (.read r.len))
    ∧ (∀ i w, s.path.writes[i] = some w → s.forwardedIssue (.write i) = .issue w.addr (.write w.lines))
    ∧ ∀ (i : Fin 8) (x : InternalSlot), s.down.internal[i] = some x →
      (∀ b, x.purpose = .fetch b → s.down.internalIssue i = .issue x.addr (.read x.len))
      ∧ (∀ n reg, x.purpose = .verifyRead n reg → s.down.internalIssue i = .issue x.addr (.read x.len))
      ∧ (∀ n l b, x.purpose = .reportSlot n l b → s.down.internalIssue i = .issue x.addr (.write [⟨l, fullMask⟩]))
      ∧ (∀ h t, x.purpose = .indexWrite h t → s.down.internalIssue i = .issue x.addr (.write [⟨indexLine h t, fullMask⟩]))
      ∧ ∀ k reg b, x.purpose = .wipeWrite k reg b → ∃ ls, s.down.internalIssue i = .issue x.addr (.write ls)
          ∧ ls.length = x.len ∧ ∀ n < x.len, ∃ l ∈ ls[n]?, l.mask = fullMask
            ∧ l.data = if k = 1 then prbsLine (prbsRun (512 * n) reg)
                else if k = 2 then ~~~ prbsLine (prbsRun (512 * n) reg) else 0

/-- A read that is not metered returns (R9, R23, R25, R26, R34): OKAY with its lines, deciphered each at its own address with
the key of the slot's job for view PLAIN, as they came for NONE and RAW; ERROR with lines of all ones. Its slot is free, its
counts fall, its credit is back. -/
def Obligations.ReadReturns : Prop :=
  ∀ (s : State) (i : Fin 32) (r : ReadSlot) (okay : Bool) (lines up : List Line), s.powered = true →
    s.path.reads[i] = some r → .read i ∉ s.down.forwarded → r.meter = none → (∀ m ∈ r.marks, m = .none) →
    (okay = true → lines.length = r.len) → (r.view ≠ .plain → up = lines) →
    (r.view = .plain → ∃ (q : Fin 16) (k : Key), r.job = some q ∧ s.keys[q] = some k
      ∧ up = lines.mapIdx fun n y => (Config.lineCipher k (r.addr + BitVec.ofNat 36 (64 * n))).symm y) →
    let u := ({ s with path := { s.path with reads := s.path.reads.set i none } } : State).uncounted r.entry r.job
    u.still = true →
    exec (.readReturn (.slot i) okay lines) s = .next (u.quietly
      [.response r.id .read okay (if okay then up else List.replicate r.len onesLine)])

/-- DN answers a write (R9, R24, R25, R26): the answer goes upstream, the slot is free, its counts fall, its credit is back; a
write answered ERROR, or one that is neither an index line write nor an anchor, hands RCI nothing. A completion of a
transaction that LRST left issued without a slot is discarded: nothing goes upstream, and its credit is back (R28). -/
def Obligations.WriteAnswered : Prop :=
  (∀ (s : State) (k : Nat) (o : Orphan) (okay : Bool) (lines : List Line), s.powered = true → s.down.orphans[k]? = some o →
    let u : State := { s with down := { s.down with orphans := s.down.orphans.eraseIdx k, credits := s.down.credits + 1 } }
    u.still = true →
    (o.dir = .read → exec (.readReturn (.orphan k) okay lines) s = .next u.quietly)
    ∧ (o.dir = .write → exec (.writeAnswer (.orphan k) okay) s = .next u.quietly))
  ∧ ∀ (s : State) (i : Fin 32) (w : WriteSlot) (okay : Bool), s.powered = true →
    s.path.writes[i] = some w → .write i ∉ s.down.forwarded →
    (okay = false ∨ (w.indexLine = false ∧ s.rci.rings.isSome = true)) →
    let u := ({ s with path := { s.path with writes := s.path.writes.set i none } } : State).uncounted w.entry w.job
    u.still = true →
    exec (.writeAnswer (.slot i) okay) s = .next (u.quietly [.response w.id .write okay []])

/-- An answered write of the command index line (R8, R185): while ANCHORED each field whose two bytes are enabled is offered, a
valid one is taken, and each refused one stands in one RING_FAULT report with the value kept. -/
def Obligations.IndexLineTaken : Prop :=
  ∀ (s : State) (i : Fin 32) (w : WriteSlot) (l : WriteLine) (win : Window) (g : Rings), s.powered = true →
    s.rci.hasEntry false = true → s.path.writes[i] = some w → .write i ∉ s.down.forwarded → w.indexLine = true →
    s.path.cmdWindow = some win → w.addr.toNat / 64 ≤ win.baseLine → w.lines[win.baseLine - w.addr.toNat / 64]? = some l →
    s.rci.startup = .anchored → s.rci.rings = some g →
    let tailOffered := l.mask.getLsbD 0 = true ∧ l.mask.getLsbD 1 = true
    let headOffered := l.mask.getLsbD 2 = true ∧ l.mask.getLsbD 3 = true
    let tail : BitVec 16 := l.data.extractLsb' 0 16
    let head : BitVec 16 := l.data.extractLsb' 16 16
    let tailGood := (tail - g.cmdHead).toNat ≤ g.cmdSlots ∧ (s.rci.hand = true → 1 ≤ (tail - g.cmdHead).toNat)
    let headGood := (g.repTail - head).toNat ≤ g.repSlots
    let u := ({ s with path := { s.path with writes := s.path.writes.set i none } } : State).uncounted w.entry w.job
    let v : State := { u with rci := { u.rci with rings := some { g with
      cmdTail := if tailOffered ∧ tailGood then tail else g.cmdTail
      repHead := if headOffered ∧ headGood then head else g.repHead } } }
    let faults : List RefusedIndex := (if tailOffered ∧ ¬ tailGood then [⟨false, tail, g.cmdTail⟩] else [])
      ++ (if headOffered ∧ ¬ headGood then [⟨true, head, g.repHead⟩] else [])
    v.still = true →
    exec (.writeAnswer (.slot i) true) s = .next (if faults = [] then v.quietly [.response w.id .write true []]
      else v.reported (.ringFault (.index faults)) 0 [.response w.id .write true []])

/-- The anchoring event (R181 to R183, R132): the OKAY answer to a write of the whole anchor line, while no anchor is held and
AWAIT_ANCHOR stands, gives the Source Table, the ring windows, the miss policy and the capture mode, sets the four indices to
0, and makes the part ANCHORED; a bad line is no anchor. A fault list that is not empty is handed as ACCOUNT_FAULT in that event. During
LOADING a good line is taken and the part goes on loading; the end of LOADING is then the anchoring event. A line is good exactly
under the six conditions of R182, read at the offsets of section 11.1. `a` is what the line spells. -/
def Obligations.AnchorTaken : Prop :=
  (∀ (s : State) (i : Fin 32) (w : WriteSlot) (l : WriteLine), s.powered = true →
    s.path.writes[i] = some w → .write i ∉ s.down.forwarded → w.indexLine = false → s.rci.rings = none →
    w.addr.toNat / 64 ≤ (anchorLine s.rci.straps).toNat / 64 →
    w.lines[(anchorLine s.rci.straps).toNat / 64 - w.addr.toNat / 64]? = some l → l.mask = fullMask →
    let u := ({ s with path := { s.path with writes := s.path.writes.set i none } } : State).uncounted w.entry w.job
    u.still = true →
    (anchor? l.data (anchorLine s.rci.straps) = none →
      exec (.writeAnswer (.slot i) true) s = .next (u.quietly [.response w.id .write true []]))
    ∧ ∀ a, anchor? l.data (anchorLine s.rci.straps) = some a →
      let taken := fun startup : Startup => ({ u with
        path := { u.path with
          roles := some a.roles, cmdWindow := some ⟨a.cmdBase.toNat / 64, a.cmdSlots⟩
          repWindow := some ⟨a.repBase.toNat / 64, a.repSlots⟩, missPolicy := some a.miss, captureMode := a.mode }
        rci := { u.rci with
          startup := startup, rings := some ⟨a.cmdBase, a.cmdSlots, a.repBase, a.repSlots, 0, 0, 0, 0⟩
          indexWritten := none } } : State)
      (s.rci.startup = .awaitAnchor → s.ace.faults.nonempty = false →
        exec (.writeAnswer (.slot i) true) s = .next ((taken .anchored).quietly [.response w.id .write true []]))
      ∧ (s.rci.startup = .awaitAnchor → s.ace.faults.nonempty = true → s.rci.hasEntry false = true →
        exec (.writeAnswer (.slot i) true) s = .next
          (({ taken .anchored with ace := { s.ace with faults := .empty } } : State).reported
            (.accountFault s.ace.faults) 0 [.response w.id .write true []]))
      ∧ (s.rci.startup = .loading →
        exec (.writeAnswer (.slot i) true) s = .next ((taken .loading).quietly [.response w.id .write true []])))
  ∧ (∀ (s : State) (g : Rings), s.powered = true → s.still = true → s.rci.startup = .loading → s.rci.rings = some g →
    let a := s.ace.load s.amem
    let v : State := { s with
      ace := { (a.triggerAll allRecords) with lockout := if a.service.failures = 5 then some s.ms else none }
      ccu := { s.ccu with bays := s.ccu.bays.map fun b => { b with due := .atOnce } }
      rci := { s.rci with startup := .anchored } }
    (v.ace.faults.nonempty = false → exec .loadingEnd s = .next v.quietly)
    ∧ (v.ace.faults.nonempty = true → s.rci.hasEntry false = true →
      exec .loadingEnd s = .next (({ v with ace := { v.ace with faults := .empty } } : State).reported
        (.accountFault v.ace.faults) 0)))
  ∧ ∀ (l : Line) (anchor : Addr) (a : Anchor),
    let f := fun off n : Nat => (l.extractLsb' (8 * off) (8 * n)).toNat
    let inC := fun n : Nat => a.cmdBase.toNat / 64 ≤ n ∧ n < a.cmdBase.toNat / 64 + (a.cmdSlots + 1)
    let inR := fun n : Nat => a.repBase.toNat / 64 ≤ n ∧ n < a.repBase.toNat / 64 + (a.repSlots + 1)
    anchor? l anchor = some a ↔
      (f 0 4 = 0x73406E4B ∧ f 4 4 = 1)
      ∧ ((List.range 16).map fun k => f (4 * k) 4).sum % 2 ^ 32 = 0
      ∧ ((∀ n : Fin 16, [Role.proc, .scanIn, .image, .mark, .net, .store, .other][(l.extractLsb' (64 + 4 * n.val) 4).toNat]?
            = some a.roles[n])
        ∧ (a.cmdSlots = f 24 2 ∧ a.cmdSlots ∈ [16, 32, 64, 128, 256, 512, 1024])
        ∧ (a.repSlots = f 26 2 ∧ a.repSlots ∈ [16, 32, 64, 128, 256, 512, 1024])
        ∧ [MissPolicy.openAll, .strict][f 36 1]? = some a.miss ∧ [CaptureMode.any, .writes][f 37 1]? = some a.mode)
      ∧ ((a.cmdBase.toNat = f 16 8 ∧ f 16 8 % 64 = 0 ∧ f 16 8 + 64 * (a.cmdSlots + 1) ≤ 2 ^ 36)
        ∧ (a.repBase.toNat = f 28 8 ∧ f 28 8 % 64 = 0 ∧ f 28 8 + 64 * (a.repSlots + 1) ≤ 2 ^ 36))
      ∧ (∀ n, ¬ (inC n ∧ inR n))
      ∧ (¬ inC (anchor.toNat / 64) ∧ ¬ inR (anchor.toNat / 64))

/-! ## Regions -/

/-- The pending commit completes when every entry of its changed set has an in-flight count of zero (R15, R18): each of its
shadow entries whose job is not OPEN or HELD is dropped, each live entry takes its shadow entry's value, every COMMIT hold is
released, and REGIONS_COMMITTED carries the number dropped; nothing else changes but the bound range counts (R44).
A read's return or a write's answer that frees the last slot of those entries completes the commit in the same event: the part is as
COMMIT_COMPLETION leaves it where the slot has been freed, with the response on UP. -/
def Obligations.CommitCompletes : Prop :=
  (∀ (s : State) (c : Commit), s.powered = true → s.rgt.commit = some c → (∀ i ∈ c.changed, s.rgt.inFlight[i] = 0) →
    s.rci.hasEntry false = true → (s.beginEvent.completeCommit).still = true →
    let lost := fun e : RegionEntry => e.job.any fun j =>
      !((s.job j).state == .opened || (s.job j).state == .held .secure || (s.job j).state == .held .quota)
    ∃ t, exec .commitCompletion s = .next t ∧ t.rgt.commit = none ∧ t.rgt.inFlight = s.rgt.inFlight
    ∧ (∀ i ∈ c.changed, t.rgt.shadow[i] = (s.rgt.shadow[i]).filter (fun e => !lost e) ∧ t.rgt.live[i] = t.rgt.shadow[i])
    ∧ (∀ i : Fin 32, i ∉ c.changed → t.rgt.shadow[i] = s.rgt.shadow[i] ∧ t.rgt.live[i] = s.rgt.live[i])
    ∧ t.path = { s.path with
        hold := s.path.hold.map fun h => if h.cause = .commit then { h with released := true } else h }
    ∧ t.rci = s.rci.joined
        (.regionsCommitted (c.changed.filter fun i => (s.rgt.shadow[i]).any lost).length) c.tag s.ms
    ∧ (∀ j : Fin 16, t.job j = { s.job j with bound := (t.rgt.rangesOf j).length })
    ∧ t.jct.openCounter = s.jct.openCounter ∧ t.jct.marking = s.jct.marking ∧ t.jct.stack = s.jct.stack
    ∧ t = { s with path := t.path, rgt := t.rgt, jct := t.jct, rci := t.rci, out := [], handed := [] })
  ∧ (∀ (s t : State) (i : Fin 32) (r : ReadSlot) (okay : Bool) (lines up : List Line), s.powered = true →
    s.path.reads[i] = some r → .read i ∉ s.down.forwarded → r.meter = none → (∀ m ∈ r.marks, m = .none) →
    (okay = true → lines.length = r.len) → (r.view ≠ .plain → up = lines) →
    (r.view = .plain → ∃ (q : Fin 16) (k : Key), r.job = some q ∧ s.keys[q] = some k
      ∧ up = lines.mapIdx fun n y => (Config.lineCipher k (r.addr + BitVec.ofNat 36 (64 * n))).symm y) →
    let u := ({ s with path := { s.path with reads := s.path.reads.set i none } } : State).uncounted r.entry r.job
    u.jct.metered = true → exec .commitCompletion u = .next t →
    exec (.readReturn (.slot i) okay lines) s = .next { t with
      out := [.response r.id .read okay (if okay then up else List.replicate r.len onesLine)] })
  ∧ ∀ (s t : State) (i : Fin 32) (w : WriteSlot) (okay : Bool), s.powered = true →
    s.path.writes[i] = some w → .write i ∉ s.down.forwarded →
    (okay = false ∨ (w.indexLine = false ∧ s.rci.rings.isSome = true)) →
    let u := ({ s with path := { s.path with writes := s.path.writes.set i none } } : State).uncounted w.entry w.job
    u.jct.metered = true → exec .commitCompletion u = .next t →
    exec (.writeAnswer (.slot i) okay) s = .next { t with out := [.response w.id .write okay []] }

/-- REGION_SET, REGION_CLEAR and REGIONS_COMMIT as they succeed (R12 to R14, R44): the shadow entry is written or made
invalid, with the bound range counts after it; a commit without a changed entry ends at once, one with an entry in flight
is pending, and one whose changed entries have no line in flight completes in the same event (R15), after its result.
The refusals of the region commands, in their order (R12 to R14): while a commit is pending BUSY_COMMIT before anything
else; then BAD_PARAM, JOB_STATE, BAD_PARAM for a RASTER entry of a SCAN job, GEOMETRY, DUP_PLANE, OVERLAP, WIPE_OVERLAP, and BAD_PARAM
for a job-bound entry over a ring window. A refused command changes nothing.
That the row runs its command without the command ring, whose indices stand, is the model's choice (log entry 17). -/
def Obligations.RegionCommands : Prop :=
  (∀ (s : State) (tag : BitVec 16), s.ready = true → s.rgt.commit = none →
      (∀ (p : RegionSetParams) (i : Fin 32) (e : RegionEntry), p.index = i.val → regionEntry? p = some e →
        (∀ j, e.job = some j → (s.job j).state.bindable = true) →
        (∀ j, e.job = some j → e.raster.isSome = true → (s.job j).kind ≠ .scan) →
        (∀ r, e.raster = some r → r.geom.stride * r.geom.frameLines ≤ e.count * 4096) →
        s.rgt.dupPlane i e = false → s.rgt.overlapRefused i e = false → s.wpe.overlaps e.base e.count = false →
        (e.cls ≠ .plain → s.path.ringTouches e.base e.count = false) →
        exec (.regionSet tag p) s = .next
          ((s.setRegions { s.rgt with shadow := s.rgt.shadow.set i (some e) }).reported (.result 1 .ok .none) tag))
      ∧ (∀ i : Fin 32, exec (.regionClear tag i.val) s = .next
          ((s.setRegions { s.rgt with shadow := s.rgt.shadow.set i none }).reported (.result 2 .ok .none) tag))
      ∧ ((∀ i : Fin 32, s.rgt.shadow[i] = s.rgt.live[i]) →
          exec (.regionsCommit tag) s = .next (s.reported (.result 3 .ok .none) tag))
      ∧ (∀ i : Fin 32, s.rgt.shadow[i] ≠ s.rgt.live[i] → s.rgt.inFlight[i] ≠ 0 →
          exec (.regionsCommit tag) s = .next
            (({ s with rgt := { s.rgt with commit := some ⟨s.rgt.changedSet, tag⟩ } } : State).reported
              (.result 3 .ok .none) tag))
      ∧ ((∃ i : Fin 32, s.rgt.shadow[i] ≠ s.rgt.live[i]) →
          (∀ i : Fin 32, s.rgt.shadow[i] ≠ s.rgt.live[i] → s.rgt.inFlight[i] = 0) →
          let lost := fun e : RegionEntry => e.job.any fun j => !(s.job j).state.bindable
          let g : Regions := { s.rgt with
            shadow := Vector.ofFn fun i : Fin 32 => if s.rgt.shadow[i] = s.rgt.live[i] then s.rgt.live[i]
              else (s.rgt.shadow[i]).filter fun e => !lost e
            live := Vector.ofFn fun i : Fin 32 => if s.rgt.shadow[i] = s.rgt.live[i] then s.rgt.live[i]
              else (s.rgt.shadow[i]).filter fun e => !lost e }
          let n := ((List.finRange 32).filter fun i => s.rgt.shadow[i] != s.rgt.live[i] && (s.rgt.shadow[i]).any lost).length
          exec (.regionsCommit tag) s = .next { s.setRegions g with
            path := { s.path with
              hold := s.path.hold.map fun h => if h.cause = .commit then { h with released := true } else h }
            rci := (s.rci.joined (.result 3 .ok .none) tag s.ms).joined (.regionsCommitted n) tag s.ms
            out := [], handed := [] })
      ∧ ∀ (g : Regions) (j : Fin 16), (s.setRegions g).rgt = g
          ∧ (s.setRegions g).job j = { s.job j with bound := (g.rangesOf j).length })
  ∧ (∀ (s : State) (tag : BitVec 16) (p : RegionSetParams), s.ready = true →
      (s.rgt.commit.isSome = true →
        exec (.regionSet tag p) s = .next (s.refused 1 tag .busyCommit)
        ∧ (∀ i, exec (.regionClear tag i) s = .next (s.refused 2 tag .busyCommit))
        ∧ exec (.regionsCommit tag) s = .next (s.refused 3 tag .busyCommit))
      ∧ (s.rgt.commit = none →
        (∀ i, 32 ≤ i → exec (.regionClear tag i) s = .next (s.refused 2 tag .badParam))
        ∧ (32 ≤ p.index ∨ regionEntry? p = none → exec (.regionSet tag p) s = .next (s.refused 1 tag .badParam))
        ∧ ∀ (i : Fin 32) (e : RegionEntry), p.index = i.val → regionEntry? p = some e →
          let wholeFrame := ∀ r, e.raster = some r → r.geom.stride * r.geom.frameLines ≤ e.count * 4096
          (∀ j, e.job = some j → (s.job j).state.bindable = false →
            exec (.regionSet tag p) s = .next (s.refused 1 tag .jobState))
          ∧ (∀ j, e.job = some j → (s.job j).state.bindable = true → e.raster.isSome = true → (s.job j).kind = .scan →
            exec (.regionSet tag p) s = .next (s.refused 1 tag .badParam))
          ∧ ((∀ j, e.job = some j → (s.job j).state.bindable = true ∧ (e.raster.isSome = true → (s.job j).kind ≠ .scan)) →
            (¬ wholeFrame → exec (.regionSet tag p) s = .next (s.refused 1 tag .geometry))
            ∧ (wholeFrame →
              (s.rgt.dupPlane i e = true → exec (.regionSet tag p) s = .next (s.refused 1 tag .dupPlane))
              ∧ (s.rgt.dupPlane i e = false → s.rgt.overlapRefused i e = true →
                exec (.regionSet tag p) s = .next (s.refused 1 tag .overlap))
              ∧ (s.rgt.dupPlane i e = false → s.rgt.overlapRefused i e = false → s.wpe.overlaps e.base e.count = true →
                exec (.regionSet tag p) s = .next (s.refused 1 tag .wipeOverlap))
              ∧ (s.rgt.dupPlane i e = false → s.rgt.overlapRefused i e = false → s.wpe.overlaps e.base e.count = false →
                e.cls ≠ .plain → s.path.ringTouches e.base e.count = true →
                exec (.regionSet tag p) s = .next (s.refused 1 tag .badParam))))))

/-! ## Metering -/

/-- Classification of a line and the start of a pass (R75 to R79). A line starts a new pass in the four cases of R75. The start takes
the tracker's tie away first: an OPEN plane of the tied record becomes CLOSED with its chunks reached as they stand, and a record that
this closes with no lines in flight settles. It then takes the oldest record of the frame that lacks the plane with the entry's
geometry, else opens a record where there is room and its reserve passes, else is held or refused; the tracker takes the frame, the
geometry and hw 0 and is tied to the record, whose plane is OPEN with chunks reached 0, and IRREGULAR for a start past chunk 0.
With its tracker tied to a record, a line at or past the first-pass mark of an incomplete pass is FIRST and moves the mark past it:
the record counts it in flight, its plane has reached it and is CLOSED at the last chunk, a skip sets IRREGULAR, a bay that is not
GENUINE sets UNPROVEN. Any other line is REMARK and changes nothing. `opened` is the model's name of a record (log entry 12). -/
def Obligations.LineClassified : Prop :=
  ∀ (env : TrialEnv) (tr : Trial) (f chunk : Nat) (passes : Nat → Bool),
    let p := env.raster.plane
    let g := env.raster.geom
    let t := tr.ctx.trackers[p]
    let total := g.chunksPerFrame
    let complete := ∃ h, t.geom = some h ∧ t.hw = h.chunksPerFrame
    let closed := fun (n : Nat) (r : PageRecord) => if r.opened = n then
      { r with planes := r.planes.set p ((r.planes[p]).map fun q =>
          if q.status = .opened then { q with status := .closed } else q) } else r
    let due := fun r : PageRecord =>
      r.planes.toList.all (fun q => q.all fun x => x.status == .closed || x.status == .absent) && r.lines == 0
    let started := fun (n : Nat) (r : PageRecord) => if r.opened = n then
      { r with
        planes := r.planes.set p ((r.planes[p]).map fun q => { q with status := .opened, chunks := 0 })
        irregular := r.irregular || decide (chunk ≠ 0) } else r
    let lacks := fun r : PageRecord => r.frame = f ∧ ∃ q ∈ r.planes[p], q.status = .notSeen ∧ q.geom = g
    (t.needsPass g f chunk = true ↔
      t.frame = none ∨ (∃ h, t.frame = some h ∧ h ≠ f) ∨ t.geom ≠ some g ∨ (complete ∧ chunk = 0))
    ∧ (∀ a, env.place a = (f, chunk) → tr.line env passes a =
      if t.needsPass g f chunk then (tr.startPass env passes f chunk).map (·.classify env chunk)
      else .ok (tr.classify env chunk))
    ∧ (∀ n u, t.tied = some n → u = tr.closeTie p →
      u.ctx.queue = (tr.ctx.queue.map (closed n)).filter (fun r => !due r)
      ∧ u.settled = tr.settled ++ (tr.ctx.queue.map (closed n)).filter due
      ∧ (u.ctx.trackers[p]).tied = none ∧ (u.ctx.trackers[p]).frame = t.frame ∧ (u.ctx.trackers[p]).hw = t.hw
      ∧ u.rmu = tr.rmu ∧ u.openedNow = tr.openedNow ∧ u.marks = tr.marks
      ∧ tr.startPass env passes f chunk = u.startPass env passes f chunk)
    ∧ (t.tied = none → tr.closeTie p = tr)
    ∧ (∀ before r behind, t.tied = none → tr.ctx.queue = before ++ r :: behind → (∀ x ∈ before, ¬ lacks x) → lacks r →
      tr.startPass env passes f chunk = .ok { tr with ctx := {
        trackers := tr.ctx.trackers.set p ⟨some f, some g, 0, some r.opened⟩
        queue := tr.ctx.queue.map (started r.opened) } })
    ∧ (∀ n, t.tied = some n → t.isComplete = false → t.hw ≤ chunk →
      tr.classify env chunk = { tr with
        ctx := { trackers := tr.ctx.trackers.set p { t with hw := chunk + 1 }
                 queue := tr.ctx.queue.map fun r => if r.opened = n then
                   { r with
                     lines := r.lines + 1, irregular := r.irregular || decide (t.hw < chunk)
                     unproven := r.unproven || !env.genuine
                     planes := r.planes.set p ((r.planes[p]).map fun q =>
                       { q with chunks := chunk + 1, status := if chunk + 1 = total then .closed else q.status }) }
                   else r }
        marks := tr.marks ++ [.first n p] })
    ∧ (∀ n, t.tied = some n → (t.isComplete = true ∨ chunk < t.hw) →
      tr.classify env chunk = { tr with marks := tr.marks ++ [.remark (some n) p] })
    ∧ (t.tied = none → tr.classify env chunk = { tr with marks := tr.marks ++ [.remark none p] })
    ∧ (t.tied = none → (∀ r ∈ tr.ctx.queue, r.opened ≤ tr.rmu.opened) → (∀ r ∈ tr.ctx.queue, ¬ lacks r) →
      (4 ≤ tr.ctx.queue.length → tr.startPass env passes f chunk = .error .held)
      ∧ (tr.ctx.queue.length < 4 → passes (tr.openedNow * env.reserve) = false →
          tr.startPass env passes f chunk = .error .quota)
      ∧ (tr.ctx.queue.length < 4 → passes (tr.openedNow * env.reserve) = true → ∃ tr' r,
          tr.startPass env passes f chunk = .ok tr' ∧ tr'.ctx.queue = tr.ctx.queue ++ [r]
          ∧ tr'.ctx.trackers = tr.ctx.trackers.set p ⟨some f, some g, 0, some (tr.rmu.opened + 1)⟩
          ∧ tr'.rmu = ⟨tr.rmu.recordCounter + 1, tr.rmu.opened + 1⟩ ∧ tr'.openedNow = tr.openedNow + 1
          ∧ tr'.marks = tr.marks ∧ r.number = tr.rmu.recordCounter + 1 ∧ r.frame = f ∧ r.lines = 0
          ∧ r.irregular = decide (chunk ≠ 0) ∧ r.incomplete = false ∧ r.unproven = false ∧ r.reserve = env.reserve
          ∧ r.job = env.job ∧ r.nonce = env.nonce ∧ r.user = env.user
          ∧ ∀ q : Fin 4, r.planes[q] = (env.planes[q]).map fun g => ⟨g, if q = p then .opened else .notSeen, 0, 0⟩))

/-- Dot sums (R80): at depth 1, 2 or 4 the sum of the 512, 256 or 128 values of a line, each that many bits wide, and so at
most 512, 768 or 1920; a line of all ones gives the most, and a blank line 0.
What a returned mark does to the records (R81, R82): a FIRST line adds its sum to the named record's plane and takes one
line out of flight in every context that holds the record; REMARK and NONE touch no record. -/
def Obligations.DotSums : Prop :=
  (∀ l : Line,
      dotSum 1 l = ((List.range 512).map fun i => if l.getLsbD i then 1 else 0).sum ∧ dotSum 1 l ≤ 512
      ∧ dotSum 2 l = ((List.range 256).map fun i => (l.extractLsb' (2 * i) 2).toNat).sum ∧ dotSum 2 l ≤ 768
      ∧ dotSum 4 l = ((List.range 128).map fun i => (l.extractLsb' (4 * i) 4).toNat).sum ∧ dotSum 4 l ≤ 1920
      ∧ dotSum 1 onesLine = 512 ∧ dotSum 2 onesLine = 768 ∧ dotSum 4 onesLine = 1920
      ∧ dotSum 1 0 = 0 ∧ dotSum 2 0 = 0 ∧ dotSum 4 0 = 0)
  ∧ (∀ (j : Jobs) (n : Nat) (p : Fin 4) (d : Nat),
      (j.returnMark (.first n p) d).contexts = j.contexts.map (fun m => { m with ctx := { m.ctx with
        queue := m.ctx.queue.map fun r => if r.opened = n then
          { r with lines := r.lines - 1, planes := r.planes.set p ((r.planes[p]).map fun q => { q with dots := q.dots + d }) }
          else r } })
      ∧ (∀ x, j.returnMark (.remark x p) d = j) ∧ j.returnMark .none d = j)

/-- A metered read returns (R23, R34, R81, R82, R156). OKAY: each FIRST line's dot sum goes to its record's plane and takes a line out
of flight, wherever the record's context stands; the sum over all marked lines goes to the job's toner dots and to TMU as one
accrual; the lines go upstream, deciphered first for view PLAIN, and the sums are taken from that form. ERROR: each FIRST line goes out
of flight with no dots, nothing is accrued, and all-ones lines go upstream. The slot is freed. The marks settle one after the other, each
as `DotSums` says, and the job's toner dots of the plane are a 48-bit saturating sum. -/
def Obligations.MeteredReadReturns : Prop :=
  (∀ s : State, s.settleMarks [] [] = s
    ∧ ∀ (m : LineMark) (ms : List LineMark) (d : Nat) (ds : List Nat),
      s.settleMarks (m :: ms) (d :: ds) = ({ s with jct := s.jct.returnMark m d } : State).settleMarks ms ds)
  ∧ (∀ (s : State) (j : Fin 16) (p : Fin 4) (d : Nat),
    let c := (s.job j).counters
    s.addDots j p d = { s with jct := { s.jct with slots := s.jct.slots.set j { s.job j with
      counters := { c with dots := c.dots.set p (min (2 ^ 48 - 1) (c.dots[p] + d)) } } } })
  ∧ ∀ (s : State) (i : Fin 32) (r : ReadSlot) (lines up : List Line) (p : Fin 4) (depth : Nat) (j : Fin 16), s.powered = true →
    s.path.reads[i] = some r → .read i ∉ s.down.forwarded → r.meter = some (p, depth) → r.job = some j →
    let u := ({ s.beginEvent with path := { s.path with reads := s.path.reads.set i none } } : State).uncounted r.entry r.job
    (lines.length = r.len → (r.view ≠ .plain → up = lines) →
      (r.view = .plain → ∃ k : Key, s.keys[j] = some k
        ∧ up = lines.mapIdx fun n y => (Config.lineCipher k (r.addr + BitVec.ofNat 36 (64 * n))).symm y) →
      let sums := (r.marks.zip up).map fun m => if m.1 = .none then 0 else dotSum depth m.2
      let v := (((u.settleMarks r.marks sums).addDots j p sums.sum).accrue p sums.sum)
      v.still = true →
      exec (.readReturn (.slot i) true lines) s = .next { v.concluded with out := [.response r.id .read true up] })
    ∧ (let v := u.settleMarks r.marks (List.replicate r.marks.length 0)
      v.still = true →
      exec (.readReturn (.slot i) false lines) s = .next
        (v.quietly [.response r.id .read false (List.replicate r.len onesLine)]))

/-- RECORD_SETTLE (R84, R85, R87, R104 to R106): every closed record without lines in flight leaves its queue, and no other; a tracker
tied to one is untied and else stands; an own context left empty is discarded; the ASSEMBLY holds of the jobs whose contexts lost a
record are released. A lone one is posted with its charge, or as aborted with its reserve released, its job's counters rise, and its
page report is handed. -/
def Obligations.RecordsSettle : Prop :=
  ∀ s : State, s.powered = true →
    let e := s.beginEvent.settleDue
    let left := fun c : Context => (⟨c.trackers.map fun t => match t.tied with
        | some n => if (c.queue.filter fun r => r.isDue).any (fun r => r.opened == n) then { t with tied := none } else t
        | none => t, c.queue.filter fun r => !r.isDue⟩ : Context)
    (e.still = true → exec .recordSettle s = .next e.concluded)
    ∧ e.jct.marking = s.jct.marking.map (fun m => ⟨m.job, left m.ctx⟩)
    ∧ e.jct.stack = s.jct.stack.map (fun m => ⟨m.job, left m.ctx⟩)
    ∧ (∀ j : Fin 16, (e.job j).own =
        match (s.job j).own with
        | some c => if (left c).queue = [] then none else some (left c)
        | none => none)
    ∧ e.path = { s.path with
        hold := s.path.hold.map fun h =>
          if ∃ m ∈ s.jct.contexts, h.cause = .assembly m.job ∧ ∃ r ∈ m.ctx.queue, r.isDue = true then { h with released := true }
          else h }
    ∧ (∀ j : Fin 16, e.job j = { s.job j with own := (e.job j).own, counters := (e.job j).counters })
    ∧ e = { s with out := [], handed := e.handed, path := e.path, jct := e.jct, ace := e.ace }
    ∧ ∀ r, s.jct.due = [r] →
      let c := (s.job r.job).counters
      (r.isCharged = true → e.ace = s.ace.postCharge r (s.price r)
        ∧ e.handed = [⟨.pageCharged (s.price r), 0, false⟩]
        ∧ (e.job r.job).counters = { c with
            mono := if (s.price r).colour then c.mono else min max32 (c.mono + 1)
            colour := if (s.price r).colour then min max32 (c.colour + 1) else c.colour
            charge := min max32 (c.charge + (s.price r).charge) })
      ∧ (r.isCharged = false → e.ace = s.ace.modReserved r.user (· - r.reserve)
        ∧ e.handed = [⟨.pageAborted r, 0, false⟩]
        ∧ (e.job r.job).counters = { c with aborted := min max32 (c.aborted + 1) })
      ∧ ∀ j : Fin 16, j ≠ r.job → (e.job j).counters = (s.job j).counters

/-! ## Charging -/

/-- Class lookups, the page reserve and the charge (R91, R96, R100 to R103): the class of (L, W) is the smallest valid index that
admits both, or the largest valid one, oversize; a declared class resolves to the smallest valid index at or above it, or the largest.
The reserve is that of the largest frame of the job's live RASTER entries, and the charge that of the lines and width of the record,
each with its colour term, and with M or with the surcharge on the coverage.
No page costs more than its reserve (R103, R104): the charge of a record is at most the page reserve formed from
the same table, tariff and declared class, where each expected plane of the record is a RASTER entry of its job with the same
geometry and has not been read past its frame. -/
def Obligations.ChargeWithinReserve : Prop :=
  (∀ (t : ClassTable) (tar : Tariff) (declared : Option (Fin 8)) (es : List Raster) (r : PageRecord) (b : Int),
    ClassTable.sound t = true →
    (∀ (p : Fin 4) (q : PlaneRec), r.planes[p] = some q →
      (∃ e ∈ es, e.plane = p ∧ e.geom = q.geom) ∧ q.chunks ≤ q.geom.chunksPerFrame ∧ 64 ≤ q.geom.stride) →
    (priceOf t tar declared r b).charge ≤ pageReserve t tar declared es)
  ∧ (∀ (t : ClassTable) (lines dots : Nat) (d i : Fin 8), (∃ k : Fin 8, (t[k]).valid = true) →
    let fits := fun k : Fin 8 => (t[k]).valid = true ∧ lines ≤ (t[k]).maxLines ∧ dots ≤ (t[k]).maxDots
    let largest := (t[i]).valid = true ∧ ∀ k : Fin 8, i < k → (t[k]).valid = false
    (classOf t lines dots = (i, false) ↔ fits i ∧ ∀ k < i, ¬ fits k)
    ∧ (classOf t lines dots = (i, true) ↔ (∀ k, ¬ fits k) ∧ largest)
    ∧ (effectiveClass t d = i ↔ ((t[i]).valid = true ∧ d ≤ i ∧ ∀ k : Fin 8, d ≤ k → k < i → (t[k]).valid = false)
      ∨ ((∀ k : Fin 8, d ≤ k → (t[k]).valid = false) ∧ largest)))
  ∧ (∀ (t : ClassTable) (tar : Tariff) (declared : Option (Fin 8)) (es : List Raster),
    let raised := fun c : Fin 8 => match declared with
      | none => c
      | some d => max c (effectiveClass t d)
    (∀ lines width : Nat, (∃ e ∈ es, e.geom.frameLines = lines) → (∀ e ∈ es, e.geom.frameLines ≤ lines) →
      (∃ e ∈ es, e.geom.stride * 8 / e.geom.depth = width) → (∀ e ∈ es, e.geom.stride * 8 / e.geom.depth ≤ width) →
      let c := raised (classOf t lines width).1
      pageReserve t tar declared es
        = (t[c]).basePrice + (if es.any (fun e => e.plane ≠ 0) then (t[c]).colourPrice else 0) + tar.cap)
    ∧ (∀ d, declared = some d → pageReserve t tar declared [] = (t[effectiveClass t d]).basePrice + tar.cap)
    ∧ ∀ c : Fin 8, declared = none → (t[c]).valid = true → (∀ k < c, (t[k]).valid = false) →
      pageReserve t tar declared [] = (t[c]).basePrice + tar.cap)
  ∧ (∀ (t : ClassTable) (tar : Tariff) (declared : Option (Fin 8)) (r : PageRecord) (b : Int) (lines width : Nat),
    let expected := (List.finRange 4).filter fun i => (r.planes[i]).isSome
    let reached := fun q : PlaneRec => (q.chunks + q.geom.stride / 64 - 1) / (q.geom.stride / 64)
    let dotsWide := fun q : PlaneRec => q.geom.stride * 8 / q.geom.depth
    let x := priceOf t tar declared r b
    let found := classOf t lines width
    let c := match declared with
      | none => found.1
      | some d => max found.1 (effectiveClass t d)
    let colour := ∃ i : Fin 4, i ≠ 0 ∧ (r.planes[i]).isSome = true ∧ tar.threshold ≤ x.coverage[i]
    (∃ i : Fin 4, ∃ q, r.planes[i] = some q ∧ q.status = .closed ∧ reached q = lines) →
    (∀ (i : Fin 4) (q : PlaneRec), r.planes[i] = some q → q.status = .closed → reached q ≤ lines) →
    (∃ i : Fin 4, ∃ q, r.planes[i] = some q ∧ dotsWide q = width) →
    (∀ (i : Fin 4) (q : PlaneRec), r.planes[i] = some q → dotsWide q ≤ width) →
    x.record = r ∧ x.balance = b ∧ x.detectedClass = found.1.val ∧ x.oversize = found.2 ∧ x.chargeClass = c.val
    ∧ (∀ (i : Fin 4) (q : PlaneRec), r.planes[i] = some q → x.coverage[i] = (if q.status = .closed then
        q.dots * 10000 / (q.geom.frameLines * dotsWide q * (2 ^ q.geom.depth - 1)) else 0))
    ∧ (∀ i : Fin 4, r.planes[i] = none → x.coverage[i] = 0)
    ∧ (x.colour = true ↔ colour)
    ∧ x.covsum = (if r.irregular then 10000 * expected.length else (expected.map fun i => x.coverage[i]).sum)
    ∧ x.surcharge = min tar.cap ((x.covsum - tar.free) * tar.surcharge / 10000)
    ∧ x.charge = (t[c]).basePrice + (if x.colour then (t[c]).colourPrice else 0) + x.surcharge
    ∧ ((∀ k : Fin 8, (t[k]).basePrice ≤ 65535 ∧ (t[k]).colourPrice ≤ 65535) → tar.cap ≤ 65535 → x.charge ≤ 196605))
  ∧ ∀ (s : State) (j : Fin 16) (r : PageRecord),
    (∃ es, s.reserveOf j = pageReserve s.ace.classes s.ace.tariff (s.job j).declared es
      ∧ ∀ e, e ∈ es ↔ ∃ i : Fin 32, ∃ x, s.rgt.live[i] = some x ∧ x.job = some j ∧ x.raster = some e)
    ∧ s.price r = priceOf s.ace.classes s.ace.tariff (s.job r.job).declared r
      ((s.ace.users[r.user]).stored.balance - (s.price r).charge)

/-- The reserve check (R97): a reserve passes exactly when the user's test and the department's test hold; `more` is what an
earlier grant of the same trial has raised (R98).
A reserve that passes its check, and a charge within its reserve, keep every user within its overdraft limit and every
limited department within its allowance (R104).
What posting a charge changes (R104, R105): the user's balance, reserved amount, lifetime impressions, lifetime charge and
posting count, the used and reserved amounts of its department, and one counter of the device meters, in the outside bank
for an UNPROVEN record; every other user, department and counter stands. The counters of the record's job rise. That the counter of a
class and kind stands at place 2 times the class, plus 1 for colour, of its bank is the model's choice (log entry 14). -/
def Obligations.ChargePosted : Prop :=
  (∀ (a : Ace) (u : Fin 256) (more r : Nat), a.reservePasses u more r = true ↔
    (-((a.users[u]).stored.overdraft : Int) ≤ (a.users[u]).stored.balance - ((a.users[u]).reserved + more : Nat) - r
    ∧ ∀ (d : Fin 16) (limit : Nat), (a.users[u]).stored.department = some d → (a.depts[d]).stored.allowance = some limit →
        (a.depts[d]).stored.used + ((a.depts[d]).reserved + more) + r ≤ limit))
  ∧ (
    let good := fun a : Ace =>
      (∀ u : Fin 256, -((a.users[u]).stored.overdraft : Int) ≤ (a.users[u]).stored.balance - (a.users[u]).reserved)
      ∧ ∀ (d : Fin 16) (limit : Nat), (a.depts[d]).stored.allowance = some limit →
        (a.depts[d]).stored.used + (a.depts[d]).reserved ≤ limit
    (∀ (a : Ace) (u : Fin 256) (r : Nat), good a → a.reservePasses u 0 r = true → good (a.modReserved u (· + r)))
    ∧ ∀ (a : Ace) (r : PageRecord) (p : PageCharge), good a → p.charge ≤ r.reserve →
        r.reserve ≤ (a.users[r.user]).reserved →
        (∀ d, (a.users[r.user]).stored.department = some d → r.reserve ≤ (a.depts[d]).reserved) → good (a.postCharge r p))
  ∧ (∀ (a : Ace) (r : PageRecord) (p : PageCharge), p.chargeClass < 8 →
      let b := a.postCharge r p
      let u := r.user
      let i := 2 * p.chargeClass + (if p.colour then 1 else 0)
      (b.users[u]).stored = { (a.users[u]).stored with
          balance := (a.users[u]).stored.balance - p.charge
          lifeMono := if p.colour then (a.users[u]).stored.lifeMono else min max32 ((a.users[u]).stored.lifeMono + 1)
          lifeColour := if p.colour then min max32 ((a.users[u]).stored.lifeColour + 1) else (a.users[u]).stored.lifeColour
          lifeCharge := min max32 ((a.users[u]).stored.lifeCharge + p.charge) }
      ∧ (b.users[u]).reserved = (a.users[u]).reserved - r.reserve
      ∧ (b.users[u]).posting = min 32 ((a.users[u]).posting + 1)
      ∧ (∀ v : Fin 256, v ≠ u → (b.users[v]).stored = (a.users[v]).stored ∧ (b.users[v]).reserved = (a.users[v]).reserved)
      ∧ (∀ d, (a.users[u]).stored.department = some d →
          (b.depts[d]).stored.used = min max32 ((a.depts[d]).stored.used + p.charge)
          ∧ (b.depts[d]).reserved = (a.depts[d]).reserved - r.reserve
          ∧ (b.depts[d]).stored.allowance = (a.depts[d]).stored.allowance)
      ∧ (∀ d : Fin 16, (a.users[u]).stored.department ≠ some d →
          (b.depts[d]).stored = (a.depts[d]).stored ∧ (b.depts[d]).reserved = (a.depts[d]).reserved)
      ∧ ∀ k : Fin 16,
          (b.meters.stored.contract)[k] = (if r.unproven = false ∧ k.val = i then min max32 (a.meters.stored.contract[k] + 1)
            else a.meters.stored.contract[k])
          ∧ (b.meters.stored.outside)[k] = (if r.unproven = true ∧ k.val = i then min max32 (a.meters.stored.outside[k] + 1)
            else a.meters.stored.outside[k]))
  ∧ ∀ (s : State) (r : PageRecord) (report : Bool), r.isCharged = true →
      let p := s.price r
      let c := (s.job r.job).counters
      ((s.settle report r).job r.job).counters = { c with
        mono := if p.colour then c.mono else min max32 (c.mono + 1)
        colour := if p.colour then min max32 (c.colour + 1) else c.colour
        charge := min max32 (c.charge + p.charge) }

/-! ## Jobs -/

/-- A job leaves CLOSING (R52, R53, R169) when nothing refers to it and the Wipe Queue has room: its key is destroyed, its
distinct ranges join the Wipe Queue in their order with the job's settings, at most 32 of them, its region entries become
invalid, its slot is WIPING or FREE, and JOB_CLOSED is handed. An entry that comes to the head of the Wipe Queue and whose
range is quiet starts in the same event (R170). -/
def Obligations.JobLeavesClosing : Prop :=
  ∀ (s : State) (j : Fin 16), s.powered = true → (s.job j).state = .closing → (s.job j).refs = 0 →
    s.jct.isMarking j = false → s.jct.isStacked j = false → (s.job j).own = none →
    ((s.job j).passes = 0 ∨ min (s.job j).bound 32 ≤ 32 - s.wpe.queue.length) →
    let q := s.job j
    let e := s.beginEvent.leaveClosing j
    let rs := if q.passes = 0 then [] else s.rgt.rangesOf j
    let n := min rs.length (min 32 (32 - s.wpe.queue.length))
    e.startWipe.still = true →
    exec (.jobLeavesClosing j) s = .next e.startWipe.concluded
    ∧ e.keys = s.keys.set j none
    ∧ (∀ i : Fin 32, e.rgt.live[i] = (s.rgt.live[i]).filter (fun x => !x.names j)
        ∧ e.rgt.shadow[i] = (s.rgt.shadow[i]).filter (fun x => !x.names j))
    ∧ e.wpe.queue.length = s.wpe.queue.length + n ∧ e.wpe.counter = s.wpe.counter + BitVec.ofNat 32 n
    ∧ (∀ k < n, ∃ r, rs[k]? = some r ∧ e.wpe.queue[s.wpe.queue.length + k]? =
        some ⟨s.wpe.counter + BitVec.ofNat 32 (k + 1), r.1, r.2, q.passes, q.verify, .job j q.nonce, .waiting, 0⟩)
    ∧ (e.job j).state = (if n = 0 then .free else .wiping) ∧ (e.job j).wipes = n ∧ (e.job j).nonce = q.nonce
    ∧ (∀ k : Fin 16, k ≠ j → (e.job k).state = (s.job k).state)
    ∧ ⟨.jobClosed j q.nonce q.user q.counters n (rs.length - n) (if n = 0 then .free else .wiping), q.closeTag, false⟩
        ∈ e.handed

/-- JOB_OPEN (R31, R45 to R47): the lowest FREE slot takes the job, OPEN, or HELD when it is a PRINT job with hold, with the
next nonce of the open counter and a fresh random key. The key drawn is free (log entry 5).
The refusals of JOB_OPEN (R45, R47), in their order: the user's state, then the PIN, whose failure count rises and locks
the record at 5, then the user's limit, then the slots; a PIN that matches has cleared the failure count before either of these.
That the row runs its command without the command ring, whose indices stand, is the model's choice (log entry 17). -/
def Obligations.JobOpens : Prop :=
  (∀ (s : State) (tag : BitVec 16) (p : JobOpenParams) (k : JobOpenOk) (j : Fin 16), s.ready = true →
      jobOpenOk? p = some k → (s.ace.users[k.user]).stored.state = .active →
      (k.hold = false → (s.ace.users[k.user]).stored.digest = some (Config.userDigest k.user p.pin)) →
      (s.jct.slots.toList.filter fun q => q.state != .free && q.user == k.user).length < (s.ace.users[k.user]).stored.maxJobs →
      (s.job j).state = .free → (∀ i < j, (s.job i).state ≠ .free) →
      let r := (s.ace.users[k.user]).stored
      let u : State := if k.hold ∨ r.failures = 0 then s else
        { s with ace := (s.ace.putUser k.user { r with failures := 0 }).trigger (.user k.user) }
      exec (.jobOpen tag p) s = .next (({ u with
        jct := { u.jct with
          slots := u.jct.slots.set j
            ⟨if k.hold then .held .secure else .opened, k.kind, k.user, k.declared, k.passes, k.verify, false, false, 0, 0, 0,
              none, ⟨0, 0, 0, 0, Vector.replicate 4 0⟩, u.jct.openCounter + 1, 0⟩
          openCounter := u.jct.openCounter + 1 }
        keys := u.keys.set j (some (Config.randomKey u.draws)), draws := u.draws + 1 } : State).reported
          (.result 5 .ok (.jobOpened j (s.jct.openCounter + 1))) tag))
  ∧ (∀ (s : State) (tag : BitVec 16) (p : JobOpenParams), s.ready = true →
      (jobOpenOk? p = none → exec (.jobOpen tag p) s = .next (s.refused 5 tag .badParam))
      ∧ ∀ k, jobOpenOk? p = some k →
        let r := (s.ace.users[k.user]).stored
        (r.state = .unused → exec (.jobOpen tag p) s = .next (s.refused 5 tag .badUser))
        ∧ (r.state = .locked → exec (.jobOpen tag p) s = .next (s.refused 5 tag .userLocked))
        ∧ (r.state = .suspect → exec (.jobOpen tag p) s = .next (s.refused 5 tag .userSuspect))
        ∧ (r.state = .active → k.hold = false → r.digest ≠ some (Config.userDigest k.user p.pin) → r.failures ≤ 4 →
            let r' := { r with failures := r.failures + 1, state := if r.failures = 4 then .locked else .active }
            exec (.jobOpen tag p) s = .next (({ s with
              ace := (s.ace.putUser k.user r').trigger (.user k.user) } : State).refused 5 tag .badPin))
        ∧ (r.state = .active → k.hold = true → r.maxJobs ≤ s.jct.countOf k.user →
            exec (.jobOpen tag p) s = .next (s.refused 5 tag .userBusy))
        ∧ (r.state = .active → k.hold = true → s.jct.countOf k.user < r.maxJobs → (∀ j : Fin 16, (s.job j).state ≠ .free) →
            exec (.jobOpen tag p) s = .next (s.refused 5 tag .noSlot))
        ∧ (r.state = .active → k.hold = false → r.digest = some (Config.userDigest k.user p.pin) →
          let u : State := if r.failures = 0 then s else
            { s with ace := (s.ace.putUser k.user { r with failures := 0 }).trigger (.user k.user) }
          (r.maxJobs ≤ s.jct.countOf k.user → exec (.jobOpen tag p) s = .next (u.refused 5 tag .userBusy))
          ∧ (s.jct.countOf k.user < r.maxJobs → (∀ j : Fin 16, (s.job j).state ≠ .free) →
            exec (.jobOpen tag p) s = .next (u.refused 5 tag .noSlot))))
  ∧ ∀ (p : JobOpenParams) (k : JobOpenOk), jobOpenOk? p = some k ↔
      p.user = k.user.val ∧ [JobKind.copy, .scan, .print][p.kind]? = some k.kind ∧ p.hold = (if k.hold then 1 else 0)
      ∧ p.declared = k.declared.map Fin.val ∧ p.passes = k.passes ∧ k.passes ≤ 3 ∧ p.verify = (if k.verify then 1 else 0)
      ∧ pinDigits p.pin = true ∧ (k.hold = true → k.kind = .print)

/-- JOB_RELEASE and JOB_CLOSE (R50, R51, R57, R61, R86): a HELD job becomes OPEN on its user's PIN, after a reserve check when it is
HELD for QUOTA; a job with transactions outstanding goes to CLOSING and waits there, a stacked one with close pending, and the
marking job gives up the marking register: its records are force-closed, and those with lines in flight stay in an own context. A
job to which nothing refers and whose wipes find room leaves CLOSING in the accepting event (R52, R53), with the result before its
JOB_CLOSED: its key is destroyed, its ranges join the Wipe Queue, its entries become invalid, and its slot is WIPING or FREE.
Their refusals, in order: a slot above 15 or a PIN byte that is no digit BAD_PARAM; a job in another state JOB_STATE; a LOCKED user
USER_LOCKED; a PIN that does not match BAD_PIN, with the failure counted (R47); a reserve that does not pass QUOTA.
That the row runs its command without the command ring, whose indices stand, is the model's choice (log entry 17). -/
def Obligations.JobReleaseAndClose : Prop :=
  (∀ (s : State) (tag : BitVec 16) (j : Fin 16), s.ready = true →
    (∀ (why : HoldReason) (pin : Word8), (s.job j).state = .held why → pinDigits pin = true →
      (s.ace.users[(s.job j).user]).stored.state ≠ .locked →
      (s.ace.users[(s.job j).user]).stored.digest = some (Config.userDigest (s.job j).user pin) →
      (why = .quota → s.ace.reservePasses (s.job j).user 0 (s.reserveOf j) = true) →
      let v := (s.job j).user
      let r := (s.ace.users[v]).stored
      let u : State := if r.failures = 0 then s else
        { s with ace := (s.ace.putUser v { r with failures := 0 }).trigger (.user v) }
      exec (.jobRelease tag j.val pin) s = .next (({ u with jct := { u.jct with
        slots := u.jct.slots.set j { u.jct.slots[j] with state := .opened } } } : State).reported
          (.result 6 .ok .none) tag))
    ∧ ((s.job j).state.bindable = true → 0 < (s.job j).refs →
      (s.jct.isMarking j = false →
        exec (.jobClose tag j.val) s = .next (({ s with jct := { s.jct with
          slots := s.jct.slots.set j { s.jct.slots[j] with
            state := .closing, closeTag := tag
            closePending := s.jct.isStacked j || (s.job j).closePending } } } : State).reported (.result 7 .ok .none) tag))
      ∧ (∀ m, s.jct.marking = some m → m.job = j → m.ctx.queue = [] →
        exec (.jobClose tag j.val) s = .next (({ s with
          jct := { s.jct with
            marking := none
            slots := s.jct.slots.set j { s.jct.slots[j] with state := .closing, closeTag := tag, own := none } }
          path := { s.path with hold := s.path.hold.map fun h =>
            if h.cause = .assembly j then { h with released := true } else h } } : State).reported (.result 7 .ok .none) tag))))
  ∧ (∀ (s : State) (tag : BitVec 16) (j : Fin 16) (m : Marked), s.ready = true → s.jct.marking = some m → m.job = j →
    (s.job j).state.bindable = true → m.ctx.queue ≠ [] → (∀ r ∈ m.ctx.queue, 0 < r.lines) →
    let forced : Context :=
      { trackers := m.ctx.trackers.map fun t =>
          if m.ctx.queue.any (fun r => t.tied == some r.opened) then ⟨none, none, 0, none⟩ else t
        queue := m.ctx.queue.map fun r => { r with
          incomplete := true
          planes := r.planes.map fun q => q.map fun q => { q with
            status := if q.status = .notSeen then .absent else if q.status = .opened then .closed else q.status } } }
    exec (.jobClose tag j.val) s = .next (({ s with
      jct := { s.jct with
        marking := none
        slots := s.jct.slots.set j { s.jct.slots[j] with state := .closing, closeTag := tag, own := some forced } }
      path := { s.path with hold := s.path.hold.map fun h =>
        if h.cause = .assembly j then { h with released := true } else h } } : State).reported (.result 7 .ok .none) tag))
  ∧ (∀ (s : State) (tag : BitVec 16) (j : Fin 16), s.ready = true → (s.job j).state.bindable = true → (s.job j).refs = 0 →
    (∀ m, s.jct.marking = some m → m.job = j → m.ctx.queue = []) → s.jct.isStacked j = false → (s.job j).own = none →
    ((s.job j).passes = 0 ∨ min (s.job j).bound 32 ≤ 32 - s.wpe.queue.length) →
    let q := s.job j
    let rs := if q.passes = 0 then [] else s.rgt.rangesOf j
    let n := min rs.length (min 32 (32 - s.wpe.queue.length))
    let after : JobState := if n = 0 then .free else .wiping
    ∃ t, exec (.jobClose tag j.val) s = .next t
      ∧ t.keys = s.keys.set j none
      ∧ (∀ i : Fin 32, t.rgt.live[i] = (s.rgt.live[i]).filter (fun x => !x.names j)
          ∧ t.rgt.shadow[i] = (s.rgt.shadow[i]).filter (fun x => !x.names j))
      ∧ t.wpe.queue.length = s.wpe.queue.length + n ∧ t.wpe.counter = s.wpe.counter + BitVec.ofNat 32 n
      ∧ (∀ k < n, ∃ r e, rs[k]? = some r ∧ t.wpe.queue[s.wpe.queue.length + k]? = some e
          ∧ e.number = s.wpe.counter + BitVec.ofNat 32 (k + 1) ∧ e.base = r.1 ∧ e.count = r.2 ∧ e.passes = q.passes
          ∧ e.verify = q.verify ∧ e.origin = .job j q.nonce ∧ e.mismatch = 0)
      ∧ (t.job j).state = after ∧ (t.job j).wipes = n ∧ (t.job j).nonce = q.nonce ∧ (t.job j).own = none
      ∧ (∀ k : Fin 16, k ≠ j → t.job k = { s.job k with bound := (t.rgt.rangesOf k).length })
      ∧ t.jct.marking = (if s.jct.isMarking j then none else s.jct.marking) ∧ t.jct.stack = s.jct.stack
      ∧ ∃ more, t.rci.queue = s.rci.queue
          ++ ⟨.result 7 .ok .none, tag, s.ms, s.rci.droppedMark, if s.rci.droppedMark then s.rci.lost else 0⟩
          :: ⟨.jobClosed j q.nonce q.user q.counters n (rs.length - n) after, tag, s.ms, false, 0⟩ :: more)
  ∧ ∀ (s : State) (tag : BitVec 16) (n : Nat) (pin : Word8), s.ready = true →
    (15 < n → exec (.jobRelease tag n pin) s = .next (s.refused 6 tag .badParam)
      ∧ exec (.jobClose tag n) s = .next (s.refused 7 tag .badParam))
    ∧ (pinDigits pin = false → exec (.jobRelease tag n pin) s = .next (s.refused 6 tag .badParam))
    ∧ ∀ j : Fin 16, n = j.val →
      ((s.job j).state.bindable = false → exec (.jobClose tag n) s = .next (s.refused 7 tag .jobState))
      ∧ (pinDigits pin = true →
        ((∀ why, (s.job j).state ≠ .held why) → exec (.jobRelease tag n pin) s = .next (s.refused 6 tag .jobState))
        ∧ ∀ why, (s.job j).state = .held why →
          let v := (s.job j).user
          let r := (s.ace.users[v]).stored
          (r.state = .locked → exec (.jobRelease tag n pin) s = .next (s.refused 6 tag .userLocked))
          ∧ (r.state ≠ .locked → r.digest ≠ some (Config.userDigest v pin) → r.failures ≤ 4 →
            let r' := { r with failures := r.failures + 1, state := if r.failures = 4 then .locked else r.state }
            exec (.jobRelease tag n pin) s = .next (({ s with
              ace := (s.ace.putUser v r').trigger (.user v) } : State).refused 6 tag .badPin))
          ∧ (r.state ≠ .locked → r.digest = some (Config.userDigest v pin) → why = .quota →
            s.ace.reservePasses v 0 (s.reserveOf j) = false →
            let u : State := if r.failures = 0 then s else
              { s with ace := (s.ace.putUser v { r with failures := 0 }).trigger (.user v) }
            exec (.jobRelease tag n pin) s = .next (u.refused 6 tag .quota)))

/-- MARK_SELECT, MARK_INTERRUPT and MARK_RESUME (R58 to R60, R87): the marking register takes the job with a fresh context, or
the marking job is pushed with its context, or the top of the stack marks again with the context it had; the ASSEMBLY holds of
the job that stops marking are released. A top with close pending is popped first: its records are force-closed, those with lines in
flight stay in its own context, and the next one marks, or none.
The refusals, in order: BAD_PARAM for a slot above 15 or a SCAN job, whose kind is not consulted while its slot is FREE (R54); JOB_STATE
for a job that is not OPEN, or is stacked, or, at MARK_INTERRUPT, marks; PAGE_OPEN at MARK_SELECT and STACK_FULL at MARK_INTERRUPT.
That the row runs its command without the command ring, whose indices stand, is the model's choice (log entry 17). -/
def Obligations.MarkCommands : Prop :=
  (∀ (s : State) (tag : BitVec 16) (j : Fin 16), s.ready = true →
    let released := { s.path with hold := s.path.hold.map fun h =>
      if ∃ m ∈ s.jct.marking, h.cause = .assembly m.job then { h with released := true } else h }
    let slots := s.jct.slots.set j { s.jct.slots[j] with marked := true }
    let fresh : Marked := ⟨j, ⟨Vector.replicate 4 ⟨none, none, 0, none⟩, []⟩⟩
    ((s.job j).kind ≠ .scan → (s.job j).state = .opened → s.jct.isStacked j = false →
      ((∀ m ∈ s.jct.marking, m.ctx.queue = []) →
        exec (.markSelect tag j.val) s = .next (({ s with
          jct := { s.jct with marking := some fresh, slots := slots }, path := released } : State).reported
            (.result 9 .ok .none) tag))
      ∧ (s.jct.marking = none →
        exec (.markInterrupt tag j.val) s = .next (({ s with
          jct := { s.jct with marking := some fresh, slots := slots } } : State).reported
            (.result 10 .ok (.depth s.jct.stack.length)) tag))
      ∧ (∀ m, s.jct.marking = some m → m.job ≠ j → s.jct.stack.length < 4 →
        exec (.markInterrupt tag j.val) s = .next (({ s with
          jct := { s.jct with marking := some fresh, stack := m :: s.jct.stack, slots := slots }, path := released } : State).reported
            (.result 10 .ok (.depth (s.jct.stack.length + 1))) tag))
      ∧ ((∃ m ∈ s.jct.marking, m.ctx.queue ≠ []) →
        exec (.markSelect tag j.val) s = .next (s.refused 9 tag .pageOpen))
      ∧ (∀ m, s.jct.marking = some m → m.job ≠ j → 4 ≤ s.jct.stack.length →
        exec (.markInterrupt tag j.val) s = .next (s.refused 10 tag .stackFull)))
    ∧ (∀ m rest, s.jct.stack = m :: rest → (∀ x ∈ s.jct.marking, x.ctx.queue = []) → (s.job m.job).closePending = false →
        exec (.markResume tag) s = .next (({ s with
          jct := { s.jct with marking := some m, stack := rest }, path := released } : State).reported
            (.result 11 .ok (.resumed (some m.job) 0)) tag))
    ∧ (s.jct.stack = [] → exec (.markResume tag) s = .next (s.refused 11 tag .stackEmpty))
    ∧ (∀ m ∈ s.jct.marking, m.ctx.queue ≠ [] → s.jct.stack ≠ [] →
        exec (.markResume tag) s = .next (s.refused 11 tag .pageOpen)))
  ∧ (∀ (s : State) (tag : BitVec 16) (n : Nat), s.ready = true →
    (15 < n → exec (.markSelect tag n) s = .next (s.refused 9 tag .badParam)
      ∧ exec (.markInterrupt tag n) s = .next (s.refused 10 tag .badParam))
    ∧ ∀ j : Fin 16, n = j.val →
      ((s.job j).kind = .scan → (s.job j).state ≠ .free → exec (.markSelect tag n) s = .next (s.refused 9 tag .badParam)
        ∧ exec (.markInterrupt tag n) s = .next (s.refused 10 tag .badParam))
      ∧ ((s.job j).state = .free ∨ ((s.job j).kind ≠ .scan ∧ ((s.job j).state ≠ .opened ∨ s.jct.isStacked j = true)) →
        exec (.markSelect tag n) s = .next (s.refused 9 tag .jobState)
        ∧ exec (.markInterrupt tag n) s = .next (s.refused 10 tag .jobState))
      ∧ ((s.job j).kind ≠ .scan → s.jct.isMarking j = true →
        exec (.markInterrupt tag n) s = .next (s.refused 10 tag .jobState)))
  ∧ ∀ (s : State) (tag : BitVec 16) (m : Marked) (rest : List Marked), s.resting = true → s.commandReady = true →
    s.rci.held = false → s.jct.stack = m :: rest → s.jct.marking = none → (s.job m.job).closePending = true →
    0 < (s.job m.job).refs → (∀ r ∈ m.ctx.queue, 0 < r.lines) → (∀ x ∈ rest.head?, (s.job x.job).closePending = false) →
    let forced : Context :=
      { trackers := m.ctx.trackers.map fun t =>
          if m.ctx.queue.any (fun r => t.tied == some r.opened) then ⟨none, none, 0, none⟩ else t
        queue := m.ctx.queue.map fun r => { r with
          incomplete := true
          planes := r.planes.map fun q => q.map fun q => { q with
            status := if q.status = .notSeen then .absent else if q.status = .opened then .closed else q.status } } }
    exec (.markResume tag) s = .next (({ s with
      jct := { s.jct with
        marking := rest.head?, stack := rest.tail
        slots := s.jct.slots.set m.job { s.jct.slots[m.job] with own := if m.ctx.queue = [] then none else some forced } }
      path := { s.path with hold := s.path.hold.map fun h =>
        if h.cause = .assembly m.job then { h with released := true } else h } } : State).reported
        (.result 11 .ok (.resumed (rest.head?.map Marked.job) 1)) tag)

/-! ## Queries, the Violation Capture and unknown kinds -/

/-- JOB_QUERY (R55): BAD_PARAM for a slot above 15; otherwise OK with the slot's fields and its marking position: MARKING, else
STACKED at its depth from the top, else its own context with its record count, else NONE. Nothing changes.
BAY_QUERY (R152): BAD_PARAM for a bay above 3; otherwise OK with the bay record (whose nonces the report does not show), its
configuration, the plane's toner figures with the level estimate, and the Departed Cartridge List. Nothing changes.
That the row runs its command without the command ring, whose indices stand, is the model's choice (log entry 17). -/
def Obligations.JobAndBayQueried : Prop :=
  (∀ (s : State) (tag : BitVec 16) (n : Nat), s.ready = true →
      (15 < n → exec (.jobQuery tag n) s = .next (s.refused 8 tag .badParam))
      ∧ ∀ (j : Fin 16), n = j.val → ∃ pos,
        exec (.jobQuery tag n) s = .next (s.reported (.result 8 .ok (.jobInfo (s.job j) pos)) tag)
        ∧ (s.jct.isMarking j = true → pos = .marking)
        ∧ (s.jct.isMarking j = false → ∀ k m, s.jct.stack[k]? = some m → m.job = j →
            (∀ i < k, ∀ x ∈ s.jct.stack[i]?, x.job ≠ j) → pos = .stacked (k + 1))
        ∧ (s.jct.isMarking j = false → (∀ m ∈ s.jct.stack, m.job ≠ j) →
            pos = match (s.job j).own with | some c => .ownContext c.queue.length | none => .none))
  ∧ (∀ (s : State) (tag : BitVec 16) (n : Nat), s.ready = true →
      (3 < n → exec (.bayQuery tag n) s = .next (s.refused 21 tag .badParam))
      ∧ ∀ p : Fin 4, n = p.val →
        exec (.bayQuery tag n) s = .next (s.reported (.result 21 .ok (.bayInfo (s.bay p) (s.ace.bays[p]) (s.tmu[p])
          (if (s.tmu[p]).view = .genuine ∨ (s.tmu[p]).view = .unproven then
            some ((s.tmu[p]).viewLevel - (s.tmu[p]).pending - (s.tmu[p]).inFlight) else none) s.ccu.departed)) tag))

/-- CAPTURE_CLEAR (R21) returns the record and the count, and makes the record not valid and the count 0. A kind outside the
command table is refused UNKNOWN_KIND with nothing else changed (R187); that a kind inside it is no event of that row, which then
leaves the part as it is, is the model's choice (log entry 1).
That the row runs its command without the command ring, whose indices stand, is the model's choice (log entry 17). -/
def Obligations.CaptureClearedAndUnknownKind : Prop :=
  ∀ (s : State) (tag kind : BitVec 16), s.ready = true →
    exec (.captureClear tag) s = .next (({ s with path := { s.path with capture := none, captureCount := 0 } } : State).reported
      (.result 4 .ok (.capture s.path.capture s.path.captureCount)) tag)
    ∧ ((kind = 0 ∨ 24 < kind.toNat) → exec (.unknownKind tag kind) s = .next (s.refused kind tag .unknownKind))
    ∧ (1 ≤ kind.toNat → kind.toNat ≤ 24 → exec (.unknownKind tag kind) s = .next s.quietly)

/-! ## Admin commands -/

/-- The credential check refuses every admin command (R114, R115): during a lockout, of at most 60,000 ms, with the milliseconds left
and no change; on a mismatch the failure count rises, its write-back is triggered, and at 5 the lockout starts. A lockout whose 60,000
ms are over has ended before the command is examined: the failure count is 0 and triggered; that the end comes no sooner than its row
or this command, and that 0 ms are left at the moment itself, is the model's choice (log entry 2).
That the row runs its command without the command ring, whose indices stand, is the model's choice (log entry 17). -/
def Obligations.CredentialRefused : Prop :=
  ∀ (s : State) (c : Instr) (tag : BitVec 16) (pin : Word8), s.ready = true → adminPin? c = some (tag, pin) →
    (∀ t, s.ace.lockout = some t → (s.ms - t).toNat ≤ 60000 → exec c s = .next
      (s.reported (.result (kindOf c) .badCredential (.msLeft (60000 - (s.ms - t).toNat))) tag))
    ∧ (∀ t, s.ace.lockout = some t → 60000 < (s.ms - t).toNat →
      exec c s = exec c { s with ace := {
        (if s.ace.service.failures = 0 then s.ace
          else (s.ace.putService { s.ace.service with failures := 0 }).trigger .service) with lockout := none } })
    ∧ (s.ace.lockout = none → Config.serviceDigest pin ≠ s.ace.service.digest → s.ace.service.failures ≤ 4 →
      exec c s = .next (({ s with ace := { ((s.ace.putService { s.ace.service with
          failures := s.ace.service.failures + 1 }).trigger .service) with
          lockout := if s.ace.service.failures = 4 then some s.ms else none } } : State).refused (kindOf c) tag
            .badCredential))

/-- CLASS_SET, TARIFF_SET, SERVICE_PIN_SET and BAY_CONFIG (R92 to R94, R123, R151) on a PIN that passes the check, with values in
their ranges: the working record takes them, and an alteration is triggered for write-back (R116). Their refusals, in order: BAD_PARAM
for a field out of its range, and for a class table that would not be monotone or would be empty (R91); MARKING_ACTIVE of CLASS_SET
and TARIFF_SET while a job marks or is stacked or an own context stands.
That the row runs its command without the command ring, whose indices stand, is the model's choice (log entry 17). -/
def Obligations.TableCommands : Prop :=
  ∀ (s : State) (tag : BitVec 16) (pin : Word8), s.ready = true → s.passes pin = true →
    let u := s.checked
    (∀ (p : ClassSetParams) (i : Fin 8) (e : ClassEntry), p.pin = pin → p.index = i.val → classEntry? p = some e →
      ClassTable.sound (s.ace.classes.set i e) = true → s.jct.frozen = false →
      exec (.classSet tag p) s = .next (({ u with ace :=
        (if s.ace.classes.set i e = s.ace.classes then u.ace else (u.ace.putClasses (s.ace.classes.set i e)).trigger .classes) } : State).reported
          (.result 12 .ok (.classTable (s.ace.classes.set i e))) tag))
    ∧ (∀ p : TariffSetParams, p.pin = pin → p.free ≤ 40000 → p.surcharge ≤ 65535 → p.cap ≤ 65535 → 1 ≤ p.threshold →
        p.threshold ≤ 10000 → s.jct.frozen = false →
      let t : Tariff := ⟨p.free, p.surcharge, p.cap, p.threshold⟩
      exec (.tariffSet tag p) s = .next (({ u with ace :=
        (if t = s.ace.tariff then u.ace else (u.ace.putTariff t).trigger .tariff) } : State).reported
          (.result 13 .ok (.tariff t)) tag))
    ∧ (∀ new, pinDigits new = true →
      let c : ServiceStored := ⟨Config.serviceDigest new, 0⟩
      exec (.servicePinSet tag pin new) s = .next (({ u with ace :=
        (if c = u.ace.service then u.ace else (u.ace.putService c).trigger .service) } : State).reported
          (.result 20 .ok .none) tag))
    ∧ (∀ (p : BayConfigParams) (b : Fin 4) (c : BayConf), p.pin = pin → p.bay = b.val → bayConf? p = some c →
      exec (.bayConfig tag p) s = .next (({ u with ace :=
        (if s.ace.bays.set b c = s.ace.bays then u.ace else (u.ace.putBays (s.ace.bays.set b c)).trigger .bays) } : State).reported
          (.result 22 .ok (.bayConf c)) tag))
    ∧ (s.jct.frozen = true → ∀ p : TariffSetParams, p.pin = pin → (tariffOf p).inRange = true →
      exec (.tariffSet tag p) s = .next (u.refused 13 tag .markingActive))
    ∧ (s.jct.frozen = true ↔ s.jct.marking ≠ none ∨ s.jct.stack ≠ [] ∨ ∃ j : Fin 16, (s.job j).own ≠ none)
    ∧ (∀ t : ClassTable, ClassTable.sound t = true ↔
      (∀ i j : Fin 8, i < j → (t[i]).valid = true → (t[j]).valid = true → (t[i]).maxLines ≤ (t[j]).maxLines
        ∧ (t[i]).maxDots ≤ (t[j]).maxDots ∧ (t[i]).basePrice ≤ (t[j]).basePrice ∧ (t[i]).colourPrice ≤ (t[j]).colourPrice)
      ∧ ∃ i : Fin 8, (t[i]).valid = true)
    ∧ (∀ p : ClassSetParams, p.pin = pin →
      let e : ClassEntry := ⟨decide (p.valid = 1), p.maxLines, p.maxDots, p.basePrice, p.colourPrice⟩
      let fits := p.valid = 0 ∨ (p.valid = 1 ∧ 1 ≤ p.maxLines ∧ p.maxLines ≤ 16384 ∧ 1 ≤ p.maxDots ∧ p.maxDots ≤ 65536
        ∧ p.basePrice ≤ 65535 ∧ p.colourPrice ≤ 65535)
      (fits → classEntry? p = some e)
      ∧ (7 < p.index ∨ ¬ fits → exec (.classSet tag p) s = .next (u.refused 12 tag .badParam))
      ∧ ∀ i : Fin 8, p.index = i.val → fits →
        (ClassTable.sound (s.ace.classes.set i e) = false → exec (.classSet tag p) s = .next (u.refused 12 tag .badParam))
        ∧ (ClassTable.sound (s.ace.classes.set i e) = true → s.jct.frozen = true →
          exec (.classSet tag p) s = .next (u.refused 12 tag .markingActive)))
    ∧ (∀ p : TariffSetParams, p.pin = pin → ((tariffOf p).inRange = true ↔
        p.free ≤ 40000 ∧ p.surcharge ≤ 65535 ∧ p.cap ≤ 65535 ∧ 1 ≤ p.threshold ∧ p.threshold ≤ 10000)
      ∧ ((tariffOf p).inRange = false → exec (.tariffSet tag p) s = .next (u.refused 13 tag .badParam)))
    ∧ (∀ new : Word8, (pinDigits new = true ↔ ∀ k < 8, (new.extractLsb' (8 * k) 8).toNat ≤ 9)
      ∧ (pinDigits new = false → exec (.servicePinSet tag pin new) s = .next (u.refused 20 tag .badParam)))
    ∧ ∀ p : BayConfigParams, p.pin = pin →
      let fits := p.policy ≤ 1 ∧ 1 ≤ p.attach ∧ p.attach ≤ 15 ∧ 1 ≤ p.detach ∧ p.detach ≤ 7 ∧ 1 ≤ p.dotMass
        ∧ p.dotMass ≤ 65535 ∧ 1 ≤ p.quantum ∧ p.quantum ≤ 1000 ∧ p.lowMark ≤ 65535 ∧ p.grace ≤ 65535
      (fits → bayConf? p = some ⟨if p.policy = 0 then .genuineOnly else .allowUnproven, p.attach, p.detach, p.dotMass,
        p.quantum, p.lowMark, p.grace⟩)
      ∧ (3 < p.bay ∨ ¬ fits → exec (.bayConfig tag p) s = .next (u.refused 22 tag .badParam))

/-- USER_SET, USER_ADJUST and USER_QUERY (R117 to R119) on a PIN that passes the check: the record is replaced, the balance is
adjusted and clamped at the top, the record is shown. Their refusals, in order: USER_SET BAD_PARAM for fields out of range, USER_BUSY
while the user has a reserve or a job, LIMIT_BELOW_USE for a balance below the limit; USER_ADJUST BAD_PARAM, BAD_USER for an UNUSED
record, USER_SUSPECT for a SUSPECT one, LIMIT_BELOW_USE; USER_QUERY BAD_PARAM. So none leaves a user below its limit. That USER_ADJUST
refuses an amount beyond 32 bits is the model's choice (log entry 14). Two users with the same PIN hold different digests (R111).
That the row runs its command without the command ring, whose indices stand, is the model's choice (log entry 17). -/
def Obligations.UserCommands : Prop :=
  (∀ (v w : Fin 256) (pin : Word8), v ≠ w → Config.userDigest v pin ≠ Config.userDigest w pin)
  ∧ ∀ (s : State) (tag : BitVec 16) (pin : Word8) (v : Fin 256), s.ready = true → s.passes pin = true →
    let u := s.checked
    let r := s.ace.users[v]
    let jobs := (s.jct.slots.toList.filter fun q => q.state != .free && q.user == v).length
    (∀ (p : UserSetParams) (n : UserStored), p.servicePin = pin → userRecord? p = some (v, n) →
      (r.reserved = 0 → jobs = 0 → -(n.overdraft : Int) ≤ n.balance →
        let t : State := { u with ace := if n = r.stored then u.ace else (u.ace.putUser v n).trigger (.user v) }
        exec (.userSet tag p) s = .next (t.reported (.result 14 .ok (.userInfo t.ace.users[v] 0)) tag))
      ∧ (0 < r.reserved ∨ 0 < jobs → exec (.userSet tag p) s = .next (u.refused 14 tag .userBusy))
      ∧ (r.reserved = 0 → jobs = 0 → n.balance < -(n.overdraft : Int) →
        exec (.userSet tag p) s = .next (u.refused 14 tag .limitBelowUse)))
    ∧ (∀ p : UserSetParams, p.servicePin = pin → userRecord? p = none →
      exec (.userSet tag p) s = .next (u.refused 14 tag .badParam))
    ∧ (∀ (p : UserSetParams) (n : UserStored), userRecord? p = some (v, n) ↔
      (p.user = v.val ∧ [UserState.unused, .active, .locked][p.state]? = some n.state
        ∧ pinDigits p.pin = true ∧ n.digest = some (Config.userDigest v p.pin) ∧ n.failures = 0
        ∧ n.department.map Fin.val = p.department ∧ n.balance = p.balance ∧ n.overdraft = p.overdraft
        ∧ n.maxJobs = p.maxJobs ∧ n.lifeMono = p.lifeMono ∧ n.lifeColour = p.lifeColour ∧ n.lifeCharge = p.lifeCharge
        ∧ p.overdraft ≤ 1000000000 ∧ 1 ≤ p.maxJobs ∧ p.maxJobs ≤ 4
        ∧ -(2 ^ 31 : Int) ≤ p.balance ∧ p.balance ≤ 2 ^ 31 - 1
        ∧ p.lifeMono ≤ max32 ∧ p.lifeColour ≤ max32 ∧ p.lifeCharge ≤ max32))
    ∧ (∀ amount : Int, -(2 ^ 31 : Int) ≤ amount → amount ≤ 2 ^ 31 - 1 →
      (r.stored.state = .unused → exec (.userAdjust tag pin v.val amount) s = .next (u.refused 15 tag .badUser))
      ∧ (r.stored.state = .suspect → exec (.userAdjust tag pin v.val amount) s = .next (u.refused 15 tag .userSuspect))
      ∧ ((r.stored.state = .active ∨ r.stored.state = .locked) →
        let b := r.stored.balance + amount
        (-(r.stored.overdraft : Int) ≤ b - r.reserved →
          exec (.userAdjust tag pin v.val amount) s = .next (({ u with ace :=
            (if min b (2 ^ 31 - 1) = r.stored.balance then u.ace
              else (u.ace.putUser v { r.stored with balance := min b (2 ^ 31 - 1) }).trigger (.user v)) } : State).reported
            (.result 15 .ok (.adjusted (min b (2 ^ 31 - 1)) r.reserved (decide (2 ^ 31 - 1 < b)))) tag))
        ∧ (b - r.reserved < -(r.stored.overdraft : Int) →
          exec (.userAdjust tag pin v.val amount) s = .next (u.refused 15 tag .limitBelowUse))))
    ∧ (∀ (n : Nat) (amount : Int), (255 < n ∨ amount < -(2 ^ 31 : Int) ∨ 2 ^ 31 - 1 < amount) →
      exec (.userAdjust tag pin n amount) s = .next (u.refused 15 tag .badParam))
    ∧ exec (.userQuery tag pin v.val) s = .next (u.reported (.result 16 .ok (.userInfo r jobs)) tag)
    ∧ ∀ n, 255 < n → exec (.userQuery tag pin n) s = .next (u.refused 16 tag .badParam)

/-- DEPT_SET, PERIOD_RESET and METER_QUERY (R120 to R122) on a PIN that passes the check: the allowance is set unless it is below what is in
use; the used amount of one department, or of each, becomes 0, and the result carries the amounts before. PERIOD_RESET of all resets
the departments in ascending order, each altered one triggered for write-back, and changes nothing else. DEPT_SET refuses BAD_PARAM a
department above 15 and an allowance above 2^31 - 1, and PERIOD_RESET a department above 15. METER_QUERY's result carries the 32
counters as they stand and the mark that tells whether the record was loaded as zeros; no counter changes.
That the row runs its command without the command ring, whose indices stand, is the model's choice (log entry 17). -/
def Obligations.DepartmentCommands : Prop :=
  ∀ (s : State) (tag : BitVec 16) (pin : Word8) (d : Fin 16), s.ready = true → s.passes pin = true →
    let u := s.checked
    let r := s.ace.depts[d]
    (∀ a : Option Nat, (∀ x, a = some x → x ≤ 2 ^ 31 - 1) →
      ((∀ x, a = some x → r.stored.used + r.reserved ≤ x) →
        exec (.deptSet tag pin d.val a) s = .next (({ u with ace :=
          (if a = r.stored.allowance then u.ace
            else (u.ace.putDept d { r.stored with allowance := a }).trigger (.dept d)) } : State).reported
          (.result 17 .ok (.deptInfo a r.stored.used r.reserved)) tag))
      ∧ ((∃ x, a = some x ∧ x < r.stored.used + r.reserved) →
        exec (.deptSet tag pin d.val a) s = .next (u.refused 17 tag .limitBelowUse)))
    ∧ exec (.periodReset tag pin (.one d.val)) s = .next (({ u with ace :=
        (if r.stored.used = 0 then u.ace
          else (u.ace.putDept d { r.stored with used := 0 }).trigger (.dept d)) } : State).reported
        (.result 18 .ok (.usedAmounts [r.stored.used])) tag)
    ∧ (∃ a, exec (.periodReset tag pin .all) s = .next (({ u with ace := a } : State).reported
        (.result 18 .ok (.usedAmounts ((List.finRange 16).map fun i => (s.ace.depts[i]).stored.used))) tag)
      ∧ a.users = u.ace.users
      ∧ a = { u.ace with depts := a.depts, queue := a.queue, waiting := a.waiting }
      ∧ a = (List.finRange 16).foldl (fun b i => if (b.depts[i]).stored.used = 0 then b
          else (b.putDept i { (b.depts[i]).stored with used := 0 }).trigger (.dept i)) u.ace
      ∧ ∀ i : Fin 16, (a.depts[i]).stored = { (s.ace.depts[i]).stored with used := 0 }
        ∧ (a.depts[i]).reserved = (s.ace.depts[i]).reserved ∧ (a.depts[i]).posting = (s.ace.depts[i]).posting)
    ∧ (∀ (n : Nat) (a : Option Nat), (15 < n ∨ ∃ x, a = some x ∧ 2 ^ 31 - 1 < x) →
      exec (.deptSet tag pin n a) s = .next (u.refused 17 tag .badParam))
    ∧ (∀ n, 15 < n → exec (.periodReset tag pin (.one n)) s = .next (u.refused 18 tag .badParam))
    ∧ exec (.meterQuery tag pin) s = .next (u.reported
      (.result 19 .ok (.meters ⟨s.ace.meters.stored.contract, s.ace.meters.stored.outside⟩ s.ace.meters.zeroed)) tag)
    ∧ u.ace.meters = s.ace.meters

/-! ## Wipes -/

/-- The pattern generator (R171): one step moves every stage up by one and gives stage 1 the feedback, stage 23 exclusive-or stage 18;
the seed is the base page modulo 2^23 with bit 0 set, bit i in stage i + 1, and no register from it is zero; line j of a range takes
the output bits 512j to 512j + 511, in ascending bytes, the first bit of a byte the most significant; pass 1, pass 2 and VERIFY each
begin with the seed, so that pass 2 writes the complement of pass 1. -/
def Obligations.PatternGenerator : Prop :=
  (∀ (r : BitVec 23) (k : Nat), (prbsStep r).getLsbD 0 = (r.getLsbD 22 != r.getLsbD 17)
    ∧ (k < 22 → (prbsStep r).getLsbD (k + 1) = r.getLsbD k)
    ∧ prbsRun 0 r = r ∧ prbsRun (k + 1) r = prbsStep (prbsRun k r))
  ∧ (∀ base n : Nat, (∀ i < 23, (prbsSeed base).getLsbD i = ((base % 2 ^ 23) ||| 1).testBit i)
    ∧ prbsRun n (prbsSeed base) ≠ 0)
  ∧ (∀ base j b i : Nat, b < 64 → i < 8 →
    let bit := (prbsRun (512 * j + 8 * b + i) (prbsSeed base)).getLsbD 22
    let first := prbsRun (512 * j) (prbsSeed base)
    (patternLine 1 first).getLsbD (8 * b + (7 - i)) = bit ∧ (patternLine 2 first).getLsbD (8 * b + (7 - i)) = !bit)
  ∧ (∀ (e : WipeEntry) (k next : Nat) (reg : BitVec 23), e.progress = .pass k next 0 reg → 64 * e.count ≤ next →
    (k < e.passes → e.advance = { e with progress := .pass (k + 1) 0 0 (prbsSeed e.base) })
    ∧ (e.passes ≤ k → e.verify = true → e.advance = { e with progress := .verify 0 0 (prbsSeed e.base) }))
  ∧ ∀ (s : State) (e : WipeEntry) (rest : List WipeEntry), s.wpe.queue = e :: rest → e.progress = .waiting →
    s.quiet e.base e.count = true →
    s.startWipe = { s with wpe := { s.wpe with queue := { e with progress := .pass 1 0 0 (prbsSeed e.base) } :: rest } }

/-- WIPE_RANGE (R168, R171, R174): a range in bounds, away from the ring windows, from job-bound entries and from waiting
wipes joins the tail of the Wipe Queue as an EXPLICIT entry whose number is the next of the wipe counter; into an empty queue,
on a range with no transaction outstanding, it starts in the same event (R170). The refusals, in order: BAD_PARAM for a field out of its
range and for a range that includes a line of a ring window; WIPE_OVERLAP for one that shares a page with a valid job-bound entry,
live or shadow, or with a waiting wipe; QUEUE_FULL for a full queue.
That the row runs its command without the command ring, whose indices stand, is the model's choice (log entry 17). -/
def Obligations.WipeRangeJoins : Prop :=
  (∀ (s : State) (tag : BitVec 16) (p : WipeRangeParams) (v : Bool), s.ready = true →
    p.base < 2 ^ 24 → 1 ≤ p.count → p.count ≤ 2 ^ 20 → p.base + p.count ≤ 2 ^ 24 → 1 ≤ p.passes → p.passes ≤ 3 →
    yesNo? p.verify = some v → s.path.ringTouches p.base p.count = false →
    s.rgt.jobBoundOverlaps p.base p.count = false → s.wpe.overlaps p.base p.count = false →
    let entry := fun progress : Progress =>
      (⟨s.wpe.counter + 1, p.base, p.count, p.passes, v, .explicit tag, progress, 0⟩ : WipeEntry)
    let after := fun progress : Progress => exec (.wipeRange tag p) s = .next
      (({ s with wpe := { queue := s.wpe.queue ++ [entry progress], counter := s.wpe.counter + 1 } } : State).reported
        (.result 23 .ok (.wipeNumber (s.wpe.counter + 1))) tag)
    (s.wpe.queue ≠ [] → s.wpe.queue.length < 32 → after .waiting)
    ∧ (s.wpe.queue = [] → s.quiet p.base p.count = false → after .waiting)
    ∧ (s.wpe.queue = [] → s.quiet p.base p.count = true → after (.pass 1 0 0 (prbsSeed p.base)))
    ∧ (32 ≤ s.wpe.queue.length → exec (.wipeRange tag p) s = .next (s.refused 23 tag .queueFull)))
  ∧ ∀ (s : State) (tag : BitVec 16) (p : WipeRangeParams), s.ready = true →
    let fits := p.base < 2 ^ 24 ∧ 1 ≤ p.count ∧ p.count ≤ 2 ^ 20 ∧ p.base + p.count ≤ 2 ^ 24 ∧ 1 ≤ p.passes ∧ p.passes ≤ 3
      ∧ p.verify ≤ 1
    let meets := fun base count : Nat => p.base < base + count ∧ base < p.base + p.count
    let ring := ∃ w, (s.path.cmdWindow = some w ∨ s.path.repWindow = some w)
      ∧ 64 * p.base < w.baseLine + (w.slots + 1) ∧ w.baseLine < 64 * (p.base + p.count)
    let taken := (∃ (i : Fin 32) (e : RegionEntry), (s.rgt.live[i] = some e ∨ s.rgt.shadow[i] = some e) ∧ e.cls ≠ .plain
        ∧ meets e.base e.count) ∨ ∃ e ∈ s.wpe.queue, meets e.base e.count
    (¬ fits → exec (.wipeRange tag p) s = .next (s.refused 23 tag .badParam))
    ∧ (fits → ring → exec (.wipeRange tag p) s = .next (s.refused 23 tag .badParam))
    ∧ (fits → ¬ ring → taken → exec (.wipeRange tag p) s = .next (s.refused 23 tag .wipeOverlap))

/-- A wipe starts and proceeds (R170 to R172): the head entry leaves WAITING for pass 1 when its range is quiet; each pattern
write and verify read is 8 lines, from the generator's register at its first line, and takes an internal slot. That the slot is the
lowest-numbered free one is the model's choice (log entry 9). -/
def Obligations.WipeIssues : Prop :=
  ∀ (s : State) (e : WipeEntry) (rest : List WipeEntry), s.wpe.queue = e :: rest →
    (s.powered = true → e.progress = .waiting → s.quiet e.base e.count = true →
      let u : State := { s with wpe := { s.wpe with queue := { e with progress := .pass 1 0 0 (prbsSeed e.base) } :: rest } }
      u.still = true → exec .wipeStart s = .next u.quietly)
    ∧ ∀ i : Fin 8, s.resting = true → freeSlot? s.down.internal = some i →
      let handed := fun (x : Purpose) (next : Nat) =>
        ({ s.down with
          internal := s.down.internal.set i (some ⟨x, BitVec.ofNat 36 (e.base * 4096 + 64 * next), 8, false⟩)
          internalList := s.down.internalList ++ [i] } : Down)
      (∀ k next out reg, e.progress = .pass k next out reg → next < e.count * 64 →
        exec .wipeWriteIssue s = .next (({ s with
          down := handed (.wipeWrite k reg false) next
          wpe := { s.wpe with queue := { e with progress := .pass k (next + 8) (out + 1) (prbsRun 4096 reg) } :: rest } } : State).quietly))
      ∧ (∀ next out reg, e.progress = .verify next out reg → next < e.count * 64 →
        exec .verifyReadIssue s = .next (({ s with
          down := handed (.verifyRead e.passes reg) next
          wpe := { s.wpe with queue := { e with progress := .verify (next + 8) (out + 1) (prbsRun 4096 reg) } :: rest } } : State).quietly))

/-- A pattern write or a verify read ends (R170, R172): a write answered ERROR is handed once more; answered again, or OKAY, it
is done, with 8 mismatched lines for a second ERROR; when every write of a pass is done the next pass or VERIFY begins. A verify
read counts the lines that differ from the last pass's pattern, or 8 on ERROR. The answer or return with which the entry has nothing
left to do completes it in the same event (R173): the part is as WIPE_DONE leaves it where that transaction is done. That a write
handed once more keeps its slot and joins the internal list in the same event is the model's choice (log entry 37). -/
def Obligations.WipeAnswers : Prop :=
  ∀ (s : State) (e : WipeEntry) (rest : List WipeEntry) (i : Fin 8) (x : InternalSlot), s.powered = true →
    s.wpe.queue = e :: rest → s.down.internal[i] = some x → i ∉ s.down.internalList →
    let freed : Down := { s.down with internal := s.down.internal.set i none, credits := s.down.credits + 1 }
    let after := fun (missed : Nat) (progress : Progress) =>
      ({ s with
        down := freed
        wpe := { s.wpe with queue := { e with mismatch := min max32 (e.mismatch + missed), progress := progress } :: rest } } : State)
    let calm := fun u : State => u.jct.metered = true ∧ u.rgt.commitDue = false ∧ ∀ y ∈ rest, y.progress = .waiting
    (∀ k reg, x.purpose = .wipeWrite k reg false → s.still = true →
      exec (.wipeWriteAnswer i false) s = .next (({ s with down := { s.down with
        internal := s.down.internal.set i (some { x with purpose := .wipeWrite k reg true })
        credits := s.down.credits + 1, internalList := s.down.internalList ++ [i] } } : State).quietly))
    ∧ (∀ k reg retried okay n next out r, x.purpose = .wipeWrite k reg retried → (okay = true ∨ retried = true) →
      e.mismatch ≤ max32 → e.progress = .pass n next (out + 1) r →
      let u := after (if okay then 0 else 8) (if 0 < out ∨ next < e.count * 64 then .pass n next out r
        else if n < e.passes then .pass (n + 1) 0 0 (prbsSeed e.base)
        else if e.verify then .verify 0 0 (prbsSeed e.base) else .pass n next out r)
      (u.still = true → exec (.wipeWriteAnswer i okay) s = .next u.quietly)
      ∧ (calm u → exec (.wipeWriteAnswer i okay) s = exec .wipeDone u))
    ∧ ∀ passes reg okay lines next out r, x.purpose = .verifyRead passes reg → e.progress = .verify next (out + 1) r →
      (okay = true → lines.length = x.len) →
      let u := after (if okay then ((List.range x.len).filter fun n =>
        lines[n]? != (patternLines passes x.len reg)[n]?).length else 8) (.verify next out r)
      (u.still = true → exec (.verifyReadReturn i okay lines) s = .next u.quietly)
      ∧ (calm u → exec (.verifyReadReturn i okay lines) s = exec .wipeDone u)

/-- The head entry of the Wipe Queue completes (R54, R173): it leaves the queue with a WIPE_DONE report that carries the tag of
its WIPE_RANGE; a job's wipe takes one off its wipes outstanding, and the last frees the slot, with JOB_FREED after WIPE_DONE.
In the same event the next entry starts where its range is quiet (R170), and a CLOSING job that waited for room leaves (R52): its key
is destroyed and its ranges join. -/
def Obligations.WipeCompletes : Prop :=
  (∀ (s : State) (e : WipeEntry) (rest : List WipeEntry), s.powered = true → s.wpe.queue = e :: rest → e.isDone = true →
    s.rci.queue.length ≤ 13 →
    let done : ReportBody := .wipeDone e.number e.base e.count e.passes e.verify e.origin e.mismatch
    let u : State := { s with wpe := { s.wpe with queue := rest } }
    (∀ tag, e.origin = .explicit tag → u.still = true → exec .wipeDone s = .next (u.reported done tag))
    ∧ (∀ j nonce, e.origin = .job j nonce → 2 ≤ (s.job j).wipes →
      let v := u.modJob j fun q => { q with wipes := q.wipes - 1 }
      v.still = true → exec .wipeDone s = .next (v.reported done 0))
    ∧ ∀ j nonce, e.origin = .job j nonce → (s.job j).wipes = 1 → (s.job j).state = .wiping →
      let v := u.modJob j fun q => { q with
        state := .free, closePending := false, marked := false, refs := 0, bound := 0, wipes := 0, own := none
        counters := .zero }
      v.still = true → exec .wipeDone s = .next { v with
        out := [], handed := []
        rci := (s.rci.joined done 0 s.ms).joined (.jobFreed j (s.job j).nonce) 0 s.ms })
  ∧ (∀ (s : State) (e x : WipeEntry) (rest : List WipeEntry) (tag : BitVec 16), s.powered = true → s.rci.standby = .running →
    s.wpe.queue = e :: x :: rest → e.isDone = true → e.origin = .explicit tag → x.progress = .waiting →
    s.quiet x.base x.count = true → s.rci.queue.length ≤ 13 →
    let u : State := { s with wpe := { s.wpe with queue := { x with progress := .pass 1 0 0 (prbsSeed x.base) } :: rest } }
    u.still = true →
    exec .wipeDone s = .next (u.reported (.wipeDone e.number e.base e.count e.passes e.verify e.origin e.mismatch) tag))
  ∧ ∀ (s : State) (e : WipeEntry) (rest : List WipeEntry) (tag : BitVec 16) (j : Fin 16), s.powered = true →
    s.rci.standby = .running → s.rci.faultWaiting = false → s.wpe.queue = e :: rest → e.isDone = true → e.origin = .explicit tag →
    s.jct.metered = true → s.rgt.commitDue = false → (∀ y ∈ rest, y.isDone = false) →
    (s.job j).state = .closing → (s.job j).refs = 0 → s.jct.isMarking j = false → s.jct.isStacked j = false →
    (s.job j).own = none → (∀ k : Fin 16, k ≠ j → (s.job k).state ≠ .closing) → 1 ≤ (s.job j).passes →
    (s.job j).bound = (s.rgt.rangesOf j).length → 1 ≤ (s.job j).bound → (s.job j).bound ≤ 32 - rest.length →
    ∃ t, exec .wipeDone s = .next t ∧ t.keys = s.keys.set j none ∧ (t.job j).state = .wiping
      ∧ (t.job j).wipes = (s.job j).bound ∧ t.wpe.queue.length = rest.length + (s.job j).bound
      ∧ (∀ i : Fin 32, ∀ y ∈ t.rgt.live[i], y.job ≠ some j)

/-! ## Rings -/

/-- A command fetch (R186 to R188): it starts at the command head's slot when the tail differs from it, no command is in hand
and two report entries are free, one of which is then held; a good return executes the command that the line spells and moves
the head; an ERROR is fetched once more; a second one skips the command with a RING_FAULT in its result's place. A fetched command has
the effect that its own row has (R187): where that row may run, the return ends as the row does, with no command in hand and the head
moved. That the slot is the
lowest-numbered free one (log entry 9), that a fetch handed once more keeps its slot and joins the internal list in the same event (log
entry 37), and how a line spells a kind whose layout section 11.3 does not lay down (log entry 14), are the model's choices. -/
def Obligations.CommandFetched : Prop :=
  (∀ (s : State) (g : Rings) (i : Fin 8), s.resting = true → s.rci.startup = .anchored → s.rci.hand = false →
    s.rci.rings = some g → g.cmdTail ≠ g.cmdHead → s.rci.queue.length ≤ 14 → freeSlot? s.down.internal = some i →
    exec .fetchStart s = .next (({ s with
      down := { s.down with
        internal := s.down.internal.set i
          (some ⟨.fetch false, g.cmdBase + BitVec.ofNat 36 (64 * (1 + g.cmdHead.toNat % g.cmdSlots)), 1, false⟩)
        internalList := s.down.internalList ++ [i] }
      rci := { s.rci with hand := true, held := true } } : State).quietly))
  ∧ ∀ (s : State) (g : Rings) (i : Fin 8) (x : InternalSlot) (retried : Bool) (line : Line), s.powered = true →
    s.rci.rings = some g → s.down.internal[i] = some x → i ∉ s.down.internalList → x.purpose = .fetch retried →
    let u : State := { s with down := { s.down with internal := s.down.internal.set i none, credits := s.down.credits + 1 } }
    (x.discard = true → u.still = true → ∀ okay, exec (.fetchReadReturn i okay line) s = .next u.quietly)
    ∧ (x.discard = false →
      (let e := runCommand (commandOfLine line) u.beginEvent
        let f : State := { e with rci := { e.rci with
          hand := false, rings := e.rci.rings.map fun g => { g with cmdHead := g.cmdHead + 1 } } }
        f.still = true → exec (.fetchReadReturn i true line) s = .next f.concluded)
      ∧ (let v : State := { u with rci := { u.rci with
          hand := false, rings := some { g with cmdHead := g.cmdHead + 1 } } }
        s.rci.held = true → v.commandReady = true → exec (.fetchReadReturn i true line) s = exec (commandOfLine line) v)
      ∧ (retried = false → s.still = true → exec (.fetchReadReturn i false line) s = .next (({ s with down := { s.down with
          internal := s.down.internal.set i (some { x with purpose := .fetch true })
          credits := s.down.credits + 1, internalList := s.down.internalList ++ [i] } } : State).quietly))
      ∧ (retried = true → s.rci.queue.length ≤ 15 →
        let f : State := { u with rci := { u.rci with
          hand := false, rings := some { g with cmdHead := g.cmdHead + 1 } } }
        f.still = true →
        let t := f.reported (.ringFault (.fetch (g.cmdHead.toNat % g.cmdSlots))) 0
        exec (.fetchReadReturn i false line) s = .next { t with rci := { t.rci with held := false } }))

/-- The command that a slot spells (section 11.3, R192): kinds 0 and above 24 are none of the table's; the fields of REGION_SET,
JOB_OPEN and USER_SET stand at the offsets of the section, little-endian, with $FF for none. `f` reads a field. -/
def Obligations.CommandSlots : Prop :=
  ∀ l : Line,
    let f := fun off n : Nat => (l.extractLsb' (8 * off) (8 * n)).toNat
    let opt := fun off : Nat => if f off 1 = 255 then none else some (f off 1)
    let opt0 := fun off n : Nat => if f off n = 0 then none else some (f off n)
    let tag : BitVec 16 := l.extractLsb' 16 16
    ((f 0 2 = 0 ∨ 24 < f 0 2) → commandOfLine l = .unknownKind tag (l.extractLsb' 0 16))
    ∧ (f 0 2 = 1 → ∃ p, commandOfLine l = .regionSet tag p ∧ p.index = f 4 1 ∧ p.cls = f 5 1 ∧ p.priv = f 6 1
        ∧ p.job = opt 7 ∧ p.base = f 8 4 ∧ p.count = f 12 4 ∧ p.readMask.toNat = f 16 2 ∧ p.writeMask.toNat = f 18 2
        ∧ p.rawMask.toNat = f 20 2 ∧ p.behaviour = f 22 1 ∧ p.plane = opt 23 ∧ p.depth = opt0 24 1
        ∧ p.stride = opt0 26 2 ∧ p.frameLines = opt0 28 2)
    ∧ (f 0 2 = 5 → ∃ p, commandOfLine l = .jobOpen tag p ∧ p.user = f 4 2 ∧ p.pin.toNat = f 6 8 ∧ p.kind = f 14 1
        ∧ p.hold = f 15 1 ∧ p.declared = opt 16 ∧ p.passes = f 17 1 ∧ p.verify = f 18 1)
    ∧ (f 0 2 = 14 → ∃ p, commandOfLine l = .userSet tag p ∧ p.servicePin.toNat = f 4 8 ∧ p.user = f 12 2
        ∧ p.state = f 14 1 ∧ p.department = opt 15 ∧ p.maxJobs = f 16 1 ∧ p.pin.toNat = f 18 8
        ∧ p.balance = (l.extractLsb' 208 32).toInt ∧ p.overdraft = f 30 4 ∧ p.lifeMono = f 34 4
        ∧ p.lifeColour = f 38 4 ∧ p.lifeCharge = f 42 4)

/-- Report posting and the report index line (R190): a report that fits the free report slots is written slot by slot from the
report tail; its last answered write takes it off the queue and moves the tail; an ERROR is written once more, and a second one
is reported RING_FAULT POST. The index line goes out when head or tail differ from the last values answered OKAY. That a slot is the
lowest-numbered free one (log entry 9), and that a write handed once more keeps it and joins the internal list in the same event (log
entry 37), are the model's choices. -/
def Obligations.ReportsPosted : Prop :=
  (∀ (s : State) (g : Rings) (i : Fin 8), s.resting = true → s.rci.startup = .anchored → s.rci.rings = some g →
    freeSlot? s.down.internal = some i →
    (∀ (rep : Report) (rest : List Report) (handed done : Nat), s.rci.queue = rep :: rest → handed < rep.body.slots →
      ((s.rci.posting = none ∧ handed = 0 ∧ done = 0 ∧ rep.body.slots ≤ g.freeReportSlots)
        ∨ s.rci.posting = some ⟨handed, done⟩) →
      let slot := (g.repTail.toNat + handed) % g.repSlots
      exec .reportWriteIssue s = .next (({ s with
        down := { s.down with
          internal := s.down.internal.set i (some ⟨.reportSlot slot (rep.line handed) false,
            g.repBase + BitVec.ofNat 36 (64 * (1 + slot)), 1, false⟩)
          internalList := s.down.internalList ++ [i] }
        rci := { s.rci with posting := some ⟨handed + 1, done⟩ } } : State).quietly))
    ∧ (s.rci.indexWritten ≠ some (g.cmdHead, g.repTail) → s.down.indexBusy = false →
      exec .indexWriteIssue s = .next (({ s with down := { s.down with
        internal := s.down.internal.set i (some ⟨.indexWrite g.cmdHead g.repTail, g.repBase, 1, false⟩)
        internalList := s.down.internalList ++ [i] } } : State).quietly)))
  ∧ ∀ (s : State) (g : Rings) (i : Fin 8) (x : InternalSlot), s.resting = true → s.rci.rings = some g →
    s.down.internal[i] = some x → i ∉ s.down.internalList → x.discard = false →
    let freed : Down := { s.down with internal := s.down.internal.set i none, credits := s.down.credits + 1 }
    (∀ slot data retried rep rest handed done, x.purpose = .reportSlot slot data retried → s.rci.queue = rep :: rest →
      s.rci.posting = some ⟨handed, done⟩ →
      (done + 1 < rep.body.slots → exec (.reportWriteAnswer i true) s = .next
        (({ s with down := freed, rci := { s.rci with posting := some ⟨handed, done + 1⟩ } } : State).quietly))
      ∧ (done + 1 = rep.body.slots → exec (.reportWriteAnswer i true) s = .next (({ s with
          down := freed
          rci := { s.rci with
            posting := none, queue := rest
            rings := some { g with repTail := g.repTail + BitVec.ofNat 16 rep.body.slots } } } : State).quietly))
      ∧ (retried = false → exec (.reportWriteAnswer i false) s = .next (({ s with down := { s.down with
          internal := s.down.internal.set i (some { x with purpose := .reportSlot slot data true })
          credits := s.down.credits + 1, internalList := s.down.internalList ++ [i] } } : State).quietly))
      ∧ (retried = true → done + 1 = rep.body.slots → s.rci.queue.length ≤ 15 →
        exec (.reportWriteAnswer i false) s = .next (({ s with
          down := freed
          rci := { s.rci with
            posting := none, queue := rest
            rings := some { g with repTail := g.repTail + BitVec.ofNat 16 rep.body.slots } } } : State).reported
              (.ringFault (.post slot)) 0)))
    ∧ ∀ h t, x.purpose = .indexWrite h t →
      exec (.indexWriteAnswer i true) s = .next
        (({ s with down := freed, rci := { s.rci with indexWritten := some (h, t) } } : State).quietly)
      ∧ exec (.indexWriteAnswer i false) s = .next (({ s with down := freed } : State).quietly)

/-- Reports that find no entry are dropped and counted, and change nothing else (R188): shown on a denied transaction. A waiting
ACCOUNT_FAULT is not dropped: it joins when an entry is free, with the time stamp of the event in which it was handed, and the fault
list is then empty (R132, R189). -/
def Obligations.ReportsDropped : Prop :=
  (∀ (d : Dir) (s : State) (t : Txn) (rest : List Txn) (x : Denial), s.resting = true →
    (16 ≤ s.rci.queue.length ∨ (s.rci.held = true ∧ 15 ≤ s.rci.queue.length)) →
    s.path.port d = t :: rest → s.path.mayTake d = true → s.examine t = .deny x → x.reason ≠ .closed →
    s.path.captureMode = .any → s.path.capture = none →
    exec (.takeTransaction d none) s = .next (({ s with
      path := { s.path.setPort d rest with
        capture := some ⟨t.source, t.dir, t.addr, x.entry, x.reason⟩
        captureCount := min 65535 (s.path.captureCount + 1) }
      rci := { s.rci with lost := min 65535 (s.rci.lost + 1), droppedMark := true } } : State).quietly
        [.response t.id t.dir (x.behaviour != .error) (if t.dir = .read then List.replicate t.len onesLine else [])]))
  ∧ ∀ (s : State) (time : BitVec 32), s.powered = true → s.rci.standby = .running → s.rci.faultAt = some time →
    s.rci.hasEntry false = true →
    let u : State := { s with ace := { s.ace with faults := .empty }, rci := { s.rci with faultAt := none } }
    u.still = true → exec .accountFault s = .next { u with
      out := [], handed := [], rci := u.rci.joined (.accountFault s.ace.faults) 0 time }

/-! ## Account Memory -/

/-- AMEM writes and the lockout's end (R115, R126, R127): a write starts with the head record's present values, its posting
count becomes 0 and the Waiting List fills its entry; a completed write stands in AMEM with a check code that agrees, and its
record is CLEAN, or is triggered again if it changed meanwhile. At 60,000 ms a lockout ends with a failure count of 0; that the row
which ends it moves the millisecond counter on to that moment, where it has not come, is the model's choice (log entry 2).
What a change and a trigger do (R124 to R126): an alteration of a stored field makes a CLEAN record DIRTY and marks a WRITING one
changed; a trigger moves a DIRTY record alone, to the queue's tail, or to the Waiting List's while that list holds records or the queue
holds 16, and leaves every stored value and every other record's state. -/
def Obligations.AmemWrites : Prop :=
  (∀ s : State, s.resting = true →
    (∀ r rest, s.ace.writing = none → s.ace.queue = r :: rest → s.rci.startup ≠ .loading →
      let a : Ace := { ((s.ace.clearPosting r).setWb r (.writing false)) with
        queue := rest, writing := some (s.ace.content r) }
      (s.ace.waiting = [] → exec .amemWriteStart s = .next (({ s with ace := a } : State).quietly))
      ∧ ∀ w ws, s.ace.waiting = w :: ws → exec .amemWriteStart s = .next
          (({ s with ace := { (a.setWb w .queued) with queue := rest ++ [w], waiting := ws } } : State).quietly))
    ∧ (∀ c, s.ace.writing = some c →
      let a : Ace := { s.ace with writing := none }
      (s.ace.wb c.id = .writing false → exec .amemWriteComplete s = .next
        (({ s with amem := s.amem.store c, ace := a.setWb c.id .clean } : State).quietly))
      ∧ (s.ace.wb c.id = .writing true → exec .amemWriteComplete s = .next
        (({ s with amem := s.amem.store c, ace := (a.setWb c.id .dirty).trigger c.id } : State).quietly)))
    ∧ ∀ t, s.ace.lockout = some t → exec .lockoutExpiry s = .next (({ s with
        ms := if (s.ms - t).toNat < 60000 then t + 60000 else s.ms
        ace := { (if s.ace.service.failures = 0 then s.ace
          else (s.ace.putService { s.ace.service with failures := 0 }).trigger .service) with lockout := none } } : State).quietly))
  ∧ (∀ (a : Ace) (r : RecId),
    let b := a.trigger r
    (a.wb r ≠ .dirty → b = a)
    ∧ (a.wb r = .dirty → a.waiting = [] → a.queue.length < 16 →
      b.wb r = .queued ∧ b.queue = a.queue ++ [r] ∧ b.waiting = [])
    ∧ (a.wb r = .dirty → (a.waiting ≠ [] ∨ 16 ≤ a.queue.length) →
      b.wb r = .waiting ∧ b.queue = a.queue ∧ b.waiting = a.waiting ++ [r])
    ∧ (∀ x, x ≠ r → b.wb x = a.wb x)
    ∧ (∀ u : Fin 256, b.users[u] = { a.users[u] with wb := b.wb (.user u) })
    ∧ (∀ d : Fin 16, b.depts[d] = { a.depts[d] with wb := b.wb (.dept d) })
    ∧ b = { a with
        users := b.users, depts := b.depts, meters := { a.meters with wb := b.wb .meters }, serviceWb := b.wb .service
        tariffWb := b.wb .tariff, classesWb := b.wb .classes, baysWb := b.wb .bays, queue := b.queue, waiting := b.waiting })
  ∧ (∀ a : Ace,
    let changed : WbState → WbState := fun w => match w with
      | .clean => .dirty
      | .writing _ => .writing true
      | w => w
    (∀ c, a.putService c = { a with
      service := c, serviceWb := if c = a.service then a.serviceWb else changed a.serviceWb })
    ∧ (∀ c, a.putTariff c = { a with tariff := c, tariffWb := if c = a.tariff then a.tariffWb else changed a.tariffWb })
    ∧ (∀ c, a.putClasses c = { a with
      classes := c, classesWb := if c = a.classes then a.classesWb else changed a.classesWb })
    ∧ (∀ c, a.putBays c = { a with bays := c, baysWb := if c = a.bays then a.baysWb else changed a.baysWb })
    ∧ (∀ c, a.putMeters c = { a with meters := { a.meters with
      stored := c, wb := if c = a.meters.stored then a.meters.wb else changed a.meters.wb } })
    ∧ (∀ (i : Fin 16) (c : DeptStored), a.putDept i c = { a with depts := a.depts.set i { a.depts[i] with
      stored := c, wb := if c = (a.depts[i]).stored then (a.depts[i]).wb else changed (a.depts[i]).wb } })
    ∧ (∀ (i : Fin 256) (c : UserStored), a.putUser i c = { a with users := a.users.set i { a.users[i] with
      stored := c, wb := if c = (a.users[i]).stored then (a.users[i]).wb else changed (a.users[i]).wb } }))
  ∧ ∀ (a : Ace) (r x : RecId) (w : WbState),
    (a.setWb r w).wb x = (if x = r then w else a.wb x) ∧ (a.clearPosting r).wb x = a.wb x
    ∧ (∀ u : Fin 256, (a.clearPosting r).users[u] = (if r = .user u then { a.users[u] with posting := 0 } else a.users[u])
      ∧ ((a.setWb r w).users[u]).stored = (a.users[u]).stored ∧ ((a.setWb r w).users[u]).posting = (a.users[u]).posting)
    ∧ (∀ d : Fin 16, (a.clearPosting r).depts[d] = (if r = .dept d then { a.depts[d] with posting := 0 } else a.depts[d])
      ∧ ((a.setWb r w).depts[d]).stored = (a.depts[d]).stored ∧ ((a.setWb r w).depts[d]).posting = (a.depts[d]).posting)
    ∧ (a.clearPosting r).meters = (if r = .meters then { a.meters with posting := 0 } else a.meters)
    ∧ (a.setWb r w).meters.stored = a.meters.stored ∧ (a.setWb r w).meters.posting = a.meters.posting
    ∧ (a.content r).id = r

/-! ## Cartridge lines -/

/-- Requests and deadlines on a bay's line (R134, R136, R138, R140, R146). An idle line sends the exchange that the bay's state
calls for, a poll or a repeat 200 ms after the last exchange's end and a debit request at once, as a frame whose bytes from the
kind on sum to 0; the deadline of 20 ms runs from the send, and from a reply's first byte. A missed deadline fails the
exchange; that the row which sends or fails an exchange moves the millisecond counter on to the moment that is due, where it has not
come, is the model's choice (log entry 2).
A failed DEBIT repeats twice and goes stale at the third (R147, R160, R161). A failure that reaches the detach count makes the bay
depart (R141, R148, R149): the amount in flight returns to what is pending, the share, with the remainder, goes to the tail of the
Departed Cartridge List with the debit that is unconfirmed, and the report tells of it; an UNPROVEN bay's share is written off, and a
full list drops its head, whose share is written off. -/
def Obligations.LineExchanges : Prop :=
  (∀ (s : State) (p : Fin 4), s.resting = true →
    let b := s.bay p
    let now : BitVec 32 := match b.due with
      | .after t => if (s.ms - t).toNat < 200 then t + 200 else s.ms
      | _ => s.ms
    let withBay := fun (ms : BitVec 32) (c : Bay) => ({ s with ms := ms, ccu := { s.ccu with bays := s.ccu.bays.set p c } } : State)
    (b.line = none → b.due ≠ .never →
      (b.state ≠ .identifying → b.state ≠ .proving → ¬ (b.state = .genuine ∧ b.waiting = true) →
        exec (.statusReq p) s = .next ((withBay now { b with line := some ⟨.status, now, false, 0⟩ }).quietly
          [.frame p [0xA5, 0x01, 0x00, 0xFF]]))
      ∧ (b.state = .identifying →
        exec (.identReq p) s = .next ((withBay now { b with line := some ⟨.ident, now, false, 0⟩ }).quietly
          [.frame p [0xA5, 0x02, 0x00, 0xFE]]))
      ∧ (b.state = .proving →
        let nonce := Config.randomNonce s.draws
        exec (.proveReq p) s = .next (({ (withBay now { b with line := some ⟨.prove, now, false, nonce⟩ }) with
          draws := s.draws + 1 } : State).quietly [.frame p (mkFrame 0x03 (word8Bytes nonce))]))
      ∧ ∀ d, b.openDebit = some d → b.state = .genuine → b.waiting = true →
        exec (.debitReq p) s = .next ((withBay s.ms { b with
          waiting := false, openDebit := some { d with sends := d.sends + 1 }
          line := some ⟨.debit, s.ms, false, d.nonce⟩ }).quietly
            [.frame p (mkFrame 0x04 (leBytes 2 d.seq.toNat ++ leBytes 2 d.amount ++ word8Bytes d.nonce))]))
    ∧ ∀ e, b.line = some e →
      (e.begun = false → (s.ms - e.since).toNat ≤ 20 →
        exec (.replyFrameBegins p) s = .next ((withBay s.ms { b with
          line := some { e with begun := true, since := s.ms } }).quietly))
      ∧ (let late : BitVec 32 := if (s.ms - e.since).toNat < 21 then e.since + 21 else s.ms
        let idle : Bay := { b with line := none, due := .after late }
        (b.state = .vacant → exec (.exchangeTimeout p) s = .next ((withBay late idle).quietly))
        ∧ (b.state = .settling → s.rci.hasEntry false = true → exec (.exchangeTimeout p) s = .next
          ((withBay late { idle with state := .vacant, settle := 0, lastCause := some .settleLost, lastChange := late }).reported
            (.bayState ⟨p, .settling, .vacant, .settleLost, none, none, none, none, none⟩) 0))
        ∧ (b.state ≠ .vacant → b.state ≠ .settling → e.kind ≠ .debit → b.failures + 1 < (s.ace.bays[p]).detach →
          (s.ace.bays[p]).detach ≤ 7 →
          exec (.exchangeTimeout p) s = .next ((withBay late { idle with failures := b.failures + 1 }).quietly))))
  ∧ ∀ (s : State) (p : Fin 4) (e : Exchange), s.resting = true → (s.bay p).line = some e →
    let b := s.bay p
    let f := s.tmu[p]
    let left := f.viewLevel - (f.pending + f.inFlight)
    (f.level = .normal → (s.ace.bays[p]).lowMark < left) → (f.level = .low → 0 < left) →
    (s.ace.bays[p]).detach ≤ 7 →
    let late : BitVec 32 := if (s.ms - e.since).toNat < 21 then e.since + 21 else s.ms
    let after := fun (c : Bay) (g : Figures) (departed : List Departed) => ({ s with
      ms := late, ccu := { bays := s.ccu.bays.set p c, departed := departed }, tmu := s.tmu.set p g } : State)
    let idle : Bay := { b with line := none, due := .after late }
    (b.state = .genuine → e.kind = .debit → b.failures + 1 < (s.ace.bays[p]).detach →
      let failed : Bay := { idle with failures := b.failures + 1 }
      (∀ n, f.round = some n → n < 3 → exec (.exchangeTimeout p) s = .next
        ((after { failed with waiting := true } { f with round := some (n + 1) } s.ccu.departed).quietly))
      ∧ (∀ n, f.round = some n → 3 ≤ n → exec (.exchangeTimeout p) s = .next
        ((after failed { f with
          pending := f.pending + f.inFlight, inFlight := 0, round := none, stale := some f.inFlight } s.ccu.departed).quietly)))
    ∧ ∀ serial, b.serial = some serial → (b.state = .genuine ∨ b.state = .unproven ∨ b.state = .proving) →
      (s.ace.bays[p]).detach ≤ b.failures + 1 → s.rci.hasEntry false = true → ¬ (f.pending + f.inFlight = 0 ∧ f.pg = 0) →
      let gone : Bay := { idle with
        state := .vacant, settle := 0, failures := 0, serial := none, foreign := none, colour := none, capacity := none
        issued := none, openDebit := none, unconfirmed := none, waiting := false, lastCause := some .detach, lastChange := late }
      let bare : Figures := { f with
        pending := 0, pg := 0, inFlight := 0, round := none, stale := none, flush := false, view := .vacant, level := .none
        overrun := 0 }
      let share := f.pending + f.inFlight
      let debit := match b.openDebit with
        | some d => if 1 ≤ d.sends then some ⟨d.seq, d.amount⟩ else b.unconfirmed
        | none => b.unconfirmed
      let report := fun (fate : ShareFate) (dropped : Option Departed) => ReportBody.bayState
        ⟨p, b.state, .vacant, .detach, some serial, none, none, none, some ⟨fate, share, f.pg, dropped⟩⟩
      (b.state ≠ .unproven → s.ccu.departed.length < 8 → exec (.exchangeTimeout p) s = .next
        ((after gone bare (s.ccu.departed ++ [⟨serial, p, share, f.pg, debit⟩])).reported (report .entryMade none) 0))
      ∧ (b.state = .unproven → exec (.exchangeTimeout p) s = .next
        ((after gone { bare with
          writtenMg := f.writtenMg + share + (f.writtenPg + f.pg) / 1000000000
          writtenPg := (f.writtenPg + f.pg) % 1000000000 } s.ccu.departed).reported (report .writtenOff none) 0))
      ∧ ∀ x rest, b.state ≠ .unproven → s.ccu.departed = x :: rest → 8 ≤ s.ccu.departed.length →
        let tmu := s.tmu.set p bare
        exec (.exchangeTimeout p) s = .next
          (({ after gone bare (rest ++ [⟨serial, p, share, f.pg, debit⟩]) with
            tmu := tmu.set x.plane { tmu[x.plane] with
              writtenMg := (tmu[x.plane]).writtenMg + x.mg + ((tmu[x.plane]).writtenPg + x.pg) / 1000000000
              writtenPg := ((tmu[x.plane]).writtenPg + x.pg) % 1000000000 } } : State).reported (report .entryMade (some x)) 0)

/-- Status replies (R135, R138, R141 to R143, R145, R148), in time on a line that asked for one: VACANT begins to settle, SETTLING
counts toward the attach count and then identifies, and a bay under supervision counts no failure; the level and flags are recorded, and
a change of state is reported. The restarted flag makes a bay under supervision depart and settle anew. Bytes that no exchange awaits, or
that end past the deadline, are discarded, and a frame that is no STATUS_REP, or whose bytes do not sum to 0, is a failed exchange. That
a reply is taken on a line with no REPLY_FRAME_BEGINS before it, and that late bytes leave the exchange on the line, is the model's
choice (log entry 31). -/
def Obligations.StatusReplies : Prop :=
  (∀ (s : State) (p : Fin 4) (level : BitVec 32) (flags : Byte), s.resting = true → s.rci.hasEntry false = true →
    let b := s.bay p
    let frame := mkFrame 0x81 (leBytes 4 level.toNat ++ [flags])
    let withBay := fun c : Bay => ({ s with ccu := { s.ccu with bays := s.ccu.bays.set p c } } : State)
    let told := { b with line := none, due := .after s.ms, statusLevel := level, statusFlags := flags }
    let report := fun (before after : BayState) (cause : BayCause) =>
      ReportBody.bayState ⟨p, before, after, cause, none, none, none, none, none⟩
    (b.line = none → exec (.statusRep p frame) s = .next s.quietly)
    ∧ (∀ e, b.line = some e → 20 < (s.ms - e.since).toNat → exec (.statusRep p frame) s = .next s.quietly)
    ∧ ∀ e, b.line = some e → e.kind = .status → (s.ms - e.since).toNat ≤ 20 →
      (b.state = .vacant → 2 ≤ (s.ace.bays[p]).attach → exec (.statusRep p frame) s = .next
        ((withBay { told with
          state := .settling, settle := 1, failures := 0, lastCause := some .attach, lastChange := s.ms }).reported
            (report .vacant .settling .attach) 0))
      ∧ (b.state = .vacant → (s.ace.bays[p]).attach ≤ 1 → exec (.statusRep p frame) s = .next
        ((withBay { told with
          state := .identifying, settle := 1, failures := 0, due := .atOnce, lastCause := some .settled
          lastChange := s.ms }).reported (report .vacant .identifying .settled) 0))
      ∧ (b.state = .settling → b.settle + 1 < (s.ace.bays[p]).attach → (s.ace.bays[p]).attach ≤ 15 →
        exec (.statusRep p frame) s = .next ((withBay { told with settle := b.settle + 1 }).quietly))
      ∧ (b.state = .settling → (s.ace.bays[p]).attach ≤ b.settle + 1 → b.settle ≤ 14 → exec (.statusRep p frame) s = .next
        ((withBay { told with
          state := .identifying, settle := b.settle + 1, due := .atOnce, lastCause := some .settled
          lastChange := s.ms }).reported (report .settling .identifying .settled) 0))
      ∧ ((b.state = .genuine ∨ b.state = .unproven ∨ b.state = .wrongBay) → flags.getLsbD 0 = false →
        exec (.statusRep p frame) s = .next ((withBay { told with failures := 0 }).quietly))
      ∧ (∀ serial, b.serial = some serial → b.state = .genuine →
        flags.getLsbD 0 = true → 2 ≤ (s.ace.bays[p]).attach → s.ccu.departed.length < 8 →
        let f := s.tmu[p]
        let left := f.viewLevel - (f.pending + f.inFlight)
        (f.level = .normal → (s.ace.bays[p]).lowMark < left) → (f.level = .low → 0 < left) →
        ¬ (f.pending + f.inFlight = 0 ∧ f.pg = 0) →
        let debit := match b.openDebit with
          | some d => if 1 ≤ d.sends then some ⟨d.seq, d.amount⟩ else b.unconfirmed
          | none => b.unconfirmed
        exec (.statusRep p frame) s = .next (({ s with
          ccu := ⟨s.ccu.bays.set p { told with
              state := .settling, settle := 1, failures := 0, serial := none, foreign := none, colour := none
              capacity := none, issued := none, openDebit := none, unconfirmed := none, waiting := false
              lastCause := some .restarted, lastChange := s.ms },
            s.ccu.departed ++ [⟨serial, p, f.pending + f.inFlight, f.pg, debit⟩]⟩
          tmu := s.tmu.set p { f with
            pending := 0, pg := 0, inFlight := 0, round := none, stale := none, flush := false, view := .vacant
            level := .none, overrun := 0 } } : State).reported
          (.bayState ⟨p, .genuine, .settling, .restarted, some serial, none, none, none,
            some ⟨.entryMade, f.pending + f.inFlight, f.pg, none⟩⟩) 0)))
  ∧ ∀ (s : State) (p : Fin 4) (e : Exchange) (bytes : List Byte), s.resting = true → (s.bay p).line = some e →
    (s.ms - e.since).toNat ≤ 20 → e.kind = .status → (s.bay p).state ≠ .vacant → (s.bay p).state ≠ .settling →
    (s.bay p).failures + 1 < (s.ace.bays[p]).detach → (s.ace.bays[p]).detach ≤ 7 →
    (∀ (level : BitVec 32) (flags : Byte), bytes ≠ mkFrame 0x81 (leBytes 4 level.toNat ++ [flags])) →
    exec (.statusRep p bytes) s = .next (({ s with ccu := { s.ccu with bays := s.ccu.bays.set p { s.bay p with
      line := none, due := .after s.ms, failures := (s.bay p).failures + 1 } } } : State).quietly)

/-- Identity, proof and debit replies (R138 to R140, R145, R147, R157, R160, R162, R164), in time on a line that asked for them: a
cartridge of another colour, or one known elsewhere, is in the wrong bay; any other is to be proved, and takes back its share and its
unconfirmed debit from the Departed Cartridge List where it stands there; a tag that the proof function gives makes it GENUINE, and
confirms an unconfirmed debit whose sequence the cartridge names, any other tag makes it UNPROVEN; a debit whose tag matches posts the
amount in flight, and any other tag returns it to pending and makes the bay UNPROVEN. Here with a level above the low mark and no round
due. The model's choices: that a reply is taken on a line with no REPLY_FRAME_BEGINS before it (log entry 31), and that a good proof
confirms the debit before the level is evaluated (log entry 45). -/
def Obligations.CartridgeReplies : Prop :=
  ∀ (s : State) (p : Fin 4) (e : Exchange), s.resting = true → s.rci.hasEntry false = true →
    (s.bay p).line = some e → (s.ms - e.since).toNat ≤ 20 →
    let b := s.bay p
    let f := s.tmu[p]
    let low := (s.ace.bays[p]).lowMark
    let idle := { b with line := none, due := .after s.ms }
    let after := fun (c : Bay) (g : Figures) =>
      ({ s with ccu := { s.ccu with bays := s.ccu.bays.set p c }, tmu := s.tmu.set p g } : State)
    let quiet := f.stale = none ∧ f.flush = false ∧ f.pending < (s.ace.bays[p]).quantum
    (∀ (serial : Word8) (colour : Byte) (cap : BitVec 32), e.kind = .ident → b.state = .identifying →
      let frame := mkFrame 0x82 (word8Bytes serial ++ colour :: leBytes 4 cap.toNat)
      let wrong := fun cause : BayCause => exec (.identRep p frame) s = .next
        ((after { idle with
          state := .wrongBay, failures := 0, foreign := some serial, colour := some colour, capacity := some cap
          lastCause := some cause, lastChange := s.ms } f).reported
            (.bayState ⟨p, .identifying, .wrongBay, cause, some serial, none, none, none, none⟩) 0)
      let known := (∃ q, q ≠ p ∧ (s.bay q).serial = some serial
          ∧ ((s.bay q).state = .proving ∨ (s.bay q).state = .genuine ∨ (s.bay q).state = .unproven))
        ∨ ∃ d ∈ s.ccu.departed, d.serial = serial ∧ d.plane ≠ p
      let found := { idle with
        state := .proving, failures := 0, serial := some serial, colour := some colour, capacity := some cap
        unconfirmed := none, due := .atOnce, lastCause := some .identified, lastChange := s.ms }
      (colour.toNat ≠ p.val → wrong .wrongColour)
      ∧ (colour.toNat = p.val → known → wrong .duplicate)
      ∧ (colour.toNat = p.val → ¬ known → (∀ d ∈ s.ccu.departed, d.serial ≠ serial) → exec (.identRep p frame) s = .next
        ((after found f).reported
            (.bayState ⟨p, .identifying, .proving, .identified, some serial, none, none, none, none⟩) 0))
      ∧ (∀ before d behind, colour.toNat = p.val → ¬ known → s.ccu.departed = before ++ d :: behind → d.serial = serial →
          (∀ x ∈ before, x.serial ≠ serial) → exec (.identRep p frame) s = .next
        (({ after { found with unconfirmed := d.unconfirmed } { f with
            pending := f.pending + d.mg + (f.pg + d.pg) / 1000000000, pg := (f.pg + d.pg) % 1000000000 } with
          ccu := { bays := s.ccu.bays.set p { found with unconfirmed := d.unconfirmed }, departed := before ++ behind } } : State).reported
            (.bayState ⟨p, .identifying, .proving, .identified, some serial, none, some (d.mg, d.pg), none, none⟩) 0)))
    ∧ (∀ (serial tag : Word8) (level : BitVec 32) (seq : BitVec 16), e.kind = .prove → b.state = .proving →
        b.serial = some serial →
      let frame := mkFrame 0x83 (leBytes 4 level.toNat ++ leBytes 2 seq.toNat ++ word8Bytes tag)
      let good := Config.proofTag (Config.cartridgeKey serial) e.nonce serial level seq = tag
      let proved := { idle with
        state := .genuine, reported := level, failures := 0, issued := some seq, unconfirmed := none
        lastCause := some .proofGood, lastChange := s.ms }
      (b.unconfirmed = none → low < level.toNat - (f.pending + f.inFlight) → good → quiet → exec (.proveRep p frame) s = .next
        ((after { idle with
          state := .genuine, reported := level, failures := 0, issued := some seq, lastCause := some .proofGood
          lastChange := s.ms } { f with view := .genuine, viewLevel := level.toNat, level := .normal }).reported
            (.bayState ⟨p, .proving, .genuine, .proofGood, some serial, some level, none, none, none⟩) 0))
      ∧ (b.unconfirmed = none → low < level.toNat - (f.pending + f.inFlight) → ¬ good → exec (.proveRep p frame) s = .next
        ((after { idle with
          state := .unproven, reported := level, failures := 0, lastCause := some .proofBad, lastChange := s.ms }
          { f with view := .unproven, viewLevel := level.toNat, level := .normal }).reported
            (.bayState ⟨p, .proving, .unproven, .proofBad, some serial, some level, none, none, none⟩) 0))
      ∧ (∀ u, b.unconfirmed = some u → f.view = .vacant → good →
        f.stale = none → f.flush = false →
        (u.seq = seq → low < level.toNat - (f.pending - u.amount + f.inFlight) →
          f.pending - u.amount < (s.ace.bays[p]).quantum → exec (.proveRep p frame) s = .next
          ((after proved { f with
            pending := f.pending - u.amount, postedMg := f.postedMg + u.amount, view := .genuine, viewLevel := level.toNat
            level := .normal }).reported
              (.bayState ⟨p, .proving, .genuine, .proofGood, some serial, some level, none, some u.amount, none⟩) 0))
        ∧ (u.seq ≠ seq → low < level.toNat - (f.pending + f.inFlight) → f.pending < (s.ace.bays[p]).quantum →
          exec (.proveRep p frame) s = .next
          ((after proved { f with view := .genuine, viewLevel := level.toNat, level := .normal }).reported
              (.bayState ⟨p, .proving, .genuine, .proofGood, some serial, some level, none, none, none⟩) 0))))
    ∧ ∀ (serial tag : Word8) (level : BitVec 32) (d : OpenDebit), e.kind = .debit → b.state = .genuine →
        b.serial = some serial → b.openDebit = some d → f.level = .normal →
      let frame := mkFrame 0x84 (leBytes 4 level.toNat ++ leBytes 2 d.seq.toNat ++ word8Bytes tag)
      let good := Config.proofTag (Config.cartridgeKey serial) d.nonce serial level d.seq = tag
      (good → quiet → f.view = .genuine → low < level.toNat - f.pending → exec (.debitRep p frame) s = .next
        ((after { idle with reported := level, openDebit := none, failures := 0 }
          { f with postedMg := f.postedMg + f.inFlight, inFlight := 0, round := none, viewLevel := level.toNat }).quietly))
      ∧ (¬ good → low < f.viewLevel - (f.pending + f.inFlight) → exec (.debitRep p frame) s = .next
        ((after { idle with
          state := .unproven, openDebit := none, failures := 0, lastCause := some .debitTagBad, lastChange := s.ms }
          { f with pending := f.pending + f.inFlight, inFlight := 0, round := none, view := .unproven }).reported
            (.bayState ⟨p, .genuine, .unproven, .debitTagBad, some serial, some b.reported, none, none, none⟩) 0))

/-! ## Toner -/

/-- Every step keeps the account of every plane (R166): metered since POR is posted, in flight, pending at the bay or with a departed
cartridge, or written off; it stands with the law that outside a round nothing is in flight, and that a stale, an open, an unconfirmed
and a departed debit are parts of what is pending (`State.tonerShape`).
So do the movements themselves (R148, R149, R156 to R162). An accrual brings the plane's mass for each dot, carried from picograms into
milligrams.
Levels and rounds (R158, R159, R164, R165): an accrual at a plane whose bay view is GENUINE or UNPROVEN makes a NORMAL level LOW at or
below the low mark, and OUT at 0 with the over-run set, each with its report; at an OUT plane it adds what it carries to the over-run.
A round is due at a GENUINE view without one on a stale debit, at the quantum, or on a flush with something pending: a fresh one puts
at most 65,535 mg in flight and opens a debit with the next sequence, a repeat keeps the debit and its amount. -/
def Obligations.TonerAccountKept : Prop :=
  (∀ s t : State, s.tonerShape → (∀ p, s.tonerLaw p) → step s = .next t → t.tonerShape ∧ ∀ p, t.tonerLaw p)
  ∧ (∀ (s : State) (p q : Fin 4), s.tonerLaw q → ((s.plane p).round = none → (s.plane p).inFlight = 0) →
    (∀ d, (∀ a, (s.plane p).stale = some a → a ≤ (s.plane p).pending) → (s.accrue p d).tonerLaw q
      ∧ ((s.accrue p d).plane p).metered = (s.plane p).metered + d * (s.conf p).dotMass)
    ∧ ((∀ a, (s.plane p).stale = some a → a ≤ (s.plane p).pending) → (s.debitTest p).tonerLaw q)
    ∧ (∀ level, (∀ a, (s.plane p).stale = some a → a ≤ (s.plane p).pending) → (s.roundGood p level).tonerLaw q)
    ∧ (s.roundTagBad p).tonerLaw q ∧ (s.roundFailed p).tonerLaw q ∧ (s.withdrawn p).tonerLaw q
    ∧ (∀ a, a ≤ (s.plane p).pending → (s.confirm p a).tonerLaw q)
    ∧ (s.depart p).1.tonerLaw q
    ∧ (∀ serial colour cap, s.ccu.departedElsewhere p serial = false → (s.identified p serial colour cap).tonerLaw q))
  ∧ (∀ (s : State) (p : Fin 4) (d : Nat),
    let f := s.plane p
    let product := d * (s.conf p).dotMass
    let carry := (f.pg + product) / 1000000000
    let left := f.viewLevel - (f.pending + carry + f.inFlight)
    let g : Figures := { f with
      pg := (f.pg + product) % 1000000000, pending := f.pending + carry
      meteredMg := f.meteredMg + (f.meteredPg + product) / 1000000000, meteredPg := (f.meteredPg + product) % 1000000000 }
    let after := fun (h : Figures) (reports : List ReportBody) =>
      ({ s with tmu := s.tmu.set p h, handed := s.handed ++ reports.map fun r => ⟨r, 0, false⟩ } : State)
    let told := fun (isOut : Bool) (overrun : Nat) =>
      ReportBody.tonerLevel p isOut left f.viewLevel f.view (s.bay p).serial overrun
    let excess := min max32 (f.pending + carry + f.inFlight - f.viewLevel)
    f.flush = false → (f.view = .unproven ∨ (f.view = .genuine ∧ (f.round ≠ none ∨ (f.stale = none ∧ g.pending < (s.conf p).quantum)))) →
    (f.level = .normal → (s.conf p).lowMark < left → 0 < left → s.accrue p d = after g [])
    ∧ (f.level = .normal → left ≤ (s.conf p).lowMark → 0 < left →
      s.accrue p d = after { g with level := .low } [told false f.overrun])
    ∧ (f.level = .normal → left = 0 →
      s.accrue p d = after { g with level := .out, overrun := excess } [told false f.overrun, told true excess])
    ∧ (f.level = .low → 0 < left → s.accrue p d = after g [])
    ∧ (f.level = .low → left = 0 → s.accrue p d = after { g with level := .out, overrun := excess } [told true excess])
    ∧ (f.level = .out → s.accrue p d = after { g with overrun := min max32 (f.overrun + carry) } []))
  ∧ ∀ (s : State) (p : Fin 4),
    let f := s.plane p
    let b := s.bay p
    let due := f.view = .genuine ∧ f.round = none
      ∧ (f.stale ≠ none ∨ (s.conf p).quantum ≤ f.pending ∨ (f.flush = true ∧ 1 ≤ f.pending))
    let after := fun (c : Bay) (g : Figures) =>
      ({ s with ccu := { s.ccu with bays := s.ccu.bays.set p c }, tmu := s.tmu.set p g } : State)
    (¬ due → s.debitTest p = after b { f with flush := f.flush && decide (f.pending ≠ 0) })
    ∧ (due → b.state = .genuine → f.stale = none →
      let amount := min f.pending 65535
      let seq := b.issued.getD 0 + 1
      s.debitTest p = { after { b with
          issued := some seq, openDebit := some ⟨seq, amount, Config.randomNonce s.draws, 0⟩, waiting := true }
        { f with pending := f.pending - amount, inFlight := amount, round := some 1, flush := false } with
        draws := s.draws + 1 })
    ∧ ∀ a, due → b.state = .genuine → f.stale = some a →
      s.debitTest p = after { b with waiting := true }
        { f with pending := f.pending - a, inFlight := a, round := some 1, stale := none, flush := false }

/-! ## Standby -/

/-- STANDBY_ENTER and the phases of entry (R176 to R178): refused while a job marks or is stacked, then while a wipe waits;
accepted, it closes the path. When DRAIN ends every bay departs, and in mode ERASE every key is destroyed and every job ends;
when the flush is complete STANDBY is reported; when POST ends the part is in STANDBY. A part that is drained already goes through
DRAIN, ERASE and DETACH in the accepting event, and through FLUSH too where every record is CLEAN and none is being written.
At the flush's end the posting counts are 0 (R133); that a count which no write has cleared is cleared there is the model's choice (log
entry 35).
That the row runs its command without the command ring, whose indices stand, is the model's choice (log entry 17). -/
def Obligations.StandbyEntry : Prop :=
  (∀ (s : State) (tag : BitVec 16), s.ready = true →
    (∀ n, 2 ≤ n → exec (.standbyEnter tag n) s = .next (s.refused 24 tag .badParam))
    ∧ ∀ m : StandbyMode,
      let n := if m = .retain then 0 else 1
      ((s.jct.marking.isSome = true ∨ s.jct.stack ≠ []) → exec (.standbyEnter tag n) s = .next (s.refused 24 tag .busyMarking))
      ∧ (s.jct.marking = none → s.jct.stack = [] →
        (s.wpe.queue ≠ [] → exec (.standbyEnter tag n) s = .next (s.refused 24 tag .busyWipe))
        ∧ (s.wpe.queue = [] → s.drained = false → exec (.standbyEnter tag n) s = .next (({ s with
          path := { s.path with closed := true }
          rci := { s.rci with standby := .entering m .drain tag ⟨0, 0, 0, 0⟩ } } : State).reported (.result 24 .ok .none) tag))
        ∧ (s.wpe.queue = [] → s.drained = true →
          let ended := if m = .erase then ((List.finRange 16).filter fun j => (s.job j).state.live).length else 0
          let bays := ((List.finRange 4).filter fun p => (s.bay p).state != .vacant).length
          ∃ t, exec (.standbyEnter tag n) s = .next t
            ∧ (s.rci.wakePin = false → t.path = { s.path with closed := true })
            ∧ (∀ p : Fin 4, (t.bay p).state = .vacant ∧ (t.bay p).line = none)
            ∧ (m = .retain → t.keys = s.keys ∧ t.rgt = s.rgt ∧ t.jct = s.jct)
            ∧ (m = .erase → ∀ j : Fin 16, t.keys[j] = (if (s.job j).state.live then none else s.keys[j])
                ∧ (t.job j).state = (if (s.job j).state.live then .free else (s.job j).state))
            ∧ (∃ x ∈ t.rci.queue, x.body = .result 24 .ok .none ∧ x.tag = tag)
            ∧ ((s.ace.flushed = false) → t.rci.standby = .entering m .flush tag ⟨ended, 0, bays, 0⟩)
            ∧ (s.ace.flushed = true → s.rci.queue.length ≤ 1 → s.rci.headBlocked = false → s.rci.queue ≠ [] →
              t.rci.standby = .entering m .post tag ⟨ended, 0, bays, 0⟩
              ∧ ∃ x ∈ t.rci.queue, x.body = .standby m ⟨ended, 0, bays, 0⟩ ∧ x.tag = tag))))
  ∧ (∀ (s : State) (m : StandbyMode) (tag : BitVec 16) (n : StandbyTally), s.powered = true →
    s.rci.standby = .entering m .drain tag n → s.drained = true →
    ∃ t, exec .standbyDrainEnd s = .next t ∧ (∀ p : Fin 4, (t.bay p).state = .vacant ∧ (t.bay p).line = none)
      ∧ (m = .retain → t.keys = s.keys ∧ t.rgt = s.rgt ∧ ∀ j : Fin 16, (t.job j).state = (s.job j).state)
      ∧ (m = .erase → ∀ j : Fin 16, (s.job j).state.live = true → t.keys[j] = none ∧ (t.job j).state = .free)
      ∧ (m = .erase → ∀ i : Fin 32, (∀ x ∈ t.rgt.live[i], x.cls = .plain) ∧ ∀ x ∈ t.rgt.shadow[i], x.cls = .plain))
  ∧ (∀ (s : State) (m : StandbyMode) (tag : BitVec 16) (n : StandbyTally), s.powered = true →
    s.rci.standby = .entering m .flush tag n → s.ace.flushed = true → s.rci.faultWaiting = false →
    s.rci.hasEntry false = true →
    let cleared : Ace := { s.ace with
      users := s.ace.users.map fun r => { r with posting := 0 }
      depts := s.ace.depts.map fun r => { r with posting := 0 }
      meters := { s.ace.meters with posting := 0 } }
    let u := ({ s with ace := cleared, rci := { s.rci with standby := .entering m .post tag n } } : State).reported
      (.standby m n) tag
    u.nothingDue = true → exec .flushComplete s = .next u)
  ∧ ∀ (s : State) (m : StandbyMode) (tag : BitVec 16) (n : StandbyTally), s.powered = true →
    s.rci.standby = .entering m .post tag n → s.posted = true → s.rci.faultWaiting = false → s.rci.wakePin = false →
    let u : State := { s with rci := { s.rci with standby := .standby } }
    u.nothingDue = true → exec .standbyPostEnd s = .next u.quietly
end

