-- ==== Sys2Proof/Laws/State.lean ====
section
/-!
SUPPORT. What each update of the state leaves as it was, one lemma for each field, and the field an update changes.
-/

namespace Sys2Proof.Machine

/-! ## Tables -/

@[simp] theorem upd_get_same {α : Type} {n : Nat} (v : Vector α n) (i : Fin n) (f : α → α) : (upd v i f)[i] = f v[i] := by
  simp [upd]

theorem upd_get {α : Type} {n : Nat} (v : Vector α n) (i k : Fin n) (f : α → α) :
    (upd v i f)[k] = if k = i then f v[k] else v[k] := by
  by_cases h : k = i
  · subst h; simp [upd]
  · have h' : i.val ≠ k.val := fun e => h (Fin.ext e.symm)
    simp [upd, h, h']

theorem upd_get_ne {α : Type} {n : Nat} (v : Vector α n) {i k : Fin n} (f : α → α) (h : k ≠ i) : (upd v i f)[k] = v[k] :=
  (upd_get v i k f).trans (if_neg h)

/-! ## Fields of updated states -/

@[simp] theorem State.modJob_path (s : State) (j : Fin 16) (f : JobSlot → JobSlot) : (s.modJob j f).path = s.path := rfl
@[simp] theorem State.modJob_down (s : State) (j : Fin 16) (f : JobSlot → JobSlot) : (s.modJob j f).down = s.down := rfl
@[simp] theorem State.modJob_rgt (s : State) (j : Fin 16) (f : JobSlot → JobSlot) : (s.modJob j f).rgt = s.rgt := rfl
@[simp] theorem State.modJob_keys (s : State) (j : Fin 16) (f : JobSlot → JobSlot) : (s.modJob j f).keys = s.keys := rfl
@[simp] theorem State.modJob_rmu (s : State) (j : Fin 16) (f : JobSlot → JobSlot) : (s.modJob j f).rmu = s.rmu := rfl
@[simp] theorem State.modJob_ace (s : State) (j : Fin 16) (f : JobSlot → JobSlot) : (s.modJob j f).ace = s.ace := rfl
@[simp] theorem State.modJob_amem (s : State) (j : Fin 16) (f : JobSlot → JobSlot) : (s.modJob j f).amem = s.amem := rfl
@[simp] theorem State.modJob_ccu (s : State) (j : Fin 16) (f : JobSlot → JobSlot) : (s.modJob j f).ccu = s.ccu := rfl
@[simp] theorem State.modJob_tmu (s : State) (j : Fin 16) (f : JobSlot → JobSlot) : (s.modJob j f).tmu = s.tmu := rfl
@[simp] theorem State.modJob_wpe (s : State) (j : Fin 16) (f : JobSlot → JobSlot) : (s.modJob j f).wpe = s.wpe := rfl
@[simp] theorem State.modJob_rci (s : State) (j : Fin 16) (f : JobSlot → JobSlot) : (s.modJob j f).rci = s.rci := rfl
@[simp] theorem State.modJob_ms (s : State) (j : Fin 16) (f : JobSlot → JobSlot) : (s.modJob j f).ms = s.ms := rfl
@[simp] theorem State.modJob_powered (s : State) (j : Fin 16) (f : JobSlot → JobSlot) : (s.modJob j f).powered = s.powered := rfl
@[simp] theorem State.modJob_draws (s : State) (j : Fin 16) (f : JobSlot → JobSlot) : (s.modJob j f).draws = s.draws := rfl
@[simp] theorem State.modJob_losses (s : State) (j : Fin 16) (f : JobSlot → JobSlot) : (s.modJob j f).losses = s.losses := rfl
@[simp] theorem State.modJob_out (s : State) (j : Fin 16) (f : JobSlot → JobSlot) : (s.modJob j f).out = s.out := rfl
@[simp] theorem State.modJob_handed (s : State) (j : Fin 16) (f : JobSlot → JobSlot) : (s.modJob j f).handed = s.handed := rfl
@[simp] theorem State.modJob_pending (s : State) (j : Fin 16) (f : JobSlot → JobSlot) : (s.modJob j f).pending = s.pending := rfl

@[simp] theorem State.modBay_path (s : State) (p : Fin 4) (f : Bay → Bay) : (s.modBay p f).path = s.path := rfl
@[simp] theorem State.modBay_down (s : State) (p : Fin 4) (f : Bay → Bay) : (s.modBay p f).down = s.down := rfl
@[simp] theorem State.modBay_rgt (s : State) (p : Fin 4) (f : Bay → Bay) : (s.modBay p f).rgt = s.rgt := rfl
@[simp] theorem State.modBay_keys (s : State) (p : Fin 4) (f : Bay → Bay) : (s.modBay p f).keys = s.keys := rfl
@[simp] theorem State.modBay_jct (s : State) (p : Fin 4) (f : Bay → Bay) : (s.modBay p f).jct = s.jct := rfl
@[simp] theorem State.modBay_rmu (s : State) (p : Fin 4) (f : Bay → Bay) : (s.modBay p f).rmu = s.rmu := rfl
@[simp] theorem State.modBay_ace (s : State) (p : Fin 4) (f : Bay → Bay) : (s.modBay p f).ace = s.ace := rfl
@[simp] theorem State.modBay_amem (s : State) (p : Fin 4) (f : Bay → Bay) : (s.modBay p f).amem = s.amem := rfl
@[simp] theorem State.modBay_tmu (s : State) (p : Fin 4) (f : Bay → Bay) : (s.modBay p f).tmu = s.tmu := rfl
@[simp] theorem State.modBay_wpe (s : State) (p : Fin 4) (f : Bay → Bay) : (s.modBay p f).wpe = s.wpe := rfl
@[simp] theorem State.modBay_rci (s : State) (p : Fin 4) (f : Bay → Bay) : (s.modBay p f).rci = s.rci := rfl
@[simp] theorem State.modBay_ms (s : State) (p : Fin 4) (f : Bay → Bay) : (s.modBay p f).ms = s.ms := rfl
@[simp] theorem State.modBay_powered (s : State) (p : Fin 4) (f : Bay → Bay) : (s.modBay p f).powered = s.powered := rfl
@[simp] theorem State.modBay_draws (s : State) (p : Fin 4) (f : Bay → Bay) : (s.modBay p f).draws = s.draws := rfl
@[simp] theorem State.modBay_losses (s : State) (p : Fin 4) (f : Bay → Bay) : (s.modBay p f).losses = s.losses := rfl
@[simp] theorem State.modBay_out (s : State) (p : Fin 4) (f : Bay → Bay) : (s.modBay p f).out = s.out := rfl
@[simp] theorem State.modBay_handed (s : State) (p : Fin 4) (f : Bay → Bay) : (s.modBay p f).handed = s.handed := rfl
@[simp] theorem State.modBay_pending (s : State) (p : Fin 4) (f : Bay → Bay) : (s.modBay p f).pending = s.pending := rfl

@[simp] theorem State.modPlane_path (s : State) (p : Fin 4) (f : Figures → Figures) : (s.modPlane p f).path = s.path := rfl
@[simp] theorem State.modPlane_down (s : State) (p : Fin 4) (f : Figures → Figures) : (s.modPlane p f).down = s.down := rfl
@[simp] theorem State.modPlane_rgt (s : State) (p : Fin 4) (f : Figures → Figures) : (s.modPlane p f).rgt = s.rgt := rfl
@[simp] theorem State.modPlane_keys (s : State) (p : Fin 4) (f : Figures → Figures) : (s.modPlane p f).keys = s.keys := rfl
@[simp] theorem State.modPlane_jct (s : State) (p : Fin 4) (f : Figures → Figures) : (s.modPlane p f).jct = s.jct := rfl
@[simp] theorem State.modPlane_rmu (s : State) (p : Fin 4) (f : Figures → Figures) : (s.modPlane p f).rmu = s.rmu := rfl
@[simp] theorem State.modPlane_ace (s : State) (p : Fin 4) (f : Figures → Figures) : (s.modPlane p f).ace = s.ace := rfl
@[simp] theorem State.modPlane_amem (s : State) (p : Fin 4) (f : Figures → Figures) : (s.modPlane p f).amem = s.amem := rfl
@[simp] theorem State.modPlane_ccu (s : State) (p : Fin 4) (f : Figures → Figures) : (s.modPlane p f).ccu = s.ccu := rfl
@[simp] theorem State.modPlane_wpe (s : State) (p : Fin 4) (f : Figures → Figures) : (s.modPlane p f).wpe = s.wpe := rfl
@[simp] theorem State.modPlane_rci (s : State) (p : Fin 4) (f : Figures → Figures) : (s.modPlane p f).rci = s.rci := rfl
@[simp] theorem State.modPlane_ms (s : State) (p : Fin 4) (f : Figures → Figures) : (s.modPlane p f).ms = s.ms := rfl
@[simp] theorem State.modPlane_powered (s : State) (p : Fin 4) (f : Figures → Figures) : (s.modPlane p f).powered = s.powered := rfl
@[simp] theorem State.modPlane_draws (s : State) (p : Fin 4) (f : Figures → Figures) : (s.modPlane p f).draws = s.draws := rfl
@[simp] theorem State.modPlane_losses (s : State) (p : Fin 4) (f : Figures → Figures) : (s.modPlane p f).losses = s.losses := rfl
@[simp] theorem State.modPlane_out (s : State) (p : Fin 4) (f : Figures → Figures) : (s.modPlane p f).out = s.out := rfl
@[simp] theorem State.modPlane_handed (s : State) (p : Fin 4) (f : Figures → Figures) : (s.modPlane p f).handed = s.handed := rfl
@[simp] theorem State.modPlane_pending (s : State) (p : Fin 4) (f : Figures → Figures) : (s.modPlane p f).pending = s.pending := rfl

@[simp] theorem State.hand_path (s : State) (b : ReportBody) (tag : BitVec 16) : (s.hand b tag).path = s.path := rfl
@[simp] theorem State.hand_down (s : State) (b : ReportBody) (tag : BitVec 16) : (s.hand b tag).down = s.down := rfl
@[simp] theorem State.hand_rgt (s : State) (b : ReportBody) (tag : BitVec 16) : (s.hand b tag).rgt = s.rgt := rfl
@[simp] theorem State.hand_keys (s : State) (b : ReportBody) (tag : BitVec 16) : (s.hand b tag).keys = s.keys := rfl
@[simp] theorem State.hand_jct (s : State) (b : ReportBody) (tag : BitVec 16) : (s.hand b tag).jct = s.jct := rfl
@[simp] theorem State.hand_rmu (s : State) (b : ReportBody) (tag : BitVec 16) : (s.hand b tag).rmu = s.rmu := rfl
@[simp] theorem State.hand_ace (s : State) (b : ReportBody) (tag : BitVec 16) : (s.hand b tag).ace = s.ace := rfl
@[simp] theorem State.hand_amem (s : State) (b : ReportBody) (tag : BitVec 16) : (s.hand b tag).amem = s.amem := rfl
@[simp] theorem State.hand_ccu (s : State) (b : ReportBody) (tag : BitVec 16) : (s.hand b tag).ccu = s.ccu := rfl
@[simp] theorem State.hand_tmu (s : State) (b : ReportBody) (tag : BitVec 16) : (s.hand b tag).tmu = s.tmu := rfl
@[simp] theorem State.hand_wpe (s : State) (b : ReportBody) (tag : BitVec 16) : (s.hand b tag).wpe = s.wpe := rfl
@[simp] theorem State.hand_rci (s : State) (b : ReportBody) (tag : BitVec 16) : (s.hand b tag).rci = s.rci := rfl
@[simp] theorem State.hand_ms (s : State) (b : ReportBody) (tag : BitVec 16) : (s.hand b tag).ms = s.ms := rfl
@[simp] theorem State.hand_powered (s : State) (b : ReportBody) (tag : BitVec 16) : (s.hand b tag).powered = s.powered := rfl
@[simp] theorem State.hand_draws (s : State) (b : ReportBody) (tag : BitVec 16) : (s.hand b tag).draws = s.draws := rfl
@[simp] theorem State.hand_losses (s : State) (b : ReportBody) (tag : BitVec 16) : (s.hand b tag).losses = s.losses := rfl
@[simp] theorem State.hand_out (s : State) (b : ReportBody) (tag : BitVec 16) : (s.hand b tag).out = s.out := rfl
@[simp] theorem State.hand_pending (s : State) (b : ReportBody) (tag : BitVec 16) : (s.hand b tag).pending = s.pending := rfl

@[simp] theorem State.handHeld_path (s : State) (b : ReportBody) (tag : BitVec 16) : (s.handHeld b tag).path = s.path := rfl
@[simp] theorem State.handHeld_down (s : State) (b : ReportBody) (tag : BitVec 16) : (s.handHeld b tag).down = s.down := rfl
@[simp] theorem State.handHeld_rgt (s : State) (b : ReportBody) (tag : BitVec 16) : (s.handHeld b tag).rgt = s.rgt := rfl
@[simp] theorem State.handHeld_keys (s : State) (b : ReportBody) (tag : BitVec 16) : (s.handHeld b tag).keys = s.keys := rfl
@[simp] theorem State.handHeld_jct (s : State) (b : ReportBody) (tag : BitVec 16) : (s.handHeld b tag).jct = s.jct := rfl
@[simp] theorem State.handHeld_rmu (s : State) (b : ReportBody) (tag : BitVec 16) : (s.handHeld b tag).rmu = s.rmu := rfl
@[simp] theorem State.handHeld_ace (s : State) (b : ReportBody) (tag : BitVec 16) : (s.handHeld b tag).ace = s.ace := rfl
@[simp] theorem State.handHeld_amem (s : State) (b : ReportBody) (tag : BitVec 16) : (s.handHeld b tag).amem = s.amem := rfl
@[simp] theorem State.handHeld_ccu (s : State) (b : ReportBody) (tag : BitVec 16) : (s.handHeld b tag).ccu = s.ccu := rfl
@[simp] theorem State.handHeld_tmu (s : State) (b : ReportBody) (tag : BitVec 16) : (s.handHeld b tag).tmu = s.tmu := rfl
@[simp] theorem State.handHeld_wpe (s : State) (b : ReportBody) (tag : BitVec 16) : (s.handHeld b tag).wpe = s.wpe := rfl
@[simp] theorem State.handHeld_rci (s : State) (b : ReportBody) (tag : BitVec 16) : (s.handHeld b tag).rci = s.rci := rfl
@[simp] theorem State.handHeld_ms (s : State) (b : ReportBody) (tag : BitVec 16) : (s.handHeld b tag).ms = s.ms := rfl
@[simp] theorem State.handHeld_powered (s : State) (b : ReportBody) (tag : BitVec 16) : (s.handHeld b tag).powered = s.powered := rfl
@[simp] theorem State.handHeld_draws (s : State) (b : ReportBody) (tag : BitVec 16) : (s.handHeld b tag).draws = s.draws := rfl
@[simp] theorem State.handHeld_losses (s : State) (b : ReportBody) (tag : BitVec 16) : (s.handHeld b tag).losses = s.losses := rfl
@[simp] theorem State.handHeld_out (s : State) (b : ReportBody) (tag : BitVec 16) : (s.handHeld b tag).out = s.out := rfl
@[simp] theorem State.handHeld_pending (s : State) (b : ReportBody) (tag : BitVec 16) : (s.handHeld b tag).pending = s.pending := rfl

@[simp] theorem State.give_path (s : State) (o : Output) : (s.give o).path = s.path := rfl
@[simp] theorem State.give_down (s : State) (o : Output) : (s.give o).down = s.down := rfl
@[simp] theorem State.give_rgt (s : State) (o : Output) : (s.give o).rgt = s.rgt := rfl
@[simp] theorem State.give_keys (s : State) (o : Output) : (s.give o).keys = s.keys := rfl
@[simp] theorem State.give_jct (s : State) (o : Output) : (s.give o).jct = s.jct := rfl
@[simp] theorem State.give_rmu (s : State) (o : Output) : (s.give o).rmu = s.rmu := rfl
@[simp] theorem State.give_ace (s : State) (o : Output) : (s.give o).ace = s.ace := rfl
@[simp] theorem State.give_amem (s : State) (o : Output) : (s.give o).amem = s.amem := rfl
@[simp] theorem State.give_ccu (s : State) (o : Output) : (s.give o).ccu = s.ccu := rfl
@[simp] theorem State.give_tmu (s : State) (o : Output) : (s.give o).tmu = s.tmu := rfl
@[simp] theorem State.give_wpe (s : State) (o : Output) : (s.give o).wpe = s.wpe := rfl
@[simp] theorem State.give_rci (s : State) (o : Output) : (s.give o).rci = s.rci := rfl
@[simp] theorem State.give_ms (s : State) (o : Output) : (s.give o).ms = s.ms := rfl
@[simp] theorem State.give_powered (s : State) (o : Output) : (s.give o).powered = s.powered := rfl
@[simp] theorem State.give_draws (s : State) (o : Output) : (s.give o).draws = s.draws := rfl
@[simp] theorem State.give_losses (s : State) (o : Output) : (s.give o).losses = s.losses := rfl
@[simp] theorem State.give_handed (s : State) (o : Output) : (s.give o).handed = s.handed := rfl
@[simp] theorem State.give_pending (s : State) (o : Output) : (s.give o).pending = s.pending := rfl

@[simp] theorem State.draw_path (s : State) : (s.draw).path = s.path := rfl
@[simp] theorem State.draw_down (s : State) : (s.draw).down = s.down := rfl
@[simp] theorem State.draw_rgt (s : State) : (s.draw).rgt = s.rgt := rfl
@[simp] theorem State.draw_keys (s : State) : (s.draw).keys = s.keys := rfl
@[simp] theorem State.draw_jct (s : State) : (s.draw).jct = s.jct := rfl
@[simp] theorem State.draw_rmu (s : State) : (s.draw).rmu = s.rmu := rfl
@[simp] theorem State.draw_ace (s : State) : (s.draw).ace = s.ace := rfl
@[simp] theorem State.draw_amem (s : State) : (s.draw).amem = s.amem := rfl
@[simp] theorem State.draw_ccu (s : State) : (s.draw).ccu = s.ccu := rfl
@[simp] theorem State.draw_tmu (s : State) : (s.draw).tmu = s.tmu := rfl
@[simp] theorem State.draw_wpe (s : State) : (s.draw).wpe = s.wpe := rfl
@[simp] theorem State.draw_rci (s : State) : (s.draw).rci = s.rci := rfl
@[simp] theorem State.draw_ms (s : State) : (s.draw).ms = s.ms := rfl
@[simp] theorem State.draw_powered (s : State) : (s.draw).powered = s.powered := rfl
@[simp] theorem State.draw_losses (s : State) : (s.draw).losses = s.losses := rfl
@[simp] theorem State.draw_out (s : State) : (s.draw).out = s.out := rfl
@[simp] theorem State.draw_handed (s : State) : (s.draw).handed = s.handed := rfl
@[simp] theorem State.draw_pending (s : State) : (s.draw).pending = s.pending := rfl

@[simp] theorem State.beginEvent_path (s : State) : (s.beginEvent).path = s.path := rfl
@[simp] theorem State.beginEvent_down (s : State) : (s.beginEvent).down = s.down := rfl
@[simp] theorem State.beginEvent_rgt (s : State) : (s.beginEvent).rgt = s.rgt := rfl
@[simp] theorem State.beginEvent_keys (s : State) : (s.beginEvent).keys = s.keys := rfl
@[simp] theorem State.beginEvent_jct (s : State) : (s.beginEvent).jct = s.jct := rfl
@[simp] theorem State.beginEvent_rmu (s : State) : (s.beginEvent).rmu = s.rmu := rfl
@[simp] theorem State.beginEvent_ace (s : State) : (s.beginEvent).ace = s.ace := rfl
@[simp] theorem State.beginEvent_amem (s : State) : (s.beginEvent).amem = s.amem := rfl
@[simp] theorem State.beginEvent_ccu (s : State) : (s.beginEvent).ccu = s.ccu := rfl
@[simp] theorem State.beginEvent_tmu (s : State) : (s.beginEvent).tmu = s.tmu := rfl
@[simp] theorem State.beginEvent_wpe (s : State) : (s.beginEvent).wpe = s.wpe := rfl
@[simp] theorem State.beginEvent_rci (s : State) : (s.beginEvent).rci = s.rci := rfl
@[simp] theorem State.beginEvent_ms (s : State) : (s.beginEvent).ms = s.ms := rfl
@[simp] theorem State.beginEvent_powered (s : State) : (s.beginEvent).powered = s.powered := rfl
@[simp] theorem State.beginEvent_draws (s : State) : (s.beginEvent).draws = s.draws := rfl
@[simp] theorem State.beginEvent_losses (s : State) : (s.beginEvent).losses = s.losses := rfl
@[simp] theorem State.beginEvent_pending (s : State) : (s.beginEvent).pending = s.pending := rfl

@[simp] theorem State.releaseAssembly_down (s : State) (js : List (Fin 16)) : (s.releaseAssembly js).down = s.down := rfl
@[simp] theorem State.releaseAssembly_rgt (s : State) (js : List (Fin 16)) : (s.releaseAssembly js).rgt = s.rgt := rfl
@[simp] theorem State.releaseAssembly_keys (s : State) (js : List (Fin 16)) : (s.releaseAssembly js).keys = s.keys := rfl
@[simp] theorem State.releaseAssembly_jct (s : State) (js : List (Fin 16)) : (s.releaseAssembly js).jct = s.jct := rfl
@[simp] theorem State.releaseAssembly_rmu (s : State) (js : List (Fin 16)) : (s.releaseAssembly js).rmu = s.rmu := rfl
@[simp] theorem State.releaseAssembly_ace (s : State) (js : List (Fin 16)) : (s.releaseAssembly js).ace = s.ace := rfl
@[simp] theorem State.releaseAssembly_amem (s : State) (js : List (Fin 16)) : (s.releaseAssembly js).amem = s.amem := rfl
@[simp] theorem State.releaseAssembly_ccu (s : State) (js : List (Fin 16)) : (s.releaseAssembly js).ccu = s.ccu := rfl
@[simp] theorem State.releaseAssembly_tmu (s : State) (js : List (Fin 16)) : (s.releaseAssembly js).tmu = s.tmu := rfl
@[simp] theorem State.releaseAssembly_wpe (s : State) (js : List (Fin 16)) : (s.releaseAssembly js).wpe = s.wpe := rfl
@[simp] theorem State.releaseAssembly_rci (s : State) (js : List (Fin 16)) : (s.releaseAssembly js).rci = s.rci := rfl
@[simp] theorem State.releaseAssembly_ms (s : State) (js : List (Fin 16)) : (s.releaseAssembly js).ms = s.ms := rfl
@[simp] theorem State.releaseAssembly_powered (s : State) (js : List (Fin 16)) : (s.releaseAssembly js).powered = s.powered := rfl
@[simp] theorem State.releaseAssembly_draws (s : State) (js : List (Fin 16)) : (s.releaseAssembly js).draws = s.draws := rfl
@[simp] theorem State.releaseAssembly_losses (s : State) (js : List (Fin 16)) : (s.releaseAssembly js).losses = s.losses := rfl
@[simp] theorem State.releaseAssembly_out (s : State) (js : List (Fin 16)) : (s.releaseAssembly js).out = s.out := rfl
@[simp] theorem State.releaseAssembly_handed (s : State) (js : List (Fin 16)) : (s.releaseAssembly js).handed = s.handed := rfl
@[simp] theorem State.releaseAssembly_pending (s : State) (js : List (Fin 16)) : (s.releaseAssembly js).pending = s.pending := rfl

@[simp] theorem State.setWakePin_path (s : State) (a : Bool) : (s.setWakePin a).path = s.path := rfl
@[simp] theorem State.setWakePin_down (s : State) (a : Bool) : (s.setWakePin a).down = s.down := rfl
@[simp] theorem State.setWakePin_rgt (s : State) (a : Bool) : (s.setWakePin a).rgt = s.rgt := rfl
@[simp] theorem State.setWakePin_keys (s : State) (a : Bool) : (s.setWakePin a).keys = s.keys := rfl
@[simp] theorem State.setWakePin_jct (s : State) (a : Bool) : (s.setWakePin a).jct = s.jct := rfl
@[simp] theorem State.setWakePin_rmu (s : State) (a : Bool) : (s.setWakePin a).rmu = s.rmu := rfl
@[simp] theorem State.setWakePin_ace (s : State) (a : Bool) : (s.setWakePin a).ace = s.ace := rfl
@[simp] theorem State.setWakePin_amem (s : State) (a : Bool) : (s.setWakePin a).amem = s.amem := rfl
@[simp] theorem State.setWakePin_ccu (s : State) (a : Bool) : (s.setWakePin a).ccu = s.ccu := rfl
@[simp] theorem State.setWakePin_tmu (s : State) (a : Bool) : (s.setWakePin a).tmu = s.tmu := rfl
@[simp] theorem State.setWakePin_wpe (s : State) (a : Bool) : (s.setWakePin a).wpe = s.wpe := rfl
@[simp] theorem State.setWakePin_ms (s : State) (a : Bool) : (s.setWakePin a).ms = s.ms := rfl
@[simp] theorem State.setWakePin_powered (s : State) (a : Bool) : (s.setWakePin a).powered = s.powered := rfl
@[simp] theorem State.setWakePin_draws (s : State) (a : Bool) : (s.setWakePin a).draws = s.draws := rfl
@[simp] theorem State.setWakePin_losses (s : State) (a : Bool) : (s.setWakePin a).losses = s.losses := rfl
@[simp] theorem State.setWakePin_out (s : State) (a : Bool) : (s.setWakePin a).out = s.out := rfl
@[simp] theorem State.setWakePin_handed (s : State) (a : Bool) : (s.setWakePin a).handed = s.handed := rfl
@[simp] theorem State.setWakePin_pending (s : State) (a : Bool) : (s.setWakePin a).pending = s.pending := rfl

@[simp] theorem State.clearCapture_down (s : State) : (s.clearCapture).down = s.down := rfl
@[simp] theorem State.clearCapture_rgt (s : State) : (s.clearCapture).rgt = s.rgt := rfl
@[simp] theorem State.clearCapture_keys (s : State) : (s.clearCapture).keys = s.keys := rfl
@[simp] theorem State.clearCapture_jct (s : State) : (s.clearCapture).jct = s.jct := rfl
@[simp] theorem State.clearCapture_rmu (s : State) : (s.clearCapture).rmu = s.rmu := rfl
@[simp] theorem State.clearCapture_ace (s : State) : (s.clearCapture).ace = s.ace := rfl
@[simp] theorem State.clearCapture_amem (s : State) : (s.clearCapture).amem = s.amem := rfl
@[simp] theorem State.clearCapture_ccu (s : State) : (s.clearCapture).ccu = s.ccu := rfl
@[simp] theorem State.clearCapture_tmu (s : State) : (s.clearCapture).tmu = s.tmu := rfl
@[simp] theorem State.clearCapture_wpe (s : State) : (s.clearCapture).wpe = s.wpe := rfl
@[simp] theorem State.clearCapture_rci (s : State) : (s.clearCapture).rci = s.rci := rfl
@[simp] theorem State.clearCapture_ms (s : State) : (s.clearCapture).ms = s.ms := rfl
@[simp] theorem State.clearCapture_powered (s : State) : (s.clearCapture).powered = s.powered := rfl
@[simp] theorem State.clearCapture_draws (s : State) : (s.clearCapture).draws = s.draws := rfl
@[simp] theorem State.clearCapture_losses (s : State) : (s.clearCapture).losses = s.losses := rfl
@[simp] theorem State.clearCapture_out (s : State) : (s.clearCapture).out = s.out := rfl
@[simp] theorem State.clearCapture_handed (s : State) : (s.clearCapture).handed = s.handed := rfl
@[simp] theorem State.clearCapture_pending (s : State) : (s.clearCapture).pending = s.pending := rfl

@[simp] theorem State.placeRead_rgt (s : State) (i : Fin 32) (r : ReadSlot) : (s.placeRead i r).rgt = s.rgt := rfl
@[simp] theorem State.placeRead_keys (s : State) (i : Fin 32) (r : ReadSlot) : (s.placeRead i r).keys = s.keys := rfl
@[simp] theorem State.placeRead_jct (s : State) (i : Fin 32) (r : ReadSlot) : (s.placeRead i r).jct = s.jct := rfl
@[simp] theorem State.placeRead_rmu (s : State) (i : Fin 32) (r : ReadSlot) : (s.placeRead i r).rmu = s.rmu := rfl
@[simp] theorem State.placeRead_ace (s : State) (i : Fin 32) (r : ReadSlot) : (s.placeRead i r).ace = s.ace := rfl
@[simp] theorem State.placeRead_amem (s : State) (i : Fin 32) (r : ReadSlot) : (s.placeRead i r).amem = s.amem := rfl
@[simp] theorem State.placeRead_ccu (s : State) (i : Fin 32) (r : ReadSlot) : (s.placeRead i r).ccu = s.ccu := rfl
@[simp] theorem State.placeRead_tmu (s : State) (i : Fin 32) (r : ReadSlot) : (s.placeRead i r).tmu = s.tmu := rfl
@[simp] theorem State.placeRead_wpe (s : State) (i : Fin 32) (r : ReadSlot) : (s.placeRead i r).wpe = s.wpe := rfl
@[simp] theorem State.placeRead_rci (s : State) (i : Fin 32) (r : ReadSlot) : (s.placeRead i r).rci = s.rci := rfl
@[simp] theorem State.placeRead_ms (s : State) (i : Fin 32) (r : ReadSlot) : (s.placeRead i r).ms = s.ms := rfl
@[simp] theorem State.placeRead_powered (s : State) (i : Fin 32) (r : ReadSlot) : (s.placeRead i r).powered = s.powered := rfl
@[simp] theorem State.placeRead_draws (s : State) (i : Fin 32) (r : ReadSlot) : (s.placeRead i r).draws = s.draws := rfl
@[simp] theorem State.placeRead_losses (s : State) (i : Fin 32) (r : ReadSlot) : (s.placeRead i r).losses = s.losses := rfl
@[simp] theorem State.placeRead_out (s : State) (i : Fin 32) (r : ReadSlot) : (s.placeRead i r).out = s.out := rfl
@[simp] theorem State.placeRead_handed (s : State) (i : Fin 32) (r : ReadSlot) : (s.placeRead i r).handed = s.handed := rfl
@[simp] theorem State.placeRead_pending (s : State) (i : Fin 32) (r : ReadSlot) : (s.placeRead i r).pending = s.pending := rfl

@[simp] theorem State.placeWrite_rgt (s : State) (i : Fin 32) (w : WriteSlot) : (s.placeWrite i w).rgt = s.rgt := rfl
@[simp] theorem State.placeWrite_keys (s : State) (i : Fin 32) (w : WriteSlot) : (s.placeWrite i w).keys = s.keys := rfl
@[simp] theorem State.placeWrite_jct (s : State) (i : Fin 32) (w : WriteSlot) : (s.placeWrite i w).jct = s.jct := rfl
@[simp] theorem State.placeWrite_rmu (s : State) (i : Fin 32) (w : WriteSlot) : (s.placeWrite i w).rmu = s.rmu := rfl
@[simp] theorem State.placeWrite_ace (s : State) (i : Fin 32) (w : WriteSlot) : (s.placeWrite i w).ace = s.ace := rfl
@[simp] theorem State.placeWrite_amem (s : State) (i : Fin 32) (w : WriteSlot) : (s.placeWrite i w).amem = s.amem := rfl
@[simp] theorem State.placeWrite_ccu (s : State) (i : Fin 32) (w : WriteSlot) : (s.placeWrite i w).ccu = s.ccu := rfl
@[simp] theorem State.placeWrite_tmu (s : State) (i : Fin 32) (w : WriteSlot) : (s.placeWrite i w).tmu = s.tmu := rfl
@[simp] theorem State.placeWrite_wpe (s : State) (i : Fin 32) (w : WriteSlot) : (s.placeWrite i w).wpe = s.wpe := rfl
@[simp] theorem State.placeWrite_rci (s : State) (i : Fin 32) (w : WriteSlot) : (s.placeWrite i w).rci = s.rci := rfl
@[simp] theorem State.placeWrite_ms (s : State) (i : Fin 32) (w : WriteSlot) : (s.placeWrite i w).ms = s.ms := rfl
@[simp] theorem State.placeWrite_powered (s : State) (i : Fin 32) (w : WriteSlot) : (s.placeWrite i w).powered = s.powered := rfl
@[simp] theorem State.placeWrite_draws (s : State) (i : Fin 32) (w : WriteSlot) : (s.placeWrite i w).draws = s.draws := rfl
@[simp] theorem State.placeWrite_losses (s : State) (i : Fin 32) (w : WriteSlot) : (s.placeWrite i w).losses = s.losses := rfl
@[simp] theorem State.placeWrite_out (s : State) (i : Fin 32) (w : WriteSlot) : (s.placeWrite i w).out = s.out := rfl
@[simp] theorem State.placeWrite_handed (s : State) (i : Fin 32) (w : WriteSlot) : (s.placeWrite i w).handed = s.handed := rfl
@[simp] theorem State.placeWrite_pending (s : State) (i : Fin 32) (w : WriteSlot) : (s.placeWrite i w).pending = s.pending := rfl

@[simp] theorem State.settleMarks_path (s : State) (ms : List LineMark) (ds : List Nat) : (s.settleMarks ms ds).path = s.path := rfl
@[simp] theorem State.settleMarks_down (s : State) (ms : List LineMark) (ds : List Nat) : (s.settleMarks ms ds).down = s.down := rfl
@[simp] theorem State.settleMarks_rgt (s : State) (ms : List LineMark) (ds : List Nat) : (s.settleMarks ms ds).rgt = s.rgt := rfl
@[simp] theorem State.settleMarks_keys (s : State) (ms : List LineMark) (ds : List Nat) : (s.settleMarks ms ds).keys = s.keys := rfl
@[simp] theorem State.settleMarks_rmu (s : State) (ms : List LineMark) (ds : List Nat) : (s.settleMarks ms ds).rmu = s.rmu := rfl
@[simp] theorem State.settleMarks_ace (s : State) (ms : List LineMark) (ds : List Nat) : (s.settleMarks ms ds).ace = s.ace := rfl
@[simp] theorem State.settleMarks_amem (s : State) (ms : List LineMark) (ds : List Nat) : (s.settleMarks ms ds).amem = s.amem := rfl
@[simp] theorem State.settleMarks_ccu (s : State) (ms : List LineMark) (ds : List Nat) : (s.settleMarks ms ds).ccu = s.ccu := rfl
@[simp] theorem State.settleMarks_tmu (s : State) (ms : List LineMark) (ds : List Nat) : (s.settleMarks ms ds).tmu = s.tmu := rfl
@[simp] theorem State.settleMarks_wpe (s : State) (ms : List LineMark) (ds : List Nat) : (s.settleMarks ms ds).wpe = s.wpe := rfl
@[simp] theorem State.settleMarks_rci (s : State) (ms : List LineMark) (ds : List Nat) : (s.settleMarks ms ds).rci = s.rci := rfl
@[simp] theorem State.settleMarks_ms (s : State) (ms : List LineMark) (ds : List Nat) : (s.settleMarks ms ds).ms = s.ms := rfl
@[simp] theorem State.settleMarks_powered (s : State) (ms : List LineMark) (ds : List Nat) : (s.settleMarks ms ds).powered = s.powered := rfl
@[simp] theorem State.settleMarks_draws (s : State) (ms : List LineMark) (ds : List Nat) : (s.settleMarks ms ds).draws = s.draws := rfl
@[simp] theorem State.settleMarks_losses (s : State) (ms : List LineMark) (ds : List Nat) : (s.settleMarks ms ds).losses = s.losses := rfl
@[simp] theorem State.settleMarks_out (s : State) (ms : List LineMark) (ds : List Nat) : (s.settleMarks ms ds).out = s.out := rfl
@[simp] theorem State.settleMarks_handed (s : State) (ms : List LineMark) (ds : List Nat) : (s.settleMarks ms ds).handed = s.handed := rfl
@[simp] theorem State.settleMarks_pending (s : State) (ms : List LineMark) (ds : List Nat) : (s.settleMarks ms ds).pending = s.pending := rfl

@[simp] theorem State.hand_handed (s : State) (b : ReportBody) (tag : BitVec 16) :
    (s.hand b tag).handed = s.handed ++ [⟨b, tag, false⟩] := rfl
@[simp] theorem State.handHeld_handed (s : State) (b : ReportBody) (tag : BitVec 16) :
    (s.handHeld b tag).handed = s.handed ++ [⟨b, tag, true⟩] := rfl
@[simp] theorem State.give_out (s : State) (o : Output) : (s.give o).out = s.out ++ [o] := rfl
@[simp] theorem State.draw_draws (s : State) : s.draw.draws = s.draws + 1 := rfl
@[simp] theorem State.beginEvent_out (s : State) : s.beginEvent.out = [] := rfl
@[simp] theorem State.beginEvent_handed (s : State) : s.beginEvent.handed = [] := rfl
@[simp] theorem State.modJob_slots (s : State) (j : Fin 16) (f : JobSlot → JobSlot) :
    (s.modJob j f).jct.slots = upd s.jct.slots j f := rfl
@[simp] theorem State.modJob_marking (s : State) (j : Fin 16) (f : JobSlot → JobSlot) :
    (s.modJob j f).jct.marking = s.jct.marking := rfl
@[simp] theorem State.modJob_stack (s : State) (j : Fin 16) (f : JobSlot → JobSlot) :
    (s.modJob j f).jct.stack = s.jct.stack := rfl
@[simp] theorem State.modBay_bays (s : State) (p : Fin 4) (f : Bay → Bay) : (s.modBay p f).ccu.bays = upd s.ccu.bays p f := rfl
@[simp] theorem State.modBay_departed (s : State) (p : Fin 4) (f : Bay → Bay) :
    (s.modBay p f).ccu.departed = s.ccu.departed := rfl
@[simp] theorem State.modPlane_planes (s : State) (p : Fin 4) (f : Figures → Figures) : (s.modPlane p f).tmu = upd s.tmu p f := rfl

theorem State.modJob_job (s : State) (j k : Fin 16) (f : JobSlot → JobSlot) :
    (s.modJob j f).job k = if k = j then f (s.job k) else s.job k := upd_get s.jct.slots j k f
theorem State.modBay_bay (s : State) (p q : Fin 4) (f : Bay → Bay) :
    (s.modBay p f).bay q = if q = p then f (s.bay q) else s.bay q := upd_get s.ccu.bays p q f
theorem State.modPlane_plane (s : State) (p q : Fin 4) (f : Figures → Figures) :
    (s.modPlane p f).plane q = if q = p then f (s.plane q) else s.plane q := upd_get s.tmu p q f

@[simp] theorem State.modJob_job_same (s : State) (j : Fin 16) (f : JobSlot → JobSlot) :
    (s.modJob j f).job j = f (s.job j) := by simp [State.modJob_job]
@[simp] theorem State.modBay_bay_same (s : State) (p : Fin 4) (f : Bay → Bay) : (s.modBay p f).bay p = f (s.bay p) := by
  simp [State.modBay_bay]
@[simp] theorem State.modPlane_plane_same (s : State) (p : Fin 4) (f : Figures → Figures) :
    (s.modPlane p f).plane p = f (s.plane p) := by simp [State.modPlane_plane]

end Sys2Proof.Machine
end

