-- ==== Sys2Proof/Laws/Events.lean ====
section
/-!
SUPPORT. The end of an event in closed form: where nothing is due, an event's own effect is all that happens, and its
reports join the queue.
-/

namespace Sys2Proof.Machine

/-! ## Contexts -/

theorem Tracker.untie_nil (t : Tracker) : t.untie [] = t := by
  cases h : t.tied <;> simp [Tracker.untie, h]

theorem Context.dropDue_eq (c : Context) (h : c.queue.filter PageRecord.isDue = []) : c.dropDue = c := by
  have hq : (c.queue.filter fun r => !r.isDue) = c.queue := by
    rw [List.filter_eq_self]
    intro r hr
    have := List.filter_eq_nil_iff.1 h r hr
    simpa using this
  have ht : c.trackers.map (Tracker.untie []) = c.trackers := by
    ext i hi
    simp [Tracker.untie_nil]
  simp [Context.dropDue, h, hq, ht]

theorem Jobs.mem_contexts_own (j : Jobs) (i : Fin 16) (c : Context) (h : (j.slots[i]).own = some c) :
    (⟨i, c⟩ : Marked) ∈ j.contexts := by
  simp only [Jobs.contexts, List.mem_append, List.mem_filterMap]
  exact .inr ⟨i, List.mem_finRange i, by simp at h; simp [h]⟩

theorem Jobs.mapContexts_eq (j : Jobs) (f : Context → Context) (h : ∀ m ∈ j.contexts, f m.ctx = m.ctx) :
    j.mapContexts f = j := by
  have h1 : j.marking.map (fun m => { m with ctx := f m.ctx }) = j.marking := by
    cases hm : j.marking with
    | none => rfl
    | some m => simp [h m (by simp [Jobs.contexts, hm])]
  have h2 : j.stack.map (fun m => { m with ctx := f m.ctx }) = j.stack := by
    conv_rhs => rw [← List.map_id j.stack]
    refine List.map_congr_left fun m hm => ?_
    simp [h m (by simp [Jobs.contexts, hm])]
  have h3 : j.slots.map (fun q => { q with own := q.own.map f }) = j.slots := by
    ext i hi
    have : (j.slots[i].own.map f) = j.slots[i].own := by
      cases ho : j.slots[i].own with
      | none => rfl
      | some c => simp [h _ (j.mem_contexts_own ⟨i, hi⟩ c (by simpa using ho))]
    simp [this]
  unfold Jobs.mapContexts
  rw [h1, h2, h3]

theorem Jobs.due_nil (j : Jobs) (h : j.metered = true) : j.due = [] := by
  simp only [Jobs.metered, Bool.and_eq_true, List.isEmpty_iff] at h
  exact h.1

theorem Jobs.filter_due_nil (j : Jobs) (h : j.due = []) (m : Marked) (hm : m ∈ j.contexts) :
    m.ctx.queue.filter PageRecord.isDue = [] := by
  simp only [Jobs.due, List.flatMap_eq_nil_iff] at h
  exact h m hm

theorem Jobs.dropEmptyOwn_eq (j : Jobs) (h : j.metered = true) : j.slots.map JobSlot.dropEmptyOwn = j.slots := by
  simp only [Jobs.metered, Bool.and_eq_true, List.all_eq_true] at h
  ext i hi
  have h2 := h.2 j.slots[i] (by simp)
  have : (j.slots[i].own.filter fun c => !c.queue.isEmpty) = j.slots[i].own := by
    cases ho : j.slots[i].own with
    | none => rfl
    | some c => simp [ho] at h2; simp [h2]
  simp [JobSlot.dropEmptyOwn, this]

theorem State.releaseAssembly_nil (s : State) : s.releaseAssembly [] = s := by
  have : s.path.hold.map (HoldEntry.releaseFor []) = s.path.hold := by
    conv_rhs => rw [← List.map_id s.path.hold]
    refine List.map_congr_left fun h _ => ?_
    cases hc : h.cause <;> simp [HoldEntry.releaseFor, hc]
  simp [State.releaseAssembly, this]

/-- With no record due and no empty own context, nothing settles. -/
theorem State.settleDue_eq (s : State) (h : s.jct.metered = true) : s.settleDue = s := by
  have hd := s.jct.due_nil h
  have hm : s.jct.mapContexts Context.dropDue = s.jct :=
    s.jct.mapContexts_eq _ fun m hm => Context.dropDue_eq _ (s.jct.filter_due_nil hd m hm)
  have ho : (s.jct.contexts.filter fun m => m.ctx.queue.any PageRecord.isDue) = [] := by
    rw [List.filter_eq_nil_iff]
    intro m hm' hany
    have := s.jct.filter_due_nil hd m hm'
    rw [List.filter_eq_nil_iff] at this
    obtain ⟨r, hr, hr'⟩ := List.any_eq_true.1 hany
    exact this r hr hr'
  unfold State.settleDue
  rw [ho, hd, hm]
  simp only [Jobs.dropEmptyOwn_eq _ h, List.map_nil, State.releaseAssembly_nil]
  rfl

/-! ## The other consequences -/

theorem State.completeCommit_eq (s : State) (h : s.rgt.commitDue = false) : s.completeCommit = s := by
  unfold State.completeCommit
  split <;> simp [h]

theorem State.finishWipe_eq (s : State) (h : s.wpe.doneDue = false) : s.finishWipe = s := by
  unfold State.finishWipe
  split
  · rfl
  · next e rest hq =>
    have : e.isDone = false := by simpa [Wpe.doneDue, hq] using h
    simp [this]

theorem State.leaveAll_eq (s : State) (h : ∀ j, s.mayLeave j = false) : s.leaveAll = s := by
  have : ∀ js : List (Fin 16), js.foldl State.leaveIfDue s = s := by
    intro js
    induction js with
    | nil => rfl
    | cons j rest ih => simp [State.leaveIfDue, h, ih]
  exact this _

theorem State.startWipe_eq (s : State) (h : s.wipeStartDue = false) : s.startWipe = s := by
  simp [State.startWipe, h]

theorem State.standbyStep_running (s : State) (h : s.rci.standby = .running) : s.standbyStep = s := by
  have h1 : s.drainEnd = s := by unfold State.drainEnd; rw [h]
  have h2 : s.flushTrigger = s := by unfold State.flushTrigger; rw [h]
  have h3 : s.flushEnd = s := by unfold State.flushEnd; rw [h]
  rw [State.standbyStep, h1, h2, h3]

theorem State.postEnd_running (s : State) (h : s.rci.standby = .running) : s.postEnd = s := by
  unfold State.postEnd; rw [h]

theorem State.wakeCheck_running (s : State) (h : s.rci.standby = .running) : s.wakeCheck = s := by
  simp [State.wakeCheck, h]

/-- What `nothingDue` says of the parts other than standby. -/
theorem State.nothingDue_iff (s : State) : s.nothingDue = true ↔
    s.jct.metered = true ∧ s.rgt.commitDue = false ∧ s.wpe.doneDue = false ∧ (∀ j, s.mayLeave j = false)
      ∧ s.wipeStartDue = false ∧ s.standbySettled = true
      ∧ (s.rci.startup == .anchored && s.rci.faultWaiting && s.rci.hasEntry false) = false := by
  cases h : (s.rci.startup == .anchored && s.rci.faultWaiting && s.rci.hasEntry false) <;>
    simp [State.nothingDue, and_assoc, h]

/-- Where nothing is due in a running part, an event's effect has no consequences. -/
theorem State.consequences_eq (s : State) (h : s.nothingDue = true) (hr : s.rci.standby = .running) :
    s.consequences = s := by
  obtain ⟨h1, h2, h3, h4, h5, -, -⟩ := s.nothingDue_iff.1 h
  rw [State.consequences, s.settleDue_eq h1, s.completeCommit_eq h2, s.finishWipe_eq h3, s.leaveAll_eq h4,
    s.startWipe_eq h5, s.standbyStep_running hr]

/-! ## Joining -/

theorem Rci.faultAt_none (r : Rci) (h : r.faultWaiting = false) : r.faultAt = none := by
  simpa [Rci.faultWaiting] using h

theorem State.joinFault_eq (s : State) (h : s.rci.faultWaiting = false) : s.joinFault = s := by
  simp [State.joinFault, s.rci.faultAt_none h]

/-- A waiting ACCOUNT_FAULT that finds an entry joins with its own time stamp, and the fault list is then empty (R188, R189). -/
theorem State.joinFault_some (s : State) (time : BitVec 32) (h : s.rci.faultAt = some time)
    (he : s.rci.hasEntry false = true) :
    s.joinFault = { s with
      ace := { s.ace with faults := .empty }
      rci := { (s.rci.joined (.accountFault s.ace.faults) 0 time) with faultAt := none } } := by
  simp [State.joinFault, State.joinAt, h, he, Rci.joined]

theorem joinOrder_nil : joinOrder [] = [] := rfl

theorem ReportBody.rank_lt (b : ReportBody) (f : Bool) : b.rank f < 15 := by
  cases b <;> cases f <;> simp [ReportBody.rank]

theorem joinOrder_one (h : Handed) : joinOrder [h] = [h] := by
  have hlt : ∀ k, k < 15 → (List.range 15).flatMap (fun n => if k = n then [h] else []) = [h] := by
    intro k hk
    interval_cases k <;> rfl
  have := hlt _ (h.body.rank_lt ([h].any (·.body.isFreed)))
  simpa [joinOrder, List.filter_cons, beq_iff_eq] using this

theorem State.joinOne_standby (s : State) (h : Handed) : (s.joinOne h).rci.standby = s.rci.standby := by
  unfold State.joinOne State.joinAt; split <;> rfl

theorem State.foldl_joinOne_standby (hs : List Handed) (s : State) :
    (hs.foldl State.joinOne s).rci.standby = s.rci.standby := by
  induction hs generalizing s with
  | nil => rfl
  | cons h rest ih => rw [List.foldl_cons, ih, s.joinOne_standby]

/-- The end of an event where nothing is due and no ACCOUNT_FAULT waits: the handed reports join. -/
theorem State.endEvent_eq (s : State) (h : s.nothingDue = true) (hr : s.rci.standby = .running)
    (hf : s.rci.faultWaiting = false) :
    s.endEvent = { ((joinOrder s.handed).foldl State.joinOne s) with handed := [] } := by
  have hs : s.joinAll.rci.standby = .running := by
    rw [State.joinAll, s.joinFault_eq hf]
    show ((joinOrder s.handed).foldl State.joinOne s).rci.standby = .running
    rw [State.foldl_joinOne_standby, hr]
  rw [State.endEvent, s.consequences_eq h hr, State.postEnd_running _ hs, State.wakeCheck_running _ hs, State.joinAll,
    s.joinFault_eq hf, State.joinHanded]

/-- The end of an event that hands nothing. -/
theorem State.endEvent_quiet (s : State) (h : s.nothingDue = true) (hr : s.rci.standby = .running)
    (hf : s.rci.faultWaiting = false) (hh : s.handed = []) : s.endEvent = s := by
  rw [s.endEvent_eq h hr hf, hh, joinOrder_nil, List.foldl_nil]
  cases s; subst hh; rfl

/-- The end of an event that hands one report, which finds an entry. -/
theorem State.endEvent_one (s : State) (h : s.nothingDue = true) (hr : s.rci.standby = .running)
    (hf : s.rci.faultWaiting = false) (x : Handed) (hh : s.handed = [x]) (he : s.rci.hasEntry x.usesHeld = true) :
    s.endEvent = { s with
      handed := [], rci := { (s.rci.joined x.body x.tag s.ms) with held := s.rci.held && !x.usesHeld } } := by
  rw [s.endEvent_eq h hr hf, hh, joinOrder_one]
  simp [State.joinOne, State.joinAt, he, Rci.joined]

end Sys2Proof.Machine
end

