-- ==== Sys2Proof/Laws/Commands.lean ====
section
/-!
SUPPORT. Ring commands at a part that is ready: what a command's owner answers is all that happens, and its result joins the
Report Queue.
-/

namespace Sys2Proof.Machine

/-! ## Ready states -/

theorem State.resting_iff (s : State) : s.resting = true ↔
    s.powered = true ∧ s.rci.standby = .running ∧ s.rci.faultWaiting = false ∧ s.nothingDue = true := by
  simp [State.resting, and_assoc]

theorem State.commandReady_iff (s : State) : s.commandReady = true ↔
    s.rci.startup = .anchored ∧ s.rci.faultWaiting = false ∧ s.rci.standby = .running ∧ s.rci.hand = false
      ∧ s.rci.queue.length ≤ 14 := by
  simp [State.commandReady, and_assoc]

theorem State.ready_iff (s : State) : s.ready = true ↔
    s.resting = true ∧ s.commandReady = true ∧ s.rci.held = false ∧ s.noneClosing = true := by
  simp [State.ready, and_assoc]

theorem State.noneClosing_iff (s : State) : s.noneClosing = true ↔ ∀ j, (s.job j).state ≠ .closing := by
  simp only [State.noneClosing, List.all_eq_true, State.job, bne_iff_ne]
  constructor
  · intro h j; exact h _ (by simp)
  · intro h q hq
    obtain ⟨i, hi, rfl⟩ := List.mem_iff_getElem.1 hq
    simp only [Vector.length_toList] at hi
    exact h ⟨i, hi⟩

theorem State.mayLeave_of_noneClosing (s : State) (h : s.noneClosing = true) (j : Fin 16) : s.mayLeave j = false := by
  have := s.noneClosing_iff.1 h j
  cases hs : (s.job j).state <;> simp_all [State.mayLeave]

/-- What `nothingDue` looks at in a running part without a waiting ACCOUNT_FAULT. -/
theorem State.nothingDue_congr {s t : State} (h : s.nothingDue = true) (hr : t.rci.standby = .running)
    (hf : t.rci.faultWaiting = false) (h1 : t.jct = s.jct) (h2 : t.rgt.commit = s.rgt.commit)
    (h3 : t.rgt.inFlight = s.rgt.inFlight) (h4 : t.wpe.queue = s.wpe.queue) (h5 : t.path.reads = s.path.reads)
    (h6 : t.path.writes = s.path.writes) (h7 : t.down.orphans = s.down.orphans) : t.nothingDue = true := by
  obtain ⟨a1, a2, a3, a4, a5, -, -⟩ := s.nothingDue_iff.1 h
  refine t.nothingDue_iff.2 ⟨?_, ?_, ?_, ?_, ?_, ?_, ?_⟩
  · rw [h1]; exact a1
  · simpa [Regions.commitDue, h2, h3] using a2
  · simpa [Wpe.doneDue, h4] using a3
  · intro j
    have := a4 j
    simpa [State.mayLeave, State.job, h1, Wpe.room, h4] using this
  · simpa [State.wipeStartDue, State.quiet, h4, h5, h6, h7] using a5
  · simp [State.standbySettled, hr]
  · simp [hf]

/-! ## The event of a ring command -/

/-- The state in which a ring command runs: its event has begun, and an entry is held for its result. -/
def State.running (s : State) : State := { s.beginEvent with rci := { s.rci with held := true } }

/-- A command whose owner answers `a`, and whose state still has nothing due, ends with its result in the queue. -/
theorem ringEvent_eq {s : State} {run : State → State} {kind tag : BitVec 16} {a : Answer} (h : s.ready = true)
    (hrun : run s.running = report kind tag a) (hn : a.2.nothingDue = true)
    (hr : a.2.rci = { s.rci with held := true }) (hh : a.2.handed = []) (hm : a.2.ms = s.ms) :
    ringEvent run s = .next
      { a.2 with handed := [], rci := s.rci.joined (.result kind a.1.1 a.1.2) tag s.ms } := by
  obtain ⟨hrest, hc, hheld, -⟩ := s.ready_iff.1 h
  obtain ⟨hp, hsb, hfw, -⟩ := s.resting_iff.1 hrest
  obtain ⟨-, -, -, -, hq⟩ := s.commandReady_iff.1 hc
  have hdir : (s.beginEvent).direct run = report kind tag a := by
    have : s.beginEvent.commandReady = true := hc
    simp only [State.direct, this, if_true]
    exact hrun
  have hfa : s.rci.faultAt = none := s.rci.faultAt_none hfw
  have he := State.endEvent_one (report kind tag a) (x := ⟨.result kind a.1.1 a.1.2, tag, true⟩)
    (State.nothingDue_congr hn (by simp [report, State.handHeld, hr, hsb]) (by simp [report, State.handHeld, hr, Rci.faultWaiting, hfa])
      rfl rfl rfl rfl rfl rfl rfl)
    (by simp [report, State.handHeld, hr, hsb]) (by simp [report, State.handHeld, hr, Rci.faultWaiting, hfa])
    (by simp [report, State.handHeld, hh])
    (by
      simp only [report, State.handHeld, hr, Rci.hasEntry]
      simp only [Bool.not_true, Bool.and_false, if_neg Bool.false_ne_true, decide_eq_true_eq]
      omega)
  simp only [ringEvent, event, hp, if_true, hdir, he]
  simp [report, State.handHeld, hr, hm, Rci.joined, hheld]

end Sys2Proof.Machine
end

