-- ==== Sys2Proof/Laws/Operations.lean ====
section
/-!
SUPPORT. What the operations of the credential check, of the draws and of the resets can do, each said once.
-/

namespace Sys2Proof.Machine

/-- Two draws of the random source give two different keys (R30, R31). -/
theorem randomKey_injective {m n : Nat} (h : Config.randomKey m = Config.randomKey n) : m = n := by
  simp only [Config.randomKey, Key.mk.injEq] at h
  exact (Nat.pair_eq_pair.1 (Config.keyCode.injective h)).1

/-- Two users with the same PIN hold different digests (R111). -/
theorem userDigest_user {u v : Fin 256} {pin : Word8} (h : Config.userDigest u pin = Config.userDigest v pin) : u = v := by
  simp only [Config.userDigest, Digest.mk.injEq] at h
  exact Fin.ext ((Config.digestCode pin).injective h)

/-- What a credential check can do (R114, R115): refuse during a lockout and change nothing, or examine the PIN, after the expiry
of a lockout whose time is over. -/
theorem State.credential_cases (s : State) (pin : Word8) :
    (∃ t, s.ace.lockout = some t ∧ s.since t ≤ 60000 ∧ s.credential pin = (s, .refused (.msLeft (s.lockoutLeft t))))
    ∨ (∃ t, s.ace.lockout = some t ∧ 60000 < s.since t ∧ s.credential pin = (s.expireLockout t).examinePin pin)
    ∨ (s.ace.lockout = none ∧ s.credential pin = s.examinePin pin) := by
  unfold State.credential
  cases h : s.ace.lockout with
  | none => simp
  | some t =>
    by_cases hl : s.since t ≤ 60000
    · simp [hl]
    · exact .inr (.inl ⟨t, rfl, by omega, by simp [hl]⟩)

/-- An examination of a PIN changes ACE alone, and passes exactly when the digests agree (R114). -/
theorem State.examinePin_cases (s : State) (pin : Word8) :
    (Config.serviceDigest pin = s.ace.service.digest
      ∧ s.examinePin pin = ({ s with ace := s.ace.serviceFailures 0 }, .passed))
    ∨ (Config.serviceDigest pin ≠ s.ace.service.digest
      ∧ ∃ a, s.examinePin pin = ({ s with ace := a }, .refused .none)) := by
  unfold State.examinePin
  split <;> rename_i h
  · exact .inl ⟨h, rfl⟩
  · exact .inr ⟨h, _, rfl⟩

/-- A report joins or is dropped; either way only RCI changes, and no report that waited is lost (R188). -/
theorem State.joinAt_cases (s : State) (time : BitVec 32) (h : Handed) :
    (s.rci.hasEntry h.usesHeld = true ∧ s.joinAt time h = { s with
        rci := { (s.rci.joined h.body h.tag time) with held := s.rci.held && !h.usesHeld } })
    ∨ (s.rci.hasEntry h.usesHeld = false ∧ s.joinAt time h = { s with rci := { s.rci with
        lost := min 65535 (s.rci.lost + 1), droppedMark := true, held := s.rci.held && !h.usesHeld } }) := by
  unfold State.joinAt
  cases he : s.rci.hasEntry h.usesHeld <;> simp [Rci.joined]

/-- What a trigger can do (R125, R126): nothing to a record that is not DIRTY; else the record joins the queue's tail, or the
Waiting List's while that list holds records or the queue is full. -/
theorem Ace.trigger_cases (a : Ace) (r : RecId) :
    (a.wb r ≠ .dirty ∧ a.trigger r = a)
    ∨ (a.wb r = .dirty ∧ a.waiting = [] ∧ a.queue.length < 16
      ∧ a.trigger r = { a.setWb r .queued with queue := a.queue ++ [r] })
    ∨ (a.wb r = .dirty ∧ (a.waiting ≠ [] ∨ 16 ≤ a.queue.length)
      ∧ a.trigger r = { a.setWb r .waiting with waiting := a.waiting ++ [r] }) := by
  unfold Ace.trigger
  split <;> rename_i h
  · split <;> rename_i hc
    · exact .inr (.inl ⟨h, by simp_all, by simp_all, rfl⟩)
    · refine .inr (.inr ⟨h, ?_, rfl⟩)
      by_cases hw : a.waiting = []
      · exact .inr (by simpa [hw] using hc)
      · exact .inl hw
  · exact .inl ⟨fun hd => h hd, rfl⟩

@[simp] theorem Ace.clearCounts_users (a : Ace) (u : Fin 256) : (a.clearCounts.users[u]).posting = 0 := by
  simp [Ace.clearCounts]
@[simp] theorem Ace.clearCounts_depts (a : Ace) (d : Fin 16) : (a.clearCounts.depts[d]).posting = 0 := by
  simp [Ace.clearCounts]
@[simp] theorem Ace.clearCounts_meters (a : Ace) : a.clearCounts.meters.posting = 0 := rfl
@[simp] theorem Ace.clearCounts_queue (a : Ace) : a.clearCounts.queue = a.queue := rfl
@[simp] theorem Ace.clearCounts_waiting (a : Ace) : a.clearCounts.waiting = a.waiting := rfl
@[simp] theorem Ace.clearCounts_writing (a : Ace) : a.clearCounts.writing = a.writing := rfl
@[simp] theorem Ace.clearCounts_lockout (a : Ace) : a.clearCounts.lockout = a.lockout := rfl

end Sys2Proof.Machine
end

