-- ==== Sys2Proof/WellFormed.lean ====
section
/-!
DEFINITION. Well-formed commands: those whose operands the ports, the cartridge lines and the command slots can carry
(chapter 1, sections 11.3 and 11.5). A transaction that breaks the form of R1 is well-formed here: PFE denies it.
-/

namespace Sys2Proof

/-- A number fits in `n` bytes. -/
def fitsBytes (n v : Nat) : Bool := v < 256 ^ n

/-- An optional one-byte field: $FF spells its absence (R192). -/
def optByteOk : Option Nat → Bool
  | none => true
  | some v => v < 255

/-- An optional field of `n` bytes of which 0 spells the absence (section 11.3). -/
def optZeroOk (n : Nat) : Option Nat → Bool
  | none => true
  | some v => 1 ≤ v && fitsBytes n v

/-- A signed 32-bit number. -/
def signed32Ok (v : Int) : Bool := -(2 ^ 31 : Int) ≤ v && v < 2 ^ 31

/-- A transaction is presented on the channel of its direction (R3). -/
def channelOk (d : Dir) : Option Txn → Bool
  | none => true
  | some t => t.dir == d

/-- DN delivers 1 to 8 lines with OKAY, and none with ERROR (R23). -/
def returnOk (okay : Bool) (lines : List Line) : Bool := if okay then 1 ≤ lines.length && lines.length ≤ 8 else lines.isEmpty

/-- A reply frame has at least a start mark, and at most a length byte can say (section 11.5). -/
def frameOk (fr : List Byte) : Bool := 1 ≤ fr.length && fr.length ≤ 259

/-- The fields of REGION_SET fit their bytes. -/
def RegionSetParams.fits (p : RegionSetParams) : Bool :=
  fitsBytes 1 p.index && fitsBytes 1 p.cls && fitsBytes 1 p.priv && optByteOk p.job && fitsBytes 4 p.base
    && fitsBytes 4 p.count && fitsBytes 1 p.behaviour && optByteOk p.plane && optZeroOk 1 p.depth && optZeroOk 2 p.stride
    && optZeroOk 2 p.frameLines

/-- The fields of JOB_OPEN fit their bytes. -/
def JobOpenParams.fits (p : JobOpenParams) : Bool :=
  fitsBytes 2 p.user && fitsBytes 1 p.kind && fitsBytes 1 p.hold && optByteOk p.declared && fitsBytes 1 p.passes
    && fitsBytes 1 p.verify

/-- The fields of CLASS_SET fit their bytes. -/
def ClassSetParams.fits (p : ClassSetParams) : Bool :=
  fitsBytes 1 p.index && fitsBytes 1 p.valid && fitsBytes 2 p.maxLines && fitsBytes 4 p.maxDots && fitsBytes 2 p.basePrice
    && fitsBytes 2 p.colourPrice

/-- The fields of TARIFF_SET fit their bytes. -/
def TariffSetParams.fits (p : TariffSetParams) : Bool :=
  fitsBytes 2 p.free && fitsBytes 2 p.surcharge && fitsBytes 2 p.cap && fitsBytes 2 p.threshold

/-- The fields of USER_SET fit their bytes. -/
def UserSetParams.fits (p : UserSetParams) : Bool :=
  fitsBytes 2 p.user && fitsBytes 1 p.state && optByteOk p.department && fitsBytes 1 p.maxJobs && signed32Ok p.balance
    && fitsBytes 4 p.overdraft && fitsBytes 4 p.lifeMono && fitsBytes 4 p.lifeColour && fitsBytes 4 p.lifeCharge

/-- The fields of BAY_CONFIG fit their bytes. -/
def BayConfigParams.fits (p : BayConfigParams) : Bool :=
  fitsBytes 1 p.bay && fitsBytes 1 p.policy && fitsBytes 1 p.attach && fitsBytes 1 p.detach && fitsBytes 2 p.dotMass
    && fitsBytes 2 p.quantum && fitsBytes 2 p.lowMark && fitsBytes 2 p.grace

/-- The fields of WIPE_RANGE fit their bytes. -/
def WipeRangeParams.fits (p : WipeRangeParams) : Bool :=
  fitsBytes 4 p.base && fitsBytes 4 p.count && fitsBytes 1 p.passes && fitsBytes 1 p.verify

/-- An allowance fits its four bytes, of which all ones spells UNLIMITED (R192). -/
def allowanceFits : Option Nat → Bool
  | none => true
  | some v => v < 256 ^ 4 - 1

/-- The department operand fits its byte, of which all ones spells ALL (R192). -/
def deptFits : DeptChoice → Bool
  | .all => true
  | .one i => i < 255

/-- The command's operands are ones that its port, line or slot can carry. -/
def Instr.wf : Instr → Bool
  | .por _ => true
  | .lrst _ => true
  | .wake _ => true
  | .loadingEnd => true
  | .takeTransaction d t => channelOk d t
  | .releasedTaken => true
  | .downstreamGrant => true
  | .readReturn _ okay ls => returnOk okay ls
  | .writeAnswer _ _ => true
  | .commitCompletion => true
  | .recordSettle => true
  | .jobLeavesClosing _ => true
  | .wipeStart => true
  | .wipeWriteIssue => true
  | .wipeWriteAnswer _ _ => true
  | .verifyReadIssue => true
  | .verifyReadReturn _ okay ls => returnOk okay ls
  | .wipeDone => true
  | .fetchStart => true
  | .fetchReadReturn _ _ _ => true
  | .reportWriteIssue => true
  | .reportWriteAnswer _ _ => true
  | .indexWriteIssue => true
  | .indexWriteAnswer _ _ => true
  | .accountFault => true
  | .amemWriteStart => true
  | .amemWriteComplete => true
  | .lockoutExpiry => true
  | .statusReq _ => true
  | .identReq _ => true
  | .proveReq _ => true
  | .debitReq _ => true
  | .statusRep _ fr => frameOk fr
  | .identRep _ fr => frameOk fr
  | .proveRep _ fr => frameOk fr
  | .debitRep _ fr => frameOk fr
  | .exchangeTimeout _ => true
  | .standbyDrainEnd => true
  | .flushComplete => true
  | .standbyPostEnd => true
  | .regionSet _ p => p.fits
  | .regionClear _ i => fitsBytes 1 i
  | .regionsCommit _ => true
  | .captureClear _ => true
  | .jobOpen _ p => p.fits
  | .jobRelease _ j _ => fitsBytes 1 j
  | .jobClose _ j => fitsBytes 1 j
  | .jobQuery _ j => fitsBytes 1 j
  | .markSelect _ j => fitsBytes 1 j
  | .markInterrupt _ j => fitsBytes 1 j
  | .markResume _ => true
  | .classSet _ p => p.fits
  | .tariffSet _ p => p.fits
  | .userSet _ p => p.fits
  | .userAdjust _ _ u a => fitsBytes 1 u && signed32Ok a
  | .userQuery _ _ u => fitsBytes 1 u
  | .deptSet _ _ d a => fitsBytes 1 d && allowanceFits a
  | .periodReset _ _ w => deptFits w
  | .meterQuery _ _ => true
  | .servicePinSet _ _ _ => true
  | .bayQuery _ b => fitsBytes 1 b
  | .bayConfig _ p => p.fits
  | .wipeRange _ p => p.fits
  | .standbyEnter _ m => fitsBytes 1 m
  | .unknownKind _ k => k == 0 || 25 ≤ k.toNat
  | .replyFrameBegins _ => true
  | .supplyLoss => true

end Sys2Proof
end

