-- ==== Sys2Proof/Tests/Slice0.lean ====
section
/-!
SUPPORT. Tests: ill-formed commands that `Instr.wf` refuses; values worked out by hand from the rules or given by the scenes
of the chapters; and, for each statement with hypotheses, a named witness that meets them.
-/

namespace Sys2Proof.Tests

open Sys2Proof Sys2Proof.Machine

-- The tests are elaborated one after another: side by side, each would wait on a thread with a stack of its own.
set_option Elab.async false

/-! ## Ill-formed commands: one for each check of Sys2Proof/WellFormed.lean -/

/-- A region's fields, for an IMAGE entry of job 1. -/
def region : RegionSetParams :=
  { index := 4, cls := 1, priv := 1, job := some 1, base := 0x70000, count := 16, readMask := 0xFFFF, writeMask := 0xFFFF
    rawMask := 0, behaviour := 0, plane := none, depth := none, stride := none, frameLines := none }

/-- A USER_SET of user 3. -/
def userSet : UserSetParams :=
  { servicePin := 0, user := 3, state := 1, department := some 2, maxJobs := 2, pin := 0x0807060504030201, balance := -5
    overdraft := 5, lifeMono := 0, lifeColour := 0, lifeCharge := 0 }

theorem test_wf_region : (Instr.regionSet 1 region).wf = true := by decide
theorem test_wf_fitsBytes : (Instr.regionClear 1 256).wf = false := by decide
theorem test_wf_optByte : (Instr.regionSet 1 { region with job := some 255 }).wf = false := by decide
theorem test_wf_optZero : (Instr.regionSet 1 { region with depth := some 0 }).wf = false := by decide
theorem test_wf_optZero_wide : (Instr.regionSet 1 { region with stride := some 65536 }).wf = false := by decide
theorem test_wf_signed32 : (Instr.userAdjust 1 0 3 (2 ^ 31)).wf = false := by decide
theorem test_wf_channel : (Instr.takeTransaction .write (some ⟨1, 0, 0, .read 1⟩)).wf = false := by decide
theorem test_wf_return_error : (Instr.readReturn (.slot 0) false [0]).wf = false := by decide
theorem test_wf_return_none : (Instr.verifyReadReturn 0 true []).wf = false := by decide
theorem test_wf_frame : (Instr.statusRep 0 []).wf = false := by decide
theorem test_wf_allowance : (Instr.deptSet 1 0 3 (some 0xFFFFFFFF)).wf = false := by decide
theorem test_wf_dept : (Instr.periodReset 1 0 (.one 255)).wf = false := by decide
theorem test_wf_unknownKind : (Instr.unknownKind 1 24).wf = false := by decide
theorem test_wf_jobOpen : (Instr.jobOpen 1 ⟨65536, 0, 0, 0, none, 0, 0⟩).wf = false := by decide
theorem test_wf_classSet : (Instr.classSet 1 ⟨0, 0, 256, 0, 0, 0, 0⟩).wf = false := by decide
theorem test_wf_tariffSet : (Instr.tariffSet 1 ⟨0, 0, 0, 0, 65536⟩).wf = false := by decide
theorem test_wf_userSet : (Instr.userSet 1 { userSet with balance := -(2 ^ 31) - 1 }).wf = false := by decide
theorem test_wf_bayConfig : (Instr.bayConfig 1 ⟨0, 0, 0, 256, 0, 0, 0, 0, 0⟩).wf = false := by decide
theorem test_wf_wipeRange : (Instr.wipeRange 1 ⟨2 ^ 32, 0, 0, 0⟩).wf = false := by decide

/-! ## Values from the rules -/

/-- Chapter 9, scene, step 6: the first three bytes of the wipe of $7_0000 are $0E, $00 and $03 in pass 1. -/
theorem test_prbs_pass1 : (prbsLine (prbsSeed 0x70000)).extractLsb' 0 24 = 0x03000E#24 := by decide +kernel

/-- R181: with AST1 = 0 and AST0 = 1 the anchor line is $0_0010_0000; with both high $F_FFFF_F000. -/
theorem test_anchor_lines : anchorLine 1 = 0x000100000#36 ∧ anchorLine 3 = 0xFFFFFF000#36 := by decide

/-- Section 7.1: the bytes of a STATUS_REQ from its kind on sum to 0. -/
theorem test_status_frame : mkFrame 0x01 [] = [0xA5, 0x01, 0x00, 0xFF] := by decide

/-- R96 with the factory table and tariff (R93, R95): without a RASTER entry or a declared class, base 20 and cap 100; with a
C entry of 5000 lines and 3584 dots, the colour price 30 as well. -/
theorem test_page_reserve :
    pageReserve factoryClasses factoryTariff none [] = 120
    ∧ pageReserve factoryClasses factoryTariff none [⟨1, ⟨448, 1, 5000⟩⟩] = 150 := by decide

/-- R91: a frame of 5001 lines is of class 1; one larger than every entry is of the largest class, oversize. -/
theorem test_class_of :
    classOf factoryClasses 5001 3600 = (1, false) ∧ classOf factoryClasses 14101 1 = (3, true) := by decide

/-- R192: a command slot of kind 8 with tag $1234 and slot byte 5 is JOB_QUERY of slot 5. -/
theorem test_command_slot : commandOfLine 0x0512340008#512 = .jobQuery 0x1234 5 := by decide +kernel

/-- The record of chapter 5's worked case: K and C at depth 2, stride 1280, 7040 lines. -/
def worked (irregular : Bool) (k c : PlaneStatus × Nat × Nat) : PageRecord :=
  let g : Geometry := ⟨1280, 2, 7040⟩
  ⟨1, 1, 0, #v[some ⟨g, k.1, k.2.1, k.2.2⟩, some ⟨g, c.1, c.2.1, c.2.2⟩, none, none], 0, irregular, false, false, 200, 9, 0, 17⟩

/-- Chapter 5's worked case and its variants: the charge is 110, 200 on an IRREGULAR page, 210 with class 2 declared, 410 with
class 5, and 40 for a K plane closed at half its chunks. -/
theorem test_charge :
    let full := fun i => worked i (.closed, 140800, 5406720) (.closed, 140800, 1081344)
    let charge := fun d r => (priceOf factoryClasses factoryTariff d r 0).charge
    charge none (full false) = 110 ∧ charge none (full true) = 200 ∧ charge (some 2) (full false) = 210
      ∧ charge (some 5) (full false) = 410
      ∧ charge none (worked false (.closed, 70400, 2703360) (.absent, 0, 0)) = 40 := by decide +kernel

/-- Chapter 5's worked case and its variants: the reserve is 200, 300 with class 2 declared and 500 with class 5. -/
theorem test_reserve :
    let es : List Raster := [⟨0, ⟨1280, 2, 7040⟩⟩, ⟨1, ⟨1280, 2, 7040⟩⟩]
    let reserve := fun d => pageReserve factoryClasses factoryTariff d es
    reserve none = 200 ∧ reserve (some 2) = 300 ∧ reserve (some 5) = 500 := by decide +kernel

/-- Chapter 8's worked case: one pass of the page adds 29 mg to what is pending and leaves 996,482,560 pg. -/
theorem test_accrual :
    let s := (State.reset.modBay 0 fun b => { b with state := .genuine }).modPlane 0 fun f =>
      { f with view := .genuine, viewLevel := 150000, level := .normal }
    ((s.accrue 0 5406720).plane 0).pending = 29 ∧ ((s.accrue 0 5406720).plane 0).pg = 996482560 := by decide +kernel

/-! ## States for the witnesses -/

/-- A running, anchored part: source 0 is PROC and source 3 MARK; the rings stand at $1000 and $2000. -/
def live : State :=
  { State.reset with
    path := { Path.por with
      roles := some #v[.proc, .scanIn, .image, .mark, .net, .store, .other, .other, .other, .other, .other, .other, .other,
        .other, .other, .other]
      cmdWindow := some ⟨0x40, 16⟩, repWindow := some ⟨0x80, 16⟩, missPolicy := some .openAll }
    rci := { Rci.por 0 with startup := .anchored, rings := some ⟨0x1000, 16, 0x2000, 16, 0, 0, 0, 0⟩ } }

/-- A read of `n` lines. -/
def rd (src : Fin 16) (a : Addr) (n : Nat) : Txn := ⟨7, src, a, .read n⟩

/-- A write of one line. -/
def wr (src : Fin 16) (a : Addr) (m : ByteMask) : Txn := ⟨8, src, a, .write [⟨5, m⟩]⟩

/-- A private IMAGE entry of job 1, pages $100 to $10F. -/
def image : RegionEntry := ⟨.image, true, some 1, 0x100, 16, 0xFFFF, 0xFFFF, 0x0020, .fill, none⟩

/-- A RASTER entry of job 1 for plane 1 on page $200: frames of 63 lines of 64 bytes, and so one whole frame. -/
def raster : RegionEntry := ⟨.raster, false, some 1, 0x200, 1, 0xFFFF, 0xFFFF, 0, .trap, some ⟨1, ⟨64, 1, 63⟩⟩⟩

/-- A RASTER entry whose frames are single lines. -/
def lines1 : RegionEntry := { raster with raster := some ⟨1, ⟨64, 1, 1⟩⟩ }

/-- A state with an entry in both tables. -/
def withEntry (s : State) (i : Fin 32) (e : RegionEntry) : State :=
  { s with rgt := { s.rgt with live := s.rgt.live.set i (some e), shadow := s.rgt.shadow.set i (some e) } }

/-- A state with job 1 in a state, held by no record and no wipe. -/
def withJob (s : State) (st : JobState) : State := s.modJob 1 fun q => { q with state := st, bound := 1 }

/-- A context without records. -/
def freshCtx : Context := ⟨Vector.replicate 4 ⟨none, none, 0, none⟩, []⟩

/-- Job 1 OPEN with an entry at index 4. -/
def open1 (e : RegionEntry) : State := withJob (withEntry live 4 e) .opened

/-- Job 1 marks, with a GENUINE cartridge in bay 1 and enough credit. -/
def marking1 (e : RegionEntry) : State :=
  let s := (open1 e).modBay 1 fun b => { b with state := .genuine }
  { s with
    jct := { s.jct with marking := some ⟨1, freshCtx⟩ }
    ace := { s.ace with users := s.ace.users.set 0 ⟨{ factoryUser with state := .active, overdraft := 1000 }, 0, 0, .clean⟩ } }

/-- A waiting wipe of pages $300 to $301. -/
def wipe300 (progress : Progress) : WipeEntry := ⟨1, 0x300, 2, 1, true, .explicit 9, progress, 0⟩

/-- The live part with a wipe at the head of its queue. -/
def wiping (progress : Progress) : State := { live with wpe := ⟨[wipe300 progress], 1⟩ }

/-! ## One step by hand -/

/-- The state after a command that answers next. -/
def after (c : Instr) (s : State) : State :=
  match exec c s with
  | .next t => t
  | _ => s

/-- R192: an absent colour is one byte $FF, and an idle line five of them. -/
theorem test_absent_bytes :
    (packBay Bay.por)[21]? = some 255 ∧ (packBay Bay.por).reverse.take 5 = [255, 255, 255, 255, 255] := by decide +kernel

/-- R107, R192, section 11.4: plane K of PAGE_ABORTED, not expected, is all ones; plane C reached 31 chunks and is CLOSED. -/
theorem test_aborted_absent_plane :
    ((packPageAborted ⟨1, 1, 0, #v[none, some ⟨⟨64, 1, 63⟩, .closed, 31, 9⟩, none, none], 0, false, false, false, 150, 1, 0, 0⟩).drop
      18).take 10 = [255, 255, 255, 255, 255, 31, 0, 0, 0, 2] := by decide +kernel

/-- R54, R58: the kind of a FREE slot is not consulted. -/
theorem test_free_kind :
    ((after (.markSelect 1 1) (live.modJob 1 fun q => { q with kind := .scan })).rci.queue.map Report.body)
      = [.result 9 .jobState .none] := by decide +kernel

/-- R184, R188: a waiting ACCOUNT_FAULT outlives LRST, and joins with the time at which it was handed. -/
theorem test_fault_waits :
    let s : State := { live with
      ms := 9, ace := { live.ace with faults := { FaultList.empty with tariff := true } }, rci := { live.rci with faultAt := some 7 } }
    (after (.lrst 0) s).rci.faultAt = some 7 ∧ ((after .accountFault s).rci.queue.map Report.time) = [7] := by decide +kernel

/-- R133: the end of the flush leaves no posting count. -/
theorem test_flush_clears :
    let a : Ace := { live.ace with depts := live.ace.depts.set 2 ⟨⟨none, 0⟩, 0, 3, .clean⟩ }
    (a.clearCounts.depts[2]).posting = 0 := by decide +kernel

/-! ## Witnesses: the queue, the laws, supply and reset -/

theorem witness_StepRunsFront :
    ({ live with pending := [.loadingEnd] } : State).pending = [.loadingEnd] ∧ live.pending = [] := ⟨rfl, rfl⟩

theorem witness_StepKeepsSettled : (open1 image).settledLaw ∧ ∃ t, step (open1 image) = .next t := by
  refine ⟨?_, _, rfl⟩
  unfold State.settledLaw Wpe.shapeLaw Regions.countLaw State.boundLaw
  decide +kernel

theorem witness_StepKeepsCredits : live.creditLaw ∧ ∃ t, step live = .next t := by
  refine ⟨?_, _, rfl⟩
  unfold State.creditLaw
  decide +kernel

/-- A read of job 1 and entry 4 is out on DN. -/
theorem witness_StepKeepsCredits_counts :
    let s := open1 image
    let r : State := { (s.modJob 1 fun q => { q with refs := 1 }) with
      path := { s.path with reads := s.path.reads.set 0 (some ⟨7, 0, 0x100000, 1, some 4, some 1, .plain, [.none], none⟩) }
      rgt := { s.rgt with inFlight := s.rgt.inFlight.set 4 1 } }
    r.referenceLaw ∧ ∃ t, step r = .next t := by
  refine ⟨?_, _, rfl⟩
  unfold State.referenceLaw
  decide +kernel

theorem witness_StepKeepsKeys : live.keyLaw ∧ ∃ t, step live = .next t := by
  refine ⟨?_, _, rfl⟩
  unfold State.keyLaw
  decide +kernel

/-- Job 1 has the key of the first draw. -/
theorem witness_StepKeepsKeys_drawn :
    let s : State := { live with keys := live.keys.set 1 (some (Config.randomKey 0)), draws := 1 }
    s.drawnLaw ∧ ∃ t, step s = .next t := by
  have one : ∀ (j : Fin 16) (k : Key), (live.keys.set 1 (some (Config.randomKey 0)))[j] = some k → j = 1 ∧ k = Config.randomKey 0 := by
    intro j k h
    fin_cases j <;> simp [live, State.reset] at h
    exact ⟨rfl, h.symm⟩
  refine ⟨⟨fun j k h => ⟨0, Nat.zero_lt_one, (one j k h).2⟩, fun i j hij k hi hj => ?_⟩, _, rfl⟩
  exact hij ((one i k hi).1.trans (one j k hj).1.symm)

theorem witness_StepKeepsBounds :
    ((marking1 raster).jct.stackLaw ∧ (marking1 raster).jct.queueLaw) ∧ (live.capacities ∧ live.path.captureLaw)
      ∧ (wiping (.pass 1 0 0 (prbsSeed 0x300))).wpe.patternLaw ∧ ∃ t, step live = .next t := by
  refine ⟨?_, ?_, ?_, _, rfl⟩
  · unfold Jobs.stackLaw Jobs.queueLaw; decide +kernel
  · unfold State.capacities Path.captureLaw; decide +kernel
  · simp [wiping, wipe300, Wpe.patternLaw, WipeEntry.patternLaw, prbsRun]

/-- No supply; a loss without a write in flight, and one with a write of each kind of record. -/
theorem witness_PowerOnRest :
    let w := fun c : AmemContent => ({ live with ace := { live.ace with writing := some c } } : State)
    ({ live with powered := false } : State).powered = false ∧ live.powered = true ∧ live.ace.writing = none
    ∧ ∀ c ∈ [AmemContent.service ⟨⟨0⟩, 0⟩, .tariff factoryTariff, .classes factoryClasses, .bays (Vector.replicate 4 factoryBay),
        .meters ⟨Vector.replicate 16 0, Vector.replicate 16 0⟩, .dept 2 ⟨none, 0⟩, .user 0 factoryUser],
      (w c).powered = true ∧ (w c).ace.writing = some c := by
  decide +kernel

/-- A FREE and a WIPING job and no wipe done; a job that is forced; no marked job, in each mode of standby. -/
theorem witness_LinkReset :
    let w := (wiping (.pass 1 0 0 1)).modJob 2 fun q => { q with state := .wiping, wipes := 1 }
    let forced := (withJob (withEntry w 4 image) (.held .secure)).modJob 1 fun q => { q with passes := 1 }
    let b : State := { live with rci := { live.rci with standby := .standby } }
    (w.powered = true ∧ (w.job 0).state = .free ∧ w.wpe.doneDue = false ∧ (w.job 2).state = .wiping)
    ∧ (forced.powered = true ∧ forced.wpe.doneDue = false ∧ (forced.job 1).state.live = true ∧ (forced.job 1).passes ≠ 0)
    ∧ (∀ j : Fin 16, (live.job j).state.live = true → (live.job j).marked = false) ∧ live.rci.standby = .running
    ∧ b.powered = true ∧ b.rci.standby = .standby := by
  decide +kernel

theorem witness_LoadingEndsAndWake :
    let b : State := { live with rci := { live.rci with standby := .standby } }
    (State.reset.powered = true ∧ State.reset.still = true ∧ State.reset.rci.startup = .loading
      ∧ State.reset.rci.rings = none)
    ∧ (b.powered = true ∧ b.nothingDue = true ∧ b.rci.faultWaiting = false ∧ b.rci.standby = .standby)
    ∧ (live.powered = true ∧ live.nothingDue = true ∧ live.rci.faultWaiting = false ∧ live.rci.standby = .running) := by
  decide +kernel

/-- Tables at the ends of their ranges, and tables that are bad by one field alone or by their check code (R129); an ACE on which
nothing waits. -/
theorem witness_LoadingEndsAndWake_tables :
    let tariff := fun t : Tariff => t.free ≤ 40000 ∧ t.surcharge ≤ 65535 ∧ t.cap ≤ 65535 ∧ 1 ≤ t.threshold ∧ t.threshold ≤ 10000
    let bay := fun c : BayConf => 1 ≤ c.attach ∧ c.attach ≤ 15 ∧ 1 ≤ c.detach ∧ c.detach ≤ 7 ∧ 1 ≤ c.dotMass ∧ c.dotMass ≤ 65535
      ∧ 1 ≤ c.quantum ∧ c.quantum ≤ 1000 ∧ c.lowMark ≤ 65535 ∧ c.grace ≤ 65535
    (tariff ⟨40000, 65535, 65535, 10000⟩ ∧ ¬ tariff ⟨40001, 65535, 65535, 10000⟩ ∧ ¬ tariff ⟨0, 0, 0, 0⟩)
    ∧ (bay ⟨.genuineOnly, 15, 7, 65535, 1000, 65535, 65535⟩ ∧ ¬ bay ⟨.genuineOnly, 16, 7, 1, 1, 0, 0⟩)
    ∧ ((5 ≤ 5 ∧ ¬ 6 ≤ 5) ∧ ∀ k : Fin 16, (Vector.replicate 16 max32)[k] ≤ max32)
    ∧ (State.reset.amem.service.agrees = true ∧ ¬ (⟨factoryTariff, false⟩ : Cell Tariff).agrees = true)
    ∧ live.ace.queue = [] ∧ live.ace.waiting = [] := by
  decide +kernel

/-- The fields of a valid class in their ranges (R91). -/
def classesInRange (t : ClassTable) : Prop :=
  ∀ i : Fin 8, (t[i]).valid = true → 1 ≤ (t[i]).maxLines ∧ (t[i]).maxLines ≤ 16384 ∧ 1 ≤ (t[i]).maxDots
    ∧ (t[i]).maxDots ≤ 65536 ∧ (t[i]).basePrice ≤ 65535 ∧ (t[i]).colourPrice ≤ 65535

/-- No valid class lies below one of a lower index (R91). -/
def classesRise (t : ClassTable) : Prop :=
  ∀ i j : Fin 8, i < j → (t[i]).valid = true → (t[j]).valid = true → (t[i]).maxLines ≤ (t[j]).maxLines
    ∧ (t[i]).maxDots ≤ (t[j]).maxDots ∧ (t[i]).basePrice ≤ (t[j]).basePrice ∧ (t[i]).colourPrice ≤ (t[j]).colourPrice

/-- A class table at the ends of its ranges; one out of range, one out of order, and one without a valid entry. -/
theorem witness_LoadingEndsAndWake_classes :
    (classesInRange (factoryClasses.set 7 ⟨true, 16384, 65536, 65535, 65535⟩)
      ∧ classesRise (factoryClasses.set 7 ⟨true, 16384, 65536, 65535, 65535⟩) ∧ ∃ i : Fin 8, (factoryClasses[i]).valid = true)
    ∧ ¬ classesInRange (factoryClasses.set 7 ⟨true, 16385, 65536, 65535, 65535⟩)
    ∧ ¬ classesRise (factoryClasses.set 0 ⟨true, 16384, 65536, 65535, 65535⟩)
    ∧ ¬ ∃ i : Fin 8, ((Vector.replicate 8 (⟨false, 1, 1, 0, 0⟩ : ClassEntry))[i]).valid = true := by
  unfold classesInRange classesRise
  refine ⟨⟨?_, ?_, ?_⟩, ?_, ?_, ?_⟩ <;> decide +kernel

/-- Accounts at the ends of their ranges, and accounts that are bad by one field alone. -/
theorem witness_LoadingEndsAndWake_accounts :
    let dept := fun d : DeptStored => (∀ x ∈ d.allowance, x ≤ 2 ^ 31 - 1) ∧ d.used ≤ max32
    let user := fun u : UserStored => u.failures ≤ 5 ∧ -(2 ^ 31 : Int) ≤ u.balance ∧ u.balance ≤ 2 ^ 31 - 1
      ∧ u.overdraft ≤ 1000000000 ∧ 1 ≤ u.maxJobs ∧ u.maxJobs ≤ 4 ∧ u.lifeMono ≤ max32 ∧ u.lifeColour ≤ max32 ∧ u.lifeCharge ≤ max32
    let top : UserStored := ⟨.locked, none, 5, some 15, 2 ^ 31 - 1, 1000000000, 4, max32, max32, max32⟩
    (dept ⟨some (2 ^ 31 - 1), max32⟩ ∧ dept ⟨none, 0⟩ ∧ ¬ dept ⟨some (2 ^ 31), 0⟩)
    ∧ (user top ∧ user { top with balance := -(2 ^ 31) } ∧ ¬ user { top with balance := 2 ^ 31 }
      ∧ ¬ user { top with maxJobs := 5 }) := by
  decide +kernel

/-! ## Witnesses: the order of checks -/

/-- The first page beyond, and the two pages of the wipe of `wiping`; the ill-formed transactions: off a line, of 9 lines,
and across a page; the windows at their first and last lines. -/
theorem witness_EarlyChecks :
    let closed : State := { live with path := { live.path with closed := true } }
    let un := { wiping .waiting with rci := { live.rci with startup := .awaitAnchor, rings := none } }
    (¬ ((4 : Addr).toNat % 64 = 0) ∧ ¬ ((rd 0 0 9).len ≤ 8) ∧ ¬ (0xFC0 / 4096 = (0xFC0 + 64 * 2 - 1) / 4096))
    ∧ ((rd 0 0xFC0 1).wellFormed = true ∧ (rd 0 0xE00 8).wellFormed = true)
    ∧ (closed.rci.startup = .anchored ∧ closed.path.closed = true)
    ∧ ((wiping .waiting).rci.startup = .anchored ∧ (wiping .waiting).path.closed = false
        ∧ (∃ e ∈ (wiping .waiting).wpe.queue, e.base ≤ 0x300 ∧ 0x300 < e.base + e.count)
        ∧ (∃ e ∈ (wiping .waiting).wpe.queue, e.base ≤ 0x301 ∧ 0x301 < e.base + e.count))
    ∧ (un.rci.startup ≠ .anchored ∧ (∃ e ∈ un.wpe.queue, e.base ≤ 0x301 ∧ 0x301 < e.base + e.count)
        ∧ ∀ e ∈ un.wpe.queue, ¬ (e.base ≤ 0x302 ∧ 0x302 < e.base + e.count))
    ∧ (live.rci.startup = .anchored ∧ live.path.closed = false ∧ live.path.roles.isSome = true
        ∧ live.path.cmdWindow = some ⟨0x40, 16⟩ ∧ live.path.repWindow = some ⟨0x80, 16⟩
        ∧ live.path.roles.map (fun r => r[0]) = some .proc ∧ live.path.roles.map (fun r => r[3]) ≠ some .proc
        ∧ ∀ t ∈ [rd 0 0x1000 8, rd 0 0x1400 1, rd 0 0x2000 8, rd 0 0x2400 1, wr 0 0x2400 fullMask, rd 0 0x1400 2],
            t.wellFormed = true ∧ live.wpe.shadows t.page = false) := by
  decide +kernel

/-- The premises of RegionChecks before its clauses. -/
def openPath (s : State) (t : Txn) : Bool :=
  s.rci.startup == .anchored && !s.path.closed && t.wellFormed && !s.wpe.shadows t.page && !s.path.isRingAccess t

/-- A commit that holds the image entry's pages; a miss under either policy, on the page after the entry; a denied and a
permitted source on its first and last page; a PLAIN entry; CLOSING, OPEN and HELD jobs; a partial and a whole write. -/
theorem witness_RegionChecks :
    let s := open1 image
    let strict : State := { s with path := { s.path with missPolicy := some .strict } }
    let held : State := { s with rgt := { s.rgt with commit := some ⟨[4], 1⟩ } }
    let noMask := open1 { image with readMask := 0xFFFE }
    let free := withEntry live 4 { image with cls := .plain, priv := false, job := none, rawMask := 0 }
    let t := rd 0 0x100000 1
    let u := rd 0 0x10FFC0 1
    (openPath held t = true ∧ held.rgt.commitHolds t.page = true)
    ∧ (openPath s (rd 0 0x110000 1) = true ∧ s.rgt.commitHolds 0x110 = false ∧ s.rgt.matched? 0x110 = none
        ∧ strict.path.missPolicy = some .strict ∧ s.path.missPolicy = some .openAll)
    ∧ (openPath s t = true ∧ openPath s u = true ∧ s.rgt.commitHolds t.page = false ∧ s.rgt.live[4] = some image
        ∧ image.base ≤ t.page ∧ t.page < image.base + image.count ∧ u.page < image.base + image.count
        ∧ ∀ k < (4 : Fin 32), ∀ o ∈ s.rgt.live[k], ¬ (o.base ≤ t.page ∧ t.page < o.base + o.count))
    ∧ (openPath noMask t = true ∧ (0xFFFE : BitVec 16).getLsbD 0 = false ∧ noMask.rgt.matched? t.page = some 4)
    ∧ (openPath free t = true ∧ free.rgt.matched? t.page = some 4)
    ∧ ((withJob s .closing).job 1).state = .closing ∧ (s.job 1).state = .opened
    ∧ ((withJob s (.held .quota)).job 1).state = .held .quota
    ∧ ((wr 0 0x100000 0x7).dir = .write ∧ image.priv = true ∧ ∃ l ∈ (wr 0 0x100000 0x7).writeLines, l.mask ≠ fullMask)
    ∧ (∀ l ∈ (wr 0 0x100000 fullMask).writeLines, l.mask = fullMask) := by
  decide +kernel

/-- The premises of MarkingGate before its clauses, for the RASTER entry at index 4. -/
def atGate (s : State) (t : Txn) (e : RegionEntry) : Bool :=
  openPath s t && !s.rgt.commitHolds t.page && s.rgt.matched? t.page == some 4 && s.rgt.live[4] == some e
    && e.job == some 1 && e.raster.isSome && t.dir == .read && e.readMask.getLsbD t.source.val
    && s.path.role? t.source == some .mark

/-- A HELD and a CLOSING job; a job that does not mark; a read of the line past the last whole frame, and one that spans
three frames; two frames; every state of the bay that may or may not mark; a grace allowance used up to its last chunk and
one short of it; the trial's three outcomes. -/
theorem witness_MarkingGate :
    let s := marking1 raster
    let t := rd 3 0x200000 8
    let unproven := s.modBay 1 fun b => { b with state := .unproven }
    let out := fun n => s.modPlane 1 fun f => { f with level := .out, overrun := n }
    let other : PageRecord := ⟨1, 1, 9, Vector.replicate 4 none, 1, false, false, false, 0, 1, 0, 0⟩
    let full : State := { s with jct := { s.jct with
      marking := some ⟨1, { freshCtx with queue := List.replicate 4 other }⟩ } }
    let poor : State := { s with ace := { s.ace with users := s.ace.users.set 0 ⟨factoryUser, 0, 0, .clean⟩ } }
    let run := fun u : State => u.runTrial (u.trialEnv raster ⟨1, ⟨64, 1, 63⟩⟩ 1)
    (atGate (withJob s (.held .secure)) t raster = true ∧ atGate (withJob s .closing) t raster = true)
    ∧ (atGate (open1 raster) t raster = true ∧ (open1 raster).jct.marking = none ∧ ((open1 raster).job 1).state = .opened)
    ∧ (atGate s (rd 3 0x200FC0 1) raster = true ∧ (s.job 1).state = .opened ∧ s.jct.marking = some ⟨1, freshCtx⟩
        ∧ 1 * 4096 / (64 * 63) ≤ (0x200FC0 - 0x200 * 4096) / (64 * 63))
    ∧ (atGate (marking1 lines1) (rd 3 0x200000 3) lines1 = true ∧ atGate (marking1 lines1) (rd 3 0x200000 2) lines1 = true)
    ∧ (atGate s t raster = true ∧ atGate s (rd 3 0x200F80 1) raster = true
        ∧ (0x200F80 - 0x200 * 4096) / (64 * 63) < 1 * 4096 / (64 * 63))
    ∧ ((s.bay 1).state = .genuine ∧ (unproven.bay 1).state = .unproven ∧ (unproven.conf 1).policy = .genuineOnly
        ∧ atGate unproven t raster = true)
    ∧ (((out 2000).plane 1).level = .out ∧ ((out 2000).conf 1).grace ≤ ((out 2000).plane 1).overrun
        ∧ ¬ ((out 1999).conf 1).grace ≤ ((out 1999).plane 1).overrun ∧ atGate (out 2000) t raster = true)
    ∧ ((run s freshCtx t.lineAddrs).isOk = true ∧ (run poor freshCtx t.lineAddrs matches .error .quota) = true
        ∧ full.jct.marking.any (fun m => run full m.ctx t.lineAddrs matches .error .held) = true) := by
  decide +kernel

/-! ## Witnesses: taking a transaction -/

/-- A state with a transaction at the port. -/
def ported (s : State) (t : Txn) : State := { s with path := s.path.setPort t.dir [t] }

/-- A state whose Hold Queue holds a transaction. -/
def holding (s : State) (t : Txn) (released : Bool) : State :=
  { s with path := { s.path with hold := [⟨t, .commit, released⟩] } }

/-- A slot of the Read Tracker for one line. -/
def readSlot (j : Option (Fin 16)) (v : View) : ReadSlot := ⟨7, 0, 0x100000, 1, j.map fun _ => 4, j, v, [.none], none⟩

/-- A slot of the Write Tracker for one line. -/
def writeSlot (index : Bool) (a : Addr) (l : WriteLine) : WriteSlot := ⟨8, 0, a, [l], none, none, .none, index⟩

theorem witness_PortWaits :
    let full : State := { live with path := { live.path with hold := List.replicate 8 ⟨rd 0 0 1, .commit, false⟩ } }
    let reads : State := { live with path := { live.path with reads := Vector.replicate 32 (some (readSlot none .none)) } }
    let writes : State := { live with path := { live.path with
      writes := Vector.replicate 32 (some (writeSlot false 0 ⟨0, 0⟩)) } }
    live.powered = true
    ∧ ((holding live (rd 0 0 1) true).resting = true ∧ ∃ h ∈ (holding live (rd 0 0 1) true).path.hold, h.released = true)
    ∧ (full.resting = true ∧ 8 ≤ full.path.hold.length)
    ∧ (reads.resting = true ∧ ∀ i : Fin 32, reads.path.reads[i] ≠ none)
    ∧ (writes.resting = true ∧ ∀ i : Fin 32, writes.path.writes[i] ≠ none) := by
  decide +kernel

theorem witness_TakeDenied :
    let s := ported live (rd 0 4 1)
    s.resting = true ∧ s.rci.hasEntry false = true ∧ s.path.port .read = [rd 0 4 1] ∧ s.path.mayTake .read = true
      ∧ s.examine (rd 0 4 1) = .deny ⟨.malformed, .error, .malformed⟩ := by
  decide +kernel

/-- A read of a private entry with view PLAIN; a write that misses, with view NONE; a write with view RAW by source 5; a write
with view PLAIN. -/
theorem witness_TakeAccepted :
    let keyed : State := { open1 image with keys := live.keys.set 1 (some ⟨5⟩) }
    let r := ported keyed (rd 0 0x100000 1)
    let w := fun (src : Fin 16) (a : Addr) => ported keyed (wr src a fullMask)
    (r.resting = true ∧ r.path.portReads = [rd 0 0x100000 1] ∧ r.path.mayTake .read = true
      ∧ r.examine (rd 0 0x100000 1) = .accept ⟨some 4, some 1, .plain, false, none⟩ ∧ freeSlot? r.path.reads = some 0)
    ∧ ((w 0 0x110000).resting = true ∧ (w 0 0x110000).path.mayTake .write = true
      ∧ (w 0 0x110000).examine (wr 0 0x110000 fullMask) = .accept ⟨none, none, .none, false, none⟩
      ∧ freeSlot? (w 0 0x110000).path.writes = some 0)
    ∧ ((w 5 0x100000).resting = true ∧ (w 5 0x100000).path.mayTake .write = true
      ∧ (w 5 0x100000).examine (wr 5 0x100000 fullMask) = .accept ⟨some 4, some 1, .raw, false, none⟩)
    ∧ ((w 0 0x100000).resting = true ∧ (w 0 0x100000).path.mayTake .write = true
      ∧ (w 0 0x100000).examine (wr 0 0x100000 fullMask) = .accept ⟨some 4, some 1, .plain, false, none⟩
      ∧ (w 0 0x100000).keys[1] = some ⟨5⟩) := by
  decide +kernel

/-- A read that a commit holds; a metered read that finds four records, with one to force-close and with none. -/
theorem witness_TakeHeld :
    let s := open1 image
    let c := ported { s with rgt := { s.rgt with
      inFlight := s.rgt.inFlight.set 4 1, commit := some ⟨[4], 1⟩ } } (rd 0 0x100000 1)
    let rec' : PageRecord := ⟨1, 1, 9, #v[some ⟨⟨64, 1, 63⟩, .closed, 1, 0⟩, none, none, none], 1, false, false, false, 0, 1, 0, 0⟩
    let full := fun r : PageRecord => ported { marking1 raster with jct := { (marking1 raster).jct with
      marking := some ⟨1, { freshCtx with queue := [r, rec', rec', rec'] }⟩ } } (rd 3 0x200000 8)
    let opened := { rec' with planes := #v[some ⟨⟨64, 1, 63⟩, .opened, 1, 0⟩, none, none, none] }
    (c.resting = true ∧ c.path.port .read = [rd 0 0x100000 1] ∧ c.path.mayTake .read = true
      ∧ c.examine (rd 0 0x100000 1) = .holdCommit)
    ∧ ∀ r ∈ [rec', opened], (full r).resting = true ∧ (full r).path.mayTake .read = true
        ∧ (full r).examine (rd 3 0x200000 8) = .holdAssembly 1 ∧ (full r).jct.marking.isSome = true
        ∧ (rec'.isClosed && !opened.isClosed && !rec'.isDue && !((freshCtx.forceClose 1).queue.any PageRecord.isDue)) = true := by
  decide +kernel

theorem witness_TakeMetered :
    let s := ported (marking1 raster) (rd 3 0x200000 8)
    let poor : State := { s with
      path := { s.path with capture := some ⟨0, .read, 0, .miss, .noRegion⟩, captureCount := 1 }
      ace := { s.ace with users := s.ace.users.set 0 ⟨factoryUser, 0, 0, .clean⟩ } }
    (poor.resting = true ∧ poor.rci.hasEntry false = true ∧ poor.path.portReads = [rd 3 0x200000 8]
      ∧ poor.path.mayTake .read = true ∧ poor.examine (rd 3 0x200000 8) = .quota 4 1 ∧ poor.path.capture.isSome = true)
    ∧ (s.resting = true ∧ s.path.portReads = [rd 3 0x200000 8] ∧ s.path.mayTake .read = true
      ∧ freeSlot? s.path.reads = some 0 ∧ s.jct.marking = some ⟨1, freshCtx⟩
      ∧ (match s.examine (rd 3 0x200000 8) with
        | .accept ⟨some 4, some 1, .none, false, some (tr, _, _, _)⟩ =>
          tr.settled = [] ∧ tr.ctx.queue.all (fun r => !r.isDue) = true
        | _ => False)) := by
  refine ⟨by decide +kernel, by decide +kernel, by decide +kernel, by decide +kernel, by decide +kernel, by decide +kernel, ?_⟩
  exact ⟨by rfl, by decide +kernel⟩

/-- A released transaction with a full tracker; one denied; one held again; one accepted. -/
theorem witness_ReleasedTaken :
    let h := fun s => holding s (rd 0 0x100000 1) true
    let s := open1 image
    let no := h (open1 { image with readMask := 0 })
    let full : State := { h s with path := { (h s).path with reads := Vector.replicate 32 (some (readSlot none .none)) } }
    let held := h { s with rgt := { s.rgt with inFlight := s.rgt.inFlight.set 4 1, commit := some ⟨[4], 1⟩ } }
    (full.resting = true ∧ full.path.hold = [] ++ ⟨rd 0 0x100000 1, .commit, true⟩ :: [] ∧ full.path.trackerFree .read = false)
    ∧ (no.resting = true ∧ no.path.trackerFree .read = true ∧ no.rci.hasEntry false = true
      ∧ no.examineFrom2 (rd 0 0x100000 1) = .deny ⟨.notPermitted, .fill, .entry 4⟩)
    ∧ (held.resting = true ∧ held.path.trackerFree .read = true ∧ held.examineFrom2 (rd 0 0x100000 1) = .holdCommit)
    ∧ ((h s).resting = true ∧ (h s).path.trackerFree .read = true ∧ freeSlot? (h s).path.reads = some 0
      ∧ (h s).examineFrom2 (rd 0 0x100000 1) = .accept ⟨some 4, some 1, .plain, false, none⟩) := by
  decide +kernel

/-- A released write with each view; a released metered read that is accepted, one that waits again for ASSEMBLY, with a record to
force-close and without, and one refused QUOTA. -/
theorem witness_ReleasedTaken_more :
    let keyed : State := { open1 image with keys := live.keys.set 1 (some ⟨5⟩) }
    let w := fun (src : Fin 16) (a : Addr) => holding keyed (wr src a fullMask) true
    let t := rd 3 0x200000 8
    let s := holding (marking1 raster) t true
    let poor : State := { s with
      path := { s.path with capture := some ⟨0, .read, 0, .miss, .noRegion⟩, captureCount := 1 }
      ace := { s.ace with users := s.ace.users.set 0 ⟨factoryUser, 0, 0, .clean⟩ } }
    let rec' : PageRecord := ⟨1, 1, 9, #v[some ⟨⟨64, 1, 63⟩, .closed, 1, 0⟩, none, none, none], 1, false, false, false, 0, 1, 0, 0⟩
    let opened := { rec' with planes := #v[some ⟨⟨64, 1, 63⟩, .opened, 1, 0⟩, none, none, none] }
    let full := fun r : PageRecord => ({ s with jct := { s.jct with
      marking := some ⟨1, { freshCtx with queue := [r, rec', rec', rec'] }⟩ } } : State)
    ((w 0 0x110000).resting = true ∧ (w 0 0x110000).examineFrom2 (wr 0 0x110000 fullMask) = .accept ⟨none, none, .none, false, none⟩
      ∧ freeSlot? (w 0 0x110000).path.writes = some 0)
    ∧ ((w 5 0x100000).resting = true
      ∧ (w 5 0x100000).examineFrom2 (wr 5 0x100000 fullMask) = .accept ⟨some 4, some 1, .raw, false, none⟩)
    ∧ ((w 0 0x100000).resting = true
      ∧ (w 0 0x100000).examineFrom2 (wr 0 0x100000 fullMask) = .accept ⟨some 4, some 1, .plain, false, none⟩
      ∧ (w 0 0x100000).keys[1] = some ⟨5⟩)
    ∧ (∀ r ∈ [rec', opened], (full r).resting = true ∧ (full r).path.trackerFree .read = true
        ∧ (full r).examineFrom2 t = .holdAssembly 1 ∧ (full r).jct.marking.isSome = true)
    ∧ (poor.resting = true ∧ poor.rci.hasEntry false = true ∧ poor.examineFrom2 t = .quota 4 1 ∧ poor.path.capture.isSome = true)
    ∧ (s.resting = true ∧ s.path.hold = [] ++ ⟨t, .commit, true⟩ :: [] ∧ freeSlot? s.path.reads = some 0
      ∧ s.jct.marking = some ⟨1, freshCtx⟩
      ∧ (match s.examineFrom2 t with
        | .accept ⟨some 4, some 1, .none, false, some (tr, _, _, _)⟩ =>
          tr.settled = [] ∧ tr.ctx.queue.all (fun r => !r.isDue) = true
        | _ => False)) := by
  refine ⟨by decide +kernel, by decide +kernel, by decide +kernel, by decide +kernel, by decide +kernel, by decide +kernel, rfl,
    by decide +kernel, by decide +kernel, ?_⟩
  exact ⟨by rfl, by decide +kernel⟩

/-! ## Witnesses: the downstream port -/

/-- No credit; nothing waiting; a lone forwarded head; a forwarded head at the run's last place; an internal head at a full
run, and a lone one. -/
theorem witness_DownstreamGrant :
    let d := fun (f : List FwdRef) (i : List (Fin 8)) (run credits : Nat) =>
      ({ live with down := { live.down with forwarded := f, internalList := i, run := run, credits := credits } } : State)
    ((d [] [] 0 0).resting = true ∧ (d [] [] 0 0).down.credits = 0)
    ∧ (live.resting = true ∧ live.down.forwarded = [] ∧ live.down.internalList = [])
    ∧ ((d [.read 0] [] 2 1).resting = true ∧ 0 < (d [.read 0] [] 2 1).down.credits)
    ∧ ((d [.read 0] [3] 2 1).resting = true ∧ (d [.read 0] [3] 2 1).down.run < 3)
    ∧ ((d [.read 0] [3] 3 1).resting = true ∧ 3 ≤ (d [.read 0] [3] 3 1).down.run)
    ∧ ((d [] [3] 0 1).resting = true ∧ (d [] [3] 0 1).down.forwarded = []) := by
  decide +kernel

/-- An internal transaction in slot 0. -/
def internal (s : State) (x : Purpose) (len : Nat) (out : Bool) : State :=
  { s with down := { s.down with
    internal := s.down.internal.set 0 (some ⟨x, 0x300000, len, false⟩)
    internalList := if out then [] else [0]
    credits := if out then 47 else 48 } }

theorem witness_IssuedOnDn :
    let p := { live.path with
      reads := live.path.reads.set 0 (some (readSlot none .none)), writes := live.path.writes.set 0 (some (writeSlot false 0 ⟨5, 1⟩)) }
    p.reads[(0 : Fin 32)] = some (readSlot none .none) ∧ p.writes[(0 : Fin 32)] = some (writeSlot false 0 ⟨5, 1⟩)
    ∧ ∀ x ∈ [Purpose.fetch false, .verifyRead 1 1, .reportSlot 0 5 true, .indexWrite 1 2, .wipeWrite 1 1 false,
        .wipeWrite 2 1 false, .wipeWrite 3 1 false],
      (internal live x 8 false).down.internal[(0 : Fin 8)] = some ⟨x, 0x300000, 8, false⟩ := by
  decide +kernel

/-- A state with a read out on DN. -/
def reading (s : State) (r : ReadSlot) : State :=
  { s with path := { s.path with reads := s.path.reads.set 0 (some r) }, down := { s.down with credits := 47 } }

/-- A state with a write out on DN. -/
def writing (s : State) (w : WriteSlot) : State :=
  { s with path := { s.path with writes := s.path.writes.set 0 (some w) }, down := { s.down with credits := 47 } }

/-- The state of `reading` with the slot freed. -/
def readDone (s : State) (r : ReadSlot) : State :=
  ({ reading s r with path := { (reading s r).path with reads := (reading s r).path.reads.set 0 none } } : State).uncounted
    r.entry r.job

/-- The state of `writing` with the slot freed. -/
def writeDone (s : State) (w : WriteSlot) : State :=
  ({ writing s w with path := { (writing s w).path with writes := (writing s w).path.writes.set 0 none } } : State).uncounted
    w.entry w.job

/-- A read without a cipher and one with it, each of one line, both for an OKAY of one line and for an ERROR of none. -/
theorem witness_ReadReturns :
    let keyed : State := { open1 image with keys := live.keys.set 1 (some ⟨5⟩) }
    let r := readSlot none .none
    let q := readSlot (some 1) .plain
    ((reading live r).powered = true ∧ (reading live r).path.reads[(0 : Fin 32)] = some r
      ∧ .read 0 ∉ (reading live r).down.forwarded ∧ r.meter = none ∧ (∀ m ∈ r.marks, m = .none) ∧ [onesLine].length = r.len
      ∧ r.view ≠ .plain ∧ (readDone live r).still = true)
    ∧ ((reading keyed q).path.reads[(0 : Fin 32)] = some q ∧ q.view = .plain ∧ q.job = some 1
      ∧ (reading keyed q).keys[1] = some ⟨5⟩ ∧ (readDone keyed q).still = true) := by
  decide +kernel

/-- An orphan read and an orphan write; a write answered ERROR, and one answered OKAY that is no index line write. -/
theorem witness_WriteAnswered :
    let o := fun d : Dir => ({ live with down := { live.down with credits := 47, orphans := [⟨d, 0, 1⟩] } } : State)
    let w := writeSlot false 0x5000 ⟨5, 1⟩
    (∀ d : Dir, (o d).powered = true ∧ (o d).down.orphans[0]? = some ⟨d, 0, 1⟩
      ∧ ({ (o d) with down := { (o d).down with orphans := [], credits := 48 } } : State).still = true)
    ∧ ((writing live w).powered = true ∧ (writing live w).path.writes[(0 : Fin 32)] = some w
      ∧ .write 0 ∉ (writing live w).down.forwarded ∧ w.indexLine = false ∧ (writing live w).rci.rings.isSome = true
      ∧ (writeDone live w).still = true) := by
  refine ⟨fun d => ?_, ?_⟩
  · cases d <;> decide +kernel
  · decide +kernel

/-- The premises of IndexLineTaken for a written line, with the tail and head that result. -/
def atIndexLine (l : WriteLine) (tail head : BitVec 16) : Bool :=
  let w := writeSlot true 0x1000 l
  let s := writing live w
  s.powered && s.rci.hasEntry false && s.path.writes[(0 : Fin 32)] == some w && s.down.forwarded.isEmpty && w.indexLine
    && s.path.cmdWindow == some ⟨0x40, 16⟩ && w.addr.toNat / 64 ≤ 0x40 && w.lines[0x40 - w.addr.toNat / 64]? == some l
    && s.rci.startup == .anchored && s.rci.rings == some ⟨0x1000, 16, 0x2000, 16, 0, 0, 0, 0⟩
    && ({ writeDone live w with rci := { live.rci with
          rings := some ⟨0x1000, 16, 0x2000, 16, 0, tail, head, 0⟩ } } : State).still

/-- An index line write that offers tail 16 and head 0, both good at the end of their ranges; one whose tail 17 and head 1 are
refused; one that enables one byte of the tail alone. -/
theorem witness_IndexLineTaken :
    atIndexLine ⟨0x00000010, 0xF⟩ 16 0 = true ∧ atIndexLine ⟨0x00010011, 0xF⟩ 0 0 = true
      ∧ atIndexLine ⟨0x00000010, 0x1⟩ 0 0 = true := by
  decide +kernel

/-- The anchor line that gives the rings and roles of `live` (section 11.1), with its check word. -/
def anchorData : Line :=
  lineOfBytes (leBytes 4 0x73406E4B ++ leBytes 4 1 ++ leBytes 8 0x6666666666543210 ++ leBytes 8 0x1000 ++ leBytes 2 16
    ++ leBytes 2 16 ++ leBytes 8 0x2000 ++ List.replicate 24 0 ++ leBytes 4 0xBFF4C92E)

/-- R182 and section 11.1: the line is good, and it gives the roles in source order. -/
theorem test_anchor : anchor? anchorData (anchorLine 0) = some ⟨#v[.proc, .scanIn, .image, .mark, .net, .store, .other,
    .other, .other, .other, .other, .other, .other, .other, .other, .other], 0x1000, 16, 0x2000, 16, .openAll, .any⟩ := by
  decide +kernel

/-- R182: a line whose words do not sum to 0 is no anchor. -/
theorem test_anchor_sum : anchor? (anchorData ^^^ 1) (anchorLine 0) = none := by decide +kernel

theorem witness_AnchorTaken :
    let s : State := { live with rci := { live.rci with startup := .awaitAnchor, rings := none } }
    let w := writeSlot false 0xF000 ⟨anchorData, fullMask⟩
    (writing s w).powered = true ∧ (writing s w).path.writes[(0 : Fin 32)] = some w
    ∧ .write 0 ∉ (writing s w).down.forwarded ∧ w.indexLine = false ∧ (writing s w).rci.rings = none
    ∧ (writing s w).rci.startup = .awaitAnchor ∧ (writing s w).ace.faults.nonempty = false
    ∧ w.addr.toNat / 64 ≤ (anchorLine 0).toNat / 64
    ∧ w.lines[(anchorLine 0).toNat / 64 - w.addr.toNat / 64]? = some ⟨anchorData, fullMask⟩
    ∧ (writeDone s w).still = true ∧ anchor? 0 (anchorLine 0) = none := by
  decide +kernel

/-- A fault list that is not empty at the anchor; a good line during LOADING; and the end of LOADING with an anchor held, with the
records good and with the tariff torn. -/
theorem witness_AnchorTaken_more :
    let w := writeSlot false 0xF000 ⟨anchorData, fullMask⟩
    let wait : State := { live with
      ace := { live.ace with faults := { FaultList.empty with tariff := true } }
      rci := { live.rci with startup := .awaitAnchor, rings := none } }
    let load : State := { live with rci := { live.rci with startup := .loading, rings := none } }
    let held : State := { State.reset with rci := { State.reset.rci with rings := live.rci.rings } }
    let torn : State := { held with amem := { held.amem with tariff := { held.amem.tariff with agrees := false } } }
    ((writing wait w).powered = true ∧ (writing wait w).rci.startup = .awaitAnchor ∧ (writing wait w).rci.rings = none
      ∧ (writing wait w).ace.faults.nonempty = true ∧ (writing wait w).rci.hasEntry false = true ∧ (writeDone wait w).still = true)
    ∧ ((writing load w).rci.startup = .loading ∧ (writing load w).rci.rings = none ∧ (writeDone load w).still = true)
    ∧ (held.powered = true ∧ held.still = true ∧ held.rci.startup = .loading ∧ held.rci.rings.isSome = true
      ∧ (((held.ace.load held.amem).triggerAll allRecords)).faults.nonempty = false)
    ∧ (torn.powered = true ∧ torn.still = true ∧ torn.rci.hasEntry false = true
      ∧ (((torn.ace.load torn.amem).triggerAll allRecords)).faults.nonempty = true) := by
  decide +kernel

/-! ## Witnesses: regions -/

/-- A commit of entry 4, one of whose jobs is lost. -/
theorem witness_CommitCompletes :
    let s : State := { open1 image with rgt := { (open1 image).rgt with commit := some ⟨[4], 1⟩ } }
    s.powered = true ∧ s.rgt.commit = some ⟨[4], 1⟩ ∧ (∀ i ∈ [(4 : Fin 32)], s.rgt.inFlight[i] = 0)
      ∧ s.rci.hasEntry false = true ∧ (s.beginEvent.completeCommit).still = true := by
  decide +kernel

/-- A read and a write, each the last line in flight of a changed entry of the pending commit, with the commit that follows. -/
theorem witness_CommitCompletes_inFlight :
    let s : State := { (open1 image).modJob 1 fun q => { q with refs := 1 } with
      keys := live.keys.set 1 (some ⟨5⟩)
      rgt := { (open1 image).rgt with commit := some ⟨[4], 1⟩, inFlight := (open1 image).rgt.inFlight.set 4 1 } }
    let r := readSlot (some 1) .plain
    let w : WriteSlot := { writeSlot false 0x100000 ⟨5, fullMask⟩ with entry := some 4, job := some 1 }
    ((reading s r).powered = true ∧ (reading s r).path.reads[(0 : Fin 32)] = some r ∧ .read 0 ∉ (reading s r).down.forwarded
      ∧ r.meter = none ∧ (∀ m ∈ r.marks, m = .none) ∧ r.job = some 1 ∧ (reading s r).keys[1] = some ⟨5⟩
      ∧ (readDone s r).jct.metered = true ∧ (readDone s r).rgt.commitDue = true)
    ∧ ((writing s w).powered = true ∧ (writing s w).path.writes[(0 : Fin 32)] = some w ∧ .write 0 ∉ (writing s w).down.forwarded
      ∧ w.indexLine = false ∧ (writing s w).rci.rings.isSome = true ∧ (writeDone s w).jct.metered = true
      ∧ (writeDone s w).rgt.commitDue = true)
    ∧ (∃ t, exec .commitCompletion (readDone s r) = .next t) ∧ ∃ t, exec .commitCompletion (writeDone s w) = .next t :=
  ⟨by decide +kernel, by decide +kernel, ⟨_, rfl⟩, ⟨_, rfl⟩⟩

/-- The premises that the clauses of REGION_SET share. -/
def regionPremises (s : State) (p : RegionSetParams) (e : RegionEntry) : Bool :=
  s.ready && s.rgt.commit.isNone && p.index == 4 && regionEntry? p == some e
    && e.job.all fun j => (s.job j).state.bindable && !(e.raster.isSome && (s.job j).kind == .scan)

/-- A good entry at its smallest; a commit without a change, and one with an entry in flight; every refusal, each reached with
the checks before it passed. -/
theorem witness_RegionCommands :
    let p : RegionSetParams := { region with base := 0x100, count := 16, readMask := 0xFFFF, behaviour := 1, rawMask := 0x20 }
    let q : RegionSetParams := { region with
      cls := 2, priv := 0, base := 0x200, count := 1, behaviour := 2, plane := some 1, depth := some 1, stride := some 64
      frameLines := some 63 }
    let s := withJob live .opened
    let other := withEntry s 5 raster
    let pending : State := { s with rgt := { s.rgt with inFlight := s.rgt.inFlight.set 4 1, commit := some ⟨[4], 1⟩ } }
    let moved : State := { s with rgt := { s.rgt with
      shadow := s.rgt.shadow.set 4 (some image), inFlight := s.rgt.inFlight.set 4 1 } }
    let wiped := withJob (wiping (.pass 1 0 0 (prbsSeed 0x300))) .opened
    (regionPremises s p image = true ∧ s.rgt.dupPlane 4 image = false ∧ s.rgt.overlapRefused 4 image = false
      ∧ s.wpe.overlaps 0x100 16 = false ∧ s.path.ringTouches 0x100 16 = false)
    ∧ (live.ready = true ∧ live.rgt.commit = none ∧ ∀ i : Fin 32, live.rgt.shadow[i] = live.rgt.live[i])
    ∧ (moved.ready = true ∧ moved.rgt.shadow[(4 : Fin 32)] ≠ moved.rgt.live[(4 : Fin 32)] ∧ moved.rgt.inFlight[(4 : Fin 32)] ≠ 0)
    ∧ (pending.ready = true ∧ pending.rgt.commit.isSome = true)
    ∧ (32 ≤ 32 ∧ regionEntry? { p with count := 0 } = none)
    ∧ (live.ready = true ∧ regionEntry? p = some image ∧ (live.job 1).state.bindable = false)
    ∧ (regionPremises s { q with frameLines := some 65 } { raster with raster := some ⟨1, ⟨64, 1, 65⟩⟩ } = true
      ∧ ¬ 64 * 65 ≤ 1 * 4096)
    ∧ (regionPremises other q raster = true ∧ 64 * 63 ≤ 1 * 4096 ∧ other.rgt.dupPlane 4 raster = true)
    ∧ (regionPremises other { p with base := 0x200, count := 1 } { image with base := 0x200, count := 1 } = true
      ∧ other.rgt.dupPlane 4 { image with base := 0x200, count := 1 } = false
      ∧ other.rgt.overlapRefused 4 { image with base := 0x200, count := 1 } = true)
    ∧ (regionPremises wiped { p with base := 0x301, count := 1 } { image with base := 0x301, count := 1 } = true
      ∧ wiped.rgt.overlapRefused 4 { image with base := 0x301, count := 1 } = false
      ∧ wiped.wpe.overlaps 0x301 1 = true) := by
  decide +kernel

/-- Entry 4 is changed, no commit is pending, and no entry has a line in flight. -/
def changedAndIdle (s : State) : Bool :=
  s.ready && s.rgt.commit.isNone && s.rgt.shadow[(4 : Fin 32)] != s.rgt.live[(4 : Fin 32)]
    && (List.finRange 32).all fun i => s.rgt.inFlight[i] == 0

/-- A RASTER entry of a SCAN job; a job-bound entry over the command window, and one that ends before it; and a commit whose changed
entries have no line in flight, one of whose jobs is lost. -/
theorem witness_RegionCommands_more :
    let p : RegionSetParams := { region with base := 1, count := 1, readMask := 0xFFFF, behaviour := 1, rawMask := 0x20 }
    let q : RegionSetParams := { region with
      cls := 2, priv := 0, base := 0x200, count := 1, behaviour := 2, plane := some 1, depth := some 1, stride := some 64
      frameLines := some 63 }
    let s := withJob live .opened
    let scan := s.modJob 1 fun q => { q with kind := .scan }
    let moved := fun s : State => ({ s with rgt := { s.rgt with shadow := s.rgt.shadow.set 4 (some image) } } : State)
    (scan.ready = true ∧ scan.rgt.commit = none ∧ regionEntry? q = some raster ∧ (scan.job 1).state.bindable = true
      ∧ raster.raster.isSome = true ∧ (scan.job 1).kind = .scan)
    ∧ (regionPremises s p { image with base := 1, count := 1 } = true
      ∧ s.rgt.overlapRefused 4 { image with base := 1, count := 1 } = false ∧ s.wpe.overlaps 1 1 = false
      ∧ s.path.ringTouches 1 1 = true ∧ s.path.ringTouches 0 1 = false)
    ∧ changedAndIdle (moved s) = true ∧ changedAndIdle (moved live) = true := by
  decide +kernel

/-! ## Witnesses: metering and charging -/

/-- A record of job 1 with one expected plane, 63 chunks to the frame. -/
def record (status : PlaneStatus) (lines chunks : Nat) : PageRecord :=
  ⟨1, 1, 0, #v[none, some ⟨⟨64, 1, 63⟩, status, chunks, 9⟩, none, none], lines, false, false, false, 150, 1, 0, 0⟩

/-- Job 1 marks with one record in its queue, which has reserved 150 of its user. -/
def marked (r : PageRecord) : State :=
  let s := marking1 raster
  { s with
    jct := { s.jct with marking := some ⟨1, { freshCtx with queue := [r] }⟩ }
    ace := s.ace.modReserved 0 (· + 150) }

theorem witness_StepKeepsBounds_marking :
    let s : State := { marked (record .opened 1 1) with rmu := ⟨1, 1⟩ }
    s.markingLaw ∧ s.namesLaw ∧ ∃ t, step s = .next t := by
  refine ⟨?_, ?_, _, rfl⟩
  · unfold State.markingLaw State.commandLaw Jobs.stackLaw; decide +kernel
  · unfold State.namesLaw; decide +kernel

/-- A marking job with one open record, which has reserved 2000 of a user whose overdraft limit is 3000. -/
def reserving : State :=
  let s := marked { record .opened 1 1 with reserve := 2000 }
  { s with
    ace := { live.ace with users := live.ace.users.set 0 ⟨{ factoryUser with state := .active, overdraft := 3000 }, 2000, 0, .clean⟩ }
    rmu := ⟨1, 1⟩ }

/-- No price of the factory tables is above 2000. -/
theorem reserving_price (x : PageRecord) : (reserving.price x).charge ≤ 2000 := by
  have base : ∀ c : Fin 8, (classEntry factoryClasses c).basePrice ≤ 1000 ∧ (classEntry factoryClasses c).colourPrice ≤ 500 := by
    decide +kernel
  have cap : ∀ n, surchargeOf factoryTariff n ≤ 500 := fun n => Nat.le_trans (Nat.min_le_left _ _) (by decide)
  have h : ∀ d b, (priceOf factoryClasses factoryTariff d x b).charge ≤ 2000 := by
    intro d b
    have := base (raisedClass factoryClasses d (classOf factoryClasses x.pageLines x.pageWidth).1)
    have := cap x.covsum
    simp only [priceOf]
    split <;> omega
  exact h _ _

theorem witness_StepKeepsReserves :
    reserving.reserveLaw ∧ reserving.ace.limitLaw ∧ reserving.chargesCovered ∧ reserving.rci.startup ≠ .loading
      ∧ ∃ t, step reserving = .next t := by
  refine ⟨?_, ?_, ⟨by decide +kernel, fun r hr x _ _ => ?_⟩, by decide +kernel, _, rfl⟩
  · unfold State.reserveLaw State.markingLaw State.commandLaw Jobs.stackLaw; decide +kernel
  · have none_set : ∀ d : Fin 16, (reserving.ace.depts[d]).stored.allowance = none := by decide +kernel
    exact ⟨by decide +kernel, fun d limit h => by rw [none_set d] at h; cases h⟩
  · have same : ∀ r ∈ reserving.jct.records, r.reserve = 2000 := by decide +kernel
    rw [same r hr]; exact reserving_price x

/-- LRST with one open record, which the chunks it reached have charged or aborted (R108); and with none. -/
theorem witness_LinkReset_records :
    let c := record .opened 2 63
    let a := record .opened 2 3
    (marked c).powered = true ∧ (marked c).jct.records = [c] ∧ c.isCharged = true
    ∧ (marked a).powered = true ∧ (marked a).jct.records = [a] ∧ a.isCharged = false ∧ live.jct.records = [] := by
  decide +kernel

/-- A tracker tied to record 1 before its last chunk, past it, and complete; an untied one whose frame calls for a pass. -/
theorem witness_LineClassified :
    let g : Geometry := ⟨64, 1, 63⟩
    let t := fun hw : Nat => (⟨some 0, some g, hw, some 1⟩ : Tracker)
    let tr : Trial := ⟨{ freshCtx with queue := [record .opened 1 63] }, ⟨1, 1⟩, 0, [], []⟩
    ((t 62).tied = some 1 ∧ (t 62).isComplete = false ∧ (t 62).hw ≤ 62)
    ∧ ((t 62).tied = some 1 ∧ 61 < (t 62).hw) ∧ ((t 63).tied = some 1 ∧ (t 63).isComplete = true)
    ∧ (let env := (marked (record .opened 1 63)).trialEnv raster ⟨1, g⟩ 1
      env.place 0x200000 = (0, 0) ∧ env.place 0x200FBF = (0, 62))
    ∧ (let r := record .notSeen 0 0
      ((freshCtx.trackers)[1]).tied = none ∧ [record .opened 1 63, r] = [record .opened 1 63] ++ r :: []
      ∧ (∀ x ∈ [record .opened 1 63], ¬ (x.frame = 0 ∧ ∃ q ∈ x.planes[1], q.status = .notSeen ∧ q.geom = g))
      ∧ r.frame = 0 ∧ ∃ q ∈ r.planes[1], q.status = .notSeen ∧ q.geom = g)
    ∧ ((tr.ctx.trackers[1]).tied = none ∧ (∀ r ∈ tr.ctx.queue, r.opened ≤ tr.rmu.opened)
      ∧ (∀ r ∈ tr.ctx.queue, ¬ (r.frame = 0 ∧ ∃ q ∈ r.planes[1], q.status = .notSeen ∧ q.geom = g))
      ∧ tr.ctx.queue.length < 4) := by
  decide +kernel

theorem witness_MeteredReadReturns :
    let r : ReadSlot := ⟨7, 3, 0x200000, 1, some 4, some 1, .none, [.first 1 1], some (1, 1)⟩
    let s := reading (marked (record .opened 1 63)) r
    let sums := (r.marks.zip [onesLine]).map fun m => if m.1 = .none then 0 else dotSum 1 m.2
    let u := ({ s.beginEvent with path := { s.path with reads := s.path.reads.set 0 none } } : State).uncounted r.entry r.job
    s.powered = true ∧ s.path.reads[(0 : Fin 32)] = some r ∧ .read 0 ∉ s.down.forwarded ∧ r.meter = some (1, 1)
    ∧ r.job = some 1 ∧ [onesLine].length = r.len ∧ r.view ≠ .plain
    ∧ (((u.settleMarks r.marks sums).addDots 1 1 sums.sum).accrue 1 sums.sum).still = true := by
  decide +kernel

/-- A metered read of a private entry, whose view is PLAIN; and one answered ERROR. -/
theorem witness_MeteredReadReturns_plainAndError :
    let r : ReadSlot := ⟨7, 3, 0x200000, 1, some 4, some 1, .plain, [.first 1 1], some (1, 1)⟩
    let s : State := { reading (marked (record .opened 1 63)) r with keys := live.keys.set 1 (some ⟨5⟩) }
    let up : List Line := [onesLine].mapIdx fun n y => (Config.lineCipher ⟨5⟩ (r.addr + BitVec.ofNat 36 (64 * n))).symm y
    let sums := (r.marks.zip up).map fun m => if m.1 = .none then 0 else dotSum 1 m.2
    let u := ({ s.beginEvent with path := { s.path with reads := s.path.reads.set 0 none } } : State).uncounted r.entry r.job
    (s.powered = true ∧ s.path.reads[(0 : Fin 32)] = some r ∧ .read 0 ∉ s.down.forwarded ∧ s.keys[1] = some ⟨5⟩
      ∧ (((u.settleMarks r.marks sums).addDots 1 1 sums.sum).accrue 1 sums.sum).still = true)
    ∧ (u.settleMarks r.marks (List.replicate r.marks.length 0)).still = true := by
  decide +kernel

/-- The premises of RecordsSettle for a lone record. -/
def atSettle (r : PageRecord) : Bool :=
  (marked r).powered && (marked r).beginEvent.settleDue.still && (marked r).jct.due == [r]

/-- A record charged at 32 of 63 chunks, and one aborted at 31 (R84). -/
theorem witness_RecordsSettle :
    (atSettle (record .closed 0 32) = true ∧ (record .closed 0 32).isCharged = true)
    ∧ (atSettle (record .closed 0 31) = true ∧ (record .closed 0 31).isCharged = false) := by
  decide +kernel

theorem witness_ChargeWithinReserve :
    ClassTable.sound factoryClasses = true
    ∧ ∀ (p : Fin 4) (q : PlaneRec), (record .closed 0 63).planes[p] = some q →
      (∃ e ∈ [(⟨1, ⟨64, 1, 63⟩⟩ : Raster)], e.plane = p ∧ e.geom = q.geom) ∧ q.chunks ≤ q.geom.chunksPerFrame
        ∧ 64 ≤ q.geom.stride := by
  refine ⟨by decide +kernel, fun p q h => ?_⟩
  have : p = 1 ∧ q = ⟨⟨64, 1, 63⟩, .closed, 63, 9⟩ := by
    fin_cases p <;> simp [record] at h
    exact ⟨rfl, h.symm⟩
  obtain ⟨rfl, rfl⟩ := this
  decide +kernel

/-- The largest frame of a list of RASTER entries, the least valid class, and the lines and the width of a record. -/
theorem witness_ChargeWithinReserve_values :
    let es : List Raster := [⟨0, ⟨1280, 2, 7040⟩⟩, ⟨1, ⟨64, 1, 63⟩⟩]
    let r := worked false (.closed, 140800, 5406720) (.closed, 70401, 1081344)
    let reached := fun q : PlaneRec => (q.chunks + q.geom.stride / 64 - 1) / (q.geom.stride / 64)
    let all := fun f : PlaneRec → Bool => (List.finRange 4).all fun i => ((r.planes[i]).map f).getD true
    ((∃ k : Fin 8, (factoryClasses[k]).valid = true) ∧ (factoryClasses[(0 : Fin 8)]).valid = true)
    ∧ ((∃ e ∈ es, e.geom.frameLines = 7040) ∧ (∀ e ∈ es, e.geom.frameLines ≤ 7040)
      ∧ (∃ e ∈ es, e.geom.stride * 8 / e.geom.depth = 5120) ∧ ∀ e ∈ es, e.geom.stride * 8 / e.geom.depth ≤ 5120)
    ∧ ((r.planes[0]).map reached = some 7040 ∧ all (fun q => reached q ≤ 7040) = true
      ∧ (r.planes[0]).map (fun q => q.geom.stride * 8 / q.geom.depth) = some 5120
      ∧ all (fun q => q.geom.stride * 8 / q.geom.depth ≤ 5120) = true)
    ∧ ((∀ k : Fin 8, (factoryClasses[k]).basePrice ≤ 65535 ∧ (factoryClasses[k]).colourPrice ≤ 65535)
      ∧ factoryTariff.cap ≤ 65535) := by
  decide +kernel

/-- Accounts at the edge of the user's overdraft limit and of a department's allowance, before and after the reserve of 150. -/
theorem witness_ChargePosted :
    let a : Ace := { live.ace with
      users := live.ace.users.set 0 ⟨{ factoryUser with department := some 2, overdraft := 150 }, 0, 0, .clean⟩
      depts := live.ace.depts.set 2 ⟨⟨some 150, 0⟩, 0, 0, .clean⟩ }
    let b := a.modReserved 0 (· + 150)
    let good := fun a : Ace =>
      (∀ u : Fin 256, -((a.users[u]).stored.overdraft : Int) ≤ (a.users[u]).stored.balance - (a.users[u]).reserved)
      ∧ ∀ d : Fin 16, ∀ limit ∈ (a.depts[d]).stored.allowance, (a.depts[d]).stored.used + (a.depts[d]).reserved ≤ limit
    (good a ∧ a.reservePasses 0 0 150 = true ∧ a.reservePasses 0 1 150 = false)
    ∧ (good b ∧ (record .closed 0 63).reserve ≤ (b.users[0]).reserved ∧ (b.users[0]).stored.department = some 2
      ∧ (record .closed 0 63).reserve ≤ (b.depts[2]).reserved
      ∧ (live.price (record .closed 0 63)).charge ≤ (record .closed 0 63).reserve
      ∧ (live.price (record .closed 0 63)).chargeClass < 8 ∧ (record .closed 0 63).isCharged = true) := by
  decide +kernel

/-! ## Witnesses: jobs and commands -/

/-- A CLOSING job without wipes, and one with a range to wipe. -/
theorem witness_JobLeavesClosing :
    ∀ n ∈ [0, 3],
      let s := (withJob (withEntry live 4 image) .closing).modJob 1 fun q => { q with passes := n }
      s.powered = true ∧ (s.job 1).state = .closing ∧ (s.job 1).refs = 0 ∧ s.jct.isMarking 1 = false
      ∧ s.jct.isStacked 1 = false ∧ (s.job 1).own = none
      ∧ ((s.job 1).passes = 0 ∨ min (s.job 1).bound 32 ≤ 32 - s.wpe.queue.length)
      ∧ (s.beginEvent.leaveClosing 1).startWipe.still = true := by
  decide +kernel

/-- A part whose user 0 has this record. -/
def withUser (s : State) (u : UserStored) : State :=
  { s with ace := { s.ace with users := s.ace.users.set 0 ⟨u, 0, 0, .clean⟩ } }

/-- The record of an ACTIVE user with the PIN of eight zeros. -/
def user0 : UserStored := { factoryUser with state := .active, digest := some (Config.userDigest 0 0) }

/-- A held PRINT job and an OPEN one, with slot 0 free and with slot 15 alone free; each refusal: a bad parameter, the three
states, the fourth and the fifth wrong PIN, a user at its limit, no free slot. -/
theorem witness_JobOpens :
    let p := fun hold : Nat => (⟨0, 0, 2, hold, none, 3, 1⟩ : JobOpenParams)
    let k := fun hold : Bool => (⟨0, .print, hold, none, 3, true⟩ : JobOpenOk)
    let s := withUser live user0
    let busy := (List.finRange 15).foldl (fun s j => s.modJob (j.castLE (by decide)) fun q =>
      { q with state := .opened, user := 9 }) s
    let full := busy.modJob 15 fun q => { q with state := .wiping, user := 0 }
    let st := fun x : UserState => withUser live { user0 with state := x }
    (jobOpenOk? (p 0) = some (k false) ∧ jobOpenOk? (p 1) = some (k true) ∧ jobOpenOk? { p 0 with passes := 4 } = none)
    ∧ (s.ready = true ∧ (s.ace.users[0]).stored.state = .active
      ∧ (s.ace.users[0]).stored.digest = some (Config.userDigest 0 (p 0).pin)
      ∧ (s.jct.slots.toList.filter fun q => q.state != .free && q.user == 0).length < (s.ace.users[0]).stored.maxJobs
      ∧ (s.job 0).state = .free)
    ∧ (busy.ready = true ∧ (busy.job 15).state = .free ∧ ∀ i < (15 : Fin 16), (busy.job i).state ≠ .free)
    ∧ (((st .unused).ace.users[0]).stored.state = .unused ∧ (st .unused).ready = true
      ∧ ((st .locked).ace.users[0]).stored.state = .locked ∧ ((st .suspect).ace.users[0]).stored.state = .suspect)
    ∧ (full.ready = true ∧ (full.ace.users[0]).stored.maxJobs ≤ full.jct.countOf 0)
    ∧ (full.jct.countOf 1 < 2 ∧ ∀ j : Fin 16, (full.job j).state ≠ .free) := by
  refine ⟨⟨rfl, rfl, rfl⟩, ⟨by decide +kernel, by decide +kernel, rfl, by decide +kernel, by decide +kernel⟩,
    by decide +kernel, by decide +kernel, by decide +kernel, by decide +kernel⟩

/-- Without hold and with a good PIN: a user that has its one job, and a part without a free slot. -/
theorem witness_JobOpens_noHold :
    let p : JobOpenParams := ⟨0, 0, 2, 0, none, 3, 1⟩
    let k : JobOpenOk := ⟨0, .print, false, none, 3, true⟩
    let busy := withUser (withJob live .opened) user0
    let full := withUser ({ live with jct := { live.jct with
      slots := live.jct.slots.map fun q => { q with state := .opened, user := 9 } } } : State) user0
    jobOpenOk? p = some k ∧ k.hold = false ∧ pinDigits p.pin = true
    ∧ (∀ s ∈ [busy, full], s.ready = true ∧ (s.ace.users[0]).stored.state = .active ∧ (s.ace.users[0]).stored.failures = 0)
    ∧ (user0.digest = some (Config.userDigest k.user p.pin) ∧ (busy.ace.users[0]).stored = user0 ∧ (full.ace.users[0]).stored = user0)
    ∧ (busy.ace.users[0]).stored.maxJobs ≤ busy.jct.countOf 0
    ∧ (full.jct.countOf 0 < (full.ace.users[0]).stored.maxJobs ∧ ∀ j : Fin 16, (full.job j).state ≠ .free) := by
  refine ⟨rfl, rfl, by decide +kernel, by decide +kernel, ⟨rfl, rfl, rfl⟩, by decide +kernel, by decide +kernel⟩

/-- A digest that is not that of a PIN. -/
def otherDigest (d : Digest) : Digest := ⟨d.value + 1⟩

/-- A digest differs from another one. -/
theorem ne_otherDigest (d : Digest) : d ≠ otherDigest d := by
  intro h
  have := congrArg Digest.value h
  simp [otherDigest] at this

/-- A wrong PIN below the lock and at it (R45, R47). -/
theorem witness_JobOpens_badPin (n : Fin 5) :
    let s := withUser live { user0 with digest := some (otherDigest (Config.userDigest 0 0)), failures := n }
    (s.ace.users[0]).stored.digest ≠ some (Config.userDigest 0 0) ∧ (s.ace.users[0]).stored.failures ≤ 4 := by
  constructor
  · simp only [withUser, user0, live, Vector.getElem_set_self, ne_eq, Option.some.injEq]
    exact fun h => ne_otherDigest _ h.symm
  · have := n.isLt
    simp [withUser]; omega

/-- A HELD job for each reason, its PIN good and its reserve passing; jobs with a transaction outstanding, one of them
marking. -/
theorem witness_JobReleaseAndClose :
    let s := fun why => withUser (withJob live (.held why)) { user0 with overdraft := 120 }
    let o := (withJob live .opened).modJob 1 fun q => { q with refs := 1 }
    let m : State := { o with jct := { o.jct with marking := some ⟨1, freshCtx⟩ } }
    (∀ why ∈ [HoldReason.secure, .quota], (s why).ready = true ∧ ((s why).job 1).state = .held why
      ∧ pinDigits 0 = true ∧ ((s why).ace.users[0]).stored.state ≠ .locked
      ∧ (s why).ace.reservePasses 0 0 ((s why).reserveOf 1) = true)
    ∧ (((s .quota).ace.users[0]).stored.digest = some (Config.userDigest 0 0))
    ∧ (o.ready = true ∧ (o.job 1).state.bindable = true ∧ 0 < (o.job 1).refs ∧ o.jct.isMarking 1 = false)
    ∧ (m.ready = true ∧ 0 < (m.job 1).refs ∧ m.jct.marking = some ⟨1, freshCtx⟩ ∧ freshCtx.queue = []) := by
  refine ⟨by decide +kernel, rfl, by decide +kernel, by decide +kernel⟩

/-- An idle job at JOB_CLOSE: without wipes, with a range to wipe and room for it, and marking without a record. -/
theorem witness_JobReleaseAndClose_idle :
    let o := fun n : Nat => (withJob (withEntry live 4 image) .opened).modJob 1 fun q => { q with passes := n }
    let m : State := { o 3 with jct := { (o 3).jct with marking := some ⟨1, freshCtx⟩ } }
    ∀ s ∈ [o 0, o 3, m], s.ready = true ∧ (s.job 1).state.bindable = true ∧ (s.job 1).refs = 0
      ∧ (∀ m ∈ s.jct.marking, m.job = 1 → m.ctx.queue = []) ∧ s.jct.isStacked 1 = false ∧ (s.job 1).own = none
      ∧ ((s.job 1).passes = 0 ∨ min (s.job 1).bound 32 ≤ 32 - s.wpe.queue.length) := by
  decide +kernel

/-- A marking job with a record in flight. -/
theorem witness_JobReleaseAndClose_records :
    let s := marked (record .opened 1 1)
    let m : Marked := ⟨1, { freshCtx with queue := [record .opened 1 1] }⟩
    s.ready = true ∧ s.jct.marking = some m ∧ (s.job 1).state.bindable = true ∧ m.ctx.queue ≠ []
      ∧ ∀ r ∈ m.ctx.queue, 0 < r.lines := by
  decide +kernel

/-- The refusals of JOB_RELEASE and JOB_CLOSE: a slot of 16, a byte that is no digit, a FREE job, a LOCKED user, and a reserve
that does not pass. -/
theorem witness_JobReleaseAndClose_refused :
    let s := fun u => withUser (withJob live (.held .quota)) u
    (live.ready = true ∧ 15 < 16 ∧ pinDigits 0x0A = false ∧ (live.job 1).state.bindable = false
      ∧ ∀ why ∈ [HoldReason.secure, .quota], (live.job 1).state ≠ .held why)
    ∧ ((s { user0 with state := .locked }).ready = true ∧ ((s { user0 with state := .locked }).ace.users[0]).stored.state = .locked)
    ∧ ((s user0).ready = true ∧ ((s user0).job 1).state = .held .quota ∧ ((s user0).ace.users[0]).stored.state ≠ .locked
      ∧ (s user0).ace.reservePasses 0 0 ((s user0).reserveOf 1) = false) := by
  decide +kernel

/-- A wrong PIN at JOB_RELEASE, below the lock and at it (R47). -/
theorem witness_JobReleaseAndClose_badPin (n : Fin 5) :
    let s := withUser (withJob live (.held .secure)) { user0 with digest := some (otherDigest (Config.userDigest 0 0)), failures := n }
    s.ready = true ∧ (s.ace.users[0]).stored.digest ≠ some (Config.userDigest 0 0) ∧ (s.ace.users[0]).stored.failures ≤ 4 := by
  refine ⟨by fin_cases n <;> decide +kernel, ?_, ?_⟩
  · simp only [withUser, user0, withJob, State.modJob, live, Vector.getElem_set_self, ne_eq, Option.some.injEq]
    exact fun h => ne_otherDigest _ h.symm
  · have := n.isLt
    simp [withUser]; omega

/-- A job that may mark, on an empty register, in place of a marking job without records, and over one with the stack at
3; a stacked job that may resume; an empty stack; a marking job with a record. -/
theorem witness_MarkCommands :
    let s := withJob live .opened
    let m := fun (q : List PageRecord) (stack : List Marked) =>
      ({ s with jct := { s.jct with marking := some ⟨2, { freshCtx with queue := q }⟩, stack := stack } } : State)
    let two := fun s : State => s.modJob 2 fun q => { q with state := .opened }
    let top : Marked := ⟨1, freshCtx⟩
    let three : List Marked := [⟨3, freshCtx⟩, ⟨4, freshCtx⟩, ⟨5, freshCtx⟩]
    (s.ready = true ∧ (s.job 1).kind ≠ .scan ∧ (s.job 1).state = .opened ∧ s.jct.isStacked 1 = false ∧ s.jct.marking = none)
    ∧ ((two (m [] [])).ready = true ∧ ∀ x ∈ (two (m [] [])).jct.marking, x.ctx.queue = [])
    ∧ ((two (m [] three)).ready = true ∧ (two (m [] three)).jct.stack.length < 4 ∧ (two (m [] three)).jct.isStacked 1 = false
      ∧ (two (m [] three)).jct.marking = some ⟨2, freshCtx⟩)
    ∧ ((two (m [] [top])).ready = true ∧ (two (m [] [top])).jct.stack = top :: []
      ∧ ((two (m [] [top])).job 1).closePending = false)
    ∧ (s.jct.stack = [])
    ∧ ((two (m [record .opened 1 1] [top])).ready = true
      ∧ (two (m [record .opened 1 1] [top])).jct.stack ≠ []
      ∧ ∀ x ∈ (two (m [record .opened 1 1] [top])).jct.marking, x.ctx.queue ≠ []) := by
  decide +kernel

/-- The refusals: a slot of 16, a SCAN job, a FREE slot whose last job was one, a stacked job, a marking one, a full stack; and a
top with close pending, with and without a record. -/
theorem witness_MarkCommands_refused :
    let s := withJob live .opened
    let scan := s.modJob 1 fun q => { q with kind := .scan }
    let free := live.modJob 1 fun q => { q with kind := .scan }
    let two := s.modJob 2 fun q => { q with state := .opened }
    let m := fun stack : List Marked => ({ two with jct := { two.jct with marking := some ⟨2, freshCtx⟩, stack := stack } } : State)
    let four : List Marked := [⟨3, freshCtx⟩, ⟨4, freshCtx⟩, ⟨5, freshCtx⟩, ⟨6, freshCtx⟩]
    (live.ready = true ∧ 15 < 16) ∧ (scan.ready = true ∧ (scan.job 1).kind = .scan ∧ (scan.job 1).state ≠ .free)
    ∧ (free.ready = true ∧ (free.job 1).kind = .scan ∧ (free.job 1).state = .free)
    ∧ ((m [⟨1, freshCtx⟩]).ready = true ∧ ((m [⟨1, freshCtx⟩]).job 1).kind ≠ .scan ∧ (m [⟨1, freshCtx⟩]).jct.isStacked 1 = true)
    ∧ ((m []).ready = true ∧ (m []).jct.isMarking 2 = true)
    ∧ ((m four).ready = true ∧ (m four).jct.marking = some ⟨2, freshCtx⟩ ∧ 4 ≤ (m four).jct.stack.length
      ∧ ((m four).job 1).state = .opened ∧ (m four).jct.isStacked 1 = false)
    ∧ ∀ q ∈ [[], [record .opened 1 1]],
        let top : Marked := ⟨1, { freshCtx with queue := q }⟩
        let c := (two.modJob 1 fun q => { q with state := .closing, closePending := true, refs := 1 })
        let c : State := { c with jct := { c.jct with stack := [top, ⟨2, freshCtx⟩] } }
        c.resting = true ∧ c.commandReady = true ∧ c.rci.held = false ∧ c.jct.stack = top :: [⟨2, freshCtx⟩]
          ∧ c.jct.marking = none ∧ (c.job 1).closePending = true ∧ 0 < (c.job 1).refs ∧ (∀ r ∈ top.ctx.queue, 0 < r.lines)
          ∧ (c.job 2).closePending = false := by
  decide +kernel

/-- A marking job; a job stacked below another; a job with an own context, and one without; the bounds of the numbers. -/
theorem witness_JobAndBayQueried :
    let s := withJob live .opened
    let m : State := { s with jct := { s.jct with marking := some ⟨1, freshCtx⟩ } }
    let st : State := { s with jct := { s.jct with stack := [⟨2, freshCtx⟩, ⟨1, freshCtx⟩] } }
    let own := s.modJob 1 fun q => { q with own := some { freshCtx with queue := [record .opened 1 1] } }
    (live.ready = true ∧ 15 < 16 ∧ 3 < 4)
    ∧ (m.ready = true ∧ m.jct.isMarking 1 = true)
    ∧ (st.ready = true ∧ st.jct.isMarking 1 = false ∧ st.jct.stack[1]? = some ⟨1, freshCtx⟩
      ∧ ∀ i < 1, ∀ x ∈ st.jct.stack[i]?, x.job ≠ 1)
    ∧ (own.ready = true ∧ own.jct.isMarking 1 = false ∧ ∀ x ∈ own.jct.stack, x.job ≠ 1) := by
  decide +kernel

theorem witness_CaptureClearedAndUnknownKind :
    live.ready = true ∧ ((0 : BitVec 16) = 0 ∧ 24 < (25 : BitVec 16).toNat)
      ∧ (1 ≤ (1 : BitVec 16).toNat ∧ (24 : BitVec 16).toNat ≤ 24) := by
  decide +kernel

/-- A part whose service PIN is eight zeros. -/
def admin : State := { live with ace := { live.ace with service := ⟨Config.serviceDigest 0, 0⟩ } }

/-- The credential check passes for the PIN of `admin`. -/
theorem admin_passes : admin.passes 0 = true := by
  simp only [State.passes, admin, decide_true, Bool.and_true]
  rfl

/-- A lockout; a wrong PIN below the lockout and at it. -/
theorem witness_CredentialRefused (n : Fin 5) :
    let out : State := { live with ace := { live.ace with lockout := some 0 } }
    let s : State := { live with ace := { live.ace with service := ⟨otherDigest (Config.serviceDigest 0), n⟩ } }
    adminPin? (.meterQuery 1 0) = some (1, 0) ∧ out.ready = true ∧ out.ace.lockout = some 0
    ∧ s.ready = true ∧ s.ace.lockout = none ∧ Config.serviceDigest 0 ≠ s.ace.service.digest
    ∧ s.ace.service.failures ≤ 4 :=
  ⟨rfl, by decide +kernel, rfl, by fin_cases n <;> decide +kernel, rfl, ne_otherDigest _, Nat.lt_succ_iff.mp n.isLt⟩

/-- A lockout at its last millisecond, and one whose 60,000 ms are over. -/
theorem witness_CredentialRefused_ends :
    let out := fun ms : BitVec 32 => ({ live with ms := ms, ace := { live.ace with lockout := some 0 } } : State)
    ((out 60000).ready = true ∧ ((out 60000).ms - 0).toNat ≤ 60000)
    ∧ ((out 60001).ready = true ∧ (out 60001).ace.lockout = some 0 ∧ 60000 < ((out 60001).ms - 0).toNat) := by
  decide +kernel

/-- The tables at the bounds of their ranges, and a job that marks. -/
theorem witness_TableCommands :
    let c : ClassSetParams := ⟨0, 7, 1, 16384, 65536, 65535, 65535⟩
    let e : ClassEntry := ⟨true, 16384, 65536, 65535, 65535⟩
    let b : BayConfigParams := ⟨0, 3, 1, 15, 7, 65535, 1000, 65535, 65535⟩
    let m : State := { withJob admin .opened with jct := { (withJob admin .opened).jct with marking := some ⟨1, freshCtx⟩ } }
    (admin.ready = true ∧ classEntry? c = some e ∧ ClassTable.sound (admin.ace.classes.set 7 e) = true
      ∧ admin.jct.frozen = false)
    ∧ (40000 ≤ 40000 ∧ 1 ≤ 10000 ∧ pinDigits 0x0909090909090909 = true ∧ (bayConf? b).isSome = true)
    ∧ (m.ready = true ∧ m.jct.frozen = true ∧ (tariffOf ⟨0, 40000, 65535, 65535, 10000⟩).inRange = true) := by
  decide +kernel

/-- The refusals: fields one beyond their ranges, an index and a bay beyond the last, a class that would break the order of the table
and one whose loss would empty it, and a table frozen by a stacked job and by an own context. -/
theorem witness_TableCommands_refused :
    let e : ClassEntry := ⟨true, 16384, 65536, 65535, 65535⟩
    let off : ClassEntry := ⟨false, 0, 0, 0, 0⟩
    let one : ClassTable := (Vector.replicate 8 off).set 0 e
    let st : State := { admin with jct := { admin.jct with stack := [⟨2, freshCtx⟩] } }
    let own := admin.modJob 1 fun q => { q with own := some { freshCtx with queue := [record .opened 1 1] } }
    (classEntry? ⟨0, 0, 1, 16385, 65536, 65535, 65535⟩ = none ∧ classEntry? ⟨0, 0, 2, 1, 1, 0, 0⟩ = none ∧ 7 < 8)
    ∧ (ClassTable.sound (admin.ace.classes.set 0 e) = false ∧ ClassTable.sound (one.set 0 off) = false)
    ∧ (st.ready = true ∧ st.jct.frozen = true ∧ own.ready = true ∧ own.jct.frozen = true
      ∧ ClassTable.sound (admin.ace.classes.set 7 e) = true)
    ∧ ((tariffOf ⟨0, 40001, 0, 0, 1⟩).inRange = false ∧ (tariffOf ⟨0, 0, 0, 0, 0⟩).inRange = false)
    ∧ (pinDigits 0x0A = false ∧ bayConf? ⟨0, 3, 2, 1, 1, 1, 1, 0, 0⟩ = none ∧ 3 < 4) := by
  decide +kernel

/-- A record at its limit; an adjustment that ends at the limit, one below it by 1, and one that is clamped. -/
theorem witness_UserCommands :
    let s : State := withUser admin { user0 with overdraft := 5 }
    let p : UserSetParams := { userSet with user := 0, pin := 0 }
    s.ready = true ∧ s.passes 0 = true
    ∧ userRecord? p = some (0, ⟨.active, some (Config.userDigest 0 0), 0, some 2, -5, 5, 2, 0, 0, 0⟩)
    ∧ ((s.ace.users[0]).reserved = 0 ∧ (s.jct.slots.toList.filter fun q => q.state != .free && q.user == 0).length = 0)
    ∧ ((s.ace.users[0]).stored.state = .active ∧ -((s.ace.users[0]).stored.overdraft : Int) ≤ 0 + (-5) - 0
      ∧ 0 + (-6) - 0 < -((s.ace.users[0]).stored.overdraft : Int))
    ∧ 255 < 256 := by
  refine ⟨by decide +kernel, ?_, rfl, by decide +kernel, by decide +kernel, by decide⟩
  simp only [State.passes, withUser, admin, decide_true, Bool.and_true]
  rfl

/-- The refusals: a user with a reserve, one with a job, a balance below the limit, a field out of range, an UNUSED and a SUSPECT
user, amounts beyond 32 bits, and a user of 256. -/
theorem witness_UserCommands_refused :
    let s := fun (u : UserStored) (n : Nat) =>
      ({ admin with ace := { admin.ace with users := admin.ace.users.set 0 ⟨u, n, 0, .clean⟩ } } : State)
    let p : UserSetParams := { userSet with user := 0, pin := 0, balance := -6 }
    let job := withJob (s user0 0) .opened
    (∀ x ∈ [s user0 5, s { user0 with state := .unused } 0, s { user0 with state := .suspect } 0, job],
        x.ready = true ∧ x.ace.lockout = none ∧ x.ace.service = ⟨Config.serviceDigest 0, 0⟩)
    ∧ 0 < ((s user0 5).ace.users[0]).reserved
    ∧ 0 < (job.jct.slots.toList.filter fun q => q.state != .free && q.user == 0).length
    ∧ (userRecord? p = some (0, ⟨.active, some (Config.userDigest 0 0), 0, some 2, -6, 5, 2, 0, 0, 0⟩)
      ∧ (-6 : Int) < -((5 : Nat) : Int))
    ∧ userRecord? { p with maxJobs := 5 } = none ∧ 255 < 256
    ∧ (2 ^ 31 - 1 : Int) < 2 ^ 31 ∧ (-(2 ^ 31) - 1 : Int) < -(2 ^ 31) := by
  refine ⟨?_, by decide +kernel, by decide +kernel, ⟨rfl, by decide⟩, rfl, by decide, by decide, by decide⟩
  intro x hx
  simp only [List.mem_cons, List.not_mem_nil, or_false] at hx
  rcases hx with rfl | rfl | rfl | rfl <;> exact ⟨by decide +kernel, rfl, rfl⟩

/-- An allowance at what is in use, and one below it; a department and an allowance one beyond their ranges. -/
theorem witness_DepartmentCommands :
    let s : State := { admin with ace := { admin.ace with
      depts := admin.ace.depts.set 2 ⟨⟨none, 40⟩, 10, 0, .clean⟩ } }
    s.ready = true ∧ s.passes 0 = true ∧ (s.ace.depts[2]).stored.used + (s.ace.depts[2]).reserved ≤ 50
      ∧ 49 < (s.ace.depts[2]).stored.used + (s.ace.depts[2]).reserved ∧ 15 < 16 ∧ ∃ x, some (2 ^ 31) = some x ∧ 2 ^ 31 - 1 < x := by
  refine ⟨by decide +kernel, ?_, by decide +kernel, by decide +kernel, by decide, _, rfl, by decide⟩
  simp only [State.passes, admin, decide_true, Bool.and_true]
  rfl

/-! ## Witnesses: wipes -/

/-- The premises of WIPE_RANGE before its clauses, for the pages $400 to $401. -/
def atWipeRange (s : State) : Bool :=
  s.ready && !s.path.ringTouches 0x400 2 && !s.rgt.jobBoundOverlaps 0x400 2 && !s.wpe.overlaps 0x400 2

/-- A queue of one and of 31 entries, an empty one on a range with a write outstanding and on a quiet range, and a full one;
the ends of the ranges of the parameters. -/
theorem witness_WipeRangeJoins :
    let q := fun n : Nat => ({ live with wpe := ⟨List.replicate n (wipe300 (.pass 1 0 0 1)), 1⟩ } : State)
    let r := reading live { readSlot none .none with addr := 0x401000 }
    (atWipeRange (q 1) = true ∧ (q 1).wpe.queue ≠ [] ∧ atWipeRange (q 31) = true ∧ (q 31).wpe.queue.length < 32)
    ∧ (atWipeRange r = true ∧ r.wpe.queue = [] ∧ r.quiet 0x400 2 = false)
    ∧ (atWipeRange live = true ∧ live.wpe.queue = [] ∧ live.quiet 0x400 2 = true)
    ∧ (atWipeRange (q 32) = true ∧ 32 ≤ (q 32).wpe.queue.length)
    ∧ (2 ^ 24 - 1 < 2 ^ 24 ∧ 2 ^ 24 - 1 + 1 ≤ 2 ^ 24 ∧ yesNo? 1 = some true) := by
  decide +kernel

/-- The first pass and the last of a range at its end; a waiting head on a quiet range. -/
theorem witness_PatternGenerator :
    let e := fun k : Nat => wipe300 (.pass k 128 0 7)
    (0 < 22 ∧ 63 < 64 ∧ 7 < 8)
    ∧ (64 * (e 1).count ≤ 128 ∧ 1 < ({ e 1 with passes := 2 } : WipeEntry).passes ∧ (e 1).passes ≤ 1 ∧ (e 1).verify = true)
    ∧ ((wiping .waiting).wpe.queue = wipe300 .waiting :: [] ∧ (wipe300 .waiting).progress = .waiting
      ∧ (wiping .waiting).quiet 0x300 2 = true) := by
  decide +kernel

/-- The refusals of WIPE_RANGE: a field beyond its range; a page of the command ring's window; the last page of a private entry and
the first of a waiting wipe. -/
theorem witness_WipeRangeJoins_refused :
    let fits := fun p : WipeRangeParams => p.base < 2 ^ 24 ∧ 1 ≤ p.count ∧ p.count ≤ 2 ^ 20 ∧ p.base + p.count ≤ 2 ^ 24
      ∧ 1 ≤ p.passes ∧ p.passes ≤ 3 ∧ p.verify ≤ 1
    let ring := fun p : WipeRangeParams => 64 * p.base < 0x40 + (16 + 1) ∧ 0x40 < 64 * (p.base + p.count)
    let meets := fun (p : WipeRangeParams) (base count : Nat) => p.base < base + count ∧ base < p.base + p.count
    let p := fun base count : Nat => (⟨base, count, 1, 0⟩ : WipeRangeParams)
    (live.ready = true ∧ ¬ fits (p (2 ^ 24 - 1) 2) ∧ ¬ fits { p 0 1 with passes := 4 })
    ∧ (live.path.cmdWindow = some ⟨0x40, 16⟩ ∧ live.path.repWindow = some ⟨0x80, 16⟩ ∧ fits (p 1 1) ∧ ring (p 1 1))
    ∧ (fits (p 0x10F 1) ∧ ¬ ring (p 0x10F 1) ∧ (withEntry live 4 image).ready = true
      ∧ (withEntry live 4 image).rgt.live[(4 : Fin 32)] = some image ∧ image.cls ≠ .plain ∧ meets (p 0x10F 1) image.base image.count)
    ∧ ((wiping (.pass 1 0 0 1)).ready = true ∧ fits (p 0x2FF 2) ∧ ¬ ring (p 0x2FF 2) ∧ meets (p 0x2FF 2) 0x300 2) := by
  decide +kernel

/-- A waiting head on a quiet range; a pass and a VERIFY at the last eight lines of the range. -/
theorem witness_WipeIssues :
    let pass := wiping (.pass 1 120 0 1)
    let verify := wiping (.verify 120 0 1)
    (live.powered = true ∧ (wipe300 .waiting).progress = .waiting ∧ (wiping .waiting).quiet 0x300 2 = true
      ∧ (wiping (.pass 1 0 0 (prbsSeed 0x300))).still = true)
    ∧ (pass.resting = true ∧ freeSlot? pass.down.internal = some 0 ∧ 120 < (wipe300 .waiting).count * 64)
    ∧ (verify.resting = true ∧ freeSlot? verify.down.internal = some 0) := by
  decide +kernel

/-- The state after an end of a wipe transaction in slot 0. -/
def wipeEnded (s : State) (progress : Progress) (missed : Nat) : State :=
  { s with
    down := { s.down with internal := s.down.internal.set 0 none, credits := s.down.credits + 1 }
    wpe := { s.wpe with queue := [{ wipe300 progress with mismatch := missed }] } }

/-- A write answered ERROR for the first time; one answered OKAY with another outstanding, and the last one of the last pass,
whose VERIFY begins; one answered ERROR again; a verify read that is not the last. -/
theorem witness_WipeAnswers :
    let w := fun retried => internal (wiping (.pass 1 128 2 1)) (.wipeWrite 1 1 retried) 8 true
    let last := internal (wiping (.pass 1 128 1 1)) (.wipeWrite 1 1 false) 8 true
    let v := internal (wiping (.verify 120 2 1)) (.verifyRead 1 1) 8 true
    ((w false).powered = true ∧ (w false).wpe.queue = [wipe300 (.pass 1 128 2 1)] ∧ 0 ∉ (w false).down.internalList
      ∧ (w false).down.internal[(0 : Fin 8)] = some ⟨.wipeWrite 1 1 false, 0x300000, 8, false⟩ ∧ (w false).still = true)
    ∧ ((wipe300 .waiting).mismatch ≤ max32 ∧ (wipeEnded (w false) (.pass 1 128 1 1) 0).still = true
      ∧ (wipeEnded (w true) (.pass 1 128 1 1) 8).still = true)
    ∧ (last.powered = true ∧ (wipeEnded last (.verify 0 0 (prbsSeed 0x300)) 0).still = true)
    ∧ (v.powered = true ∧ v.wpe.queue = [wipe300 (.verify 120 2 1)] ∧ (wipeEnded v (.verify 120 1 1) 8).still = true) := by
  decide +kernel

/-- The last write of the last pass of an entry without VERIFY, and the last verify read, each with another entry behind. -/
theorem witness_WipeAnswers_completes :
    let e : WipeEntry := { wipe300 (.pass 1 128 1 1) with verify := false }
    let v : WipeEntry := wipe300 (.verify 128 1 1)
    let rest : List WipeEntry := [{ wipe300 .waiting with base := 0x310 }]
    let s := fun (e : WipeEntry) (x : Purpose) => internal { live with wpe := ⟨e :: rest, 2⟩ } x 8 true
    let calm := fun s : State => s.powered = true ∧ s.jct.metered = true ∧ s.rgt.commitDue = false
      ∧ (s.down.internal[(0 : Fin 8)]).isSome = true ∧ 0 ∉ s.down.internalList
    calm (s e (.wipeWrite 1 1 true)) ∧ calm (s v (.verifyRead 1 1)) ∧ (∀ y ∈ rest, y.progress = .waiting)
    ∧ e.progress = .pass 1 128 (0 + 1) 1 ∧ v.progress = .verify 128 (0 + 1) 1 ∧ e.mismatch ≤ max32 := by
  decide +kernel

/-- A done wipe of each origin: a command's, a job's with another to come, and a job's last. -/
theorem witness_WipeCompletes :
    let e := fun o : WipeOrigin => { wipe300 (.verify 128 0 1) with origin := o }
    let s := fun (o : WipeOrigin) (n : Nat) => (withJob { live with wpe := ⟨[e o], 1⟩ } .wiping).modJob 1 fun q =>
      { q with wipes := n, bound := 0 }
    let rest := fun s : State => ({ s with wpe := { s.wpe with queue := [] } } : State)
    ((s (.explicit 9) 1).powered = true ∧ (e (.explicit 9)).isDone = true ∧ (s (.explicit 9) 1).rci.queue.length ≤ 13
      ∧ (rest (s (.explicit 9) 1)).still = true)
    ∧ (2 ≤ ((s (.job 1 0) 2).job 1).wipes ∧ ((rest (s (.job 1 0) 2)).modJob 1 fun q => { q with wipes := q.wipes - 1 }).still = true)
    ∧ (((s (.job 1 0) 1).job 1).wipes = 1 ∧ ((s (.job 1 0) 1).job 1).state = .wiping
      ∧ ((rest (s (.job 1 0) 1)).modJob 1 fun q => { q with
        state := .free, closePending := false, marked := false, refs := 0, bound := 0, wipes := 0, own := none
        counters := .zero }).still = true) := by
  decide +kernel

/-- The premises of WipeCompletes for a CLOSING job 1 that waits for room. -/
def waitsToLeave (c : State) : Bool :=
  c.powered && c.rci.standby == .running && !c.rci.faultWaiting && c.jct.metered && !c.rgt.commitDue
    && c.wpe.queue.tail.all (fun y => !y.isDone) && (c.job 1).state == .closing && (c.job 1).refs == 0
    && !c.jct.isMarking 1 && !c.jct.isStacked 1 && (c.job 1).own.isNone
    && (List.finRange 16).all (fun k => k == 1 || (c.job k).state != .closing) && 1 ≤ (c.job 1).passes
    && (c.job 1).bound == (c.rgt.rangesOf 1).length && 1 ≤ (c.job 1).bound
    && (c.job 1).bound ≤ 32 - c.wpe.queue.tail.length

/-- A done wipe with another behind it whose range is quiet; and one behind which a CLOSING job with a range waits for room. -/
theorem witness_WipeCompletes_next :
    let e := wipe300 (.verify 128 0 1)
    let x : WipeEntry := { wipe300 .waiting with base := 0x310 }
    let s : State := { live with wpe := ⟨[e, x], 2⟩ }
    let c := (withJob (withEntry { live with wpe := ⟨[e], 1⟩ } 4 image) .closing).modJob 1 fun q => { q with passes := 1 }
    let full : State := { c with wpe := ⟨e :: List.replicate 31 x, 1⟩ }
    (s.powered = true ∧ s.rci.standby = .running ∧ e.isDone = true ∧ x.progress = .waiting ∧ s.quiet x.base x.count = true
      ∧ s.rci.queue.length ≤ 13
      ∧ ({ s with wpe := { s.wpe with queue := [{ x with progress := .pass 1 0 0 (prbsSeed x.base) }] } } : State).still = true)
    ∧ waitsToLeave c = true ∧ waitsToLeave full = true := by
  decide +kernel

/-! ## Witnesses: rings and reports -/

/-- The anchored part with the ring values changed. -/
def withRings (f : Rings → Rings) (s : State) : State := { s with rci := { s.rci with rings := s.rci.rings.map f } }

/-- The anchored part with a fetch out in slot 0. -/
def fetching (retried discard : Bool) : State :=
  let s := withRings (fun g => { g with cmdTail := 1 }) live
  { s with
    down := { s.down with internal := s.down.internal.set 0 (some ⟨.fetch retried, 0x1040, 1, discard⟩), credits := 47 }
    rci := { s.rci with hand := true, held := true } }

/-- The state of `fetching` with the slot freed. -/
def fetchDone (retried discard : Bool) : State :=
  { fetching retried discard with
    down := { live.down with internal := (fetching retried discard).down.internal.set 0 none } }

/-- A full command ring with two report entries free; a fetch that is discarded, one answered ERROR for the first time, one
that returns a JOB_QUERY, and one answered ERROR again. -/
theorem witness_CommandFetched :
    let s := withRings (fun g => { g with cmdTail := 16 }) live
    let rep : Report := ⟨.standby .retain ⟨0, 0, 0, 0⟩, 0, 0, false, 0⟩
    let near : State := { s with rci := { s.rci with queue := List.replicate 14 rep } }
    let ended := fun e : State => ({ e with rci := { e.rci with
      hand := false, rings := e.rci.rings.map fun g => { g with cmdHead := g.cmdHead + 1 } } } : State)
    (near.resting = true ∧ near.rci.startup = .anchored ∧ near.rci.hand = false
      ∧ near.rci.rings = some ⟨0x1000, 16, 0x2000, 16, 0, 16, 0, 0⟩ ∧ near.rci.queue.length ≤ 14
      ∧ freeSlot? near.down.internal = some 0)
    ∧ ((fetching false true).powered = true ∧ 0 ∉ (fetching false true).down.internalList
      ∧ (fetching false true).down.internal[(0 : Fin 8)] = some ⟨.fetch false, 0x1040, 1, true⟩ ∧ (fetchDone false true).still = true)
    ∧ ((fetching false false).powered = true ∧ (fetching false false).still = true)
    ∧ (ended (runCommand (.jobQuery 1 3) (fetchDone false false).beginEvent)).still = true
    ∧ ((fetching true false).rci.queue.length ≤ 15 ∧ (ended (fetchDone true false)).still = true) := by
  decide +kernel

/-- A fetched command whose own row may run. -/
theorem witness_CommandFetched_command :
    let s := fetching false false
    ∀ g, s.rci.rings = some g →
      let v : State := { fetchDone false false with rci := { s.rci with
        hand := false, rings := some { g with cmdHead := g.cmdHead + 1 } } }
      s.powered = true ∧ s.down.internal[(0 : Fin 8)] = some ⟨.fetch false, 0x1040, 1, false⟩ ∧ 0 ∉ s.down.internalList
        ∧ s.rci.held = true ∧ v.commandReady = true := by
  intro s g h
  cases h
  decide +kernel

/-- Both unknown kinds at the ends of the table, and the kinds that are laid out. -/
theorem witness_CommandSlots :
    ((0 : Line).extractLsb' 0 16).toNat = 0 ∧ 24 < ((25 : Line).extractLsb' 0 16).toNat
      ∧ ∀ n ∈ [1, 5, 14], ((BitVec.ofNat 512 n).extractLsb' 0 16).toNat = n := by
  decide +kernel

/-- A report queue with one two-slot report. -/
def reporting (posting : Option Posting) : State :=
  { live with rci := { live.rci with queue := [⟨.jobFreed 1 2, 0, 0, false, 0⟩], posting := posting } }

/-- A report that is about to be posted into an empty ring, and one that is posted in part; the answer of its only slot write,
OKAY or ERROR; an index line write due and answered. -/
theorem witness_ReportsPosted :
    let r : Report := ⟨.jobFreed 1 2, 0, 0, false, 0⟩
    let big : State := { live with rci := { live.rci with
      queue := [⟨.result 12 .ok (.classTable factoryClasses), 0, 0, false, 0⟩], posting := some ⟨1, 0⟩ } }
    let two := internal { big with rci := { big.rci with posting := some ⟨2, 0⟩ } } (.reportSlot 0 5 false) 1 true
    let one := internal (reporting (some ⟨1, 0⟩)) (.reportSlot 0 5 true) 1 true
    let index := internal live (.indexWrite 1 2) 1 true
    ((reporting none).resting = true ∧ (reporting none).rci.posting = none ∧ 0 < r.body.slots ∧ r.body.slots ≤ 16
      ∧ freeSlot? (reporting none).down.internal = some 0)
    ∧ (big.resting = true ∧ 1 < ReportBody.slots (.result 12 .ok (.classTable factoryClasses)) ∧ big.rci.posting = some ⟨1, 0⟩)
    ∧ (live.rci.indexWritten ≠ some (0, 0) ∧ live.down.indexBusy = false)
    ∧ (two.resting = true ∧ 0 + 1 < ReportBody.slots (.result 12 .ok (.classTable factoryClasses)) ∧ 0 ∉ two.down.internalList)
    ∧ (one.resting = true ∧ 0 + 1 = r.body.slots ∧ one.rci.queue.length ≤ 15
      ∧ one.down.internal[(0 : Fin 8)] = some ⟨.reportSlot 0 5 true, 0x300000, 1, false⟩)
    ∧ (index.resting = true ∧ index.down.internal[(0 : Fin 8)] = some ⟨.indexWrite 1 2, 0x300000, 1, false⟩) := by
  decide +kernel

/-- A full queue, and one of 15 reports with an entry held; a waiting ACCOUNT_FAULT and a free entry. -/
theorem witness_ReportsDropped :
    let rep : Report := ⟨.standby .retain ⟨0, 0, 0, 0⟩, 0, 0, false, 0⟩
    let f := fun (n : Nat) (held : Bool) => ported { live with rci := { live.rci with
      queue := List.replicate n rep, held := held } } (rd 0 4 1)
    let w : State := { live with rci := { live.rci with queue := List.replicate 15 rep, faultAt := some 7 } }
    ((f 16 false).resting = true ∧ 16 ≤ (f 16 false).rci.queue.length ∧ (f 16 false).path.mayTake .read = true
      ∧ (f 16 false).examine (rd 0 4 1) = .deny ⟨.malformed, .error, .malformed⟩ ∧ (f 16 false).path.captureMode = .any
      ∧ (f 16 false).path.capture = none)
    ∧ ((f 15 true).resting = true ∧ (f 15 true).rci.held = true ∧ 15 ≤ (f 15 true).rci.queue.length)
    ∧ (w.powered = true ∧ w.rci.standby = .running ∧ w.rci.faultAt = some 7 ∧ w.rci.hasEntry false = true
      ∧ ({ w with ace := { w.ace with faults := .empty }, rci := { w.rci with faultAt := none } } : State).still = true) := by
  decide +kernel

/-! ## Witnesses: Account Memory, cartridge lines and toner -/

/-- A write that may start, with and without a Waiting List; a write in flight of an unchanged and of a changed record; a
lockout one millisecond short of its end. -/
theorem witness_AmemWrites :
    let q := fun w : List RecId => ({ live with ace := { live.ace with
      queue := [.tariff], tariffWb := .queued, waiting := w, baysWb := .waiting } } : State)
    let c := fun changed : Bool => ({ live with ace := { live.ace with
      writing := some (.tariff factoryTariff), tariffWb := .writing changed } } : State)
    let out : State := { live with ms := 59999, ace := { live.ace with lockout := some 0 } }
    (∀ w ∈ [[], [RecId.bays]], (q w).resting = true ∧ (q w).ace.writing = none ∧ (q w).ace.queue = [.tariff]
      ∧ (q w).rci.startup ≠ .loading)
    ∧ ((c false).resting = true ∧ (c false).ace.writing = some (.tariff factoryTariff)
      ∧ (c false).ace.wb .tariff = .writing false)
    ∧ ((c true).resting = true ∧ (c true).ace.wb .tariff = .writing true)
    ∧ (out.resting = true ∧ out.ace.lockout = some 0) := by
  decide +kernel

/-- A CLEAN record, and a DIRTY one with 15 records in the queue, with 16, and with a record on the Waiting List (R126). -/
theorem witness_AmemWrites_trigger :
    let a := fun (n : Nat) (w : List RecId) => ({ live.ace with
      tariffWb := .dirty, queue := (List.range n).map fun i => .user (Fin.ofNat 256 i), waiting := w } : Ace)
    live.ace.wb .tariff ≠ .dirty
    ∧ ((a 15 []).wb .tariff = .dirty ∧ (a 15 []).waiting = [] ∧ (a 15 []).queue.length < 16)
    ∧ ((a 16 []).wb .tariff = .dirty ∧ 16 ≤ (a 16 []).queue.length)
    ∧ ((a 0 [.bays]).wb .tariff = .dirty ∧ (a 0 [.bays]).waiting ≠ []) := by
  decide +kernel

/-- Bay 1 in a state, with an exchange on its line or none. -/
def bay1 (st : BayState) (line : Option Exchange) : State :=
  live.modBay 1 fun b => { b with state := st, line := line, due := .atOnce }

/-- A debit that waits to be sent, and the requests of the other states; a reply that begins at 20 ms; a deadline missed by a
VACANT bay, by a SETTLING one, and by a supervised one. -/
theorem witness_LineExchanges :
    let e := fun since : BitVec 32 => some (⟨.status, since, false, 0⟩ : Exchange)
    let debit := (bay1 .genuine none).modBay 1 fun b => { b with waiting := true, openDebit := some ⟨1, 50, 0, 0⟩ }
    let reply := { bay1 .genuine (e 0) with ms := 20 }
    (∀ st ∈ [BayState.vacant, .identifying, .proving], (bay1 st none).resting = true ∧ ((bay1 st none).bay 1).line = none
      ∧ ((bay1 st none).bay 1).due ≠ .never)
    ∧ (debit.resting = true ∧ (debit.bay 1).openDebit = some ⟨1, 50, 0, 0⟩ ∧ (debit.bay 1).state = .genuine
      ∧ (debit.bay 1).waiting = true)
    ∧ (reply.resting = true ∧ (reply.bay 1).line = e 0 ∧ (reply.ms - 0).toNat ≤ 20)
    ∧ (∀ st ∈ [BayState.vacant, .settling, .genuine], (bay1 st (e 0)).resting = true)
    ∧ ((bay1 .settling (e 0)).rci.hasEntry false = true)
    ∧ (((bay1 .genuine (e 0)).bay 1).failures + 1 < ((bay1 .genuine (e 0)).ace.bays[1]).detach
      ∧ ((bay1 .genuine (e 0)).ace.bays[1]).detach ≤ 7) := by
  decide +kernel

/-- A failed debit after one send and after the third; a cartridge whose failures reach the detach count: a GENUINE one with room on
the Departed Cartridge List, one with the list full, and an UNPROVEN one. -/
theorem witness_LineExchanges_fails :
    let e := fun k : Exch => (⟨k, 0, false, 0⟩ : Exchange)
    let at' := fun (st : BayState) (k : Exch) (failures : Nat) (round : Option Nat) =>
      ((bay1 st (some (e k))).modBay 1 fun b => { b with
        serial := some 7, failures := failures, openDebit := some ⟨1, 50, 3, 1⟩ }).modPlane 1 fun f =>
        { f with round := round, inFlight := 50, pending := 3, view := st, level := .normal, viewLevel := 9000 }
    let full : State := { at' .genuine .debit 1 (some 2) with ccu := { (at' .genuine .debit 1 (some 2)).ccu with
      departed := List.replicate 8 ⟨9, 2, 4, 5, none⟩ } }
    let level := fun s : State => (s.ace.bays[1]).lowMark < (s.tmu[1]).viewLevel - ((s.tmu[1]).pending + (s.tmu[1]).inFlight)
    (∀ n ∈ [1, 3], (at' .genuine .debit 0 (some n)).resting = true ∧ level (at' .genuine .debit 0 (some n))
      ∧ ((at' .genuine .debit 0 (some n)).bay 1).failures + 1 < ((at' .genuine .debit 0 (some n)).ace.bays[1]).detach)
    ∧ (∀ st ∈ [BayState.genuine, .unproven, .proving], (at' st .status 1 none).resting = true ∧ level (at' st .status 1 none)
      ∧ ((at' st .status 1 none).ace.bays[1]).detach ≤ ((at' st .status 1 none).bay 1).failures + 1
      ∧ (at' st .status 1 none).rci.hasEntry false = true ∧ (at' st .status 1 none).ccu.departed.length < 8)
    ∧ (full.resting = true ∧ 8 ≤ full.ccu.departed.length ∧ level full) := by
  decide +kernel

/-- A part whose bays attach after `n` replies. -/
def attachAfter (n : Nat) (s : State) : State :=
  { s with ace := { s.ace with bays := Vector.replicate 4 { factoryBay with attach := n } } }

/-- A reply that no exchange awaits, and one past its deadline; the attach counts at their ends; a supervised bay. -/
theorem witness_StatusReplies :
    let e := some (⟨.status, 0, true, 0⟩ : Exchange)
    let at20 := fun s : State => ({ s with ms := 20 } : State)
    let settling := fun n : Nat => (bay1 .settling e).modBay 1 fun b => { b with settle := n }
    ((bay1 .vacant none).resting = true ∧ ((bay1 .vacant none).bay 1).line = none)
    ∧ (({ bay1 .vacant e with ms := 21 } : State).resting = true ∧ 20 < (({ bay1 .vacant e with ms := 21 } : State).ms - 0).toNat)
    ∧ ((at20 (attachAfter 2 (bay1 .vacant e))).resting = true ∧ (attachAfter 2 (bay1 .vacant e)).rci.hasEntry false = true
      ∧ 2 ≤ ((attachAfter 2 (bay1 .vacant e)).ace.bays[1]).attach)
    ∧ ((attachAfter 1 (bay1 .vacant e)).resting = true ∧ ((attachAfter 1 (bay1 .vacant e)).ace.bays[1]).attach ≤ 1)
    ∧ ((attachAfter 15 (settling 13)).resting = true
      ∧ ((settling 13).bay 1).settle + 1 < ((attachAfter 15 (settling 13)).ace.bays[1]).attach)
    ∧ ((attachAfter 15 (settling 14)).resting = true
      ∧ ((attachAfter 15 (settling 14)).ace.bays[1]).attach ≤ ((settling 14).bay 1).settle + 1
      ∧ ((settling 14).bay 1).settle ≤ 14)
    ∧ ((bay1 .genuine e).resting = true ∧ (0xFE : Byte).getLsbD 0 = false) := by
  decide +kernel

/-- A GENUINE bay that is restarted with pending toner; a supervised bay whose reply is no frame. -/
theorem witness_StatusReplies_restarted :
    let s := ((bay1 .genuine (some ⟨.status, 0, true, 0⟩)).modBay 1 fun b => { b with serial := some 7 }).modPlane 1 fun f =>
      { f with view := .genuine, level := .normal, pending := 3, viewLevel := 9000 }
    (s.resting = true ∧ s.rci.hasEntry false = true ∧ (s.bay 1).serial = some 7 ∧ (0x01 : Byte).getLsbD 0 = true
      ∧ 2 ≤ (s.ace.bays[1]).attach ∧ s.ccu.departed.length < 8 ∧ (s.ace.bays[1]).lowMark < (s.tmu[1]).viewLevel - (3 + 0)
      ∧ (s.tmu[1]).level = .normal ∧ ¬ ((s.tmu[1]).pending + (s.tmu[1]).inFlight = 0 ∧ (s.tmu[1]).pg = 0))
    ∧ ((s.bay 1).state ≠ .vacant ∧ (s.bay 1).state ≠ .settling ∧ (s.bay 1).failures + 1 < (s.ace.bays[1]).detach
      ∧ (s.ace.bays[1]).detach ≤ 7) := by
  decide +kernel

/-- No bytes, and a frame whose bytes do not sum to 0, are no status reply. -/
theorem witness_StatusReplies_noFrame (level : BitVec 32) (flags : Byte) :
    [] ≠ mkFrame 0x81 (leBytes 4 level.toNat ++ [flags]) := by
  simp [mkFrame]

/-- An identity awaited with and without its serial elsewhere; a proof awaited at a level one above the low mark, its tag good
and bad; a debit awaited. -/
theorem witness_CartridgeReplies :
    let e := fun k : Exch => (⟨k, 0, true, 3⟩ : Exchange)
    let ident := bay1 .identifying (some (e .ident))
    let twin := ident.modBay 2 fun b => { b with state := .unproven, serial := some 7 }
    let prove := (bay1 .proving (some (e .prove))).modBay 1 fun b => { b with serial := some 7 }
    let debit := ((bay1 .genuine (some (e .debit))).modBay 1 fun b =>
      { b with serial := some 7, openDebit := some ⟨1, 50, 3, 1⟩ }).modPlane 1 fun f =>
      { f with view := .genuine, level := .normal, inFlight := 50, viewLevel := 5051 }
    (ident.resting = true ∧ ident.rci.hasEntry false = true ∧ (ident.bay 1).line = some (e .ident)
      ∧ (ident.bay 1).state = .identifying ∧ (∀ d ∈ ident.ccu.departed, d.serial ≠ 7)
      ∧ ∀ q : Fin 4, (ident.bay q).serial ≠ some 7)
    ∧ (twin.resting = true ∧ (twin.bay 2).serial = some 7 ∧ (twin.bay 2).state = .unproven)
    ∧ (prove.resting = true ∧ (prove.bay 1).line = some (e .prove) ∧ (prove.bay 1).state = .proving
      ∧ (prove.bay 1).serial = some 7 ∧ (prove.bay 1).unconfirmed = none
      ∧ (prove.ace.bays[1]).lowMark < 5001 - ((prove.tmu[1]).pending + (prove.tmu[1]).inFlight)
      ∧ (prove.tmu[1]).stale = none ∧ (prove.tmu[1]).flush = false ∧ (prove.tmu[1]).pending < (prove.ace.bays[1]).quantum)
    ∧ (debit.resting = true ∧ (debit.bay 1).line = some (e .debit) ∧ (debit.bay 1).state = .genuine
      ∧ (debit.bay 1).openDebit = some ⟨1, 50, 3, 1⟩ ∧ (debit.tmu[1]).level = .normal ∧ (debit.tmu[1]).view = .genuine
      ∧ (debit.ace.bays[1]).lowMark < 5001 - (debit.tmu[1]).pending
      ∧ (debit.ace.bays[1]).lowMark < (debit.tmu[1]).viewLevel - ((debit.tmu[1]).pending + (debit.tmu[1]).inFlight)) := by
  decide +kernel

/-- An identity whose serial stands behind another on the Departed Cartridge List for the same plane; a proof that confirms an
unconfirmed debit, and one that does not. -/
theorem witness_CartridgeReplies_returned :
    let ident := bay1 .identifying (some ⟨.ident, 0, true, 3⟩)
    let s : State := { ident with ccu := { ident.ccu with
      departed := [⟨9, 2, 4, 5, none⟩, ⟨7, 1, 20, 5, some ⟨1, 15⟩⟩] } }
    let prove := ((bay1 .proving (some ⟨.prove, 0, true, 3⟩)).modBay 1 fun b => { b with
      serial := some 7, unconfirmed := some ⟨1, 15⟩ }).modPlane 1 fun f => { f with pending := 20 }
    (s.resting = true ∧ s.rci.hasEntry false = true
      ∧ s.ccu.departed = [⟨9, 2, 4, 5, none⟩] ++ ⟨7, 1, 20, 5, some ⟨1, 15⟩⟩ :: []
      ∧ (∀ q : Fin 4, (s.bay q).serial ≠ some 7) ∧ ¬ ∃ d ∈ s.ccu.departed, d.serial = 7 ∧ d.plane ≠ 1)
    ∧ (prove.resting = true ∧ (prove.bay 1).unconfirmed = some ⟨1, 15⟩ ∧ (prove.tmu[1]).view = .vacant
      ∧ (prove.tmu[1]).stale = none ∧ (prove.tmu[1]).flush = false ∧ (1 : BitVec 16) ≠ 2
      ∧ (prove.ace.bays[1]).lowMark < 9000 - (20 - 15 + 0) ∧ (prove.ace.bays[1]).lowMark < 9000 - (20 + 0)
      ∧ 20 - 15 < (prove.ace.bays[1]).quantum ∧ (prove.tmu[1]).pending < (prove.ace.bays[1]).quantum) := by
  decide +kernel

/-- A tag that the proof function gives, and one that it does not (R139). -/
theorem witness_CartridgeReplies_tags :
    let p := Config.proofTag (Config.cartridgeKey 7) 3 7 5001 1
    p = p ∧ ¬ p = p + 1 := by
  refine ⟨rfl, ?_⟩
  generalize Config.proofTag (Config.cartridgeKey 7) 3 7 5001 1 = x
  intro h
  have := congrArg (fun y => y - x) h
  simp at this

/-- Every plane's account is kept, with pending toner of which all is a stale debit. -/
theorem witness_TonerAccountKept :
    let s := live.modPlane 1 fun f => { f with meteredMg := 9, pending := 9, stale := some 9 }
    (∀ q : Fin 4, (s.plane q).metered = (s.plane q).accounted + s.ccu.departedPg q)
    ∧ (∀ a ∈ (s.plane 1).stale, a ≤ (s.plane 1).pending) ∧ 9 ≤ (s.plane 1).pending
    ∧ s.ccu.departedElsewhere 1 7 = false := by
  decide +kernel

theorem witness_TonerAccountKept_step :
    let s := (bay1 .genuine none).modBay 1 fun b => { b with serial := some 7, openDebit := some ⟨1, 5, 0, 0⟩ }
    let s := s.modPlane 1 fun f => { f with meteredMg := 14, pending := 9, inFlight := 5, round := some 1, view := .genuine }
    s.tonerShape ∧ (∀ p, s.tonerLaw p) ∧ ∃ t, step s = .next t := by
  refine ⟨?_, ?_, _, rfl⟩
  · unfold State.tonerShape; decide +kernel
  · unfold State.tonerLaw; decide +kernel

/-- Levels at which an accrual leaves NORMAL, comes to LOW, and comes to OUT; and a LOW and an OUT level. One dot of the plane is
5548 pg. -/
theorem witness_TonerAccountKept_levels :
    let f := fun (l : LevelState) (view : Nat) => ({ live.tmu[1] with view := .unproven, level := l, viewLevel := view } : Figures)
    let left := fun (f : Figures) (d : Nat) => f.viewLevel - (f.pending + (f.pg + d * 5548) / 1000000000 + f.inFlight)
    (live.conf 1).dotMass = 5548 ∧ (f .normal 0).flush = false ∧ (live.conf 1).lowMark = 5000
    ∧ (5000 < left (f .normal 5001) 1 ∧ left (f .normal 5000) 1 ≤ 5000 ∧ 0 < left (f .normal 5000) 1
      ∧ left (f .normal 1) 200000 = 0 ∧ 0 < left (f .low 2) 200000 ∧ left (f .low 1) 200000 = 0 ∧ (f .out 0).level = .out) := by
  decide +kernel

/-- A round that is not due one milligram below the quantum, and one that is due at it, on a stale debit, and on a flush. -/
theorem witness_TonerAccountKept_rounds :
    let f := fun (pending : Nat) (stale : Option Nat) (flush : Bool) =>
      ((bay1 .genuine none).modPlane 1 fun f => { f with view := .genuine, pending := pending, stale := stale, flush := flush })
    let due := fun s : State => (s.plane 1).view = .genuine ∧ (s.plane 1).round = none
      ∧ ((s.plane 1).stale ≠ none ∨ (s.conf 1).quantum ≤ (s.plane 1).pending ∨ ((s.plane 1).flush = true ∧ 1 ≤ (s.plane 1).pending))
    ¬ due (f 49 none false) ∧ due (f 50 none false) ∧ due (f 9 (some 9) false) ∧ due (f 1 none true)
      ∧ ((f 50 none false).bay 1).state = .genuine := by
  decide +kernel

/-! ## Witnesses: standby -/

/-- A part that enters standby. -/
def entering (m : StandbyMode) (ph : StandbyPhase) : State :=
  { withJob live .opened with
    path := { live.path with closed := true }
    rci := { live.rci with standby := .entering m ph 1 ⟨0, 0, 0, 0⟩ } }

/-- A job that marks; a stacked one; a waiting wipe; a read still outstanding when standby is entered; and the end of each
phase, in both modes. -/
theorem witness_StandbyEntry :
    let m := marking1 raster
    let st : State := { live with jct := { live.jct with stack := [⟨1, freshCtx⟩] } }
    let w := wiping (.pass 1 0 0 1)
    let r := reading live (readSlot none .none)
    (live.ready = true ∧ 2 ≤ 2)
    ∧ (m.ready = true ∧ m.jct.marking.isSome = true) ∧ (st.ready = true ∧ st.jct.stack ≠ [])
    ∧ (w.ready = true ∧ w.jct.marking = none ∧ w.jct.stack = [] ∧ w.wpe.queue ≠ [])
    ∧ (r.ready = true ∧ r.jct.marking = none ∧ r.jct.stack = [] ∧ r.wpe.queue = [] ∧ r.drained = false)
    ∧ (∀ m ∈ [StandbyMode.retain, .erase], (entering m .drain).powered = true ∧ (entering m .drain).drained = true
      ∧ (entering m .drain).rci.standby = .entering m .drain 1 ⟨0, 0, 0, 0⟩ ∧ ((entering m .drain).job 1).state.live = true)
    ∧ ((entering .retain .flush).ace.flushed = true ∧ (entering .retain .flush).rci.faultWaiting = false
      ∧ (entering .retain .flush).rci.hasEntry false = true
      ∧ (({ entering .retain .flush with rci := { (entering .retain .flush).rci with
          standby := .entering .retain .post 1 ⟨0, 0, 0, 0⟩ } } : State).reported (.standby .retain ⟨0, 0, 0, 0⟩) 1).nothingDue = true)
    ∧ ((entering .retain .post).posted = true ∧ (entering .retain .post).rci.wakePin = false
      ∧ ({ entering .retain .post with rci := { (entering .retain .post).rci with standby := .standby } } : State).nothingDue
          = true) := by
  decide +kernel

/-- A drained part that enters standby with a bay attached and a job OPEN: with a record that is not CLEAN, and with all CLEAN and a
report in the queue that may be posted. -/
theorem witness_StandbyEntry_drained :
    let s := (withJob (bay1 .vacant none) .opened).modJob 1 fun q => { q with bound := 0 }
    let dirty : State := { s with ace := { s.ace with tariffWb := .queued, queue := [.tariff] } }
    let r : State := { s with rci := { s.rci with queue := [⟨.jobFreed 1 2, 0, 0, false, 0⟩] } }
    (dirty.ready = true ∧ dirty.jct.marking = none ∧ dirty.jct.stack = [] ∧ dirty.wpe.queue = [] ∧ dirty.drained = true
      ∧ dirty.rci.wakePin = false ∧ dirty.ace.flushed = false)
    ∧ (r.ready = true ∧ r.drained = true ∧ r.ace.flushed = true ∧ r.rci.queue.length ≤ 1 ∧ r.rci.headBlocked = false
      ∧ r.rci.queue ≠ []) := by
  decide +kernel

/-- The flush ends with a posting count that no write has cleared. -/
theorem witness_StandbyEntry_flushed :
    let e := entering .retain .flush
    let s : State := { e with ace := { e.ace with depts := e.ace.depts.set 2 ⟨⟨none, 0⟩, 0, 1, .clean⟩ } }
    let cleared : Ace := { s.ace with
      users := s.ace.users.map fun r => { r with posting := 0 }
      depts := s.ace.depts.map fun r => { r with posting := 0 }
      meters := { s.ace.meters with posting := 0 } }
    s.powered = true ∧ s.ace.flushed = true ∧ (s.ace.depts[2]).posting = 1 ∧ s.rci.hasEntry false = true
    ∧ (({ s with ace := cleared, rci := { s.rci with standby := .entering .retain .post 1 ⟨0, 0, 0, 0⟩ } } : State).reported
        (.standby .retain ⟨0, 0, 0, 0⟩) 1).nothingDue = true := by
  decide +kernel

end Sys2Proof.Tests
end

