-- ==== Sys2Proof/Proofs/PathExamination.lean ====
section
/-!
The order of checks (R5): each step of an examination as an equation, and what form, wipe shadow and ring windows say in numbers.
Settles O13 and O14.
-/

namespace Sys2Proof.Machine

/-! ## What the tests say -/

theorem inRangeOf_iff (p base count : Nat) : inRangeOf p base count = true ↔ base ≤ p ∧ p < base + count := by
  simp [inRangeOf]

theorem RegionEntry.covers_iff (e : RegionEntry) (p : Page) : e.covers p = true ↔ e.base ≤ p ∧ p < e.base + e.count :=
  inRangeOf_iff p e.base e.count

/-- A well-formed transaction is aligned, 1 to 8 lines long and in one page (R1). -/
theorem wellFormed_iff (t : Txn) : t.wellFormed = true ↔
    t.addr.toNat % 64 = 0 ∧ 1 ≤ t.len ∧ t.len ≤ 8 ∧ t.addr.toNat / 4096 = (t.addr.toNat + 64 * t.len - 1) / 4096 := by
  simp only [Txn.wellFormed, Bool.and_eq_true, beq_iff_eq, decide_eq_true_eq]
  omega

theorem Wpe.shadows_iff (w : Wpe) (p : Page) :
    w.shadows p = true ↔ ∃ e ∈ w.queue, e.base ≤ p ∧ p < e.base + e.count := by
  simp [Wpe.shadows, inRangeOf_iff]

theorem Wpe.shadows_eq_false_iff (w : Wpe) (p : Page) :
    w.shadows p = false ↔ ∀ e ∈ w.queue, ¬ (e.base ≤ p ∧ p < e.base + e.count) := by
  rw [← Bool.not_eq_true, w.shadows_iff]
  simp only [not_exists, not_and]

/-- Some line of a transaction lies in a window (R7). -/
theorem touches_iff (t : Txn) (w : Window) (h : 1 ≤ t.len) : t.touches (some w) = true ↔
    ∃ k < t.len, w.baseLine ≤ t.addr.toNat / 64 + k ∧ t.addr.toNat / 64 + k < w.baseLine + (w.slots + 1) := by
  simp only [Txn.touches, Option.any_some, Window.hasLine, rangesOverlap, Bool.and_eq_true, decide_eq_true_eq]
  simp only [lineOf]
  constructor
  · rintro ⟨h₁, h₂⟩
    exact ⟨w.baseLine - t.addr.toNat / 64, by omega, by omega, by omega⟩
  · rintro ⟨k, hk, h₁, h₂⟩
    omega

/-- Every line of a transaction lies in a window (R7). -/
theorem within_iff (t : Txn) (w : Window) (h : 1 ≤ t.len) : t.within (some w) = true ↔
    ∀ k < t.len, w.baseLine ≤ t.addr.toNat / 64 + k ∧ t.addr.toNat / 64 + k < w.baseLine + (w.slots + 1) := by
  simp only [Txn.within, Option.any_some, Window.holdsLines, Bool.and_eq_true, decide_eq_true_eq]
  simp only [lineOf]
  constructor
  · intro _ k hk
    omega
  · intro hall
    have h₁ := hall 0 (by omega)
    have h₂ := hall (t.len - 1) (by omega)
    omega

/-- A transaction includes the command window's index line (R24). -/
theorem hasIndexLine_iff (p : Path) (t : Txn) (w : Window) (h : p.cmdWindow = some w) :
    p.hasIndexLine t = true ↔ ∃ k < t.len, t.addr.toNat / 64 + k = w.baseLine := by
  simp only [Path.hasIndexLine, h, Option.any_some, Bool.and_eq_true, decide_eq_true_eq]
  simp only [lineOf]
  constructor
  · rintro ⟨h₁, h₂⟩
    exact ⟨w.baseLine - t.addr.toNat / 64, by omega, by omega⟩
  · rintro ⟨k, hk, h₁⟩
    omega

theorem dir_eq_read_or_write (t : Txn) : t.dir = .read ∨ t.dir = .write := by
  cases t.dir <;> simp

theorem dir_of_write {t : Txn} {ls : List WriteLine} (h : t.op = .write ls) : t.dir = .write := by
  simp [Txn.dir, h]

theorem writeLines_of_write {t : Txn} {ls : List WriteLine} (h : t.op = .write ls) : t.writeLines = ls := by
  simp [Txn.writeLines, h]

/-! ## The steps of an examination -/

theorem State.examine_malformed (s : State) {t : Txn} (h : t.wellFormed = false) :
    s.examine t = .deny ⟨.malformed, .error, .malformed⟩ := by
  simp [State.examine, h, denyError]

theorem State.examine_wellFormed (s : State) {t : Txn} (h : t.wellFormed = true) : s.examine t = s.examineFrom2 t := by
  simp [State.examine, h]

theorem State.examineFrom2_closed (s : State) (t : Txn) (ha : s.rci.startup = .anchored) (hc : s.path.closed = true) :
    s.examineFrom2 t = .deny ⟨.closed, .error, .miss⟩ := by
  simp [State.examineFrom2, ha, hc, denyError]

theorem State.examineFrom2_shadowed (s : State) (t : Txn) (hc : ¬ (s.rci.startup = .anchored ∧ s.path.closed = true))
    (hw : s.wpe.shadows t.page = true) : s.examineFrom2 t = .deny ⟨.wiping, .error, .wipe⟩ := by
  simp [State.examineFrom2, hc, hw, denyError]

theorem State.examineFrom2_beforeAnchor (s : State) (t : Txn) (ha : s.rci.startup ≠ .anchored)
    (hw : s.wpe.shadows t.page = false) : s.examineFrom2 t = .accept .plain := by
  simp [State.examineFrom2, ha, hw]

/-- Step 4 (R7), for an open path while ANCHORED and outside the wipe shadow. -/
theorem State.examineFrom2_ring (s : State) (t : Txn) (ha : s.rci.startup = .anchored) (hc : s.path.closed = false)
    (hw : s.wpe.shadows t.page = false) (hr : s.path.isRingAccess t = true) :
    s.examineFrom2 t = if s.path.ringPermitted t then
      .accept { Accept.plain with indexLine := t.dir == .write && s.path.hasIndexLine t } else .deny ⟨.ring, .error, .ring⟩ := by
  simp [State.examineFrom2, ha, hc, hw, hr, denyError]

theorem State.examineFrom2_match (s : State) (t : Txn) (ha : s.rci.startup = .anchored) (hc : s.path.closed = false)
    (hw : s.wpe.shadows t.page = false) (hr : s.path.isRingAccess t = false) :
    s.examineFrom2 t = s.examineMatch t := by
  simp [State.examineFrom2, ha, hc, hw, hr]

/-! ## Ring windows (R7) -/

theorem Path.ringPermitted_iff (p : Path) (t : Txn) : p.ringPermitted t = true ↔
    p.role? t.source = some .proc
      ∧ ((t.within p.cmdWindow = true ∧ t.touches p.repWindow = false)
        ∨ (t.within p.repWindow = true ∧ t.touches p.cmdWindow = false ∧ t.dir = .read)) := by
  simp [Path.ringPermitted, and_assoc]

/-- The verdict on an access of a ring window of a well-formed transaction on an open path (R7). -/
theorem State.examine_ring (s : State) {t : Txn} (ha : s.rci.startup = .anchored) (hc : s.path.closed = false)
    (hf : t.wellFormed = true) (hw : s.wpe.shadows t.page = false) (hr : s.path.isRingAccess t = true) :
    s.examine t = if s.path.ringPermitted t then
      .accept ⟨none, none, .none, t.dir == .write && s.path.hasIndexLine t, none⟩ else .deny ⟨.ring, .error, .ring⟩ := by
  rw [s.examine_wellFormed hf, s.examineFrom2_ring t ha hc hw hr]
  rfl

/-! ## Steps 5 to 9w -/

theorem State.examine_match (s : State) {t : Txn} (ha : s.rci.startup = .anchored) (hc : s.path.closed = false)
    (hf : t.wellFormed = true) (hw : s.wpe.shadows t.page = false) (hr : s.path.isRingAccess t = false) :
    s.examine t = s.examineMatch t := by
  rw [s.examine_wellFormed hf, s.examineFrom2_match t ha hc hw hr]

/-- No valid live entry covers the page (R10). -/
theorem Regions.matched?_eq_none (g : Regions) (p : Page)
    (h : ∀ i : Fin 32, ∀ e ∈ g.live[i], ¬ (e.base ≤ p ∧ p < e.base + e.count)) : g.matched? p = none := by
  simp only [Regions.matched?, List.find?_eq_none, Option.any_eq_true, RegionEntry.covers_iff]
  rintro i - ⟨e, he, hp⟩
  exact h i e he hp

/-- The lowest-numbered valid live entry that covers the page is matched (R10). -/
theorem Regions.matched?_eq_some (g : Regions) (p : Page) (i : Fin 32) (e : RegionEntry) (he : g.live[i] = some e)
    (hp : e.base ≤ p ∧ p < e.base + e.count)
    (hlow : ∀ k < i, ∀ o ∈ g.live[k], ¬ (o.base ≤ p ∧ p < o.base + o.count)) : g.matched? p = some i := by
  have hcov : (g.live[i]).any (·.covers p) = true := by
    simp [he, RegionEntry.covers_iff, hp]
  refine List.find?_eq_some_iff_getElem.2 ⟨hcov, i.val, by simp, by simp, fun k hk => ?_⟩
  rw [List.getElem_finRange, Bool.not_eq_eq_eq_not, Bool.not_true, Option.any_eq_false]
  intro o ho
  rw [← Bool.not_eq_true, o.covers_iff]
  exact hlow ⟨k, hk.trans i.isLt⟩ hk o ho

theorem RegionEntry.permits_eq (e : RegionEntry) (d : Dir) (src : Fin 16) :
    e.permits d src = (if d = .read then e.readMask else e.writeMask).getLsbD src.val := by
  cases d <;> rfl

theorem RegionEntry.view_eq (e : RegionEntry) (src : Fin 16) :
    e.view src = if e.priv = false then .none else if e.rawMask.getLsbD src.val then .raw else .plain := by
  cases h : e.priv <;> simp [RegionEntry.view, sourceBit, h]

theorem wholeLines_iff (t : Txn) : t.wholeLines = true ↔ ∀ l ∈ t.writeLines, l.mask = fullMask := by
  simp [Txn.wholeLines]

/-- Steps 5 to 9 for a page whose match is known and that no commit holds. -/
theorem State.examineMatch_some (s : State) (t : Txn) (i : Fin 32) (e : RegionEntry)
    (hc : s.rgt.commitHolds t.page = false) (hm : s.rgt.matched? t.page = some i) (he : s.rgt.live[i] = some e) :
    s.examineMatch t = s.examineEntry t i e := by
  unfold State.examineMatch
  rw [hc, hm]
  simp only [Bool.false_eq_true, if_false]
  rw [he]

theorem State.examineMatch_none (s : State) (t : Txn) (hc : s.rgt.commitHolds t.page = false)
    (hm : s.rgt.matched? t.page = none) : s.examineMatch t = s.examineMiss := by
  unfold State.examineMatch
  rw [hc, hm]
  rfl

/-- Step 8 for a job that lets nothing pass in its state (R48). -/
theorem State.examineJob_barred (s : State) (t : Txn) (i : Fin 32) (e : RegionEntry) (j : Fin 16)
    (h : (s.job j).state = .closing) : s.examineJob t i e j = .deny ⟨.jobState, e.behaviour, .entry i⟩ := by
  simp [State.examineJob, h, JobState.letsPass, denyAs]

/-- Steps 8 and 9 for a transaction of an OPEN or HELD job that does not mark (R36, R48). -/
theorem State.examineJob_unmarked (s : State) (t : Txn) (i : Fin 32) (e : RegionEntry) (j : Fin 16)
    (hs : (s.job j).state = .opened ∨ ∃ why, (s.job j).state = .held why)
    (hm : ¬ (t.dir = .read ∧ e.raster.isSome ∧ s.path.role? t.source = some .mark)) :
    s.examineJob t i e j = if t.dir = .write ∧ e.priv = true ∧ ¬ t.wholeLines = true then
      .deny ⟨.partialPrivate, e.behaviour, .entry i⟩ else .accept ⟨some i, some j, e.view t.source, false, none⟩ := by
  have hmarks : (t.dir == .read && e.raster.isSome && s.path.role? t.source == some .mark) = false := by
    simpa [Bool.and_assoc] using hm
  have hpass : (s.job j).state.letsPass false = true := by
    rcases hs with h | ⟨why, h⟩ <;> simp [h, JobState.letsPass]
  simp only [State.examineJob, hmarks, hpass, denyAs]
  cases e.raster <;> simp [and_assoc]

theorem State.examineEntry_barred (s : State) (t : Txn) (i : Fin 32) (e : RegionEntry)
    (h : e.permits t.dir t.source = false) :
    s.examineEntry t i e = .deny ⟨.notPermitted, e.behaviour, .entry i⟩ := by
  simp [State.examineEntry, h, denyAs]

theorem State.examineEntry_plain (s : State) (t : Txn) (i : Fin 32) (e : RegionEntry)
    (h : e.permits t.dir t.source = true) (hj : e.job = none) :
    s.examineEntry t i e = .accept ⟨some i, none, .none, false, none⟩ := by
  simp [State.examineEntry, h, hj]

theorem State.examineEntry_job (s : State) (t : Txn) (i : Fin 32) (e : RegionEntry) (j : Fin 16)
    (h : e.permits t.dir t.source = true) (hj : e.job = some j) : s.examineEntry t i e = s.examineJob t i e j := by
  simp [State.examineEntry, h, hj]

/-! ## The statements -/

/-- Form, path closed and wipe shadow, in their order (the first clause of O13). -/
theorem State.examine_early (s : State) (t : Txn) :
    (¬ (t.addr.toNat % 64 = 0 ∧ 1 ≤ t.len ∧ t.len ≤ 8 ∧ t.addr.toNat / 4096 = (t.addr.toNat + 64 * t.len - 1) / 4096) →
      s.examine t = .deny ⟨.malformed, .error, .malformed⟩)
    ∧ (t.wellFormed = true →
      (s.rci.startup = .anchored → s.path.closed = true → s.examine t = .deny ⟨.closed, .error, .miss⟩)
      ∧ (s.rci.startup = .anchored → s.path.closed = false → s.wpe.shadows t.page = true →
          s.examine t = .deny ⟨.wiping, .error, .wipe⟩)
      ∧ (s.rci.startup ≠ .anchored →
          (s.wpe.shadows t.page = true → s.examine t = .deny ⟨.wiping, .error, .wipe⟩)
          ∧ (s.wpe.shadows t.page = false → s.examine t = .accept ⟨none, none, .none, false, none⟩))) := by
  refine ⟨fun h => s.examine_malformed ?_, fun hf => ?_⟩
  · rw [← Bool.not_eq_true, wellFormed_iff]
    exact h
  · rw [s.examine_wellFormed hf]
    refine ⟨s.examineFrom2_closed t, fun _ hc hw => s.examineFrom2_shadowed t (by simp [hc]) hw, fun ha => ⟨fun hw => ?_, ?_⟩⟩
    · exact s.examineFrom2_shadowed t (by simp [ha]) hw
    · exact s.examineFrom2_beforeAnchor t ha

end Sys2Proof.Machine

namespace Sys2Proof.Proofs
open Sys2Proof Sys2Proof.Machine

/-- Settles O13: form, path closed and wipe shadow are the equations of the examination's first steps; for the windows, what `touches`
and `within` say of single lines decides `ringPermitted`. -/
theorem earlyChecks : Obligations.EarlyChecks := by
  unfold Obligations.EarlyChecks
  refine ⟨fun s t => ?_, fun s t roles c r ha hc hf hw hroles hcw hrw => ?_⟩
  · obtain ⟨hbad, hgood⟩ := s.examine_early t
    refine ⟨hbad, fun h₁ h₂ h₃ h₄ => ?_⟩
    have := hgood ((wellFormed_iff t).2 ⟨h₁, h₂, h₃, h₄⟩)
    rwa [Wpe.shadows_iff, Wpe.shadows_eq_false_iff] at this
  · have hlen : 1 ≤ t.len := ((wellFormed_iff t).1 hf).2.1
    have hrole : s.path.role? t.source = some roles[t.source] := by simp [Path.role?, hroles]
    simp only [List.mem_map, List.mem_range, exists_exists_and_eq_and, forall_exists_index, and_imp,
      forall_apply_eq_imp_iff₂]
    intro k hk hin
    have hring : s.path.isRingAccess t = true := by
      rw [Path.isRingAccess, Bool.or_eq_true, hcw, hrw, touches_iff t c hlen, touches_iff t r hlen]
      exact hin.imp (fun h => ⟨k, hk, h⟩) fun h => ⟨k, hk, h⟩
    have hverdict := s.examine_ring ha hc hf hw hring
    have hperm := s.path.ringPermitted_iff t
    rw [hcw, hrw, hrole, ← Bool.not_eq_true, ← Bool.not_eq_true, touches_iff t c hlen, touches_iff t r hlen,
      within_iff t c hlen, within_iff t r hlen] at hperm
    refine ⟨fun hproc => ⟨fun hall => ?_, fun hall hd => ?_, fun hall hd => ?_, ?_⟩, fun hproc => ?_⟩
    · have hok : s.path.ringPermitted t = true :=
        hperm.2 ⟨by rw [hproc], .inl ⟨fun k hk => (hall k hk).1, fun ⟨k, hk, h⟩ => (hall k hk).2 h⟩⟩
      have hindex : (t.dir == .write && s.path.hasIndexLine t)
          = decide (t.dir = .write ∧ ∃ k < t.len, t.addr.toNat / 64 + k = c.baseLine) := by
        rw [Bool.eq_iff_iff, Bool.and_eq_true, hasIndexLine_iff _ t c hcw]
        simp
      rw [hverdict, if_pos hok, hindex]
    · have hok : s.path.ringPermitted t = true :=
        hperm.2 ⟨by rw [hproc], .inr ⟨fun k hk => (hall k hk).1, fun ⟨k, hk, h⟩ => (hall k hk).2 h, hd⟩⟩
      rw [hverdict, if_pos hok, hd]
      rfl
    · have hbad : ¬ s.path.ringPermitted t = true := by
        rw [hperm]
        rintro ⟨-, ⟨hin, -⟩ | ⟨-, -, hread⟩⟩
        · exact (hall k hk).2 (hin k hk)
        · simp [hread] at hd
      rw [hverdict, if_neg hbad]
    · intro k₁ hk₁ hout₁ k₂ hk₂ hout₂
      have hbad : ¬ s.path.ringPermitted t = true := by
        rw [hperm]
        rintro ⟨-, ⟨hin, -⟩ | ⟨hin, -⟩⟩
        · exact hout₁ (hin k₁ hk₁)
        · exact hout₂ (hin k₂ hk₂)
      rw [hverdict, if_neg hbad]
    · have hbad : ¬ s.path.ringPermitted t = true := fun h => hproc (by simpa using (hperm.1 h).1)
      rw [hverdict, if_neg hbad]

/-- Settles O14: each premise picks the branch of steps 5 to 9w. -/
theorem regionChecks : Obligations.RegionChecks := by
  unfold Obligations.RegionChecks
  intro s t ha hc hf hw hr
  rw [s.examine_match ha hc hf hw hr]
  refine ⟨fun hh => by simp [State.examineMatch, hh], fun hh => ⟨fun hnone => ?_, ?_⟩⟩
  · rw [s.examineMatch_none t hh (s.rgt.matched?_eq_none _ hnone), State.examineMiss]
    exact ⟨fun hp => by rw [if_pos hp]; rfl, fun hp => by rw [if_neg (by simp [hp])]; rfl⟩
  · intro i e he hb he' hlow
    dsimp only
    rw [s.examineMatch_some t i e hh (s.rgt.matched?_eq_some _ i e he ⟨hb, he'⟩ hlow) he, ← e.permits_eq, ← e.view_eq]
    refine ⟨s.examineEntry_barred t i e, s.examineEntry_plain t i e, fun j hp hj hm => ?_⟩
    rw [s.examineEntry_job t i e j hp hj]
    refine ⟨s.examineJob_barred t i e j, fun hs => ?_⟩
    rw [s.examineJob_unmarked t i e j hs hm]
    refine ⟨fun h₁ h₂ ⟨l, hl, hne⟩ => if_pos ⟨h₁, h₂, fun hw => hne ((wholeLines_iff t).1 hw l hl)⟩, fun h => if_neg ?_⟩
    rintro ⟨h₁, h₂, h₃⟩
    exact h₃ ((wholeLines_iff t).2 (h h₁ h₂))

end Sys2Proof.Proofs
end

