-- ==== Sys2Proof/Proofs/EventEnds.lean ====
section
/-!
The end of an event in the terms of the statements (`quietly`, `reported`), and how nothing becomes due: a taken tracker slot, a raised
count and a changed current context without due records make nothing due.
-/

namespace Sys2Proof.Machine

/-! ## Tables -/

theorem all_toList_iff {α : Type} {n : Nat} (v : Vector α n) (p : α → Bool) :
    v.toList.all p = true ↔ ∀ i : Fin n, p v[i] = true := by
  simp only [List.all_eq_true, Vector.mem_toList_iff, Vector.mem_iff_getElem]
  constructor
  · intro h i
    exact h _ ⟨i, i.isLt, rfl⟩
  · rintro h x ⟨i, hi, rfl⟩
    exact h ⟨i, hi⟩

theorem get_set {α : Type} {n : Nat} (v : Vector α n) (i k : Fin n) (x : α) :
    (v.set i x)[k] = if k = i then x else v[k] := upd_get v i k fun _ => x

theorem freeSlot?_free {α : Type} {n : Nat} {v : Vector (Option α) n} {i : Fin n} (h : freeSlot? v = some i) :
    v[i] = none := by
  simpa using List.find?_some h

theorem freeSlot?_isSome_iff {α : Type} {n : Nat} (v : Vector (Option α) n) :
    (freeSlot? v).isSome = true ↔ ∃ i : Fin n, v[i] = none := by
  simp [freeSlot?, List.find?_isSome]

/-! ## Events -/

theorem State.still_iff (s : State) :
    s.still = true ↔ s.rci.standby = .running ∧ s.rci.faultWaiting = false ∧ s.nothingDue = true := by
  simp [State.still, and_assoc]

theorem State.still_of_resting {s : State} (h : s.resting = true) : s.powered = true ∧ s.still = true := by
  obtain ⟨hp, hr, hf, hn⟩ := s.resting_iff.1 h
  exact ⟨hp, s.still_iff.2 ⟨hr, hf, hn⟩⟩

theorem event_powered {s : State} {body : State → State} (hp : s.powered = true) :
    event body s = .next (body s.beginEvent).endEvent := by
  simp [event, hp]

/-- The end of an event that hands two reports, which find their entries. -/
theorem State.endEvent_two (s : State) (h : s.nothingDue = true) (hr : s.rci.standby = .running)
    (hf : s.rci.faultWaiting = false) {x y : Handed} (hh : s.handed = [x, y]) (ho : joinOrder [x, y] = [x, y])
    (hx : s.rci.hasEntry x.usesHeld = true)
    (hy : ({ (s.rci.joined x.body x.tag s.ms) with held := s.rci.held && !x.usesHeld } : Rci).hasEntry y.usesHeld = true) :
    s.endEvent = { s with
      handed := []
      rci := { (({ (s.rci.joined x.body x.tag s.ms) with held := s.rci.held && !x.usesHeld } : Rci).joined y.body y.tag s.ms) with
        held := s.rci.held && !x.usesHeld && !y.usesHeld } } := by
  have hy' := hy
  simp only [Rci.joined] at hy'
  rw [s.endEvent_eq h hr hf, hh, ho]
  simp only [List.foldl_cons, List.foldl_nil, State.joinOne, State.joinAt, hx, if_true, hy', Rci.joined]
  rfl

/-- An event that ends still, and hands nothing, leaves what its effect left. -/
theorem event_quietly {s : State} {body : State → State} (hp : s.powered = true) (hs : (body s.beginEvent).still = true)
    (hh : (body s.beginEvent).handed = []) : event body s = .next (body s.beginEvent) := by
  obtain ⟨hr, hf, hn⟩ := State.still_iff _ |>.1 hs
  simp only [event, hp, if_true, State.endEvent_quiet _ hn hr hf hh]

/-- An event that ends still, and hands one report for which there is an entry. -/
theorem event_reported {s : State} {body : State → State} {b : ReportBody} {tag : BitVec 16} (hp : s.powered = true)
    (hs : (body s.beginEvent).still = true) (he : (body s.beginEvent).rci.hasEntry false = true)
    (hh : (body s.beginEvent).handed = [⟨b, tag, false⟩]) :
    event body s = .next ((body s.beginEvent).reported b tag (body s.beginEvent).out) := by
  obtain ⟨hr, hf, hn⟩ := State.still_iff _ |>.1 hs
  simp only [event, hp, if_true, State.endEvent_one _ hn hr hf _ hh he]
  simp [State.reported, Rci.joined]

/-! ## Nothing becomes due -/

/-- Nothing is due after a change that leaves WPE alone, settles nothing, and neither makes a commit nor a leaving due, nor a range
quiet. -/
theorem State.still_mono {s t : State} (h : s.still = true) (hr : t.rci.standby = s.rci.standby)
    (hf : t.rci.faultAt = s.rci.faultAt) (hm : t.jct.metered = true)
    (hc : t.rgt.commitDue = true → s.rgt.commitDue = true) (hw : t.wpe = s.wpe)
    (hl : ∀ j, t.mayLeave j = true → s.mayLeave j = true)
    (hq : ∀ base count, t.quiet base count = true → s.quiet base count = true) : t.still = true := by
  obtain ⟨hrun, hfault, hn⟩ := s.still_iff.1 h
  obtain ⟨-, h2, h3, h4, h5, -, -⟩ := s.nothingDue_iff.1 hn
  have hfw : t.rci.faultWaiting = false := by simpa [Rci.faultWaiting, hf] using hfault
  have hrun' : t.rci.standby = .running := hr.trans hrun
  refine t.still_iff.2 ⟨hrun', hfw, t.nothingDue_iff.2 ⟨hm, ?_, by rw [hw]; exact h3, fun j => ?_, ?_, ?_, by simp [hfw]⟩⟩
  · rw [← Bool.not_eq_true] at h2 ⊢
    exact fun hd => h2 (hc hd)
  · rw [← Bool.not_eq_true]
    exact fun hd => by simpa [h4 j] using hl j hd
  · cases hqu : s.wpe.queue with
    | nil => simp [State.wipeStartDue, hw, hqu]
    | cons e rest =>
      have hnot : ¬ ((e.progress == .waiting) = true ∧ s.quiet e.base e.count = true) := by
        simpa [State.wipeStartDue, hqu] using h5
      rw [← Bool.not_eq_true]
      intro hd
      simp only [State.wipeStartDue, hw, hqu, Bool.and_eq_true] at hd
      exact hnot ⟨hd.1, hq _ _ hd.2⟩
  · simp [State.standbySettled, hrun']

/-- What a change must leave for a still state to stay still. -/
theorem State.still_congr {s t : State} (h : s.still = true) (hr : t.rci.standby = s.rci.standby)
    (hf : t.rci.faultAt = s.rci.faultAt) (h1 : t.jct = s.jct) (h2 : t.rgt = s.rgt) (h4 : t.wpe = s.wpe)
    (h5 : t.path.reads = s.path.reads) (h6 : t.path.writes = s.path.writes) (h7 : t.down.orphans = s.down.orphans) :
    t.still = true := by
  obtain ⟨hrun, hfault, hn⟩ := s.still_iff.1 h
  have hfw : t.rci.faultWaiting = false := by simpa [Rci.faultWaiting, hf] using hfault
  exact t.still_iff.2 ⟨hr.trans hrun, hfw,
    State.nothingDue_congr hn (hr.trans hrun) hfw h1 (by rw [h2]) (by rw [h2]) (by rw [h4]) h5 h6 h7⟩

/-! ## Contexts and due records -/

theorem Jobs.metered_iff (j : Jobs) : j.metered = true ↔
    (∀ m ∈ j.contexts, ∀ r ∈ m.ctx.queue, r.isDue = false) ∧ ∀ i : Fin 16, ∀ c ∈ (j.slots[i]).own, c.queue ≠ [] := by
  rw [Jobs.metered, Bool.and_eq_true, all_toList_iff, List.isEmpty_iff, Jobs.due, List.flatMap_eq_nil_iff]
  refine and_congr (forall₂_congr fun m _ => ?_) (forall_congr' fun i => ?_)
  · simp [List.filter_eq_nil_iff]
  · cases (j.slots[i]).own <;> simp

/-- The contexts of a part are those of the marking job, the stack and the slots. -/
theorem Jobs.mem_contexts_iff (j : Jobs) (m : Marked) : m ∈ j.contexts ↔
    m ∈ j.marking ∨ m ∈ j.stack ∨ ∃ i : Fin 16, ∃ c ∈ (j.slots[i]).own, m = ⟨i, c⟩ := by
  simp only [Jobs.contexts, List.mem_append, Option.mem_toList, List.mem_filterMap, List.mem_finRange, true_and,
    Option.map_eq_some_iff, or_assoc, Option.mem_def]
  refine or_congr Iff.rfl (or_congr Iff.rfl (exists_congr fun i => exists_congr fun c => ?_))
  exact and_congr Iff.rfl eq_comm

/-- The contexts depend on the slots through their own contexts alone. -/
theorem Jobs.contexts_congr {j k : Jobs} (hm : k.marking = j.marking) (hs : k.stack = j.stack)
    (ho : ∀ i : Fin 16, (k.slots[i]).own = (j.slots[i]).own) : k.contexts = j.contexts := by
  simp only [Jobs.contexts, hm, hs, ho]

theorem Jobs.metered_congr {j k : Jobs} (h : j.metered = true) (hm : k.marking = j.marking) (hs : k.stack = j.stack)
    (ho : ∀ i : Fin 16, (k.slots[i]).own = (j.slots[i]).own) : k.metered = true := by
  rw [Jobs.metered_iff] at h ⊢
  rw [Jobs.contexts_congr hm hs ho]
  exact ⟨h.1, fun i c hc => h.2 i c (ho i ▸ hc)⟩

/-- A new current context without due records leaves nothing to settle. -/
theorem Jobs.metered_marking {j : Jobs} (h : j.metered = true) (m : Marked)
    (hq : m.ctx.queue.all (fun r => !r.isDue) = true) : ({ j with marking := some m } : Jobs).metered = true := by
  rw [Jobs.metered_iff] at h ⊢
  refine ⟨fun x hx r hr => ?_, h.2⟩
  rcases (Jobs.mem_contexts_iff _ x).1 hx with hx | hx | hx
  · obtain rfl : m = x := by simpa using hx
    simpa using List.all_eq_true.1 hq r hr
  · exact h.1 x ((j.mem_contexts_iff x).2 (.inr (.inl hx))) r hr
  · exact h.1 x ((j.mem_contexts_iff x).2 (.inr (.inr hx))) r hr

/-! ## Counts -/

theorem counted_job (s : State) (e : Option (Fin 32)) (j : Option (Fin 16)) (k : Fin 16) :
    (s.counted e j).job k = { s.job k with refs := (s.job k).refs + if j = some k then 1 else 0 } := by
  cases j with
  | none => simp [State.counted, State.job]
  | some j =>
    simp only [State.counted, State.job, Option.some.injEq]
    rw [get_set]
    by_cases h : k = j
    · subst h; simp
    · simp [h, Ne.symm h]

theorem counted_inFlight (s : State) (e : Option (Fin 32)) (j : Option (Fin 16)) (k : Fin 32) :
    (s.counted e j).rgt.inFlight[k] = s.rgt.inFlight[k] + if e = some k then 1 else 0 := by
  cases e with
  | none => simp [State.counted]
  | some i =>
    simp only [State.counted, Option.some.injEq]
    rw [get_set]
    by_cases h : k = i
    · subst h; simp
    · simp [h, Ne.symm h]

theorem counted_commit (s : State) (e : Option (Fin 32)) (j : Option (Fin 16)) :
    (s.counted e j).rgt.commit = s.rgt.commit := by
  cases e <;> rfl

theorem counted_marking (s : State) (e : Option (Fin 32)) (j : Option (Fin 16)) :
    (s.counted e j).jct.marking = s.jct.marking ∧ (s.counted e j).jct.stack = s.jct.stack := by
  cases j <;> exact ⟨rfl, rfl⟩

theorem Regions.commitDue_iff (g : Regions) :
    g.commitDue = true ↔ ∃ c, g.commit = some c ∧ ∀ i ∈ c.changed, g.inFlight[i] = 0 := by
  unfold Regions.commitDue
  split <;> simp_all

theorem State.quiet_iff (s : State) (base count : Nat) : s.quiet base count = true ↔
    (∀ i : Fin 32, ∀ r ∈ s.path.reads[i], addrIn r.addr base count = false)
      ∧ (∀ i : Fin 32, ∀ w ∈ s.path.writes[i], addrIn w.addr base count = false)
      ∧ ∀ o ∈ s.down.orphans, addrIn o.addr base count = false := by
  rw [State.quiet, Bool.and_eq_true, Bool.and_eq_true, all_toList_iff, all_toList_iff, and_assoc]
  refine and_congr (forall_congr' fun i => ?_) (and_congr (forall_congr' fun i => ?_) (by simp))
  · cases s.path.reads[i] <;> simp
  · cases s.path.writes[i] <;> simp

/-- A range that is quiet with one more tracker slot taken was quiet before. -/
theorem State.quiet_of_placed {s t : State} (hr : ∀ i : Fin 32, ∀ r ∈ s.path.reads[i], r ∈ t.path.reads[i])
    (hw : ∀ i : Fin 32, ∀ w ∈ s.path.writes[i], w ∈ t.path.writes[i]) (ho : t.down.orphans = s.down.orphans)
    (base count : Nat) (h : t.quiet base count = true) : s.quiet base count = true := by
  rw [State.quiet_iff] at h ⊢
  obtain ⟨h1, h2, h3⟩ := h
  exact ⟨fun i r hi => h1 i r (hr i r hi), fun i w hi => h2 i w (hw i w hi), fun o hi => h3 o (ho ▸ hi)⟩

/-- A slot taken and its counts raised make nothing due. -/
theorem State.still_counted {s t : State} (h : s.still = true) (e : Option (Fin 32)) (j : Option (Fin 16))
    (hr : t.rci.standby = s.rci.standby) (hf : t.rci.faultAt = s.rci.faultAt) (hw : t.wpe = s.wpe) (hg : t.rgt = s.rgt)
    (hm : t.jct.metered = true) (hj : ∀ k, t.job k = s.job k) (hmark : ∀ k, t.jct.isMarking k = s.jct.isMarking k)
    (hstack : t.jct.stack = s.jct.stack)
    (hreads : ∀ i : Fin 32, ∀ r ∈ s.path.reads[i], r ∈ t.path.reads[i])
    (hwrites : ∀ i : Fin 32, ∀ w ∈ s.path.writes[i], w ∈ t.path.writes[i]) (ho : t.down.orphans = s.down.orphans) :
    (t.counted e j).still = true := by
  obtain ⟨hcm, hcs⟩ := counted_marking t e j
  refine State.still_mono h hr hf ?_ ?_ hw ?_ ?_
  · refine Jobs.metered_congr hm hcm hcs fun i => ?_
    show ((t.counted e j).job i).own = (t.job i).own
    rw [counted_job]
  · rw [Regions.commitDue_iff, Regions.commitDue_iff, counted_commit, hg]
    rintro ⟨c, hc, hz⟩
    refine ⟨c, hc, fun i hi => ?_⟩
    have := hz i hi
    rw [counted_inFlight, hg] at this
    omega
  · intro k
    have hroom : (t.counted e j).wpe.room = s.wpe.room := by rw [← hw]; rfl
    have hmk : (t.counted e j).jct.isMarking k = s.jct.isMarking k := by
      rw [← hmark, Jobs.isMarking, Jobs.isMarking, hcm]
    have hsk : (t.counted e j).jct.isStacked k = s.jct.isStacked k := by
      rw [Jobs.isStacked, Jobs.isStacked, hcs, hstack]
    simp only [State.mayLeave, counted_job, hj, hroom, hmk, hsk, Bool.and_eq_true, beq_iff_eq]
    rintro ⟨⟨⟨⟨⟨h1, h2⟩, h3⟩, h4⟩, h5⟩, h6⟩
    exact ⟨⟨⟨⟨⟨h1, by omega⟩, h3⟩, h4⟩, h5⟩, h6⟩
  · exact State.quiet_of_placed hreads hwrites ho

end Sys2Proof.Machine
end

