-- ==== Sys2Proof/Proofs/Taking.lean ====
section
/-!
What each verdict does to the part, the same for a transaction from the port and for a released one: denied, accepted, held, refused
QUOTA. Settles O16, O17, O18, O19 and O21.
-/

namespace Sys2Proof.Machine

/-! ## Denied (R19, R20) -/

theorem Path.admits_iff (p : Path) (x : Denial) (d : Dir) :
    p.admits x d = true ↔ x.reason ≠ .closed ∧ (p.captureMode = .any ∨ d = .write) := by
  simp [Path.admits]

theorem Denial.answer_eq (x : Denial) (t : Txn) : x.answer t =
    .response t.id t.dir (x.behaviour != .error) (if t.dir = .read then List.replicate t.len onesLine else []) := by
  cases h : t.dir <;> simp [Denial.answer, h]

/-- What a denial can do: it changes the Violation Capture alone, answers, and hands one report or none. -/
theorem State.deny_cases (s : State) (t : Txn) (x : Denial) : ∃ (c : Option CaptureRec) (n : Nat),
    let v : State := { s with path := { s.path with capture := c, captureCount := n } }
    (∃ b, s.deny t x = (v.give (x.answer t)).hand b ∧ s.denied t x = v.reported b 0 [x.answer t])
    ∨ (s.deny t x = v.give (x.answer t) ∧ s.denied t x = v.quietly [x.answer t]) := by
  by_cases ha : x.reason ≠ .closed ∧ (s.path.captureMode = .any ∨ t.dir = .write)
  · have ha' := (s.path.admits_iff x t.dir).2 ha
    refine ⟨some (s.path.capture.getD (x.record t)), min 65535 (s.path.captureCount + 1), ?_⟩
    unfold State.denied
    rw [if_pos ha, ← x.answer_eq]
    by_cases hc : s.path.capture = none
    · have hc' := Option.isNone_iff_eq_none.2 hc
      rw [if_pos hc]
      exact .inl ⟨.violation true (x.record t), by simp only [State.deny, State.give_path, ha', hc', if_true]; rfl, rfl⟩
    · have hc' := mt Option.isNone_iff_eq_none.1 hc
      rw [if_neg hc]
      by_cases hb : x.behaviour = .trap
      · rw [if_pos hb]
        exact .inl ⟨.violation false (x.record t),
          by simp only [State.deny, State.give_path, ha', hc', hb, Bool.false_eq_true, if_true, if_false]; rfl, rfl⟩
      · rw [if_neg hb]
        exact .inr ⟨by simp only [State.deny, State.give_path, ha', hc', hb, Bool.false_eq_true, if_true, if_false]; rfl, rfl⟩
  · have ha' := mt (s.path.admits_iff x t.dir).1 ha
    refine ⟨s.path.capture, s.path.captureCount, ?_⟩
    unfold State.denied
    rw [if_neg ha, ← x.answer_eq]
    by_cases hb : x.behaviour = .trap
    · rw [if_pos hb]
      exact .inl ⟨.violation false (x.record t), by simp only [State.deny, State.give_path, ha', hb, Bool.false_eq_true, if_true, if_false], rfl⟩
    · rw [if_neg hb]
      exact .inr ⟨by simp only [State.deny, State.give_path, ha', hb, Bool.false_eq_true, if_false], rfl⟩

/-- An event whose effect is a denial at a part that is still. -/
theorem event_denied {s u : State} {body : State → State} {t : Txn} {x : Denial} (hp : s.powered = true)
    (hu : u.still = true) (he : u.rci.hasEntry false = true) (ho : u.out = []) (hh : u.handed = [])
    (hb : body s.beginEvent = u.deny t x) : event body s = .next (u.denied t x) := by
  obtain ⟨c, n, ⟨b, hdeny, hdenied⟩ | ⟨hdeny, hdenied⟩⟩ := u.deny_cases t x
  · rw [event_reported (b := b) (tag := 0) hp, hb, hdeny, hdenied]
    · simp [State.reported, ho]
    · rw [hb, hdeny]; exact State.still_congr hu rfl rfl rfl rfl rfl rfl rfl rfl
    · rw [hb, hdeny]; exact he
    · rw [hb, hdeny]; simp [hh]
  · rw [event_quietly hp, hb, hdeny, hdenied]
    · simp [State.quietly, State.give, ho, hh]
    · rw [hb, hdeny]; exact State.still_congr hu rfl rfl rfl rfl rfl rfl rfl rfl
    · rw [hb, hdeny]; simp [hh]

/-! ## Accepted (R9, R22, R24, R35) -/

theorem State.acceptEffects_unmetered (s : State) (e : Option (Fin 32)) (j : Option (Fin 16)) (v : View) (x : Bool) :
    s.acceptEffects ⟨e, j, v, x, none⟩ = s.counted e j := by
  cases e <;> cases j <;> rfl

/-- A read that is accepted without a trial (R22). -/
theorem State.accept_read (s : State) {t : Txn} {e : Option (Fin 32)} {j : Option (Fin 16)} {v : View} {x : Bool} {i : Fin 32}
    (hd : t.dir = .read) (hi : freeSlot? s.path.reads = some i) : s.accept t ⟨e, j, v, x, none⟩ =
      (s.placeRead i ⟨t.id, t.source, t.addr, t.len, e, j, v, List.replicate t.len .none, none⟩).counted e j := by
  simp only [State.accept, hd, hi, State.acceptEffects_unmetered]
  rfl

/-- The data forwarded for a write (R35): as written, with full masks, or enciphered line by line with the job's key. -/
theorem forwardedLines_eq {s : State} {v : View} {j : Option (Fin 16)} {a : Addr} {ls out : List WriteLine}
    (hnone : v = .none → out = ls) (hraw : v = .raw → out = ls.map fun l => ⟨l.data, fullMask⟩)
    (hplain : v = .plain → ∃ (q : Fin 16) (k : Key), j = some q ∧ s.keys[q] = some k
      ∧ out = ls.mapIdx fun n l => ⟨Config.lineCipher k (a + BitVec.ofNat 36 (64 * n)) l.data, fullMask⟩) :
    forwardedLines v (s.keyOf j) a ls = out := by
  cases v with
  | none => exact (hnone rfl).symm
  | raw => exact (hraw rfl).symm
  | plain =>
    obtain ⟨q, k, rfl, hk, rfl⟩ := hplain rfl
    have hkey : s.keyOf (some q) = some k := hk
    rw [hkey]
    rfl

/-- A write that is accepted (R24). -/
theorem State.accept_write (s : State) {t : Txn} {e : Option (Fin 32)} {j : Option (Fin 16)} {v : View} {x : Bool} {i : Fin 32}
    {out : List WriteLine} (hd : t.dir = .write) (hi : freeSlot? s.path.writes = some i)
    (hout : forwardedLines v (s.keyOf j) t.addr t.writeLines = out) : s.accept t ⟨e, j, v, x, none⟩ =
      (s.placeWrite i ⟨t.id, t.source, t.addr, out, e, j, v, x⟩).counted e j := by
  simp only [State.accept, hd, hi, State.acceptEffects_unmetered, Accept.writeSlot, hout]

/-- A metered read that is accepted after a trial that settled no record (R67, R71, R98). -/
theorem State.accept_metered (s : State) {t : Txn} {e : Fin 32} {j : Fin 16} {v : View} {tr : Trial} {p : Fin 4}
    {depth reserve : Nat} {i : Fin 32} {m : Marked} (hd : t.dir = .read) (hi : freeSlot? s.path.reads = some i)
    (hm : s.jct.marking = some m) (hset : tr.settled = []) :
    s.accept t ⟨some e, some j, v, false, some (tr, p, depth, reserve)⟩ =
      ({ s.placeRead i ⟨t.id, t.source, t.addr, t.len, some e, some j, v, tr.marks, some (p, depth)⟩ with
        jct := { s.jct with marking := some ⟨m.job, tr.ctx⟩ }
        rmu := tr.rmu
        ace := s.ace.modReserved (s.job j).user (· + tr.openedNow * reserve) } : State).counted (some e) (some j) := by
  have huser : ((upd s.jct.slots j fun q => { q with refs := q.refs + 1 })[j]).user = (s.jct.slots[j]).user := by
    rw [upd_get_same]
  simp only [State.accept, hd, hi, State.acceptEffects, State.addRef, State.takeTrial, hset, List.isEmpty_nil, if_true,
    State.modJob, State.job, State.placeRead, hm, Option.map_some, huser]
  rfl

theorem mem_set_of_free {α : Type} {n : Nat} {v : Vector (Option α) n} {i : Fin n} (hi : v[i] = none) (x : Option α)
    (k : Fin n) (r : α) (hr : r ∈ v[k]) : r ∈ (v.set i x)[k] := by
  rw [get_set, if_neg]
  · exact hr
  · rintro rfl
    simp [hi] at hr

/-- A free Read Tracker slot taken makes nothing due. -/
theorem State.still_placeRead {s : State} (h : s.still = true) {i : Fin 32} (hi : freeSlot? s.path.reads = some i)
    (r : ReadSlot) (e : Option (Fin 32)) (j : Option (Fin 16)) : ((s.placeRead i r).counted e j).still = true :=
  State.still_counted h e j rfl rfl rfl rfl (State.nothingDue_iff s |>.1 (s.still_iff.1 h).2.2).1 (fun _ => rfl) (fun _ => rfl)
    rfl (mem_set_of_free (freeSlot?_free hi) _) (fun _ _ hw => hw) rfl

/-- A free Write Tracker slot taken makes nothing due. -/
theorem State.still_placeWrite {s : State} (h : s.still = true) {i : Fin 32} (hi : freeSlot? s.path.writes = some i)
    (w : WriteSlot) (e : Option (Fin 32)) (j : Option (Fin 16)) : ((s.placeWrite i w).counted e j).still = true :=
  State.still_counted h e j rfl rfl rfl rfl (State.nothingDue_iff s |>.1 (s.still_iff.1 h).2.2).1 (fun _ => rfl) (fun _ => rfl)
    rfl (fun _ _ hr => hr) (mem_set_of_free (freeSlot?_free hi) _) rfl

/-- An accepted metered read makes nothing due where the trial leaves no record due. -/
theorem State.still_metered {s : State} (h : s.still = true) {i : Fin 32} (hi : freeSlot? s.path.reads = some i)
    (r : ReadSlot) (e : Option (Fin 32)) (j : Option (Fin 16)) {m : Marked} (hm : s.jct.marking = some m) {c : Context}
    (hc : c.queue.all (fun r => !r.isDue) = true) (mu : Rmu) (a : Ace) :
    (({ s.placeRead i r with jct := { s.jct with marking := some ⟨m.job, c⟩ }, rmu := mu, ace := a } : State).counted
      e j).still = true := by
  refine State.still_counted h e j rfl rfl rfl rfl ?_ (fun _ => rfl) (fun k => ?_) rfl
    (mem_set_of_free (freeSlot?_free hi) _) (fun _ _ hw => hw) rfl
  · exact Jobs.metered_marking (State.nothingDue_iff s |>.1 (s.still_iff.1 h).2.2).1 ⟨m.job, c⟩ hc
  · simp [Jobs.isMarking, hm]

/-! ## Held (R17, R77) -/

/-- The current context after the one force-close of R77 has no due record, if the changed queue has none. -/
theorem State.still_makeRoom {s t : State} (h : s.still = true) {m : Marked} {c : Context} (hm : s.jct.marking = some m)
    (hc : c.queue.all (fun r => !r.isDue) = true)
    (ht : t.rci = s.rci ∧ t.rgt = s.rgt ∧ t.wpe = s.wpe ∧ t.down = s.down) (hr : t.path.reads = s.path.reads)
    (hw : t.path.writes = s.path.writes) (hj : t.jct = { s.jct with marking := some ⟨m.job, c⟩ }) : t.still = true := by
  obtain ⟨hrci, hrgt, hwpe, hdown⟩ := ht
  refine State.still_mono h (by rw [hrci]) (by rw [hrci]) ?_ (by rw [hrgt]; exact id) hwpe (fun k => ?_) ?_
  · rw [hj]
    exact Jobs.metered_marking (State.nothingDue_iff s |>.1 (s.still_iff.1 h).2.2).1 ⟨m.job, c⟩ hc
  · simp [State.mayLeave, State.job, hj, hwpe, Wpe.room, Jobs.isMarking, Jobs.isStacked, hm]
  · exact State.quiet_of_placed (fun _ _ hi => hr ▸ hi) (fun _ _ hi => hw ▸ hi) (by rw [hdown])

theorem Jobs.makeRoom_eq (j : Jobs) {m : Marked} (h : j.marking = some m) :
    j.makeRoom = { j with marking := some ⟨m.job, m.ctx.makeRoom⟩ } := by
  simp [Jobs.makeRoom, h]

/-! ## Refused QUOTA (R49) -/

/-- QUOTA for a read at a capture that is already valid: the count may rise, the job is HELD, and JOB_HELD is handed. -/
theorem State.quotaDenied_eq (s : State) {t : Txn} (i : Fin 32) (j : Fin 16) (hd : t.dir = .read)
    (hc : s.path.capture.isSome = true) : s.quotaDenied t i j =
      ((({ s with
        path := { s.path with
          captureCount := if s.path.captureMode = .any then min 65535 (s.path.captureCount + 1) else s.path.captureCount }
        jct := { s.jct with slots := s.jct.slots.set j { s.jct.slots[j] with state := .held .quota } } } : State).give
          (.response t.id .read false (List.replicate t.len onesLine))).hand
        (.jobHeld j (s.job j).nonce (s.job j).user .quota)) := by
  obtain ⟨c, hc⟩ := Option.isSome_iff_exists.1 hc
  have hnone : ¬ s.path.capture.isNone = true := by simp [hc]
  have htrap : ¬ Behaviour.error = .trap := by decide
  by_cases hm : s.path.captureMode = .any
  · have ha := (s.path.admits_iff ⟨.quota, .error, .entry i⟩ .read).2 ⟨by simp, .inl hm⟩
    have hcap : s.path.capture1 (Denial.record ⟨.quota, .error, .entry i⟩ t)
        = { s.path with captureCount := min 65535 (s.path.captureCount + 1) } := by simp [Path.capture1, hc]
    simp only [State.quotaDenied, State.deny, State.give_path, ha, hnone, htrap, hcap, if_pos hm, Bool.false_eq_true,
      if_true, if_false, Denial.answer, hd]
    rfl
  · have ha : ¬ s.path.admits ⟨.quota, .error, .entry i⟩ .read = true := by simp [Path.admits_iff, hm]
    simp only [State.quotaDenied, State.deny, State.give_path, ha, htrap, if_neg hm, Bool.false_eq_true, if_false,
      Denial.answer, hd]
    rfl

/-- A job that becomes HELD makes nothing due. -/
theorem State.still_held {s t : State} (h : s.still = true) (j : Fin 16) (why : HoldReason)
    (ht : t.rci = s.rci ∧ t.rgt = s.rgt ∧ t.wpe = s.wpe ∧ t.down = s.down) (hr : t.path.reads = s.path.reads)
    (hw : t.path.writes = s.path.writes)
    (hj : t.jct = { s.jct with slots := s.jct.slots.set j { s.jct.slots[j] with state := .held why } }) :
    t.still = true := by
  obtain ⟨hrci, hrgt, hwpe, hdown⟩ := ht
  have hjob : ∀ k, t.job k = if k = j then { s.job j with state := .held why } else s.job k := fun k => by
    rw [State.job, hj]
    exact get_set s.jct.slots j k _
  refine State.still_mono h (by rw [hrci]) (by rw [hrci]) ?_ (by rw [hrgt]; exact id) hwpe (fun k => ?_) ?_
  · refine Jobs.metered_congr (State.nothingDue_iff s |>.1 (s.still_iff.1 h).2.2).1 (by rw [hj]) (by rw [hj]) fun k => ?_
    show (t.job k).own = (s.job k).own
    rw [hjob]
    split
    · next hk => rw [hk]
    · rfl
  · by_cases hk : k = j
    · simp [State.mayLeave, hjob, hk]
    · simp [State.mayLeave, hjob, hk, hj, hwpe, Wpe.room, Jobs.isMarking, Jobs.isStacked]
  · exact State.quiet_of_placed (fun _ _ hi => hr ▸ hi) (fun _ _ hi => hw ▸ hi) (by rw [hdown])

/-! ## Taken from the port (R3, R5) -/

theorem exec_takeTransaction (d : Dir) (x : Option Txn) (s : State) :
    exec (.takeTransaction d x) s = event (fun t => (t.present x).takePort d) s := rfl

/-- The part as a transaction has just left the port. -/
def State.popped (s : State) (d : Dir) (rest : List Txn) : State :=
  { s.beginEvent with path := s.path.setPort d rest }

theorem State.examine_popped (s : State) (d : Dir) (rest : List Txn) (t : Txn) :
    (s.popped d rest).examine t = s.examine t := by
  cases d <;> rfl

theorem State.still_popped {s : State} (h : s.still = true) (d : Dir) (rest : List Txn) :
    (s.popped d rest).still = true := by
  cases d <;> exact State.still_congr h rfl rfl rfl rfl rfl rfl rfl rfl

/-- PFE takes the head of a channel: the verdict on it is carried out on the part without it. -/
theorem State.takePort_eq (s : State) {d : Dir} {t : Txn} {rest : List Txn} (hport : s.path.port d = t :: rest)
    (hmay : s.path.mayTake d = true) : (s.beginEvent.present none).takePort d =
      ((s.popped d rest).resolve t (s.examine t)).1.joinHold t ((s.popped d rest).resolve t (s.examine t)).2 := by
  have h₁ : (s.beginEvent.present none).path.port d = t :: rest := hport
  have h₂ : (s.beginEvent.present none).path.mayTake d = true := hmay
  simp only [State.takePort, h₁, h₂, if_true]
  rw [← s.examine_popped d rest t]
  rfl

/-- PFE takes nothing while it may not (R3). -/
theorem State.takePort_waits (s : State) {d : Dir} (h : s.path.mayTake d = false) : s.takePort d = s := by
  unfold State.takePort
  split <;> simp [h]

/-- What a presented transaction finds: those before it on its channel (R3). -/
theorem State.present_some (s : State) (t : Txn) :
    s.present (some t) = { s with path := s.path.setPort t.dir (s.path.port t.dir ++ [t]) } := rfl

theorem Path.mayTake_eq_false (p : Path) (d : Dir)
    (h : (∃ x ∈ p.hold, x.released = true) ∨ 8 ≤ p.hold.length ∨ (d = .read ∧ ∀ i : Fin 32, p.reads[i] ≠ none)
      ∨ (d = .write ∧ ∀ i : Fin 32, p.writes[i] ≠ none)) : p.mayTake d = false := by
  rw [← Bool.not_eq_true]
  simp only [Path.mayTake, Path.hasReleased, Bool.and_eq_true, decide_eq_true_eq, Bool.not_eq_true']
  rintro ⟨⟨hrel, hlen⟩, hfree⟩
  rcases h with ⟨x, hx, hxr⟩ | h | ⟨rfl, h⟩ | ⟨rfl, h⟩
  · exact List.any_eq_false.1 hrel x hx hxr
  · omega
  · obtain ⟨i, hi⟩ := (freeSlot?_isSome_iff p.reads).1 hfree
    exact h i hi
  · obtain ⟨i, hi⟩ := (freeSlot?_isSome_iff p.writes).1 hfree
    exact h i hi

/-! ## Released transactions (R18) -/

/-- The oldest released entry is the first released one. -/
theorem splitReleased_append (before behind : List HoldEntry) (h : HoldEntry) (hr : h.released = true)
    (hb : ∀ x ∈ before, x.released = false) : splitReleased (before ++ h :: behind) = some (before, h, behind) := by
  induction before with
  | nil => simp [splitReleased, hr]
  | cons x rest ih =>
    have hx : x.released = false := hb x (by simp)
    have ih := ih fun y hy => hb y (by simp [hy])
    simp [splitReleased, hx, ih]

/-- The part as a released transaction has just left the Hold Queue. -/
def State.unheld (s : State) (hold : List HoldEntry) : State := { s.beginEvent with path := { s.path with hold := hold } }

theorem State.still_unheld {s : State} (h : s.still = true) (hold : List HoldEntry) : (s.unheld hold).still = true :=
  State.still_congr h rfl rfl rfl rfl rfl rfl rfl rfl

/-- PFE takes the oldest released transaction: the verdict on it is carried out on the part without it. -/
theorem State.takeReleased_eq (s : State) {before behind : List HoldEntry} {h : HoldEntry}
    (hhold : s.path.hold = before ++ h :: behind) (hr : h.released = true) (hb : ∀ x ∈ before, x.released = false)
    (hfree : s.path.trackerFree h.txn.dir = true) : s.beginEvent.takeReleased =
      ((s.unheld (before ++ behind)).resolve h.txn (s.examineFrom2 h.txn)).1.putHold before.length h.txn
        ((s.unheld (before ++ behind)).resolve h.txn (s.examineFrom2 h.txn)).2 := by
  have hsplit : splitReleased s.beginEvent.path.hold = some (before, h, behind) := by
    rw [State.beginEvent_path, hhold, splitReleased_append before behind h hr hb]
  have hfree' : s.beginEvent.path.trackerFree h.txn.dir = true := hfree
  simp only [State.takeReleased, hsplit, hfree', if_true]
  rfl

theorem State.takeReleased_waits (s : State) {before behind : List HoldEntry} {h : HoldEntry}
    (hhold : s.path.hold = before ++ h :: behind) (hr : h.released = true) (hb : ∀ x ∈ before, x.released = false)
    (hfree : s.path.trackerFree h.txn.dir = false) : s.takeReleased = s := by
  simp [State.takeReleased, hhold, splitReleased_append before behind h hr hb, hfree]

/-- A released transaction that is held again stands where it stood. -/
theorem putHold_between (s : State) (before behind : List HoldEntry) (t : Txn) (c : HoldCause) :
    ({ s with path := { s.path with hold := before ++ behind } } : State).putHold before.length t (some c) =
      { s with path := { s.path with hold := before ++ ⟨t, c, false⟩ :: behind } } := by
  simp [State.putHold]

end Sys2Proof.Machine

namespace Sys2Proof.Proofs
open Sys2Proof Sys2Proof.Machine

/-- Settles O16: presenting appends to the channel's list before the head is taken, and `mayTake` refuses in each of the cases. -/
theorem portWaits : Obligations.PortWaits := by
  unfold Obligations.PortWaits
  refine ⟨fun d x s hp => ?_, fun d s hs h => ?_⟩
  · have hpresent : s.beginEvent.present (some x) = State.present ({ s with path := match x.dir with
        | .read => { s.path with portReads := s.path.portReads ++ [x] }
        | .write => { s.path with portWrites := s.path.portWrites ++ [x] } } : State).beginEvent none := by
      rw [State.present_some]
      cases x.dir <;> rfl
    rw [exec_takeTransaction, exec_takeTransaction, event_powered hp, event_powered (by exact hp)]
    exact congrArg (fun u : State => Host.Outcome.next (u.takePort d).endEvent) hpresent
  · obtain ⟨hp, hstill⟩ := State.still_of_resting hs
    have hwait : (s.beginEvent.present none).takePort d = s.beginEvent :=
      State.takePort_waits _ (Path.mayTake_eq_false _ d h)
    rw [exec_takeTransaction, event_quietly hp (by rw [hwait]; exact hstill) (by rw [hwait]; rfl), hwait]
    rfl

/-- Settles O17, by what a denial can do. -/
theorem takeDenied : Obligations.TakeDenied := by
  unfold Obligations.TakeDenied
  intro d s t rest x hs he hport hmay hx
  obtain ⟨hp, hstill⟩ := State.still_of_resting hs
  have htake := s.takePort_eq hport hmay
  rw [hx] at htake
  rw [exec_takeTransaction, event_denied (u := s.popped d rest) hp (State.still_popped hstill d rest) he rfl rfl htake]
  rfl

/-- Settles O18: the verdict places a slot and raises its counts, which makes nothing due. -/
theorem takeAccepted : Obligations.TakeAccepted := by
  unfold Obligations.TakeAccepted
  refine ⟨fun s t rest e j v x i hs hport hd hmay hx hi => ?_,
    fun s t rest e j v x i ls out hs hport hop hmay hx hi hnone hraw hplain => ?_⟩
  · obtain ⟨hp, hstill⟩ := State.still_of_resting hs
    have hu := State.still_popped hstill .read rest
    have hi' : freeSlot? (s.popped .read rest).path.reads = some i := hi
    have htake := s.takePort_eq (d := .read) hport hmay
    rw [hx] at htake
    have htake := htake.trans ((s.popped .read rest).accept_read (e := e) (j := j) (v := v) (x := x) hd hi')
    rw [exec_takeTransaction, event_quietly hp (by rw [htake]; exact State.still_placeRead hu hi' _ e j)
      (by rw [htake]; rfl), htake]
    rfl
  · obtain ⟨hp, hstill⟩ := State.still_of_resting hs
    have hu := State.still_popped hstill .write rest
    have hi' : freeSlot? (s.popped .write rest).path.writes = some i := hi
    have hout : forwardedLines v ((s.popped .write rest).keyOf j) t.addr t.writeLines = out := by
      rw [writeLines_of_write hop]
      exact forwardedLines_eq hnone hraw hplain
    have htake := s.takePort_eq (d := .write) hport hmay
    rw [hx] at htake
    have htake := htake.trans ((s.popped .write rest).accept_write (e := e) (x := x) (dir_of_write hop) hi' hout)
    rw [exec_takeTransaction, event_quietly hp (by rw [htake]; exact State.still_placeWrite hu hi' _ e j)
      (by rw [htake]; rfl), htake]
    rfl

/-- Settles O19. -/
theorem takeHeld : Obligations.TakeHeld := by
  unfold Obligations.TakeHeld
  intro d s t rest hs hport hmay
  obtain ⟨hp, hstill⟩ := State.still_of_resting hs
  have hu := State.still_popped hstill d rest
  have htake := s.takePort_eq hport hmay
  have hhold : (s.path.setPort d rest).hold = s.path.hold := by cases d <;> rfl
  have hreads : (s.path.setPort d rest).reads = s.path.reads := by cases d <;> rfl
  have hwrites : (s.path.setPort d rest).writes = s.path.writes := by cases d <;> rfl
  refine ⟨fun hx => ?_, fun j m hx hm => ?_⟩
  · rw [hx] at htake
    rw [exec_takeTransaction, event_quietly hp
      (by rw [htake]; exact State.still_congr hu rfl rfl rfl rfl rfl rfl rfl rfl) (by rw [htake]; rfl), htake, ← hhold]
    rfl
  · intro ctx hdue
    rw [hx] at htake
    have hroom : (s.popped d rest).jct.makeRoom = { s.jct with marking := some ⟨m.job, ctx⟩ } :=
      Jobs.makeRoom_eq _ hm
    simp only [State.resolve, hroom] at htake
    rw [exec_takeTransaction, event_quietly hp
      (by rw [htake]; exact State.still_makeRoom hu hm hdue ⟨rfl, rfl, rfl, rfl⟩ rfl rfl rfl) (by rw [htake]; rfl),
      htake, ← hhold]
    rfl

/-- Settles O21: each verdict on the released transaction is carried out as for one from the port. -/
theorem releasedTaken : Obligations.ReleasedTaken := by
  unfold Obligations.ReleasedTaken
  intro s before behind h hs hhold hr hb
  obtain ⟨hp, hstill⟩ := State.still_of_resting hs
  have hu := State.still_unheld hstill (before ++ behind)
  have hexec : exec .releasedTaken s = event State.takeReleased s := rfl
  refine ⟨fun hfree => ?_, fun hfree => ?_⟩
  · have hwait : s.beginEvent.takeReleased = s.beginEvent := State.takeReleased_waits _ hhold hr hb hfree
    rw [hexec, event_quietly hp (by rw [hwait]; exact hstill) (by rw [hwait]; rfl), hwait]
    rfl
  have htake := s.takeReleased_eq hhold hr hb hfree
  refine ⟨fun x hx he => ?_, fun hx => ?_, fun e j v x i hx hd hi => ?_, ?_, ?_, ?_, ?_⟩
  · rw [hx] at htake
    rw [hexec, event_denied (u := s.unheld (before ++ behind)) hp hu he rfl rfl htake]
    rfl
  · rw [hx] at htake
    have hput : s.beginEvent.takeReleased = s.unheld (before ++ ⟨h.txn, .commit, false⟩ :: behind) :=
      htake.trans (putHold_between s.beginEvent before behind h.txn .commit)
    rw [hexec, event_quietly hp (by rw [hput]; exact State.still_unheld hstill _) (by rw [hput]; rfl), hput]
    rfl
  · have hi' : freeSlot? (s.unheld (before ++ behind)).path.reads = some i := hi
    have hacc := (s.unheld (before ++ behind)).accept_read (e := e) (j := j) (v := v) (x := x) hd hi'
    rw [hx] at htake
    have htake := htake.trans hacc
    rw [hexec, event_quietly hp (by rw [htake]; exact State.still_placeRead hu hi' _ e j) (by rw [htake]; rfl), htake]
    rfl
  · intro e j v x i ls out hx hop hi hnone hraw hplain
    have hi' : freeSlot? (s.unheld (before ++ behind)).path.writes = some i := hi
    have hout : forwardedLines v ((s.unheld (before ++ behind)).keyOf j) h.txn.addr h.txn.writeLines = out := by
      rw [writeLines_of_write hop]
      exact forwardedLines_eq hnone hraw hplain
    have hacc := (s.unheld (before ++ behind)).accept_write (e := e) (x := x) (dir_of_write hop) hi' hout
    rw [hx] at htake
    have htake := htake.trans hacc
    rw [hexec, event_quietly hp (by rw [htake]; exact State.still_placeWrite hu hi' _ e j) (by rw [htake]; rfl), htake]
    rfl
  · intro e j v tr p depth reserve i m hx hd hi hm hset hdue
    have hi' : freeSlot? (s.unheld (before ++ behind)).path.reads = some i := hi
    have hm' : (s.unheld (before ++ behind)).jct.marking = some m := hm
    have hacc := (s.unheld (before ++ behind)).accept_metered (e := e) (j := j) (v := v) (p := p) (depth := depth)
      (reserve := reserve) hd hi' hm' hset
    rw [hx] at htake
    have htake := htake.trans hacc
    rw [hexec, event_quietly hp (by rw [htake]; exact State.still_metered hu hi' _ _ _ hm' hdue _ _)
      (by rw [htake]; rfl), htake]
    rfl
  · intro j m hx hm ctx hdue
    have hroom : (s.unheld (before ++ behind)).jct.makeRoom = { s.jct with marking := some ⟨m.job, ctx⟩ } :=
      Jobs.makeRoom_eq _ hm
    rw [hx] at htake
    simp only [State.resolve, hroom] at htake
    have hput := htake.trans
      (putHold_between { s.beginEvent with jct := { s.jct with marking := some ⟨m.job, ctx⟩ } } before behind h.txn (.assembly j))
    rw [hexec, event_quietly hp
      (by rw [hput]; exact State.still_makeRoom hstill hm hdue ⟨rfl, rfl, rfl, rfl⟩ rfl rfl rfl) (by rw [hput]; rfl), hput]
    rfl
  · intro i j hx hd he hc
    have hquota := (s.unheld (before ++ behind)).quotaDenied_eq (t := h.txn) i j hd hc
    rw [hx] at htake
    have htake := htake.trans hquota
    rw [hexec, event_reported (b := .jobHeld j (s.job j).nonce (s.job j).user .quota) (tag := 0) hp
      (by rw [htake]; exact State.still_held hu j .quota ⟨rfl, rfl, rfl, rfl⟩ rfl rfl rfl)
      (by rw [htake]; exact he) (by rw [htake]; rfl), htake]
    rfl

end Sys2Proof.Proofs
end

