-- ==== Sys2Proof/Proofs/DownstreamPort.lean ====
section
/-!
The arbiter, what a grant issues, and the completions that DN sends back. Settles O22, O23, O24, O25 and O26.
-/

namespace Sys2Proof.Machine

/-! ## The arbiter (R26) -/

theorem State.grant_noCredit (s : State) (h : s.down.credits = 0) : s.grant = s := by
  simp [State.grant, h]

theorem State.grant_idle (s : State) (hf : s.down.forwarded = []) (hi : s.down.internalList = []) : s.grant = s := by
  unfold State.grant
  rw [hf, hi]
  simp

theorem State.grant_forwarded (s : State) {f : FwdRef} {rest : List FwdRef} (hc : 0 < s.down.credits)
    (hf : s.down.forwarded = f :: rest) (h : s.down.internalList = [] ∨ s.down.run < 3) :
    s.grant = s.grantForwarded f rest := by
  unfold State.grant
  rw [if_neg (Nat.pos_iff_ne_zero.1 hc), hf]
  cases hi : s.down.internalList with
  | nil => rfl
  | cons i rest' =>
    have hrun : ¬ 3 ≤ s.down.run := by simpa [hi] using h
    exact if_neg hrun

theorem State.grant_internal (s : State) {i : Fin 8} {rest : List (Fin 8)} (hc : 0 < s.down.credits)
    (hi : s.down.internalList = i :: rest) (h : s.down.forwarded = [] ∨ 3 ≤ s.down.run) :
    s.grant = s.grantInternal i rest := by
  unfold State.grant
  rw [if_neg (Nat.pos_iff_ne_zero.1 hc), hi]
  cases hf : s.down.forwarded with
  | nil => rfl
  | cons f rest' =>
    have hrun : 3 ≤ s.down.run := by simpa [hf] using h
    exact if_pos hrun

/-! ## The pattern of a wipe (R170, R171) -/

theorem prbsRun_add (a b : Nat) (r : BitVec 23) : prbsRun (a + b) r = prbsRun b (prbsRun a r) := by
  induction a generalizing r with
  | zero => simp [prbsRun]
  | succ a ih => rw [Nat.add_right_comm, prbsRun, prbsRun, ih]

theorem patternLines_length (k n : Nat) (r : BitVec 23) : (patternLines k n r).length = n := by
  induction n generalizing r with
  | zero => rfl
  | succ n ih => simp [patternLines, ih]

/-- The `m`-th line of a pattern starts 512 bits further for each line before it. -/
theorem patternLines_getElem? (k n m : Nat) (r : BitVec 23) (h : m < n) :
    (patternLines k n r)[m]? = some (patternLine k (prbsRun (512 * m) r)) := by
  induction n generalizing m r with
  | zero => omega
  | succ n ih =>
    cases m with
    | zero => rfl
    | succ m =>
      rw [patternLines, List.getElem?_cons_succ, ih m _ (by omega), ← prbsRun_add]
      congr 3
      omega

/-! ## A slot freed (R9, R25, R26) -/

theorem State.releaseSlot_eq (s : State) (e : Option (Fin 32)) (j : Option (Fin 16)) :
    s.releaseSlot e j = s.uncounted e j := by
  cases e <;> cases j <;> rfl

/-- The marks of a read that is not metered settle nothing. -/
theorem State.settleMarks_none (s : State) {marks : List LineMark} (sums : List Nat) (h : ∀ m ∈ marks, m = .none) :
    s.settleMarks marks sums = s := by
  have hfold : ∀ (ms : List LineMark) (ds : List Nat), (∀ m ∈ ms, m = .none) →
      (ms.zip ds).foldl (fun j m => j.returnMark m.1 m.2) s.jct = s.jct := by
    intro ms
    induction ms with
    | nil => intro ds _; rfl
    | cons m ms ih =>
      intro ds hms
      obtain rfl : m = .none := hms m (by simp)
      cases ds with
      | nil => rfl
      | cons d ds => exact ih ds fun x hx => hms x (by simp [hx])
  simp only [State.settleMarks, hfold marks sums h]

theorem State.issuedRead?_eq (s : State) {i : Fin 32} (h : .read i ∉ s.down.forwarded) :
    s.issuedRead? i = s.path.reads[i] := by
  simp [State.issuedRead?, h]

theorem State.issuedWrite?_eq (s : State) {i : Fin 32} (h : .write i ∉ s.down.forwarded) :
    s.issuedWrite? i = s.path.writes[i] := by
  simp [State.issuedWrite?, h]

/-- The lines that go upstream (R34): as they came, or deciphered line by line with the job's key. -/
theorem upstreamLines_eq {s : State} {v : View} {j : Option (Fin 16)} {a : Addr} {lines up : List Line}
    (hcame : v ≠ .plain → up = lines)
    (hplain : v = .plain → ∃ (q : Fin 16) (k : Key), j = some q ∧ s.keys[q] = some k
      ∧ up = lines.mapIdx fun n y => (Config.lineCipher k (a + BitVec.ofNat 36 (64 * n))).symm y) :
    upstreamLines v (s.keyOf j) a lines = up := by
  cases v with
  | none => exact (hcame (by simp)).symm
  | raw => exact (hcame (by simp)).symm
  | plain =>
    obtain ⟨q, k, rfl, hk, rfl⟩ := hplain rfl
    have hkey : s.keyOf (some q) = some k := hk
    rw [hkey]
    rfl

/-! ## Reads that return (R23) -/

/-- The part with read slot `i` freed, its counts lowered and its credit back. -/
def State.readFreed (s : State) (i : Fin 32) (r : ReadSlot) : State :=
  ({ s with path := { s.path with reads := s.path.reads.set i none } } : State).uncounted r.entry r.job

/-- The part with write slot `i` freed, its counts lowered and its credit back. -/
def State.writeFreed (s : State) (i : Fin 32) (w : WriteSlot) : State :=
  ({ s with path := { s.path with writes := s.path.writes.set i none } } : State).uncounted w.entry w.job

/-- The return of a read that is not metered frees its slot and answers. -/
theorem State.returnRead_unmetered (s : State) (i : Fin 32) {r : ReadSlot} (okay : Bool) {lines up : List Line}
    (hm : r.meter = none) (hmarks : ∀ m ∈ r.marks, m = .none)
    (hup : upstreamLines r.view (s.keyOf r.job) r.addr lines = up) :
    s.returnRead i r okay lines = (s.readFreed i r).give (r.response okay up) := by
  have hmeter : ∀ ls, s.meterReturn r ls = s := fun ls => by
    unfold State.meterReturn
    rw [hm]
  have hlost : s.meterLost r = s := s.settleMarks_none _ hmarks
  simp only [State.returnRead, hup, hmeter, hlost, ite_self, State.releaseSlot_eq]
  rfl

theorem State.completeRead_slot (s : State) {i : Fin 32} {r : ReadSlot} {okay : Bool} {lines : List Line}
    (hr : s.path.reads[i] = some r) (hi : .read i ∉ s.down.forwarded) (hlen : okay = true → lines.length = r.len) :
    s.completeRead (.slot i) okay lines = s.returnRead i r okay lines := by
  have hlen' : (okay && lines.length != r.len) = false := by
    cases okay <;> simp_all
  simp only [State.completeRead, s.issuedRead?_eq hi, hr, hlen', Bool.false_eq_true, if_false]

theorem State.completeWrite_slot (s : State) {i : Fin 32} {w : WriteSlot} {okay : Bool}
    (hw : s.path.writes[i] = some w) (hi : .write i ∉ s.down.forwarded) :
    s.completeWriteAt (.slot i) okay = s.answerWrite i w okay := by
  simp only [State.completeWriteAt, s.issuedWrite?_eq hi, hw]

theorem State.dropOrphan_eq (s : State) {k : Nat} {o : Orphan} (h : s.down.orphans[k]? = some o) :
    s.dropOrphan k o.dir =
      { s with down := { s.down with orphans := s.down.orphans.eraseIdx k, credits := s.down.credits + 1 } } := by
  simp [State.dropOrphan, h]

/-! ## Writes that are answered (R24) -/

/-- With an anchor held, no write is offered as one (R181). -/
theorem State.offerAnchor_held (s : State) (a : Addr) (ls : List WriteLine) (h : s.rci.rings.isSome = true) :
    s.offerAnchor a ls = s := by
  obtain ⟨g, hg⟩ := Option.isSome_iff_exists.1 h
  unfold State.offerAnchor
  rw [hg]

/-- A write that is no index line write hands RCI no index values. -/
theorem State.handIndex_other (s : State) {w : WriteSlot} (h : w.indexLine = false) : s.handIndex w = s := by
  unfold State.handIndex
  split <;> simp [h]

/-- The answer frees the slot and goes upstream; an ERROR answer, and an OKAY one to a write that brings RCI nothing, do no more. -/
theorem State.answerWrite_plain (s : State) (i : Fin 32) {w : WriteSlot} {okay : Bool}
    (h : okay = false ∨ (w.indexLine = false ∧ s.rci.rings.isSome = true)) :
    s.answerWrite i w okay = (s.writeFreed i w).give (.response w.id .write okay []) := by
  rcases h with rfl | ⟨hx, hg⟩
  · simp only [State.answerWrite, State.releaseSlot_eq, Bool.false_eq_true, if_false]
    rfl
  · have hg' : ((s.writeFreed i w).give (.response w.id .write okay [])).rci.rings.isSome = true := hg
    simp only [State.answerWrite, State.releaseSlot_eq]
    cases okay with
    | false => rfl
    | true =>
      rw [State.handIndex_other _ hx]
      exact State.offerAnchor_held _ _ _ hg'

/-! ## Index values (R185) -/

theorem tailOk_iff (g : Rings) (hand : Bool) (t : BitVec 16) : g.tailOk hand t = true ↔
    (t - g.cmdHead).toNat ≤ g.cmdSlots ∧ (hand = true → 1 ≤ (t - g.cmdHead).toNat) := by
  cases hand <;> simp [Rings.tailOk]

theorem headOk_iff (g : Rings) (h : BitVec 16) : g.headOk h = true ↔ (g.repTail - h).toNat ≤ g.repSlots := by
  simp [Rings.headOk]

theorem offered?_eq (l : WriteLine) (off : Nat) : offered? l off =
    if l.mask.getLsbD off = true ∧ l.mask.getLsbD (off + 1) = true then some (Line.field16 l.data off) else none := by
  simp [offered?]

/-- The indices after an index line write: an offered field is taken exactly where it is valid. -/
theorem Rings.taken_eq (g : Rings) (hand : Bool) (l : WriteLine) :
    let tail : BitVec 16 := l.data.extractLsb' 0 16
    let head : BitVec 16 := l.data.extractLsb' 16 16
    g.taken hand l = { g with
      cmdTail := if (l.mask.getLsbD 0 = true ∧ l.mask.getLsbD 1 = true)
        ∧ ((tail - g.cmdHead).toNat ≤ g.cmdSlots ∧ (hand = true → 1 ≤ (tail - g.cmdHead).toNat)) then tail else g.cmdTail
      repHead := if (l.mask.getLsbD 2 = true ∧ l.mask.getLsbD 3 = true) ∧ (g.repTail - head).toNat ≤ g.repSlots
        then head else g.repHead } := by
  intro tail head
  simp only [Rings.taken, offered?_eq, Line.field16, ← tailOk_iff, ← headOk_iff]
  congr 1
  · by_cases ho : l.mask.getLsbD 0 = true ∧ l.mask.getLsbD 1 = true
    · by_cases hk : g.tailOk hand tail = true
      · rw [if_pos ho, if_pos ⟨ho, hk⟩, Option.filter_some, if_pos hk]
        rfl
      · rw [if_pos ho, if_neg fun h => hk h.2, Option.filter_some, if_neg hk]
        rfl
    · rw [if_neg ho, if_neg fun h => ho h.1]
      rfl
  · by_cases ho : l.mask.getLsbD 2 = true ∧ l.mask.getLsbD 3 = true
    · by_cases hk : g.headOk head = true
      · rw [if_pos ho, if_pos ⟨ho, hk⟩, Option.filter_some, if_pos hk]
        rfl
      · rw [if_pos ho, if_neg fun h => hk h.2, Option.filter_some, if_neg hk]
        rfl
    · rw [if_neg ho, if_neg fun h => ho h.1]
      rfl

/-- One field of an index line write is refused where it is offered and not valid. -/
theorem refusedField_eq (off : Nat) (l : WriteLine) (ok : BitVec 16 → Bool) (f : BitVec 16 → RefusedIndex) :
    (((offered? l off).filter fun t => !ok t).map f).toList =
      if (l.mask.getLsbD off = true ∧ l.mask.getLsbD (off + 1) = true) ∧ ¬ ok (Line.field16 l.data off) = true
        then [f (Line.field16 l.data off)] else [] := by
  rw [offered?_eq]
  by_cases ho : l.mask.getLsbD off = true ∧ l.mask.getLsbD (off + 1) = true
  · rw [if_pos ho, Option.filter_some]
    by_cases hk : ok (Line.field16 l.data off) = true <;> simp [ho, hk]
  · rw [if_neg ho, if_neg fun h => ho h.1]
    rfl

/-- The refused fields of an index line write: the offered ones that are not valid. -/
theorem Rings.refusedIndices_eq (g : Rings) (hand : Bool) (l : WriteLine) :
    let tail : BitVec 16 := l.data.extractLsb' 0 16
    let head : BitVec 16 := l.data.extractLsb' 16 16
    g.refusedIndices hand l =
      (if (l.mask.getLsbD 0 = true ∧ l.mask.getLsbD 1 = true)
          ∧ ¬ ((tail - g.cmdHead).toNat ≤ g.cmdSlots ∧ (hand = true → 1 ≤ (tail - g.cmdHead).toNat))
        then [⟨false, tail, g.cmdTail⟩] else [])
      ++ (if (l.mask.getLsbD 2 = true ∧ l.mask.getLsbD 3 = true) ∧ ¬ (g.repTail - head).toNat ≤ g.repSlots
        then [⟨true, head, g.repHead⟩] else []) := by
  intro tail head
  simp only [Rings.refusedIndices, refusedField_eq, ← tailOk_iff, ← headOk_iff]
  rfl

/-- Index values taken while ANCHORED (R185). -/
theorem State.takeIndex_eq (s : State) (l : WriteLine) {g : Rings} (ha : s.rci.startup = .anchored)
    (hg : s.rci.rings = some g) : s.takeIndex l =
      if g.refusedIndices s.rci.hand l = [] then { s with rci := { s.rci with rings := some (g.taken s.rci.hand l) } }
      else ({ s with rci := { s.rci with rings := some (g.taken s.rci.hand l) } } : State).hand
        (.ringFault (.index (g.refusedIndices s.rci.hand l))) := by
  unfold State.takeIndex
  split
  · next r _ hr =>
    obtain rfl : g = r := by simpa [hg] using hr
    simp only [List.isEmpty_iff]
  · next h => exact absurd hg (h g ha)

/-- An answered index line write while ANCHORED: the indices are taken, and the refused fields are handed in one report. -/
theorem State.answerWrite_index (s : State) (i : Fin 32) {w : WriteSlot} {l : WriteLine} {win : Window} {g : Rings}
    (hx : w.indexLine = true) (hwin : s.path.cmdWindow = some win) (hle : w.addr.toNat / 64 ≤ win.baseLine)
    (hl : w.lines[win.baseLine - w.addr.toNat / 64]? = some l) (ha : s.rci.startup = .anchored) (hg : s.rci.rings = some g) :
    let v : State := { (s.writeFreed i w).give (.response w.id .write true []) with
      rci := { s.rci with rings := some (g.taken s.rci.hand l) } }
    s.answerWrite i w true = if g.refusedIndices s.rci.hand l = [] then v
      else v.hand (.ringFault (.index (g.refusedIndices s.rci.hand l))) := by
  intro v
  have hwritten : writtenLine? w.addr w.lines win.baseLine = some l := by
    simp only [writtenLine?, lineOf, hle, if_true, hl]
  have hindex : ((s.writeFreed i w).give (.response w.id .write true [])).handIndex w
      = if g.refusedIndices s.rci.hand l = [] then v else v.hand (.ringFault (.index (g.refusedIndices s.rci.hand l))) := by
    have hwin' : ((s.writeFreed i w).give (.response w.id .write true [])).path.cmdWindow = some win := hwin
    simp only [State.handIndex, hwin', hx, if_true, hwritten]
    exact State.takeIndex_eq _ l ha hg
  simp only [State.answerWrite, State.releaseSlot_eq, if_true]
  have hheld : (((s.writeFreed i w).give (.response w.id .write true [])).handIndex w).rci.rings.isSome = true := by
    rw [hindex]
    split <;> rfl
  exact (State.offerAnchor_held _ _ _ hheld).trans hindex

end Sys2Proof.Machine

namespace Sys2Proof.Proofs
open Sys2Proof Sys2Proof.Machine

/-- Settles O22: one equation of `grant` for each case of the two lists and the run count. -/
theorem downstreamGrant : Obligations.DownstreamGrant := by
  unfold Obligations.DownstreamGrant
  intro s hs
  obtain ⟨hp, hstill⟩ := State.still_of_resting hs
  have hexec : exec .downstreamGrant s = event State.grant s := rfl
  have hidle : s.beginEvent.grant = s.beginEvent → exec .downstreamGrant s = .next s.quietly := fun h => by
    rw [hexec, event_quietly hp (by rw [h]; exact hstill) (by rw [h]; rfl), h]
    rfl
  refine ⟨fun hc => hidle (State.grant_noCredit _ hc), fun hf hi => hidle (State.grant_idle _ hf hi), fun hc => ⟨?_, ?_⟩⟩
  · intro f rest hf hr
    have hg : s.beginEvent.grant = s.beginEvent.grantForwarded f rest := State.grant_forwarded _ hc hf hr
    rw [hexec, event_quietly hp (by rw [hg]; exact State.still_congr hstill rfl rfl rfl rfl rfl rfl rfl rfl)
      (by rw [hg]; rfl), hg]
    simp only [State.grantForwarded, List.isEmpty_iff]
    rfl
  · intro i rest hi hr
    have hg : s.beginEvent.grant = s.beginEvent.grantInternal i rest := State.grant_internal _ hc hi hr
    rw [hexec, event_quietly hp (by rw [hg]; exact State.still_congr hstill rfl rfl rfl rfl rfl rfl rfl rfl)
      (by rw [hg]; rfl), hg]
    rfl

/-- Settles O23: each purpose issues its own operation; the lines of a pass follow the generator. -/
theorem issuedOnDn : Obligations.IssuedOnDn := by
  unfold Obligations.IssuedOnDn
  intro s
  refine ⟨fun i r h => by simp only [State.forwardedIssue, h], fun i w h => by simp only [State.forwardedIssue, h],
    fun i x h => ?_⟩
  have hissue : s.down.internalIssue i = .issue x.addr x.op := by simp only [Down.internalIssue, h]
  rw [hissue]
  refine ⟨fun b hp => ?_, fun n reg hp => ?_, fun n l b hp => ?_, fun a t hp => ?_, fun k reg b hp => ?_⟩ <;>
    simp only [InternalSlot.op, hp]
  refine ⟨_, rfl, by simp [patternLines_length], fun n hn => ?_⟩
  refine ⟨⟨patternLine k (prbsRun (512 * n) reg), fullMask⟩, ?_, rfl, rfl⟩
  simp [patternLines_getElem? k x.len n reg hn]

/-- Settles O24. -/
theorem readReturns : Obligations.ReadReturns := by
  unfold Obligations.ReadReturns
  intro s i r okay lines up hp hr hi hm hmarks hlen hcame hplain u hu
  have hbody : s.beginEvent.completeRead (.slot i) okay lines = (s.beginEvent.readFreed i r).give (r.response okay up) :=
    (State.completeRead_slot s.beginEvent hr hi hlen).trans
      (State.returnRead_unmetered s.beginEvent i okay hm hmarks (upstreamLines_eq hcame hplain))
  have hexec : exec (.readReturn (.slot i) okay lines) s = event (fun t => t.completeRead (.slot i) okay lines) s := rfl
  rw [hexec, event_quietly hp (by rw [hbody]; exact State.still_congr hu rfl rfl rfl rfl rfl rfl rfl rfl)
    (by rw [hbody]; rfl), hbody]
  rfl

/-- Settles O25. -/
theorem writeAnswered : Obligations.WriteAnswered := by
  unfold Obligations.WriteAnswered
  constructor
  · intro s k o okay lines hp ho u hu
    have hdrop : s.beginEvent.dropOrphan k o.dir = { u with out := [], handed := [] } := State.dropOrphan_eq s.beginEvent ho
    refine ⟨fun hd => ?_, fun hd => ?_⟩
    · rw [hd] at hdrop
      have hexec : exec (.readReturn (.orphan k) okay lines) s = event (fun t => t.dropOrphan k .read) s := rfl
      rw [hexec, event_quietly hp (by rw [hdrop]; exact hu) (by rw [hdrop]), hdrop]
      rfl
    · rw [hd] at hdrop
      have hexec : exec (.writeAnswer (.orphan k) okay) s = event (fun t => t.dropOrphan k .write) s := rfl
      rw [hexec, event_quietly hp (by rw [hdrop]; exact hu) (by rw [hdrop]), hdrop]
      rfl
  · intro s i w okay hp hw hi hplain u hu
    have hbody : s.beginEvent.completeWriteAt (.slot i) okay =
        (s.beginEvent.writeFreed i w).give (.response w.id .write okay []) :=
      (State.completeWrite_slot s.beginEvent hw hi).trans (State.answerWrite_plain s.beginEvent i hplain)
    have hexec : exec (.writeAnswer (.slot i) okay) s = event (fun t => t.completeWriteAt (.slot i) okay) s := rfl
    rw [hexec, event_quietly hp (by rw [hbody]; exact State.still_congr hu rfl rfl rfl rfl rfl rfl rfl rfl)
      (by rw [hbody]; rfl), hbody]
    rfl

/-- Settles O26, by what an index line write takes and refuses. -/
theorem indexLineTaken : Obligations.IndexLineTaken := by
  unfold Obligations.IndexLineTaken
  intro s i w l win g hp he hw hi hx hwin hle hl ha hg tailOffered headOffered tail head tailGood headGood u v faults hv
  have hexec : exec (.writeAnswer (.slot i) true) s = event (fun t => t.completeWriteAt (.slot i) true) s := rfl
  have hbody := (State.completeWrite_slot s.beginEvent (okay := true) hw hi).trans
    (State.answerWrite_index s.beginEvent i hx hwin hle hl ha hg)
  have hrefused : g.refusedIndices s.rci.hand l = faults := by
    rw [Rings.refusedIndices_eq]
  have htaken : { s.rci with rings := some (g.taken s.rci.hand l) } = v.rci := by
    rw [Rings.taken_eq]
    rfl
  have hrci : s.beginEvent.rci = s.rci := rfl
  rw [hrci, hrefused, htaken] at hbody
  by_cases hf : faults = []
  · rw [if_pos hf] at hbody
    rw [hexec, event_quietly hp (by rw [hbody]; exact State.still_congr hv rfl rfl rfl rfl rfl rfl rfl rfl)
      (by rw [hbody]; rfl), hbody, if_pos hf]
    rfl
  · rw [if_neg hf] at hbody
    rw [hexec, event_reported (b := .ringFault (.index faults)) (tag := 0) hp
      (by rw [hbody]; exact State.still_congr hv rfl rfl rfl rfl rfl rfl rfl rfl)
      (by rw [hbody]; exact he) (by rw [hbody]; rfl), hbody, if_neg hf]
    rfl

end Sys2Proof.Proofs
end

