-- ==== Sys2Proof/Proofs/ResetAndCapture.lean ====
section
/-!
What the part is right after reset, and CAPTURE_CLEAR and unknown kinds. Settles O3, O8 and O41.
-/

namespace Sys2Proof.Machine

/-! ## The part right after reset -/

theorem reset_contexts : State.reset.jct.contexts = [] := by decide +kernel

theorem reset_records : State.reset.jct.records = [] := by
  rw [Jobs.records, reset_contexts]
  rfl

theorem reset_job (j : Fin 16) : State.reset.job j = JobSlot.por :=
  Vector.getElem_replicate j.isLt

theorem reset_live (i : Fin 32) : State.reset.rgt.live[i] = none ∧ State.reset.rgt.shadow[i] = none :=
  ⟨Vector.getElem_replicate i.isLt, Vector.getElem_replicate i.isLt⟩

theorem reset_user (u : Fin 256) : (State.reset.ace.users[u]).reserved = 0
    ∧ (State.reset.ace.users[u]).stored = factoryUser := by
  have h : State.reset.ace.users[u] = ⟨factoryUser, 0, 0, .clean⟩ := Vector.getElem_replicate u.isLt
  rw [h]
  exact ⟨rfl, rfl⟩

theorem reset_dept (d : Fin 16) : (State.reset.ace.depts[d]).reserved = 0
    ∧ (State.reset.ace.depts[d]).stored = factoryDept := by
  have h : State.reset.ace.depts[d] = ⟨factoryDept, 0, 0, .clean⟩ := Vector.getElem_replicate d.isLt
  rw [h]
  exact ⟨rfl, rfl⟩

theorem reset_plane (p : Fin 4) : State.reset.plane p = Figures.por := Vector.getElem_replicate p.isLt

theorem reset_bay (p : Fin 4) : State.reset.bay p = Bay.por := Vector.getElem_replicate p.isLt

theorem reset_settledLaw : State.reset.settledLaw := by
  refine ⟨by decide +kernel, ⟨by simp [State.reset, Wpe.por], by simp [State.reset, Wpe.por]⟩, fun i => ?_, fun j => ?_⟩
  · simp [reset_live i]
  · rw [reset_job]
    exact Nat.zero_le _

theorem reset_creditLaw : State.reset.creditLaw := by
  refine ⟨by decide +kernel, by decide, by simp [State.reset, Down.por], by decide, by simp [State.reset, Down.por]⟩

theorem reset_keyLaw : State.reset.keyLaw := by
  intro j
  rw [reset_job, show State.reset.keys[j] = none from Vector.getElem_replicate j.isLt]
  rfl

theorem reset_referenceLaw : State.reset.referenceLaw := by
  have hslots : ∀ j, State.reset.slotsOfJob j = 0 := by decide +kernel
  have hentries : ∀ k, State.reset.slotsOfEntry k = 0 := by decide +kernel
  refine ⟨fun j => ?_, fun k => ?_⟩
  · rw [reset_job, hslots]
    exact ⟨rfl, fun _ => rfl⟩
  · rw [hentries]
    exact Vector.getElem_replicate k.isLt

theorem reset_markingLaw : State.reset.markingLaw := by
  refine ⟨⟨by decide, by decide⟩, ⟨by decide +kernel, by decide, fun _ => ⟨rfl, rfl⟩⟩, ?_, ?_⟩ <;>
    simp [State.reset, Jobs.por]

theorem reset_reserveLaw : State.reset.reserveLaw := by
  refine ⟨reset_markingLaw, fun j h => ?_, fun j h => ?_, fun m hm => ?_, fun u => ?_, fun d => ?_⟩
  · rw [reset_job] at h
    cases h
  · rw [reset_job] at h
    cases h
  · rw [reset_contexts] at hm
    cases hm
  · rw [(reset_user u).1, Jobs.reservesOf, reset_records]
    rfl
  · rw [(reset_dept d).1, Ace.reservedIn]
    simp only [(reset_user _).1, List.map_const', List.sum_replicate, smul_zero]

theorem reset_limitLaw : State.reset.ace.limitLaw := by
  refine ⟨fun u => ?_, fun d limit h => ?_⟩
  · rw [(reset_user u).1, (reset_user u).2]
    decide
  · rw [(reset_dept d).2] at h
    cases h

theorem reset_tonerLaw (p : Fin 4) : State.reset.tonerLaw p := by
  rw [State.tonerLaw, reset_plane]
  rfl

theorem reset_tonerShape : State.reset.tonerShape := by
  refine ⟨fun p => ?_, by simp [State.reset, Ccu.por]⟩
  rw [reset_plane, reset_bay]
  simp [Figures.por, Bay.por]

theorem reset_drawnLaw : State.reset.drawnLaw := by
  have hkeys : ∀ j : Fin 16, State.reset.keys[j] = none := fun j => Vector.getElem_replicate j.isLt
  refine ⟨fun j k hk => ?_, fun i j _ k hk => ?_⟩
  · rw [hkeys] at hk
    cases hk
  · rw [hkeys] at hk
    cases hk

end Sys2Proof.Machine

namespace Sys2Proof.Proofs
open Sys2Proof Sys2Proof.Machine

/-- Settles O3: the tables are empty, so each law holds of the values of POR. -/
theorem lawsAtReset : Obligations.LawsAtReset := by
  unfold Obligations.LawsAtReset
  refine ⟨reset_settledLaw, reset_creditLaw, reset_keyLaw, reset_markingLaw.1, ?_, ?_, ?_, ?_, reset_tonerLaw,
    reset_referenceLaw, reset_markingLaw, reset_reserveLaw, reset_limitLaw, reset_tonerShape, ?_, reset_drawnLaw⟩
  · intro m hm
    rw [reset_contexts] at hm
    cases hm
  · exact ⟨by simp [State.reset, Path.por], by decide⟩
  · exact ⟨by decide, by decide, by decide, by decide, by decide⟩
  · intro e he
    cases he
  · intro r hr
    rw [reset_records] at hr
    cases hr

/-- Settles O8. -/
theorem powerOnPath : Obligations.PowerOnPath := by
  unfold Obligations.PowerOnPath
  intro straps s
  refine ⟨s.powerOn straps, rfl, rfl, rfl, rfl, rfl, rfl, rfl, fun i => ⟨?_, ?_, ?_⟩, rfl, fun i => ⟨?_, ?_⟩, fun i => ?_,
    rfl, rfl, rfl, rfl, rfl, rfl, rfl⟩ <;> exact Vector.getElem_replicate i.isLt

/-- Settles O41: each command's answer changes at most the capture, so it is all that its event brings. -/
theorem captureClearedAndUnknownKind : Obligations.CaptureClearedAndUnknownKind := by
  unfold Obligations.CaptureClearedAndUnknownKind
  intro s tag kind hs
  obtain ⟨hrest, -, -, -⟩ := s.ready_iff.1 hs
  obtain ⟨hp, hrun, hf, hn⟩ := s.resting_iff.1 hrest
  refine ⟨?_, fun hk => ?_, fun h₁ h₂ => ?_⟩
  · have hexec : exec (.captureClear tag) s = ringEvent (State.runCaptureClear tag) s := rfl
    rw [hexec, ringEvent_eq (kind := 4) (tag := tag)
      (a := ((.ok, .capture s.path.capture s.path.captureCount), s.running.clearCapture)) hs rfl
      (State.nothingDue_congr hn hrun hf rfl rfl rfl rfl rfl rfl rfl) rfl rfl rfl]
    rfl
  · have hknown : kindKnown kind = false := by
      rw [← Bool.not_eq_true]
      simp only [kindKnown, Bool.and_eq_true, decide_eq_true_eq]
      rcases hk with rfl | hk
      · decide
      · omega
    have hexec : exec (.unknownKind tag kind) s = ringEvent (State.runUnknownKind tag kind) s := by
      show event (State.refuseKind tag kind) s = _
      simp only [ringEvent, event, State.refuseKind, hknown, Bool.false_eq_true, if_false]
    rw [hexec, ringEvent_eq (kind := kind) (tag := tag) (a := ((.unknownKind, .none), s.running)) hs rfl
      (State.nothingDue_congr hn hrun hf rfl rfl rfl rfl rfl rfl rfl) rfl rfl rfl]
    rfl
  · have hknown : kindKnown kind = true := by simp [kindKnown, h₁, h₂]
    have hexec : exec (.unknownKind tag kind) s = event (State.refuseKind tag kind) s := rfl
    have hbody : State.refuseKind tag kind s.beginEvent = s.beginEvent := by simp [State.refuseKind, hknown]
    rw [hexec, event_quietly hp (by rw [hbody]; exact (State.still_of_resting hrest).2) (by rw [hbody]; rfl), hbody]
    rfl

end Sys2Proof.Proofs
end

