-- ==== Sys2Proof/Proofs/RegionTable.lean ====
section
/-!
The Region Table: its tables and the bound range counts after a change in closed form, the completion of a commit in its event, and
the region commands. Settles O29 and the first clause of O28.
-/

namespace Sys2Proof.Machine

/-! ## Closed forms -/

theorem get_ofFn {α : Type} {n : Nat} (f : Fin n → α) (i : Fin n) : (Vector.ofFn f)[i] = f i := by
  simp

theorem vector_ext {α : Type} {n : Nat} {v w : Vector α n} (h : ∀ i : Fin n, v[i] = w[i]) : v = w :=
  Vector.ext fun i hi => h ⟨i, hi⟩

/-- One change for each slot of a list without repeats. -/
theorem State.foldl_modJob (f : Fin 16 → JobSlot → JobSlot) (js : List (Fin 16)) (s : State) (hn : js.Nodup) :
    js.foldl (fun t j => t.modJob j (f j)) s = { s with jct := { s.jct with
      slots := Vector.ofFn fun k => if k ∈ js then f k s.jct.slots[k] else s.jct.slots[k] } } := by
  induction js generalizing s with
  | nil =>
    have hv : s.jct.slots = Vector.ofFn fun k => if k ∈ ([] : List (Fin 16)) then f k s.jct.slots[k] else s.jct.slots[k] :=
      vector_ext fun i => by simp
    rw [← hv]
    rfl
  | cons j js ih =>
    obtain ⟨hj, hn⟩ := List.nodup_cons.1 hn
    rw [List.foldl_cons, ih (s.modJob j (f j)) hn]
    have hv : (Vector.ofFn fun k => if k ∈ js then f k (upd s.jct.slots j (f j))[k] else (upd s.jct.slots j (f j))[k])
        = Vector.ofFn fun k => if k ∈ j :: js then f k s.jct.slots[k] else s.jct.slots[k] := by
      refine vector_ext fun k => ?_
      rw [get_ofFn, get_ofFn, upd_get]
      by_cases hk : k = j
      · subst hk; simp [hj]
      · simp [hk]
    simp only [State.modJob_slots, hv]
    rfl

/-- A new Region Table brings every bound range count up to date and changes nothing else (R44). -/
theorem State.setRegions_eq (s : State) (g : Regions) : s.setRegions g = { s with
    rgt := g
    jct := { s.jct with
      slots := Vector.ofFn fun j : Fin 16 => { s.jct.slots[j] with bound := (g.rangesOf j).length } } } := by
  rw [State.setRegions, State.refreshBound,
    State.foldl_modJob (fun j q => { q with bound := (g.rangesOf j).length }) _ _ (List.nodup_finRange 16)]
  simp

theorem State.setRegions_job (s : State) (g : Regions) (j : Fin 16) :
    (s.setRegions g).job j = { s.job j with bound := (g.rangesOf j).length } := by
  rw [s.setRegions_eq, State.job]
  exact get_ofFn _ j

@[simp] theorem State.setRegions_rgt (s : State) (g : Regions) : (s.setRegions g).rgt = g := by rw [s.setRegions_eq]

/-- Nothing that settles changes with the bound range counts. -/
theorem State.setRegions_metered (s : State) (g : Regions) : (s.setRegions g).jct.metered = s.jct.metered := by
  have hown : ∀ i : Fin 16, ((s.setRegions g).jct.slots[i]).own = (s.jct.slots[i]).own := fun i => by
    show ((s.setRegions g).job i).own = (s.job i).own
    rw [s.setRegions_job]
  have hm : (s.setRegions g).jct.marking = s.jct.marking := by rw [s.setRegions_eq]
  have hs : (s.setRegions g).jct.stack = s.jct.stack := by rw [s.setRegions_eq]
  rw [Bool.eq_iff_iff]
  exact ⟨fun h => Jobs.metered_congr h hm.symm hs.symm fun i => (hown i).symm, fun h => Jobs.metered_congr h hm hs hown⟩

theorem Regions.foldl_carry (c : Fin 32 → Option RegionEntry) (is : List (Fin 32)) (g : Regions) :
    is.foldl (fun g i => g.carry i (c i)) g = { g with
      shadow := Vector.ofFn fun k => if k ∈ is then c k else g.shadow[k]
      live := Vector.ofFn fun k => if k ∈ is then c k else g.live[k] } := by
  induction is generalizing g with
  | nil =>
    have hs : g.shadow = Vector.ofFn fun k => if k ∈ ([] : List (Fin 32)) then c k else g.shadow[k] :=
      vector_ext fun i => by simp
    have hl : g.live = Vector.ofFn fun k => if k ∈ ([] : List (Fin 32)) then c k else g.live[k] :=
      vector_ext fun i => by simp
    rw [← hs, ← hl]
    rfl
  | cons i is ih =>
    have hv : ∀ v : RegionTable, (Vector.ofFn fun k => if k ∈ is then c k else (v.set i (c i))[k])
        = Vector.ofFn fun k => if k ∈ i :: is then c k else v[k] := fun v => by
      refine vector_ext fun k => ?_
      rw [get_ofFn, get_ofFn, get_set]
      by_cases hk : k = i
      · subst hk; simp
      · simp [hk]
    rw [List.foldl_cons, ih]
    simp only [Regions.carry, hv]

/-- The Region Table after the completion of a commit (R15): live and shadow agree on the changed set. -/
theorem State.carried_eq (s : State) (is : List (Fin 32)) : s.carried is = { s.rgt with
    shadow := Vector.ofFn fun k => if k ∈ is then s.committed k else s.rgt.shadow[k]
    live := Vector.ofFn fun k => if k ∈ is then s.committed k else s.rgt.live[k]
    commit := none } := by
  rw [State.carried, Regions.foldl_carry]

/-! ## The completion of a commit in its event (R15) -/

theorem commitDue_of_none {g : Regions} (h : g.commit = none) : g.commitDue = false := by
  simp [Regions.commitDue, h]

theorem State.completeCommit_some (s : State) {c : Commit} (hc : s.rgt.commit = some c)
    (hz : ∀ i ∈ c.changed, s.rgt.inFlight[i] = 0) : s.completeCommit =
      ({ s.setRegions (s.carried c.changed) with
        path := { s.path with hold := s.path.hold.map HoldEntry.releaseCommit } } : State).hand
        (.regionsCommitted (s.droppedCount c.changed)) c.tag := by
  have hdue : s.rgt.commitDue = true := s.rgt.commitDue_iff.2 ⟨c, hc, hz⟩
  have hpath : (s.setRegions (s.carried c.changed)).path = s.path := by rw [s.setRegions_eq]
  simp only [State.completeCommit, hc, hdue, if_true, hpath]

/-- What a completion can do: nothing, or the completion of the pending commit. -/
theorem State.completeCommit_cases (s : State) : s.completeCommit = s
    ∨ ∃ c, s.rgt.commit = some c ∧ s.completeCommit =
      ({ s.setRegions (s.carried c.changed) with
        path := { s.path with hold := s.path.hold.map HoldEntry.releaseCommit } } : State).hand
        (.regionsCommitted (s.droppedCount c.changed)) c.tag := by
  by_cases h : s.rgt.commitDue = true
  · obtain ⟨c, hc, hz⟩ := s.rgt.commitDue_iff.1 h
    exact .inr ⟨c, hc, s.completeCommit_some hc hz⟩
  · exact .inl (s.completeCommit_eq (by simpa using h))

theorem State.completeCommit_metered (s : State) : s.completeCommit.jct.metered = s.jct.metered := by
  rcases s.completeCommit_cases with h | ⟨c, -, h⟩
  · rw [h]
  · rw [h]
    exact s.setRegions_metered _

theorem State.completeCommit_idem (s : State) : s.completeCommit.completeCommit = s.completeCommit := by
  by_cases h : s.rgt.commitDue = true
  · obtain ⟨c, hc, hz⟩ := s.rgt.commitDue_iff.1 h
    refine s.completeCommit.completeCommit_eq (commitDue_of_none ?_)
    have hrgt : s.completeCommit.rgt = s.carried c.changed := by
      simp only [s.completeCommit_some hc hz, State.hand_rgt, State.setRegions_rgt]
    simp only [hrgt, s.carried_eq]
  · rw [s.completeCommit_eq (by simpa using h), s.completeCommit_eq (by simpa using h)]

/-- Where no record is due, an event ends as it does after the completion of the commit that is due in it. -/
theorem State.endEvent_completeCommit (s : State) (h : s.jct.metered = true) : s.endEvent = s.completeCommit.endEvent := by
  have hm : s.completeCommit.jct.metered = true := by rw [s.completeCommit_metered, h]
  simp only [State.endEvent, State.consequences]
  rw [s.settleDue_eq h, s.completeCommit.settleDue_eq hm, s.completeCommit_idem]

theorem HoldEntry.releaseCommit_eq (h : HoldEntry) :
    h.releaseCommit = if h.cause = .commit then { h with released := true } else h := by
  cases hc : h.cause <;> simp [HoldEntry.releaseCommit, hc]

theorem JobState.bindable_eq (st : JobState) :
    st.bindable = (st == .opened || st == .held .secure || st == .held .quota) := by
  rcases st with _ | _ | (_ | _) | _ | _ <;> rfl

/-- A commit completes in an event of its own (the first clause of O28). -/
theorem exec_commitCompletion (s : State) (c : Commit) (hp : s.powered = true) (hc : s.rgt.commit = some c)
    (hz : ∀ i ∈ c.changed, s.rgt.inFlight[i] = 0) (he : s.rci.hasEntry false = true)
    (hs : s.beginEvent.completeCommit.still = true) : exec .commitCompletion s = .next { s.setRegions (s.carried c.changed) with
      path := { s.path with hold := s.path.hold.map HoldEntry.releaseCommit }
      rci := s.rci.joined (.regionsCommitted (s.droppedCount c.changed)) c.tag s.ms
      out := [], handed := [] } := by
  have hexec : exec .commitCompletion s = event State.completeCommit s := rfl
  have hbody := State.completeCommit_some s.beginEvent hc hz
  rw [State.setRegions_eq] at hbody
  rw [hexec, event_reported (b := .regionsCommitted (s.droppedCount c.changed)) (tag := c.tag) hp hs
    (by rw [hbody]; exact he) (by rw [hbody]; rfl), hbody, State.setRegions_eq]
  rfl

/-! ## REGION_SET and REGION_CLEAR (R12, R13) -/

theorem geometry?_bounds {stride depth frameLines : Option Nat} {g : Geometry}
    (h : geometry? stride depth frameLines = some g) : 64 ≤ g.stride ∧ 1 ≤ g.frameLines := by
  unfold geometry? at h
  split at h
  · split at h
    · next hb =>
      cases h
      exact ⟨hb.1.1, hb.2.2.1⟩
    · cases h
  · cases h

theorem raster?_bounds {p : RegionSetParams} {c : RegionClass} {r : Raster} (h : raster? p c = some (some r)) :
    64 ≤ r.geom.stride ∧ 1 ≤ r.geom.frameLines := by
  unfold raster? at h
  split at h
  · split at h
    · next hg =>
      cases h
      exact geometry?_bounds hg
    · cases h
  · split at h <;> cases h

/-- The RASTER fields of a spelled entry are in the ranges of section 1.4. -/
theorem regionEntry?_raster {p : RegionSetParams} {e : RegionEntry} {r : Raster} (h : regionEntry? p = some e)
    (hr : e.raster = some r) : 64 ≤ r.geom.stride ∧ 1 ≤ r.geom.frameLines := by
  unfold regionEntry? at h
  split at h
  · split at h
    · next hraster =>
      split at h
      · cases h
        subst hr
        exact raster?_bounds hraster
      · cases h
    · cases h
  · cases h

/-- An entry spells at least one whole frame exactly when a frame's bytes fit in its range (R12 step 5). -/
theorem frames_eq_zero_iff {g : Geometry} (hs : 64 ≤ g.stride) (hf : 1 ≤ g.frameLines) (count : Nat) :
    g.frames count = 0 ↔ ¬ g.stride * g.frameLines ≤ count * 4096 := by
  have hpos : 0 < g.stride * g.frameLines := Nat.mul_pos (by omega) hf
  rw [Geometry.frames, Geometry.frameBytes, Nat.div_eq_zero_iff]
  omega

theorem jobBound_iff (e : RegionEntry) : e.jobBound = true ↔ e.cls ≠ .plain := by
  simp [RegionEntry.jobBound]

/-- Steps 3 to 5 of R12 for a spelled entry, in the terms of the statement. -/
theorem State.regionCheck_frames (s : State) (i : Fin 32) {p : RegionSetParams} {e : RegionEntry}
    (he : regionEntry? p = some e)
    (hj : ∀ j, e.job = some j → (s.job j).state.bindable = true ∧ (e.raster.isSome = true → (s.job j).kind ≠ .scan)) :
    s.regionCheck i e =
      if ¬ (∀ r, e.raster = some r → r.geom.stride * r.geom.frameLines ≤ e.count * 4096) then .geometry
      else if s.rgt.dupPlane i e then .dupPlane
      else if s.rgt.overlapRefused i e then .overlap
      else if s.wpe.overlaps e.base e.count then .wipeOverlap
      else if e.jobBound && s.path.ringTouches e.base e.count then .badParam
      else .ok := by
  have h₁ : ¬ e.job.any (fun j => !(s.job j).state.bindable) = true := by
    cases h : e.job with
    | none => simp
    | some j => simp [(hj j h).1]
  have h₂ : ¬ (e.raster.isSome && e.job.any (fun j => (s.job j).kind == .scan)) = true := by
    cases h : e.job with
    | none => simp
    | some j =>
      have := (hj j h).2
      simpa using this
  have h₃ : e.raster.any (fun r => r.geom.frames e.count == 0) = true
      ↔ ¬ ∀ r, e.raster = some r → r.geom.stride * r.geom.frameLines ≤ e.count * 4096 := by
    cases h : e.raster with
    | none => simp
    | some r =>
      obtain ⟨hs, hf⟩ := regionEntry?_raster he h
      simp [frames_eq_zero_iff hs hf]
  rw [State.regionCheck, if_neg h₁, if_neg h₂]
  by_cases hw : e.raster.any (fun r => r.geom.frames e.count == 0) = true
  · rw [if_pos hw, if_pos (h₃.1 hw)]
  · rw [if_neg hw, if_neg (mt h₃.2 hw)]

theorem fin?_val {n v : Nat} (i : Fin n) (h : v = i.val) : fin? n v = some i := by
  subst h
  simp [fin?]

theorem fin?_none {n v : Nat} (h : n ≤ v) : fin? n v = none := by
  simp [fin?, Nat.not_lt.2 h]

/-- REGION_SET of a spelled entry while no commit is pending: the check decides. -/
theorem State.regionSet_spelled (s : State) {p : RegionSetParams} {i : Fin 32} {e : RegionEntry} (hc : s.rgt.commit = none)
    (hi : p.index = i.val) (he : regionEntry? p = some e) : s.regionSet p =
      if s.regionCheck i e = .ok then (.ok, s.setRegions { s.rgt with shadow := s.rgt.shadow.set i (some e) })
      else (s.regionCheck i e, s) := by
  have hnot : ¬ s.rgt.commit.isSome = true := by simp [hc]
  simp only [State.regionSet, hnot, if_false, fin?_val i hi, he, Bool.false_eq_true]
  split <;> simp_all

/-! ## Ring commands -/

/-- A refused command changes nothing but the Report Queue (R187). -/
theorem ringEvent_refused {s : State} {run : State → State} {kind tag : BitVec 16} {code : ResultCode} (h : s.ready = true)
    (hrun : run s.running = report kind tag ((code, .none), s.running)) :
    ringEvent run s = .next (s.refused kind tag code) := by
  obtain ⟨hrest, -, -, -⟩ := s.ready_iff.1 h
  obtain ⟨-, hsb, hf, hn⟩ := s.resting_iff.1 hrest
  rw [ringEvent_eq h hrun (State.nothingDue_congr hn hsb hf rfl rfl rfl rfl rfl rfl rfl) rfl rfl rfl]
  rfl

/-- Nothing is due after a change of the tables alone, while no job is in CLOSING and no commit is due. -/
theorem State.nothingDue_setRegions {s : State} (h : s.ready = true) {g : Regions} (hg : g.commitDue = false)
    {t : State} (ht : t = s.running.setRegions g) : t.nothingDue = true := by
  subst ht
  obtain ⟨hrest, -, -, hnc⟩ := s.ready_iff.1 h
  obtain ⟨-, hsb, hf, hn⟩ := s.resting_iff.1 hrest
  obtain ⟨h1, -, h3, -, h5, -, -⟩ := s.nothingDue_iff.1 hn
  refine (State.nothingDue_iff _).2 ⟨?_, ?_, ?_, fun j => ?_, ?_, ?_, ?_⟩
  · rw [State.setRegions_metered]; exact h1
  · rw [State.setRegions_rgt]; exact hg
  · rw [State.setRegions_eq]; exact h3
  · refine State.mayLeave_of_noneClosing _ ?_ j
    rw [State.noneClosing_iff]
    intro k
    rw [State.setRegions_job]
    exact s.noneClosing_iff.1 hnc k
  · rw [State.setRegions_eq]; exact h5
  · have hrun : (s.running.setRegions g).rci.standby = .running := by rw [State.setRegions_eq]; exact hsb
    simp [State.standbySettled, hrun]
  · have hfault : (s.running.setRegions g).rci.faultWaiting = false := by rw [State.setRegions_eq]; exact hf
    simp [hfault]

/-- A region command that changes the tables: the counts follow, and its result is reported. -/
theorem ringEvent_setRegions {s : State} {run : State → State} {kind tag : BitVec 16} {g : Regions} (h : s.ready = true)
    (hg : g.commitDue = false) (hrun : run s.running = report kind tag ((.ok, .none), s.running.setRegions g)) :
    ringEvent run s = .next ((s.setRegions g).reported (.result kind .ok .none) tag) := by
  rw [ringEvent_eq h hrun (State.nothingDue_setRegions h hg rfl) (by rw [State.setRegions_eq]; rfl)
    (by rw [State.setRegions_eq]; rfl) (by rw [State.setRegions_eq]; rfl), State.setRegions_eq, State.setRegions_eq]
  rfl

/-! ## REGIONS_COMMIT (R14, R15) -/

theorem mem_changedSet_iff (g : Regions) (i : Fin 32) : i ∈ g.changedSet ↔ g.shadow[i] ≠ g.live[i] := by
  simp [Regions.changedSet]

theorem changedSet_isEmpty_iff (g : Regions) : g.changedSet.isEmpty = true ↔ ∀ i : Fin 32, g.shadow[i] = g.live[i] := by
  rw [List.isEmpty_iff, List.eq_nil_iff_forall_not_mem]
  simp only [mem_changedSet_iff, ne_eq, not_not]

theorem State.regionsCommit_changed (s : State) (tag : BitVec 16) (hc : s.rgt.commit = none)
    (hx : ∃ i : Fin 32, s.rgt.shadow[i] ≠ s.rgt.live[i]) :
    s.regionsCommit tag = (.ok, { s with rgt := { s.rgt with commit := some ⟨s.rgt.changedSet, tag⟩ } }) := by
  have hnot : ¬ s.rgt.commit.isSome = true := by simp [hc]
  have hne : ¬ s.rgt.changedSet.isEmpty = true := by
    rw [changedSet_isEmpty_iff]
    exact fun h => hx.elim fun i hi => hi (h i)
  simp only [State.regionsCommit, hnot, hne, if_false, Bool.false_eq_true]

/-- REGIONS_COMMIT whose changed entries have no line in flight: the commit completes in the same event (R15). -/
theorem exec_regionsCommit_completes (s : State) (tag : BitVec 16) (h : s.ready = true) (hc : s.rgt.commit = none)
    (hx : ∃ i : Fin 32, s.rgt.shadow[i] ≠ s.rgt.live[i])
    (hz : ∀ i : Fin 32, s.rgt.shadow[i] ≠ s.rgt.live[i] → s.rgt.inFlight[i] = 0) :
    exec (.regionsCommit tag) s = .next { s.setRegions (s.carried s.rgt.changedSet) with
      path := { s.path with hold := s.path.hold.map HoldEntry.releaseCommit }
      rci := (s.rci.joined (.result 3 .ok .none) tag s.ms).joined (.regionsCommitted (s.droppedCount s.rgt.changedSet)) tag s.ms
      out := [], handed := [] } := by
  obtain ⟨hrest, hready, hheld, -⟩ := s.ready_iff.1 h
  obtain ⟨hp, hsb, hf, hn⟩ := s.resting_iff.1 hrest
  obtain ⟨-, -, -, -, hlen⟩ := s.commandReady_iff.1 hready
  let u : State := report 3 tag
    ((.ok, .none), { s.running with rgt := { s.rgt with commit := some ⟨s.rgt.changedSet, tag⟩ } })
  have hrun : s.beginEvent.direct (State.runRegionsCommit tag) = u := by
    have hready' : s.beginEvent.commandReady = true := hready
    have hans := State.regionsCommit_changed s.running tag hc hx
    simp only [State.direct, hready', if_true]
    exact congrArg (fun a => report 3 tag (plainAnswer a)) hans
  have hcomp : u.completeCommit = ({ u.setRegions (s.carried s.rgt.changedSet) with
      path := { s.path with hold := s.path.hold.map HoldEntry.releaseCommit } } : State).hand
        (.regionsCommitted (s.droppedCount s.rgt.changedSet)) tag := by
    rw [State.completeCommit_some u (c := ⟨s.rgt.changedSet, tag⟩) rfl fun i hi => hz i ((mem_changedSet_iff _ i).1 hi),
      State.carried_eq, State.carried_eq]
    rfl
  rw [State.setRegions_eq] at hcomp
  have hrci : u.completeCommit.rci = { s.rci with held := true } := by rw [hcomp]; rfl
  have hdue : u.completeCommit.nothingDue = true := by
    have hset : (s.running.setRegions (s.carried s.rgt.changedSet)).nothingDue = true :=
      State.nothingDue_setRegions h (by rw [State.carried_eq]; rfl) rfl
    rw [State.setRegions_eq] at hset
    rw [hcomp]
    exact State.nothingDue_congr hset hsb hf rfl rfl rfl rfl rfl rfl rfl
  have hexec : exec (.regionsCommit tag) s = .next u.completeCommit.endEvent := by
    show event (fun t => t.direct (State.runRegionsCommit tag)) s = _
    rw [event_powered hp, hrun, State.endEvent_completeCommit u (s.nothingDue_iff.1 hn).1]
  rw [hexec, State.endEvent_two u.completeCommit hdue (by rw [hrci]; exact hsb) (by rw [hrci]; exact hf)
    (x := ⟨.result 3 .ok .none, tag, true⟩) (y := ⟨.regionsCommitted (s.droppedCount s.rgt.changedSet), tag, false⟩)
    (by rw [hcomp]; rfl) rfl, hcomp, State.setRegions_eq]
  · have hnotHeld : ∀ b₁ b₂ : ReportBody, (s.rci.joined b₁ tag s.ms).joined b₂ tag s.ms
        = { ((s.rci.joined b₁ tag s.ms).joined b₂ tag s.ms) with held := false } := fun b₁ b₂ => by
      simp only [Rci.joined, hheld]
    rw [hnotHeld]
    rfl
  · rw [hrci]
    simp only [Rci.hasEntry, Bool.not_true, Bool.and_false, Bool.false_eq_true, if_false, decide_eq_true_eq]
    omega
  · rw [hrci]
    simp only [Rci.hasEntry, Rci.joined, Bool.not_true, Bool.and_false, Bool.false_and, Bool.false_eq_true, if_false,
      List.length_append, List.length_singleton, decide_eq_true_eq]
    omega

end Sys2Proof.Machine

namespace Sys2Proof.Proofs
open Sys2Proof Sys2Proof.Machine

/-- Settles O29: REGION_SET by its check, REGIONS_COMMIT by its changed set; each refusal by the step that decides. -/
theorem regionCommands : Obligations.RegionCommands := by
  unfold Obligations.RegionCommands
  refine ⟨fun s tag h hc => ⟨?_, fun i => ?_, fun hall => ?_, fun i hne hin => ?_, ?_, fun g j => ?_⟩, fun s tag p h => ⟨?_, ?_⟩⟩
  · intro p i e hi he hbind hscan hframe hdup hover hwipe hring
    have hcheck : s.running.regionCheck i e = .ok := by
      rw [State.regionCheck_frames s.running i he fun j hj => ⟨hbind j hj, hscan j hj⟩, if_neg (not_not.2 hframe),
        if_neg (by rw [show s.running.rgt = s.rgt from rfl, hdup]; simp),
        if_neg (by rw [show s.running.rgt = s.rgt from rfl, hover]; simp),
        if_neg (by rw [show s.running.wpe = s.wpe from rfl, hwipe]; simp), if_neg]
      rw [Bool.and_eq_true, jobBound_iff]
      rintro ⟨hcls, htouch⟩
      have : s.path.ringTouches e.base e.count = true := htouch
      simp [hring hcls] at this
    refine ringEvent_setRegions h (commitDue_of_none hc) ?_
    simp only [State.runRegionSet, State.regionSet_spelled s.running hc hi he, hcheck, if_true]
    rfl
  · refine ringEvent_setRegions h (commitDue_of_none hc) ?_
    have hnot : ¬ s.running.rgt.commit.isSome = true := by simp [State.running, hc]
    simp only [State.runRegionClear, State.regionClear, hnot, if_false, fin?_val i rfl, Bool.false_eq_true]
    rfl
  · refine ringEvent_refused h (code := .ok) ?_
    have hnot : ¬ s.running.rgt.commit.isSome = true := by simp [State.running, hc]
    have hempty : s.running.rgt.changedSet.isEmpty = true := (changedSet_isEmpty_iff _).2 hall
    simp only [State.runRegionsCommit, State.regionsCommit, hnot, hempty, if_true, if_false, Bool.false_eq_true]
    rfl
  · have hrest := (s.ready_iff.1 h).1
    obtain ⟨-, hsb, hf, hn⟩ := s.resting_iff.1 hrest
    obtain ⟨h1, -, h3, h4, h5, -, -⟩ := s.nothingDue_iff.1 hn
    have hrun : State.runRegionsCommit tag s.running = report 3 tag
        ((.ok, .none), { s.running with rgt := { s.rgt with commit := some ⟨s.rgt.changedSet, tag⟩ } }) :=
      congrArg (fun a => report 3 tag (plainAnswer a)) (State.regionsCommit_changed s.running tag hc ⟨i, hne⟩)
    have hdue : ({ s.rgt with commit := some ⟨s.rgt.changedSet, tag⟩ } : Regions).commitDue = false := by
      rw [← Bool.not_eq_true, Regions.commitDue_iff]
      rintro ⟨c, hcom, hz⟩
      cases hcom
      exact hin (hz i ((mem_changedSet_iff _ i).2 hne))
    refine (ringEvent_eq h hrun ((State.nothingDue_iff _).2 ⟨h1, hdue, h3, h4, h5, ?_, ?_⟩) rfl rfl rfl).trans rfl
    · simp [State.standbySettled, State.running, hsb]
    · simp [State.running, Rci.faultWaiting, s.rci.faultAt_none hf]
  · intro hx hz lost g n
    have hlost : s.isDropped = lost := rfl
    have hg : s.carried s.rgt.changedSet = g := by
      have hentry : ∀ (v : RegionTable), (∀ k : Fin 32, s.rgt.shadow[k] = s.rgt.live[k] → v[k] = s.rgt.live[k]) →
          (Vector.ofFn fun k : Fin 32 => if k ∈ s.rgt.changedSet then s.committed k else v[k])
            = Vector.ofFn fun k : Fin 32 => if s.rgt.shadow[k] = s.rgt.live[k] then s.rgt.live[k]
              else (s.rgt.shadow[k]).filter fun e => !lost e := fun v hv => by
        refine vector_ext fun k => ?_
        rw [get_ofFn, get_ofFn]
        by_cases hk : s.rgt.shadow[k] = s.rgt.live[k]
        · rw [if_neg (by rw [mem_changedSet_iff]; exact not_not.2 hk), if_pos hk, hv k hk]
        · rw [if_pos ((mem_changedSet_iff _ k).2 hk), if_neg hk, State.committed, hlost]
      rw [State.carried_eq, hentry s.rgt.shadow fun k hk => hk, hentry s.rgt.live fun k _ => rfl, ← hc]
    have hn : s.droppedCount s.rgt.changedSet = n := by
      rw [State.droppedCount, Regions.changedSet, List.filter_filter, hlost]
      simp only [Bool.and_comm]
      rfl
    have hhold : s.path.hold.map HoldEntry.releaseCommit
        = s.path.hold.map fun x => if x.cause = .commit then { x with released := true } else x :=
      List.map_congr_left fun x _ => x.releaseCommit_eq
    rw [exec_regionsCommit_completes s tag h hc hx hz, hg, hn, hhold]
  · exact ⟨s.setRegions_rgt g, s.setRegions_job g j⟩
  · intro hpend
    have hpend' : s.running.rgt.commit.isSome = true := hpend
    refine ⟨ringEvent_refused h ?_, fun i => ringEvent_refused h ?_, ringEvent_refused h ?_⟩
    · simp only [State.runRegionSet, State.regionSet, hpend', if_true]
      rfl
    · simp only [State.runRegionClear, State.regionClear, hpend', if_true]
      rfl
    · simp only [State.runRegionsCommit, State.regionsCommit, hpend', if_true]
      rfl
  · intro hc
    have hnot : ¬ s.running.rgt.commit.isSome = true := by simp [State.running, hc]
    refine ⟨fun i hi => ringEvent_refused h ?_, fun hbad => ringEvent_refused h ?_, fun i e hi he => ?_⟩
    · simp only [State.runRegionClear, State.regionClear, hnot, if_false, fin?_none hi, Bool.false_eq_true]
      rfl
    · have hset : s.running.regionSet p = (.badParam, s.running) := by
        simp only [State.regionSet, hnot, if_false, Bool.false_eq_true]
        split
        · next i e hi he =>
          rcases hbad with hbad | hbad
          · rw [fin?_none hbad] at hi
            cases hi
          · rw [hbad] at he
            cases he
        · rfl
      simp only [State.runRegionSet, hset]
      rfl
    · intro wholeFrame
      have hrefuse : ∀ code, code ≠ .ok → s.running.regionCheck i e = code →
          exec (.regionSet tag p) s = .next (s.refused 1 tag code) := fun code hne hcheck => by
        refine ringEvent_refused (run := State.runRegionSet tag p) h ?_
        simp only [State.runRegionSet, State.regionSet_spelled s.running hc hi he, hcheck, if_neg hne]
        rfl
      refine ⟨fun j hj hb => hrefuse _ (by decide) ?_, fun j hj hb hr hk => hrefuse _ (by decide) ?_, fun hjobs => ?_⟩
      · have hb' : (s.running.job j).state.bindable = false := hb
        simp [State.regionCheck, hj, hb']
      · have hb' : (s.running.job j).state.bindable = true := hb
        have hk' : (s.running.job j).kind = .scan := hk
        simp [State.regionCheck, hj, hb', hk', hr]
      · have hcheck := State.regionCheck_frames s.running i he hjobs
        have hpass : ∀ {b : Bool}, b = false → ¬ b = true := fun hb => by simp [hb]
        refine ⟨fun hw => hrefuse _ (by decide) (hcheck.trans (if_pos hw)), fun hw => ?_⟩
        rw [if_neg (not_not.2 hw)] at hcheck
        refine ⟨fun hd => hrefuse _ (by decide) (hcheck.trans (if_pos hd)), fun hd ho => hrefuse _ (by decide) ?_,
          fun hd ho hwp => hrefuse _ (by decide) ?_, fun hd ho hwp hcls hring => hrefuse _ (by decide) ?_⟩
        · exact hcheck.trans ((if_neg (hpass hd)).trans (if_pos ho))
        · exact hcheck.trans ((if_neg (hpass hd)).trans ((if_neg (hpass ho)).trans (if_pos hwp)))
        · exact hcheck.trans ((if_neg (hpass hd)).trans ((if_neg (hpass ho)).trans ((if_neg (hpass hwp)).trans
            (if_pos (by rw [Bool.and_eq_true, jobBound_iff]; exact ⟨hcls, hring⟩)))))

end Sys2Proof.Proofs
end

