-- ==== Sys2Proof/Proofs/AccountSide.lean ====
section
/-!
The account side of the part: ACE, AMEM, CCU and TMU with the random source, the time and the reports handed. What TMU and CCU do
reads and changes that side alone (and the configuration in ACE), whatever the rest of the part is.
-/

namespace Sys2Proof.Machine

/-- The part `c` with the account side of `s`. -/
def State.withSide (c s : State) : State :=
  { c with ace := s.ace, amem := s.amem, ccu := s.ccu, tmu := s.tmu, draws := s.draws, ms := s.ms, handed := s.handed }

/-- An operation of TMU and CCU: it reads and changes the account side alone, leaves ACE as it is, and keeps the capacity of the
Departed Cartridge List. -/
structure Sided (f : State → State) : Prop where
  comm : ∀ c s : State, f (c.withSide s) = c.withSide (f s)
  ace : ∀ s : State, (f s).ace = s.ace
  departed : ∀ s : State, s.ccu.departed.length ≤ 8 → (f s).ccu.departed.length ≤ 8

theorem State.withSide_self (s : State) : s.withSide s = s := rfl

/-- A sided operation leaves the rest of the part as it is. -/
theorem Sided.apply_eq {f : State → State} (hf : Sided f) (s : State) : f s = s.withSide (f s) := by
  conv_lhs => rw [← s.withSide_self]
  exact hf.comm s s

theorem Sided.comp {f g : State → State} (hf : Sided f) (hg : Sided g) : Sided fun s => f (g s) where
  comm c s := (congrArg f (hg.comm c s)).trans (hf.comm c (g s))
  ace s := (hf.ace (g s)).trans (hg.ace s)
  departed s h := hf.departed (g s) (hg.departed s h)

theorem Sided.foldl {α : Type} {f : State → α → State} (hf : ∀ a, Sided fun s => f s a) (as : List α) :
    Sided fun s => as.foldl f s := by
  induction as with
  | nil => exact ⟨fun _ _ => rfl, fun _ => rfl, fun _ h => h⟩
  | cons a as ih => exact ih.comp (hf a)

/-- An operation that chooses by a value of the account side. -/
theorem Sided.choose {α : Type} {f : α → State → State} (v : State → α) (hv : ∀ c s : State, v (c.withSide s) = v s)
    (hf : ∀ a, Sided (f a)) : Sided fun s => f (v s) s where
  comm c s := by
    show f (v (c.withSide s)) (c.withSide s) = _
    rw [hv c s]
    exact (hf (v s)).comm c s
  ace s := (hf (v s)).ace s
  departed s h := (hf (v s)).departed s h

theorem Sided.ite {f g : State → State} {p : State → Prop} [∀ s, Decidable (p s)]
    (hp : ∀ c s : State, p (c.withSide s) ↔ p s) (hf : Sided f) (hg : Sided g) :
    Sided fun s => if p s then f s else g s := by
  have hchoose : Sided fun s => (fun (b : Bool) t => if b then f t else g t) (decide (p s)) s :=
    Sided.choose (f := fun (b : Bool) t => if b then f t else g t) (fun s => decide (p s))
      (fun c s => decide_eq_decide.2 (hp c s)) (Bool.rec hg hf)
  have heq : (fun s => if p s then f s else g s) = fun s => (fun (b : Bool) t => if b then f t else g t) (decide (p s)) s := by
    funext s
    by_cases h : p s <;> simp [h]
  rw [heq]
  exact hchoose

theorem Sided.id : Sided fun s => s := ⟨fun _ _ => rfl, fun _ => rfl, fun _ h => h⟩

/-! ## Toner (chapter 8) -/

theorem sided_checkLow (p : Fin 4) : Sided fun s => s.checkLow p :=
  Sided.ite (fun _ _ => Iff.rfl) ⟨fun _ _ => rfl, fun _ => rfl, fun _ h => h⟩ Sided.id

theorem sided_checkOut (p : Fin 4) : Sided fun s => s.checkOut p :=
  Sided.ite (fun _ _ => Iff.rfl) ⟨fun _ _ => rfl, fun _ => rfl, fun _ h => h⟩ Sided.id

theorem sided_evalLevel (p : Fin 4) : Sided fun s => s.evalLevel p := (sided_checkOut p).comp (sided_checkLow p)

/-- A sided operation after a change of a plane's figures. -/
theorem Sided.modPlane {f : State → State} (hf : Sided f) (p : Fin 4) (g : Figures → Figures) :
    Sided fun s => f (s.modPlane p g) := hf.comp (g := fun s => s.modPlane p g) ⟨fun _ _ => rfl, fun _ => rfl, fun _ h => h⟩

/-- A sided operation after a change of a bay's record. -/
theorem Sided.modBay {f : State → State} (hf : Sided f) (p : Fin 4) (g : Bay → Bay) :
    Sided fun s => f (s.modBay p g) := hf.comp (g := fun s => s.modBay p g) ⟨fun _ _ => rfl, fun _ => rfl, fun _ h => h⟩

theorem sided_withdrawn (p : Fin 4) : Sided fun s => s.withdrawn p :=
  (sided_evalLevel p).modPlane p _

theorem sided_startRound (p : Fin 4) : Sided fun s => s.startRound p := by
  have hstarted : Sided fun s => if (s.plane p).stale.isSome = true
      then (s.modPlane p Figures.startRound).modBay p fun b => { b with waiting := true }
      else (s.modPlane p Figures.startRound).takeFirstSend p (s.plane p).roundAmount :=
    Sided.ite (fun _ _ => Iff.rfl) ⟨fun _ _ => rfl, fun _ => rfl, fun _ h => h⟩ ⟨fun _ _ => rfl, fun _ => rfl, fun _ h => h⟩
  exact Sided.ite (p := fun s => (s.bay p).state = .genuine) (fun _ _ => Iff.rfl) hstarted
    ((sided_withdrawn p).modPlane p _)

theorem sided_debitTest (p : Fin 4) : Sided fun s => s.debitTest p :=
  Sided.ite (p := fun s => s.roundIsDue p = true) (fun _ _ => Iff.rfl) (sided_startRound p)
    (Sided.ite (p := fun s => (s.plane p).flush = true ∧ (s.plane p).pending = 0) (fun _ _ => Iff.rfl) ⟨fun _ _ => rfl, fun _ => rfl, fun _ h => h⟩ Sided.id)

theorem sided_closeNotice : Sided State.closeNotice :=
  (Sided.foldl sided_debitTest (List.finRange 4)).comp (g := fun s => { s with tmu := s.tmu.map fun f => { f with flush := true } })
    ⟨fun _ _ => rfl, fun _ => rfl, fun _ h => h⟩

theorem sided_accrue (p : Fin 4) (d : Nat) : Sided fun s => s.accrue p d :=
  ((sided_debitTest p).comp (sided_evalLevel p)).comp (g := fun s => s.modPlane p fun f => f.accrue (d * (s.conf p).dotMass))
    ⟨fun _ _ => rfl, fun _ => rfl, fun _ h => h⟩

theorem sided_roundGood (p : Fin 4) (level : Nat) : Sided fun s => s.roundGood p level :=
  ((sided_debitTest p).comp (sided_evalLevel p)).modPlane p _

theorem sided_roundTagBad (p : Fin 4) : Sided fun s => s.roundTagBad p :=
  (sided_evalLevel p).modPlane p _

theorem sided_confirm (p : Fin 4) (amount : Nat) : Sided fun s => s.confirm p amount :=
  (sided_evalLevel p).modPlane p _

theorem sided_roundFailed (p : Fin 4) : Sided fun s => s.roundFailed p := by
  have hrepeat : ∀ n, Sided fun s => if n < 3 then
      ((s.modPlane p fun f => { f with round := some (n + 1) }).modBay p fun b => { b with waiting := true }).evalLevel p
      else (s.modPlane p Figures.goStale).evalLevel p := fun n =>
    Sided.ite (p := fun _ => n < 3) (fun _ _ => Iff.rfl)
      (((sided_evalLevel p).modBay p _).modPlane p _)
      ((sided_evalLevel p).modPlane p _)
  have heq : (fun s : State => s.roundFailed p) = fun s => Option.elim (s.plane p).round s fun n => if n < 3 then
      ((s.modPlane p fun f => { f with round := some (n + 1) }).modBay p fun b => { b with waiting := true }).evalLevel p
      else (s.modPlane p Figures.goStale).evalLevel p := by
    funext s
    unfold State.roundFailed
    cases (s.plane p).round <;> rfl
  rw [heq]
  refine Sided.choose (f := fun r s => Option.elim r s fun n => if n < 3 then
      ((s.modPlane p fun f => { f with round := some (n + 1) }).modBay p fun b => { b with waiting := true }).evalLevel p
      else (s.modPlane p Figures.goStale).evalLevel p) (fun s => (s.plane p).round) (fun _ _ => rfl) fun r => ?_
  cases r with
  | none => exact Sided.id
  | some n => exact hrepeat n

theorem sided_proofView (p : Fin 4) (view : BayState) (level : Nat) : Sided fun s => s.proofView p view level := by
  have heval : Sided fun s =>
      (s.modPlane p fun f => { f with view := view, viewLevel := level, level := .normal }).evalLevel p :=
    (sided_evalLevel p).modPlane p _
  exact Sided.ite (p := fun _ => view = .genuine) (fun _ _ => Iff.rfl) ((sided_debitTest p).comp heval) heval

/-! ## Bays (chapter 7) -/

theorem sided_bayChanged (r : BayReport) : Sided fun s => s.bayChanged r :=
  Sided.ite (p := fun _ => r.before = r.after) (fun _ _ => Iff.rfl) Sided.id ⟨fun _ _ => rfl, fun _ => rfl, fun _ h => h⟩

theorem sided_withdrawDebit (p : Fin 4) : Sided fun s => s.withdrawDebit p :=
  Sided.ite (p := fun s => (s.bay p).waiting = true) (fun _ _ => Iff.rfl)
    ((sided_withdrawn p).modBay p _) ⟨fun _ _ => rfl, fun _ => rfl, fun _ h => h⟩

/-- An operation with an answer that is sided. -/
structure SidedAnswer {α : Type} (f : State → State × α) : Prop where
  comm : ∀ c s : State, f (c.withSide s) = (c.withSide (f s).1, (f s).2)
  ace : ∀ s : State, (f s).1.ace = s.ace
  departed : ∀ s : State, s.ccu.departed.length ≤ 8 → (f s).1.ccu.departed.length ≤ 8

theorem appendDeparted_cases (s : State) (d : Departed) :
    (∃ e rest, s.ccu.departed = e :: rest ∧ 8 ≤ s.ccu.departed.length ∧ s.appendDeparted d =
      (({ s with ccu := { s.ccu with departed := rest ++ [d] } } : State).modPlane e.plane fun f => f.writeOff e.mg e.pg, some e))
    ∨ (s.ccu.departed.length < 8
      ∧ s.appendDeparted d = ({ s with ccu := { s.ccu with departed := s.ccu.departed ++ [d] } }, none)) := by
  unfold State.appendDeparted
  split
  · next e rest h =>
    by_cases h8 : 8 ≤ s.ccu.departed.length
    · exact .inl ⟨e, rest, h, h8, if_pos h8⟩
    · exact .inr ⟨Nat.lt_of_not_le h8, if_neg h8⟩
  · next h => exact .inr ⟨by simp [h], by simp [h]⟩

theorem sided_appendDeparted (d : Departed) : SidedAnswer fun s => s.appendDeparted d where
  comm c s := by
    have hdep : (c.withSide s).ccu.departed = s.ccu.departed := rfl
    simp only [State.appendDeparted, hdep]
    cases s.ccu.departed with
    | nil => rfl
    | cons e rest =>
      by_cases h : 8 ≤ (e :: rest).length
      · simp only [h, if_true]
        rfl
      · simp only [h, if_false]
        rfl
  ace s := by
    rcases appendDeparted_cases s d with ⟨e, rest, -, -, h⟩ | ⟨-, h⟩
    · exact congrArg (fun x : State × Option Departed => x.1.ace) h
    · exact congrArg (fun x : State × Option Departed => x.1.ace) h
  departed s h8 := by
    rcases appendDeparted_cases s d with ⟨e, rest, hd, -, h⟩ | ⟨hlt, h⟩ <;> rw [h]
    · rw [hd] at h8
      simpa using h8
    · simpa using hlt

theorem sided_disposeShare (p : Fin 4) (u : Option Unconfirmed) : SidedAnswer fun s => s.disposeShare p u where
  comm c s := by
    have hserial : ((c.withSide s).bay p).serial = (s.bay p).serial := rfl
    have hplane : (c.withSide s).plane p = s.plane p := rfl
    have hstate : ((c.withSide s).bay p).state = (s.bay p).state := rfl
    simp only [State.disposeShare, hserial, hplane, hstate]
    cases (s.bay p).serial with
    | none => rfl
    | some serial =>
      by_cases h₁ : (s.plane p).pending = 0 ∧ (s.plane p).pg = 0
      · simp only [h₁, and_self, if_true]
        rfl
      · by_cases h₂ : (s.bay p).state = .unproven
        · simp only [h₁, h₂, if_true, if_false]
          rfl
        · have happ := (sided_appendDeparted ⟨serial, p, (s.plane p).pending, (s.plane p).pg, u⟩).comm c
            (s.modPlane p Figures.takeShare)
          simp only [h₁, h₂, if_false]
          exact congrArg (fun x : State × Option Departed =>
            (x.1, (⟨.entryMade, (s.plane p).pending, (s.plane p).pg, x.2⟩ : DepartureItems))) happ
  ace s := by
    simp only [State.disposeShare]
    cases (s.bay p).serial with
    | none => rfl
    | some serial =>
      by_cases h₁ : (s.plane p).pending = 0 ∧ (s.plane p).pg = 0
      · simp only [h₁, and_self, if_true]
        rfl
      · by_cases h₂ : (s.bay p).state = .unproven
        · simp only [h₁, h₂, if_true, if_false]
          rfl
        · simp only [h₁, h₂, if_false]
          exact (sided_appendDeparted _).ace (s.modPlane p Figures.takeShare)
  departed s h := by
    simp only [State.disposeShare]
    cases (s.bay p).serial with
    | none => exact h
    | some serial =>
      by_cases h₁ : (s.plane p).pending = 0 ∧ (s.plane p).pg = 0
      · simp only [h₁, and_self, if_true]
        exact h
      · by_cases h₂ : (s.bay p).state = .unproven
        · simp only [h₁, h₂, if_true, if_false]
          exact h
        · simp only [h₁, h₂, if_false]
          exact (sided_appendDeparted _).departed (s.modPlane p Figures.takeShare) h

theorem sided_depart (p : Fin 4) : SidedAnswer fun s => s.depart p where
  comm c s := by
    have hdispose := (sided_disposeShare p (s.bay p).departingDebit).comm c (s.withdrawDebit p)
    have hwithdraw := (sided_withdrawDebit p).comm c s
    have hbay : ((c.withSide s).bay p).departingDebit = (s.bay p).departingDebit := rfl
    simp only [State.depart, hbay, hwithdraw, hdispose]
    rfl
  ace s := ((sided_disposeShare p _).ace _).trans ((sided_withdrawDebit p).ace s)
  departed s h := (sided_disposeShare p _).departed _ ((sided_withdrawDebit p).departed s h)

/-- A departure and what follows from its answer. -/
theorem Sided.depart {f : DepartureItems → State → State} (hf : ∀ x, Sided (f x)) (p : Fin 4) :
    Sided fun s => f (s.depart p).2 (s.depart p).1 where
  comm c s := by
    have h := (sided_depart p).comm c s
    simp only [h]
    exact (hf _).comm c _
  ace s := ((hf _).ace _).trans ((sided_depart p).ace s)
  departed s h := (hf _).departed _ ((sided_depart p).departed s h)

theorem sided_endExchange (p : Fin 4) : Sided fun s => s.endExchange p := ⟨fun _ _ => rfl, fun _ => rfl, fun _ h => h⟩

theorem sided_attachTest (p : Fin 4) : Sided fun s => s.attachTest p :=
  Sided.ite (p := fun s => (s.conf p).attach ≤ (s.bay p).settle) (fun _ _ => Iff.rfl) ⟨fun _ _ => rfl, fun _ => rfl, fun _ h => h⟩ Sided.id

theorem sided_detachBay (p : Fin 4) : Sided fun s => s.detachBay p := by
  have hdepart : ∀ b : Bay, Sided fun s =>
      (((s.modBay p fun b => { b with line := none, due := .never }).depart p).1).bayChanged
        (departReport p b .vacant .standby ((s.modBay p fun b => { b with line := none, due := .never }).depart p).2) :=
    fun b => (Sided.depart (f := fun items t => t.bayChanged (departReport p b .vacant .standby items))
      (fun _ => sided_bayChanged _) p).modBay p _
  exact Sided.ite (p := fun s => (s.bay p).state = .vacant) (fun _ _ => Iff.rfl) ⟨fun _ _ => rfl, fun _ => rfl, fun _ h => h⟩
    (Sided.choose (fun s => s.bay p) (fun _ _ => rfl) hdepart)

theorem sided_detachAll : Sided State.detachAll := Sided.foldl sided_detachBay _

theorem sided_firstPolls : Sided State.firstPolls := ⟨fun _ _ => rfl, fun _ => rfl, fun _ h => h⟩

end Sys2Proof.Machine
end

