-- ==== Sys2Proof/Proofs/Keeps.lean ====
section
/-!
What a step must keep, and the frame of an operation. `Keeps` gathers the laws of O5 and O7 over one change of the part, so that every
operation of the model is walked through once; `Frame` says that an operation leaves what those laws look at as it is.
-/

namespace Sys2Proof.Machine

/-! ## Counting slots -/

/-- A predicate that one more element of a list without repeats meets counts one more. -/
theorem length_filter_add_one {α : Type} {p q : α → Bool} {l : List α} {i : α} (hn : l.Nodup) (hi : i ∈ l)
    (hp : p i = false) (hq : q i = true) (h : ∀ k, k ≠ i → p k = q k) : (l.filter q).length = (l.filter p).length + 1 := by
  induction l with
  | nil => cases hi
  | cons a l ih =>
    obtain ⟨ha, hn⟩ := List.nodup_cons.1 hn
    rcases List.mem_cons.1 hi with rfl | hi
    · have hrest : l.filter q = l.filter p :=
        List.filter_congr fun k hk => (h k fun e => ha (e ▸ hk)).symm
      simp [hp, hq, hrest]
    · have hne : a ≠ i := fun e => ha (e ▸ hi)
      cases hpa : p a <;> simp [hpa, ← h a hne, ih hn hi]

/-- A predicate that one more slot meets counts one more. -/
theorem slotCount_add_one {n : Nat} {p q : Fin n → Bool} (i : Fin n) (hp : p i = false) (hq : q i = true)
    (h : ∀ k, k ≠ i → p k = q k) : ((List.finRange n).filter q).length = ((List.finRange n).filter p).length + 1 :=
  length_filter_add_one (List.nodup_finRange n) (List.mem_finRange i) hp hq h

theorem slotCount_congr {n : Nat} {p q : Fin n → Bool} (h : ∀ k, p k = q k) :
    ((List.finRange n).filter q).length = ((List.finRange n).filter p).length := by
  rw [funext h]

theorem slotCount_zero {n : Nat} {p : Fin n → Bool} (h : ∀ k, p k = false) : ((List.finRange n).filter p).length = 0 := by
  simp [List.filter_eq_nil_iff, h]

/-! ## The laws over one change -/

/-- The law of the command in hand, with a command in hand as `h` says: while a fetched command runs, the fetch is done and the
register still names it. -/
def State.commandLawAs (s : State) (h : Bool) : Prop :=
  ((List.finRange 8).filter fun i => (s.down.internal[i]).any InternalSlot.isFetch).length = (if h then 1 else 0)
    ∧ (h = true → s.rci.startup = .anchored ∧ s.rci.standby = .running)
    ∧ (s.rci.startup ≠ .anchored ∨ s.rci.standby ≠ .running → s.jct.marking = none ∧ s.jct.stack = [])

/-- The law of the marking jobs, with a command in hand as `h` says. -/
def State.markingLawAs (s : State) (h : Bool) : Prop :=
  s.jct.stackLaw ∧ s.commandLawAs h
    ∧ (∀ m ∈ s.jct.marking, (s.job m.job).state.bindable = true)
    ∧ ∀ m ∈ s.jct.stack, (s.job m.job).state.bindable = true
        ∨ ((s.job m.job).state = .closing ∧ (s.job m.job).closePending = true)

theorem State.markingLaw_iff (s : State) : s.markingLaw ↔ s.markingLawAs s.rci.hand := Iff.rfl

/-- The laws of the credits and of the counts go over from `s` to `t`. -/
structure KeepsTraffic (s t : State) : Prop where
  credit : s.creditLaw → t.creditLaw
  reference : s.referenceLaw → t.referenceLaw

/-- The capacities of the stores and the laws of the capture and of the generator go over. `n` bounds a Hold Queue that grows. -/
structure KeepsStores (n : Nat) (s t : State) : Prop where
  hold : t.path.hold.length ≤ max s.path.hold.length n
  reports : s.rci.queue.length ≤ 16 → t.rci.queue.length ≤ 16
  wipes : s.wpe.queue.length ≤ 32 → t.wpe.queue.length ≤ 32
  writeBacks : s.ace.queue.length ≤ 16 → t.ace.queue.length ≤ 16
  departed : s.ccu.departed.length ≤ 8 → t.ccu.departed.length ≤ 8
  capture : s.path.captureLaw → t.path.captureLaw
  pattern : s.wpe.patternLaw → t.wpe.patternLaw

theorem KeepsStores.refl (n : Nat) (s : State) : KeepsStores n s s :=
  ⟨Nat.le_max_left _ _, id, id, id, id, id, id⟩

/-- The laws of the marking jobs, of their contexts and of the record names go over. With `k = some h` the law of the command in hand
goes over too, with a command in hand as `h` says, and the register `hand` stands. -/
structure KeepsMarks (k : Option Bool) (s t : State) : Prop where
  stack : s.jct.stackLaw → t.jct.stackLaw
  queue : s.jct.queueLaw → t.jct.queueLaw
  names : s.namesLaw → t.namesLaw
  marking : ∀ h ∈ k, s.markingLawAs h → t.markingLawAs h
  hand : k.isSome → t.rci.hand = s.rci.hand

/-- Every law of O5 and O7 goes over from `s` to `t`. -/
structure Keeps (n : Nat) (k : Option Bool) (s t : State) : Prop where
  traffic : KeepsTraffic s t
  stores : KeepsStores n s t
  marks : KeepsMarks k s t

theorem Keeps.trans {n : Nat} {k : Option Bool} {s t u : State} (h : Keeps n k s t) (g : Keeps n k t u) : Keeps n k s u where
  traffic := ⟨fun x => g.traffic.credit (h.traffic.credit x), fun x => g.traffic.reference (h.traffic.reference x)⟩
  stores := {
    hold := by
      have h₁ := h.stores.hold
      have h₂ := g.stores.hold
      omega
    reports := fun x => g.stores.reports (h.stores.reports x)
    wipes := fun x => g.stores.wipes (h.stores.wipes x)
    writeBacks := fun x => g.stores.writeBacks (h.stores.writeBacks x)
    departed := fun x => g.stores.departed (h.stores.departed x)
    capture := fun x => g.stores.capture (h.stores.capture x)
    pattern := fun x => g.stores.pattern (h.stores.pattern x) }
  marks := {
    stack := fun x => g.marks.stack (h.marks.stack x)
    queue := fun x => g.marks.queue (h.marks.queue x)
    names := fun x => g.marks.names (h.marks.names x)
    marking := fun a ha x => g.marks.marking a ha (h.marks.marking a ha x)
    hand := fun x => (g.marks.hand x).trans (h.marks.hand x) }

/-! ## What keeps a law -/

/-- The counts and the credits stand where trackers, port and in-flight counts stand and every job keeps its references; a job that
leaves its live state has none. -/
theorem KeepsTraffic.of_jobs {s t : State} (hd : t.down = s.down) (hr : t.path.reads = s.path.reads)
    (hw : t.path.writes = s.path.writes) (hf : t.rgt.inFlight = s.rgt.inFlight)
    (hj : s.referenceLaw → ∀ j, (t.job j).refs = (s.job j).refs
      ∧ ((t.job j).state.live = false → (s.job j).state.live = false ∨ (s.job j).refs = 0)) : KeepsTraffic s t where
  credit h := by
    obtain ⟨hsum, hn, ho, hin, hio⟩ := h
    refine ⟨?_, hd ▸ hn, ?_, hd ▸ hin, ?_⟩
    · simp only [State.outstanding, State.readsOut, State.writesOut, State.issuedRead?, State.issuedWrite?, hd, hr, hw]
      exact hsum
    · intro f hmem
      have := ho f (hd ▸ hmem)
      cases f <;> simpa only [Path.occupied, hr, hw] using this
    · intro i hi
      rw [hd] at hi ⊢
      exact hio i hi
  reference h := by
    have hjob := hj h
    obtain ⟨hrefs, hflight⟩ := h
    refine ⟨fun j => ⟨?_, fun hl => ?_⟩, fun e => ?_⟩
    · simp only [State.slotsOfJob, hr, hw, (hjob j).1]
      exact (hrefs j).1
    · rw [(hjob j).1]
      exact ((hjob j).2 hl).elim (hrefs j).2 fun h0 => h0
    · simp only [State.slotsOfEntry, hr, hw, hf]
      exact hflight e

/-- A context holds no more records than another and only names that it holds, or none at all. -/
def Context.Within (c d : Context) : Prop :=
  c.queue.length ≤ d.queue.length ∧ ∀ r ∈ c.queue, ∃ q ∈ d.queue, r.opened = q.opened

theorem Context.Within.refl (c : Context) : c.Within c := ⟨Nat.le_refl _, fun r hr => ⟨r, hr, rfl⟩⟩

theorem Context.Within.trans {c d e : Context} (h : c.Within d) (g : d.Within e) : c.Within e :=
  ⟨Nat.le_trans h.1 g.1, fun r hr => by
    obtain ⟨q, hq, e₁⟩ := h.2 r hr
    obtain ⟨x, hx, e₂⟩ := g.2 q hq
    exact ⟨x, hx, e₁.trans e₂⟩⟩

/-- Every context with records comes from one that held them. -/
def Jobs.Within (k j : Jobs) : Prop :=
  ∀ m ∈ k.contexts, m.ctx.queue = [] ∨ ∃ x ∈ j.contexts, m.ctx.Within x.ctx

theorem Jobs.Within.of_mem {k j : Jobs} (h : ∀ m ∈ k.contexts, ∃ x ∈ j.contexts, m.ctx.Within x.ctx) : k.Within j :=
  fun m hm => .inr (h m hm)

theorem Jobs.Within.refl (j : Jobs) : j.Within j := fun m hm => .inr ⟨m, hm, .refl _⟩

theorem Jobs.Within.trans {l k j : Jobs} (h : l.Within k) (g : k.Within j) : l.Within j := fun m hm => by
  rcases h m hm with h0 | ⟨x, hx, hw⟩
  · exact .inl h0
  · rcases g x hx with h0 | ⟨y, hy, hv⟩
    · have := hw.1
      rw [h0] at this
      exact .inl (List.length_eq_zero_iff.1 (Nat.le_zero.1 this))
    · exact .inr ⟨y, hy, hw.trans hv⟩

theorem Jobs.Within.queueLaw {k j : Jobs} (h : k.Within j) (hq : j.queueLaw) : k.queueLaw := fun m hm => by
  rcases h m hm with h0 | ⟨x, hx, hw⟩
  · simp [h0]
  · exact Nat.le_trans hw.1 (hq x hx)

theorem State.namesLaw_iff (s : State) : s.namesLaw ↔ ∀ m ∈ s.jct.contexts, ∀ r ∈ m.ctx.queue, r.opened ≤ s.rmu.opened := by
  simp only [State.namesLaw, Jobs.records, List.mem_flatMap]
  exact ⟨fun h m hm r hr => h r ⟨m, hm, hr⟩, fun h r ⟨m, hm, hr⟩ => h m hm r hr⟩

theorem Jobs.Within.namesLaw {s t : State} (h : t.jct.Within s.jct) (ho : s.rmu.opened ≤ t.rmu.opened) (hn : s.namesLaw) :
    t.namesLaw := by
  rw [State.namesLaw_iff] at hn ⊢
  intro m hm r hr
  rcases h m hm with h0 | ⟨x, hx, -, hw⟩
  · rw [h0] at hr
    cases hr
  · obtain ⟨q, hq, e⟩ := hw r hr
    have := hn x hx q hq
    omega

/-! ## The frame of an operation -/

/-- An operation leaves what the laws look at as it is: the trackers, the port and the counts, the jobs' states, the marking and the
stacked jobs; no context gains a record, no store overflows, and the part neither leaves ANCHORED nor RUNNING. -/
structure Frame (s t : State) : Prop where
  down : t.down = s.down
  reads : t.path.reads = s.path.reads
  writes : t.path.writes = s.path.writes
  inFlight : t.rgt.inFlight = s.rgt.inFlight
  refs : ∀ j, (t.job j).refs = (s.job j).refs
  states : ∀ j, (t.job j).state = (s.job j).state
  pending : ∀ j, (t.job j).closePending = (s.job j).closePending
  marking : t.jct.marking.map Marked.job = s.jct.marking.map Marked.job
  stack : t.jct.stack.map Marked.job = s.jct.stack.map Marked.job
  contexts : t.jct.Within s.jct
  opened : s.rmu.opened ≤ t.rmu.opened
  startup : s.rci.startup = .anchored → t.rci.startup = .anchored
  standby : s.rci.standby = .running → t.rci.standby = .running
  hand : t.rci.hand = s.rci.hand
  hold : t.path.hold.length ≤ s.path.hold.length
  reports : s.rci.queue.length ≤ 16 → t.rci.queue.length ≤ 16
  wipes : s.wpe.queue.length ≤ 32 → t.wpe.queue.length ≤ 32
  writeBacks : s.ace.queue.length ≤ 16 → t.ace.queue.length ≤ 16
  departed : s.ccu.departed.length ≤ 8 → t.ccu.departed.length ≤ 8
  capture : s.path.captureLaw → t.path.captureLaw
  pattern : s.wpe.patternLaw → t.wpe.patternLaw

theorem Frame.refl (s : State) : Frame s s :=
  ⟨rfl, rfl, rfl, rfl, fun _ => rfl, fun _ => rfl, fun _ => rfl, rfl, rfl, Jobs.Within.refl _, Nat.le_refl _, id, id, rfl,
    Nat.le_refl _, id, id, id, id, id, id⟩

theorem Frame.trans {s t u : State} (h : Frame s t) (g : Frame t u) : Frame s u where
  down := g.down.trans h.down
  reads := g.reads.trans h.reads
  writes := g.writes.trans h.writes
  inFlight := g.inFlight.trans h.inFlight
  refs j := (g.refs j).trans (h.refs j)
  states j := (g.states j).trans (h.states j)
  pending j := (g.pending j).trans (h.pending j)
  marking := g.marking.trans h.marking
  stack := g.stack.trans h.stack
  contexts := g.contexts.trans h.contexts
  opened := Nat.le_trans h.opened g.opened
  startup x := g.startup (h.startup x)
  standby x := g.standby (h.standby x)
  hand := g.hand.trans h.hand
  hold := Nat.le_trans g.hold h.hold
  reports x := g.reports (h.reports x)
  wipes x := g.wipes (h.wipes x)
  writeBacks x := g.writeBacks (h.writeBacks x)
  departed x := g.departed (h.departed x)
  capture x := g.capture (h.capture x)
  pattern x := g.pattern (h.pattern x)

theorem Frame.foldl {α : Type} {f : State → α → State} (hf : ∀ s a, Frame s (f s a)) (as : List α) (s : State) :
    Frame s (as.foldl f s) := by
  induction as generalizing s with
  | nil => exact .refl s
  | cons a as ih => exact (hf s a).trans (ih (f s a))

theorem Frame.ite {s t u : State} {p : Prop} [Decidable p] (ht : Frame s t) (hu : Frame s u) :
    Frame s (if p then t else u) := by
  split
  · exact ht
  · exact hu

theorem Sided.frame {f : State → State} (hf : Sided f) (s : State) : Frame s (f s) := by
  have h := hf.apply_eq s
  exact {
    down := (congrArg State.down h :)
    reads := (congrArg (fun t => t.path.reads) h :)
    writes := (congrArg (fun t => t.path.writes) h :)
    inFlight := (congrArg (fun t => t.rgt.inFlight) h :)
    refs := fun j => (congrArg (fun t => (t.job j).refs) h :)
    states := fun j => (congrArg (fun t => (t.job j).state) h :)
    pending := fun j => (congrArg (fun t => (t.job j).closePending) h :)
    marking := (congrArg (fun t => t.jct.marking.map Marked.job) h :)
    stack := (congrArg (fun t => t.jct.stack.map Marked.job) h :)
    contexts := by rw [h]; exact .refl _
    opened := by rw [h]; exact Nat.le_refl _
    startup := by rw [h]; exact fun x => x
    standby := by rw [h]; exact fun x => x
    hand := (congrArg (fun t => t.rci.hand) h :)
    hold := by rw [h]; exact Nat.le_refl _
    reports := by rw [h]; exact fun x => x
    wipes := by rw [h]; exact fun x => x
    writeBacks := by rw [hf.ace]; exact fun x => x
    departed := hf.departed s
    capture := by rw [h]; exact fun x => x
    pattern := by rw [h]; exact fun x => x }

/-- The marking or stacked jobs of two parts are the same slots. -/
theorem stackLaw_congr {j k : Jobs} (hm : k.marking.map Marked.job = j.marking.map Marked.job)
    (hs : k.stack.map Marked.job = j.stack.map Marked.job) (h : j.stackLaw) : k.stackLaw := by
  obtain ⟨hlen, hnodup⟩ := h
  have hl : k.stack.length = j.stack.length := by simpa using congrArg List.length hs
  have hlist : (k.marking.toList ++ k.stack).map Marked.job = (j.marking.toList ++ j.stack).map Marked.job := by
    simp only [List.map_append, hs, ← Option.toList_map, hm]
  exact ⟨hl ▸ hlen, hlist ▸ hnodup⟩

/-- Where the marking register names the same slot, each job it names is one that it named. -/
theorem mem_marking_of_map {j k : Jobs} (hm : k.marking.map Marked.job = j.marking.map Marked.job) {m : Marked}
    (h : m ∈ k.marking) : ∃ x ∈ j.marking, x.job = m.job := by
  have : m.job ∈ k.marking.map Marked.job := Option.mem_map_of_mem _ h
  rw [hm] at this
  exact Option.mem_map.1 this

theorem mem_stack_of_map {j k : Jobs} (hs : k.stack.map Marked.job = j.stack.map Marked.job) {m : Marked}
    (h : m ∈ k.stack) : ∃ x ∈ j.stack, x.job = m.job := by
  have : m.job ∈ k.stack.map Marked.job := List.mem_map_of_mem h
  rw [hs] at this
  exact List.mem_map.1 this

theorem marking_eq_none_of_map {j k : Jobs} (hm : k.marking.map Marked.job = j.marking.map Marked.job)
    (h : j.marking = none) : k.marking = none := by
  rw [h] at hm
  exact Option.map_eq_none_iff.1 hm

theorem stack_eq_nil_of_map {j k : Jobs} (hs : k.stack.map Marked.job = j.stack.map Marked.job)
    (h : j.stack = []) : k.stack = [] := by
  rw [h] at hs
  exact List.map_eq_nil_iff.1 hs

/-- The law of the marking jobs stands where the marking and stacked jobs, their states and the fetches stand, and the part leaves
neither ANCHORED nor RUNNING. -/
theorem markingLawAs_congr {s t : State} {h : Bool} (hi : t.down.internal = s.down.internal)
    (hm : t.jct.marking.map Marked.job = s.jct.marking.map Marked.job)
    (hs : t.jct.stack.map Marked.job = s.jct.stack.map Marked.job)
    (hup : s.rci.startup = .anchored → t.rci.startup = .anchored) (hrun : s.rci.standby = .running → t.rci.standby = .running)
    (hj : ∀ j, (t.job j).state = (s.job j).state) (hp : ∀ j, (t.job j).closePending = (s.job j).closePending)
    (hlaw : s.markingLawAs h) : t.markingLawAs h := by
  obtain ⟨hstack, ⟨hfetch, hin, hout⟩, hmark, hstacked⟩ := hlaw
  refine ⟨stackLaw_congr hm hs hstack, ⟨?_, fun x => ⟨hup (hin x).1, hrun (hin x).2⟩, fun x => ?_⟩, fun m hx => ?_, fun m hx => ?_⟩
  · rw [hi]
    exact hfetch
  · have hsx : s.rci.startup ≠ .anchored ∨ s.rci.standby ≠ .running := x.imp (mt hup) (mt hrun)
    exact ⟨marking_eq_none_of_map hm (hout hsx).1, stack_eq_nil_of_map hs (hout hsx).2⟩
  · obtain ⟨x, hmem, e⟩ := mem_marking_of_map hm hx
    rw [hj, ← e]
    exact hmark x hmem
  · obtain ⟨x, hmem, e⟩ := mem_stack_of_map hs hx
    rw [hj, hp, ← e]
    exact hstacked x hmem

theorem Frame.traffic {s t : State} (f : Frame s t) : KeepsTraffic s t :=
  .of_jobs f.down f.reads f.writes f.inFlight fun _ j => ⟨f.refs j, fun h => .inl (f.states j ▸ h)⟩

theorem Frame.stores {s t : State} (f : Frame s t) (n : Nat) : KeepsStores n s t where
  hold := Nat.le_trans f.hold (Nat.le_max_left _ _)
  reports := f.reports
  wipes := f.wipes
  writeBacks := f.writeBacks
  departed := f.departed
  capture := f.capture
  pattern := f.pattern

theorem Frame.marks {s t : State} (f : Frame s t) (k : Option Bool) : KeepsMarks k s t where
  stack := stackLaw_congr f.marking f.stack
  queue := f.contexts.queueLaw
  names := f.contexts.namesLaw f.opened
  marking _ _ := markingLawAs_congr (congrArg Down.internal f.down) f.marking f.stack f.startup f.standby f.states f.pending
  hand _ := f.hand

theorem Frame.keeps {s t : State} (f : Frame s t) {n : Nat} {k : Option Bool} : Keeps n k s t := ⟨f.traffic, f.stores n, f.marks k⟩

theorem Keeps.refl {n : Nat} {k : Option Bool} (s : State) : Keeps n k s s := (Frame.refl s).keeps

theorem Keeps.foldl {α : Type} {n : Nat} {k : Option Bool} {f : State → α → State} (hf : ∀ s a, Keeps n k s (f s a))
    (as : List α) (s : State) : Keeps n k s (as.foldl f s) := by
  induction as generalizing s with
  | nil => exact .refl s
  | cons a as ih => exact (hf s a).trans (ih (f s a))

end Sys2Proof.Machine
end

