-- ==== Sys2Proof/Proofs/Frames.lean ====
section
/-!
The frames of the operations of ACE, of the contexts and their records, of the Region Table and of the reports: what each leaves as it
is, and that no store overflows.
-/

namespace Sys2Proof.Machine

/-! ## ACE -/

theorem Ace.setWb_queue (a : Ace) (r : RecId) (w : WbState) : (a.setWb r w).queue = a.queue := by
  cases r <;> rfl

theorem Ace.trigger_bounded (a : Ace) (r : RecId) (h : a.queue.length ≤ 16) : (a.trigger r).queue.length ≤ 16 := by
  rcases a.trigger_cases r with ⟨-, e⟩ | ⟨-, -, hlt, e⟩ | ⟨-, -, e⟩
  · rw [e]; exact h
  · rw [e]
    simp only [List.length_append, List.length_singleton]
    omega
  · rw [e]
    show (a.setWb r .waiting).queue.length ≤ 16
    rw [a.setWb_queue]
    exact h

theorem Ace.triggerAll_bounded (rs : List RecId) (a : Ace) (h : a.queue.length ≤ 16) :
    (a.triggerAll rs).queue.length ≤ 16 := by
  induction rs generalizing a with
  | nil => exact h
  | cons r rs ih => exact ih _ (a.trigger_bounded r h)

theorem Ace.serviceFailures_bounded (a : Ace) (n : Nat) (h : a.queue.length ≤ 16) :
    (a.serviceFailures n).queue.length ≤ 16 := by
  unfold Ace.serviceFailures
  split
  · exact h
  · exact Ace.trigger_bounded _ _ h

theorem Ace.countUser_bounded (a : Ace) (u : Fin 256) (h : a.queue.length ≤ 16) : (a.countUser u).queue.length ≤ 16 := by
  unfold Ace.countUser
  simp only
  split
  · exact Ace.trigger_bounded _ _ h
  · exact h

theorem Ace.countDept_bounded (a : Ace) (d : Fin 16) (h : a.queue.length ≤ 16) : (a.countDept d).queue.length ≤ 16 := by
  unfold Ace.countDept
  simp only
  split
  · exact Ace.trigger_bounded _ _ h
  · exact h

theorem Ace.countMeters_bounded (a : Ace) (h : a.queue.length ≤ 16) : a.countMeters.queue.length ≤ 16 := by
  unfold Ace.countMeters
  simp only
  split
  · exact Ace.trigger_bounded _ _ h
  · exact h

theorem Ace.postDept_bounded (a : Ace) (u : Fin 256) (x : Nat) (h : a.queue.length ≤ 16) :
    (a.postDept u x).queue.length ≤ 16 := by
  unfold Ace.postDept
  split
  · exact h
  · exact Ace.countDept_bounded _ _ h

theorem Ace.postCharge_bounded (a : Ace) (r : PageRecord) (p : PageCharge) (h : a.queue.length ≤ 16) :
    (a.postCharge r p).queue.length ≤ 16 := by
  unfold Ace.postCharge
  refine Ace.countMeters_bounded _ ?_
  show (Ace.postDept ((a.putUser r.user ((a.users[r.user]).stored.post p.charge p.colour)).countUser r.user) r.user
    p.charge).queue.length ≤ 16
  exact Ace.postDept_bounded _ _ _ (Ace.countUser_bounded _ _ h)

theorem Ace.refill_bounded (a : Ace) (h : a.queue.length + 1 ≤ 16) : a.refill.queue.length ≤ 16 := by
  unfold Ace.refill
  split
  · omega
  · simp only [List.length_append, List.length_singleton]
    omega

theorem Ace.startWrite_bounded (a : Ace) (h : a.queue.length ≤ 16) : a.startWrite.queue.length ≤ 16 := by
  unfold Ace.startWrite
  split
  · exact h
  · next r rest hq =>
    refine Ace.refill_bounded _ ?_
    simpa [hq] using h

/-- What two admin commands share: a record takes a value, and an alteration is triggered (R116). -/
theorem Ace.put_bounded {a b : Ace} {p : Prop} [Decidable p] (r : RecId) (hb : b.queue = a.queue) (h : a.queue.length ≤ 16) :
    (if p then a else b.trigger r).queue.length ≤ 16 := by
  split
  · exact h
  · exact Ace.trigger_bounded _ _ (hb ▸ h)

theorem frame_hand (s : State) (b : ReportBody) (tag : BitVec 16) : Frame s (s.hand b tag) := { Frame.refl s with }

theorem frame_handHeld (s : State) (b : ReportBody) (tag : BitVec 16) : Frame s (s.handHeld b tag) := { Frame.refl s with }

theorem frame_give (s : State) (o : Output) : Frame s (s.give o) := { Frame.refl s with }

theorem frame_handed (s : State) (hs : List Handed) : Frame s { s with handed := hs } := { Frame.refl s with }

theorem frame_ace {s : State} {a : Ace} (h : s.ace.queue.length ≤ 16 → a.queue.length ≤ 16) :
    Frame s { s with ace := a } := { Frame.refl s with
  writeBacks := h }

theorem frame_pinChecked (s : State) (u : Fin 256) (good : Bool) : Frame s (s.pinChecked u good) := by
  unfold State.pinChecked
  exact Frame.ite (.refl s) (frame_ace fun h => Ace.trigger_bounded _ _ h)

theorem frame_waitUntil (s : State) (t : BitVec 32) (n : Nat) : Frame s (s.waitUntil t n) := by
  unfold State.waitUntil
  exact Frame.ite { Frame.refl s with } (.refl s)

theorem frame_expireLockout (s : State) (t : BitVec 32) : Frame s (s.expireLockout t) := by
  have hqueue : (s.waitUntil t 60000).ace = s.ace := by
    unfold State.waitUntil
    split <;> rfl
  exact (frame_waitUntil s t 60000).trans (frame_ace fun h => Ace.serviceFailures_bounded s.ace 0 (hqueue ▸ h))

theorem frame_examinePin (s : State) (pin : Word8) : Frame s (s.examinePin pin).1 := by
  unfold State.examinePin
  split
  · exact frame_ace fun h => Ace.serviceFailures_bounded _ _ h
  · exact frame_ace fun h => Ace.serviceFailures_bounded _ _ h

theorem frame_credential (s : State) (pin : Word8) : Frame s (s.credential pin).1 := by
  rcases s.credential_cases pin with ⟨t, -, -, e⟩ | ⟨t, -, -, e⟩ | ⟨-, e⟩ <;> rw [e]
  · exact .refl s
  · exact (frame_expireLockout s t).trans (frame_examinePin _ pin)
  · exact frame_examinePin s pin

theorem frame_completeWrite (s : State) : Frame s s.completeWrite := by
  unfold State.completeWrite
  split
  · exact .refl s
  · next c _ =>
    have hplain : ∀ w, (({ s.ace with writing := none } : Ace).setWb c.id w).queue = s.ace.queue := fun w =>
      Ace.setWb_queue _ _ _
    refine (show Frame s { s with amem := s.amem.store c } from { Frame.refl s with }).trans (frame_ace fun h => ?_)
    split
    · exact Ace.trigger_bounded _ _ ((hplain .dirty).symm ▸ h)
    · exact (hplain .clean).symm ▸ h

theorem frame_endLoad (s : State) : Frame s s.endLoad := by
  have hace : ∀ (a : Ace) (l : Option (BitVec 32)), (s.ace.queue.length ≤ 16 → a.queue.length ≤ 16) →
      Frame s { s with ace := { a with lockout := l } } := fun a l h => frame_ace h
  exact hace _ _ fun h => Ace.triggerAll_bounded allRecords (s.ace.load s.amem) h

/-! ## Job slots and contexts -/

/-- Contexts whose slots keep their own contexts or lose them. -/
theorem within_of_own {j k : Jobs} (hm : k.marking = j.marking) (hs : k.stack = j.stack)
    (ho : ∀ i : Fin 16, ∀ c ∈ (k.slots[i]).own, c ∈ (j.slots[i]).own) : k.Within j := by
  refine .of_mem fun m hmem => ⟨m, (j.mem_contexts_iff m).2 ?_, .refl _⟩
  rcases (k.mem_contexts_iff m).1 hmem with h | h | ⟨i, c, hc, e⟩
  · exact .inl (hm ▸ h)
  · exact .inr (.inl (hs ▸ h))
  · exact .inr (.inr ⟨i, c, ho i c hc, e⟩)

/-- New job slots that keep references, states, close pending and own contexts, or lose own contexts, with a new Region Table. -/
theorem frame_slots (s : State) (g : Regions) (v : Vector JobSlot 16) (hg : g.inFlight = s.rgt.inFlight)
    (hv : ∀ i : Fin 16, (v[i]).refs = (s.job i).refs ∧ (v[i]).state = (s.job i).state
      ∧ (v[i]).closePending = (s.job i).closePending ∧ ∀ c ∈ (v[i]).own, c ∈ (s.job i).own) :
    Frame s { s with rgt := g, jct := { s.jct with slots := v } } := { Frame.refl s with
  inFlight := hg
  refs i := (hv i).1
  states i := (hv i).2.1
  pending i := (hv i).2.2.1
  contexts := within_of_own rfl rfl fun i => (hv i).2.2.2 }

/-- A change of one job slot that keeps references, state, close pending and own context. -/
theorem frame_modJob (s : State) (j : Fin 16) (f : JobSlot → JobSlot) (hrefs : ∀ q, (f q).refs = q.refs)
    (hstate : ∀ q, (f q).state = q.state) (hpend : ∀ q, (f q).closePending = q.closePending)
    (hown : ∀ q, (f q).own = q.own) : Frame s (s.modJob j f) :=
  frame_slots s s.rgt _ rfl fun i => by
    rw [upd_get]
    show _ ∧ _ ∧ _ ∧ ∀ c, _ → c ∈ (s.jct.slots[i]).own
    split
    · exact ⟨hrefs _, hstate _, hpend _, fun c hc => hown _ ▸ hc⟩
    · exact ⟨rfl, rfl, rfl, fun c hc => hc⟩

theorem frame_counters (s : State) (j : Fin 16) (f : JobCounters → JobCounters) :
    Frame s (s.modJob j fun q => { q with counters := f q.counters }) :=
  frame_modJob s j _ (fun _ => rfl) (fun _ => rfl) (fun _ => rfl) fun _ => rfl

theorem mem_mapContexts {j : Jobs} {f : Context → Context} {m : Marked} (h : m ∈ (j.mapContexts f).contexts) :
    ∃ x ∈ j.contexts, m = ⟨x.job, f x.ctx⟩ := by
  rcases (Jobs.mem_contexts_iff _ m).1 h with h | h | ⟨i, c, hc, rfl⟩
  · obtain ⟨x, hx, rfl⟩ := Option.mem_map.1 h
    exact ⟨x, (j.mem_contexts_iff x).2 (.inl hx), rfl⟩
  · obtain ⟨x, hx, rfl⟩ := List.mem_map.1 h
    exact ⟨x, (j.mem_contexts_iff x).2 (.inr (.inl hx)), rfl⟩
  · simp only [Jobs.mapContexts, Fin.getElem_fin, Vector.getElem_map] at hc
    obtain ⟨d, hd, rfl⟩ := Option.mem_map.1 hc
    exact ⟨⟨i, d⟩, (j.mem_contexts_iff _).2 (.inr (.inr ⟨i, d, hd, rfl⟩)), rfl⟩

theorem mapContexts_within (j : Jobs) (f : Context → Context) (hf : ∀ c, (f c).Within c) : (j.mapContexts f).Within j :=
  .of_mem fun m hm => by
    obtain ⟨x, hx, rfl⟩ := mem_mapContexts hm
    exact ⟨x, hx, hf _⟩

theorem mapContexts_slot (j : Jobs) (f : Context → Context) (i : Fin 16) :
    (j.mapContexts f).slots[i] = { j.slots[i] with own := (j.slots[i]).own.map f } := by
  simp [Jobs.mapContexts]

theorem mapContexts_marking (j : Jobs) (f : Context → Context) :
    (j.mapContexts f).marking.map Marked.job = j.marking.map Marked.job := by
  cases h : j.marking <;> simp [Jobs.mapContexts, h]

theorem mapContexts_stack (j : Jobs) (f : Context → Context) : (j.mapContexts f).stack.map Marked.job = j.stack.map Marked.job := by
  simp [Jobs.mapContexts]

/-- A change of every context that adds no record. -/
theorem frame_mapContexts (s : State) (f : Context → Context) (hf : ∀ c, (f c).Within c) :
    Frame s { s with jct := s.jct.mapContexts f } := { Frame.refl s with
  refs k := (congrArg JobSlot.refs (mapContexts_slot s.jct f k) :)
  states k := (congrArg JobSlot.state (mapContexts_slot s.jct f k) :)
  pending k := (congrArg JobSlot.closePending (mapContexts_slot s.jct f k) :)
  marking := mapContexts_marking s.jct f
  stack := mapContexts_stack s.jct f
  contexts := mapContexts_within s.jct f hf }

/-- Records changed without a change of names. -/
theorem Context.within_of_map {c d : Context} {g : PageRecord → PageRecord} (hc : c.queue = d.queue.map g)
    (hg : ∀ r, (g r).opened = r.opened) : c.Within d := by
  refine ⟨by simp [hc], fun r hr => ?_⟩
  rw [hc] at hr
  obtain ⟨q, hq, rfl⟩ := List.mem_map.1 hr
  exact ⟨q, hq, hg q⟩

theorem Context.modRecord_within (c : Context) (n : Nat) (g : PageRecord → PageRecord) (hg : ∀ r, (g r).opened = r.opened) :
    (c.modRecord n g).Within c :=
  Context.within_of_map (g := fun r => if r.opened = n then g r else r) rfl fun r => by
    by_cases h : r.opened = n <;> simp [h, hg]

theorem Context.dropDue_within (c : Context) : c.dropDue.Within c :=
  ⟨List.length_filter_le _ _, fun r hr => ⟨r, List.mem_of_mem_filter hr, rfl⟩⟩

theorem Context.forceClose_within (c : Context) (n : Nat) : (c.forceClose n).Within c :=
  c.modRecord_within n PageRecord.forceClose fun _ => rfl

theorem Context.forceCloseAll_within (c : Context) : c.forceCloseAll.Within c :=
  Context.within_of_map (g := PageRecord.forceClose) rfl fun _ => rfl

theorem Context.makeRoom_within (c : Context) : c.makeRoom.Within c := by
  unfold Context.makeRoom
  split
  · exact c.forceClose_within _
  · exact .refl c

/-- The current context changed without a new record. -/
theorem frame_marking (s : State) (f : Context → Context) (hf : ∀ c, (f c).Within c) :
    Frame s { s with jct := { s.jct with marking := s.jct.marking.map fun m => { m with ctx := f m.ctx } } } := { Frame.refl s with
  marking := by cases h : s.jct.marking <;> simp
  contexts := .of_mem fun m hm => by
    rcases (Jobs.mem_contexts_iff _ m).1 hm with h | h | h
    · obtain ⟨x, hx, rfl⟩ := Option.mem_map.1 h
      exact ⟨x, (Jobs.mem_contexts_iff _ x).2 (.inl hx), hf _⟩
    · exact ⟨m, (Jobs.mem_contexts_iff _ m).2 (.inr (.inl h)), .refl _⟩
    · exact ⟨m, (Jobs.mem_contexts_iff _ m).2 (.inr (.inr h)), .refl _⟩ }

theorem frame_makeRoom (s : State) : Frame s { s with jct := s.jct.makeRoom } :=
  frame_marking s Context.makeRoom Context.makeRoom_within

theorem frame_releaseAssembly (s : State) (js : List (Fin 16)) : Frame s (s.releaseAssembly js) := { Frame.refl s with
  hold := by simp [State.releaseAssembly] }

theorem frame_settle (report : Bool) (s : State) (r : PageRecord) : Frame s (s.settle report r) := by
  unfold State.settle
  split
  · have hcharge : Frame s (({ s with ace := s.ace.postCharge r (s.price r) } : State).modJob r.job fun j =>
        { j with counters := j.counters.post (s.price r).charge (s.price r).colour }) :=
      (frame_ace fun h => Ace.postCharge_bounded s.ace r (s.price r) h).trans
        (frame_counters _ r.job fun c => c.post (s.price r).charge (s.price r).colour)
    exact Frame.ite (hcharge.trans (frame_hand _ _ _)) hcharge
  · have habort : Frame s (({ s with ace := s.ace.modReserved r.user (· - r.reserve) } : State).modJob r.job fun j =>
        { j with counters := { j.counters with aborted := sat32 (j.counters.aborted + 1) } }) :=
      (frame_ace (a := s.ace.modReserved r.user (· - r.reserve)) fun h => h).trans
        (frame_counters _ r.job fun c => { c with aborted := sat32 (c.aborted + 1) })
    exact Frame.ite (habort.trans (frame_hand _ _ _)) habort

theorem frame_dropEmptyOwn (s : State) : Frame s { s with jct := { s.jct with slots := s.jct.slots.map JobSlot.dropEmptyOwn } } :=
  frame_slots s s.rgt _ rfl fun i => by
    simp only [Fin.getElem_fin, Vector.getElem_map]
    exact ⟨rfl, rfl, rfl, fun c hc => (Option.mem_filter_iff.1 hc).1⟩

theorem frame_settleDue (s : State) : Frame s s.settleDue := by
  unfold State.settleDue
  exact (frame_mapContexts s _ Context.dropDue_within).trans
    ((frame_dropEmptyOwn _).trans ((frame_releaseAssembly _ _).trans (Frame.foldl (frame_settle true) _ _)))

theorem returnMark_within (mark : LineMark) (sum : Nat) (s : State) : Frame s { s with jct := s.jct.returnMark mark sum } := by
  cases mark with
  | none => exact .refl s
  | first n p => exact frame_mapContexts s _ fun c => c.modRecord_within n _ fun _ => rfl
  | remark r p => exact .refl s

theorem frame_settleMarks (s : State) (marks : List LineMark) (sums : List Nat) : Frame s (s.settleMarks marks sums) := by
  have hfold : ∀ (ms : List (LineMark × Nat)) (s : State),
      Frame s { s with jct := ms.foldl (fun j m => j.returnMark m.1 m.2) s.jct } := fun ms => by
    induction ms with
    | nil => exact fun s => .refl s
    | cons m ms ih => exact fun s => (returnMark_within m.1 m.2 s).trans (ih _)
  exact hfold _ s

theorem frame_meterReturn (s : State) (r : ReadSlot) (lines : List Line) : Frame s (s.meterReturn r lines) := by
  unfold State.meterReturn
  split
  · exact (frame_settleMarks s _ _).trans
      ((frame_counters _ _ fun c => _).trans ((sided_accrue _ _).frame _))
  · exact .refl s

/-! ## The Region Table -/

theorem frame_setRegions (s : State) (g : Regions) (h : g.inFlight = s.rgt.inFlight) : Frame s (s.setRegions g) := by
  rw [s.setRegions_eq]
  refine frame_slots s g _ h fun i => ?_
  rw [get_ofFn]
  exact ⟨rfl, rfl, rfl, fun c hc => hc⟩

theorem frame_hold (s : State) (f : HoldEntry → HoldEntry) :
    Frame s { s with path := { s.path with hold := s.path.hold.map f } } := { Frame.refl s with
  hold := by simp }

theorem frame_completeCommit (s : State) : Frame s s.completeCommit := by
  unfold State.completeCommit
  split
  · exact .refl s
  · next c _ =>
    have hset : Frame s (s.setRegions (s.carried c.changed)) := frame_setRegions s _ (by rw [State.carried_eq])
    exact Frame.ite (hset.trans ((frame_hold _ _).trans (frame_hand _ _ _))) (.refl s)

/-! ## Reports -/

theorem frame_joinAt (s : State) (time : BitVec 32) (h : Handed) : Frame s (s.joinAt time h) := by
  rcases s.joinAt_cases time h with ⟨hroom, e⟩ | ⟨-, e⟩ <;> rw [e]
  · have hlen : s.rci.queue.length < 16 := by
      simp only [Rci.hasEntry, decide_eq_true_eq] at hroom
      split at hroom <;> omega
    exact { Frame.refl s with reports := fun _ => by simpa [Rci.joined] using hlen }
  · exact { Frame.refl s with }

theorem frame_joinFault (s : State) : Frame s s.joinFault := by
  unfold State.joinFault
  split
  · exact .refl s
  · next time _ =>
    refine Frame.ite ((frame_joinAt s time ⟨.accountFault s.ace.faults, 0, false⟩).trans ?_) (.refl s)
    have hace : ∀ h, (s.joinAt time h).ace = s.ace := fun h => by
      unfold State.joinAt
      split <;> rfl
    exact { Frame.refl (s.joinAt time _) with writeBacks := fun h => by rw [hace] at h; exact h }

theorem frame_joinHanded (s : State) : Frame s s.joinHanded :=
  (Frame.foldl (f := State.joinOne) (fun s h => frame_joinAt s s.ms h) (joinOrder s.handed) s).trans (frame_handed _ _)

theorem frame_joinAll (s : State) : Frame s s.joinAll := (frame_joinFault s).trans (frame_joinHanded _)

/-! ## The Wipe Queue -/

theorem Wpe.join_pattern (w : Wpe) (base count passes : Nat) (verify : Bool) (origin : WipeOrigin) (h : w.patternLaw) :
    (w.join base count passes verify origin).patternLaw := by
  intro e he
  simp only [Wpe.join, List.mem_append, List.mem_singleton] at he
  rcases he with he | rfl
  · exact h e he
  · trivial

theorem Wpe.joinAll_pattern (rs : List (Nat × Nat)) (passes : Nat) (verify : Bool) (origin : WipeOrigin) (w : Wpe)
    (h : w.patternLaw) : (w.joinAll rs passes verify origin).patternLaw := by
  induction rs generalizing w with
  | nil => exact h
  | cons r rs ih => exact ih _ (w.join_pattern _ _ _ _ _ h)

theorem Wpe.joinAll_length (rs : List (Nat × Nat)) (passes : Nat) (verify : Bool) (origin : WipeOrigin) (w : Wpe) :
    (w.joinAll rs passes verify origin).queue.length = w.queue.length + rs.length := by
  induction rs generalizing w with
  | nil => rfl
  | cons r rs ih =>
    refine (ih (w.join r.1 r.2 passes verify origin)).trans ?_
    simp only [Wpe.join, List.length_append, List.length_cons, List.length_nil]
    omega

/-- Wipe entries that the queue has room for join it. -/
theorem frame_appendWipes (s : State) (j : Fin 16) (rs : List (Nat × Nat)) (h : rs.length ≤ s.wpe.room) :
    Frame s (s.appendWipes j rs) := { Frame.refl s with
  wipes hlen := by
    rw [Wpe.room] at h
    rw [State.appendWipes]
    simp only [Wpe.joinAll_length]
    omega
  pattern := Wpe.joinAll_pattern _ _ _ _ _ }

theorem Wpe.modHead_pattern {w : Wpe} {f : WipeEntry → WipeEntry} (hf : ∀ e ∈ w.queue.head?, e.patternLaw → (f e).patternLaw)
    (h : w.patternLaw) : (w.modHead f).patternLaw := by
  unfold Wpe.modHead
  split
  · exact h
  · next e rest hq =>
    intro x hx
    rcases List.mem_cons.1 hx with rfl | hx
    · exact hf e (by simp [hq]) (h e (by simp [hq]))
    · exact h x (by simp [hq, hx])

theorem Wpe.modHead_length (w : Wpe) (f : WipeEntry → WipeEntry) : (w.modHead f).queue.length = w.queue.length := by
  unfold Wpe.modHead
  split <;> simp_all

/-- A change of the head entry that keeps its generator's law. -/
theorem frame_modHead (s : State) (f : WipeEntry → WipeEntry) (hf : ∀ e ∈ s.wpe.queue.head?, e.patternLaw → (f e).patternLaw) :
    Frame s { s with wpe := s.wpe.modHead f } := { Frame.refl s with
  wipes h := by
    rw [Wpe.modHead_length]
    exact h
  pattern := Wpe.modHead_pattern hf }

theorem passStart_patternLaw (e : WipeEntry) (k : Nat) : ({ e with progress := passStart k e.base } : WipeEntry).patternLaw := by
  simp [WipeEntry.patternLaw, passStart, prbsRun]

theorem frame_startWipe (s : State) : Frame s s.startWipe := by
  unfold State.startWipe
  exact Frame.ite (frame_modHead s _ fun e _ _ => passStart_patternLaw e 1) (.refl s)

end Sys2Proof.Machine
end

