-- ==== Sys2Proof/Proofs/Traffic.lean ====
section
/-!
What moves traffic: a tracker slot taken and freed, a grant, a completion without a slot, and the internal transactions; each keeps the
law of the credits and the law of the counts.
-/

namespace Sys2Proof.Machine

/-! ## Counts of a tracker -/

/-- One slot of a tracker is taken: what meets a predicate counts one more if the taker meets it. -/
theorem slotCount_set {α : Type} {n : Nat} (v : Vector (Option α) n) {i : Fin n} (hi : v[i] = none) (x : α) (p : α → Bool) :
    ((List.finRange n).filter fun k => ((v.set i (some x))[k]).any p).length
      = ((List.finRange n).filter fun k => (v[k]).any p).length + if p x = true then 1 else 0 := by
  have hother : ∀ k, k ≠ i → (v[k]).any p = ((v.set i (some x))[k]).any p := fun k hk => by
    rw [get_set, if_neg hk]
  by_cases hx : p x = true
  · rw [if_pos hx]
    exact slotCount_add_one i (by simp [hi]) (by rw [get_set, if_pos rfl]; exact hx) hother
  · rw [if_neg hx]
    refine slotCount_congr fun k => ?_
    by_cases hk : k = i
    · subst hk
      rw [get_set, if_pos rfl, hi]
      simp [hx]
    · exact hother k hk

/-- One slot of a tracker is freed. -/
theorem slotCount_free {α : Type} {n : Nat} (v : Vector (Option α) n) {i : Fin n} {x : α} (hi : v[i] = some x) (p : α → Bool) :
    ((List.finRange n).filter fun k => (v[k]).any p).length
      = ((List.finRange n).filter fun k => ((v.set i none)[k]).any p).length + if p x = true then 1 else 0 := by
  have hv : v = (v.set i none).set i (some x) := vector_ext fun k => by
    rw [get_set, get_set]
    by_cases hk : k = i
    · subst hk; simp [hi]
    · simp [hk]
  conv_lhs => rw [hv]
  exact slotCount_set _ (by rw [get_set, if_pos rfl]) x p

theorem counted_path (s : State) (e : Option (Fin 32)) (j : Option (Fin 16)) : (s.counted e j).path = s.path := rfl
theorem counted_down (s : State) (e : Option (Fin 32)) (j : Option (Fin 16)) : (s.counted e j).down = s.down := rfl

theorem uncounted_path (s : State) (e : Option (Fin 32)) (j : Option (Fin 16)) : (s.uncounted e j).path = s.path := rfl

theorem uncounted_job (s : State) (e : Option (Fin 32)) (j : Option (Fin 16)) (k : Fin 16) :
    (s.uncounted e j).job k = { s.job k with refs := (s.job k).refs - if j = some k then 1 else 0 } := by
  cases j with
  | none => simp [State.uncounted, State.job]
  | some j =>
    simp only [State.uncounted, State.job, Option.some.injEq]
    rw [get_set]
    by_cases h : k = j
    · subst h; simp
    · simp [h, Ne.symm h]

theorem uncounted_inFlight (s : State) (e : Option (Fin 32)) (j : Option (Fin 16)) (k : Fin 32) :
    (s.uncounted e j).rgt.inFlight[k] = s.rgt.inFlight[k] - if e = some k then 1 else 0 := by
  cases e with
  | none => simp [State.uncounted]
  | some i =>
    simp only [State.uncounted, Option.some.injEq]
    rw [get_set]
    by_cases h : k = i
    · subst h; simp
    · simp [h, Ne.symm h]

/-- The law of the counts with one more slot of entry `e` and job `j` taken. -/
theorem referenceLaw_counted {s t : State} (e : Option (Fin 32)) (j : Option (Fin 16))
    (hjob : ∀ k, t.job k = s.job k) (hflight : t.rgt.inFlight = s.rgt.inFlight)
    (hlive : ∀ k ∈ j, (s.job k).state.live = true)
    (hj : ∀ k, t.slotsOfJob k = s.slotsOfJob k + if j = some k then 1 else 0)
    (he : ∀ k, t.slotsOfEntry k = s.slotsOfEntry k + if e = some k then 1 else 0) (h : s.referenceLaw) :
    (t.counted e j).referenceLaw := by
  obtain ⟨hrefs, hin⟩ := h
  refine ⟨fun k => ⟨?_, fun hl => ?_⟩, fun k => ?_⟩
  · rw [counted_job, hjob]
    show _ = t.slotsOfJob k
    rw [hj, ← (hrefs k).1]
  · rw [counted_job, hjob] at hl ⊢
    have hne : j ≠ some k := fun hk => by
      rw [hlive k hk] at hl
      cases hl
    simp only [if_neg hne, Nat.add_zero]
    exact (hrefs k).2 hl
  · rw [counted_inFlight, hflight]
    show _ = t.slotsOfEntry k
    rw [he, ← hin k]

/-- The law of the counts with one slot of entry `e` and job `j` freed. -/
theorem referenceLaw_uncounted {s t : State} (e : Option (Fin 32)) (j : Option (Fin 16))
    (hjob : ∀ k, t.job k = s.job k) (hflight : t.rgt.inFlight = s.rgt.inFlight)
    (hj : ∀ k, s.slotsOfJob k = t.slotsOfJob k + if j = some k then 1 else 0)
    (he : ∀ k, s.slotsOfEntry k = t.slotsOfEntry k + if e = some k then 1 else 0) (h : s.referenceLaw) :
    (t.uncounted e j).referenceLaw := by
  obtain ⟨hrefs, hin⟩ := h
  refine ⟨fun k => ⟨?_, fun hl => ?_⟩, fun k => ?_⟩
  · rw [uncounted_job, hjob]
    show _ = t.slotsOfJob k
    have h₁ := (hrefs k).1
    have h₂ := hj k
    simp only
    omega
  · rw [uncounted_job, hjob] at hl ⊢
    have h₀ := (hrefs k).2 hl
    simp only
    omega
  · rw [uncounted_inFlight, hflight]
    show _ = t.slotsOfEntry k
    have h₁ := hin k
    have h₂ := he k
    omega

/-! ## A forwarded transaction taken and freed -/

theorem slotsOfJob_placeRead (s : State) {i : Fin 32} (r : ReadSlot) (hi : s.path.reads[i] = none) (k : Fin 16) :
    (s.placeRead i r).slotsOfJob k = s.slotsOfJob k + if r.job = some k then 1 else 0 := by
  have h := slotCount_set s.path.reads hi r fun r => r.job == some k
  simp only [beq_iff_eq] at h
  simp only [State.slotsOfJob, State.placeRead, h]
  omega

theorem slotsOfEntry_placeRead (s : State) {i : Fin 32} (r : ReadSlot) (hi : s.path.reads[i] = none) (k : Fin 32) :
    (s.placeRead i r).slotsOfEntry k = s.slotsOfEntry k + if r.entry = some k then 1 else 0 := by
  have h := slotCount_set s.path.reads hi r fun r => r.entry == some k
  simp only [beq_iff_eq] at h
  simp only [State.slotsOfEntry, State.placeRead, h]
  omega

theorem slotsOfJob_placeWrite (s : State) {i : Fin 32} (w : WriteSlot) (hi : s.path.writes[i] = none) (k : Fin 16) :
    (s.placeWrite i w).slotsOfJob k = s.slotsOfJob k + if w.job = some k then 1 else 0 := by
  have h := slotCount_set s.path.writes hi w fun w => w.job == some k
  simp only [beq_iff_eq] at h
  simp only [State.slotsOfJob, State.placeWrite, h]
  omega

theorem slotsOfEntry_placeWrite (s : State) {i : Fin 32} (w : WriteSlot) (hi : s.path.writes[i] = none) (k : Fin 32) :
    (s.placeWrite i w).slotsOfEntry k = s.slotsOfEntry k + if w.entry = some k then 1 else 0 := by
  have h := slotCount_set s.path.writes hi w fun w => w.entry == some k
  simp only [beq_iff_eq] at h
  simp only [State.slotsOfEntry, State.placeWrite, h]
  omega

/-- A reference to a slot that is not taken stands in no list of occupied ones. -/
theorem not_mem_forwarded {s : State} {f : FwdRef} (ho : ∀ f ∈ s.down.forwarded, s.path.occupied f = true)
    (hf : s.path.occupied f = false) : f ∉ s.down.forwarded := fun hmem => by
  rw [ho f hmem] at hf
  cases hf

theorem creditLaw_placeRead {s : State} {i : Fin 32} (r : ReadSlot) (hi : s.path.reads[i] = none) (h : s.creditLaw) :
    (s.placeRead i r).creditLaw := by
  obtain ⟨hsum, hn, ho, hin, hio⟩ := h
  have hnot : FwdRef.read i ∉ s.down.forwarded := not_mem_forwarded ho (by simp [Path.occupied, hi])
  have hreads : (s.placeRead i r).readsOut = s.readsOut := slotCount_congr fun k => by
    simp only [State.issuedRead?, State.placeRead, get_set]
    by_cases hk : k = i
    · subst hk
      simp [hi]
    · simp [hk]
  have hwrites : (s.placeRead i r).writesOut = s.writesOut := slotCount_congr fun k => by
    simp [State.issuedWrite?, State.placeRead]
  refine ⟨?_, ?_, fun f hmem => ?_, hin, hio⟩
  · simp only [State.outstanding, hreads, hwrites]
    exact hsum
  · exact List.nodup_append_comm.1 (List.nodup_cons.2 ⟨hnot, hn⟩)
  · simp only [State.placeRead, List.mem_append, List.mem_singleton] at hmem
    rcases hmem with hmem | rfl
    · have := ho f hmem
      cases f with
      | read k =>
        have hk : k ≠ i := fun e => hnot (e ▸ hmem)
        simp only [Path.occupied, State.placeRead, get_set, if_neg hk] at this ⊢
        exact this
      | write k => exact this
    · simp [Path.occupied, State.placeRead]

theorem creditLaw_placeWrite {s : State} {i : Fin 32} (w : WriteSlot) (hi : s.path.writes[i] = none) (h : s.creditLaw) :
    (s.placeWrite i w).creditLaw := by
  obtain ⟨hsum, hn, ho, hin, hio⟩ := h
  have hnot : FwdRef.write i ∉ s.down.forwarded := not_mem_forwarded ho (by simp [Path.occupied, hi])
  have hwrites : (s.placeWrite i w).writesOut = s.writesOut := slotCount_congr fun k => by
    simp only [State.issuedWrite?, State.placeWrite, get_set]
    by_cases hk : k = i
    · subst hk
      simp [hi]
    · simp [hk]
  have hreads : (s.placeWrite i w).readsOut = s.readsOut := slotCount_congr fun k => by
    simp [State.issuedRead?, State.placeWrite]
  refine ⟨?_, ?_, fun f hmem => ?_, hin, hio⟩
  · simp only [State.outstanding, hreads, hwrites]
    exact hsum
  · exact List.nodup_append_comm.1 (List.nodup_cons.2 ⟨hnot, hn⟩)
  · simp only [State.placeWrite, List.mem_append, List.mem_singleton] at hmem
    rcases hmem with hmem | rfl
    · have := ho f hmem
      cases f with
      | write k =>
        have hk : k ≠ i := fun e => hnot (e ▸ hmem)
        simp only [Path.occupied, State.placeWrite, get_set, if_neg hk] at this ⊢
        exact this
      | read k => exact this
    · simp [Path.occupied, State.placeWrite]

theorem issuedRead?_some {s : State} {i : Fin 32} {r : ReadSlot} (h : s.issuedRead? i = some r) :
    .read i ∉ s.down.forwarded ∧ s.path.reads[i] = some r := by
  unfold State.issuedRead? at h
  split at h
  · cases h
  · next hc => exact ⟨by simpa using hc, h⟩

theorem issuedWrite?_some {s : State} {i : Fin 32} {w : WriteSlot} (h : s.issuedWrite? i = some w) :
    .write i ∉ s.down.forwarded ∧ s.path.writes[i] = some w := by
  unfold State.issuedWrite? at h
  split at h
  · cases h
  · next hc => exact ⟨by simpa using hc, h⟩

theorem creditLaw_readFreed {s : State} {i : Fin 32} {r : ReadSlot} (hr : s.issuedRead? i = some r) (h : s.creditLaw) :
    (s.readFreed i r).creditLaw := by
  obtain ⟨hnot, hi⟩ := issuedRead?_some hr
  obtain ⟨hsum, hn, ho, hin, hio⟩ := h
  have hreads : s.readsOut = (s.readFreed i r).readsOut + 1 := slotCount_add_one i
    (by simp [State.issuedRead?, State.readFreed, uncounted_path])
    (by simp [hr]) fun k hk => by
      simp only [State.issuedRead?, State.readFreed, State.uncounted, get_set, if_neg hk]
  refine ⟨?_, hn, fun f hmem => ?_, hin, hio⟩
  · have hcredits : (s.readFreed i r).down.credits = s.down.credits + 1 := rfl
    have hrest : (s.readFreed i r).outstanding + 1 = s.outstanding := by
      rw [State.outstanding, State.outstanding, hreads]
      show _ + s.writesOut + s.down.internalOut + s.down.orphans.length + 1 = _
      omega
    omega
  · have := ho f hmem
    cases f with
    | read k =>
      have hk : k ≠ i := fun e => hnot (e ▸ hmem)
      simp only [Path.occupied, State.readFreed, uncounted_path, get_set, if_neg hk] at this ⊢
      exact this
    | write k => exact this

theorem creditLaw_writeFreed {s : State} {i : Fin 32} {w : WriteSlot} (hw : s.issuedWrite? i = some w) (h : s.creditLaw) :
    (s.writeFreed i w).creditLaw := by
  obtain ⟨hnot, hi⟩ := issuedWrite?_some hw
  obtain ⟨hsum, hn, ho, hin, hio⟩ := h
  have hwrites : s.writesOut = (s.writeFreed i w).writesOut + 1 := slotCount_add_one i
    (by simp [State.issuedWrite?, State.writeFreed, uncounted_path])
    (by simp [hw]) fun k hk => by
      simp only [State.issuedWrite?, State.writeFreed, State.uncounted, get_set, if_neg hk]
  refine ⟨?_, hn, fun f hmem => ?_, hin, hio⟩
  · have hcredits : (s.writeFreed i w).down.credits = s.down.credits + 1 := rfl
    have hrest : (s.writeFreed i w).outstanding + 1 = s.outstanding := by
      rw [State.outstanding, State.outstanding, hwrites]
      show s.readsOut + _ + s.down.internalOut + s.down.orphans.length + 1 = _
      omega
    omega
  · have := ho f hmem
    cases f with
    | write k =>
      have hk : k ≠ i := fun e => hnot (e ▸ hmem)
      simp only [Path.occupied, State.writeFreed, uncounted_path, get_set, if_neg hk] at this ⊢
      exact this
    | read k => exact this

/-- The marking jobs and their contexts do not depend on the reference counts. -/
theorem KeepsMarks.of_jobs {s t : State} {k : Option Bool} (hi : t.down.internal = s.down.internal)
    (hm : t.jct.marking = s.jct.marking) (hs : t.jct.stack = s.jct.stack) (ho : ∀ i, (t.job i).own = (s.job i).own)
    (hstate : ∀ i, (t.job i).state = (s.job i).state) (hpend : ∀ i, (t.job i).closePending = (s.job i).closePending)
    (hn : t.rmu = s.rmu) (hr : t.rci = s.rci) : KeepsMarks k s t where
  stack := stackLaw_congr (by rw [hm]) (by rw [hs])
  queue := (within_of_own hm hs fun i c hc => (ho i) ▸ hc).queueLaw
  names := (within_of_own hm hs fun i c hc => (ho i) ▸ hc).namesLaw (Nat.le_of_eq (by rw [hn]))
  marking _ _ := markingLawAs_congr hi (by rw [hm]) (by rw [hs]) (fun h => by rw [hr]; exact h) (fun h => by rw [hr]; exact h)
    hstate hpend
  hand _ := by rw [hr]

theorem marks_counted {s t : State} {k : Option Bool} (e : Option (Fin 32)) (j : Option (Fin 16))
    (hi : t.down.internal = s.down.internal) (hj : t.jct = s.jct) (hn : t.rmu = s.rmu) (hr : t.rci = s.rci) :
    KeepsMarks k s (t.counted e j) := by
  obtain ⟨hm, hst⟩ := counted_marking t e j
  have hjob : ∀ i, t.job i = s.job i := fun i => by rw [State.job, State.job, hj]
  exact .of_jobs hi (hm.trans (by rw [hj])) (hst.trans (by rw [hj])) (fun i => by rw [counted_job, hjob])
    (fun i => by rw [counted_job, hjob]) (fun i => by rw [counted_job, hjob]) hn hr

theorem marks_uncounted {s t : State} {k : Option Bool} (e : Option (Fin 32)) (j : Option (Fin 16))
    (hi : t.down.internal = s.down.internal) (hj : t.jct = s.jct) (hn : t.rmu = s.rmu) (hr : t.rci = s.rci) :
    KeepsMarks k s (t.uncounted e j) := by
  have hm : (t.uncounted e j).jct.marking = t.jct.marking ∧ (t.uncounted e j).jct.stack = t.jct.stack := by
    cases j <;> exact ⟨rfl, rfl⟩
  have hjob : ∀ i, t.job i = s.job i := fun i => by rw [State.job, State.job, hj]
  exact .of_jobs hi (hm.1.trans (by rw [hj])) (hm.2.trans (by rw [hj])) (fun i => by rw [uncounted_job, hjob])
    (fun i => by rw [uncounted_job, hjob]) (fun i => by rw [uncounted_job, hjob]) hn hr

theorem keeps_placeRead {n : Nat} {k : Option Bool} (s : State) {i : Fin 32} (r : ReadSlot) (hi : s.path.reads[i] = none)
    (hlive : ∀ j ∈ r.job, (s.job j).state.live = true) : Keeps n k s ((s.placeRead i r).counted r.entry r.job) where
  traffic := {
    credit := creditLaw_placeRead r hi
    reference := referenceLaw_counted (t := s.placeRead i r) _ _ (fun _ => rfl) rfl hlive (slotsOfJob_placeRead s r hi)
      (slotsOfEntry_placeRead s r hi) }
  stores := { KeepsStores.refl n s with }
  marks := marks_counted (t := s.placeRead i r) _ _ rfl rfl rfl rfl

theorem keeps_placeWrite {n : Nat} {k : Option Bool} (s : State) {i : Fin 32} (w : WriteSlot) (hi : s.path.writes[i] = none)
    (hlive : ∀ j ∈ w.job, (s.job j).state.live = true) : Keeps n k s ((s.placeWrite i w).counted w.entry w.job) where
  traffic := {
    credit := creditLaw_placeWrite w hi
    reference := referenceLaw_counted (t := s.placeWrite i w) _ _ (fun _ => rfl) rfl hlive (slotsOfJob_placeWrite s w hi)
      (slotsOfEntry_placeWrite s w hi) }
  stores := { KeepsStores.refl n s with }
  marks := marks_counted (t := s.placeWrite i w) _ _ rfl rfl rfl rfl

theorem keeps_readFreed {n : Nat} {k : Option Bool} (s : State) {i : Fin 32} {r : ReadSlot} (hr : s.issuedRead? i = some r) :
    Keeps n k s (s.readFreed i r) where
  traffic := {
    credit := creditLaw_readFreed hr
    reference := referenceLaw_uncounted (t := { s with path := { s.path with reads := s.path.reads.set i none } }) _ _
      (fun _ => rfl) rfl
      (fun k => by
        have h := slotCount_free s.path.reads (issuedRead?_some hr).2 fun r => r.job == some k
        simp only [beq_iff_eq] at h
        simp only [State.slotsOfJob, h]
        omega)
      (fun k => by
        have h := slotCount_free s.path.reads (issuedRead?_some hr).2 fun r => r.entry == some k
        simp only [beq_iff_eq] at h
        simp only [State.slotsOfEntry, h]
        omega) }
  stores := { KeepsStores.refl n s with }
  marks := marks_uncounted (t := { s with path := { s.path with reads := s.path.reads.set i none } }) _ _ rfl rfl rfl rfl

theorem keeps_writeFreed {n : Nat} {k : Option Bool} (s : State) {i : Fin 32} {w : WriteSlot} (hw : s.issuedWrite? i = some w) :
    Keeps n k s (s.writeFreed i w) where
  traffic := {
    credit := creditLaw_writeFreed hw
    reference := referenceLaw_uncounted (t := { s with path := { s.path with writes := s.path.writes.set i none } }) _ _
      (fun _ => rfl) rfl
      (fun k => by
        have h := slotCount_free s.path.writes (issuedWrite?_some hw).2 fun w => w.job == some k
        simp only [beq_iff_eq] at h
        simp only [State.slotsOfJob, h]
        omega)
      (fun k => by
        have h := slotCount_free s.path.writes (issuedWrite?_some hw).2 fun w => w.entry == some k
        simp only [beq_iff_eq] at h
        simp only [State.slotsOfEntry, h]
        omega) }
  stores := { KeepsStores.refl n s with }
  marks := marks_uncounted (t := { s with path := { s.path with writes := s.path.writes.set i none } }) _ _ rfl rfl rfl rfl

/-! ## The port -/

/-- A change of the port that leaves the fetches as they are keeps everything but the law of the credits, which is to be shown. -/
theorem keeps_down {n : Nat} {k : Option Bool} {s : State} {d : Down}
    (hfetch : ((List.finRange 8).filter fun i => (d.internal[i]).any InternalSlot.isFetch).length
      = ((List.finRange 8).filter fun i => (s.down.internal[i]).any InternalSlot.isFetch).length)
    (hc : s.creditLaw → ({ s with down := d } : State).creditLaw) : Keeps n k s { s with down := d } where
  traffic := ⟨hc, fun h => h⟩
  stores := { KeepsStores.refl n s with }
  marks := {
    stack := fun h => h
    queue := fun h => h
    names := fun h => h
    marking := fun _ _ ⟨hs, ⟨hf, hin, hout⟩, hm, hst⟩ => ⟨hs, ⟨hfetch.trans hf, hin, hout⟩, hm, hst⟩
    hand := fun _ => rfl }

/-- Taking a forwarded reference off the head of its list counts one more transaction on DN. -/
theorem outstanding_grantForwarded {s : State} {f : FwdRef} {rest : List FwdRef} (hf : s.down.forwarded = f :: rest)
    (hn : s.down.forwarded.Nodup) (ho : s.path.occupied f = true) (d : Down) (hd : d.forwarded = rest)
    (hi : d.internalOut = s.down.internalOut) (hp : d.orphans = s.down.orphans) :
    ({ s with down := d } : State).outstanding = s.outstanding + 1 := by
  obtain ⟨hnot, -⟩ := List.nodup_cons.1 (hf ▸ hn)
  cases f with
  | read i =>
    have hreads : ({ s with down := d } : State).readsOut = s.readsOut + 1 := slotCount_add_one i
      (by simp [State.issuedRead?, hf]) (by simpa [State.issuedRead?, hd, hnot, Path.occupied] using ho) fun k hk => by
        simp [State.issuedRead?, hf, hd, hk]
    have hwrites : ({ s with down := d } : State).writesOut = s.writesOut := slotCount_congr fun k => by
      simp [State.issuedWrite?, hf, hd]
    simp only [State.outstanding, hreads, hwrites, hi, hp]
    omega
  | write i =>
    have hwrites : ({ s with down := d } : State).writesOut = s.writesOut + 1 := slotCount_add_one i
      (by simp [State.issuedWrite?, hf]) (by simpa [State.issuedWrite?, hd, hnot, Path.occupied] using ho) fun k hk => by
        simp [State.issuedWrite?, hf, hd, hk]
    have hreads : ({ s with down := d } : State).readsOut = s.readsOut := slotCount_congr fun k => by
      simp [State.issuedRead?, hf, hd]
    simp only [State.outstanding, hreads, hwrites, hi, hp]
    omega

theorem keeps_grantForwarded {n : Nat} {k : Option Bool} (s : State) {f : FwdRef} {rest : List FwdRef}
    (hc : s.down.credits ≠ 0) (hf : s.down.forwarded = f :: rest) : Keeps n k s (s.grantForwarded f rest) := by
  refine Keeps.trans ?_ (frame_give _ (s.forwardedIssue f)).keeps
  refine keeps_down rfl fun ⟨hsum, hn, ho, hin, hio⟩ => ?_
  have hsub : ∀ g ∈ rest, g ∈ s.down.forwarded := fun g hg => hf ▸ List.mem_cons_of_mem f hg
  refine ⟨?_, (List.nodup_cons.1 (hf ▸ hn)).2, fun g hg => ho g (hsub g hg), hin, hio⟩
  have hout := outstanding_grantForwarded hf hn (ho f (by simp [hf])) { s.down with
    forwarded := rest, credits := s.down.credits - 1
    run := if s.down.internalList.isEmpty then 0 else s.down.run + 1 } rfl rfl rfl
  refine (congrArg (s.down.credits - 1 + ·) hout).trans ?_
  show s.down.credits - 1 + (s.outstanding + 1) = 48
  omega

theorem keeps_grantInternal {n : Nat} {k : Option Bool} (s : State) {i : Fin 8} {rest : List (Fin 8)}
    (hc : s.down.credits ≠ 0) (hf : s.down.internalList = i :: rest) : Keeps n k s (s.grantInternal i rest) := by
  refine Keeps.trans ?_ (frame_give _ (s.down.internalIssue i)).keeps
  refine keeps_down rfl fun ⟨hsum, hn, ho, hin, hio⟩ => ?_
  obtain ⟨hnot, hrest⟩ := List.nodup_cons.1 (hf ▸ hin)
  have hsub : ∀ g ∈ rest, g ∈ s.down.internalList := fun g hg => hf ▸ List.mem_cons_of_mem i hg
  refine ⟨?_, hn, ho, hrest, fun g hg => hio g (hsub g hg)⟩
  have hout : ({ s.down with internalList := rest, credits := s.down.credits - 1, run := 0 } : Down).internalOut
      = s.down.internalOut + 1 := slotCount_add_one i
    (by simp [Down.outstanding?, hf]) (by simpa [Down.outstanding?, hnot] using hio i (by simp [hf])) fun k hk => by
      simp [Down.outstanding?, hf, hk]
  rw [State.outstanding] at hsum ⊢
  rw [hout]
  show s.down.credits - 1 + (s.readsOut + s.writesOut + (s.down.internalOut + 1) + s.down.orphans.length) = 48
  omega

theorem keeps_grant {n : Nat} {k : Option Bool} (s : State) : Keeps n k s s.grant := by
  unfold State.grant
  split
  · exact .refl s
  · next hc =>
    split
    · exact .refl s
    · next f rest hf _ => exact keeps_grantForwarded s hc hf
    · next i rest _ hi => exact keeps_grantInternal s hc hi
    · next f rest i rest' hf hi =>
      split
      · exact keeps_grantInternal s hc hi
      · exact keeps_grantForwarded s hc hf

theorem keeps_dropOrphan {n : Nat} {k : Option Bool} (s : State) (m : Nat) (d : Dir) : Keeps n k s (s.dropOrphan m d) := by
  unfold State.dropOrphan
  split
  · next o ho =>
    split
    · refine keeps_down rfl fun ⟨hsum, hrest⟩ => ⟨?_, hrest⟩
      obtain ⟨hlt, -⟩ := List.getElem?_eq_some_iff.1 ho
      have hlen := List.length_eraseIdx_of_lt hlt
      rw [State.outstanding] at hsum ⊢
      show s.down.credits + 1 + (s.readsOut + s.writesOut + s.down.internalOut + (s.down.orphans.eraseIdx m).length) = 48
      omega
    · exact .refl s
  · exact .refl s

/-! ## Internal transactions -/

theorem outstanding?_some {d : Down} {i : Fin 8} {x : InternalSlot} (h : d.outstanding? i = some x) :
    i ∉ d.internalList ∧ d.internal[i] = some x := by
  unfold Down.outstanding? at h
  split at h
  · cases h
  · next hc => exact ⟨by simpa using hc, h⟩

theorem creditLaw_handInternal {s : State} {i : Fin 8} (x : InternalSlot) (hi : s.down.internal[i] = none) (h : s.creditLaw) :
    ({ s with down := s.down.handInternal i x } : State).creditLaw := by
  obtain ⟨hsum, hn, ho, hin, hio⟩ := h
  have hnot : i ∉ s.down.internalList := fun hmem => by
    have := hio i hmem
    simp [hi] at this
  have hout : (s.down.handInternal i x).internalOut = s.down.internalOut := slotCount_congr fun k => by
    simp only [Down.outstanding?, Down.handInternal, get_set]
    by_cases hk : k = i
    · subst hk
      simp [hi]
    · simp [hk]
  refine ⟨?_, hn, ho, List.nodup_append_comm.1 (List.nodup_cons.2 ⟨hnot, hin⟩), fun g hg => ?_⟩
  · rw [State.outstanding] at hsum ⊢
    rw [hout]
    exact hsum
  · simp only [Down.handInternal, get_set]
    by_cases hg' : g = i
    · simp [hg']
    · rw [if_neg hg']
      exact hio g (by simpa [Down.handInternal, hg'] using hg)

theorem fetches_handInternal (d : Down) {i : Fin 8} (x : InternalSlot) (hi : d.internal[i] = none) :
    ((List.finRange 8).filter fun k => ((d.handInternal i x).internal[k]).any InternalSlot.isFetch).length
      = ((List.finRange 8).filter fun k => (d.internal[k]).any InternalSlot.isFetch).length
        + if x.isFetch = true then 1 else 0 := slotCount_set d.internal hi x _

/-- An internal transaction that is no fetch is handed to the arbiter. -/
theorem keeps_handInternal {n : Nat} {k : Option Bool} (s : State) {i : Fin 8} {x : InternalSlot}
    (hi : freeSlot? s.down.internal = some i) (hx : x.isFetch = false) :
    Keeps n k s { s with down := s.down.handInternal i x } :=
  keeps_down (by rw [fetches_handInternal _ _ (freeSlot?_free hi), hx]; rfl) (creditLaw_handInternal x (freeSlot?_free hi))

theorem internalOut_free {d : Down} {i : Fin 8} {x : InternalSlot} (hx : d.outstanding? i = some x) (e : Down)
    (hi : e.internalList = d.internalList) (hs : e.internal = d.internal.set i none) : d.internalOut = e.internalOut + 1 :=
  slotCount_add_one i (by simp [Down.outstanding?, hs]) (by simp [hx]) fun k hk => by
    simp only [Down.outstanding?, hi, hs, get_set, if_neg hk]

theorem creditLaw_freeInternal {s : State} {i : Fin 8} {x : InternalSlot} (hx : s.down.outstanding? i = some x)
    (h : s.creditLaw) : ({ s with down := s.down.freeInternal i } : State).creditLaw := by
  obtain ⟨hnot, -⟩ := outstanding?_some hx
  obtain ⟨hsum, hn, ho, hin, hio⟩ := h
  have hout := internalOut_free hx (s.down.freeInternal i) rfl rfl
  refine ⟨?_, hn, ho, hin, fun g hg => ?_⟩
  · rw [State.outstanding] at hsum ⊢
    show s.down.credits + 1 + (s.readsOut + s.writesOut + (s.down.freeInternal i).internalOut + s.down.orphans.length) = 48
    omega
  · have hg' : g ≠ i := fun e => hnot (e ▸ hg)
    simp only [Down.freeInternal, get_set, if_neg hg']
    exact hio g hg

theorem fetches_freeInternal {d : Down} {i : Fin 8} {x : InternalSlot} (hx : d.outstanding? i = some x) :
    ((List.finRange 8).filter fun k => (d.internal[k]).any InternalSlot.isFetch).length
      = ((List.finRange 8).filter fun k => ((d.freeInternal i).internal[k]).any InternalSlot.isFetch).length
        + if x.isFetch = true then 1 else 0 := slotCount_free d.internal (outstanding?_some hx).2 _

/-- An internal transaction that is no fetch completes. -/
theorem keeps_freeInternal {n : Nat} {k : Option Bool} (s : State) {i : Fin 8} {x : InternalSlot}
    (hx : s.down.outstanding? i = some x) (hf : x.isFetch = false) :
    Keeps n k s { s with down := s.down.freeInternal i } :=
  keeps_down (by rw [fetches_freeInternal hx, hf]; rfl) (creditLaw_freeInternal hx)

/-- An internal transaction is handed again; it stays a fetch, or none. -/
theorem keeps_handAgain {n : Nat} {k : Option Bool} (s : State) {i : Fin 8} {x : InternalSlot} {p : Purpose}
    (hx : s.down.outstanding? i = some x) (hp : ({ x with purpose := p } : InternalSlot).isFetch = x.isFetch) :
    Keeps n k s { s with down := s.down.handAgain i p } := by
  obtain ⟨hnot, hi⟩ := outstanding?_some hx
  have hget : ∀ g : Fin 8, (s.down.handAgain i p).internal[g]
      = if g = i then some { x with purpose := p } else s.down.internal[g] := fun g => by
    simp only [Down.handAgain, upd_get]
    by_cases hg : g = i
    · subst hg
      rw [if_pos rfl, if_pos rfl, hi]
      rfl
    · rw [if_neg hg, if_neg hg]
  refine keeps_down (slotCount_congr fun g => ?_) fun ⟨hsum, hn, ho, hin, hio⟩ => ⟨?_, hn, ho, ?_, fun g hg => ?_⟩
  · rw [hget]
    by_cases hg : g = i
    · subst hg
      rw [if_pos rfl, hi]
      exact hp.symm
    · rw [if_neg hg]
  · have hout : s.down.internalOut = (s.down.handAgain i p).internalOut + 1 :=
      slotCount_add_one i (by simp [Down.outstanding?, Down.handAgain]) (by simp [hx]) fun g hg => by
        simp only [Down.outstanding?, hget, if_neg hg]
        simp [Down.handAgain, hg]
    rw [State.outstanding] at hsum ⊢
    show s.down.credits + 1 + (s.readsOut + s.writesOut + (s.down.handAgain i p).internalOut + s.down.orphans.length) = 48
    omega
  · exact List.nodup_append_comm.1 (List.nodup_cons.2 ⟨hnot, hin⟩)
  · rw [hget]
    by_cases hg' : g = i
    · simp [hg']
    · rw [if_neg hg']
      exact hio g (by simpa [Down.handAgain, hg'] using hg)

end Sys2Proof.Machine
end

