-- ==== Sys2Proof/Proofs/EventKeeps.lean ====
section
/-!
What the consequences of an event change beside the frame: a job slot changes its state as a wipe completes, as a job leaves CLOSING and
as phase ERASE ends it. The end of every event keeps the laws of O5 and O7.
-/

namespace Sys2Proof.Machine

/-! ## A job slot that changes its state -/

/-- A job slot changes: it keeps its references, or has none and leaves its live state; its own context stands or is discarded; a marking
or stacked job stays one that may mark or be stacked. -/
theorem keeps_modJob {n : Nat} {k : Option Bool} (s : State) (j : Fin 16) (f : JobSlot → JobSlot)
    (hrefs : s.referenceLaw → (f (s.job j)).refs = (s.job j).refs
      ∧ ((f (s.job j)).state.live = false → (s.job j).state.live = false ∨ (s.job j).refs = 0))
    (hown : ∀ c ∈ (f (s.job j)).own, c ∈ (s.job j).own)
    (hmark : ∀ h ∈ k, s.markingLawAs h → (f (s.job j)).state.bindable = true
      ∨ ((∀ m ∈ s.jct.marking, m.job ≠ j) ∧ ∀ m ∈ s.jct.stack, m.job = j →
        (f (s.job j)).state = .closing ∧ (f (s.job j)).closePending = true)) : Keeps n k s (s.modJob j f) := by
  have hwithin : (s.modJob j f).jct.Within s.jct := within_of_own rfl rfl fun i c hc => by
    have hc' : c ∈ ((s.modJob j f).job i).own := hc
    rw [State.modJob_job] at hc'
    split at hc'
    · next h => exact h ▸ hown c (h ▸ hc')
    · exact hc'
  refine ⟨.of_jobs rfl rfl rfl rfl fun h i => ?_, { KeepsStores.refl n s with },
    ⟨fun h => h, hwithin.queueLaw, hwithin.namesLaw (Nat.le_refl _), ?_, fun _ => rfl⟩⟩
  · rw [State.modJob_job]
    split
    · next e =>
      subst e
      exact hrefs h
    · exact ⟨rfl, .inl⟩
  · intro h hk hlaw
    have hslot := hmark h hk hlaw
    obtain ⟨hs, hc, hm, hst⟩ := hlaw
    refine ⟨hs, hc, fun m hmem => ?_, fun m hmem => ?_⟩
    · rw [State.modJob_job]
      split
      · next e => exact hslot.elim (fun hb => e ▸ hb) fun hn => absurd e (hn.1 m hmem)
      · exact hm m hmem
    · rw [State.modJob_job]
      split
      · next e => exact hslot.elim (fun hb => .inl (e ▸ hb)) fun hn => .inr (e ▸ hn.2 m hmem e)
      · exact hst m hmem

/-- A job that neither marks nor is stacked and has no references leaves its live state, or it never was in one. -/
theorem keeps_leave {n : Nat} {k : Option Bool} (s : State) (j : Fin 16) (f : JobSlot → JobSlot)
    (hrefs : s.referenceLaw → (s.job j).refs = 0) (hf : (f (s.job j)).refs = 0 ∨ (f (s.job j)).refs = (s.job j).refs)
    (hown : ∀ c ∈ (f (s.job j)).own, c ∈ (s.job j).own)
    (hmark : ∀ h ∈ k, s.markingLawAs h → (∀ m ∈ s.jct.marking, m.job ≠ j) ∧ ∀ m ∈ s.jct.stack, m.job ≠ j) :
    Keeps n k s (s.modJob j f) :=
  keeps_modJob s j f
    (fun h => ⟨hf.elim (fun h0 => h0.trans (hrefs h).symm) fun e => e, fun _ => .inr (hrefs h)⟩) hown
    fun h hk hlaw => .inr ⟨(hmark h hk hlaw).1, fun m hm e => absurd e ((hmark h hk hlaw).2 m hm)⟩

theorem freed_own (q : JobSlot) : ∀ c ∈ q.freed.own, c ∈ q.own := fun c hc => by
  cases hc

/-! ## Wipes -/

theorem frame_rci {s : State} {r : Rci} (hup : s.rci.startup = .anchored → r.startup = .anchored)
    (hrun : s.rci.standby = .running → r.standby = .running) (hhand : r.hand = s.rci.hand) (hq : r.queue = s.rci.queue) :
    Frame s { s with rci := r } := { Frame.refl s with
  startup := hup
  standby := hrun
  hand := hhand
  reports h := by
    rw [hq]
    exact h }

theorem tally_cases (r : Rci) (ph : StandbyPhase) (f : StandbyTally → StandbyTally) :
    r.tally ph f = r ∨ ∃ m t x, r.standby = .entering m ph t x ∧ r.tally ph f = { r with standby := .entering m ph t (f x) } := by
  unfold Rci.tally
  split
  · next m q t x h =>
    split
    · next e =>
      subst e
      exact .inr ⟨m, t, x, h, rfl⟩
    · exact .inl rfl
  · exact .inl rfl
  · exact .inl rfl

theorem frame_tally (s : State) (ph : StandbyPhase) (f : StandbyTally → StandbyTally) :
    Frame s { s with rci := s.rci.tally ph f } := by
  rcases tally_cases s.rci ph f with h | ⟨m, t, x, hs, h⟩ <;> rw [h]
  · exact .refl s
  · exact frame_rci (fun e => e) (fun e => by rw [hs] at e; cases e) rfl rfl

theorem keeps_jobWiped {n : Nat} {k : Option Bool} (s : State) (j : Fin 16) : Keeps n k s (s.jobWiped j) := by
  unfold State.jobWiped
  have hwipes : Frame s (s.modJob j fun q => { q with wipes := q.wipes - 1 }) :=
    frame_modJob s j _ (fun _ => rfl) (fun _ => rfl) (fun _ => rfl) fun _ => rfl
  refine hwipes.keeps.trans ?_
  generalize (s.modJob j fun q => { q with wipes := q.wipes - 1 }) = t
  simp only
  split
  · next h =>
    obtain ⟨-, hw⟩ := h
    refine Keeps.trans (keeps_leave t j JobSlot.freed ?_ (.inl rfl) (freed_own _) ?_)
      ((frame_hand _ _ _).trans (frame_tally _ _ _)).keeps
    · exact fun hl => (hl.1 j).2 (by rw [hw]; rfl)
    · rintro h - ⟨-, -, hm, hst⟩
      refine ⟨fun m hmem e => ?_, fun m hmem e => ?_⟩
      · have := hm m hmem
        rw [e, hw] at this
        cases this
      · rcases hst m hmem with hb | ⟨hb, -⟩ <;> rw [e, hw] at hb <;> cases hb
  · exact .refl t

theorem keeps_finishWipe {n : Nat} {k : Option Bool} (s : State) : Keeps n k s s.finishWipe := by
  unfold State.finishWipe
  split
  · exact .refl s
  · next e rest hq =>
    split
    · have hpop : Frame s { s with wpe := { s.wpe with queue := rest } } :=
        { Frame.refl s with
          wipes := fun h => by rw [hq] at h; exact Nat.le_of_succ_le h
          pattern := fun h x hx => h x (by rw [hq]; exact List.mem_cons_of_mem e hx) }
      cases e.origin with
      | explicit tag => exact (hpop.trans (frame_hand _ _ _)).keeps
      | job j nonce => exact (hpop.trans (frame_hand _ _ _)).keeps.trans (keeps_jobWiped _ j)
    · exact .refl s

/-! ## Leaving CLOSING (R52, R53) -/

theorem isMarking_eq_false (j : Jobs) (i : Fin 16) : j.isMarking i = false ↔ ∀ m ∈ j.marking, m.job ≠ i := by
  cases h : j.marking <;> simp [Jobs.isMarking, h]

theorem isStacked_eq_false (j : Jobs) (i : Fin 16) : j.isStacked i = false ↔ ∀ m ∈ j.stack, m.job ≠ i := by
  simp [Jobs.isStacked]

theorem isMarking_congr {j k : Jobs} (h : k.marking.map Marked.job = j.marking.map Marked.job) (i : Fin 16) :
    k.isMarking i = j.isMarking i := by
  have hany : ∀ l : Jobs, l.isMarking i = (l.marking.map Marked.job).any (· == i) := fun l => by
    cases hm : l.marking <;> simp [Jobs.isMarking, hm]
  rw [hany, hany, h]

theorem isStacked_congr {j k : Jobs} (h : k.stack.map Marked.job = j.stack.map Marked.job) (i : Fin 16) :
    k.isStacked i = j.isStacked i := by
  have hany : ∀ l : Jobs, l.isStacked i = (l.stack.map Marked.job).any (· == i) := fun l => by
    simp [Jobs.isStacked, List.any_map, Function.comp_def]
  rw [hany, hany, h]

/-- What the leaving of CLOSING asks of the job (R52). -/
theorem mayLeave_facts {s : State} {j : Fin 16} (h : s.mayLeave j = true) :
    (s.job j).state = .closing ∧ (s.job j).refs = 0 ∧ s.jct.isMarking j = false ∧ s.jct.isStacked j = false := by
  simp only [State.mayLeave, Bool.and_eq_true, beq_iff_eq, Bool.not_eq_true'] at h
  obtain ⟨⟨⟨⟨⟨h₁, h₂⟩, h₃⟩, h₄⟩, -⟩, -⟩ := h
  exact ⟨h₁, h₂, h₃, h₄⟩

theorem left_refs {q : JobSlot} (a : Nat) (h : q.refs = 0) : (q.left a).refs = 0 := by
  unfold JobSlot.left
  split
  · rfl
  · exact h

theorem left_own (q : JobSlot) (a : Nat) : ∀ c ∈ (q.left a).own, c ∈ q.own := by
  unfold JobSlot.left
  split
  · exact freed_own q
  · exact fun c hc => hc

theorem frame_reportSkipped (s : State) (j : Fin 16) (a : Nat) (rs : List (Nat × Nat)) (c : SkipCause) :
    Frame s (s.reportSkipped j a rs c) := by
  unfold State.reportSkipped
  exact Frame.ite (.refl s) (frame_hand _ _ _)

theorem frame_tellEnded (s : State) (u : Fin 256) (marked : Bool) : Frame s (s.tellEnded u marked) := by
  have hace : Frame s { s with ace := s.ace.jobEnded u } := frame_ace fun h => Ace.triggerAll_bounded _ _ h
  unfold State.tellEnded
  exact Frame.ite (hace.trans (sided_closeNotice.frame _)) hace

theorem frame_keys (s : State) (ks : Vector (Option Key) 16) : Frame s { s with keys := ks } := { Frame.refl s with }

theorem frame_invalidate (s : State) (gone : RegionEntry → Bool) : Frame s (s.setRegions (s.rgt.invalidate gone)) :=
  frame_setRegions s _ rfl

/-- The wipe entries of a job that leaves CLOSING join, its key is destroyed and its entries become invalid (R53 steps 2, 3 and 6). -/
theorem frame_leaveStart (s : State) (j : Fin 16) (a : Nat) (ha : a ≤ s.wpe.room) (ks : Vector (Option Key) 16) :
    Frame s (({ s.appendWipes j ((s.wipeRanges j).take a) with keys := ks } : State).setRegions
      ((s.appendWipes j ((s.wipeRanges j).take a)).rgt.invalidate fun e => e.names j)) :=
  (frame_appendWipes s j _ (Nat.le_trans (List.length_take_le _ _) ha)).trans ((frame_keys _ _).trans (frame_invalidate _ _))

theorem keeps_leaveClosing {n : Nat} {k : Option Bool} (s : State) {j : Fin 16} (h : s.mayLeave j = true) :
    Keeps n k s (s.leaveClosing j) := by
  obtain ⟨-, hrefs, hm, hst⟩ := mayLeave_facts h
  have hstart := frame_leaveStart s j (min 32 s.wpe.room) (Nat.min_le_right _ _) (s.keys.set j none)
  refine Keeps.trans ?_ (frame_tellEnded _ _ _).keeps
  refine Keeps.trans ?_ (frame_reportSkipped _ _ _ _ _).keeps
  refine Keeps.trans ?_ (frame_hand _ _ _).keeps
  refine hstart.keeps.trans (keeps_leave _ j _ ?_ ?_ (left_own _ _) ?_)
  · exact fun _ => (hstart.refs j).trans hrefs
  · exact .inl (left_refs _ ((hstart.refs j).trans hrefs))
  · exact fun _ _ _ => ⟨(isMarking_eq_false _ _).1 ((isMarking_congr hstart.marking j).trans hm),
      (isStacked_eq_false _ _).1 ((isStacked_congr hstart.stack j).trans hst)⟩

theorem keeps_leaveIfDue {n : Nat} {k : Option Bool} (s : State) (j : Fin 16) : Keeps n k s (s.leaveIfDue j) := by
  unfold State.leaveIfDue
  split
  · next h => exact keeps_leaveClosing s h
  · exact .refl s

theorem keeps_leaveAll {n : Nat} {k : Option Bool} (s : State) : Keeps n k s s.leaveAll := Keeps.foldl keeps_leaveIfDue _ s

/-! ## Standby (R177) -/

/-- No forwarded transaction has a slot. -/
def Path.noneTaken (p : Path) : Prop := ∀ i : Fin 32, p.reads[i] = none ∧ p.writes[i] = none

theorem drained_noneTaken {s : State} (h : s.drained = true) : s.path.noneTaken := by
  simp only [State.drained, Bool.and_eq_true, all_toList_iff] at h
  obtain ⟨⟨⟨⟨⟨hr, hw⟩, -⟩, -⟩, -⟩, -⟩ := h
  exact fun i => ⟨Option.isNone_iff_eq_none.1 (hr i), Option.isNone_iff_eq_none.1 (hw i)⟩

theorem slotsOfJob_noneTaken {s : State} (h : s.path.noneTaken) (j : Fin 16) : s.slotsOfJob j = 0 := by
  rw [State.slotsOfJob, slotCount_zero fun i => by simp [(h i).1], slotCount_zero fun i => by simp [(h i).2]]

/-- A job that phase ERASE ends, while no transaction has a slot and the part is entering standby. -/
theorem keeps_eraseJob {n : Nat} {k : Option Bool} (s : State) (j : Fin 16) (ht : s.path.noneTaken)
    (hs : s.rci.standby ≠ .running) : Keeps n k s (s.eraseJob j) := by
  refine Keeps.trans (keeps_leave s j JobSlot.freed ?_ (.inl rfl) (freed_own _) ?_)
    ((frame_keys _ _).trans (frame_tellEnded _ _ _)).keeps
  · exact fun h => (h.1 j).1.trans (slotsOfJob_noneTaken ht j)
  · rintro h - ⟨-, ⟨-, -, hout⟩, -, -⟩
    obtain ⟨hm, hst⟩ := hout (.inr hs)
    simp [hm, hst]

theorem Sided.path_rci {f : State → State} (hf : Sided f) (s : State) : (f s).path = s.path ∧ (f s).rci = s.rci :=
  ⟨(congrArg State.path (hf.apply_eq s) :), (congrArg State.rci (hf.apply_eq s) :)⟩

theorem eraseJob_path_rci (s : State) (j : Fin 16) : (s.eraseJob j).path = s.path ∧ (s.eraseJob j).rci = s.rci := by
  have h : ∀ u m, ∀ t : State, (t.tellEnded u m).path = t.path ∧ (t.tellEnded u m).rci = t.rci := fun u m t => by
    unfold State.tellEnded
    split
    · exact sided_closeNotice.path_rci _
    · exact ⟨rfl, rfl⟩
  exact h (s.job j).user (s.job j).marked { s.modJob j JobSlot.freed with keys := s.keys.set j none }

theorem keeps_eraseJobs {n : Nat} {k : Option Bool} (js : List (Fin 16)) (s : State) (ht : s.path.noneTaken)
    (hs : s.rci.standby ≠ .running) :
    Keeps n k s (js.foldl State.eraseJob s) ∧ (js.foldl State.eraseJob s).rci = s.rci := by
  induction js generalizing s with
  | nil => exact ⟨.refl s, rfl⟩
  | cons j js ih =>
    obtain ⟨hp, hr⟩ := eraseJob_path_rci s j
    obtain ⟨hk, hrci⟩ := ih (s.eraseJob j) (hp ▸ ht) (hr ▸ hs)
    exact ⟨(keeps_eraseJob s j ht hs).trans hk, hrci.trans hr⟩

theorem setRegions_path_rci (s : State) (g : Regions) : (s.setRegions g).path = s.path ∧ (s.setRegions g).rci = s.rci := by
  rw [s.setRegions_eq]
  exact ⟨rfl, rfl⟩

theorem keeps_erase {n : Nat} {k : Option Bool} (s : State) (ht : s.path.noneTaken) (hs : s.rci.standby ≠ .running) :
    Keeps n k s s.erase ∧ s.erase.rci = s.rci := by
  obtain ⟨hp, hr⟩ := setRegions_path_rci s (s.rgt.invalidate RegionEntry.jobBound)
  obtain ⟨hk, hrci⟩ := keeps_eraseJobs s.jct.liveJobs (s.setRegions (s.rgt.invalidate RegionEntry.jobBound))
    (by rw [hp]; exact ht) (by rw [hr]; exact hs)
  exact ⟨(frame_invalidate s _).keeps.trans hk, hrci.trans hr⟩

theorem frame_standby (s : State) (x : Standby) (hs : s.rci.standby ≠ .running) :
    Frame s { s with rci := { s.rci with standby := x } } :=
  frame_rci (fun e => e) (fun e => absurd e hs) rfl rfl

/-- The part detached, and in phase FLUSH with this tally. -/
def State.detachedAs (s : State) (x : Standby) : State := { s.detachAll with rci := { s.detachAll.rci with standby := x } }

theorem frame_detached (s : State) (x : Standby) (hs : s.rci.standby ≠ .running) :
    Frame s (s.detachedAs x) := by
  refine (sided_detachAll.frame s).trans (frame_standby _ x ?_)
  rw [(sided_detachAll.path_rci s).2]
  exact hs

theorem eraseAndDetach_retain (s : State) (tag : BitVec 16) (x : StandbyTally) : s.eraseAndDetach .retain tag x =
    s.detachedAs (.entering .retain .flush tag { x with ended := 0, bays := s.attachedBays }) := by
  simp only [State.eraseAndDetach, State.detachedAs, State.eraseCount]

theorem eraseAndDetach_erase (s : State) (tag : BitVec 16) (x : StandbyTally) : s.eraseAndDetach .erase tag x =
    s.erase.detachedAs (.entering .erase .flush tag { x with ended := s.jct.liveJobs.length, bays := s.erase.attachedBays }) := by
  simp only [State.eraseAndDetach, State.detachedAs, State.eraseCount]

theorem keeps_drainEnd {n : Nat} {k : Option Bool} (s : State) : Keeps n k s s.drainEnd := by
  unfold State.drainEnd
  split
  · next m tag x h =>
    have hs : s.rci.standby ≠ .running := by rw [h]; exact fun e => by cases e
    split
    · next hd =>
      cases m with
      | retain =>
        rw [eraseAndDetach_retain]
        exact (frame_detached s _ hs).keeps
      | erase =>
        rw [eraseAndDetach_erase]
        obtain ⟨hk, hr⟩ := keeps_erase s (n := n) (k := k) (drained_noneTaken hd) hs
        exact hk.trans (frame_detached s.erase _ (by rw [hr]; exact hs)).keeps
    · exact .refl s
  · exact .refl s

theorem frame_flushTrigger (s : State) : Frame s s.flushTrigger := by
  unfold State.flushTrigger
  split
  · exact frame_ace fun h => Ace.triggerAll_bounded allRecords s.ace h
  · exact .refl s

theorem frame_flushEnd (s : State) : Frame s s.flushEnd := by
  unfold State.flushEnd
  split
  · next m tag x h =>
    refine Frame.ite (Frame.trans ?_ (frame_hand _ (.standby m x) tag)) (.refl s)
    exact { Frame.refl s with standby := fun e => by rw [h] at e; cases e }
  · exact .refl s

theorem keeps_standbyStep {n : Nat} {k : Option Bool} (s : State) : Keeps n k s s.standbyStep :=
  (keeps_drainEnd s).trans ((frame_flushTrigger _).trans (frame_flushEnd _)).keeps

theorem frame_postEnd (s : State) : Frame s s.postEnd := by
  unfold State.postEnd
  split
  · next m tag x h =>
    exact Frame.ite (frame_rci (fun e => e) (fun e => by rw [h] at e; cases e) rfl rfl) (.refl s)
  · exact .refl s

theorem frame_wakeCheck (s : State) : Frame s s.wakeCheck := by
  unfold State.wakeCheck
  refine Frame.ite (Frame.trans ?_ (sided_firstPolls.frame _)) (.refl s)
  exact { Frame.refl s with standby := fun _ => rfl }

/-! ## The end of an event -/

theorem keeps_consequences {n : Nat} {k : Option Bool} (s : State) : Keeps n k s s.consequences :=
  ((frame_settleDue s).trans (frame_completeCommit _)).keeps.trans
    ((keeps_finishWipe _).trans ((keeps_leaveAll _).trans ((frame_startWipe _).keeps.trans (keeps_standbyStep _))))

theorem keeps_endEvent {n : Nat} {k : Option Bool} (s : State) : Keeps n k s s.endEvent :=
  (keeps_consequences s).trans ((frame_joinAll _).trans ((frame_postEnd _).trans (frame_wakeCheck _))).keeps

theorem keeps_endReset {n : Nat} {k : Option Bool} (s : State) : Keeps n k s s.endReset :=
  (keeps_consequences s).trans ((frame_joinHanded _).trans ((frame_postEnd _).trans (frame_wakeCheck _))).keeps

theorem frame_beginEvent (s : State) : Frame s s.beginEvent := { Frame.refl s with }

/-- An event keeps what its effect keeps. -/
theorem keeps_event {n : Nat} {k : Option Bool} {s t : State} {body : State → State} (h : event body s = .next t)
    (hb : Keeps n k s.beginEvent (body s.beginEvent)) : Keeps n k s t := by
  simp only [event, Host.Outcome.next.injEq] at h
  subst h
  split
  · exact (frame_beginEvent s).keeps.trans (hb.trans (keeps_endEvent _))
  · exact (frame_beginEvent s).keeps

end Sys2Proof.Machine
end

