-- ==== Sys2Proof/Proofs/PathKeeps.lean ====
section
/-!
The memory path keeps the laws of O5 and O7: a trial opens each record under a new name and leaves room in its queue, an examination
accepts only for a live job, and a transaction is taken, answered or held.
-/

namespace Sys2Proof.Machine

/-! ## Trials (R71, R75 to R79) -/

/-- A trial goes on to another: the queue stays in its bound, and every record has a name that has been given. -/
structure Trial.Grows (a b : Trial) : Prop where
  room : a.ctx.queue.length ≤ 4 → b.ctx.queue.length ≤ 4
  opened : a.rmu.opened ≤ b.rmu.opened
  names : (∀ r ∈ a.ctx.queue, r.opened ≤ a.rmu.opened) → ∀ r ∈ b.ctx.queue, r.opened ≤ b.rmu.opened

theorem Trial.Grows.refl (a : Trial) : a.Grows a := ⟨fun h => h, Nat.le_refl _, fun h => h⟩

theorem Trial.Grows.trans {a b c : Trial} (h : a.Grows b) (g : b.Grows c) : a.Grows c :=
  ⟨fun x => g.room (h.room x), Nat.le_trans h.opened g.opened, fun x => g.names (h.names x)⟩

/-- A trial whose context gains no record. -/
theorem Trial.Grows.of_within {a b : Trial} (h : b.ctx.Within a.ctx) (hr : b.rmu = a.rmu) : a.Grows b where
  room x := Nat.le_trans h.1 x
  opened := Nat.le_of_eq (by rw [hr])
  names x r hmem := by
    obtain ⟨q, hq, e⟩ := h.2 r hmem
    rw [hr, e]
    exact x q hq

theorem Trial.closeTie_grows (tr : Trial) (p : Fin 4) : tr.Grows (tr.closeTie p) := by
  unfold Trial.closeTie
  split
  · exact .refl tr
  · exact .of_within ((Context.dropDue_within _).trans (Context.modRecord_within tr.ctx _ _ fun _ => rfl)) rfl

theorem Trial.choose_grows {env : TrialEnv} {passes : Nat → Bool} {tr tr' : Trial} {f n : Nat}
    (h : tr.choose env passes f = .ok (tr', n)) : tr.Grows tr' := by
  unfold Trial.choose at h
  split at h
  · simp only [Except.ok.injEq, Prod.mk.injEq] at h
    obtain ⟨rfl, -⟩ := h
    exact .refl tr
  · split at h
    · cases h
    · next hroom =>
      split at h
      · simp only [Except.ok.injEq, Prod.mk.injEq] at h
        obtain ⟨rfl, -⟩ := h
        refine ⟨fun _ => ?_, Nat.le_succ _, fun hn r hr => ?_⟩
        · simp only [List.length_append, List.length_cons, List.length_nil]
          omega
        · rcases List.mem_append.1 hr with hr | hr
          · exact Nat.le_succ_of_le (hn r hr)
          · obtain rfl := List.mem_singleton.1 hr
            exact Nat.le_refl _
      · cases h

theorem Trial.tie_grows (env : TrialEnv) (tr : Trial) (n f chunk : Nat) : tr.Grows (tr.tie env n f chunk) :=
  .of_within (Context.modRecord_within tr.ctx n (fun r =>
    { (r.modPlane env.raster.plane fun q => { q with status := .opened, chunks := 0 }) with
      irregular := r.irregular || chunk != 0 }) fun _ => rfl) rfl

theorem Trial.classify_grows (env : TrialEnv) (tr : Trial) (chunk : Nat) : tr.Grows (tr.classify env chunk) := by
  unfold Trial.classify
  simp only
  split
  · split
    · exact ⟨fun h => h, Nat.le_refl _, fun h => h⟩
    · exact .of_within (Context.modRecord_within tr.ctx _ _ fun _ => rfl) rfl
  · exact ⟨fun h => h, Nat.le_refl _, fun h => h⟩

theorem Trial.line_grows {env : TrialEnv} {passes : Nat → Bool} {tr tr' : Trial} {a : Addr}
    (h : tr.line env passes a = .ok tr') : tr.Grows tr' := by
  unfold Trial.line at h
  simp only at h
  split at h
  · unfold Trial.startPass at h
    cases hc : (tr.closeTie env.raster.plane).choose env passes (env.place a).1 with
    | error e => simp [hc] at h
    | ok x =>
      obtain ⟨tr₁, n⟩ := x
      simp only [hc, Except.ok.injEq] at h
      subst h
      exact (tr.closeTie_grows _).trans ((Trial.choose_grows hc).trans ((tr₁.tie_grows env _ _ _).trans (Trial.classify_grows _ _ _)))
  · simp only [Except.ok.injEq] at h
    subst h
    exact Trial.classify_grows _ _ _

theorem Trial.run_grows {env : TrialEnv} {passes : Nat → Bool} {as : List Addr} {tr tr' : Trial}
    (h : Trial.run env passes as tr = .ok tr') : tr.Grows tr' := by
  induction as generalizing tr with
  | nil =>
    simp only [Trial.run, Except.ok.injEq] at h
    exact h ▸ .refl tr
  | cons a as ih =>
    simp only [Trial.run] at h
    cases hl : tr.line env passes a with
    | error e => simp [hl] at h
    | ok tr₁ =>
      simp only [hl] at h
      exact (Trial.line_grows hl).trans (ih h)

/-! ## What an examination accepts -/

/-- What is accepted names a live job, and its trial ran on the current context. -/
structure Accept.Sound (a : Accept) (s : State) : Prop where
  live : ∀ j ∈ a.job, (s.job j).state.live = true
  trial : ∀ x ∈ a.trial, ∃ m, s.jct.marking = some m ∧ (Trial.start m.ctx s.rmu).Grows x.1

/-- A verdict that accepts accepts soundly. -/
def Verdict.Sound (v : Verdict) (s : State) : Prop := ∀ a, v = .accept a → a.Sound s

theorem Accept.sound_of_none {a : Accept} (s : State) (hj : a.job = none) (ht : a.trial = none) : a.Sound s :=
  ⟨fun _ h => Option.not_mem_none _ (hj ▸ h) |>.elim, fun _ h => Option.not_mem_none _ (ht ▸ h) |>.elim⟩

theorem gate_sound (s : State) (t : Txn) (i : Fin 32) (e : RegionEntry) (r : Raster) (j : Fin 16) (v : View)
    (hl : (s.job j).state.live = true) : (s.gate t i e r j v).Sound s := by
  intro a ha
  unfold State.gate at ha
  split at ha
  · cases ha
  · next m hm =>
    simp only at ha
    split at ha
    · cases ha
    split at ha
    · cases ha
    split at ha
    · cases ha
    split at ha
    · cases ha
    split at ha
    · next tr htr =>
      cases ha
      exact ⟨fun k hk => by cases hk; exact hl, fun x hx => by cases hx; exact ⟨m, hm, Trial.run_grows htr⟩⟩
    · cases ha
    · cases ha

theorem letsPass_live {st : JobState} {marks : Bool} (h : st.letsPass marks = true) : st.live = true := by
  cases st with
  | opened => rfl
  | held why => rfl
  | closing => cases h
  | wiping => cases h
  | free => cases h

theorem examineJob_sound (s : State) (t : Txn) (i : Fin 32) (e : RegionEntry) (j : Fin 16) :
    (s.examineJob t i e j).Sound s := by
  intro a ha
  unfold State.examineJob at ha
  simp only at ha
  split at ha
  · cases ha
  next hpass =>
  have hl : (s.job j).state.live = true := letsPass_live (by simpa using hpass)
  have haccept : ∀ v, Verdict.accept ⟨some i, some j, v, false, none⟩ = .accept a → a.Sound s := fun v hv => by
    cases hv
    exact ⟨fun k hk => by cases hk; exact hl, fun x hx => by cases hx⟩
  split at ha
  · cases ha
  split at ha
  · split at ha
    · exact gate_sound s t i e _ j _ hl a ha
    · exact haccept _ ha
  · exact haccept _ ha

theorem examineMiss_sound (s : State) : s.examineMiss.Sound s := by
  intro a ha
  unfold State.examineMiss at ha
  split at ha
  · cases ha
  · cases ha
    exact Accept.sound_of_none s rfl rfl

theorem examineMatch_sound (s : State) (t : Txn) : (s.examineMatch t).Sound s := by
  intro a ha
  unfold State.examineMatch at ha
  split at ha
  · cases ha
  split at ha
  · exact examineMiss_sound s a ha
  split at ha
  · unfold State.examineEntry at ha
    split at ha
    · cases ha
    split at ha
    · cases ha
      exact Accept.sound_of_none s rfl rfl
    · exact examineJob_sound s t _ _ _ a ha
  · exact examineMiss_sound s a ha

theorem examineFrom2_sound (s : State) (t : Txn) : (s.examineFrom2 t).Sound s := by
  intro a ha
  unfold State.examineFrom2 at ha
  split at ha
  · cases ha
  split at ha
  · cases ha
  split at ha
  · cases ha
    exact Accept.sound_of_none s rfl rfl
  split at ha
  · split at ha
    · cases ha
      exact Accept.sound_of_none s rfl rfl
    · cases ha
  · exact examineMatch_sound s t a ha

theorem examine_sound (s : State) (t : Txn) : (s.examine t).Sound s := by
  intro a ha
  unfold State.examine at ha
  split at ha
  · cases ha
  · exact examineFrom2_sound s t a ha

/-! ## Acceptance -/

theorem trialContexts {s : State} {m : Marked} (hm : s.jct.marking = some m) (c : Context) {x : Marked}
    (hx : x ∈ ({ s.jct with marking := s.jct.marking.map fun m => { m with ctx := c } } : Jobs).contexts) :
    x = ⟨m.job, c⟩ ∨ x ∈ s.jct.contexts := by
  rcases (Jobs.mem_contexts_iff _ x).1 hx with h | h | h
  · rw [hm] at h
    cases h
    exact .inl rfl
  · exact .inr ((Jobs.mem_contexts_iff _ x).2 (.inr (.inl h)))
  · exact .inr ((Jobs.mem_contexts_iff _ x).2 (.inr (.inr h)))

/-- A trial that ran on the current context becomes the current context. -/
theorem keeps_trial {n : Nat} {k : Option Bool} (s : State) {m : Marked} {tr : Trial} (hm : s.jct.marking = some m)
    (hg : (Trial.start m.ctx s.rmu).Grows tr) (a : Ace) (ha : a.queue = s.ace.queue) :
    Keeps n k s { s with
      jct := { s.jct with marking := s.jct.marking.map fun m => { m with ctx := tr.ctx } }, rmu := tr.rmu, ace := a } := by
  have hctx : m ∈ s.jct.contexts := (s.jct.mem_contexts_iff m).2 (.inl hm)
  have hmap : (s.jct.marking.map fun m => ({ m with ctx := tr.ctx } : Marked)).map Marked.job = s.jct.marking.map Marked.job := by
    simp [hm]
  refine ⟨.of_jobs rfl rfl rfl rfl fun _ _ => ⟨rfl, .inl⟩, ?_, ⟨?_, fun h x hx => ?_, fun h => ?_, fun h _ hlaw => ?_, fun _ => rfl⟩⟩
  · exact { KeepsStores.refl n s with writeBacks := fun h => by rw [← ha] at h; exact h }
  · exact stackLaw_congr hmap rfl
  · rcases trialContexts hm tr.ctx hx with rfl | hx
    · exact hg.room (h m hctx)
    · exact h x hx
  · rw [State.namesLaw_iff] at h ⊢
    intro x hx r hr
    rcases trialContexts hm tr.ctx hx with rfl | hx
    · exact hg.names (h m hctx) r hr
    · exact Nat.le_trans (h x hx r hr) hg.opened
  · exact markingLawAs_congr (s := s) rfl hmap rfl (fun e => e) (fun e => e) (fun _ => rfl) (fun _ => rfl) hlaw

theorem keeps_takeTrial {n : Nat} {k : Option Bool} (s : State) (j : Fin 16) {m : Marked} {tr : Trial} (reserve : Nat)
    (hm : s.jct.marking = some m) (hg : (Trial.start m.ctx s.rmu).Grows tr) : Keeps n k s (s.takeTrial j tr reserve) := by
  have htrial := keeps_trial (n := n) (k := k) s hm hg (s.ace.modReserved (s.job j).user (· + tr.openedNow * reserve)) rfl
  unfold State.takeTrial
  simp only
  split
  · exact htrial
  · exact htrial.trans ((frame_releaseAssembly _ _).trans (Frame.foldl (frame_settle true) _ _)).keeps

theorem raise_addRef_eq (s : State) (e : Option (Fin 32)) (j : Option (Fin 16)) :
    ({ s with rgt := s.rgt.raise e } : State).addRef j = s.counted e j := by
  cases e <;> cases j <;> rfl

/-- What an acceptance does beside its slot, where the slot with its counts keeps the laws. -/
theorem keeps_acceptEffects {n : Nat} {k : Option Bool} {s t : State} {a : Accept} (ha : a.Sound s)
    (hs : Keeps n k s (t.counted a.entry a.job)) (hj : t.jct = s.jct) (hr : t.rmu = s.rmu) :
    Keeps n k s (t.acceptEffects a) := by
  unfold State.acceptEffects
  rw [raise_addRef_eq]
  split
  · next tr p d reserve j htr hjob =>
    obtain ⟨m, hm, hg⟩ := ha.trial _ htr
    have hm' : (t.counted a.entry a.job).jct.marking = some m := ((counted_marking t _ _).1.trans (by rw [hj])).trans hm
    rw [hjob] at hs hm' ⊢
    exact hs.trans (keeps_takeTrial _ j reserve hm' (by rw [show (t.counted a.entry (some j)).rmu = s.rmu from hr]; exact hg))
  · exact hs

theorem keeps_accept {n : Nat} {k : Option Bool} (s : State) (t : Txn) {a : Accept} (ha : a.Sound s) :
    Keeps n k s (s.accept t a) := by
  unfold State.accept
  split
  · split
    · next i hi =>
      exact keeps_acceptEffects ha (keeps_placeRead s (a.readSlot t) (freeSlot?_free hi) ha.live) rfl rfl
    · exact .refl s
  · split
    · next i hi =>
      exact keeps_acceptEffects ha (keeps_placeWrite s (a.writeSlot t (s.keyOf a.job)) (freeSlot?_free hi) ha.live) rfl rfl
    · exact .refl s

/-! ## Denials and QUOTA -/

theorem frame_capture1 (s : State) (r : CaptureRec) : Frame s { s with path := s.path.capture1 r } := { Frame.refl s with
  capture h := by
    refine ⟨fun _ => ?_, Nat.min_le_left _ _⟩
    show 1 ≤ min 65535 (s.path.captureCount + 1)
    omega }

theorem frame_deny (s : State) (t : Txn) (d : Denial) : Frame s (s.deny t d) := by
  unfold State.deny
  simp only
  have hcapture := (frame_give s (d.answer t)).trans (frame_capture1 _ (d.record t))
  refine Frame.ite (Frame.ite (hcapture.trans (frame_hand _ _ _)) (Frame.ite (hcapture.trans (frame_hand _ _ _)) hcapture)) ?_
  exact Frame.ite ((frame_give s (d.answer t)).trans (frame_hand _ _ _)) (frame_give s _)

/-- A job's state becomes one in which it may mark: OPEN or HELD. -/
theorem keeps_bindable {n : Nat} {k : Option Bool} (s : State) (j : Fin 16) (st : JobState) (h : st.bindable = true) :
    Keeps n k s (s.modJob j fun q => { q with state := st }) := by
  have hlive : st.live = true := by
    cases st with
    | opened => rfl
    | held why => rfl
    | free => cases h
    | closing => cases h
    | wiping => cases h
  exact keeps_modJob s j _ (fun _ => ⟨rfl, fun hl => by rw [hlive] at hl; cases hl⟩) (fun c hc => hc) fun _ _ _ => .inl h

theorem keeps_quotaDenied {n : Nat} {k : Option Bool} (s : State) (t : Txn) (i : Fin 32) (j : Fin 16) :
    Keeps n k s (s.quotaDenied t i j) :=
  (frame_deny s t _).keeps.trans ((keeps_bindable _ j (.held .quota) rfl).trans (frame_hand _ _ _).keeps)

theorem keeps_resolve {n : Nat} {k : Option Bool} (s : State) (t : Txn) {v : Verdict} (hv : v.Sound s) :
    Keeps n k s (s.resolve t v).1 := by
  cases v with
  | accept a => exact keeps_accept s t (hv a rfl)
  | deny d => exact (frame_deny s t d).keeps
  | holdCommit => exact .refl s
  | holdAssembly j => exact (frame_makeRoom s).keeps
  | quota i j => exact keeps_quotaDenied s t i j

/-! ## Taking (R3, R18) -/

theorem frame_setPort (s : State) (d : Dir) (ts : List Txn) : Frame s { s with path := s.path.setPort d ts } := by
  cases d <;> exact { Frame.refl s with }

theorem frame_present (s : State) (t : Option Txn) : Frame s (s.present t) := by
  cases t with
  | none => exact .refl s
  | some t => exact frame_setPort s t.dir _

/-- A Hold Queue that stays within `n`. -/
theorem keeps_hold {n : Nat} {k : Option Bool} (s : State) (hold : List HoldEntry) (h : hold.length ≤ n) :
    Keeps n k s { s with path := { s.path with hold := hold } } where
  traffic := .of_jobs rfl rfl rfl rfl fun _ _ => ⟨rfl, .inl⟩
  stores := { KeepsStores.refl n s with hold := Nat.le_trans h (Nat.le_max_right _ _) }
  marks := .of_jobs rfl rfl rfl (fun _ => rfl) (fun _ => rfl) (fun _ => rfl) rfl rfl

theorem keeps_takePort {n : Nat} {k : Option Bool} (s : State) (d : Dir) (h8 : 8 ≤ n) : Keeps n k s (s.takePort d) := by
  unfold State.takePort
  split
  · exact .refl s
  · next t rest _ =>
    split
    · next hmay =>
      have hlt : s.path.hold.length < 8 := by
        simp only [Path.mayTake, Bool.and_eq_true, decide_eq_true_eq] at hmay
        exact hmay.1.2
      simp only
      have hpop := frame_setPort s d rest
      have hsound := examine_sound { s with path := s.path.setPort d rest } t
      have hres := fun n => keeps_resolve (n := n) (k := k) { s with path := s.path.setPort d rest } t hsound
      have hlen := (hres 0).stores.hold
      have hpoplen := hpop.hold
      refine hpop.keeps.trans ((hres n).trans ?_)
      unfold State.joinHold
      split
      · exact .refl _
      · refine keeps_hold _ _ ?_
        simp only [List.length_append, List.length_cons, List.length_nil]
        omega
    · exact .refl s

theorem splitReleased_length {hold before behind : List HoldEntry} {h : HoldEntry}
    (e : splitReleased hold = some (before, h, behind)) : before.length + behind.length + 1 = hold.length := by
  induction hold generalizing before with
  | nil => cases e
  | cons x xs ih =>
    unfold splitReleased at e
    split at e
    · cases e
      simp
    · obtain ⟨⟨b, y, c⟩, hy, heq⟩ := Option.map_eq_some_iff.1 e
      cases heq
      have := ih hy
      simp only [List.length_cons]
      omega

theorem keeps_takeReleased {n : Nat} {k : Option Bool} (s : State) (hn : s.path.hold.length ≤ n) :
    Keeps n k s s.takeReleased := by
  unfold State.takeReleased
  split
  · exact .refl s
  · next before h behind e =>
    have hsplit := splitReleased_length e
    split
    · simp only
      have hpoplen : (before ++ behind).length + 1 = s.path.hold.length := by
        rw [List.length_append]
        exact hsplit
      have hpop : Keeps n k s { s with path := { s.path with hold := before ++ behind } } := keeps_hold s _ (by omega)
      have hsound := examineFrom2_sound { s with path := { s.path with hold := before ++ behind } } h.txn
      have hres := fun n => keeps_resolve (n := n) (k := k) { s with path := { s.path with hold := before ++ behind } } h.txn hsound
      have hlen := (hres 0).stores.hold
      refine hpop.trans ((hres n).trans ?_)
      unfold State.putHold
      split
      · exact .refl _
      · refine keeps_hold _ _ ?_
        simp only [List.length_append, List.length_cons, List.length_take, List.length_drop]
        simp only [List.length_append] at hlen hpoplen
        omega
    · exact .refl s

/-! ## Returns and answers (R23, R24) -/

theorem issuedRead?_frame {s t : State} (h : Frame s t) (i : Fin 32) : t.issuedRead? i = s.issuedRead? i := by
  simp only [State.issuedRead?, h.down, h.reads]

theorem keeps_returnRead {n : Nat} {k : Option Bool} (s : State) {i : Fin 32} {r : ReadSlot} (okay : Bool) (lines : List Line)
    (hr : s.issuedRead? i = some r) : Keeps n k s (s.returnRead i r okay lines) := by
  have hmeter : Frame s (if okay then s.meterReturn r (upstreamLines r.view (s.keyOf r.job) r.addr lines) else s.meterLost r) :=
    Frame.ite (frame_meterReturn s r _) (frame_settleMarks s _ _)
  unfold State.returnRead
  simp only [State.releaseSlot_eq]
  exact hmeter.keeps.trans ((keeps_readFreed _ ((issuedRead?_frame hmeter i).trans hr)).trans (frame_give _ _).keeps)

theorem keeps_completeRead {n : Nat} {k : Option Bool} (s : State) (ref : DnRef) (okay : Bool) (lines : List Line) :
    Keeps n k s (s.completeRead ref okay lines) := by
  unfold State.completeRead
  split
  · exact keeps_dropOrphan s _ _
  · split
    · next r hr =>
      split
      · exact .refl s
      · exact keeps_returnRead s okay lines hr
    · exact .refl s

theorem frame_rings (s : State) (g : Option Rings) (w : Option (BitVec 16 × BitVec 16)) (p : Path) (hr : p.reads = s.path.reads)
    (hw : p.writes = s.path.writes) (hh : p.hold = s.path.hold) (hc : p.capture = s.path.capture)
    (hn : p.captureCount = s.path.captureCount) :
    Frame s { s with path := p, rci := { s.rci with rings := g, indexWritten := w } } := { Frame.refl s with
  reads := hr
  writes := hw
  hold := Nat.le_of_eq (congrArg List.length hh)
  capture h := by
    simp only [Path.captureLaw, hc, hn]
    exact h }

theorem frame_anchoring (s : State) : Frame s s.anchoring := { Frame.refl s with
  startup _ := rfl }

theorem frame_takeAnchor (s : State) (a : Anchor) : Frame s (s.takeAnchor a) := by
  unfold State.takeAnchor
  simp only
  refine Frame.ite (Frame.trans ?_ (frame_anchoring _)) ?_
  · exact frame_rings s _ _ _ rfl rfl rfl rfl rfl
  · exact frame_rings s _ _ _ rfl rfl rfl rfl rfl

theorem frame_offerAnchor (s : State) (a : Addr) (ls : List WriteLine) : Frame s (s.offerAnchor a ls) := by
  unfold State.offerAnchor
  split
  · split
    · split
      · exact frame_takeAnchor s _
      · exact .refl s
    · exact .refl s
  · exact .refl s

theorem frame_takeIndex (s : State) (l : WriteLine) : Frame s (s.takeIndex l) := by
  unfold State.takeIndex
  split
  · simp only
    have hrings := fun g => frame_rings s g s.rci.indexWritten s.path rfl rfl rfl rfl rfl
    exact Frame.ite (hrings _) ((hrings _).trans (frame_hand _ _ _))
  · exact .refl s

theorem frame_handIndex (s : State) (w : WriteSlot) : Frame s (s.handIndex w) := by
  unfold State.handIndex
  split
  · split
    · exact frame_takeIndex s _
    · exact .refl s
  · exact .refl s

theorem keeps_answerWrite {n : Nat} {k : Option Bool} (s : State) {i : Fin 32} {w : WriteSlot} (okay : Bool)
    (hw : s.issuedWrite? i = some w) : Keeps n k s (s.answerWrite i w okay) := by
  unfold State.answerWrite
  simp only [State.releaseSlot_eq]
  have hfreed := (keeps_writeFreed (n := n) (k := k) s hw).trans (frame_give _ (.response w.id .write okay [])).keeps
  split
  · exact hfreed.trans ((frame_handIndex _ w).trans (frame_offerAnchor _ _ _)).keeps
  · exact hfreed

theorem keeps_completeWriteAt {n : Nat} {k : Option Bool} (s : State) (ref : DnRef) (okay : Bool) :
    Keeps n k s (s.completeWriteAt ref okay) := by
  unfold State.completeWriteAt
  split
  · exact keeps_dropOrphan s _ _
  · split
    · next w hw => exact keeps_answerWrite s okay hw
    · exact .refl s

end Sys2Proof.Machine
end

