-- ==== Sys2Proof/Proofs/CommandKeeps.lean ====
section
/-!
Ring commands keep the laws of O5 and O7 while they run: a job is opened, released and closed, and the marking register and the Marking
Stack change.
-/

namespace Sys2Proof.Machine

/-- A ring command may run: no command is in hand, and the part is ANCHORED and RUNNING, as far as `k` asks. -/
def Runs (k : Option Bool) (s : State) : Prop := ∀ h ∈ k, h = false ∧ s.rci.startup = .anchored ∧ s.rci.standby = .running

theorem Runs.of_frame {k : Option Bool} {s t : State} (h : Runs k s) (f : Frame s t) : Runs k t := fun a ha =>
  ⟨(h a ha).1, f.startup (h a ha).2.1, f.standby (h a ha).2.2⟩

/-! ## Regions, capture and wipes -/

theorem frame_regionSet (s : State) (p : RegionSetParams) : Frame s (s.regionSet p).2 := by
  unfold State.regionSet
  split
  · exact .refl s
  · split
    · split
      · exact frame_setRegions s _ rfl
      · exact .refl s
    · exact .refl s

theorem frame_regionClear (s : State) (index : Nat) : Frame s (s.regionClear index).2 := by
  unfold State.regionClear
  split
  · exact .refl s
  · split
    · exact frame_setRegions s _ rfl
    · exact .refl s

theorem frame_regionsCommit (s : State) (tag : BitVec 16) : Frame s (s.regionsCommit tag).2 := by
  unfold State.regionsCommit
  split
  · exact .refl s
  · split
    · exact .refl s
    · exact { Frame.refl s with }

theorem frame_clearCapture (s : State) : Frame s s.clearCapture := { Frame.refl s with
  capture _ := ⟨(nomatch ·), Nat.zero_le _⟩ }

theorem frame_wipeRange (s : State) (tag : BitVec 16) (p : WipeRangeParams) : Frame s (s.wipeRange tag p).2 := by
  unfold State.wipeRange
  split
  · exact .refl s
  · split
    · exact .refl s
    · split
      · exact .refl s
      · split
        · exact .refl s
        · split
          · exact .refl s
          · next hlen =>
            exact { Frame.refl s with
              wipes := fun _ => by
                simp only [Wpe.join, List.length_append, List.length_cons, List.length_nil]
                omega
              pattern := Wpe.join_pattern _ _ _ _ _ _ }

/-! ## Admin commands -/

theorem frame_admin (s : State) (pin : Word8) {body : State → Answer} (h : ∀ t, Frame t (body t).2) :
    Frame s (s.admin pin body).2 := by
  have hc := frame_credential s pin
  unfold State.admin
  split
  · next t v e =>
    rw [e] at hc
    exact hc
  · next t e =>
    rw [e] at hc
    exact hc.trans (h t)

theorem frame_classSetBody (p : ClassSetParams) (s : State) : Frame s (State.classSetBody p s).2 := by
  unfold State.classSetBody
  split
  · split
    · exact .refl s
    · split
      · exact .refl s
      · exact frame_ace (Ace.put_bounded _ rfl)
  · exact .refl s

theorem frame_tariffSetBody (t : Tariff) (s : State) : Frame s (State.tariffSetBody t s).2 := by
  unfold State.tariffSetBody
  split
  · exact .refl s
  · split
    · exact .refl s
    · exact frame_ace (Ace.put_bounded _ rfl)

theorem frame_userSetBody (p : UserSetParams) (s : State) : Frame s (State.userSetBody p s).2 := by
  unfold State.userSetBody
  split
  · exact .refl s
  · split
    · exact .refl s
    · split
      · exact .refl s
      · exact frame_ace (Ace.put_bounded _ rfl)

theorem frame_adjustBalance (s : State) (u : Fin 256) (amount : Int) : Frame s (s.adjustBalance u amount).2 := by
  unfold State.adjustBalance
  simp only
  split
  · exact .refl s
  · exact frame_ace (Ace.put_bounded _ rfl)

theorem frame_userAdjustBody (user : Nat) (amount : Int) (s : State) : Frame s (State.userAdjustBody user amount s).2 := by
  unfold State.userAdjustBody
  split
  · exact .refl s
  · split
    · exact .refl s
    · split
      · exact .refl s
      · exact .refl s
      · exact frame_adjustBalance s _ _
      · exact frame_adjustBalance s _ _

theorem frame_userQueryBody (user : Nat) (s : State) : Frame s (State.userQueryBody user s).2 := by
  unfold State.userQueryBody
  split
  · exact .refl s
  · exact .refl s

theorem frame_deptSetBody (dept : Nat) (allowance : Option Nat) (s : State) : Frame s (State.deptSetBody dept allowance s).2 := by
  unfold State.deptSetBody
  split
  · exact .refl s
  · split
    · exact .refl s
    · split
      · exact .refl s
      · exact frame_ace (Ace.put_bounded _ rfl)

theorem resetUsed_bounded (ds : List (Fin 16)) (a : Ace) (h : a.queue.length ≤ 16) :
    (ds.foldl Ace.resetUsed a).queue.length ≤ 16 := by
  induction ds generalizing a with
  | nil => exact h
  | cons d ds ih => exact ih _ (Ace.put_bounded _ rfl h)

theorem frame_periodResetBody (which : DeptChoice) (s : State) : Frame s (State.periodResetBody which s).2 := by
  unfold State.periodResetBody
  split
  · exact .refl s
  · exact frame_ace (resetUsed_bounded _ _)

theorem frame_servicePinSetBody (newPin : Word8) (s : State) : Frame s (State.servicePinSetBody newPin s).2 := by
  unfold State.servicePinSetBody
  split
  · exact .refl s
  · exact frame_ace (Ace.put_bounded _ rfl)

theorem frame_bayConfigBody (p : BayConfigParams) (s : State) : Frame s (State.bayConfigBody p s).2 := by
  unfold State.bayConfigBody
  split
  · exact frame_ace (Ace.put_bounded _ rfl)
  · exact .refl s

theorem frame_bayQuery (s : State) (bay : Nat) : Frame s (s.bayQuery bay).2 := by
  unfold State.bayQuery
  split
  · exact .refl s
  · exact .refl s

/-! ## Opening, releasing and closing jobs (R45 to R51) -/

theorem slot_bindable (p : JobOpenOk) (nonce : BitVec 32) : (p.slot nonce).state.bindable = true := by
  unfold JobOpenOk.slot
  cases p.hold <;> rfl

theorem keeps_openSlot {n : Nat} {k : Option Bool} (s : State) (p : JobOpenOk) : Keeps n k s (s.openSlot p).2 := by
  unfold State.openSlot
  split
  · exact .refl s
  · split
    · exact .refl s
    · next j hj =>
      have hfree : (s.job j).state = .free := by simpa [State.job] using List.find?_some hj
      have hopen : Keeps n k s (s.modJob j fun _ => p.slot (s.jct.openCounter + 1)) := by
        refine keeps_modJob s j _ (fun h => ⟨?_, fun _ => .inl (by rw [hfree]; rfl)⟩) (fun c hc => by cases hc) fun _ _ _ =>
          .inl (slot_bindable p _)
        exact ((h.1 j).2 (by rw [hfree]; rfl)).symm
      have hrest : ∀ t : State, Frame t { t with
          jct := { t.jct with openCounter := s.jct.openCounter + 1 }
          keys := s.keys.set j (some (Config.randomKey s.draws)), draws := t.draws + 1 } := fun t => { Frame.refl t with }
      exact hopen.trans (hrest _).keeps

theorem keeps_jobOpen {n : Nat} {k : Option Bool} (s : State) (p : JobOpenParams) : Keeps n k s (s.jobOpen p).2 := by
  unfold State.jobOpen
  split
  · exact .refl s
  · split
    · exact .refl s
    · split
      · exact keeps_openSlot s _
      · split
        · exact (frame_pinChecked s _ _).keeps.trans (keeps_openSlot _ _)
        · exact (frame_pinChecked s _ _).keeps

theorem keeps_jobRelease {n : Nat} {k : Option Bool} (s : State) (job : Nat) (pin : Word8) :
    Keeps n k s (s.jobRelease job pin).2 := by
  unfold State.jobRelease
  split
  · exact .refl s
  · split
    · exact .refl s
    · split
      · split
        · exact .refl s
        · split
          · exact (frame_pinChecked s _ _).keeps
          · simp only
            split
            · exact (frame_pinChecked s _ _).keeps
            · exact (frame_pinChecked s _ _).keeps.trans (keeps_bindable _ _ .opened rfl)
      · exact .refl s

theorem upd_upd {α : Type} {n : Nat} (v : Vector α n) (i : Fin n) (f g : α → α) : upd (upd v i f) i g = upd v i (g ∘ f) :=
  vector_ext fun k => by
    rw [upd_get, upd_get, upd_get]
    by_cases h : k = i <;> simp [h]

/-- The marking job goes to CLOSING and its context becomes its own (R51, R57, R61). -/
theorem keeps_unmark {n : Nat} {k : Option Bool} (s : State) {m : Marked} (hm : s.jct.marking = some m) (f : JobSlot → JobSlot)
    (hrefs : (f (s.job m.job)).refs = (s.job m.job).refs) (hstate : (f (s.job m.job)).state = .closing)
    (hown : ∀ c ∈ (f (s.job m.job)).own, c.Within m.ctx) :
    Keeps n k s (({ s with jct := { s.jct with marking := none } } : State).modJob m.job f) := by
  have hwithin : (({ s with jct := { s.jct with marking := none } } : State).modJob m.job f).jct.Within s.jct :=
    .of_mem fun x hx => by
      rcases (Jobs.mem_contexts_iff _ x).1 hx with h | h | ⟨i, c, hc, rfl⟩
      · cases h
      · exact ⟨x, (Jobs.mem_contexts_iff _ x).2 (.inr (.inl h)), .refl _⟩
      · have hc' : c ∈ ((({ s with jct := { s.jct with marking := none } } : State).modJob m.job f).job i).own := hc
        rw [State.modJob_job] at hc'
        split at hc'
        · next e =>
          subst e
          exact ⟨m, (Jobs.mem_contexts_iff _ m).2 (.inl hm), hown c hc'⟩
        · exact ⟨⟨i, c⟩, (Jobs.mem_contexts_iff _ _).2 (.inr (.inr ⟨i, c, hc', rfl⟩)), .refl _⟩
  have hlists : (s.jct.marking.toList ++ s.jct.stack).map Marked.job = m.job :: s.jct.stack.map Marked.job := by
    simp [hm]
  refine ⟨.of_jobs rfl rfl rfl rfl fun _ i => ?_, { KeepsStores.refl n s with },
    ⟨fun h => ?_, hwithin.queueLaw, hwithin.namesLaw (Nat.le_refl _), fun h _ hlaw => ?_, fun _ => rfl⟩⟩
  · rw [State.modJob_job]
    split
    · next e =>
      subst e
      refine ⟨hrefs, fun hl => ?_⟩
      have hl' : (f (s.job m.job)).state.live = false := hl
      rw [hstate] at hl'
      cases hl'
    · exact ⟨rfl, .inl⟩
  · refine ⟨h.1, ?_⟩
    have hn := h.2
    rw [hlists] at hn
    exact (List.nodup_cons.1 hn).2
  · obtain ⟨hs, ⟨hfetch, hin, hout⟩, -, hst⟩ := hlaw
    have hn := hs.2
    rw [hlists] at hn
    obtain ⟨hnot, hnodup⟩ := List.nodup_cons.1 hn
    refine ⟨⟨hs.1, hnodup⟩, ⟨hfetch, hin, fun x => ⟨rfl, (hout x).2⟩⟩, fun x hx => ?_, fun x hx => ?_⟩
    · cases hx
    · have hne : x.job ≠ m.job := fun e => hnot (e ▸ List.mem_map_of_mem hx)
      rw [State.modJob_job, if_neg hne]
      exact hst x hx

/-- A job that does not mark goes to CLOSING; a stacked one takes close pending. -/
theorem keeps_closing {n : Nat} {k : Option Bool} (s : State) (j : Fin 16) (tag : BitVec 16)
    (hm : s.jct.isMarking j = false) : Keeps n k s (if s.jct.isStacked j = true
      then (s.modJob j fun q => { q with state := .closing, closeTag := tag }).modJob j fun q => { q with closePending := true }
      else s.modJob j fun q => { q with state := .closing, closeTag := tag }) := by
  have hmark := (isMarking_eq_false _ _).1 hm
  split
  · have heq : (s.modJob j fun q => { q with state := .closing, closeTag := tag }).modJob j (fun q => { q with closePending := true })
        = s.modJob j fun q => { q with state := .closing, closeTag := tag, closePending := true } := by
      simp only [State.modJob, upd_upd]
      rfl
    rw [heq]
    exact keeps_modJob s j _ (fun _ => ⟨rfl, fun hl => by cases hl⟩) (fun c hc => hc)
      fun _ _ _ => .inr ⟨hmark, fun _ _ _ => ⟨rfl, rfl⟩⟩
  · next hst =>
    have hnot := (isStacked_eq_false _ _).1 (Bool.not_eq_true _ ▸ hst)
    exact keeps_modJob s j _ (fun _ => ⟨rfl, fun hl => by cases hl⟩) (fun c hc => hc)
      fun _ _ _ => .inr ⟨hmark, fun m hmem e => absurd e (hnot m hmem)⟩

theorem closeJob_marking (s : State) {m : Marked} (tag : BitVec 16) (hm : s.jct.marking = some m) : s.closeJob m.job tag =
    (({ s with jct := { s.jct with marking := none } } : State).modJob m.job fun q =>
      { q with state := .closing, closeTag := tag, own := some m.ctx.forceCloseAll }).releaseAssembly [m.job] := by
  unfold State.closeJob
  simp only [State.modJob_marking, hm, if_true]
  simp only [State.ownContext, State.modJob, upd_upd]
  rfl

theorem closeJob_other (s : State) (j : Fin 16) (tag : BitVec 16) (hm : s.jct.isMarking j = false) : s.closeJob j tag =
    if s.jct.isStacked j = true
      then (s.modJob j fun q => { q with state := .closing, closeTag := tag }).modJob j fun q => { q with closePending := true }
      else s.modJob j fun q => { q with state := .closing, closeTag := tag } := by
  have hst : (s.modJob j fun q => { q with state := .closing, closeTag := tag }).jct.isStacked j = s.jct.isStacked j := rfl
  unfold State.closeJob
  simp only [State.modJob_marking, hst]
  cases h : s.jct.marking with
  | none => rfl
  | some m =>
    have hne : m.job ≠ j := (isMarking_eq_false _ _).1 hm m h
    simp only [hne, if_false]

theorem keeps_closeJob {n : Nat} {k : Option Bool} (s : State) (j : Fin 16) (tag : BitVec 16) : Keeps n k s (s.closeJob j tag) := by
  by_cases hmark : s.jct.isMarking j = true
  · obtain ⟨m, hm, rfl⟩ : ∃ m, s.jct.marking = some m ∧ m.job = j := by
      cases h : s.jct.marking with
      | none => simp [Jobs.isMarking, h] at hmark
      | some m => exact ⟨m, rfl, by simpa [Jobs.isMarking, h] using hmark⟩
    rw [closeJob_marking s tag hm]
    refine (keeps_unmark s hm _ rfl rfl fun c hc => ?_).trans (frame_releaseAssembly _ _).keeps
    cases hc
    exact m.ctx.forceCloseAll_within
  · have hm : s.jct.isMarking j = false := by simpa using hmark
    rw [closeJob_other s j tag hm]
    exact keeps_closing s j tag hm

theorem keeps_jobClose {n : Nat} {k : Option Bool} (s : State) (job : Nat) (tag : BitVec 16) :
    Keeps n k s (s.jobClose job tag).2 := by
  unfold State.jobClose
  split
  · exact .refl s
  · split
    · exact keeps_closeJob s _ tag
    · exact .refl s

/-! ## The marking register and the stack (R58 to R60) -/

/-- The marking register and the stack change; each context in them stood there before, or holds no record. -/
theorem keeps_registers {n : Nat} {k : Option Bool} (s : State) (mk : Option Marked) (st : List Marked)
    (hctx : ∀ m, m ∈ mk ∨ m ∈ st → m.ctx.queue = [] ∨ m ∈ s.jct.marking ∨ m ∈ s.jct.stack)
    (hstack : s.jct.stackLaw → ({ s.jct with marking := mk, stack := st } : Jobs).stackLaw)
    (hout : ∀ h ∈ k, s.markingLawAs h → s.rci.startup ≠ .anchored ∨ s.rci.standby ≠ .running → mk = none ∧ st = [])
    (hmark : ∀ h ∈ k, s.markingLawAs h → ∀ m ∈ mk, (s.job m.job).state.bindable = true)
    (hst : ∀ h ∈ k, s.markingLawAs h → ∀ m ∈ st, (s.job m.job).state.bindable = true
      ∨ ((s.job m.job).state = .closing ∧ (s.job m.job).closePending = true)) :
    Keeps n k s { s with jct := { s.jct with marking := mk, stack := st } } := by
  have hwithin : ({ s.jct with marking := mk, stack := st } : Jobs).Within s.jct := fun x hx => by
    have hold : x.ctx.queue = [] ∨ x ∈ s.jct.contexts := by
      rcases (Jobs.mem_contexts_iff _ x).1 hx with h | h | h
      · exact (hctx x (.inl h)).imp_right fun h => (Jobs.mem_contexts_iff _ x).2 (h.imp_right .inl)
      · exact (hctx x (.inr h)).imp_right fun h => (Jobs.mem_contexts_iff _ x).2 (h.imp_right .inl)
      · exact .inr ((Jobs.mem_contexts_iff _ x).2 (.inr (.inr h)))
    exact hold.imp_right fun h => ⟨x, h, .refl _⟩
  exact ⟨.of_jobs rfl rfl rfl rfl fun _ _ => ⟨rfl, .inl⟩, { KeepsStores.refl n s with },
    ⟨hstack, hwithin.queueLaw, hwithin.namesLaw (Nat.le_refl _),
    fun h hk hlaw => ⟨hstack hlaw.1, ⟨hlaw.2.1.1, hlaw.2.1.2.1, hout h hk hlaw⟩, hmark h hk hlaw, hst h hk hlaw⟩, fun _ => rfl⟩⟩

theorem frame_marked (s : State) (j : Fin 16) : Frame s (s.modJob j fun q => { q with marked := true }) :=
  frame_modJob s j _ (fun _ => rfl) (fun _ => rfl) (fun _ => rfl) fun _ => rfl

/-- An OPEN job that is not stacked takes the marking register. -/
theorem keeps_mark {n : Nat} {k : Option Bool} (s : State) (j : Fin 16) (hr : Runs k s) (ho : (s.job j).state = .opened)
    (hst : s.jct.isStacked j = false) : Keeps n k s (s.mark j) := by
  refine (keeps_registers s (some ⟨j, .fresh⟩) s.jct.stack ?_ ?_ ?_ ?_ ?_).trans (frame_marked _ j).keeps
  · rintro m (h | h)
    · cases h
      exact .inl rfl
    · exact .inr (.inr h)
  · rintro ⟨hlen, hn⟩
    refine ⟨hlen, List.nodup_cons.2 ⟨fun hmem => ?_, ?_⟩⟩
    · obtain ⟨m, hm, e⟩ := List.mem_map.1 hmem
      exact (isStacked_eq_false _ _).1 hst m hm e
    · rw [List.map_append] at hn
      exact (List.nodup_append.1 hn).2.1
  · intro h hk _ hout
    obtain ⟨-, hup, hrun⟩ := hr h hk
    exact absurd hout (by simp [hup, hrun])
  · rintro h hk - m hm
    cases hm
    rw [ho]
    rfl
  · exact fun h _ hlaw => hlaw.2.2.2

/-- The marking job is stacked, and an OPEN job that neither marks nor is stacked takes the register. -/
theorem keeps_interrupt {n : Nat} {k : Option Bool} (s : State) (j : Fin 16) {m : Marked} (hr : Runs k s)
    (ho : (s.job j).state = .opened) (hm : s.jct.marking = some m) (hmj : s.jct.isMarking j = false)
    (hst : s.jct.isStacked j = false) (hlen : s.jct.stack.length < 4) :
    Keeps n k s (({ s with jct := { s.jct with stack := m :: s.jct.stack } } : State).mark j) := by
  refine (keeps_registers s (some ⟨j, .fresh⟩) (m :: s.jct.stack) ?_ ?_ ?_ ?_ ?_).trans (frame_marked _ j).keeps
  · rintro x (h | h)
    · cases h
      exact .inl rfl
    · rcases List.mem_cons.1 h with rfl | h
      · exact .inr (.inl hm)
      · exact .inr (.inr h)
  · rintro ⟨-, hn⟩
    rw [hm] at hn
    refine ⟨hlen, List.nodup_cons.2 ⟨fun hmem => ?_, hn⟩⟩
    obtain ⟨x, hx, e⟩ := List.mem_map.1 hmem
    rcases List.mem_cons.1 hx with rfl | hx
    · exact (isMarking_eq_false _ _).1 hmj x hm e
    · exact (isStacked_eq_false _ _).1 hst x hx e
  · intro h hk _ hout
    obtain ⟨-, hup, hrun⟩ := hr h hk
    exact absurd hout (by simp [hup, hrun])
  · rintro h hk - x hx
    cases hx
    rw [ho]
    rfl
  · intro h _ hlaw x hx
    rcases List.mem_cons.1 hx with rfl | hx
    · exact .inl (hlaw.2.2.1 x hm)
    · exact hlaw.2.2.2 x hx

theorem frame_releaseMarking (s : State) : Frame s s.releaseMarking := frame_releaseAssembly s _

theorem keeps_markSelect {n : Nat} {k : Option Bool} (s : State) (job : Nat) (hr : Runs k s) : Keeps n k s (s.markSelect job).2 := by
  unfold State.markSelect
  split
  · exact .refl s
  · next j _ =>
    split
    · exact .refl s
    · next h =>
      simp only [not_or, not_not, Bool.not_eq_true] at h
      split
      · exact .refl s
      · exact (frame_releaseMarking s).keeps.trans
          (keeps_mark _ j (hr.of_frame (frame_releaseMarking s)) h.1 h.2)

theorem keeps_markInterrupt {n : Nat} {k : Option Bool} (s : State) (job : Nat) (hr : Runs k s) :
    Keeps n k s (s.markInterrupt job).2 := by
  unfold State.markInterrupt
  split
  · exact .refl s
  · next j _ =>
    split
    · exact .refl s
    · next h =>
      simp only [not_or, not_not, Bool.not_eq_true] at h
      obtain ⟨ho, hmj, hst⟩ := h
      split
      · exact keeps_mark s j hr ho hst
      · next m hm =>
        split
        · exact .refl s
        · next hlen =>
          exact (frame_releaseMarking s).keeps.trans
            (keeps_interrupt s.releaseMarking j (hr.of_frame (frame_releaseMarking s)) ho hm hmj hst (Nat.lt_of_not_le hlen))

/-- A context of the part becomes its job's own context, all its records force-closed (R57, R60). -/
theorem frame_ownContext (s : State) (m : Marked) (hm : m ∈ s.jct.contexts) : Frame s (s.ownContext m) := by
  refine Frame.trans ?_ (frame_releaseAssembly _ _)
  have hsame : ∀ i, ((s.modJob m.job fun q => { q with own := some m.ctx.forceCloseAll }).job i).refs = (s.job i).refs
      ∧ ((s.modJob m.job fun q => { q with own := some m.ctx.forceCloseAll }).job i).state = (s.job i).state
      ∧ ((s.modJob m.job fun q => { q with own := some m.ctx.forceCloseAll }).job i).closePending = (s.job i).closePending :=
    fun i => by
      rw [State.modJob_job]
      split
      · exact ⟨rfl, rfl, rfl⟩
      · exact ⟨rfl, rfl, rfl⟩
  exact { Frame.refl s with
    refs := fun i => (hsame i).1
    states := fun i => (hsame i).2.1
    pending := fun i => (hsame i).2.2
    contexts := .of_mem fun x hx => by
      rcases (Jobs.mem_contexts_iff _ x).1 hx with h | h | ⟨i, c, hc, rfl⟩
      · exact ⟨x, (Jobs.mem_contexts_iff _ x).2 (.inl h), .refl _⟩
      · exact ⟨x, (Jobs.mem_contexts_iff _ x).2 (.inr (.inl h)), .refl _⟩
      · have hc' : c ∈ ((s.modJob m.job fun q => { q with own := some m.ctx.forceCloseAll }).job i).own := hc
        rw [State.modJob_job] at hc'
        split at hc'
        · cases hc'
          exact ⟨m, hm, m.ctx.forceCloseAll_within⟩
        · exact ⟨⟨i, c⟩, (Jobs.mem_contexts_iff _ _).2 (.inr (.inr ⟨i, c, hc', rfl⟩)), .refl _⟩ }

/-- The law of the stack of a part that keeps the lower end of its stack and takes at most the entry above it as marking job. -/
theorem stackLaw_suffix {j : Jobs} {pre l : List Marked} {mk : Option Marked} (hs : j.stack = pre ++ mk.toList ++ l)
    (h : j.stackLaw) : ({ j with marking := mk, stack := l } : Jobs).stackLaw := by
  obtain ⟨hlen, hn⟩ := h
  rw [hs] at hlen hn
  refine ⟨?_, ?_⟩
  · simp only [List.length_append] at hlen
    show l.length ≤ 4
    omega
  · rw [List.append_assoc, List.map_append, List.map_append] at hn
    exact (List.nodup_append.1 (List.nodup_append.1 hn).2.1).2.1

/-- The pops of MARK_RESUME: the stack is popped down to a job that marks again, or to nothing. -/
theorem keeps_popStack {n : Nat} {k : Option Bool} (l : List Marked) (s : State) (pre : List Marked) (c : Nat)
    (hs : s.jct.stack = pre ++ l) : Keeps n k s (s.popStack l c).1 := by
  induction l generalizing s pre c with
  | nil =>
    refine keeps_registers s none [] (by simp) (fun _ => ⟨Nat.zero_le _, List.nodup_nil⟩) (fun _ _ _ _ => ⟨rfl, rfl⟩) ?_ ?_
    · simp
    · simp
  | cons m rest ih =>
    have hmem : ∀ x ∈ m :: rest, x ∈ s.jct.stack := fun x hx => hs ▸ List.mem_append_right pre hx
    unfold State.popStack
    split
    · have hframe := frame_ownContext s m ((s.jct.mem_contexts_iff m).2 (.inr (.inl (hmem m (by simp)))))
      refine hframe.keeps.trans (ih (s.ownContext m) (pre ++ [m]) (c + 1) ?_)
      show s.jct.stack = _
      rw [hs, List.append_assoc]
      rfl
    · next hp =>
      refine keeps_registers s (some m) rest ?_ (stackLaw_suffix (pre := pre) (by rw [hs]; simp)) ?_ ?_ ?_
      · rintro x (h | h)
        · cases h
          exact .inr (.inr (hmem m (by simp)))
        · exact .inr (.inr (hmem x (List.mem_cons_of_mem m h)))
      · intro h _ hlaw hout
        have := (hlaw.2.1.2.2 hout).2
        simp [hs] at this
      · rintro h - hlaw x hx
        cases hx
        exact (hlaw.2.2.2 m (hmem m (by simp))).elim (fun hb => hb) fun hc => absurd hc.2 hp
      · exact fun h _ hlaw x hx => hlaw.2.2.2 x (hmem x (List.mem_cons_of_mem m hx))

theorem keeps_markResume {n : Nat} {k : Option Bool} (s : State) : Keeps n k s s.markResume.2 := by
  unfold State.markResume
  split
  · exact .refl s
  · split
    · exact .refl s
    · exact (frame_releaseMarking s).keeps.trans (keeps_popStack s.jct.stack s.releaseMarking [] 0 rfl)

/-! ## STANDBY_ENTER (R176) -/

theorem keeps_standbyEnter {n : Nat} {k : Option Bool} (s : State) (mode : Nat) (tag : BitVec 16) (hr : Runs k s) :
    Keeps n k s (s.standbyEnter mode tag).2 := by
  unfold State.standbyEnter
  split
  · exact .refl s
  · next m _ =>
    split
    · exact .refl s
    · next hbusy =>
      split
      · exact .refl s
      · simp only [Bool.or_eq_true, not_or, Bool.not_eq_true, Option.isSome_eq_false_iff, Option.isNone_iff_eq_none,
          Bool.not_eq_false', List.isEmpty_iff] at hbusy
        refine ⟨.of_jobs rfl rfl rfl rfl fun _ _ => ⟨rfl, .inl⟩, { KeepsStores.refl n s with },
          ⟨fun h => h, fun h => h, fun h => h, fun h hk hlaw => ?_,
          fun _ => rfl⟩⟩
        obtain ⟨hs, ⟨hfetch, -, -⟩, hm, hst⟩ := hlaw
        refine ⟨hs, ⟨hfetch, fun e => ?_, fun _ => hbusy⟩, hm, hst⟩
        rw [(hr h hk).1] at e
        cases e

/-! ## Every ring command -/

theorem keeps_report {n : Nat} {k : Option Bool} {s : State} (kind tag : BitVec 16) {a : Answer} (h : Keeps n k s a.2) :
    Keeps n k s (report kind tag a) := h.trans (frame_handHeld _ _ _).keeps

theorem keeps_runCommand {n : Nat} {k : Option Bool} (c : Instr) (s : State) (hr : Runs k s) : Keeps n k s (runCommand c s) := by
  cases c with
  | regionSet tag p => exact keeps_report _ _ (frame_regionSet s p).keeps
  | regionClear tag i => exact keeps_report _ _ (frame_regionClear s i).keeps
  | regionsCommit tag => exact keeps_report _ _ (frame_regionsCommit s tag).keeps
  | captureClear tag => exact keeps_report _ _ (frame_clearCapture s).keeps
  | jobOpen tag p => exact keeps_report _ _ (keeps_jobOpen s p)
  | jobRelease tag j pin => exact keeps_report _ _ (keeps_jobRelease s j pin)
  | jobClose tag j => exact keeps_report _ _ (keeps_jobClose s j tag)
  | jobQuery tag j => exact keeps_report _ _ (.refl s)
  | markSelect tag j => exact keeps_report _ _ (keeps_markSelect s j hr)
  | markInterrupt tag j => exact keeps_report _ _ (keeps_markInterrupt s j hr)
  | markResume tag => exact keeps_report _ _ (keeps_markResume s)
  | classSet tag p => exact keeps_report _ _ (frame_admin s p.pin (frame_classSetBody p)).keeps
  | tariffSet tag p => exact keeps_report _ _ (frame_admin s p.pin (frame_tariffSetBody _)).keeps
  | userSet tag p => exact keeps_report _ _ (frame_admin s p.servicePin (frame_userSetBody p)).keeps
  | userAdjust tag pin u a => exact keeps_report _ _ (frame_admin s pin (frame_userAdjustBody u a)).keeps
  | userQuery tag pin u => exact keeps_report _ _ (frame_admin s pin (frame_userQueryBody u)).keeps
  | deptSet tag pin d a => exact keeps_report _ _ (frame_admin s pin (frame_deptSetBody d a)).keeps
  | periodReset tag pin w => exact keeps_report _ _ (frame_admin s pin (frame_periodResetBody w)).keeps
  | meterQuery tag pin => exact keeps_report _ _ (frame_admin s pin fun t => .refl t).keeps
  | servicePinSet tag pin x => exact keeps_report _ _ (frame_admin s pin (frame_servicePinSetBody x)).keeps
  | bayQuery tag b => exact keeps_report _ _ (frame_bayQuery s b).keeps
  | bayConfig tag p => exact keeps_report _ _ (frame_admin s p.pin (frame_bayConfigBody p)).keeps
  | wipeRange tag p => exact keeps_report _ _ (frame_wipeRange s tag p).keeps
  | standbyEnter tag m => exact keeps_report _ _ (keeps_standbyEnter s m tag hr)
  | unknownKind tag x => exact keeps_report _ _ (.refl s)
  | _ => exact .refl s

/-- A ring command that stands alone runs only when none is in hand (R186). -/
theorem keeps_direct {n : Nat} {k : Option Bool} (s : State) (c : Instr) (hk : ∀ h ∈ k, h = s.rci.hand) :
    Keeps n k s (s.direct (runCommand c)) := by
  unfold State.direct
  split
  · next hready =>
    obtain ⟨hup, -, hrun, hhand, -⟩ := s.commandReady_iff.1 hready
    have hheld : Frame s { s with rci := { s.rci with held := true } } := frame_rci (fun e => e) (fun e => e) rfl rfl
    exact hheld.keeps.trans (keeps_runCommand c _ fun h hh => ⟨(hk h hh).trans hhand, hup, hrun⟩)
  · exact .refl s

end Sys2Proof.Machine
end

