-- ==== Sys2Proof/Proofs/RowKeeps.lean ====
section
/-!
The rows of the cartridge lines, of the Wipe Engine and of the Ring Interface keep the laws of O5 and O7.
-/

namespace Sys2Proof.Machine

/-! ## The cartridge lines (chapter 7) -/

theorem frame_modBay (s : State) (p : Fin 4) (f : Bay → Bay) : Frame s (s.modBay p f) := { Frame.refl s with }

theorem frame_modPlane (s : State) (p : Fin 4) (f : Figures → Figures) : Frame s (s.modPlane p f) := { Frame.refl s with }

theorem frame_endExchange (s : State) (p : Fin 4) : Frame s (s.endExchange p) := frame_modBay s p _

theorem frame_bayChanged (s : State) (r : BayReport) : Frame s (s.bayChanged r) := (sided_bayChanged r).frame s

theorem frame_attachTest (s : State) (p : Fin 4) : Frame s (s.attachTest p) := (sided_attachTest p).frame s

theorem frame_depart (s : State) (p : Fin 4) : Frame s (s.depart p).1 :=
  (Sided.depart (f := fun _ t => t) (fun _ => Sided.id) p).frame s

theorem frame_exchangeFailed (s : State) (p : Fin 4) (isDebit : Bool) : Frame s (s.exchangeFailed p isDebit) := by
  have hend := frame_endExchange s p
  unfold State.exchangeFailed
  simp only
  cases (s.bay p).state with
  | vacant => exact hend
  | settling => exact hend.trans ((frame_modBay _ p _).trans (frame_bayChanged _ _))
  | _ =>
    have hcount := hend.trans (frame_modBay _ p fun b => { b with failures := min 7 (b.failures + 1) })
    refine hcount.trans (Frame.ite ?_ (Frame.ite ((sided_roundFailed p).frame _) (.refl _)))
    exact (Frame.ite ((sided_evalLevel p).frame _) (.refl _)).trans ((frame_depart _ p).trans (frame_bayChanged _ _))

/-- A bay settles, with the attach test. -/
theorem frame_settling (s : State) (p : Fin 4) (f : Bay → Bay) : Frame s ((s.modBay p f).attachTest p) :=
  (frame_modBay s p f).trans (frame_attachTest _ p)

theorem frame_goodStatus (s : State) (p : Fin 4) (fr : List Byte) : Frame s (s.goodStatus p fr) := by
  unfold State.goodStatus
  simp only
  have hbegin := (frame_endExchange s p).trans (frame_modBay (s.endExchange p) p fun b =>
    { b with statusLevel := BitVec.ofNat 32 (frameField fr 3 4), statusFlags := byte (frameField fr 7 1) })
  refine hbegin.trans ?_
  generalize (s.endExchange p).modBay p _ = t
  cases (s.bay p).state with
  | vacant => exact (frame_settling t p _).trans (frame_bayChanged _ _)
  | settling => exact (frame_settling t p _).trans (frame_bayChanged _ _)
  | identifying => exact frame_modBay t p _
  | proving => exact frame_modBay t p _
  | _ =>
    refine Frame.ite (Frame.trans ?_ (frame_bayChanged _ _)) (frame_modBay t p _)
    exact (frame_depart t p).trans (frame_settling _ p _)

theorem frame_wrongBay (s : State) (p : Fin 4) (cause : BayCause) (serial : Word8) (colour : Byte) (cap : BitVec 32) :
    Frame s (s.wrongBay p cause serial colour cap) := (frame_modBay s p _).trans (frame_bayChanged _ _)

theorem frame_eraseDeparted (s : State) (f : Departed → Bool) :
    Frame s { s with ccu := { s.ccu with departed := s.ccu.departed.eraseP f } } := { Frame.refl s with
  departed h := Nat.le_trans (List.length_eraseP_le) h }

/-- A departed share returns to its plane, if there is one (R138). -/
theorem frame_shareBack (s : State) (p : Fin 4) (entry : Option Departed) : Frame s (match entry with
    | some e => s.modPlane p fun f => f.giveShare e.mg e.pg
    | none => s) := by
  cases entry with
  | none => exact .refl s
  | some e => exact frame_modPlane s p _

theorem frame_identified (s : State) (p : Fin 4) (serial : Word8) (colour : Byte) (cap : BitVec 32) :
    Frame s (s.identified p serial colour cap) := by
  refine Frame.trans ?_ (frame_bayChanged _ _)
  refine Frame.trans ?_ (frame_shareBack _ p (s.ccu.departedEntry? serial))
  exact (frame_modBay s p _).trans (frame_eraseDeparted _ _)

theorem frame_goodIdent (s : State) (p : Fin 4) (fr : List Byte) : Frame s (s.goodIdent p fr) := by
  unfold State.goodIdent
  simp only
  refine (frame_endExchange s p).trans (Frame.ite (Frame.ite (frame_wrongBay _ _ _ _ _ _) ?_) (frame_modBay _ p _))
  exact Frame.ite (frame_wrongBay _ _ _ _ _ _) (frame_identified _ _ _ _ _)

/-- The unconfirmed debit is confirmed, if there is one (R140). -/
theorem frame_confirmed (s : State) (p : Fin 4) (amount : Option Nat) : Frame s (match amount with
    | some a => s.confirm p a
    | none => s) := by
  cases amount with
  | none => exact .refl s
  | some a => exact (sided_confirm p a).frame s

theorem frame_proofGood (s : State) (p : Fin 4) (level : BitVec 32) (seq : BitVec 16) : Frame s (s.proofGood p level seq) := by
  refine Frame.trans ?_ (frame_bayChanged _ _)
  refine Frame.trans ?_ ((sided_proofView p _ _).frame _)
  refine Frame.trans ?_ (frame_confirmed _ p (((s.bay p).unconfirmed.filter fun u => u.seq == seq).map Unconfirmed.amount))
  exact frame_modBay s p _

theorem frame_proofBad (s : State) (p : Fin 4) (level : BitVec 32) : Frame s (s.proofBad p level) :=
  (frame_modBay s p _).trans (((sided_proofView p _ _).frame _).trans (frame_bayChanged _ _))

theorem frame_goodProve (s : State) (p : Fin 4) (nonce : Word8) (fr : List Byte) : Frame s (s.goodProve p nonce fr) := by
  unfold State.goodProve
  refine (frame_endExchange s p).trans ?_
  simp only
  split
  · exact Frame.ite (frame_proofGood _ _ _ _) (frame_proofBad _ _ _)
  · exact frame_modBay _ p _

theorem frame_goodDebit (s : State) (p : Fin 4) (fr : List Byte) : Frame s (s.goodDebit p fr) := by
  unfold State.goodDebit
  refine (frame_endExchange s p).trans ?_
  simp only
  split
  · refine Frame.ite ((frame_modBay _ p _).trans ((sided_roundGood p _).frame _)) ?_
    exact (frame_modBay _ p _).trans (((sided_roundTagBad p).frame _).trans (frame_bayChanged _ _))
  · exact frame_modBay _ p _

theorem frame_replyEnds (s : State) (k : Exch) (p : Fin 4) (fr : List Byte) : Frame s (s.replyEnds k p fr) := by
  unfold State.replyEnds
  split
  · exact .refl s
  · next e _ =>
    refine Frame.ite (.refl s) (Frame.ite ?_ (frame_exchangeFailed s p _))
    unfold State.goodReply
    cases e.kind with
    | status => exact frame_goodStatus s p fr
    | ident => exact frame_goodIdent s p fr
    | prove => exact frame_goodProve s p e.nonce fr
    | debit => exact frame_goodDebit s p fr

theorem frame_waitDue (s : State) (p : Fin 4) : Frame s (s.waitDue p) := by
  unfold State.waitDue
  split
  · exact .refl s
  · exact .refl s
  · exact frame_waitUntil s _ 200

theorem frame_sendFrame (s : State) (p : Fin 4) (k : Exch) (nonce : Word8) (payload : List Byte) :
    Frame s (s.sendFrame p k nonce payload) := (frame_modBay s p _).trans (frame_give _ _)

theorem frame_sendStatus (s : State) (p : Fin 4) : Frame s (s.sendStatus p) :=
  Frame.ite ((frame_waitDue s p).trans (frame_sendFrame _ _ _ _ _)) (.refl s)

theorem frame_sendIdent (s : State) (p : Fin 4) : Frame s (s.sendIdent p) :=
  Frame.ite ((frame_waitDue s p).trans (frame_sendFrame _ _ _ _ _)) (.refl s)

theorem frame_draw (s : State) : Frame s s.draw := { Frame.refl s with }

theorem frame_sendProve (s : State) (p : Fin 4) : Frame s (s.sendProve p) :=
  Frame.ite (((frame_waitDue s p).trans (frame_sendFrame _ _ _ _ _)).trans (frame_draw _)) (.refl s)

theorem frame_sendDebit (s : State) (p : Fin 4) : Frame s (s.sendDebit p) := by
  unfold State.sendDebit
  split
  · exact Frame.ite ((frame_modBay s p _).trans (frame_sendFrame _ _ _ _ _)) (.refl s)
  · exact .refl s

theorem frame_timeOut (s : State) (p : Fin 4) : Frame s (s.timeOut p) := by
  unfold State.timeOut
  split
  · exact (frame_waitUntil s _ 21).trans (frame_exchangeFailed _ p _)
  · exact .refl s

theorem frame_replyBegins (s : State) (p : Fin 4) : Frame s (s.replyBegins p) := by
  unfold State.replyBegins
  split
  · exact Frame.ite (.refl s) (frame_modBay s p _)
  · exact .refl s

/-! ## The Wipe Engine (sections 9.1 to 9.3) -/

/-- The generator after a transaction of 8 lines stands at the bit with which the line after them begins. -/
theorem prbsRun_lines (next : Nat) (seed : BitVec 23) :
    prbsRun 4096 (prbsRun (512 * next) seed) = prbsRun (512 * (next + 8)) seed := by
  rw [← prbsRun_add, Nat.mul_add]

theorem keeps_issueWipeWrite {n : Nat} {k : Option Bool} (s : State) : Keeps n k s s.issueWipeWrite := by
  unfold State.issueWipeWrite
  split
  · next e rest i hq hi =>
    split
    · next pass next out reg hp =>
      split
      · refine (keeps_handInternal s hi rfl).trans (frame_modHead _ _ fun x hx hlaw => ?_).keeps
        obtain rfl : e = x := by simpa [hq] using hx
        simp only [WipeEntry.patternLaw, hp] at hlaw ⊢
        rw [hlaw, prbsRun_lines]
      · exact .refl s
    · exact .refl s
  · exact .refl s

theorem keeps_issueVerifyRead {n : Nat} {k : Option Bool} (s : State) : Keeps n k s s.issueVerifyRead := by
  unfold State.issueVerifyRead
  split
  · next e rest i hq hi =>
    split
    · next next out reg hp =>
      split
      · refine (keeps_handInternal s hi rfl).trans (frame_modHead _ _ fun x hx hlaw => ?_).keeps
        obtain rfl : e = x := by simpa [hq] using hx
        simp only [WipeEntry.patternLaw, hp] at hlaw ⊢
        rw [hlaw, prbsRun_lines]
      · exact .refl s
    · exact .refl s
  · exact .refl s

theorem addMismatch_patternLaw {e : WipeEntry} (n : Nat) (h : e.patternLaw) : (e.addMismatch n).patternLaw := h

theorem oneDone_patternLaw {e : WipeEntry} (h : e.patternLaw) : e.oneDone.patternLaw := by
  cases hp : e.progress <;> simp only [WipeEntry.patternLaw, WipeEntry.oneDone, hp] at h ⊢ <;> exact h

theorem verifyStart_patternLaw (e : WipeEntry) : ({ e with progress := .verify 0 0 (prbsSeed e.base) } : WipeEntry).patternLaw := by
  simp [WipeEntry.patternLaw, prbsRun]

theorem advance_patternLaw {e : WipeEntry} (h : e.patternLaw) : e.advance.patternLaw := by
  unfold WipeEntry.advance
  split
  · split
    · exact h
    · split
      · exact passStart_patternLaw e _
      · split
        · exact verifyStart_patternLaw e
        · exact h
  · exact h

theorem keeps_answerWipeWrite {n : Nat} {k : Option Bool} (s : State) (i : Fin 8) (okay : Bool) :
    Keeps n k s (s.answerWipeWrite i okay) := by
  unfold State.answerWipeWrite
  split
  · next hx =>
    split
    · exact keeps_handAgain s hx rfl
    · refine (keeps_freeInternal s hx rfl).trans (frame_modHead _ _ fun e _ h => advance_patternLaw (oneDone_patternLaw ?_)).keeps
      cases okay
      · exact addMismatch_patternLaw 8 h
      · exact h
  · exact .refl s

theorem keeps_returnVerifyRead {n : Nat} {k : Option Bool} (s : State) (i : Fin 8) (okay : Bool) (lines : List Line) :
    Keeps n k s (s.returnVerifyRead i okay lines) := by
  unfold State.returnVerifyRead
  split
  · next hx =>
    split
    · exact .refl s
    · exact (keeps_freeInternal s hx rfl).trans (frame_modHead _ _ fun e _ h =>
        advance_patternLaw (oneDone_patternLaw (addMismatch_patternLaw _ h))).keeps
  · exact .refl s

/-! ## The Ring Interface (chapter 10) -/

/-- A change of RCI that leaves its states, its hand and its queue. -/
theorem frame_posting (s : State) (p : Option Posting) : Frame s { s with rci := { s.rci with posting := p } } :=
  frame_rci (fun h => h) (fun h => h) rfl rfl

theorem keeps_issueReportWrite {n : Nat} {k : Option Bool} (s : State) : Keeps n k s s.issueReportWrite := by
  unfold State.issueReportWrite
  split
  · next hi =>
    split
    · split
      · exact (keeps_handInternal s hi rfl).trans (frame_posting _ _).keeps
      · exact .refl s
    · exact .refl s
  · exact .refl s

theorem frame_slotDone (s : State) : Frame s { s with rci := s.rci.slotDone } := by
  unfold Rci.slotDone
  split
  · next hq =>
    split
    · exact { Frame.refl s with
        reports := fun h => by
          rw [hq] at h
          exact Nat.le_of_succ_le h }
    · exact frame_posting s _
  · exact .refl s

theorem keeps_answerReportWrite {n : Nat} {k : Option Bool} (s : State) (i : Fin 8) (okay : Bool) :
    Keeps n k s (s.answerReportWrite i okay) := by
  unfold State.answerReportWrite
  split
  · next hx =>
    have hfree : Keeps n k s { s with down := s.down.freeInternal i } := keeps_freeInternal s hx rfl
    split
    · exact hfree
    · split
      · exact hfree.trans (frame_slotDone _).keeps
      · split
        · exact hfree.trans ((frame_slotDone _).trans (frame_hand _ _ _)).keeps
        · exact keeps_handAgain s hx rfl
  · exact .refl s

theorem keeps_issueIndexWrite {n : Nat} {k : Option Bool} (s : State) : Keeps n k s s.issueIndexWrite := by
  unfold State.issueIndexWrite
  split
  · next hi =>
    split
    · exact keeps_handInternal s hi rfl
    · exact .refl s
  · exact .refl s

theorem keeps_answerIndexWrite {n : Nat} {k : Option Bool} (s : State) (i : Fin 8) (okay : Bool) :
    Keeps n k s (s.answerIndexWrite i okay) := by
  unfold State.answerIndexWrite
  split
  · next h t _ _ _ hx =>
    have hfree : Keeps n k s { s with down := s.down.freeInternal i } := keeps_freeInternal s hx rfl
    split
    · refine hfree.trans (Frame.keeps ?_)
      exact frame_rci (s := { s with down := s.down.freeInternal i }) (r := { s.rci with indexWritten := some (h, t) })
        (fun e => e) (fun e => e) rfl rfl
    · exact hfree
  · exact .refl s

theorem frame_setWakePin (s : State) (asserted : Bool) : Frame s (s.setWakePin asserted) :=
  frame_rci (fun h => h) (fun h => h) rfl rfl

theorem frame_leaveLoading (s : State) (h : s.rci.startup = .loading) : Frame s s.leaveLoading :=
  Frame.ite (frame_anchoring s) (frame_rci (fun e => by rw [h] at e; cases e) (fun e => e) rfl rfl)

theorem endLoad_rci (s : State) : s.endLoad.rci = s.rci := by
  unfold State.endLoad
  rfl

theorem frame_finishLoading (s : State) : Frame s s.finishLoading := by
  unfold State.finishLoading
  split
  · next h =>
    refine (frame_endLoad s).trans ((frame_leaveLoading _ ?_).trans (sided_firstPolls.frame _))
    rw [endLoad_rci]
    exact h
  · exact .refl s

/-! ## The accounts (chapter 5) -/

theorem frame_beginWrite (s : State) : Frame s s.beginWrite := by
  unfold State.beginWrite
  exact Frame.ite ((frame_ace (s.ace.startWrite_bounded)).trans
    (frame_tally { s with ace := s.ace.startWrite } .flush fun n => { n with writes := n.writes + 1 })) (.refl s)

theorem frame_lockoutEnds (s : State) : Frame s s.lockoutEnds := by
  unfold State.lockoutEnds
  split
  · exact frame_expireLockout s _
  · exact .refl s

theorem keeps_refuseKind {n : Nat} {k : Option Bool} (tag kind : BitVec 16) (s : State) (hk : ∀ h ∈ k, h = s.rci.hand) :
    Keeps n k s (s.refuseKind tag kind) := by
  unfold State.refuseKind
  split
  · exact .refl s
  · exact keeps_direct s (.unknownKind tag kind) hk

end Sys2Proof.Machine
end

