-- ==== Sys2Proof/Proofs/ResetKeeps.lean ====
section
/-!
A link reset keeps the laws of O5 and O7: what is issued on DN keeps its credit as an orphan, no slot is left, and no job marks.
-/

namespace Sys2Proof.Machine

/-! ## The trackers are emptied (R28, R64 step 1) -/

/-- A change of RCI that keeps its queue keeps every law but that of the command in hand. -/
theorem keeps_rci {n : Nat} {s : State} {r : Rci} (hq : s.rci.queue.length ≤ 16 → r.queue.length ≤ 16) :
    Keeps n none s { s with rci := r } where
  traffic := ⟨fun h => h, fun h => h⟩
  stores := { KeepsStores.refl n s with reports := hq }
  marks := ⟨fun h => h, fun h => h, fun h => h, (fun _ h => nomatch h), fun h => nomatch h⟩

theorem keeps_pathReset {n : Nat} (s : State) : Keeps n none s { s with path := s.path.linkReset } where
  traffic := ⟨fun h => h, fun h => h⟩
  stores := { KeepsStores.refl n s with
    hold := Nat.zero_le _
    capture := fun _ => ⟨(nomatch ·), Nat.zero_le _⟩ }
  marks := ⟨fun h => h, fun h => h, fun h => h, (fun _ h => nomatch h), fun h => nomatch h⟩

theorem length_filterMap_map {α β γ : Type} (f : α → Option β) (g : β → γ) (as : List α) :
    (as.filterMap fun a => (f a).map g).length = (as.filter fun a => (f a).isSome).length := by
  simp [List.length_filterMap_eq_countP, List.countP_eq_length_filter]

/-- As many orphans as transactions of the trackers are issued on DN. -/
theorem issuedOrphans_length (s : State) : s.issuedOrphans.length = s.readsOut + s.writesOut := by
  rw [State.issuedOrphans, List.length_append, length_filterMap_map, length_filterMap_map]
  rfl

theorem linkReset_internal (d : Down) (os : List Orphan) (i : Fin 8) : (d.linkReset os).internal[i] = d.resetSlot i := by
  simp [Down.linkReset]

/-- What is left of an internal slot at LRST: nothing that waits in RCI's name. -/
theorem resetSlot_listed {d : Down} {i : Fin 8} (h : i ∈ d.internalList) :
    d.resetSlot i = (d.internal[i]).filter fun x => !x.isRci := by
  unfold Down.resetSlot
  cases hx : d.internal[i] with
  | none => rfl
  | some x => cases hr : x.isRci <;> simp [Option.filter, hr, h]

theorem resetSlot_issued {d : Down} {i : Fin 8} (h : i ∉ d.internalList) :
    d.resetSlot i = (d.internal[i]).map fun x => if x.isRci then { x with discard := true } else x := by
  unfold Down.resetSlot
  cases hx : d.internal[i] with
  | none => rfl
  | some x => cases hr : x.isRci <;> simp [hr, h]

theorem mem_linkReset_list {d : Down} {os : List Orphan} {i : Fin 8} :
    i ∈ (d.linkReset os).internalList ↔ i ∈ d.internalList ∧ (d.internal[i]).any InternalSlot.isRci = false := by
  simp [Down.linkReset]

/-- An internal transaction that is issued on DN stays so. -/
theorem linkReset_internalOut (d : Down) (os : List Orphan) : (d.linkReset os).internalOut = d.internalOut := slotCount_congr fun i => by
  unfold Down.outstanding?
  by_cases hi : i ∈ d.internalList
  · have hold : d.internalList.contains i = true := by simpa using hi
    rw [if_pos hold, linkReset_internal, resetSlot_listed hi]
    by_cases hr : (d.internal[i]).any InternalSlot.isRci = true
    · obtain ⟨x, hx, hrx⟩ := (Option.any_eq_true _ _).1 hr
      have hnew : ¬ (d.linkReset os).internalList.contains i = true := fun hc =>
        absurd ((mem_linkReset_list.1 (List.contains_iff_mem.1 hc)).2.symm.trans hr) (nomatch ·)
      rw [if_neg hnew, hx]
      simp [Option.filter, hrx]
    · have hnew : (d.linkReset os).internalList.contains i = true := by
        simpa [mem_linkReset_list, hi] using hr
      rw [if_pos hnew]
  · have hold : ¬ d.internalList.contains i = true := by simpa using hi
    have hnew : ¬ (d.linkReset os).internalList.contains i = true := by simp [mem_linkReset_list, hi]
    rw [if_neg hold, if_neg hnew, linkReset_internal, resetSlot_issued hi]
    cases d.internal[i] <;> rfl

theorem freeTrackers_noneTaken (s : State) : s.freeTrackers.path.noneTaken := fun i =>
  ⟨Vector.getElem_replicate i.isLt, Vector.getElem_replicate i.isLt⟩

theorem freeTrackers_creditLaw {s : State} (h : s.creditLaw) : s.freeTrackers.creditLaw := by
  obtain ⟨hsum, -, -, hin, hio⟩ := h
  have hnone := freeTrackers_noneTaken s
  have hreads : s.freeTrackers.readsOut = 0 := slotCount_zero fun i => by simp [State.issuedRead?, (hnone i).1]
  have hwrites : s.freeTrackers.writesOut = 0 := slotCount_zero fun i => by simp [State.issuedWrite?, (hnone i).2]
  have hinternal : s.freeTrackers.down.internalOut = s.down.internalOut := linkReset_internalOut _ _
  have horphans : s.freeTrackers.down.orphans.length = s.down.orphans.length + (s.readsOut + s.writesOut) :=
    (List.length_append).trans (congrArg _ (issuedOrphans_length s))
  refine ⟨?_, List.nodup_nil, fun _ h => (List.not_mem_nil h).elim, hin.filter _, fun i hi => ?_⟩
  · rw [State.outstanding] at hsum ⊢
    rw [hreads, hwrites, hinternal, horphans]
    show s.down.credits + _ = 48
    omega
  · obtain ⟨hold, hr⟩ := mem_linkReset_list.1 hi
    obtain ⟨x, hx⟩ := Option.isSome_iff_exists.1 (hio i hold)
    rw [hx] at hr
    show ((s.down.linkReset s.issuedOrphans).internal[i]).isSome = true
    rw [linkReset_internal, resetSlot_listed hold, hx]
    simpa using hr

theorem freeTrackers_job (s : State) (j : Fin 16) :
    s.freeTrackers.job j = { s.job j with own := (s.job j).own.map Context.loseLines, refs := 0 } := by
  simp [State.freeTrackers, State.job, Jobs.loseLines, Jobs.mapContexts]

theorem freeTrackers_referenceLaw (s : State) : s.freeTrackers.referenceLaw := by
  have hnone := freeTrackers_noneTaken s
  refine ⟨fun j => ⟨?_, fun _ => ?_⟩, fun e => ?_⟩
  · rw [freeTrackers_job, slotsOfJob_noneTaken hnone]
  · rw [freeTrackers_job]
  · rw [State.slotsOfEntry, slotCount_zero fun i => by simp [(hnone i).1], slotCount_zero fun i => by simp [(hnone i).2]]
    exact Vector.getElem_replicate e.isLt

theorem loseLines_within (c : Context) : c.loseLines.Within c :=
  Context.within_of_map (g := fun r => { r with lines := 0 }) rfl fun _ => rfl

theorem loseLines_contexts (j : Jobs) : j.loseLines.contexts = (j.mapContexts Context.loseLines).contexts := by
  simp [Jobs.loseLines, Jobs.contexts]

theorem keeps_freeTrackers {n : Nat} (s : State) : Keeps n none s s.freeTrackers := by
  have hwithin : s.freeTrackers.jct.Within s.jct := fun m hm =>
    mapContexts_within s.jct Context.loseLines loseLines_within m (loseLines_contexts s.jct ▸ hm)
  exact {
    traffic := ⟨freeTrackers_creditLaw, fun _ => freeTrackers_referenceLaw s⟩
    stores := { KeepsStores.refl n s with }
    marks := {
      stack := stackLaw_congr (mapContexts_marking s.jct Context.loseLines) (mapContexts_stack s.jct Context.loseLines)
      queue := hwithin.queueLaw
      names := hwithin.namesLaw (Nat.le_refl _)
      marking := fun _ h => nomatch h
      hand := fun h => nomatch h } }

/-- No fetch is left that runs a command: RCI's transactions are freed or voided. -/
theorem freeTrackers_fetches (s : State) :
    ((List.finRange 8).filter fun i => (s.freeTrackers.down.internal[i]).any InternalSlot.isFetch).length = 0 := by
  refine slotCount_zero fun i => ?_
  have hrci : ∀ x : InternalSlot, x.isFetch = true → x.isRci = true := fun x hx => by
    cases hp : x.purpose <;> simp [InternalSlot.isFetch, InternalSlot.isRci, hp] at hx ⊢
  have hvoid : ∀ x : InternalSlot, ({ x with discard := true } : InternalSlot).isFetch = false := fun x => by
    simp only [InternalSlot.isFetch]
    cases x.purpose <;> rfl
  show ((s.down.linkReset s.issuedOrphans).internal[i]).any InternalSlot.isFetch = false
  rw [linkReset_internal]
  by_cases hi : i ∈ s.down.internalList
  · rw [resetSlot_listed hi]
    refine Bool.eq_false_iff.2 fun h => ?_
    obtain ⟨x, hx, hf⟩ := (Option.any_eq_true _ _).1 h
    obtain ⟨-, hx⟩ := Option.filter_eq_some_iff.1 hx
    simp [hrci x hf] at hx
  · rw [resetSlot_issued hi]
    cases s.down.internal[i] with
    | none => rfl
    | some x =>
      cases hr : x.isRci
      · simpa [hr] using mt (hrci x) (by simp [hr])
      · simp [hr, hvoid]

/-! ## The contexts end (R64 steps 2 and 3) -/

/-- Every context is discarded, and the marking register and the stack are emptied. -/
def State.discardContexts (s : State) : State :=
  { s with jct := { s.jct with marking := none, stack := [], slots := s.jct.slots.map fun q => { q with own := none } } }

theorem discardContexts_job (s : State) (j : Fin 16) : s.discardContexts.job j = { s.job j with own := none } := by
  simp [State.discardContexts, State.job]

theorem discardContexts_contexts (s : State) : s.discardContexts.jct.contexts = [] := by
  have hown : ∀ j : Fin 16, (s.discardContexts.jct.slots[j]).own = none := fun j => congrArg JobSlot.own (discardContexts_job s j)
  have hrest : s.discardContexts.jct.marking = none ∧ s.discardContexts.jct.stack = [] := ⟨rfl, rfl⟩
  simpa [Jobs.contexts, hrest] using hown

theorem keeps_discardContexts {n : Nat} (s : State) : Keeps n none s s.discardContexts := by
  have hwithin : s.discardContexts.jct.Within s.jct := fun m hm => by
    rw [discardContexts_contexts] at hm
    cases hm
  exact {
    traffic := .of_jobs rfl rfl rfl rfl fun _ j => by
      rw [discardContexts_job]
      exact ⟨rfl, .inl⟩
    stores := { KeepsStores.refl n s with }
    marks := {
      stack := fun _ => ⟨Nat.zero_le _, List.nodup_nil⟩
      queue := hwithin.queueLaw
      names := hwithin.namesLaw (Nat.le_refl _)
      marking := fun _ h => nomatch h
      hand := fun h => nomatch h } }

/-- The part with the records of every context settled without a report (R108). -/
def State.recordsSettled (s : State) : State := (s.jct.allRecords.map PageRecord.forceClose).foldl (State.settle false) s

theorem endContexts_eq (s : State) : s.endContexts = s.recordsSettled.discardContexts := rfl

theorem frame_recordsSettled (s : State) : Frame s s.recordsSettled := Frame.foldl (frame_settle false) _ s

theorem keeps_endContexts {n : Nat} (s : State) : Keeps n none s s.endContexts :=
  (frame_recordsSettled s).keeps.trans (keeps_discardContexts _)

/-- Nothing is on its way: no transaction has a slot, and no job marks or is stacked. -/
structure State.Emptied (s : State) : Prop where
  slots : s.path.noneTaken
  marking : s.jct.marking = none
  stack : s.jct.stack = []

theorem State.Emptied.of_frame {s t : State} (h : s.Emptied) (f : Frame s t) : t.Emptied where
  slots i := by
    rw [f.reads, f.writes]
    exact h.slots i
  marking := marking_eq_none_of_map f.marking h.marking
  stack := stack_eq_nil_of_map f.stack h.stack

/-- The part right after the contexts have ended at a link reset. -/
theorem endContexts_emptied (s : State) : s.freeTrackers.endContexts.Emptied where
  slots := fun i => by
    have f := frame_recordsSettled s.freeTrackers
    show s.freeTrackers.recordsSettled.path.reads[i] = none ∧ s.freeTrackers.recordsSettled.path.writes[i] = none
    rw [f.reads, f.writes]
    exact freeTrackers_noneTaken s i
  marking := rfl
  stack := rfl

theorem endContexts_markingLawAs (s : State) : s.freeTrackers.endContexts.markingLawAs false := by
  have f := frame_recordsSettled s.freeTrackers
  refine ⟨⟨Nat.zero_le _, List.nodup_nil⟩, ⟨?_, (nomatch ·), fun _ => ⟨rfl, rfl⟩⟩, (fun _ h => nomatch h), fun _ h => (List.not_mem_nil h).elim⟩
  show ((List.finRange 8).filter fun i =>
    (s.freeTrackers.recordsSettled.down.internal[i]).any InternalSlot.isFetch).length = 0
  rw [f.down]
  exact freeTrackers_fetches s

/-! ## The forced jobs (R64 steps 4 to 7) -/

theorem frame_forceWipes (s : State) (j : Fin 16) : Frame s (s.forceWipes j) := by
  unfold State.forceWipes
  simp only
  refine Frame.trans ?_ (frame_reportSkipped _ _ _ _ _)
  refine Frame.trans ?_ (frame_modJob _ j _ (fun _ => rfl) (fun _ => rfl) (fun _ => rfl) fun _ => rfl)
  exact frame_appendWipes s j _ (List.length_take_le _ _)

theorem frame_clearRegions (s : State) : Frame s (s.setRegions
    { live := Vector.replicate 32 none, shadow := Vector.replicate 32 none, inFlight := s.rgt.inFlight, commit := none }) :=
  frame_setRegions s _ rfl

theorem frame_clearKeysAndRegions (s : State) : Frame s s.clearKeysAndRegions :=
  (frame_keys s _).trans (frame_clearRegions { s with keys := Vector.replicate 16 none })

theorem forced_refs (q : JobSlot) : q.forced.refs = 0 ∨ q.forced.refs = q.refs := by
  unfold JobSlot.forced
  split
  · exact .inl rfl
  · exact .inr rfl

theorem forced_own (q : JobSlot) : ∀ c ∈ q.forced.own, c ∈ q.own := by
  unfold JobSlot.forced
  split
  · exact freed_own q
  · exact fun c hc => hc

theorem keeps_forceStates {n : Nat} {k : Option Bool} (js : List (Fin 16)) (s : State) (he : s.Emptied) :
    Keeps n k s (js.foldl State.forceState s) := by
  induction js generalizing s with
  | nil => exact .refl s
  | cons j js ih =>
    refine Keeps.trans ?_ (ih (s.forceState j) ⟨he.slots, he.marking, he.stack⟩)
    refine keeps_leave s j JobSlot.forced (fun h => (h.1 j).1.trans (slotsOfJob_noneTaken he.slots j)) (forced_refs _)
      (forced_own _) fun _ _ _ => ?_
    simp [he.marking, he.stack]

theorem frame_forceTellAs (s : State) (x : Fin 16 × Bool) : Frame s (s.forceTellAs x) := frame_tellEnded s _ _

/-- The forcing of the jobs after their contexts have ended (R64 steps 4 to 7). -/
theorem keeps_forcing {n : Nat} {k : Option Bool} (s : State) (js : List (Fin 16)) (marks : List (Fin 16 × Bool))
    (he : s.Emptied) : Keeps n k s
      (marks.foldl State.forceTellAs (js.foldl State.forceState (js.foldl State.forceWipes s).clearKeysAndRegions)) := by
  have hstart := (Frame.foldl frame_forceWipes js s).trans (frame_clearKeysAndRegions _)
  refine Keeps.trans ?_ (Frame.foldl frame_forceTellAs marks _).keeps
  exact hstart.keeps.trans (keeps_forceStates js _ (he.of_frame hstart))

/-! ## Link reset -/

/-- The part at a link reset, with the path and RCI reset. -/
def State.pathAndRciReset (s : State) (straps : BitVec 2) : State :=
  { s with path := s.path.linkReset, rci := s.rci.linkReset straps }

theorem linkReset_eq (s : State) (straps : BitVec 2) : s.linkReset straps =
    if s.rci.standby.baysDetached then (s.pathAndRciReset straps).forceJobs.firstPolls
    else (s.pathAndRciReset straps).forceJobs := rfl

theorem keeps_pathAndRciReset {n : Nat} (s : State) (straps : BitVec 2) : Keeps n none s (s.pathAndRciReset straps) :=
  (keeps_pathReset s).trans (keeps_rci (s := { s with path := s.path.linkReset }) fun _ => Nat.zero_le _)

/-- What comes after the end of the contexts keeps every law, with no command in hand. -/
theorem keeps_afterContexts {n : Nat} {k : Option Bool} (s : State) (straps : BitVec 2) :
    Keeps n k (s.pathAndRciReset straps).freeTrackers.endContexts (s.linkReset straps) := by
  rw [linkReset_eq]
  have hforce : Keeps n k (s.pathAndRciReset straps).freeTrackers.endContexts (s.pathAndRciReset straps).forceJobs :=
    keeps_forcing _ _ _ (endContexts_emptied _)
  split
  · exact hforce.trans (sided_firstPolls.frame _).keeps
  · exact hforce

theorem endContexts_hand (s : State) (straps : BitVec 2) :
    (s.pathAndRciReset straps).freeTrackers.endContexts.rci.hand = false :=
  (frame_recordsSettled (s.pathAndRciReset straps).freeTrackers).hand

theorem keeps_linkReset {n : Nat} (s : State) (straps : BitVec 2) : Keeps n none s (s.linkReset straps) :=
  (keeps_pathAndRciReset s straps).trans
    ((keeps_freeTrackers _).trans ((keeps_endContexts _).trans (keeps_afterContexts s straps)))

theorem linkReset_markingLaw (s : State) (straps : BitVec 2) : (s.linkReset straps).markingLaw := by
  have hk : Keeps 0 (some false) _ _ := keeps_afterContexts s straps
  have hhand : (s.linkReset straps).rci.hand = false := (hk.marks.hand rfl).trans (endContexts_hand s straps)
  rw [State.markingLaw_iff, hhand]
  exact hk.marks.marking false rfl (endContexts_markingLawAs _)

end Sys2Proof.Machine
end

