-- ==== Sys2Proof/Proofs/StepKeeps.lean ====
section
/-!
Every step keeps the laws of O5 and O7: each command of the table, and the passing of time. Settles O5 and O7.
-/

namespace Sys2Proof.Machine

/-- The laws of O5 and O7 go over from `s` to `t`, that of the command in hand with the register as it stands in each. -/
structure KeepsLaws (s t : State) : Prop where
  keeps : Keeps (max 8 s.path.hold.length) none s t
  marking : s.markingLaw → t.markingLaw

theorem Keeps.mono {m n : Nat} {k : Option Bool} {s t : State} (h : Keeps m k s t) (hmn : m ≤ max s.path.hold.length n) :
    Keeps n k s t where
  traffic := h.traffic
  stores := { h.stores with
    hold := by
      have hhold := h.stores.hold
      omega }
  marks := h.marks

theorem Keeps.toNone {n : Nat} {k : Option Bool} {s t : State} (h : Keeps n k s t) : Keeps n none s t where
  traffic := h.traffic
  stores := h.stores
  marks := { h.marks with marking := (fun _ h => nomatch h), hand := fun h => nomatch h }

/-- Where the register of the command in hand stands, the laws go over. -/
theorem Keeps.laws {n : Nat} {s t : State} (h : Keeps n (some s.rci.hand) s t) (hn : n ≤ max 8 s.path.hold.length) :
    KeepsLaws s t where
  keeps := h.toNone.mono (Nat.le_trans hn (Nat.le_max_right _ _))
  marking hm := by
    rw [State.markingLaw_iff, h.marks.hand rfl]
    exact h.marks.marking _ rfl hm

theorem Frame.laws {s t : State} (f : Frame s t) : KeepsLaws s t := (f.keeps (n := 0)).laws (Nat.zero_le _)

theorem KeepsLaws.trans {s t u : State} (h : KeepsLaws s t) (g : KeepsLaws t u) : KeepsLaws s u where
  keeps := h.keeps.trans (g.keeps.mono (by have := h.keeps.stores.hold; omega))
  marking x := g.marking (h.marking x)

/-- An event keeps what its effect keeps. -/
theorem KeepsLaws.event {s t : State} {body : State → State} (h : event body s = .next t)
    (hb : KeepsLaws s.beginEvent (body s.beginEvent)) : KeepsLaws s t := by
  simp only [Sys2Proof.Machine.event, Host.Outcome.next.injEq] at h
  subst h
  split
  · exact (frame_beginEvent s).laws.trans (hb.trans ((keeps_endEvent (n := 0) _).laws (Nat.zero_le _)))
  · exact (frame_beginEvent s).laws

theorem keepsLaws_ring {s t : State} {c : Instr} (h : ringEvent (runCommand c) s = .next t) : KeepsLaws s t :=
  .event h ((keeps_direct (n := 0) s.beginEvent c fun _ hk => (Option.some.inj hk).symm).laws (Nat.zero_le _))

/-! ## The fetch (R186) -/

/-- A change of the port that keeps the law of the credits keeps every law but that of the command in hand. -/
theorem keeps_downNone {n : Nat} {s : State} {d : Down} (hc : s.creditLaw → ({ s with down := d } : State).creditLaw) :
    Keeps n none s { s with down := d } where
  traffic := ⟨hc, fun h => h⟩
  stores := { KeepsStores.refl n s with }
  marks := ⟨fun h => h, fun h => h, fun h => h, (fun _ h => nomatch h), fun h => nomatch h⟩

theorem fetchReady_facts {s : State} (h : s.fetchReady = true) :
    s.rci.startup = .anchored ∧ s.rci.standby = .running ∧ s.rci.hand = false := by
  simp only [State.fetchReady, Bool.and_eq_true, beq_iff_eq, Bool.not_eq_true'] at h
  obtain ⟨⟨⟨⟨⟨hup, -⟩, hrun⟩, hhand⟩, -⟩, -⟩ := h
  exact ⟨hup, hrun, hhand⟩

theorem keepsLaws_startFetch (s : State) : KeepsLaws s s.startFetch := by
  unfold State.startFetch
  split
  · next g i _ hi =>
    split
    · next hready =>
      obtain ⟨hup, hrun, hhand⟩ := fetchReady_facts hready
      have hfree := freeSlot?_free hi
      refine ⟨(keeps_downNone (creditLaw_handInternal _ hfree)).trans
        (keeps_rci (s := { s with down := s.down.handInternal i ⟨.fetch false, slotAddr g.cmdBase g.cmdSlot, 1, false⟩ })
          fun h => h), fun hlaw => ?_⟩
      obtain ⟨hstack, ⟨hfetch, -, hout⟩, hmark⟩ := hlaw
      refine ⟨hstack, ⟨?_, fun _ => ⟨hup, hrun⟩, hout⟩, hmark⟩
      refine (fetches_handInternal s.down ⟨.fetch false, slotAddr g.cmdBase g.cmdSlot, 1, false⟩ hfree).trans ?_
      rw [hfetch, hhand]
      rfl
    · exact (Frame.refl s).laws
  · exact (Frame.refl s).laws

/-- The outstanding fetch of a command: the command is in hand. -/
theorem hand_of_fetch {s : State} {i : Fin 8} {x : InternalSlot} (hx : s.down.outstanding? i = some x) (hf : x.isFetch = true)
    (h : s.markingLaw) : s.rci.hand = true := by
  obtain ⟨-, ⟨hfetch, -, -⟩, -⟩ := h
  have hfree := fetches_freeInternal hx
  cases hh : s.rci.hand with
  | true => rfl
  | false =>
    simp only [hh, hf, Bool.false_eq_true, if_false, if_true] at hfetch hfree
    omega

/-- The fetch of the command in hand completes: the part stands as one in which no command is in hand, but for the register. -/
theorem markingLawAs_fetchFreed {s : State} {i : Fin 8} {x : InternalSlot} (hx : s.down.outstanding? i = some x)
    (hf : x.isFetch = true) (h : s.markingLaw) : ({ s with down := s.down.freeInternal i } : State).markingLawAs false := by
  have hhand := hand_of_fetch hx hf h
  obtain ⟨hstack, ⟨hfetch, -, hout⟩, hmark⟩ := h
  refine ⟨hstack, ⟨?_, (fun e => nomatch e), hout⟩, hmark⟩
  have hfree := fetches_freeInternal hx
  simp only [hhand, hf, if_true] at hfetch hfree
  show ((List.finRange 8).filter fun k => ((s.down.freeInternal i).internal[k]).any InternalSlot.isFetch).length = 0
  omega

/-- The command in hand is finished with (R187). -/
theorem markingLaw_commandDone {s : State} (h : s.markingLawAs false) :
    ({ s with rci := s.rci.commandDone } : State).markingLaw := h

/-- A fetched line is executed on the part that the fetch's completion leaves. -/
theorem keepsLaws_fetched {s : State} {i : Fin 8} {x : InternalSlot} (hx : s.down.outstanding? i = some x)
    (hf : x.isFetch = true) (l : Line) :
    KeepsLaws s (({ s with down := s.down.freeInternal i } : State).executeLine l) where
  keeps := (keeps_downNone (creditLaw_freeInternal hx)).trans
    ((keeps_runCommand (k := none) _ _ fun _ h => nomatch h).trans (keeps_rci (r := (runCommand (commandOfLine l) _).rci.commandDone) fun h => h))
  marking hlaw := by
    have hhand := hand_of_fetch hx hf hlaw
    have hfreed := markingLawAs_fetchFreed hx hf hlaw
    obtain ⟨-, ⟨-, hin, -⟩, -⟩ := hlaw
    have hruns : Runs (some false) { s with down := s.down.freeInternal i } := fun h e =>
      ⟨(Option.some.inj e).symm, hin hhand⟩
    exact markingLaw_commandDone ((keeps_runCommand (n := 0) _ _ hruns).marks.marking false rfl hfreed)

theorem keepsLaws_skipped {s : State} {i : Fin 8} {x : InternalSlot} (hx : s.down.outstanding? i = some x)
    (hf : x.isFetch = true) : KeepsLaws s (({ s with down := s.down.freeInternal i } : State).skipCommand) where
  keeps := (keeps_downNone (creditLaw_freeInternal hx)).trans
    ((keeps_rci (s := { s with down := s.down.freeInternal i }) (r := s.rci.commandDone) fun h => h).trans
      (frame_handHeld _ _ _).keeps)
  marking hlaw := markingLaw_commandDone (markingLawAs_fetchFreed hx hf hlaw)

theorem keepsLaws_returnFetch (s : State) (i : Fin 8) (okay : Bool) (l : Line) : KeepsLaws s (s.returnFetch i okay l) := by
  unfold State.returnFetch
  split
  · next retried a len discard hx =>
    cases hd : discard with
    | true =>
      rw [hd] at hx
      exact (keeps_freeInternal (n := 0) s hx rfl).laws (Nat.zero_le _)
    | false =>
      rw [hd] at hx
      simp only [Bool.false_eq_true, if_false]
      split
      · exact keepsLaws_fetched hx rfl l
      · split
        · exact keepsLaws_skipped hx rfl
        · exact (keeps_handAgain (n := 0) (p := .fetch true) s hx rfl).laws (Nat.zero_le _)
  · exact (Frame.refl s).laws

/-! ## Supply and reset -/

/-- A part whose volatile stores are those of POR meets every law. -/
theorem keepsLaws_volatileReset (s u : State) (straps : BitVec 2) (powered : Bool) :
    KeepsLaws s { u.volatileReset straps with powered := powered } where
  keeps := {
    traffic := ⟨fun _ => reset_creditLaw, fun _ => reset_referenceLaw⟩
    stores := {
      hold := Nat.zero_le _
      reports := fun _ => Nat.zero_le _
      wipes := fun _ => Nat.zero_le _
      writeBacks := fun _ => Nat.zero_le _
      departed := fun _ => Nat.zero_le _
      capture := fun _ => ⟨(nomatch ·), Nat.zero_le _⟩
      pattern := fun _ _ h => (List.not_mem_nil h).elim }
    marks := {
      stack := fun _ => reset_markingLaw.1
      queue := fun _ m hm => by
        have hm' : m ∈ State.reset.jct.contexts := hm
        rw [reset_contexts] at hm'
        cases hm'
      names := fun _ r hr => by
        have hr' : r ∈ State.reset.jct.records := hr
        rw [reset_records] at hr'
        cases hr'
      marking := fun _ h => nomatch h
      hand := fun h => nomatch h } }
  marking _ := by
    obtain ⟨hstack, ⟨hfetch, -, -⟩, hmark⟩ := reset_markingLaw
    exact ⟨hstack, ⟨hfetch, (fun h => nomatch h), fun _ => ⟨rfl, rfl⟩⟩, hmark⟩

theorem keepsLaws_loseSupply (s : State) : KeepsLaws s s.loseSupply := by
  unfold State.loseSupply
  split
  · exact keepsLaws_volatileReset s s.tearWrite s.rci.straps false
  · exact (frame_beginEvent s).laws

theorem keepsLaws_lrst {s t : State} {straps : BitVec 2} (h : execLrst straps s = .next t) : KeepsLaws s t := by
  simp only [execLrst, resetEvent, Host.Outcome.next.injEq] at h
  subst h
  split
  · have hreset : KeepsLaws s.beginEvent (s.beginEvent.linkReset straps) :=
      ⟨keeps_linkReset _ straps, fun _ => linkReset_markingLaw _ straps⟩
    exact (frame_beginEvent s).laws.trans (hreset.trans ((keeps_endReset (n := 0) _).laws (Nat.zero_le _)))
  · exact (frame_beginEvent s).laws

/-! ## Every command, and time -/

/-- The event of an effect that keeps the laws with the register of the command in hand as it stands. -/
theorem keepsLaws_of_keeps {s t : State} (body : State → State) (h : event body s = .next t)
    (hb : Keeps 0 (some s.rci.hand) s.beginEvent (body s.beginEvent)) : KeepsLaws s t :=
  .event h (Keeps.laws (s := s.beginEvent) hb (Nat.zero_le _))

theorem keepsLaws_of_frame {s t : State} (body : State → State) (h : event body s = .next t)
    (hb : ∀ u, Frame u (body u)) : KeepsLaws s t := .event h (hb s.beginEvent).laws

theorem exec_keepsLaws {c : Instr} {s t : State} (h : exec c s = .next t) : KeepsLaws s t := by
  cases c with
  | por straps =>
    obtain rfl : s.powerOn straps = t := Host.Outcome.next.inj h
    exact keepsLaws_volatileReset s (if s.powered then s.tearWrite else s) straps true
  | supplyLoss =>
    obtain rfl : s.loseSupply = t := Host.Outcome.next.inj h
    exact keepsLaws_loseSupply s
  | lrst straps => exact keepsLaws_lrst h
  | fetchStart => exact .event h (keepsLaws_startFetch _)
  | fetchReadReturn i okay l =>
    exact .event (body := fun u => u.returnFetch i okay l) h (keepsLaws_returnFetch s.beginEvent i okay l)
  | wake a => exact keepsLaws_of_frame (fun u => u.setWakePin a) h fun u => frame_setWakePin u a
  | loadingEnd => exact keepsLaws_of_frame State.finishLoading h frame_finishLoading
  | takeTransaction d p =>
    exact .event (body := fun u => (u.present p).takePort d) h (((frame_present _ p).keeps.trans (keeps_takePort _ d (Nat.le_refl 8))).laws (Nat.le_max_left _ _))
  | releasedTaken => exact .event h ((keeps_takeReleased _ (Nat.le_refl _)).laws (Nat.le_max_right _ _))
  | downstreamGrant => exact keepsLaws_of_keeps State.grant h (keeps_grant _)
  | readReturn ref okay ls => exact keepsLaws_of_keeps (fun u => u.completeRead ref okay ls) h (keeps_completeRead _ ref okay ls)
  | writeAnswer ref okay => exact keepsLaws_of_keeps (fun u => u.completeWriteAt ref okay) h (keeps_completeWriteAt _ ref okay)
  | commitCompletion => exact keepsLaws_of_frame State.completeCommit h frame_completeCommit
  | recordSettle => exact keepsLaws_of_frame State.settleDue h frame_settleDue
  | jobLeavesClosing j => exact keepsLaws_of_keeps (fun u => u.leaveIfDue j) h (keeps_leaveIfDue _ j)
  | wipeStart => exact keepsLaws_of_frame State.startWipe h frame_startWipe
  | wipeWriteIssue => exact keepsLaws_of_keeps State.issueWipeWrite h (keeps_issueWipeWrite _)
  | wipeWriteAnswer i okay => exact keepsLaws_of_keeps (fun u => u.answerWipeWrite i okay) h (keeps_answerWipeWrite _ i okay)
  | verifyReadIssue => exact keepsLaws_of_keeps State.issueVerifyRead h (keeps_issueVerifyRead _)
  | verifyReadReturn i okay ls => exact keepsLaws_of_keeps (fun u => u.returnVerifyRead i okay ls) h (keeps_returnVerifyRead _ i okay ls)
  | wipeDone => exact keepsLaws_of_keeps State.finishWipe h (keeps_finishWipe _)
  | reportWriteIssue => exact keepsLaws_of_keeps State.issueReportWrite h (keeps_issueReportWrite _)
  | reportWriteAnswer i okay => exact keepsLaws_of_keeps (fun u => u.answerReportWrite i okay) h (keeps_answerReportWrite _ i okay)
  | indexWriteIssue => exact keepsLaws_of_keeps State.issueIndexWrite h (keeps_issueIndexWrite _)
  | indexWriteAnswer i okay => exact keepsLaws_of_keeps (fun u => u.answerIndexWrite i okay) h (keeps_answerIndexWrite _ i okay)
  | accountFault => exact keepsLaws_of_frame State.joinFault h frame_joinFault
  | amemWriteStart => exact keepsLaws_of_frame State.beginWrite h frame_beginWrite
  | amemWriteComplete => exact keepsLaws_of_frame State.completeWrite h frame_completeWrite
  | lockoutExpiry => exact keepsLaws_of_frame State.lockoutEnds h frame_lockoutEnds
  | statusReq p => exact keepsLaws_of_frame (fun u => u.sendStatus p) h fun u => frame_sendStatus u p
  | identReq p => exact keepsLaws_of_frame (fun u => u.sendIdent p) h fun u => frame_sendIdent u p
  | proveReq p => exact keepsLaws_of_frame (fun u => u.sendProve p) h fun u => frame_sendProve u p
  | debitReq p => exact keepsLaws_of_frame (fun u => u.sendDebit p) h fun u => frame_sendDebit u p
  | statusRep p fr => exact keepsLaws_of_frame (fun u => u.replyEnds .status p fr) h fun u => frame_replyEnds u .status p fr
  | identRep p fr => exact keepsLaws_of_frame (fun u => u.replyEnds .ident p fr) h fun u => frame_replyEnds u .ident p fr
  | proveRep p fr => exact keepsLaws_of_frame (fun u => u.replyEnds .prove p fr) h fun u => frame_replyEnds u .prove p fr
  | debitRep p fr => exact keepsLaws_of_frame (fun u => u.replyEnds .debit p fr) h fun u => frame_replyEnds u .debit p fr
  | exchangeTimeout p => exact keepsLaws_of_frame (fun u => u.timeOut p) h fun u => frame_timeOut u p
  | replyFrameBegins p => exact keepsLaws_of_frame (fun u => u.replyBegins p) h fun u => frame_replyBegins u p
  | standbyDrainEnd => exact keepsLaws_of_keeps State.drainEnd h (keeps_drainEnd _)
  | flushComplete => exact keepsLaws_of_frame State.flushEnd h frame_flushEnd
  | standbyPostEnd => exact keepsLaws_of_frame State.postEnd h frame_postEnd
  | unknownKind tag kind =>
    exact keepsLaws_of_keeps (State.refuseKind tag kind) h (keeps_refuseKind tag kind _ fun _ hk => (Option.some.inj hk).symm)
  | regionSet tag p => exact keepsLaws_ring (c := .regionSet tag p) h
  | regionClear tag i => exact keepsLaws_ring (c := .regionClear tag i) h
  | regionsCommit tag => exact keepsLaws_ring (c := .regionsCommit tag) h
  | captureClear tag => exact keepsLaws_ring (c := .captureClear tag) h
  | jobOpen tag p => exact keepsLaws_ring (c := .jobOpen tag p) h
  | jobRelease tag j pin => exact keepsLaws_ring (c := .jobRelease tag j pin) h
  | jobClose tag j => exact keepsLaws_ring (c := .jobClose tag j) h
  | jobQuery tag j => exact keepsLaws_ring (c := .jobQuery tag j) h
  | markSelect tag j => exact keepsLaws_ring (c := .markSelect tag j) h
  | markInterrupt tag j => exact keepsLaws_ring (c := .markInterrupt tag j) h
  | markResume tag => exact keepsLaws_ring (c := .markResume tag) h
  | classSet tag p => exact keepsLaws_ring (c := .classSet tag p) h
  | tariffSet tag p => exact keepsLaws_ring (c := .tariffSet tag p) h
  | userSet tag p => exact keepsLaws_ring (c := .userSet tag p) h
  | userAdjust tag pin u a => exact keepsLaws_ring (c := .userAdjust tag pin u a) h
  | userQuery tag pin u => exact keepsLaws_ring (c := .userQuery tag pin u) h
  | deptSet tag pin d a => exact keepsLaws_ring (c := .deptSet tag pin d a) h
  | periodReset tag pin w => exact keepsLaws_ring (c := .periodReset tag pin w) h
  | meterQuery tag pin => exact keepsLaws_ring (c := .meterQuery tag pin) h
  | servicePinSet tag pin x => exact keepsLaws_ring (c := .servicePinSet tag pin x) h
  | bayQuery tag b => exact keepsLaws_ring (c := .bayQuery tag b) h
  | bayConfig tag p => exact keepsLaws_ring (c := .bayConfig tag p) h
  | wipeRange tag p => exact keepsLaws_ring (c := .wipeRange tag p) h
  | standbyEnter tag m => exact keepsLaws_ring (c := .standbyEnter tag m) h

theorem frame_tick (s : State) : Frame s s.tick := by
  unfold State.tick
  exact Frame.ite { Frame.refl s with } (.refl s)

theorem frame_pending (s : State) (cs : List Instr) : Frame s { s with pending := cs } := { Frame.refl s with }

theorem step_keepsLaws {s t : State} (h : step s = .next t) : KeepsLaws s t := by
  unfold step at h
  split at h
  · obtain rfl : s.tick = t := by simpa using h
    exact (frame_tick s).laws
  · next c rest _ => exact (frame_pending s rest).laws.trans (exec_keepsLaws h)

theorem KeepsLaws.capacities {s t : State} (h : KeepsLaws s t) (hs : s.capacities) : t.capacities := by
  obtain ⟨hhold, hreports, hwipes, hwrites, hdeparted⟩ := hs
  have hbound := h.keeps.stores.hold
  exact ⟨by omega, h.keeps.stores.reports hreports, h.keeps.stores.wipes hwipes, h.keeps.stores.writeBacks hwrites,
    h.keeps.stores.departed hdeparted⟩

end Sys2Proof.Machine

namespace Sys2Proof.Proofs
open Sys2Proof Sys2Proof.Machine

/-- Settles O5: every command of the table keeps both laws, operation by operation (`exec_keepsLaws`). -/
theorem stepKeepsCredits : Obligations.StepKeepsCredits := by
  unfold Obligations.StepKeepsCredits
  exact ⟨fun _ _ hc hstep => (step_keepsLaws hstep).keeps.traffic.credit hc,
    fun _ _ hr hstep => (step_keepsLaws hstep).keeps.traffic.reference hr⟩

/-- Settles O7: every command of the table keeps each law, operation by operation (`exec_keepsLaws`). -/
theorem stepKeepsBounds : Obligations.StepKeepsBounds := by
  unfold Obligations.StepKeepsBounds
  refine ⟨⟨fun s t ⟨hstack, hqueue⟩ hstep => ?_, fun s t ⟨hcap, hcapture⟩ hstep => ?_⟩, fun s t h hstep => ?_,
    fun s t h hstep => ?_, fun s t h hstep => ?_⟩
  · have hk := (step_keepsLaws hstep).keeps.marks
    exact ⟨hk.stack hstack, hk.queue hqueue⟩
  · have hk := step_keepsLaws hstep
    exact ⟨hk.capacities hcap, hk.keeps.stores.capture hcapture⟩
  · exact (step_keepsLaws hstep).keeps.stores.pattern h
  · exact (step_keepsLaws hstep).marking h
  · exact (step_keepsLaws hstep).keeps.marks.names h

end Sys2Proof.Proofs
end

