-- ==== Sys2Proof/Proofs/MeteredReturns.lean ====
section
/-!
What an event puts on the ports does not bear on its consequences; and the return of a metered read. Settles O32.
-/

namespace Sys2Proof.Machine

/-! ## Outputs -/

/-- The part with the outputs `o`. -/
def State.withOut (s : State) (o : List Output) : State := { s with out := o }

/-- An operation neither reads nor changes the outputs. -/
def OutBlind (f : State → State) : Prop := ∀ (s : State) (o : List Output), f (s.withOut o) = (f s).withOut o

theorem OutBlind.id : OutBlind fun s => s := fun _ _ => rfl

theorem OutBlind.comp {f g : State → State} (hf : OutBlind f) (hg : OutBlind g) : OutBlind fun s => f (g s) := fun s o =>
  (congrArg f (hg s o)).trans (hf (g s) o)

theorem OutBlind.foldl {α : Type} {f : State → α → State} (hf : ∀ a, OutBlind fun s => f s a) (as : List α) :
    OutBlind fun s => as.foldl f s := by
  induction as with
  | nil => exact .id
  | cons a as ih => exact ih.comp (hf a)

/-- An operation that chooses by a value to which the outputs do not belong. -/
theorem OutBlind.choose {α : Type} {f : α → State → State} (v : State → α) (hv : ∀ s o, v (s.withOut o) = v s)
    (hf : ∀ a, OutBlind (f a)) : OutBlind fun s => f (v s) s := fun s o => by
  show f (v (s.withOut o)) (s.withOut o) = _
  rw [hv]
  exact hf (v s) s o

theorem OutBlind.ite {f g : State → State} {p : State → Prop} [∀ s, Decidable (p s)] (hp : ∀ s o, p (s.withOut o) ↔ p s)
    (hf : OutBlind f) (hg : OutBlind g) : OutBlind fun s => if p s then f s else g s := fun s o => by
  by_cases h : p s
  · simp only [h, (hp s o).2 h, if_true]
    exact hf s o
  · simp only [h, mt (hp s o).1 h, if_false]
    exact hg s o

theorem Sided.outBlind {f : State → State} (hf : Sided f) : OutBlind f := fun s o => by
  rw [show f (s.withOut o) = (s.withOut o).withSide (f s) from hf.comm (s.withOut o) s, hf.apply_eq s]
  rfl

theorem outBlind_joinAt (time : BitVec 32) (h : Handed) : OutBlind fun s => s.joinAt time h :=
  .ite (p := fun s => s.rci.hasEntry h.usesHeld = true) (fun _ _ => Iff.rfl) (fun _ _ => rfl) fun _ _ => rfl

theorem outBlind_joinOne (h : Handed) : OutBlind fun s => s.joinOne h :=
  .choose (f := fun time s => s.joinAt time h) (fun s => s.ms) (fun _ _ => rfl) fun time => outBlind_joinAt time h

theorem outBlind_joins (hs : List Handed) : OutBlind fun s => (joinOrder hs).foldl State.joinOne s :=
  .foldl outBlind_joinOne _

/-- An event that ends still, and has put out nothing but `o` at the end of its effect. -/
theorem event_concluded {s v : State} {body : State → State} (hp : s.powered = true) (o : Output)
    (hb : body s.beginEvent = v.give o) (hs : v.still = true) (ho : v.out = []) :
    event body s = .next { v.concluded with out := [o] } := by
  have hstill : (v.give o).still = true := State.still_congr hs rfl rfl rfl rfl rfl rfl rfl rfl
  obtain ⟨hr, hf, hn⟩ := State.still_iff _ |>.1 hstill
  have hgive : v.give o = v.withOut [o] := by
    rw [State.give, State.withOut, ho]
    rfl
  rw [event_powered hp, hb, (v.give o).endEvent_eq hn hr hf, hgive]
  exact congrArg (fun t : State => Host.Outcome.next { t with handed := [] }) (outBlind_joins v.handed v [o])

/-! ## A slot freed, beside what RMU and TMU do -/

/-- Freeing a read's slot does not touch the account side. -/
theorem Sided.readFreed {f : State → State} (hf : Sided f) (s : State) (i : Fin 32) (r : ReadSlot) :
    (f s).readFreed i r = f (s.readFreed i r) := by
  have hside : ∀ c t : State, (c.withSide t).readFreed i r = (c.readFreed i r).withSide t := fun c t => by
    simp only [State.readFreed, State.uncounted]
    cases r.entry <;> cases r.job <;> rfl
  have hself : (s.readFreed i r).withSide s = s.readFreed i r := (hside s s).symm
  calc (f s).readFreed i r = (s.withSide (f s)).readFreed i r := by rw [← hf.apply_eq s]
    _ = (s.readFreed i r).withSide (f s) := hside s (f s)
    _ = f ((s.readFreed i r).withSide s) := (hf.comm _ s).symm
    _ = f (s.readFreed i r) := by rw [hself]

/-- The reference count of a job falls by one. -/
def Jobs.lowered (j : Jobs) (x : Option (Fin 16)) : Jobs :=
  match x with
  | none => j
  | some i => { j with slots := upd j.slots i fun q => { q with refs := q.refs - 1 } }

theorem readFreed_jct (s : State) (i : Fin 32) (r : ReadSlot) : (s.readFreed i r).jct = s.jct.lowered r.job := by
  simp only [State.readFreed, State.uncounted, Jobs.lowered]
  cases r.job <;> rfl

/-- A change of the jobs and the freeing of a slot may come in either order. -/
theorem readFreed_setJct (s : State) (i : Fin 32) (r : ReadSlot) (k : Jobs) :
    ({ s with jct := k } : State).readFreed i r = { s.readFreed i r with jct := k.lowered r.job } := by
  simp only [State.readFreed, State.uncounted, Jobs.lowered]
  cases r.job <;> rfl

theorem map_upd {α : Type} {n : Nat} (v : Vector α n) (i : Fin n) {f g : α → α} (h : ∀ a, f (g a) = g (f a)) :
    (upd v i g).map f = upd (v.map f) i g := by
  refine Vector.ext fun k hk => ?_
  have hget := fun w : Vector α n => upd_get w i ⟨k, hk⟩ g
  simp only [Fin.getElem_fin] at hget
  rw [Vector.getElem_map, hget, hget, Vector.getElem_map]
  split
  · next e =>
    subst e
    exact h _
  · rfl

theorem mapContexts_lowered (j : Jobs) (f : Context → Context) (x : Option (Fin 16)) :
    (j.lowered x).mapContexts f = (j.mapContexts f).lowered x := by
  cases x with
  | none => rfl
  | some i => exact congrArg (fun v => ({ j.mapContexts f with slots := v } : Jobs)) (map_upd j.slots i fun _ => rfl)

theorem returnMark_lowered (j : Jobs) (m : LineMark) (d : Nat) (x : Option (Fin 16)) :
    (j.lowered x).returnMark m d = (j.returnMark m d).lowered x := by
  cases m with
  | first n p => exact mapContexts_lowered j _ x
  | remark n p => rfl
  | none => rfl

theorem returnMarks_lowered (ms : List (LineMark × Nat)) (j : Jobs) (x : Option (Fin 16)) :
    ms.foldl (fun j m => j.returnMark m.1 m.2) (j.lowered x) = (ms.foldl (fun j m => j.returnMark m.1 m.2) j).lowered x := by
  induction ms generalizing j with
  | nil => rfl
  | cons m ms ih =>
    rw [List.foldl_cons, returnMark_lowered]
    exact ih _

theorem settleMarks_readFreed (s : State) (i : Fin 32) (r : ReadSlot) (ms : List LineMark) (ds : List Nat) :
    (s.settleMarks ms ds).readFreed i r = (s.readFreed i r).settleMarks ms ds := by
  rw [State.settleMarks, State.settleMarks, readFreed_setJct, readFreed_jct, returnMarks_lowered]

theorem addDots_readFreed (s : State) (i : Fin 32) (r : ReadSlot) (j : Fin 16) (p : Fin 4) (d : Nat)
    (hj : r.job = some j) : (s.addDots j p d).readFreed i r = (s.readFreed i r).addDots j p d := by
  have hslots : ∀ f : JobSlot → JobSlot, (∀ q : JobSlot, f { q with refs := q.refs - 1 } = { f q with refs := (f q).refs - 1 }) →
      (s.modJob j f).readFreed i r = (s.readFreed i r).modJob j f := fun f hf => by
    rw [State.modJob, State.modJob, readFreed_setJct, readFreed_jct, hj]
    simp only [Jobs.lowered, upd_upd]
    rw [show (fun q : JobSlot => { q with refs := q.refs - 1 }) ∘ f = f ∘ fun q => { q with refs := q.refs - 1 } from
      funext fun q => (hf q).symm]
  exact hslots _ fun _ => rfl

/-! ## A metered read returns (R81, R82) -/

theorem addDots_eq (s : State) (j : Fin 16) (p : Fin 4) (d : Nat) : s.addDots j p d =
    { s with jct := { s.jct with slots := s.jct.slots.set j { s.job j with
      counters := { (s.job j).counters with
        dots := (s.job j).counters.dots.set p (min (2 ^ 48 - 1) ((s.job j).counters.dots[p] + d)) } } } } := rfl

theorem returnRead_okay (s : State) (i : Fin 32) {r : ReadSlot} {lines up : List Line} {p : Fin 4} {depth : Nat} {j : Fin 16}
    (hm : r.meter = some (p, depth)) (hj : r.job = some j)
    (hup : upstreamLines r.view (s.keyOf r.job) r.addr lines = up) :
    let sums := markSums depth r.marks up
    s.returnRead i r true lines =
      (((((s.readFreed i r).settleMarks r.marks sums).addDots j p sums.sum).accrue p sums.sum).give
        (.response r.id .read true up)) := by
  intro sums
  have hmeter : s.meterReturn r up = ((s.settleMarks r.marks sums).addDots j p sums.sum).accrue p sums.sum := by
    simp only [State.meterReturn, hm, hj]
    rfl
  simp only [State.returnRead, hup, if_true, hmeter, State.releaseSlot_eq]
  refine congrArg (fun t : State => t.give (.response r.id .read true up)) ?_
  refine ((sided_accrue p sums.sum).readFreed _ i r).trans ?_
  rw [addDots_readFreed _ i r j p _ hj, settleMarks_readFreed]

theorem returnRead_error (s : State) (i : Fin 32) (r : ReadSlot) (lines : List Line) :
    s.returnRead i r false lines = ((s.readFreed i r).settleMarks r.marks (List.replicate r.marks.length 0)).give
      (.response r.id .read false (List.replicate r.len onesLine)) := by
  simp only [State.returnRead, State.meterLost, Bool.false_eq_true, if_false, State.releaseSlot_eq]
  exact congrArg (fun t : State => t.give (.response r.id .read false (List.replicate r.len onesLine)))
    (settleMarks_readFreed s i r _ _)

end Sys2Proof.Machine

namespace Sys2Proof.Proofs
open Sys2Proof Sys2Proof.Machine

/-- Settles O32: the slot's freeing and RMU's part may come in either order, and the response bears on no consequence. -/
theorem meteredReadReturns : Obligations.MeteredReadReturns := by
  unfold Obligations.MeteredReadReturns
  refine ⟨fun s => ⟨rfl, fun m ms d ds => rfl⟩, fun s j p d => addDots_eq s j p d, ?_⟩
  intro s i r lines up p depth j hp hr hi hm hj u
  have hexec : ∀ okay, exec (.readReturn (.slot i) okay lines) s = event (fun t => t.completeRead (.slot i) okay lines) s :=
    fun _ => rfl
  constructor
  · intro hlen hcame hplain sums v hv
    have hup : upstreamLines r.view (s.beginEvent.keyOf r.job) r.addr lines = up := upstreamLines_eq hcame fun hview => by
      obtain ⟨k, hk, hcipher⟩ := hplain hview
      exact ⟨j, k, hj, hk, hcipher⟩
    have hbody : s.beginEvent.completeRead (.slot i) true lines = v.give (.response r.id .read true up) :=
      (State.completeRead_slot s.beginEvent hr hi fun _ => hlen).trans (returnRead_okay s.beginEvent i hm hj hup)
    have hout : v.out = [] := (congrArg State.out ((sided_accrue p sums.sum).apply_eq _)).trans (by
      show ((u.settleMarks r.marks sums).addDots j p sums.sum).out = []
      rfl)
    rw [hexec]
    exact event_concluded hp _ hbody hv hout
  · intro v hv
    have hbody : s.beginEvent.completeRead (.slot i) false lines
        = v.give (.response r.id .read false (List.replicate r.len onesLine)) :=
      (State.completeRead_slot s.beginEvent (okay := false) hr hi fun h => nomatch h).trans (returnRead_error s.beginEvent i r lines)
    rw [hexec, event_quietly hp (by rw [hbody]; exact State.still_congr hv rfl rfl rfl rfl rfl rfl rfl rfl)
      (by rw [hbody]; rfl), hbody]
    rfl

end Sys2Proof.Proofs
end

