-- ==== Sys2Proof/Proofs/CommitCompletion.lean ====
section
/-!
The consequences of an event neither read nor change its outputs, so a commit that a completion brings about leaves the part as the
completion of the commit alone does. Settles O28.
-/

namespace Sys2Proof.Machine

/-! ## The consequences of an event and its outputs -/

/-- An operation after one that may use what was read before it. -/
theorem OutBlind.after {α : Type} {g : α → State → State} {f : State → State} (v : State → α)
    (hv : ∀ s o, v (s.withOut o) = v s) (hg : ∀ a, OutBlind (g a)) (hf : OutBlind f) : OutBlind fun s => g (v s) (f s) :=
  .choose (f := fun a s => g a (f s)) v hv fun a => (hg a).comp hf

theorem outBlind_hand (b : ReportBody) (tag : BitVec 16) : OutBlind fun s => s.hand b tag := fun _ _ => rfl

theorem outBlind_modJob (j : Fin 16) (f : JobSlot → JobSlot) : OutBlind fun s => s.modJob j f := fun _ _ => rfl

theorem outBlind_settle (r : PageRecord) : OutBlind fun s => s.settle true r := fun s o => by
  unfold State.settle
  cases r.isCharged <;> rfl

theorem outBlind_settleDue : OutBlind State.settleDue :=
  .after (g := fun due t => due.foldl (State.settle true) t)
    (f := fun s => ({ s with jct := { s.jct.mapContexts Context.dropDue with
      slots := (s.jct.mapContexts Context.dropDue).slots.map JobSlot.dropEmptyOwn } } : State).releaseAssembly
      ((s.jct.contexts.filter fun m => m.ctx.queue.any PageRecord.isDue).map Marked.job))
    (fun s => sortRecords s.jct.due) (fun _ _ => rfl) (fun _ => .foldl outBlind_settle _) fun _ _ => rfl

theorem outBlind_setRegions (g : Regions) : OutBlind fun s => s.setRegions g := fun s o => by
  simp only [State.setRegions_eq]
  rfl

theorem outBlind_completeCommit : OutBlind State.completeCommit := fun s o => by
  by_cases hdue : s.rgt.commitDue = true
  · obtain ⟨c, hc, hz⟩ := s.rgt.commitDue_iff.1 hdue
    have hregions : (s.withOut o).setRegions ((s.withOut o).carried c.changed)
        = (s.setRegions (s.carried c.changed)).withOut o := outBlind_setRegions (s.carried c.changed) s o
    have hdropped : (s.withOut o).droppedCount c.changed = s.droppedCount c.changed := rfl
    rw [s.completeCommit_some hc hz, (s.withOut o).completeCommit_some hc hz, hregions, hdropped]
    generalize s.setRegions (s.carried c.changed) = t
    rfl
  · have hnot : s.rgt.commitDue = false := by simpa using hdue
    have hout : (s.withOut o).completeCommit = s.withOut o := (s.withOut o).completeCommit_eq hnot
    rw [hout, s.completeCommit_eq hnot]

theorem outBlind_jobWiped (j : Fin 16) : OutBlind fun s => s.jobWiped j := by
  refine OutBlind.comp (f := fun s => if (s.job j).wipes = 0 ∧ (s.job j).state = .wiping then
    { (s.modJob j JobSlot.freed).hand (.jobFreed j (s.job j).nonce) with
      rci := s.rci.tally .drain fun n => { n with freed := n.freed + 1 } } else s) ?_
    (outBlind_modJob j fun q => { q with wipes := q.wipes - 1 })
  exact .ite (p := fun s => (s.job j).wipes = 0 ∧ (s.job j).state = .wiping) (fun _ _ => Iff.rfl) (fun _ _ => rfl) .id

theorem outBlind_finishWipe : OutBlind State.finishWipe := fun s o => by
  have hq : (s.withOut o).wpe = s.wpe := rfl
  unfold State.finishWipe
  rw [hq]
  cases s.wpe.queue with
  | nil => rfl
  | cons e rest =>
    by_cases hd : e.isDone = true
    · simp only [hd, if_true]
      cases e.origin with
      | explicit tag => rfl
      | job j n => exact outBlind_jobWiped j (({ s with wpe := { s.wpe with queue := rest } } : State).hand
          (.wipeDone e.number e.base e.count e.passes e.verify (.job j n) e.mismatch) 0) o
    · simp only [hd, Bool.false_eq_true, if_false]

theorem outBlind_tellEnded (u : Fin 256) (marked : Bool) : OutBlind fun s => s.tellEnded u marked := by
  have hace : OutBlind fun s : State => { s with ace := s.ace.jobEnded u } := fun _ _ => rfl
  have hnotice : OutBlind fun s : State => ({ s with ace := s.ace.jobEnded u } : State).closeNotice :=
    sided_closeNotice.outBlind.comp hace
  cases marked
  · exact hace
  · exact hnotice

theorem outBlind_reportSkipped (j : Fin 16) (a : Nat) (rs : List (Nat × Nat)) (c : SkipCause) :
    OutBlind fun s => s.reportSkipped j a rs c :=
  .ite (p := fun _ => rs.isEmpty = true) (fun _ _ => Iff.rfl) .id fun _ _ => rfl

/-- Steps 2, 3 and 6 of R53. -/
def State.leaveStart (s : State) (j : Fin 16) (app : List (Nat × Nat)) : State :=
  ({ s.appendWipes j app with keys := s.keys.set j none } : State).setRegions (s.rgt.invalidate fun e => e.names j)

theorem outBlind_leaveStart (j : Fin 16) (app : List (Nat × Nat)) : OutBlind fun s => s.leaveStart j app :=
  .after (g := fun g t => t.setRegions g) (f := fun s => { s.appendWipes j app with keys := s.keys.set j none })
    (fun s => s.rgt.invalidate fun e => e.names j) (fun _ _ => rfl) outBlind_setRegions fun _ _ => rfl

/-- The job's slot and its JOB_CLOSED report as it leaves (R53 steps 4 and 5). -/
def State.leaveSlot (s : State) (j : Fin 16) (q : JobSlot) (appended skipped : Nat) : State :=
  (s.modJob j fun q => q.left appended).hand
    (.jobClosed j q.nonce q.user q.counters appended skipped ((s.modJob j fun q => q.left appended).job j).state) q.closeTag

theorem outBlind_leaveSlot (j : Fin 16) (q : JobSlot) (appended skipped : Nat) :
    OutBlind fun s => s.leaveSlot j q appended skipped := fun _ _ => rfl

/-- A job that leaves CLOSING, with its slot and its ranges as they stood and the room that the Wipe Queue had (R53). -/
def State.leaveWith (s : State) (j : Fin 16) (q : JobSlot) (rs : List (Nat × Nat)) (app : List (Nat × Nat)) : State :=
  (((s.leaveStart j app).leaveSlot j q app.length (rs.length - app.length)).reportSkipped j app.length (rs.drop app.length)
    .overLimit).tellEnded q.user q.marked

theorem outBlind_leaveWith (j : Fin 16) (q : JobSlot) (rs app : List (Nat × Nat)) :
    OutBlind fun s => s.leaveWith j q rs app :=
  (outBlind_tellEnded q.user q.marked).comp ((outBlind_reportSkipped j app.length (rs.drop app.length) .overLimit).comp
    ((outBlind_leaveSlot j q app.length (rs.length - app.length)).comp (outBlind_leaveStart j app)))

theorem leaveClosing_eq (s : State) (j : Fin 16) : s.leaveClosing j =
    s.leaveWith j (s.job j) (s.wipeRanges j) ((s.wipeRanges j).take (min 32 s.wpe.room)) := rfl

theorem outBlind_leaveClosing (j : Fin 16) : OutBlind fun s => s.leaveClosing j := by
  rw [funext fun s => leaveClosing_eq s j]
  exact .choose (f := fun (x : JobSlot × List (Nat × Nat) × Nat) s => s.leaveWith j x.1 x.2.1 (x.2.1.take (min 32 x.2.2)))
    (fun s => (s.job j, s.wipeRanges j, s.wpe.room)) (fun _ _ => rfl) fun _ => outBlind_leaveWith j _ _ _

theorem outBlind_leaveAll : OutBlind State.leaveAll :=
  .foldl (fun j => .ite (p := fun s => s.mayLeave j = true) (fun _ _ => Iff.rfl) (outBlind_leaveClosing j) .id) _

theorem outBlind_startWipe : OutBlind State.startWipe :=
  .ite (p := fun s => s.wipeStartDue = true) (fun _ _ => Iff.rfl) (fun _ _ => rfl) .id

theorem outBlind_eraseJob (j : Fin 16) : OutBlind fun s => s.eraseJob j := fun s o =>
  outBlind_tellEnded (s.job j).user (s.job j).marked { s.modJob j JobSlot.freed with keys := s.keys.set j none } o

theorem outBlind_erase : OutBlind State.erase :=
  .after (g := fun js t => js.foldl State.eraseJob t) (f := fun s => s.setRegions (s.rgt.invalidate RegionEntry.jobBound))
    (fun s => s.jct.liveJobs) (fun _ _ => rfl) (fun _ => .foldl outBlind_eraseJob _)
    (.choose (f := fun g s => s.setRegions g) (fun s => s.rgt.invalidate RegionEntry.jobBound) (fun _ _ => rfl)
      outBlind_setRegions)

theorem outBlind_detachedAs (x : Standby) : OutBlind fun s => s.detachedAs x :=
  OutBlind.comp (f := fun s => { s with rci := { s.rci with standby := x } }) (fun _ _ => rfl) sided_detachAll.outBlind

theorem outBlind_eraseAndDetach (m : StandbyMode) (tag : BitVec 16) (n : StandbyTally) :
    OutBlind fun s => s.eraseAndDetach m tag n := by
  have hdetach : ∀ ended, OutBlind fun s =>
      s.detachedAs (.entering m .flush tag { n with ended := ended, bays := s.attachedBays }) := fun ended =>
    .choose (f := fun bays s => s.detachedAs (.entering m .flush tag { n with ended := ended, bays := bays }))
      (fun s => s.attachedBays) (fun _ _ => rfl) fun bays => outBlind_detachedAs _
  cases m with
  | retain =>
    rw [funext fun s => eraseAndDetach_retain s tag n]
    exact hdetach 0
  | erase =>
    rw [funext fun s => eraseAndDetach_erase s tag n]
    exact .after
      (g := fun k t => t.detachedAs (.entering .erase .flush tag { n with ended := k, bays := t.attachedBays }))
      (fun s => s.jct.liveJobs.length) (fun _ _ => rfl) hdetach outBlind_erase

theorem outBlind_drainEnd : OutBlind State.drainEnd := fun s o => by
  have hs : (s.withOut o).rci = s.rci := rfl
  unfold State.drainEnd
  rw [hs]
  cases s.rci.standby with
  | running => rfl
  | standby => rfl
  | entering m ph tag n =>
    cases ph with
    | drain => exact OutBlind.ite (p := fun s => s.drained = true) (fun _ _ => Iff.rfl) (outBlind_eraseAndDetach m tag n) .id s o
    | flush => rfl
    | post => rfl

theorem outBlind_flushTrigger : OutBlind State.flushTrigger := fun s o => by
  have hs : (s.withOut o).rci = s.rci := rfl
  have hace : (s.withOut o).ace = s.ace := rfl
  unfold State.flushTrigger
  rw [hs, hace]
  generalize s.ace.triggerAll allRecords = a
  cases s.rci.standby with
  | running => rfl
  | standby => rfl
  | entering m ph tag n => cases ph <;> rfl

theorem outBlind_flushEnd : OutBlind State.flushEnd := fun s o => by
  have hs : (s.withOut o).rci = s.rci := rfl
  unfold State.flushEnd
  rw [hs]
  cases s.rci.standby with
  | running => rfl
  | standby => rfl
  | entering m ph tag n =>
    cases ph with
    | drain => rfl
    | flush => exact OutBlind.ite (p := fun s => s.ace.flushed = true) (g := fun s => s) (f := fun s =>
        ({ s with ace := s.ace.clearCounts, rci := { s.rci with standby := .entering m .post tag n } } : State).hand
          (.standby m n) tag) (fun _ _ => Iff.rfl) (fun _ _ => rfl) .id s o
    | post => rfl

theorem outBlind_consequences : OutBlind State.consequences := fun s o => by
  unfold State.consequences State.standbyStep
  rw [outBlind_settleDue s o, outBlind_completeCommit _ o, outBlind_finishWipe _ o, outBlind_leaveAll _ o,
    outBlind_startWipe _ o, outBlind_drainEnd _ o, outBlind_flushTrigger _ o, outBlind_flushEnd _ o]

theorem outBlind_joinFault : OutBlind State.joinFault := fun s o => by
  have hs : (s.withOut o).rci = s.rci := rfl
  unfold State.joinFault
  rw [hs]
  cases s.rci.faultAt with
  | none => rfl
  | some time =>
    have hjoin : OutBlind fun s : State => { s.joinAt time ⟨.accountFault s.ace.faults, 0, false⟩ with
        ace := { s.ace with faults := .empty }
        rci := { (s.joinAt time ⟨.accountFault s.ace.faults, 0, false⟩).rci with faultAt := none } } :=
      .choose (f := fun fs s => { s.joinAt time ⟨.accountFault fs, 0, false⟩ with
          ace := { s.ace with faults := .empty }
          rci := { (s.joinAt time ⟨.accountFault fs, 0, false⟩).rci with faultAt := none } }) (fun s => s.ace.faults)
        (fun _ _ => rfl) fun fs s o => by
          simp only [outBlind_joinAt time ⟨.accountFault fs, 0, false⟩ s o]
          rfl
    exact OutBlind.ite (p := fun s => s.rci.hasEntry false = true) (fun _ _ => Iff.rfl) hjoin .id s o

theorem outBlind_joinHanded : OutBlind State.joinHanded := fun s o =>
  congrArg (fun t : State => { t with handed := [] }) (outBlind_joins s.handed s o)

theorem outBlind_postEnd : OutBlind State.postEnd := fun s o => by
  have hs : (s.withOut o).rci = s.rci := rfl
  unfold State.postEnd
  rw [hs]
  cases s.rci.standby with
  | running => rfl
  | standby => rfl
  | entering m ph tag n =>
    cases ph with
    | drain => rfl
    | flush => rfl
    | post => exact OutBlind.ite (p := fun s => s.posted = true) (g := fun s => s) (f := fun s =>
        { s with rci := { s.rci with standby := .standby } }) (fun _ _ => Iff.rfl) (fun _ _ => rfl) .id s o

theorem outBlind_wakeCheck : OutBlind State.wakeCheck :=
  .ite (p := fun s => s.rci.standby = .standby ∧ s.rci.wakePin = true) (fun _ _ => Iff.rfl) (fun _ _ => rfl) .id

theorem outBlind_endEvent : OutBlind State.endEvent := fun s o => by
  unfold State.endEvent State.joinAll
  rw [outBlind_consequences s o, outBlind_joinFault _ o, outBlind_joinHanded _ o, outBlind_postEnd _ o,
    outBlind_wakeCheck _ o]

/-! ## A completion that completes the commit -/

/-- A completion whose effect is `u` with one output brings about, in its event, what the completion of the commit brings about at
`u`. -/
theorem event_commits {s t u : State} {body : State → State} {o : Output} (hp : s.powered = true) (hu : u.powered = true)
    (hm : u.jct.metered = true) (hb : body s.beginEvent = u.beginEvent.give o) (ht : exec .commitCompletion u = .next t) :
    event body s = .next { t with out := [o] } := by
  have hcommit : event State.completeCommit u = .next t := ht
  rw [event_powered hu, ← u.beginEvent.endEvent_completeCommit hm] at hcommit
  have hend : (u.beginEvent.give o).endEvent = u.beginEvent.endEvent.withOut [o] := outBlind_endEvent u.beginEvent [o]
  rw [event_powered hp, hb, hend, Host.Outcome.next.inj hcommit]
  rfl

end Sys2Proof.Machine

namespace Sys2Proof.Proofs
open Sys2Proof Sys2Proof.Machine

/-- Settles O28: the Region Table after the completion in closed form, and for the completions `event_commits`. -/
theorem commitCompletes : Obligations.CommitCompletes := by
  unfold Obligations.CommitCompletes
  refine ⟨?_, ?_, ?_⟩
  · intro s c hp hc hz he hstill lost
    have hlost : s.isDropped = lost := funext fun e => by
      simp only [State.isDropped, JobState.bindable_eq, lost]
    have hexec := exec_commitCompletion s c hp hc hz he hstill
    rw [s.setRegions_eq] at hexec
    refine ⟨_, hexec, ?_, ?_, fun i hi => ⟨?_, ?_⟩, fun i hi => ⟨?_, ?_⟩, ?_, ?_, fun j => ?_, rfl, rfl, rfl, rfl⟩
    all_goals simp only [s.carried_eq]
    · simp [hi, State.committed, hlost]
    · simp [hi]
    · simp [hi]
    · simp [hi]
    · simp [HoldEntry.releaseCommit_eq]
    · simp only [State.droppedCount, hlost]
    · exact get_ofFn _ j
  · intro s t i r okay lines up hp hr hi hm hmarks hlen hcame hplain u hmet ht
    have hbody : s.beginEvent.completeRead (.slot i) okay lines = u.beginEvent.give (r.response okay up) :=
      (State.completeRead_slot s.beginEvent hr hi hlen).trans
        (State.returnRead_unmetered s.beginEvent i okay hm hmarks (upstreamLines_eq hcame hplain))
    exact event_commits (u := u) (body := fun t => t.completeRead (.slot i) okay lines) hp hp hmet hbody ht
  · intro s t i w okay hp hw hi hplain u hmet ht
    have hbody : s.beginEvent.completeWriteAt (.slot i) okay = u.beginEvent.give (.response w.id .write okay []) :=
      (State.completeWrite_slot s.beginEvent hw hi).trans (State.answerWrite_plain s.beginEvent i hplain)
    exact event_commits (u := u) (body := fun t => t.completeWriteAt (.slot i) okay) hp hp hmet hbody ht

end Sys2Proof.Proofs
end

