-- ==== Sys2Proof/Proofs/ResetStands.lean ====
section
/-!
What the forcing of the jobs at a link reset leaves standing: the path, the port, AMEM, the time and RMU; ACE's records but for
write-back triggers; and no page report is handed.
-/

namespace Sys2Proof.Machine

/-! ## ACE -/

/-- The fields of ACE that neither a trigger nor a posting changes, and queues that only grow at their tails. -/
structure Ace.Stands (a b : Ace) : Prop where
  classes : b.classes = a.classes
  tariff : b.tariff = a.tariff
  bays : b.bays = a.bays
  service : b.service = a.service
  lockout : b.lockout = a.lockout
  writing : b.writing = a.writing
  faults : b.faults = a.faults
  queue : a.queue <+: b.queue
  waiting : a.waiting <+: b.waiting

/-- A change of amounts, posting counts and write-back states. -/
theorem Ace.Stands.of_eq {a b : Ace} (h : b = { a with
    users := b.users, depts := b.depts, meters := b.meters, classesWb := b.classesWb, tariffWb := b.tariffWb
    baysWb := b.baysWb, serviceWb := b.serviceWb }) : a.Stands b where
  classes := (congrArg Ace.classes h :)
  tariff := (congrArg Ace.tariff h :)
  bays := (congrArg Ace.bays h :)
  service := (congrArg Ace.service h :)
  lockout := (congrArg Ace.lockout h :)
  writing := (congrArg Ace.writing h :)
  faults := (congrArg Ace.faults h :)
  queue := (congrArg (a.queue <+: ·.queue) h :).mpr List.prefix_rfl
  waiting := (congrArg (a.waiting <+: ·.waiting) h :).mpr List.prefix_rfl

theorem Ace.Stands.refl (a : Ace) : a.Stands a := .of_eq rfl

theorem Ace.stands_queued (a : Ace) (rs : List RecId) : a.Stands { a with queue := a.queue ++ rs } :=
  ⟨rfl, rfl, rfl, rfl, rfl, rfl, rfl, List.prefix_append _ _, List.prefix_rfl⟩

theorem Ace.stands_waiting (a : Ace) (rs : List RecId) : a.Stands { a with waiting := a.waiting ++ rs } :=
  ⟨rfl, rfl, rfl, rfl, rfl, rfl, rfl, List.prefix_rfl, List.prefix_append _ _⟩

theorem Ace.Stands.trans {a b c : Ace} (h : a.Stands b) (g : b.Stands c) : a.Stands c where
  classes := g.classes.trans h.classes
  tariff := g.tariff.trans h.tariff
  bays := g.bays.trans h.bays
  service := g.service.trans h.service
  lockout := g.lockout.trans h.lockout
  writing := g.writing.trans h.writing
  faults := g.faults.trans h.faults
  queue := h.queue.trans g.queue
  waiting := h.waiting.trans g.waiting

/-- The stored and reserved amounts and the posting counts of every record stand. -/
structure Ace.Posted (a b : Ace) : Prop where
  users : ∀ u : Fin 256, (b.users[u]).stored = (a.users[u]).stored ∧ (b.users[u]).reserved = (a.users[u]).reserved
    ∧ (b.users[u]).posting = (a.users[u]).posting
  depts : ∀ d : Fin 16, (b.depts[d]).stored = (a.depts[d]).stored ∧ (b.depts[d]).reserved = (a.depts[d]).reserved
    ∧ (b.depts[d]).posting = (a.depts[d]).posting
  meters : b.meters.stored = a.meters.stored ∧ b.meters.posting = a.meters.posting

theorem Ace.Posted.of_eq {a b : Ace} (hu : b.users = a.users) (hd : b.depts = a.depts) (hm : b.meters = a.meters) : a.Posted b :=
  ⟨fun u => by rw [hu]; exact ⟨rfl, rfl, rfl⟩, fun d => by rw [hd]; exact ⟨rfl, rfl, rfl⟩, by rw [hm]; exact ⟨rfl, rfl⟩⟩

theorem Ace.Posted.refl (a : Ace) : a.Posted a := .of_eq rfl rfl rfl

theorem Ace.Posted.trans {a b c : Ace} (h : a.Posted b) (g : b.Posted c) : a.Posted c where
  users u := ⟨(g.users u).1.trans (h.users u).1, (g.users u).2.1.trans (h.users u).2.1, (g.users u).2.2.trans (h.users u).2.2⟩
  depts d := ⟨(g.depts d).1.trans (h.depts d).1, (g.depts d).2.1.trans (h.depts d).2.1, (g.depts d).2.2.trans (h.depts d).2.2⟩
  meters := ⟨g.meters.1.trans h.meters.1, g.meters.2.trans h.meters.2⟩

/-- A change of a record's write-back state and of the queues. -/
theorem setWb_stands (a : Ace) (r : RecId) (w : WbState) : a.Stands (a.setWb r w) ∧ a.Posted (a.setWb r w) := by
  cases r with
  | user i =>
    refine ⟨.of_eq rfl, fun u => ?_, fun _ => ⟨rfl, rfl, rfl⟩, rfl, rfl⟩
    simp only [Ace.setWb, upd_get]
    split <;> exact ⟨rfl, rfl, rfl⟩
  | dept i =>
    refine ⟨.of_eq rfl, fun _ => ⟨rfl, rfl, rfl⟩, fun d => ?_, rfl, rfl⟩
    simp only [Ace.setWb, upd_get]
    split <;> exact ⟨rfl, rfl, rfl⟩
  | _ => exact ⟨.of_eq rfl, fun _ => ⟨rfl, rfl, rfl⟩, fun _ => ⟨rfl, rfl, rfl⟩, rfl, rfl⟩

theorem trigger_stands (a : Ace) (r : RecId) : a.Stands (a.trigger r) ∧ a.Posted (a.trigger r) := by
  unfold Ace.trigger
  split
  · split
    · obtain ⟨hs, hp⟩ := setWb_stands a r .queued
      refine ⟨hs.trans ?_, hp.trans (.of_eq rfl rfl rfl)⟩
      rw [← Ace.setWb_queue a r .queued]
      exact Ace.stands_queued _ _
    · obtain ⟨hs, hp⟩ := setWb_stands a r .waiting
      refine ⟨hs.trans ?_, hp.trans (.of_eq rfl rfl rfl)⟩
      rw [show a.waiting = (a.setWb r .waiting).waiting by cases r <;> rfl]
      exact Ace.stands_waiting _ _
  · exact ⟨.refl a, .refl a⟩

theorem triggerAll_stands (rs : List RecId) (a : Ace) : a.Stands (a.triggerAll rs) ∧ a.Posted (a.triggerAll rs) := by
  induction rs generalizing a with
  | nil => exact ⟨.refl a, .refl a⟩
  | cons r rs ih =>
    obtain ⟨hs, hp⟩ := trigger_stands a r
    obtain ⟨gs, gp⟩ := ih (a.trigger r)
    exact ⟨hs.trans gs, hp.trans gp⟩

theorem triggerIf_stands (a : Ace) (r : RecId) (p : Prop) [Decidable p] : a.Stands (if p then a.trigger r else a) := by
  split
  · exact (trigger_stands a r).1
  · exact .refl a

theorem countUser_stands (a : Ace) (u : Fin 256) : a.Stands (a.countUser u) :=
  Ace.Stands.trans (b := { a with users := upd a.users u fun r => { r with posting := postingUp r.posting } }) (.of_eq rfl)
    (triggerIf_stands _ _ _)

theorem countDept_stands (a : Ace) (d : Fin 16) : a.Stands (a.countDept d) :=
  Ace.Stands.trans (b := { a with depts := upd a.depts d fun r => { r with posting := postingUp r.posting } }) (.of_eq rfl)
    (triggerIf_stands _ _ _)

theorem countMeters_stands (a : Ace) : a.Stands a.countMeters :=
  Ace.Stands.trans (b := { a with meters := { a.meters with posting := postingUp a.meters.posting } }) (.of_eq rfl)
    (triggerIf_stands _ _ _)

theorem postDept_stands (a : Ace) (u : Fin 256) (x : Nat) : a.Stands (a.postDept u x) := by
  unfold Ace.postDept
  split
  · exact .refl a
  · exact Ace.Stands.trans (b := Ace.putDept a _ _) (.of_eq rfl) (countDept_stands _ _)

theorem putUser_stands (a : Ace) (u : Fin 256) (x : UserStored) : a.Stands (a.putUser u x) := .of_eq rfl

theorem modReserved_stands (a : Ace) (u : Fin 256) (f : Nat → Nat) : a.Stands (a.modReserved u f) := .of_eq rfl

theorem putMeters_stands (a : Ace) (m : Meters) : a.Stands (a.putMeters m) := .of_eq rfl

theorem postCharge_stands (a : Ace) (r : PageRecord) (p : PageCharge) : a.Stands (a.postCharge r p) :=
  (putUser_stands a r.user _).trans ((countUser_stands _ r.user).trans ((postDept_stands _ r.user p.charge).trans
    ((modReserved_stands _ r.user _).trans ((putMeters_stands _ _).trans (countMeters_stands _)))))

/-! ## The whole part -/

/-- A report of a settled page. -/
def ReportBody.isPage (b : ReportBody) : Bool :=
  match b with
  | .pageCharged _ => true
  | .pageAborted _ => true
  | _ => false

/-- RCI apart from its Report Queue. -/
def Rci.unqueued (r : Rci) : Rci := { r with queue := [], lost := 0, droppedMark := false, held := false }

/-- What stands from the end of the contexts to the end of a link reset's event. -/
structure Stands (s t : State) : Prop where
  path : t.path = s.path
  down : t.down = s.down
  rmu : t.rmu = s.rmu
  amem : t.amem = s.amem
  ms : t.ms = s.ms
  out : t.out = s.out
  openCounter : t.jct.openCounter = s.jct.openCounter
  marking : t.jct.marking = s.jct.marking
  stack : t.jct.stack = s.jct.stack
  departed : t.ccu.departed = s.ccu.departed
  rci : t.rci.unqueued = s.rci.unqueued
  ace : s.ace.Stands t.ace
  posted : s.ace.Posted t.ace
  handed : ∀ x ∈ t.handed, x ∈ s.handed ∨ x.body.isPage = false
  reports : ∀ x ∈ t.rci.queue, x ∈ s.rci.queue ∨ x.body.isPage = false ∨ ∃ h ∈ s.handed, x.body = h.body

/-- A change of entries, keys, job slots, bays, toner figures, wipes or draws. -/
theorem stands_parts (s : State) (g : Regions) (ks : Vector (Option Key) 16) (js : Vector JobSlot 16) (bs : Vector Bay 4)
    (v : Vector Figures 4) (w : Wpe) (n : Nat) :
    Stands s { s with
      rgt := g, keys := ks, jct := { s.jct with slots := js }, ccu := { s.ccu with bays := bs }, tmu := v, wpe := w, draws := n } :=
  ⟨rfl, rfl, rfl, rfl, rfl, rfl, rfl, rfl, rfl, rfl, rfl, .refl _, .refl _, fun _ h => .inl h, fun _ h => .inl h⟩

theorem stands_ace (s : State) {a : Ace} (hs : s.ace.Stands a) (hp : s.ace.Posted a) : Stands s { s with ace := a } :=
  ⟨rfl, rfl, rfl, rfl, rfl, rfl, rfl, rfl, rfl, rfl, rfl, hs, hp, fun _ h => .inl h, fun _ h => .inl h⟩

/-- A change of the handed reports and of the Report Queue. -/
theorem stands_reporting (s : State) {r : Rci} {hs : List Handed} (hr : r.unqueued = s.rci.unqueued)
    (hh : ∀ x ∈ hs, x ∈ s.handed ∨ x.body.isPage = false)
    (hq : ∀ x ∈ r.queue, x ∈ s.rci.queue ∨ x.body.isPage = false ∨ ∃ h ∈ s.handed, x.body = h.body) :
    Stands s { s with rci := r, handed := hs } :=
  ⟨rfl, rfl, rfl, rfl, rfl, rfl, rfl, rfl, rfl, rfl, hr, .refl _, .refl _, hh, hq⟩

theorem Stands.refl (s : State) : Stands s s := stands_parts s s.rgt s.keys s.jct.slots s.ccu.bays s.tmu s.wpe s.draws

theorem Stands.trans {s t u : State} (h : Stands s t) (g : Stands t u) : Stands s u where
  path := g.path.trans h.path
  down := g.down.trans h.down
  rmu := g.rmu.trans h.rmu
  amem := g.amem.trans h.amem
  ms := g.ms.trans h.ms
  out := g.out.trans h.out
  openCounter := g.openCounter.trans h.openCounter
  marking := g.marking.trans h.marking
  stack := g.stack.trans h.stack
  departed := g.departed.trans h.departed
  rci := g.rci.trans h.rci
  ace := h.ace.trans g.ace
  posted := h.posted.trans g.posted
  handed x hx := (g.handed x hx).elim (h.handed x) .inr
  reports x hx := by
    rcases g.reports x hx with hx | hx | ⟨y, hy, e⟩
    · exact h.reports x hx
    · exact .inr (.inl hx)
    · rcases h.handed y hy with hy | hy
      · exact .inr (.inr ⟨y, hy, e⟩)
      · exact .inr (.inl (e ▸ hy))

theorem Stands.ite {s t u : State} {p : Prop} [Decidable p] (ht : Stands s t) (hu : Stands s u) :
    Stands s (if p then t else u) := by
  split
  · exact ht
  · exact hu

theorem Stands.foldl {α : Type} {f : State → α → State} (hf : ∀ s a, Stands s (f s a)) (as : List α) (s : State) :
    Stands s (as.foldl f s) := by
  induction as generalizing s with
  | nil => exact .refl s
  | cons a as ih => exact (hf s a).trans (ih (f s a))

theorem stands_hand (s : State) (b : ReportBody) (tag : BitVec 16) (hb : b.isPage = false) : Stands s (s.hand b tag) := by
  refine stands_reporting s rfl (fun x hx => ?_) fun _ h => .inl h
  rcases List.mem_append.1 hx with hx | hx
  · exact .inl hx
  · rw [List.mem_singleton] at hx
    exact .inr (hx ▸ hb)

theorem stands_modPlane (s : State) (p : Fin 4) (f : Figures → Figures) : Stands s (s.modPlane p f) :=
  stands_parts s _ _ _ _ _ _ _

theorem stands_modBay (s : State) (p : Fin 4) (f : Bay → Bay) : Stands s (s.modBay p f) :=
  stands_parts s _ _ _ _ _ _ _

theorem stands_modJob (s : State) (j : Fin 16) (f : JobSlot → JobSlot) : Stands s (s.modJob j f) :=
  stands_parts s _ _ _ _ _ _ _

theorem stands_wpe (s : State) (w : Wpe) : Stands s { s with wpe := w } :=
  stands_parts s _ _ _ _ _ _ _

theorem stands_setRegions (s : State) (g : Regions) : Stands s (s.setRegions g) := by
  rw [s.setRegions_eq]
  exact stands_parts s _ _ _ _ _ _ _

theorem stands_keys (s : State) (ks : Vector (Option Key) 16) : Stands s { s with keys := ks } :=
  stands_parts s _ _ _ _ _ _ _

/-! ## The close notice (R158) -/

theorem stands_checkLow (s : State) (p : Fin 4) : Stands s (s.checkLow p) :=
  .ite ((stands_modPlane s p _).trans (stands_hand _ _ _ rfl)) (.refl s)

theorem stands_checkOut (s : State) (p : Fin 4) : Stands s (s.checkOut p) :=
  .ite ((stands_modPlane s p _).trans (stands_hand _ _ _ rfl)) (.refl s)

theorem stands_withdrawn (s : State) (p : Fin 4) : Stands s (s.withdrawn p) :=
  (stands_modPlane s p _).trans ((stands_checkLow _ p).trans (stands_checkOut _ p))

theorem stands_draw (s : State) : Stands s s.draw :=
  stands_parts s _ _ _ _ _ _ _

theorem stands_startRound (s : State) (p : Fin 4) : Stands s (s.startRound p) := by
  unfold State.startRound
  refine (stands_modPlane s p Figures.startRound).trans (Stands.ite (Stands.ite (stands_modBay _ p _) ?_) (stands_withdrawn _ p))
  exact (stands_modBay _ p _).trans (stands_draw _)

theorem stands_debitTest (s : State) (p : Fin 4) : Stands s (s.debitTest p) :=
  .ite (stands_startRound s p) (.ite (stands_modPlane s p _) (.refl s))

theorem stands_tmu (s : State) (v : Vector Figures 4) : Stands s { s with tmu := v } :=
  stands_parts s _ _ _ _ _ _ _

theorem stands_closeNotice (s : State) : Stands s s.closeNotice :=
  (stands_tmu s _).trans (.foldl stands_debitTest _ _)

theorem stands_jobEnded (s : State) (u : Fin 256) : Stands s { s with ace := s.ace.jobEnded u } := by
  obtain ⟨hs, hp⟩ := triggerAll_stands (.user u :: ((s.ace.users[u]).stored.department.map RecId.dept).toList ++ [.meters]) s.ace
  exact stands_ace s hs hp

theorem stands_tellEnded (s : State) (u : Fin 256) (marked : Bool) : Stands s (s.tellEnded u marked) := by
  unfold State.tellEnded
  exact .ite ((stands_jobEnded s u).trans (stands_closeNotice _)) (stands_jobEnded s u)

/-! ## The forced jobs and the end of the event -/

theorem stands_reportSkipped (s : State) (j : Fin 16) (a : Nat) (rs : List (Nat × Nat)) (c : SkipCause) :
    Stands s (s.reportSkipped j a rs c) := .ite (.refl s) (stands_hand s _ _ rfl)

theorem stands_forceWipes (s : State) (j : Fin 16) : Stands s (s.forceWipes j) :=
  (stands_wpe s _).trans ((stands_modJob _ j _).trans (stands_reportSkipped _ j _ _ _))

theorem stands_clearKeysAndRegions (s : State) : Stands s s.clearKeysAndRegions :=
  (stands_keys s _).trans (stands_setRegions _ _)

theorem stands_firstPolls (s : State) : Stands s s.firstPolls :=
  stands_parts s _ _ _ _ _ _ _

theorem tally_running (r : Rci) (ph : StandbyPhase) (f : StandbyTally → StandbyTally) (h : r.standby = .running) :
    r.tally ph f = r := by
  unfold Rci.tally
  rw [h]

theorem stands_jobWiped (s : State) (j : Fin 16) (h : s.rci.standby = .running) : Stands s (s.jobWiped j) := by
  unfold State.jobWiped
  refine (stands_modJob s j fun q => { q with wipes := q.wipes - 1 }).trans (Stands.ite ?_ (.refl _))
  simp only [tally_running _ _ _ (show (((s.modJob j fun q => { q with wipes := q.wipes - 1 }).modJob j JobSlot.freed).hand
    (.jobFreed j ((s.modJob j fun q => { q with wipes := q.wipes - 1 }).job j).nonce)).rci.standby = .running from h)]
  exact (stands_modJob _ j _).trans (stands_hand _ _ _ rfl)

theorem stands_finishWipe (s : State) (h : s.rci.standby = .running) : Stands s s.finishWipe := by
  unfold State.finishWipe
  split
  · exact .refl s
  · next e rest _ =>
    have hdone : ∀ tag, Stands s (({ s with wpe := { s.wpe with queue := rest } } : State).hand
        (.wipeDone e.number e.base e.count e.passes e.verify e.origin e.mismatch) tag) := fun tag =>
      (stands_wpe s _).trans (stands_hand _ _ tag rfl)
    split
    · split
      · exact hdone _
      · exact (hdone _).trans (stands_jobWiped _ _ h)
    · exact .refl s

theorem stands_startWipe (s : State) : Stands s s.startWipe := .ite (stands_wpe s _) (.refl s)

theorem mem_joinOrder {hs : List Handed} {h : Handed} (hm : h ∈ joinOrder hs) : h ∈ hs := by
  simp only [joinOrder, List.mem_flatMap, List.mem_filter] at hm
  obtain ⟨-, -, hm, -⟩ := hm
  exact hm

theorem stands_joinOne (s : State) (h : Handed) : Stands { s with handed := h :: s.handed } (s.joinOne h) := by
  rcases s.joinAt_cases s.ms h with ⟨-, e⟩ | ⟨-, e⟩
  · rw [State.joinOne, e]
    refine stands_reporting { s with handed := h :: s.handed } rfl (fun x hx => .inl (List.mem_cons_of_mem h hx)) fun x hx => ?_
    rcases List.mem_append.1 hx with hx | hx
    · exact .inl hx
    · rw [List.mem_singleton] at hx
      exact .inr (.inr ⟨h, List.mem_cons_self, by rw [hx]⟩)
  · rw [State.joinOne, e]
    exact stands_reporting { s with handed := h :: s.handed } rfl (fun x hx => .inl (List.mem_cons_of_mem h hx)) fun _ hx => .inl hx

/-- A report that was handed before is handed among the others. -/
theorem Stands.cons_handed {s t : State} (ht : Stands s t) {h : Handed} (hh : h ∈ s.handed) :
    Stands s { t with handed := h :: t.handed } where
  path := ht.path
  down := ht.down
  rmu := ht.rmu
  amem := ht.amem
  ms := ht.ms
  out := ht.out
  openCounter := ht.openCounter
  marking := ht.marking
  stack := ht.stack
  departed := ht.departed
  rci := ht.rci
  ace := ht.ace
  posted := ht.posted
  handed x hx := (List.mem_cons.1 hx).elim (fun e => .inl (e ▸ hh)) (ht.handed x)
  reports := ht.reports

theorem stands_joinHanded (s : State) : Stands s s.joinHanded := by
  have hjoin : ∀ (hs : List Handed) (t : State), (∀ h ∈ hs, h ∈ s.handed) → Stands s t → Stands s (hs.foldl State.joinOne t) := by
    intro hs
    induction hs with
    | nil => exact fun t _ ht => ht
    | cons h hs ih =>
      intro t hmem ht
      have hhanded : Stands s { t with handed := h :: t.handed } := ht.cons_handed (hmem h List.mem_cons_self)
      exact ih _ (fun x hx => hmem x (List.mem_cons_of_mem h hx)) (hhanded.trans (stands_joinOne t h))
  have hall := hjoin (joinOrder s.handed) s (fun h hm => mem_joinOrder hm) (.refl s)
  exact hall.trans (stands_reporting _ rfl (fun _ h => nomatch h) fun _ h => .inl h)

end Sys2Proof.Machine
end

