-- ==== Sys2Proof/Proofs/ResetJobs.lean ====
section
/-!
What each step of R64 does at a link reset: to the contexts, the wipes and the job slots, and what comes after the forced states.
-/

namespace Sys2Proof.Machine

/-! ## The trackers and the contexts (R64 steps 1 to 3) -/

/-- What the settling of records at a link reset changes: ACE, and the jobs' counters. -/
structure SettlesOnly (s t : State) : Prop where
  rest : t = { s with ace := t.ace, jct := { s.jct with slots := t.jct.slots } }
  jobs : ∀ j, t.job j = { s.job j with counters := (t.job j).counters }
  ace : s.ace.Stands t.ace

theorem SettlesOnly.refl (s : State) : SettlesOnly s s := ⟨rfl, fun _ => rfl, .refl _⟩

theorem SettlesOnly.trans {s t u : State} (h : SettlesOnly s t) (g : SettlesOnly t u) : SettlesOnly s u where
  rest := by
    have hu := g.rest
    rw [h.rest] at hu
    exact hu
  jobs j := by
    have hu := g.jobs j
    rw [h.jobs j] at hu
    exact hu
  ace := h.ace.trans g.ace

/-- The counters of a job and ACE after the settling of a record. -/
theorem settlesOnly_counters (s : State) (a : Ace) (j : Fin 16) (f : JobCounters → JobCounters) (ha : s.ace.Stands a) :
    SettlesOnly s (({ s with ace := a } : State).modJob j fun q => { q with counters := f q.counters }) where
  rest := rfl
  jobs k := by
    rw [State.modJob_job]
    split
    · next e =>
      subst e
      rfl
    · rfl
  ace := ha

theorem settlesOnly_settle (s : State) (r : PageRecord) : SettlesOnly s (s.settle false r) := by
  unfold State.settle
  simp only [Bool.false_eq_true, if_false]
  split
  · exact settlesOnly_counters s _ r.job (fun c => c.post (s.price r).charge (s.price r).colour) (postCharge_stands _ _ _)
  · exact settlesOnly_counters s _ r.job (fun c => { c with aborted := sat32 (c.aborted + 1) }) (modReserved_stands _ _ _)

theorem settlesOnly_recordsSettled (s : State) : SettlesOnly s s.recordsSettled := by
  have hall : ∀ (rs : List PageRecord) (t : State), SettlesOnly t (rs.foldl (State.settle false) t) := by
    intro rs
    induction rs with
    | nil => exact .refl
    | cons r rs ih => exact fun t => (settlesOnly_settle t r).trans (ih _)
  exact hall _ s

/-- The part after the contexts have ended: only ACE and the jobs' counters are not given here. -/
theorem endContexts_rest (s : State) : s.endContexts = { s with
    ace := s.endContexts.ace
    jct := { s.jct with marking := none, stack := [], slots := s.endContexts.jct.slots } } := by
  have h := (settlesOnly_recordsSettled s).rest
  rw [endContexts_eq]
  exact congrArg State.discardContexts h

theorem endContexts_job (s : State) (j : Fin 16) :
    ∃ c, s.freeTrackers.endContexts.job j = { s.job j with own := none, refs := 0, counters := c } := by
  refine ⟨(s.freeTrackers.recordsSettled.job j).counters, ?_⟩
  rw [endContexts_eq, discardContexts_job, (settlesOnly_recordsSettled s.freeTrackers).jobs j, freeTrackers_job]

/-! ## The wipes of the forced jobs (R64 step 4) -/

/-- The wipe ranges of these jobs, in order, each with its job. -/
def State.forcedRanges (s : State) (js : List (Fin 16)) : List (Fin 16 × Nat × Nat) :=
  js.flatMap fun j => (s.wipeRanges j).map fun r => (j, r.1, r.2)

/-- One range of a forced job joins the Wipe Queue. -/
def State.joinForced (s : State) (w : Wpe) (x : Fin 16 × Nat × Nat) : Wpe :=
  w.join x.2.1 x.2.2 (s.job x.1).passes (s.job x.1).verify (.job x.1 (s.job x.1).nonce)

/-- The entry of the forced range `x` that is the `k`-th to join a queue whose counter stood at `c`. -/
def State.forcedEntry (s : State) (c : BitVec 32) (k : Nat) (x : Fin 16 × Nat × Nat) : WipeEntry :=
  ⟨c + BitVec.ofNat 32 (k + 1), x.2.1, x.2.2, (s.job x.1).passes, (s.job x.1).verify, .job x.1 (s.job x.1).nonce, .waiting, 0⟩

theorem joinForced_all (s : State) (xs : List (Fin 16 × Nat × Nat)) (w : Wpe) : xs.foldl s.joinForced w =
    { queue := w.queue ++ xs.mapIdx (s.forcedEntry w.counter), counter := w.counter + BitVec.ofNat 32 xs.length } := by
  induction xs generalizing w with
  | nil => simp
  | cons x xs ih =>
    have hnext : (s.joinForced w x).counter = w.counter + BitVec.ofNat 32 1 := rfl
    have hentry : s.forcedEntry (s.joinForced w x).counter = fun k => s.forcedEntry w.counter (k + 1) := by
      funext k y
      simp only [State.forcedEntry, hnext, BitVec.add_assoc, ← BitVec.ofNat_add]
      rw [Nat.add_comm 1 (k + 1)]
    rw [List.foldl_cons, ih, hentry, List.mapIdx_cons, hnext, BitVec.add_assoc, ← BitVec.ofNat_add, List.length_cons,
      Nat.add_comm 1 xs.length]
    simp [State.joinForced, Wpe.join, State.forcedEntry]

theorem reportSkipped_rest (s : State) (j : Fin 16) (a : Nat) (rs : List (Nat × Nat)) (c : SkipCause) :
    s.reportSkipped j a rs c = { s with handed := (s.reportSkipped j a rs c).handed } := by
  unfold State.reportSkipped
  split <;> rfl

/-- What the wipes of one forced job do. -/
theorem forceWipes_one (s : State) (j : Fin 16) :
    (s.forceWipes j).wpe = (((s.wipeRanges j).map fun r => (j, r.1, r.2)).take s.wpe.room).foldl s.joinForced s.wpe
    ∧ (∀ k, (s.forceWipes j).job k =
      if k = j then { s.job k with wipes := ((s.wipeRanges j).take s.wpe.room).length } else s.job k)
    ∧ (s.forceWipes j).rgt = s.rgt ∧ (s.forceWipes j).tmu = s.tmu ∧ (s.forceWipes j).ccu = s.ccu
    ∧ (s.forceWipes j).ace = s.ace := by
  have hrest : s.forceWipes j = { (s.appendWipes j ((s.wipeRanges j).take s.wpe.room)).modJob j fun q =>
      { q with wipes := ((s.wipeRanges j).take s.wpe.room).length } with handed := (s.forceWipes j).handed } :=
    reportSkipped_rest _ _ _ _ _
  refine ⟨(congrArg State.wpe hrest).trans ?_, fun k => (congrArg (fun t => t.job k) hrest).trans ?_,
    (congrArg State.rgt hrest :), (congrArg State.tmu hrest :), (congrArg State.ccu hrest :), (congrArg State.ace hrest :)⟩
  · rw [← List.map_take, List.foldl_map]
    rfl
  · exact State.modJob_job _ _ _ _

theorem joinForced_room (s : State) (xs : List (Fin 16 × Nat × Nat)) (w : Wpe) :
    (xs.foldl s.joinForced w).room = w.room - xs.length := by
  rw [joinForced_all]
  simp only [Wpe.room, List.length_append, List.length_mapIdx]
  omega

/-- What the wipes of the forced jobs do: their ranges join in ascending slot order as far as the queue has room, and each job keeps
the number of its own that joined. -/
theorem forceWipes_all (js : List (Fin 16)) (s : State) (hn : js.Nodup) :
    let joined := (s.forcedRanges js).take s.wpe.room
    let t := js.foldl State.forceWipes s
    t.wpe = joined.foldl s.joinForced s.wpe
    ∧ (∀ k, t.job k = if k ∈ js then { s.job k with wipes := (joined.filter fun x => x.1 == k).length } else s.job k)
    ∧ t.rgt = s.rgt ∧ t.tmu = s.tmu ∧ t.ccu = s.ccu ∧ t.ace = s.ace := by
  induction js generalizing s with
  | nil =>
    have hnone : (s.forcedRanges []).take s.wpe.room = [] := List.take_nil
    intro joined t
    exact ⟨by rw [show joined = [] from hnone]; rfl, fun _ => rfl, rfl, rfl, rfl, rfl⟩
  | cons j js ih =>
    intro joined t
    obtain ⟨hj, hn⟩ := List.nodup_cons.1 hn
    obtain ⟨hwpe, hjob, hrgt, htmu, hccu, hace⟩ := forceWipes_one s j
    obtain ⟨iwpe, ijob, irgt, itmu, iccu, iace⟩ := ih (s.forceWipes j) hn
    have hfields : ∀ k, ((s.forceWipes j).job k).passes = (s.job k).passes ∧ ((s.forceWipes j).job k).verify = (s.job k).verify
        ∧ ((s.forceWipes j).job k).nonce = (s.job k).nonce := fun k => by
      rw [hjob]
      split
      · next e =>
        subst e
        exact ⟨rfl, rfl, rfl⟩
      · exact ⟨rfl, rfl, rfl⟩
    have hjoin : (s.forceWipes j).joinForced = s.joinForced := by
      funext w x
      simp only [State.joinForced, hfields]
    have hranges : (s.forceWipes j).forcedRanges js = s.forcedRanges js := by
      simp only [State.forcedRanges, State.wipeRanges, hfields, hrgt]
    have hroom : (s.forceWipes j).wpe.room = s.wpe.room - ((s.wipeRanges j).map fun r => (j, r.1, r.2)).length := by
      rw [hwpe, joinForced_room, List.length_take]
      omega
    have hjoined : joined = ((s.wipeRanges j).map fun r => (j, r.1, r.2)).take s.wpe.room
        ++ (s.forcedRanges js).take (s.forceWipes j).wpe.room := by
      rw [hroom]
      exact List.take_append
    have hown : ∀ k, (((s.wipeRanges j).map fun r => (j, r.1, r.2)).take s.wpe.room).filter (fun x => x.1 == k)
        = if k = j then ((s.wipeRanges j).map fun r => (j, r.1, r.2)).take s.wpe.room else [] := fun k => by
      rw [← List.map_take, List.filter_map]
      split
      · next e =>
        subst e
        rw [List.filter_eq_self.2 fun a _ => by simp]
      · next e => rw [List.filter_eq_nil_iff.2 fun a _ => by simpa using Ne.symm e, List.map_nil]
    have hothers : ∀ n, ((s.forcedRanges js).take n).filter (fun x => x.1 == j) = [] := fun n => by
      refine List.filter_eq_nil_iff.2 fun x hx => ?_
      have hmem := List.mem_of_mem_take hx
      simp only [State.forcedRanges, List.mem_flatMap, List.mem_map] at hmem
      obtain ⟨i, hi, r, -, rfl⟩ := hmem
      simpa using fun e : i = j => hj (e ▸ hi)
    rw [hjoin, hranges, hwpe] at iwpe
    rw [hranges] at ijob
    refine ⟨?_, fun k => ?_, irgt.trans hrgt, itmu.trans htmu, iccu.trans hccu, iace.trans hace⟩
    · rw [hjoined, List.foldl_append]
      rw [hwpe]
      exact iwpe
    · refine (ijob k).trans ?_
      rw [hjoined, List.filter_append, hown]
      by_cases hk : k = j
      · subst hk
        rw [if_neg hj, hjob, if_pos rfl, if_pos rfl, if_pos List.mem_cons_self, hothers, List.append_nil, ← List.map_take,
          List.length_map]
      · rw [hjob, if_neg hk, if_neg hk, List.nil_append]
        simp only [List.mem_cons, hk, false_or]

/-! ## The forced states and what comes after them (R64 steps 5 to 7) -/

/-- What tells ACE and TMU leaves the jobs, the keys, the entries and the wipes as they are. -/
structure Aside (s t : State) : Prop where
  keys : t.keys = s.keys
  rgt : t.rgt = s.rgt
  jct : t.jct = s.jct
  wpe : t.wpe = s.wpe

theorem Aside.refl (s : State) : Aside s s := ⟨rfl, rfl, rfl, rfl⟩

theorem Aside.trans {s t u : State} (h : Aside s t) (g : Aside t u) : Aside s u :=
  ⟨g.keys.trans h.keys, g.rgt.trans h.rgt, g.jct.trans h.jct, g.wpe.trans h.wpe⟩

theorem Aside.foldl {α : Type} {f : State → α → State} (hf : ∀ s a, Aside s (f s a)) (as : List α) (s : State) :
    Aside s (as.foldl f s) := by
  induction as generalizing s with
  | nil => exact .refl s
  | cons a as ih => exact (hf s a).trans (ih (f s a))

theorem Sided.aside {f : State → State} (hf : Sided f) (s : State) : Aside s (f s) :=
  ⟨(congrArg State.keys (hf.apply_eq s) :), (congrArg State.rgt (hf.apply_eq s) :), (congrArg State.jct (hf.apply_eq s) :),
    (congrArg State.wpe (hf.apply_eq s) :)⟩

theorem aside_tellEnded (s : State) (u : Fin 256) (marked : Bool) : Aside s (s.tellEnded u marked) := by
  unfold State.tellEnded
  split
  · exact Aside.trans (t := { s with ace := s.ace.jobEnded u }) ⟨rfl, rfl, rfl, rfl⟩ (sided_closeNotice.aside _)
  · exact ⟨rfl, rfl, rfl, rfl⟩

/-- The joining of reports changes RCI alone. -/
theorem joinOnes_leave (hs : List Handed) (s : State) : ∃ r, hs.foldl State.joinOne s = { s with rci := r } := by
  induction hs generalizing s with
  | nil => exact ⟨s.rci, rfl⟩
  | cons h hs ih =>
    obtain ⟨q, hq⟩ : ∃ q, s.joinOne h = { s with rci := q } := by
      rcases s.joinAt_cases s.ms h with ⟨-, e⟩ | ⟨-, e⟩
      · exact ⟨_, e⟩
      · exact ⟨_, e⟩
    obtain ⟨r, hr⟩ := ih (s.joinOne h)
    exact ⟨r, by rw [List.foldl_cons, hr, hq]⟩

theorem joinHanded_leaves (s : State) : ∃ r, s.joinHanded = { s with rci := r, handed := [] } := by
  obtain ⟨r, h⟩ := joinOnes_leave (joinOrder s.handed) s
  exact ⟨r, by rw [State.joinHanded, h]⟩

theorem aside_joinHanded (s : State) : Aside s s.joinHanded := by
  obtain ⟨r, h⟩ := joinHanded_leaves s
  rw [h]
  exact ⟨rfl, rfl, rfl, rfl⟩

theorem liveJobs_nodup (j : Jobs) : j.liveJobs.Nodup := (List.nodup_finRange 16).filter _

theorem mem_liveJobs (j : Jobs) (i : Fin 16) : i ∈ j.liveJobs ↔ (j.slots[i]).state.live = true := by
  simp [Jobs.liveJobs]

theorem forceStates_job (js : List (Fin 16)) (s : State) (hn : js.Nodup) (k : Fin 16) :
    (js.foldl State.forceState s).job k = if k ∈ js then (s.job k).forced else s.job k := by
  have h := State.foldl_modJob (fun _ => JobSlot.forced) js s hn
  exact (congrArg (fun t : State => t.job k) h).trans (get_ofFn _ k)

theorem forceStates_rest (js : List (Fin 16)) (s : State) (hn : js.Nodup) :
    js.foldl State.forceState s = { s with jct := { s.jct with slots := (js.foldl State.forceState s).jct.slots } } := by
  have h := State.foldl_modJob (fun _ => JobSlot.forced) js s hn
  exact h.trans (by rw [show js.foldl State.forceState s = _ from h])

/-! ## A wipe that is done (R173) and one that starts (R170) -/

/-- What a job slot keeps when a wipe of its job is done. -/
structure JobSlot.Wiped (q r : JobSlot) : Prop where
  state : r.state = q.state ∨ r.state = .free
  own : q.own = none → r.own = none
  refs : q.refs = 0 → r.refs = 0

theorem JobSlot.Wiped.refl (q : JobSlot) : q.Wiped q := ⟨.inl rfl, fun h => h, fun h => h⟩

/-- The completion of a wipe leaves keys and entries as they are, and a job as it was or FREE. -/
structure WipeDone (s t : State) : Prop where
  keys : t.keys = s.keys
  rgt : t.rgt = s.rgt
  jobs : ∀ j, (s.job j).Wiped (t.job j)
  standby : s.rci.standby = .running → t.rci.standby = .running

theorem wipeDone_jobWiped (s : State) (j : Fin 16) : WipeDone s (s.jobWiped j) := by
  unfold State.jobWiped
  simp only
  split
  · refine ⟨rfl, rfl, fun k => ?_, fun h => ?_⟩
    · show (s.job k).Wiped (((s.modJob j fun q => { q with wipes := q.wipes - 1 }).modJob j JobSlot.freed).job k)
      rw [State.modJob_job, State.modJob_job]
      split
      · exact ⟨.inr rfl, fun _ => rfl, fun _ => rfl⟩
      · exact .refl _
    · rw [tally_running _ _ _ (by exact h)]
      exact h
  · refine ⟨rfl, rfl, fun k => ?_, fun h => h⟩
    rw [State.modJob_job]
    split
    · next e =>
      subst e
      exact ⟨.inl rfl, fun h => h, fun h => h⟩
    · exact .refl _

theorem wipeDone_finishWipe (s : State) : WipeDone s s.finishWipe := by
  unfold State.finishWipe
  split
  · exact ⟨rfl, rfl, fun _ => .refl _, fun h => h⟩
  · next e rest _ =>
    split
    · split
      · exact ⟨rfl, rfl, fun _ => .refl _, fun h => h⟩
      · next j _ _ =>
        have h := wipeDone_jobWiped (({ s with wpe := { s.wpe with queue := rest } } : State).hand
          (.wipeDone e.number e.base e.count e.passes e.verify e.origin e.mismatch) 0) j
        exact ⟨h.keys, h.rgt, h.jobs, h.standby⟩
    · exact ⟨rfl, rfl, fun _ => .refl _, fun h => h⟩

/-- The head entry after a start, if it starts. -/
theorem startWipe_rest (s : State) : s.startWipe = s ∨ ∃ e rest, s.wpe.queue = e :: rest ∧
    s.startWipe = { s with wpe := { s.wpe with queue := { e with progress := passStart 1 e.base } :: rest } } := by
  unfold State.startWipe
  split
  · next h =>
    cases hq : s.wpe.queue with
    | nil => simp [State.wipeStartDue, hq] at h
    | cons e rest => exact .inr ⟨e, rest, rfl, by simp only [Wpe.modHead, hq]⟩
  · exact .inl rfl

theorem startWipe_leaves (s : State) : ∃ w, s.startWipe = { s with wpe := w } := by
  rcases startWipe_rest s with h | ⟨_, _, -, h⟩
  · exact ⟨s.wpe, h⟩
  · exact ⟨_, h⟩

/-- The end of a wipe reaches WPE, the job's slot, RCI and the reports handed, and nothing else. -/
theorem finishWipe_leaves (s : State) : ∃ w k r hs, s.finishWipe = { s with wpe := w, jct := k, rci := r, handed := hs } := by
  have hwiped : ∀ (t : State) j, ∃ k r hs, t.jobWiped j = { t with jct := k, rci := r, handed := hs } := fun t j => by
    unfold State.jobWiped
    simp only
    split
    · exact ⟨_, _, _, rfl⟩
    · exact ⟨_, t.rci, t.handed, rfl⟩
  unfold State.finishWipe
  split
  · exact ⟨s.wpe, s.jct, s.rci, s.handed, rfl⟩
  · next e rest _ =>
    split
    · split
      · exact ⟨_, s.jct, s.rci, _, rfl⟩
      · next j _ _ =>
        obtain ⟨k, r, hs, h⟩ := hwiped (({ s with wpe := { s.wpe with queue := rest } } : State).hand
          (.wipeDone e.number e.base e.count e.passes e.verify e.origin e.mismatch) 0) j
        exact ⟨_, k, r, hs, h⟩
    · exact ⟨s.wpe, s.jct, s.rci, s.handed, rfl⟩

end Sys2Proof.Machine
end

