-- ==== Sys2Proof/Proofs/LinkReset.lean ====
section
/-!
The event of a link reset as a whole. Settles O11.
-/

namespace Sys2Proof.Machine

/-! ## The end of the event -/

theorem startWipe_rci (s : State) : s.startWipe.rci = s.rci := by
  obtain ⟨w, h⟩ := startWipe_leaves s
  rw [h]

/-- Where no record, commit or leaving is due in a running part, the event of a link reset ends with the Wipe Queue's steps and the
joining of its reports. -/
theorem endReset_eq (s : State) (hm : s.jct.metered = true) (hc : s.rgt.commit = none)
    (hl : ∀ j, (s.job j).state.live = false) (hr : s.rci.standby = .running) :
    s.endReset = s.finishWipe.startWipe.joinHanded := by
  have hw := wipeDone_finishWipe s
  have hleave : s.finishWipe.leaveAll = s.finishWipe := s.finishWipe.leaveAll_eq fun j => by
    have hstate : (s.finishWipe.job j).state ≠ .closing := fun e => by
      rcases (hw.jobs j).state with h | h
      · have := hl j
        rw [← h, e] at this
        cases this
      · rw [e] at h
        cases h
    simp [State.mayLeave, hstate]
  have hrun : s.finishWipe.startWipe.rci.standby = .running := by
    rw [startWipe_rci]
    exact hw.standby hr
  have hjoin : s.finishWipe.startWipe.joinHanded.rci.standby = .running :=
    (State.foldl_joinOne_standby _ _).trans hrun
  rw [State.endReset, State.consequences, s.settleDue_eq hm, s.completeCommit_eq (commitDue_of_none hc), hleave,
    State.standbyStep_running _ hrun, State.postEnd_running _ hjoin, State.wakeCheck_running _ hjoin]

/-! ## The steps by name -/

/-- The part at a link reset after steps 1 to 3 of R64. -/
def State.contextsEnded (s : State) (straps : BitVec 2) : State := (s.pathAndRciReset straps).freeTrackers.endContexts

/-- The part at a link reset after step 6 of R64. -/
def State.jobsForced (s : State) (straps : BitVec 2) : State :=
  s.jct.liveJobs.foldl State.forceState (s.jct.liveJobs.foldl State.forceWipes (s.contextsEnded straps)).clearKeysAndRegions

/-- The part after the forcing of the jobs, ACE and TMU told (R64 step 7). -/
def State.jobsTold (s : State) (straps : BitVec 2) : State :=
  (s.jct.liveJobs.map fun j => (j, (s.job j).marked)).foldl State.forceTellAs (s.jobsForced straps)

/-- The part after a link reset's event. -/
def State.afterReset (s : State) (straps : BitVec 2) : State := (s.linkReset straps).finishWipe.startWipe.joinHanded

theorem linkReset_steps (s : State) (straps : BitVec 2) : s.linkReset straps =
    if s.rci.standby.baysDetached then (s.jobsTold straps).firstPolls else s.jobsTold straps := rfl

/-! ## After the contexts (R64 steps 1 to 3) -/

theorem contextsEnded_rest (s : State) (straps : BitVec 2) : s.contextsEnded straps =
    { (s.pathAndRciReset straps).freeTrackers with
      ace := (s.contextsEnded straps).ace
      jct := { (s.pathAndRciReset straps).freeTrackers.jct with
        marking := none, stack := [], slots := (s.contextsEnded straps).jct.slots } } := endContexts_rest _

theorem contextsEnded_job (s : State) (straps : BitVec 2) (j : Fin 16) :
    ∃ c, (s.contextsEnded straps).job j = { s.job j with own := none, refs := 0, counters := c } :=
  endContexts_job (s.pathAndRciReset straps) j

theorem contextsEnded_ace (s : State) (straps : BitVec 2) : s.ace.Stands (s.contextsEnded straps).ace :=
  (settlesOnly_recordsSettled (s.pathAndRciReset straps).freeTrackers).ace

theorem contextsEnded_rgt (s : State) (straps : BitVec 2) :
    (s.contextsEnded straps).rgt = { s.rgt with inFlight := Vector.replicate 32 0 } :=
  (congrArg State.rgt (contextsEnded_rest s straps) :)

theorem contextsEnded_wpe (s : State) (straps : BitVec 2) : (s.contextsEnded straps).wpe = s.wpe :=
  (congrArg State.wpe (contextsEnded_rest s straps) :)

theorem contextsEnded_ranges (s : State) (straps : BitVec 2) (js : List (Fin 16)) :
    (s.contextsEnded straps).forcedRanges js = s.forcedRanges js := by
  have hpasses : ∀ j, ((s.contextsEnded straps).job j).passes = (s.job j).passes := fun j => by
    obtain ⟨c, h⟩ := contextsEnded_job s straps j
    rw [h]
  simp only [State.forcedRanges, State.wipeRanges, hpasses, contextsEnded_rgt]
  rfl

theorem contextsEnded_entry (s : State) (straps : BitVec 2) : (s.contextsEnded straps).forcedEntry = s.forcedEntry := by
  funext c k x
  obtain ⟨_, h⟩ := contextsEnded_job s straps x.1
  simp only [State.forcedEntry, h]

/-! ## After the forcing (R64 steps 4 to 6) -/

/-- The ranges of the forced jobs that join the Wipe Queue. -/
def State.joinedRanges (s : State) : List (Fin 16 × Nat × Nat) := (s.forcedRanges s.jct.liveJobs).take s.wpe.room

theorem clearKeysAndRegions_rest (s : State) : s.clearKeysAndRegions.keys = Vector.replicate 16 none
    ∧ s.clearKeysAndRegions.rgt = { Regions.por with inFlight := s.rgt.inFlight }
    ∧ s.clearKeysAndRegions.wpe = s.wpe ∧ s.clearKeysAndRegions.tmu = s.tmu ∧ s.clearKeysAndRegions.ccu = s.ccu
    ∧ ∀ j, ∃ b, s.clearKeysAndRegions.job j = { s.job j with bound := b } := by
  unfold State.clearKeysAndRegions
  rw [State.setRegions_eq]
  exact ⟨rfl, rfl, rfl, rfl, rfl, fun j => ⟨_, get_ofFn _ j⟩⟩

/-- The keys, the entries and the wipes after step 6 of R64, from a part as it stands after step 4. -/
theorem forceStates_cleared (js : List (Fin 16)) (s : State) (hn : js.Nodup) :
    (js.foldl State.forceState s.clearKeysAndRegions).keys = Vector.replicate 16 none
    ∧ (js.foldl State.forceState s.clearKeysAndRegions).rgt = { Regions.por with inFlight := s.rgt.inFlight }
    ∧ (js.foldl State.forceState s.clearKeysAndRegions).wpe = s.wpe
    ∧ (js.foldl State.forceState s.clearKeysAndRegions).tmu = s.tmu
    ∧ (js.foldl State.forceState s.clearKeysAndRegions).ccu = s.ccu := by
  obtain ⟨hkeys, hrgt, hwpe, htmu, hccu, -⟩ := clearKeysAndRegions_rest s
  generalize s.clearKeysAndRegions = t at hkeys hrgt hwpe htmu hccu ⊢
  have hrest := forceStates_rest js t hn
  exact ⟨(congrArg State.keys hrest :).trans hkeys, (congrArg State.rgt hrest :).trans hrgt,
    (congrArg State.wpe hrest :).trans hwpe, (congrArg State.tmu hrest :).trans htmu, (congrArg State.ccu hrest :).trans hccu⟩

theorem jobsForced_rest (s : State) (straps : BitVec 2) : (s.jobsForced straps).keys = Vector.replicate 16 none
    ∧ (s.jobsForced straps).rgt = Regions.por
    ∧ (s.jobsForced straps).wpe = { queue := s.wpe.queue ++ s.joinedRanges.mapIdx (s.forcedEntry s.wpe.counter)
                                    counter := s.wpe.counter + BitVec.ofNat 32 s.joinedRanges.length }
    ∧ (s.jobsForced straps).tmu = s.tmu ∧ (s.jobsForced straps).ccu = s.ccu := by
  obtain ⟨hkeys, hrgt, hwpe, htmu, hccu⟩ := forceStates_cleared s.jct.liveJobs
    (s.jct.liveJobs.foldl State.forceWipes (s.contextsEnded straps)) (liveJobs_nodup _)
  obtain ⟨fwpe, -, frgt, ftmu, fccu, -⟩ := forceWipes_all s.jct.liveJobs (s.contextsEnded straps) (liveJobs_nodup _)
  have hjoined : ((s.contextsEnded straps).forcedRanges s.jct.liveJobs).take (s.contextsEnded straps).wpe.room
      = s.joinedRanges := by
    rw [contextsEnded_ranges, contextsEnded_wpe]
    rfl
  rw [frgt, contextsEnded_rgt] at hrgt
  rw [hjoined, joinForced_all, contextsEnded_wpe, contextsEnded_entry] at fwpe
  refine ⟨hkeys, hrgt, hwpe.trans fwpe, htmu.trans (ftmu.trans ?_), hccu.trans (fccu.trans ?_)⟩
  · exact (congrArg State.tmu (contextsEnded_rest s straps) :)
  · exact (congrArg State.ccu (contextsEnded_rest s straps) :)

/-- A job slot without context and references. -/
def JobSlot.bare (q : JobSlot) (c : JobCounters) (b : Nat) : JobSlot := { q with own := none, refs := 0, counters := c, bound := b }

/-- A job after the forcing: forced with the number of its ranges that joined, or as it stood. -/
theorem jobsForced_job (s : State) (straps : BitVec 2) (j : Fin 16) : ∃ c b,
    (s.jobsForced straps).job j = if (s.job j).state.live = true
      then ({ (s.job j).bare c b with wipes := (s.joinedRanges.filter fun x => x.1 == j).length } : JobSlot).forced
      else (s.job j).bare c b := by
  obtain ⟨c, hc⟩ := contextsEnded_job s straps j
  obtain ⟨-, -, -, -, -, hclear⟩ := clearKeysAndRegions_rest (s.jct.liveJobs.foldl State.forceWipes (s.contextsEnded straps))
  obtain ⟨b, hb⟩ := hclear j
  obtain ⟨-, hjob, -⟩ := forceWipes_all s.jct.liveJobs (s.contextsEnded straps) (liveJobs_nodup _)
  refine ⟨c, b, (forceStates_job _ _ (liveJobs_nodup _) j).trans ?_⟩
  rw [hb, hjob, hc, contextsEnded_ranges, contextsEnded_wpe]
  have hmem := mem_liveJobs s.jct j
  by_cases hlive : (s.job j).state.live = true
  · rw [if_pos (hmem.2 hlive), if_pos (hmem.2 hlive), if_pos hlive]
    rfl
  · rw [if_neg (mt hmem.1 hlive), if_neg (mt hmem.1 hlive), if_neg hlive]
    rfl

theorem forced_cases (q : JobSlot) : (q.wipes = 0 ∧ q.forced = q.freed)
    ∨ (q.wipes ≠ 0 ∧ q.forced = { q with state := .wiping, closePending := false }) := by
  by_cases h : q.wipes = 0
  · exact .inl ⟨h, by simp [JobSlot.forced, h]⟩
  · exact .inr ⟨h, by simp [JobSlot.forced, h]⟩

/-- No job is left that a forced ending ends, and nothing of a context or of a count. -/
theorem jobsForced_ended (s : State) (straps : BitVec 2) (j : Fin 16) : ((s.jobsForced straps).job j).state.live = false
    ∧ ((s.jobsForced straps).job j).own = none ∧ ((s.jobsForced straps).job j).refs = 0 := by
  obtain ⟨c, b, h⟩ := jobsForced_job s straps j
  rw [h]
  split
  · generalize hq : ({ (s.job j).bare c b with wipes := (s.joinedRanges.filter fun x => x.1 == j).length } : JobSlot) = q
    have hown : q.own = none ∧ q.refs = 0 := hq ▸ ⟨rfl, rfl⟩
    rcases forced_cases q with ⟨-, e⟩ | ⟨-, e⟩
    · rw [e]
      exact ⟨rfl, rfl, rfl⟩
    · rw [e]
      exact ⟨rfl, hown⟩
  · next hl => exact ⟨Bool.eq_false_iff.2 hl, rfl, rfl⟩

/-- A forced job is WIPING with the number of its ranges that joined, or FREE. -/
theorem jobsForced_live (s : State) (straps : BitVec 2) (j : Fin 16) (hl : (s.job j).state.live = true) :
    let n := (s.joinedRanges.filter fun x => x.1 == j).length
    ((s.jobsForced straps).job j).state = (if n = 0 then .free else .wiping) ∧ ((s.jobsForced straps).job j).wipes = n := by
  intro n
  obtain ⟨c, b, h⟩ := jobsForced_job s straps j
  rw [h, if_pos hl]
  generalize hq : ({ (s.job j).bare c b with wipes := n } : JobSlot) = q
  have hn : q.wipes = n := hq ▸ rfl
  rcases forced_cases q with ⟨h0, e⟩ | ⟨h0, e⟩
  · rw [e, if_pos (hn.symm.trans h0)]
    exact ⟨rfl, h0.symm.trans hn⟩
  · rw [e, if_neg (hn ▸ h0)]
    exact ⟨rfl, hn⟩

theorem jobsForced_other (s : State) (straps : BitVec 2) (j : Fin 16) (hl : (s.job j).state.live = false) :
    ((s.jobsForced straps).job j).state = (s.job j).state ∧ ((s.jobsForced straps).job j).wipes = (s.job j).wipes
      ∧ ((s.jobsForced straps).job j).nonce = (s.job j).nonce := by
  obtain ⟨c, b, h⟩ := jobsForced_job s straps j
  rw [h, if_neg (by simp [hl])]
  exact ⟨rfl, rfl, rfl⟩

/-! ## After the whole event -/

theorem aside_linkReset (s : State) (straps : BitVec 2) : Aside (s.jobsForced straps) (s.linkReset straps) := by
  have htold : Aside (s.jobsForced straps) (s.jobsTold straps) := .foldl (fun t x => aside_tellEnded t _ _) _ _
  rw [linkReset_steps]
  split
  · exact htold.trans (sided_firstPolls.aside _)
  · exact htold

theorem stands_linkReset (s : State) (straps : BitVec 2) : Stands (s.contextsEnded straps) (s.linkReset straps) := by
  have hforced : Stands (s.contextsEnded straps) (s.jobsForced straps) :=
    (Stands.foldl stands_forceWipes _ _).trans ((stands_clearKeysAndRegions _).trans
      (.foldl (fun t j => stands_modJob t j _) _ _))
  have htold : Stands (s.contextsEnded straps) (s.jobsTold straps) :=
    hforced.trans (.foldl (fun t x => stands_tellEnded t _ _) _ _)
  rw [linkReset_steps]
  exact .ite (htold.trans (stands_firstPolls _)) htold

theorem linkReset_standby (s : State) (straps : BitVec 2) : (s.linkReset straps).rci.standby = .running :=
  (congrArg Rci.standby (stands_linkReset s straps).rci :).trans
    (congrArg (fun t => t.rci.standby) (contextsEnded_rest s straps) :)

theorem stands_afterReset (s : State) (straps : BitVec 2) : Stands (s.contextsEnded straps) (s.afterReset straps) :=
  (stands_linkReset s straps).trans ((stands_finishWipe _ (linkReset_standby s straps)).trans
    ((stands_startWipe _).trans (stands_joinHanded _)))

theorem linkReset_job (s : State) (straps : BitVec 2) (j : Fin 16) :
    (s.linkReset straps).job j = (s.jobsForced straps).job j :=
  congrArg (fun k : Jobs => k.slots[j]) (aside_linkReset s straps).jct

theorem linkReset_metered (s : State) (straps : BitVec 2) : (s.linkReset straps).jct.metered = true := by
  have hstands := stands_linkReset s straps
  have hown : ∀ i : Fin 16, ((s.linkReset straps).jct.slots[i]).own = none := fun i =>
    (congrArg JobSlot.own (linkReset_job s straps i)).trans (jobsForced_ended s straps i).2.1
  have hmarking : (s.linkReset straps).jct.marking = none :=
    hstands.marking.trans (congrArg (fun t => t.jct.marking) (contextsEnded_rest s straps) :)
  have hstack : (s.linkReset straps).jct.stack = [] :=
    hstands.stack.trans (congrArg (fun t => t.jct.stack) (contextsEnded_rest s straps) :)
  rw [Jobs.metered_iff]
  refine ⟨fun m hm => ?_, fun i c hc => ?_⟩
  · rcases (Jobs.mem_contexts_iff _ m).1 hm with hm | hm | ⟨i, c, hc, -⟩
    · rw [hmarking] at hm
      cases hm
    · rw [hstack] at hm
      cases hm
    · rw [hown] at hc
      cases hc
  · rw [hown] at hc
    cases hc

theorem linkReset_endReset (s : State) (straps : BitVec 2) : (s.linkReset straps).endReset = s.afterReset straps := by
  refine endReset_eq _ (linkReset_metered s straps) ?_ (fun j => ?_) (linkReset_standby s straps)
  · rw [(aside_linkReset s straps).rgt, (jobsForced_rest s straps).2.1]
    rfl
  · rw [linkReset_job]
    exact (jobsForced_ended s straps j).1

theorem exec_lrst (s : State) (straps : BitVec 2) (hp : s.powered = true) :
    exec (.lrst straps) s = .next (s.beginEvent.afterReset straps) := by
  have hexec : exec (.lrst straps) s = resetEvent (fun t => t.linkReset straps) s := rfl
  rw [hexec, resetEvent, if_pos hp, linkReset_endReset]

/-- What the Wipe Queue's steps and the joining leave of the keys, the entries and the jobs. -/
theorem afterReset_rest (s : State) (straps : BitVec 2) : (s.afterReset straps).keys = Vector.replicate 16 none
    ∧ (s.afterReset straps).rgt = Regions.por
    ∧ ∀ j, ((s.jobsForced straps).job j).Wiped ((s.afterReset straps).job j) := by
  have ha := aside_linkReset s straps
  have hw := wipeDone_finishWipe (s.linkReset straps)
  have hj := aside_joinHanded (s.linkReset straps).finishWipe.startWipe
  obtain ⟨hkeys, hrgt, -⟩ := jobsForced_rest s straps
  have hstart : (s.linkReset straps).finishWipe.startWipe.keys = (s.linkReset straps).finishWipe.keys
      ∧ (s.linkReset straps).finishWipe.startWipe.rgt = (s.linkReset straps).finishWipe.rgt
      ∧ (s.linkReset straps).finishWipe.startWipe.jct = (s.linkReset straps).finishWipe.jct := by
    obtain ⟨w, h⟩ := startWipe_leaves (s.linkReset straps).finishWipe
    rw [h]
    exact ⟨rfl, rfl, rfl⟩
  obtain ⟨skeys, srgt, sjct⟩ := hstart
  refine ⟨hj.keys.trans (skeys.trans (hw.keys.trans (ha.keys.trans hkeys))),
    hj.rgt.trans (srgt.trans (hw.rgt.trans (ha.rgt.trans hrgt))), fun j => ?_⟩
  have hjob : (s.afterReset straps).job j = (s.linkReset straps).finishWipe.job j :=
    congrArg (fun k : Jobs => k.slots[j]) (hj.jct.trans sjct)
  rw [hjob, ← linkReset_job]
  exact hw.jobs j

/-! ## The wipes where none is done -/

theorem linkReset_wpe (s : State) (straps : BitVec 2) : (s.linkReset straps).wpe =
    { queue := s.wpe.queue ++ s.joinedRanges.mapIdx (s.forcedEntry s.wpe.counter)
      counter := s.wpe.counter + BitVec.ofNat 32 s.joinedRanges.length } :=
  (aside_linkReset s straps).wpe.trans (jobsForced_rest s straps).2.2.1

/-- A wipe that joins is not done, and the head that was there is the head. -/
theorem linkReset_doneDue (s : State) (straps : BitVec 2) (h : s.wpe.doneDue = false) :
    (s.linkReset straps).wpe.doneDue = false := by
  rw [linkReset_wpe]
  cases hq : s.wpe.queue with
  | cons e rest => simpa [Wpe.doneDue, hq] using h
  | nil =>
    cases s.joinedRanges with
    | nil => rfl
    | cons x xs => simp [Wpe.doneDue, WipeEntry.isDone, State.forcedEntry, List.mapIdx_cons]

theorem afterReset_eq (s : State) (straps : BitVec 2) (h : s.wpe.doneDue = false) :
    s.afterReset straps = (s.linkReset straps).startWipe.joinHanded := by
  rw [State.afterReset, State.finishWipe_eq _ (linkReset_doneDue s straps h)]

theorem startWipe_jct (s : State) : s.startWipe.jct = s.jct := by
  obtain ⟨w, h⟩ := startWipe_leaves s
  rw [h]

theorem afterReset_job (s : State) (straps : BitVec 2) (h : s.wpe.doneDue = false) (j : Fin 16) :
    (s.afterReset straps).job j = (s.jobsForced straps).job j := by
  rw [afterReset_eq s straps h, ← linkReset_job]
  exact congrArg (fun k : Jobs => k.slots[j]) ((aside_joinHanded _).jct.trans (startWipe_jct _))

/-- A start changes the progress of the head entry at most. -/
theorem startWipe_queue (s : State) : s.startWipe.wpe.queue.length = s.wpe.queue.length
    ∧ s.startWipe.wpe.queue.tail = s.wpe.queue.tail ∧ s.startWipe.wpe.counter = s.wpe.counter
    ∧ ∀ (k : Nat) (e : WipeEntry), s.wpe.queue[k]? = some e → ∃ p, s.startWipe.wpe.queue[k]? = some { e with progress := p } := by
  rcases startWipe_rest s with h | ⟨x, rest, hq, h⟩
  · rw [h]
    exact ⟨rfl, rfl, rfl, fun k e he => ⟨e.progress, he⟩⟩
  · rw [h, hq]
    refine ⟨rfl, rfl, rfl, fun k e he => ?_⟩
    cases k with
    | zero =>
      obtain rfl : x = e := by simpa using he
      exact ⟨passStart 1 x.base, rfl⟩
    | succ k => exact ⟨e.progress, he⟩

/-- The Wipe Queue after the event: the forced ranges have joined at its tail, and its head may have started. -/
theorem afterReset_queue (s : State) (straps : BitVec 2) (h : s.wpe.doneDue = false) :
    (s.afterReset straps).wpe.queue.length = s.wpe.queue.length + s.joinedRanges.length
    ∧ (s.afterReset straps).wpe.counter = s.wpe.counter + BitVec.ofNat 32 s.joinedRanges.length
    ∧ (s.afterReset straps).wpe.queue.tail.take (s.wpe.queue.length - 1) = s.wpe.queue.tail
    ∧ ∀ k x, s.joinedRanges[k]? = some x → ∃ p, (s.afterReset straps).wpe.queue[s.wpe.queue.length + k]?
        = some { s.forcedEntry s.wpe.counter k x with progress := p } := by
  obtain ⟨hlen, htail, hcounter, hget⟩ := startWipe_queue (s.linkReset straps)
  rw [afterReset_eq s straps h, (aside_joinHanded _).wpe, hlen, htail, hcounter, linkReset_wpe]
  refine ⟨by simp, rfl, ?_, fun k x hx => hget _ _ ?_⟩
  · cases s.wpe.queue with
    | nil => simp
    | cons e rest => simp
  · rw [linkReset_wpe, List.getElem?_append_right (Nat.le_add_right _ _), Nat.add_sub_cancel_left, List.getElem?_mapIdx, hx]
    rfl

/-! ## The records, and TMU (R108, R167) -/

theorem flatMap_map_queue (f : PageRecord → PageRecord) (ms : List Marked) (g : Context → Context)
    (h : ∀ c, (g c).queue = c.queue.map f) :
    (ms.map fun m => ({ m with ctx := g m.ctx } : Marked)).flatMap (fun m => m.ctx.queue)
      = (ms.flatMap fun m => m.ctx.queue).map f := by
  rw [List.flatMap_map, List.map_flatMap]
  simp only [h]

theorem mapContexts_contexts (j : Jobs) (g : Context → Context) :
    (j.mapContexts g).contexts = j.contexts.map fun m => { m with ctx := g m.ctx } := by
  simp only [Jobs.contexts, List.map_append, List.map_filterMap, Jobs.mapContexts, Option.toList_map]
  congr 2
  funext i
  simp [Option.map_map, Function.comp_def]

/-- The records at the settling of a link reset: those of the contexts, with no line in flight. -/
theorem allRecords_freed (s : State) (straps : BitVec 2) : (s.pathAndRciReset straps).freeTrackers.jct.allRecords
    = sortRecords (s.jct.records.map fun r => { r with lines := 0 }) := by
  have hrecords : s.jct.loseLines.contexts.flatMap (fun m => m.ctx.queue)
      = s.jct.records.map fun r => { r with lines := 0 } := by
    rw [loseLines_contexts, mapContexts_contexts]
    exact flatMap_map_queue _ _ _ fun _ => rfl
  exact congrArg sortRecords hrecords

theorem contextsEnded_noRecords (s : State) (straps : BitVec 2) (h : s.jct.records = []) :
    (s.contextsEnded straps).ace = s.ace := by
  have hnone : (s.pathAndRciReset straps).freeTrackers.jct.allRecords = [] := by
    rw [allRecords_freed, h]
    rfl
  show (s.pathAndRciReset straps).freeTrackers.recordsSettled.ace = s.ace
  rw [State.recordsSettled, hnone]
  rfl

/-- The values with which a record settles at a link reset (R108). -/
def PageRecord.cut (r : PageRecord) : PageRecord := PageRecord.forceClose { r with lines := 0 }

theorem cut_eq (r : PageRecord) : r.cut = { r with
    lines := 0, incomplete := true
    planes := r.planes.map fun q => q.map fun q => { q with
      status := if q.status = .notSeen then .absent else if q.status = .opened then .closed else q.status } } := by
  have hplane : PlaneRec.forceClose = fun q => { q with
      status := if q.status = .notSeen then .absent else if q.status = .opened then .closed else q.status } := by
    funext ⟨_, status, _, _⟩
    cases status <;> rfl
  rw [PageRecord.cut, PageRecord.forceClose, hplane]

theorem contextsEnded_oneRecord (s : State) (straps : BitVec 2) {r : PageRecord} (h : s.jct.records = [r]) :
    (r.cut.isCharged = true → (s.contextsEnded straps).ace = s.ace.postCharge r.cut (s.price r.cut))
    ∧ (r.cut.isCharged = false → (s.contextsEnded straps).ace = s.ace.modReserved r.user (· - r.reserve)) := by
  have hone : (s.pathAndRciReset straps).freeTrackers.jct.allRecords.map PageRecord.forceClose = [r.cut] := by
    rw [allRecords_freed, h]
    rfl
  have hprice : (s.pathAndRciReset straps).freeTrackers.price r.cut = s.price r.cut := by
    simp only [State.price, freeTrackers_job]
    rfl
  have hace : (s.contextsEnded straps).ace = (State.settle false (s.pathAndRciReset straps).freeTrackers r.cut).ace := by
    show (s.pathAndRciReset straps).freeTrackers.recordsSettled.ace = _
    rw [State.recordsSettled, hone]
    rfl
  rw [hace]
  unfold State.settle
  refine ⟨fun hc => ?_, fun hc => ?_⟩
  · rw [if_pos hc, hprice]
    rfl
  · rw [if_neg (by simp [hc])]
    rfl

/-- What the joining of reports, a wipe's end and a wipe's start leave of TMU and CCU. -/
theorem afterReset_toner (s : State) (straps : BitVec 2) : (s.afterReset straps).tmu = (s.linkReset straps).tmu
    ∧ (s.afterReset straps).ccu = (s.linkReset straps).ccu := by
  obtain ⟨r, hjoin⟩ := joinHanded_leaves (s.linkReset straps).finishWipe.startWipe
  obtain ⟨w, hstart⟩ := startWipe_leaves (s.linkReset straps).finishWipe
  obtain ⟨_, _, _, _, hfinish⟩ := finishWipe_leaves (s.linkReset straps)
  rw [State.afterReset, hjoin, hstart, hfinish]
  exact ⟨rfl, rfl⟩

/-- Where no forced job had marked, nothing goes to TMU. -/
theorem jobsTold_unmarked (s : State) (straps : BitVec 2)
    (h : ∀ j : Fin 16, (s.job j).state.live = true → (s.job j).marked = false) :
    (s.jobsTold straps).tmu = s.tmu ∧ (s.jobsTold straps).ccu = s.ccu := by
  have htell : ∀ (xs : List (Fin 16 × Bool)) (t : State), (∀ x ∈ xs, x.2 = false) →
      (xs.foldl State.forceTellAs t).tmu = t.tmu ∧ (xs.foldl State.forceTellAs t).ccu = t.ccu := by
    intro xs
    induction xs with
    | nil => exact fun t _ => ⟨rfl, rfl⟩
    | cons x xs ih =>
      intro t hx
      obtain ⟨htmu, hccu⟩ := ih (t.forceTellAs x) fun y hy => hx y (List.mem_cons_of_mem x hy)
      have hx : x.2 = false := hx x List.mem_cons_self
      have hone : t.forceTellAs x = { t with ace := t.ace.jobEnded (t.job x.1).user } := by
        rw [State.forceTellAs, State.tellEnded, hx]
        rfl
      rw [List.foldl_cons, htmu, hccu, hone]
      exact ⟨rfl, rfl⟩
  obtain ⟨-, -, -, ftmu, fccu⟩ := jobsForced_rest s straps
  obtain ⟨htmu, hccu⟩ := htell (s.jct.liveJobs.map fun j => (j, (s.job j).marked)) (s.jobsForced straps) fun x hx => by
    obtain ⟨j, hj, rfl⟩ := List.mem_map.1 hx
    exact h j ((mem_liveJobs s.jct j).1 hj)
  exact ⟨htmu.trans ftmu, hccu.trans fccu⟩

/-- No page report is handed or stands in the queue after the event. -/
theorem afterReset_reports (s : State) (straps : BitVec 2) (hh : s.handed = []) :
    ∀ x ∈ (s.afterReset straps).rci.queue, x.body.isPage = false := by
  intro x hx
  have hqueue : (s.contextsEnded straps).rci.queue = [] := (congrArg (fun t => t.rci.queue) (contextsEnded_rest s straps) :)
  have hhanded : (s.contextsEnded straps).handed = [] := (congrArg State.handed (contextsEnded_rest s straps) :).trans hh
  rcases (stands_afterReset s straps).reports x hx with h | h | ⟨y, hy, -⟩
  · rw [hqueue] at h
    cases h
  · exact h
  · rw [hhanded] at hy
    cases hy

end Sys2Proof.Machine

namespace Sys2Proof.Proofs
open Sys2Proof Sys2Proof.Machine

/-- Settles O11: the event of a link reset is the part forced, with the Wipe Queue's steps and the joining of reports after it
(`exec_lrst`), and each field is read off the steps of R64. -/
theorem linkReset : Obligations.LinkReset := by
  unfold Obligations.LinkReset
  refine ⟨fun straps s hp => ⟨_, exec_lrst s straps hp, ?_⟩, fun straps s hp => ⟨_, exec_lrst s straps hp, ?_⟩,
    fun straps s hp hdone => ⟨_, exec_lrst s straps hp, ?_⟩, fun straps s hp => ⟨_, exec_lrst s straps hp, ?_⟩⟩
  · have hs := stands_afterReset s.beginEvent straps
    have hrest := contextsEnded_rest s.beginEvent straps
    have hrci : (s.beginEvent.afterReset straps).rci.unqueued = (s.beginEvent.rci.linkReset straps).unqueued :=
      hs.rci.trans (congrArg (fun t => t.rci.unqueued) hrest :)
    refine ⟨hs.path.trans (congrArg State.path hrest :), hs.out.trans (congrArg State.out hrest :),
      (afterReset_rest s.beginEvent straps).2.1, hs.down.trans (congrArg State.down hrest :), (congrArg Rci.startup hrci :),
      (congrArg Rci.rings hrci :), (congrArg Rci.straps hrci :), (congrArg Rci.hand hrci :), (congrArg Rci.posting hrci :),
      (congrArg Rci.indexWritten hrci :), (congrArg Rci.standby hrci :), hs.amem.trans (congrArg State.amem hrest :),
      hs.ms.trans (congrArg State.ms hrest :), hs.openCounter.trans (congrArg (fun t => t.jct.openCounter) hrest :),
      hs.rmu.trans (congrArg State.rmu hrest :), (congrArg Rci.faultAt hrci :),
      hs.ace.faults.trans (contextsEnded_ace s.beginEvent straps).faults⟩
  · have hs := stands_afterReset s.beginEvent straps
    have hrest := contextsEnded_rest s.beginEvent straps
    obtain ⟨hkeys, -, hjobs⟩ := afterReset_rest s.beginEvent straps
    refine ⟨fun j => ?_, hs.marking.trans (congrArg (fun t => t.jct.marking) hrest :),
      hs.stack.trans (congrArg (fun t => t.jct.stack) hrest :), fun j hfree => ?_⟩
    · obtain ⟨hlive, hown, hrefs⟩ := jobsForced_ended s.beginEvent straps j
      refine ⟨?_, ?_, (hjobs j).own hown, (hjobs j).refs hrefs⟩
      · rw [hkeys]
        exact Vector.getElem_replicate j.isLt
      · rcases (hjobs j).state with h | h <;> rw [h]
        · exact hlive
        · rfl
    · have hlive : (s.beginEvent.job j).state.live = false := congrArg JobState.live hfree
      exact (hjobs j).state.elim (fun h => h.trans ((jobsForced_other s.beginEvent straps j hlive).1.trans hfree)) fun h => h
  · have hjob := afterReset_job s.beginEvent straps hdone
    obtain ⟨hlen, hcounter, htail, hget⟩ := afterReset_queue s.beginEvent straps hdone
    refine ⟨fun j hw => ?_, hlen, hcounter, htail, fun k j base count hx => ?_, fun j hj => ?_⟩
    · obtain ⟨hstate, hwipes, hnonce⟩ := jobsForced_other s.beginEvent straps j (congrArg JobState.live hw)
      rw [hjob]
      exact ⟨hstate.trans hw, hwipes, hnonce⟩
    · obtain ⟨p, he⟩ := hget k (j, base, count) hx
      exact ⟨_, he, rfl, rfl, rfl, rfl, rfl, rfl, rfl⟩
    · rw [hjob]
      exact jobsForced_live s.beginEvent straps j ((mem_liveJobs s.jct j).1 hj)
  · have hs := stands_afterReset s.beginEvent straps
    have hace := contextsEnded_ace s.beginEvent straps
    have hreports := afterReset_reports s.beginEvent straps rfl
    obtain ⟨htmu, hccu⟩ := afterReset_toner s.beginEvent straps
    refine ⟨fun x hx => ⟨fun p e => ?_, fun r e => ?_⟩, (hace.trans hs.ace).classes, (hace.trans hs.ace).tariff,
      (hace.trans hs.ace).bays, (hace.trans hs.ace).service, (hace.trans hs.ace).lockout, (hace.trans hs.ace).writing,
      (hace.trans hs.ace).queue, (hace.trans hs.ace).waiting,
      hs.departed.trans (congrArg (fun t => t.ccu.departed) (contextsEnded_rest s.beginEvent straps) :), ?_, fun hmarked => ?_⟩
    · have := hreports x hx
      rw [e] at this
      cases this
    · have := hreports x hx
      rw [e] at this
      cases this
    · intro posted
      have hposted : posted (s.beginEvent.contextsEnded straps).ace := ⟨hs.posted.users, hs.posted.depts, hs.posted.meters⟩
      refine ⟨fun hnone => contextsEnded_noRecords s.beginEvent straps hnone ▸ hposted, fun r hr => ?_⟩
      intro x
      obtain ⟨hcharged, haborted⟩ := contextsEnded_oneRecord s.beginEvent straps hr
      have hx : r.cut = x := cut_eq r
      rw [hx] at hcharged haborted
      exact ⟨fun hc => hcharged hc ▸ hposted, fun hc => haborted hc ▸ hposted⟩
    · obtain ⟨ttmu, tccu⟩ := jobsTold_unmarked s.beginEvent straps hmarked
      rw [htmu, hccu, linkReset_steps]
      refine ⟨?_, fun hrun => ?_, fun hstandby => ?_⟩
      · split
        · exact ttmu
        · exact ttmu
      · have hdetached : s.beginEvent.rci.standby.baysDetached = false := congrArg Standby.baysDetached hrun
        rw [hdetached]
        exact congrArg Ccu.bays tccu
      · have hdetached : s.beginEvent.rci.standby.baysDetached = true := congrArg Standby.baysDetached hstandby
        rw [if_pos hdetached]
        exact congrArg (fun c : Ccu => c.bays.map fun b => { b with due := .atOnce }) tccu

end Sys2Proof.Proofs
end

section
/-!
The key slots over one operation (R30, R31). Every operation but the opening of a job leaves each key slot with its job's liveness as
they stand, or empties the slot of a job that is no longer OPEN, HELD or CLOSING; and no operation takes back a draw.
-/

namespace Sys2Proof.Machine

/-- What an operation other than an opening may do to the key slots: no draw is taken back, and each slot keeps its key with its
job's liveness, or is empty with a job that is not live. -/
def KeyStep (s t : State) : Prop :=
  s.draws ≤ t.draws ∧ ∀ j : Fin 16, (t.keys[j] = s.keys[j] ∧ (t.job j).state.live = (s.job j).state.live)
    ∨ (t.keys[j] = none ∧ (t.job j).state.live = false)

/-- Both laws of the keys go over from `s` to `t`. -/
structure KeysKept (s t : State) : Prop where
  keyLaw : s.keyLaw → t.keyLaw
  drawnLaw : s.drawnLaw → t.drawnLaw

theorem KeysKept.trans {s t u : State} (h : KeysKept s t) (g : KeysKept t u) : KeysKept s u :=
  ⟨fun x => g.keyLaw (h.keyLaw x), fun x => g.drawnLaw (h.drawnLaw x)⟩

theorem KeyStep.keysKept {s t : State} (h : KeyStep s t) : KeysKept s t := by
  obtain ⟨hdraws, hslots⟩ := h
  have hkeys : ∀ j : Fin 16, ∀ k ∈ t.keys[j], k ∈ s.keys[j] := fun j k hk => by
    rcases hslots j with ⟨e, -⟩ | ⟨e, -⟩ <;> rw [e] at hk
    · exact hk
    · cases hk
  refine ⟨fun hlaw j => ?_, fun ⟨hdrawn, hdistinct⟩ => ⟨fun j k hk => ?_, fun i j hij k hk hjk => ?_⟩⟩
  · rcases hslots j with ⟨ek, el⟩ | ⟨ek, el⟩ <;> rw [ek, el]
    · exact hlaw j
    · rfl
  · obtain ⟨n, hn, e⟩ := hdrawn j k (hkeys j k hk)
    exact ⟨n, Nat.lt_of_lt_of_le hn hdraws, e⟩
  · exact hdistinct i j hij k (hkeys i k hk) (hkeys j k hjk)

theorem KeyStep.refl (s : State) : KeyStep s s := ⟨Nat.le_refl _, fun _ => .inl ⟨rfl, rfl⟩⟩

theorem KeyStep.trans {s t u : State} (h : KeyStep s t) (g : KeyStep t u) : KeyStep s u := by
  refine ⟨Nat.le_trans h.1 g.1, fun j => ?_⟩
  rcases g.2 j with ⟨ek, el⟩ | hgone
  · rw [ek, el]
    exact h.2 j
  · exact .inr hgone

theorem KeyStep.ite {s t u : State} {p : Prop} [Decidable p] (ht : KeyStep s t) (hu : KeyStep s u) :
    KeyStep s (if p then t else u) := by
  split
  · exact ht
  · exact hu

/-! The keys and the jobs do not see the bays, the toner figures and the reports handed. -/

theorem KeyStep.modPlane {s t : State} {p : Fin 4} {f : Figures → Figures} (h : KeyStep (s.modPlane p f) t) : KeyStep s t := h

theorem KeyStep.modBay {s t : State} {p : Fin 4} {f : Bay → Bay} (h : KeyStep (s.modBay p f) t) : KeyStep s t := h

theorem KeyStep.hand {s t : State} {b : ReportBody} {tag : BitVec 16} (h : KeyStep s t) : KeyStep s (t.hand b tag) := h

theorem KeyStep.foldl {α : Type} {f : State → α → State} (hf : ∀ s a, KeyStep s (f s a)) (as : List α) (s : State) :
    KeyStep s (as.foldl f s) := by
  induction as generalizing s with
  | nil => exact .refl s
  | cons a as ih => exact (hf s a).trans (ih (f s a))

/-- An operation that keeps the job states, draws nothing and leaves the key slots alone. -/
theorem Frame.keyStep {s t : State} (f : Frame s t) (hk : t.keys = s.keys) (hd : t.draws = s.draws) : KeyStep s t :=
  ⟨Nat.le_of_eq hd.symm, fun j => .inl ⟨by rw [hk], by rw [f.states j]⟩⟩

theorem keyStep_ace (s : State) (a : Ace) : KeyStep s { s with ace := a } := .refl s

theorem keyStep_rci (s : State) (r : Rci) : KeyStep s { s with rci := r } := .refl s

theorem keyStep_draw (s : State) : KeyStep s s.draw := ⟨Nat.le_succ _, fun _ => .inl ⟨rfl, rfl⟩⟩

/-- A change of one job slot that keeps its liveness. -/
theorem keyStep_modJob (s : State) (j : Fin 16) (f : JobSlot → JobSlot)
    (h : (f (s.job j)).state.live = (s.job j).state.live) : KeyStep s (s.modJob j f) := by
  refine ⟨Nat.le_refl _, fun k => .inl ⟨rfl, ?_⟩⟩
  rw [State.modJob_job]
  split
  · next hk => rw [hk, h]
  · rfl

/-- A job slot that is no longer live loses its key. -/
theorem keyStep_modJob_destroyed (s : State) (j : Fin 16) (f : JobSlot → JobSlot) (h : (f (s.job j)).state.live = false) :
    KeyStep s { (s.modJob j f) with keys := s.keys.set j none } := by
  refine ⟨Nat.le_refl _, fun k => ?_⟩
  show ((s.keys.set j none)[k] = s.keys[k] ∧ ((s.modJob j f).job k).state.live = _)
    ∨ ((s.keys.set j none)[k] = none ∧ ((s.modJob j f).job k).state.live = false)
  rw [get_set, State.modJob_job]
  split
  · next hk => exact .inr ⟨rfl, by rw [hk, h]⟩
  · exact .inl ⟨rfl, rfl⟩

theorem keyStep_setRegions (s : State) (g : Regions) : KeyStep s (s.setRegions g) := by
  refine ⟨?_, fun j => .inl ⟨?_, congrArg (fun q => q.state.live) (s.setRegions_job g j)⟩⟩ <;> rw [s.setRegions_eq]

end Sys2Proof.Machine
end

section
/-!
The key slots over the operations of ACE, TMU and CCU (chapters 5 to 8), over the settling of records and over the joining of reports: a
nonce is a draw, and nothing else of them touches what the laws of the keys look at.
-/

namespace Sys2Proof.Machine

/-! ## Toner (chapter 8) -/

theorem keyStep_evalLevel (s : State) (p : Fin 4) : KeyStep s (s.evalLevel p) := by
  have hlow : KeyStep s (s.checkLow p) := .ite (.refl s) (.refl s)
  have hout : KeyStep (s.checkLow p) ((s.checkLow p).checkOut p) := .ite (.refl _) (.refl _)
  exact hlow.trans hout

theorem keyStep_startRound (s : State) (p : Fin 4) : KeyStep s (s.startRound p) := by
  unfold State.startRound
  exact .ite (.ite (.refl s) (keyStep_draw s)) (.modPlane (.modPlane (keyStep_evalLevel _ p)))

theorem keyStep_debitTest (s : State) (p : Fin 4) : KeyStep s (s.debitTest p) :=
  .ite (keyStep_startRound s p) (.ite (.refl s) (.refl s))

theorem keyStep_closeNotice (s : State) : KeyStep s s.closeNotice :=
  KeyStep.foldl keyStep_debitTest (List.finRange 4) { s with tmu := s.tmu.map fun f => { f with flush := true } }

/-- A level evaluated after a change of the figures, with the debit test. -/
theorem keyStep_evalDebit (s : State) (p : Fin 4) (f : Figures → Figures) :
    KeyStep s (((s.modPlane p f).evalLevel p).debitTest p) :=
  (keyStep_evalLevel (s.modPlane p f) p).trans (keyStep_debitTest _ p)

theorem keyStep_roundFailed (s : State) (p : Fin 4) : KeyStep s (s.roundFailed p) := by
  unfold State.roundFailed
  split
  · exact .refl s
  · exact .ite (.modPlane (.modBay (keyStep_evalLevel _ p))) (.modPlane (keyStep_evalLevel _ p))

theorem keyStep_proofView (s : State) (p : Fin 4) (view : BayState) (level : Nat) : KeyStep s (s.proofView p view level) :=
  .ite (keyStep_evalDebit s p fun f => { f with view := view, viewLevel := level, level := .normal })
    (keyStep_evalLevel (s.modPlane p fun f => { f with view := view, viewLevel := level, level := .normal }) p)

/-! ## Bays (chapter 7) -/

theorem keyStep_bayChanged (s : State) (r : BayReport) : KeyStep s (s.bayChanged r) := .ite (.refl s) (.refl s)

theorem keyStep_attachTest (s : State) (p : Fin 4) : KeyStep s (s.attachTest p) := .ite (.refl s) (.refl s)

theorem keyStep_disposeShare (s : State) (p : Fin 4) (u : Option Unconfirmed) : KeyStep s (s.disposeShare p u).1 := by
  unfold State.disposeShare
  simp only
  split
  · exact .refl s
  · next serial _ =>
    have hentry : KeyStep s ((s.modPlane p Figures.takeShare).appendDeparted
        ⟨serial, p, (s.plane p).pending, (s.plane p).pg, u⟩).1 := by
      rcases appendDeparted_cases (s.modPlane p Figures.takeShare) ⟨serial, p, (s.plane p).pending, (s.plane p).pg, u⟩ with
        ⟨e, rest, -, -, h⟩ | ⟨-, h⟩ <;> rw [h] <;> exact .refl s
    split
    · exact .refl s
    · split
      · exact .refl s
      · exact hentry

theorem keyStep_depart (s : State) (p : Fin 4) : KeyStep s (s.depart p).1 := by
  have hwithdraw : KeyStep s (s.withdrawDebit p) := .ite (.modBay (.modPlane (keyStep_evalLevel _ p))) (.refl s)
  exact hwithdraw.trans (keyStep_disposeShare (s.withdrawDebit p) p (s.bay p).departingDebit)

theorem keyStep_exchangeFailed (s : State) (p : Fin 4) (isDebit : Bool) : KeyStep s (s.exchangeFailed p isDebit) := by
  unfold State.exchangeFailed
  simp only
  cases (s.bay p).state with
  | vacant => exact .refl s
  | settling => exact .modBay (.modBay (keyStep_bayChanged _ _))
  | _ =>
    have hcount : KeyStep s ((s.endExchange p).modBay p fun b => { b with failures := min 7 (b.failures + 1) }) := .refl s
    refine hcount.trans ?_
    have hevaluated : ∀ t : State, KeyStep t (if isDebit = true then t.evalLevel p else t) := fun t =>
      .ite (keyStep_evalLevel t p) (.refl t)
    refine .ite ?_ (.ite (keyStep_roundFailed _ p) (.refl _))
    exact (hevaluated _).trans ((keyStep_depart _ p).trans (keyStep_bayChanged _ _))

theorem keyStep_goodStatus (s : State) (p : Fin 4) (fr : List Byte) : KeyStep s (s.goodStatus p fr) := by
  unfold State.goodStatus
  simp only
  have hbegin : KeyStep s ((s.endExchange p).modBay p fun b =>
    { b with statusLevel := BitVec.ofNat 32 (frameField fr 3 4), statusFlags := byte (frameField fr 7 1) }) := .refl s
  refine hbegin.trans ?_
  generalize (s.endExchange p).modBay p _ = t
  have hsettling : ∀ (u : State) (f : Bay → Bay) (r : BayReport), KeyStep u (((u.modBay p f).attachTest p).bayChanged r) :=
    fun u f r => (keyStep_attachTest (u.modBay p f) p).trans (keyStep_bayChanged _ r)
  cases (s.bay p).state with
  | vacant => exact hsettling t _ _
  | settling => exact hsettling t _ _
  | identifying => exact .refl t
  | proving => exact .refl t
  | _ => exact .ite ((keyStep_depart t p).trans (hsettling _ _ _)) (.refl t)

theorem keyStep_goodIdent (s : State) (p : Fin 4) (fr : List Byte) : KeyStep s (s.goodIdent p fr) := by
  have hwrong : ∀ (t : State) (c : BayCause) (serial : Word8) (colour : Byte) (cap : BitVec 32),
      KeyStep t (t.wrongBay p c serial colour cap) := fun t c serial colour cap => keyStep_bayChanged (t.modBay p _) _
  have hidentified : ∀ (t : State) (serial : Word8) (colour : Byte) (cap : BitVec 32),
      KeyStep t (t.identified p serial colour cap) := fun t serial colour cap => by
    unfold State.identified
    simp only
    refine KeyStep.trans ?_ (keyStep_bayChanged _ _)
    cases t.ccu.departedEntry? serial with
    | none => exact .refl t
    | some e => exact .refl t
  unfold State.goodIdent
  simp only
  exact .ite (.ite (hwrong (s.endExchange p) _ _ _ _) (.ite (hwrong (s.endExchange p) _ _ _ _)
    (hidentified (s.endExchange p) _ _ _))) (.refl s)

theorem keyStep_proofGood (s : State) (p : Fin 4) (level : BitVec 32) (seq : BitVec 16) : KeyStep s (s.proofGood p level seq) := by
  unfold State.proofGood
  simp only
  refine KeyStep.trans ?_ (keyStep_bayChanged _ _)
  cases ((s.bay p).unconfirmed.filter fun u => u.seq == seq).map Unconfirmed.amount with
  | none => exact keyStep_proofView (s.modBay p _) p _ _
  | some a =>
    refine KeyStep.trans (t := (s.modBay p _).confirm p a) ?_ (keyStep_proofView _ p _ _)
    exact keyStep_evalLevel (((s.modBay p _) : State).modPlane p _) p

theorem keyStep_goodProve (s : State) (p : Fin 4) (nonce : Word8) (fr : List Byte) : KeyStep s (s.goodProve p nonce fr) := by
  unfold State.goodProve
  simp only
  split
  · refine .ite (keyStep_proofGood (s.endExchange p) p _ _) ?_
    exact (keyStep_proofView ((s.endExchange p).modBay p _) p _ _).trans (keyStep_bayChanged _ _)
  · exact .refl s

theorem keyStep_goodDebit (s : State) (p : Fin 4) (fr : List Byte) : KeyStep s (s.goodDebit p fr) := by
  unfold State.goodDebit
  simp only
  split
  · refine .ite (keyStep_evalDebit ((s.endExchange p).modBay p _) p _) ?_
    exact (keyStep_evalLevel (((s.endExchange p).modBay p _).modPlane p _) p).trans (keyStep_bayChanged _ _)
  · exact .refl s

theorem keyStep_replyEnds (s : State) (k : Exch) (p : Fin 4) (fr : List Byte) : KeyStep s (s.replyEnds k p fr) := by
  unfold State.replyEnds
  split
  · exact .refl s
  · next e _ =>
    refine .ite (.refl s) (.ite ?_ (keyStep_exchangeFailed s p _))
    unfold State.goodReply
    cases e.kind with
    | status => exact keyStep_goodStatus s p fr
    | ident => exact keyStep_goodIdent s p fr
    | prove => exact keyStep_goodProve s p e.nonce fr
    | debit => exact keyStep_goodDebit s p fr

theorem keyStep_waitUntil (s : State) (t : BitVec 32) (n : Nat) : KeyStep s (s.waitUntil t n) := .ite (.refl s) (.refl s)

theorem keyStep_waitDue (s : State) (p : Fin 4) : KeyStep s (s.waitDue p) := by
  unfold State.waitDue
  split
  · exact .refl s
  · exact .refl s
  · exact keyStep_waitUntil s _ 200

theorem keyStep_sendStatus (s : State) (p : Fin 4) : KeyStep s (s.sendStatus p) := .ite (keyStep_waitDue s p) (.refl s)

theorem keyStep_sendIdent (s : State) (p : Fin 4) : KeyStep s (s.sendIdent p) := .ite (keyStep_waitDue s p) (.refl s)

theorem keyStep_sendProve (s : State) (p : Fin 4) : KeyStep s (s.sendProve p) :=
  .ite ((keyStep_waitDue s p).trans (keyStep_draw _)) (.refl s)

theorem keyStep_sendDebit (s : State) (p : Fin 4) : KeyStep s (s.sendDebit p) := by
  unfold State.sendDebit
  split
  · exact .ite (.refl s) (.refl s)
  · exact .refl s

theorem keyStep_timeOut (s : State) (p : Fin 4) : KeyStep s (s.timeOut p) := by
  unfold State.timeOut
  split
  · exact (keyStep_waitUntil s _ 21).trans (keyStep_exchangeFailed _ p _)
  · exact .refl s

theorem keyStep_replyBegins (s : State) (p : Fin 4) : KeyStep s (s.replyBegins p) := by
  unfold State.replyBegins
  split
  · exact .ite (.refl s) (.refl s)
  · exact .refl s

theorem keyStep_detachAll (s : State) : KeyStep s s.detachAll := by
  refine KeyStep.foldl (fun t p => ?_) _ s
  unfold State.detachBay
  exact .ite (.refl t) ((keyStep_depart (t.modBay p _) p).trans (keyStep_bayChanged _ _))

/-! ## The accounts (chapters 5 and 6) -/

theorem keyStep_examinePin (s : State) (pin : Word8) : KeyStep s (s.examinePin pin).1 := by
  rcases s.examinePin_cases pin with ⟨-, h⟩ | ⟨-, a, h⟩ <;> rw [h] <;> exact .refl s

theorem keyStep_expireLockout (s : State) (t : BitVec 32) : KeyStep s (s.expireLockout t) := keyStep_waitUntil s t 60000

theorem keyStep_credential (s : State) (pin : Word8) : KeyStep s (s.credential pin).1 := by
  rcases s.credential_cases pin with ⟨t, -, -, h⟩ | ⟨t, -, -, h⟩ | ⟨-, h⟩ <;> rw [h]
  · exact .refl s
  · exact (keyStep_expireLockout s t).trans (keyStep_examinePin _ pin)
  · exact keyStep_examinePin s pin

theorem keyStep_pinChecked (s : State) (u : Fin 256) (good : Bool) : KeyStep s (s.pinChecked u good) := .ite (.refl s) (.refl s)

theorem keyStep_completeWrite (s : State) : KeyStep s s.completeWrite := by
  unfold State.completeWrite
  split <;> exact .refl s

theorem keyStep_beginWrite (s : State) : KeyStep s s.beginWrite := .ite (.refl s) (.refl s)

theorem keyStep_lockoutEnds (s : State) : KeyStep s s.lockoutEnds := by
  unfold State.lockoutEnds
  split
  · exact keyStep_expireLockout s _
  · exact .refl s

theorem keyStep_finishLoading (s : State) : KeyStep s s.finishLoading := by
  have hload := (frame_endLoad s).keyStep (by unfold State.endLoad; rfl) (by unfold State.endLoad; rfl)
  have hleave : ∀ t : State, KeyStep t t.leaveLoading := fun t => .ite (.refl t) (.refl t)
  have hpolls : ∀ t : State, KeyStep t t.firstPolls := fun t => .refl t
  exact .ite (hload.trans ((hleave _).trans (hpolls _))) (.refl s)

/-! ## Records (chapter 4) -/

theorem keyStep_settle (report : Bool) (s : State) (r : PageRecord) : KeyStep s (s.settle report r) := by
  have hcounters : ∀ (a : Ace) (f : JobCounters → JobCounters),
      KeyStep s (({ s with ace := a } : State).modJob r.job fun q => { q with counters := f q.counters }) := fun a f =>
    keyStep_modJob { s with ace := a } r.job _ rfl
  unfold State.settle
  simp only
  refine .ite (.ite (.hand (hcounters _ fun c => c.post _ _)) (hcounters _ fun c => c.post _ _)) ?_
  exact .ite (.hand (hcounters _ fun c => { c with aborted := sat32 (c.aborted + 1) })) (hcounters _ fun c => { c with aborted := _ })

theorem keyStep_settleDue (s : State) : KeyStep s s.settleDue := by
  unfold State.settleDue
  refine KeyStep.trans (Frame.keyStep ?_ ?_ ?_) (KeyStep.foldl (keyStep_settle true) _ _)
  · exact (frame_mapContexts s _ Context.dropDue_within).trans ((frame_dropEmptyOwn _).trans (frame_releaseAssembly _ _))
  · rfl
  · rfl

theorem keyStep_meterReturn (s : State) (r : ReadSlot) (lines : List Line) : KeyStep s (s.meterReturn r lines) := by
  unfold State.meterReturn
  split
  · next p depth j _ _ =>
    have hmarks := (frame_settleMarks s r.marks (markSums depth r.marks lines)).keyStep rfl rfl
    exact hmarks.trans ((keyStep_modJob _ j _ rfl).trans (keyStep_evalDebit _ p _))
  · exact .refl s

/-! ## Reports (R188, R189) -/

theorem keyStep_joinHanded (s : State) : KeyStep s s.joinHanded := by
  obtain ⟨r, h⟩ := joinHanded_leaves s
  rw [h]
  exact .refl s

theorem keyStep_joinFault (s : State) : KeyStep s s.joinFault := by
  unfold State.joinFault
  split
  · exact .refl s
  · next time _ =>
    refine .ite ?_ (.refl s)
    rcases s.joinAt_cases time ⟨.accountFault s.ace.faults, 0, false⟩ with ⟨-, h⟩ | ⟨-, h⟩ <;> rw [h] <;> exact .refl s

theorem keyStep_joinAll (s : State) : KeyStep s s.joinAll := (keyStep_joinFault s).trans (keyStep_joinHanded _)

end Sys2Proof.Machine
end

section
/-!
The key slots over the operations of the memory path, the Region Table, the Wipe Engine, the Ring Interface and the jobs, and over what
falls due in an event.
-/

namespace Sys2Proof.Machine

/-! ## What an examination refuses with QUOTA (R49) -/

theorem gate_quota {s : State} {t : Txn} {i k : Fin 32} {e : RegionEntry} {r : Raster} {j l : Fin 16} {v : View}
    (h : s.gate t i e r j v = .quota k l) : l = j := by
  unfold State.gate at h
  split at h
  · cases h
  simp only at h
  split at h
  · cases h
  split at h
  · cases h
  split at h
  · cases h
  split at h
  · cases h
  split at h
  · cases h
  · cases h
  · exact ((Verdict.quota.inj h).2).symm

theorem examineJob_quota {s : State} {t : Txn} {i k : Fin 32} {e : RegionEntry} {j l : Fin 16}
    (h : s.examineJob t i e j = .quota k l) : (s.job l).state.live = true := by
  unfold State.examineJob at h
  simp only at h
  split at h
  · cases h
  next hpass =>
  split at h
  · cases h
  split at h
  · split at h
    · rw [gate_quota h]
      exact letsPass_live (by simpa using hpass)
    · cases h
  · cases h

theorem examineMiss_quota {s : State} {k : Fin 32} {l : Fin 16} : s.examineMiss ≠ .quota k l := by
  unfold State.examineMiss
  split <;> exact fun h => nomatch h

theorem examineMatch_quota {s : State} {t : Txn} {k : Fin 32} {l : Fin 16} (h : s.examineMatch t = .quota k l) :
    (s.job l).state.live = true := by
  unfold State.examineMatch at h
  split at h
  · cases h
  split at h
  · exact absurd h examineMiss_quota
  split at h
  · unfold State.examineEntry at h
    split at h
    · cases h
    split at h
    · cases h
    · exact examineJob_quota h
  · exact absurd h examineMiss_quota

theorem examineFrom2_quota {s : State} {t : Txn} {k : Fin 32} {l : Fin 16} (h : s.examineFrom2 t = .quota k l) :
    (s.job l).state.live = true := by
  unfold State.examineFrom2 at h
  split at h
  · cases h
  split at h
  · cases h
  split at h
  · cases h
  split at h
  · split at h
    · cases h
    · cases h
  · exact examineMatch_quota h

theorem examine_quota {s : State} {t : Txn} {k : Fin 32} {l : Fin 16} (h : s.examine t = .quota k l) :
    (s.job l).state.live = true := by
  unfold State.examine at h
  split at h
  · cases h
  · exact examineFrom2_quota h

/-! ## The memory path (chapters 1, 2 and 4) -/

theorem keyStep_addRef (s : State) (j : Option (Fin 16)) : KeyStep s (s.addRef j) := by
  cases j with
  | none => exact .refl s
  | some j => exact keyStep_modJob s j _ rfl

theorem keyStep_releaseSlot (s : State) (e : Option (Fin 32)) (j : Option (Fin 16)) : KeyStep s (s.releaseSlot e j) := by
  cases j with
  | none => exact .refl s
  | some j => exact keyStep_modJob { s with rgt := s.rgt.lower e, down := { s.down with credits := s.down.credits + 1 } } j _ rfl

theorem keyStep_takeTrial (s : State) (j : Fin 16) (tr : Trial) (reserve : Nat) : KeyStep s (s.takeTrial j tr reserve) := by
  unfold State.takeTrial
  simp only
  split
  · exact .refl s
  · refine KeyStep.trans ?_ (KeyStep.foldl (keyStep_settle true) _ _)
    exact .refl s

theorem keyStep_acceptEffects (s : State) (a : Accept) : KeyStep s (s.acceptEffects a) := by
  have href : KeyStep s (({ s with rgt := s.rgt.raise a.entry } : State).addRef a.job) :=
    keyStep_addRef { s with rgt := s.rgt.raise a.entry } a.job
  unfold State.acceptEffects
  simp only
  split
  · exact href.trans (keyStep_takeTrial _ _ _ _)
  · exact href

theorem keyStep_accept (s : State) (t : Txn) (a : Accept) : KeyStep s (s.accept t a) := by
  unfold State.accept
  split
  · split
    · exact keyStep_acceptEffects (s.placeRead _ _) a
    · exact .refl s
  · split
    · exact keyStep_acceptEffects (s.placeWrite _ _) a
    · exact .refl s

theorem keyStep_deny (s : State) (t : Txn) (d : Denial) : KeyStep s (s.deny t d) :=
  .ite (.ite (.refl s) (.ite (.refl s) (.refl s))) (.ite (.refl s) (.refl s))

/-- A job that is refused QUOTA is OPEN before and HELD after. -/
theorem keyStep_quotaDenied (s : State) (t : Txn) (i : Fin 32) (j : Fin 16) (h : (s.job j).state.live = true) :
    KeyStep s (s.quotaDenied t i j) := by
  have hdeny := frame_deny s t ⟨.quota, .error, .entry i⟩
  refine .hand ((keyStep_deny s t _).trans (keyStep_modJob _ j _ ?_))
  rw [hdeny.states j, h]
  rfl

theorem keyStep_resolve (s : State) (t : Txn) {v : Verdict} (hv : ∀ k l, v = .quota k l → (s.job l).state.live = true) :
    KeyStep s (s.resolve t v).1 := by
  cases v with
  | accept a => exact keyStep_accept s t a
  | deny d => exact keyStep_deny s t d
  | holdCommit => exact .refl s
  | holdAssembly j => exact .refl s
  | quota i j => exact keyStep_quotaDenied s t i j (hv i j rfl)

theorem keyStep_present (s : State) (t : Option Txn) : KeyStep s (s.present t) := by
  cases t <;> exact .refl s

theorem keyStep_takePort (s : State) (d : Dir) : KeyStep s (s.takePort d) := by
  have hjoin : ∀ (u : State) (t : Txn) (c : Option HoldCause), KeyStep u (u.joinHold t c) := fun u t c => by
    cases c <;> exact .refl u
  unfold State.takePort
  split
  · exact .refl s
  · next t rest _ =>
    refine .ite ?_ (.refl s)
    exact KeyStep.trans (keyStep_resolve { s with path := s.path.setPort d rest } t fun k l => examine_quota) (hjoin _ t _)

theorem keyStep_takeReleased (s : State) : KeyStep s s.takeReleased := by
  have hput : ∀ (u : State) (n : Nat) (t : Txn) (c : Option HoldCause), KeyStep u (u.putHold n t c) := fun u n t c => by
    cases c <;> exact .refl u
  unfold State.takeReleased
  split
  · exact .refl s
  · next before h behind _ =>
    refine .ite ?_ (.refl s)
    exact KeyStep.trans (keyStep_resolve { s with path := { s.path with hold := before ++ behind } } h.txn
      fun k l => examineFrom2_quota) (hput _ _ h.txn _)

theorem keyStep_grant (s : State) : KeyStep s s.grant := by
  unfold State.grant
  refine .ite (.refl s) ?_
  split
  · exact .refl s
  · exact .refl s
  · exact .refl s
  · exact .ite (.refl s) (.refl s)

theorem keyStep_dropOrphan (s : State) (k : Nat) (d : Dir) : KeyStep s (s.dropOrphan k d) := by
  unfold State.dropOrphan
  split
  · exact .ite (.refl s) (.refl s)
  · exact .refl s

theorem keyStep_returnRead (s : State) (i : Fin 32) (r : ReadSlot) (okay : Bool) (lines : List Line) :
    KeyStep s (s.returnRead i r okay lines) := by
  have hmeter : ∀ up, KeyStep s (if okay = true then s.meterReturn r up else s.meterLost r) := fun up =>
    .ite (keyStep_meterReturn s r up) ((frame_settleMarks s r.marks _).keyStep rfl rfl)
  have hfree : ∀ t : State, KeyStep t (({ t with path := { t.path with reads := t.path.reads.set i none } } : State).releaseSlot
      r.entry r.job) := fun t =>
    keyStep_releaseSlot { t with path := { t.path with reads := t.path.reads.set i none } } r.entry r.job
  exact (hmeter (upstreamLines r.view (s.keyOf r.job) r.addr lines)).trans (hfree _)

theorem keyStep_completeRead (s : State) (ref : DnRef) (okay : Bool) (lines : List Line) :
    KeyStep s (s.completeRead ref okay lines) := by
  unfold State.completeRead
  split
  · exact keyStep_dropOrphan s _ .read
  · split
    · exact .ite (.refl s) (keyStep_returnRead s _ _ okay lines)
    · exact .refl s

theorem keyStep_offerAnchor (s : State) (a : Addr) (ls : List WriteLine) : KeyStep s (s.offerAnchor a ls) := by
  unfold State.offerAnchor
  split
  · refine .ite ?_ (.refl s)
    split
    · exact .ite (.refl s) (.refl s)
    · exact .refl s
  · exact .refl s

theorem keyStep_takeIndex (s : State) (l : WriteLine) : KeyStep s (s.takeIndex l) := by
  unfold State.takeIndex
  split
  · exact .ite (.refl s) (.refl s)
  · exact .refl s

theorem keyStep_handIndex (s : State) (w : WriteSlot) : KeyStep s (s.handIndex w) := by
  unfold State.handIndex
  split
  · split
    · exact keyStep_takeIndex s _
    · exact .refl s
  · exact .refl s

theorem keyStep_answerWrite (s : State) (i : Fin 32) (w : WriteSlot) (okay : Bool) : KeyStep s (s.answerWrite i w okay) := by
  have hfree : KeyStep s ((({ s with path := { s.path with writes := s.path.writes.set i none } } : State).releaseSlot
      w.entry w.job).give (.response w.id .write okay [])) :=
    keyStep_releaseSlot { s with path := { s.path with writes := s.path.writes.set i none } } w.entry w.job
  exact .ite (hfree.trans ((keyStep_handIndex _ w).trans (keyStep_offerAnchor _ _ _))) hfree

theorem keyStep_completeWriteAt (s : State) (ref : DnRef) (okay : Bool) : KeyStep s (s.completeWriteAt ref okay) := by
  unfold State.completeWriteAt
  split
  · exact keyStep_dropOrphan s _ .write
  · split
    · exact keyStep_answerWrite s _ _ okay
    · exact .refl s

/-! ## The Region Table (section 1.5) -/

theorem keyStep_completeCommit (s : State) : KeyStep s s.completeCommit := by
  unfold State.completeCommit
  split
  · exact .refl s
  · next c _ =>
    have hset : KeyStep s (s.setRegions (s.carried c.changed)) := keyStep_setRegions s _
    have hhold : ∀ (t : State) (hold : List HoldEntry), KeyStep t { t with path := { t.path with hold := hold } } :=
      fun t _ => .refl t
    exact .ite (.hand (hset.trans (hhold _ _))) (.refl s)

/-! ## The Wipe Engine (sections 9.1 to 9.3) -/

theorem keyStep_issueWipeWrite (s : State) : KeyStep s s.issueWipeWrite := by
  unfold State.issueWipeWrite
  split
  · split
    · exact .ite (.refl s) (.refl s)
    · exact .refl s
  · exact .refl s

theorem keyStep_issueVerifyRead (s : State) : KeyStep s s.issueVerifyRead := by
  unfold State.issueVerifyRead
  split
  · split
    · exact .ite (.refl s) (.refl s)
    · exact .refl s
  · exact .refl s

theorem keyStep_answerWipeWrite (s : State) (i : Fin 8) (okay : Bool) : KeyStep s (s.answerWipeWrite i okay) := by
  unfold State.answerWipeWrite
  split
  · exact .ite (.refl s) (.refl s)
  · exact .refl s

theorem keyStep_returnVerifyRead (s : State) (i : Fin 8) (okay : Bool) (lines : List Line) :
    KeyStep s (s.returnVerifyRead i okay lines) := by
  unfold State.returnVerifyRead
  split
  · exact .ite (.refl s) (.refl s)
  · exact .refl s

theorem keyStep_startWipe (s : State) : KeyStep s s.startWipe := .ite (.refl s) (.refl s)

/-- A job whose last wipe is done was WIPING and is FREE: it has no key before or after (R54). -/
theorem keyStep_jobWiped (s : State) (j : Fin 16) : KeyStep s (s.jobWiped j) := by
  unfold State.jobWiped
  simp only
  have hless : KeyStep s (s.modJob j fun q => { q with wipes := q.wipes - 1 }) := keyStep_modJob s j _ rfl
  split
  · next h =>
    refine hless.trans (keyStep_modJob _ j JobSlot.freed ?_)
    rw [h.2]
    rfl
  · exact hless

theorem keyStep_finishWipe (s : State) : KeyStep s s.finishWipe := by
  unfold State.finishWipe
  split
  · exact .refl s
  · next e rest _ =>
    refine .ite ?_ (.refl s)
    simp only
    split
    · exact .refl s
    · exact keyStep_jobWiped (({ s with wpe := { s.wpe with queue := rest } } : State).hand _ _) _

/-! ## The Ring Interface (chapter 10) -/

theorem keyStep_startFetch (s : State) : KeyStep s s.startFetch := by
  unfold State.startFetch
  split
  · exact .ite (.refl s) (.refl s)
  · exact .refl s

theorem keyStep_issueReportWrite (s : State) : KeyStep s s.issueReportWrite := by
  unfold State.issueReportWrite
  split
  · refine .ite ?_ (.refl s)
    split <;> exact .refl s
  · exact .refl s

theorem keyStep_answerReportWrite (s : State) (i : Fin 8) (okay : Bool) : KeyStep s (s.answerReportWrite i okay) := by
  unfold State.answerReportWrite
  split
  · exact .ite (.refl s) (.ite (.refl s) (.ite (.refl s) (.refl s)))
  · exact .refl s

theorem keyStep_issueIndexWrite (s : State) : KeyStep s s.issueIndexWrite := by
  unfold State.issueIndexWrite
  split
  · exact .ite (.refl s) (.refl s)
  · exact .refl s

theorem keyStep_answerIndexWrite (s : State) (i : Fin 8) (okay : Bool) : KeyStep s (s.answerIndexWrite i okay) := by
  unfold State.answerIndexWrite
  split
  · exact .ite (.refl s) (.refl s)
  · exact .refl s

/-! ## Jobs that end (R53, R65) -/

theorem keyStep_tellEnded (s : State) (u : Fin 256) (marked : Bool) : KeyStep s (s.tellEnded u marked) :=
  .ite (keyStep_closeNotice { s with ace := s.ace.jobEnded u }) (.refl s)

theorem left_live (q : JobSlot) (a : Nat) : (q.left a).state.live = false := by
  unfold JobSlot.left
  split <;> rfl

/-- A job that leaves CLOSING has lost its key, and is FREE or WIPING (R53 steps 1, 4 and 5). -/
theorem keyStep_slotLeft (s : State) (j : Fin 16) (g : Regions) (a : Nat) :
    KeyStep s ((({ s with keys := s.keys.set j none } : State).setRegions g).modJob j fun q => q.left a) := by
  have hset : (({ s with keys := s.keys.set j none } : State).setRegions g).keys = s.keys.set j none
      ∧ (({ s with keys := s.keys.set j none } : State).setRegions g).draws = s.draws := by
    rw [State.setRegions_eq]
    exact ⟨rfl, rfl⟩
  refine ⟨by rw [State.modJob_draws, hset.2], fun k => ?_⟩
  rw [State.modJob_job, State.modJob_keys, hset.1, get_set, State.setRegions_job]
  split
  · exact .inr ⟨rfl, left_live _ a⟩
  · exact .inl ⟨rfl, rfl⟩

theorem keyStep_reportSkipped (s : State) (j : Fin 16) (a : Nat) (rs : List (Nat × Nat)) (c : SkipCause) :
    KeyStep s (s.reportSkipped j a rs c) := .ite (.refl s) (.refl s)

theorem keyStep_leaveClosing (s : State) (j : Fin 16) : KeyStep s (s.leaveClosing j) := by
  unfold State.leaveClosing
  simp only
  refine KeyStep.trans ?_ (keyStep_tellEnded _ _ _)
  refine KeyStep.trans (.hand ?_) (keyStep_reportSkipped _ _ _ _ _)
  exact keyStep_slotLeft (s.appendWipes j _) j _ _

theorem keyStep_leaveIfDue (s : State) (j : Fin 16) : KeyStep s (s.leaveIfDue j) := .ite (keyStep_leaveClosing s j) (.refl s)

theorem keyStep_leaveAll (s : State) : KeyStep s s.leaveAll := KeyStep.foldl keyStep_leaveIfDue _ s

theorem keyStep_eraseJob (s : State) (j : Fin 16) : KeyStep s (s.eraseJob j) :=
  (keyStep_modJob_destroyed s j JobSlot.freed rfl).trans (keyStep_tellEnded _ _ _)

theorem keyStep_erase (s : State) : KeyStep s s.erase :=
  (keyStep_setRegions s _).trans (KeyStep.foldl keyStep_eraseJob _ _)

/-! ## Standby (R177, R178) -/

theorem keyStep_drainEnd (s : State) : KeyStep s s.drainEnd := by
  have hdetach : ∀ (t : State) (x : Standby), KeyStep t (t.detachedAs x) := fun t _ =>
    (keyStep_detachAll t).trans (keyStep_rci _ _)
  unfold State.drainEnd
  split
  · next m tag n _ =>
    refine .ite ?_ (.refl s)
    cases m with
    | retain =>
      rw [eraseAndDetach_retain]
      exact hdetach s _
    | erase =>
      rw [eraseAndDetach_erase]
      exact (keyStep_erase s).trans (hdetach s.erase _)
  · exact .refl s

theorem keyStep_flushTrigger (s : State) : KeyStep s s.flushTrigger := by
  unfold State.flushTrigger
  split
  · exact keyStep_ace s _
  · exact .refl s

theorem keyStep_flushEnd (s : State) : KeyStep s s.flushEnd := by
  unfold State.flushEnd
  split
  · exact .ite (.refl s) (.refl s)
  · exact .refl s

theorem keyStep_postEnd (s : State) : KeyStep s s.postEnd := by
  unfold State.postEnd
  split
  · exact .ite (.refl s) (.refl s)
  · exact .refl s

theorem keyStep_wakeCheck (s : State) : KeyStep s s.wakeCheck := .ite (.refl s) (.refl s)

/-! ## What falls due in an event -/

theorem keyStep_consequences (s : State) : KeyStep s s.consequences :=
  (keyStep_settleDue s).trans ((keyStep_completeCommit _).trans ((keyStep_finishWipe _).trans ((keyStep_leaveAll _).trans
    ((keyStep_startWipe _).trans ((keyStep_drainEnd _).trans ((keyStep_flushTrigger _).trans (keyStep_flushEnd _)))))))

theorem keyStep_endEvent (s : State) : KeyStep s s.endEvent :=
  (keyStep_consequences s).trans ((keyStep_joinAll _).trans ((keyStep_postEnd _).trans (keyStep_wakeCheck _)))

/-- An event keeps both laws of the keys where its own effect does. -/
theorem KeysKept.event {s t : State} {body : State → State} (h : event body s = .next t)
    (hb : KeysKept s.beginEvent (body s.beginEvent)) : KeysKept s t := by
  have hbegin : KeysKept s s.beginEvent := KeyStep.keysKept (.refl s)
  simp only [Sys2Proof.Machine.event, Host.Outcome.next.injEq] at h
  subst h
  split
  · exact hbegin.trans (hb.trans (keyStep_endEvent _).keysKept)
  · exact hbegin

end Sys2Proof.Machine
end

section
/-!
Every command keeps the laws of the keys: a ring command by its owner's operations, of which the opening of a job alone gives a key, and
every other row by the operation it runs. Settles O6.
-/

namespace Sys2Proof.Machine

/-! ## Regions, capture, wipes and standby -/

theorem keyStep_regionSet (s : State) (p : RegionSetParams) : KeyStep s (s.regionSet p).2 := by
  unfold State.regionSet
  split
  · exact .refl s
  · split
    · split
      · exact keyStep_setRegions s _
      · exact .refl s
    · exact .refl s

theorem keyStep_regionClear (s : State) (index : Nat) : KeyStep s (s.regionClear index).2 := by
  unfold State.regionClear
  split
  · exact .refl s
  · split
    · exact keyStep_setRegions s _
    · exact .refl s

theorem keyStep_regionsCommit (s : State) (tag : BitVec 16) : KeyStep s (s.regionsCommit tag).2 := by
  unfold State.regionsCommit
  split
  · exact .refl s
  · split <;> exact .refl s

theorem keyStep_wipeRange (s : State) (tag : BitVec 16) (p : WipeRangeParams) : KeyStep s (s.wipeRange tag p).2 := by
  unfold State.wipeRange
  split
  · exact .refl s
  · repeat' split
    all_goals exact .refl s

theorem keyStep_standbyEnter (s : State) (mode : Nat) (tag : BitVec 16) : KeyStep s (s.standbyEnter mode tag).2 := by
  unfold State.standbyEnter
  split
  · exact .refl s
  · repeat' split
    all_goals exact .refl s

theorem keyStep_bayQuery (s : State) (bay : Nat) : KeyStep s (s.bayQuery bay).2 := by
  unfold State.bayQuery
  split <;> exact .refl s

/-! ## Admin commands (R116): beside the credential check, ACE alone changes -/

theorem keyStep_admin (s : State) (pin : Word8) {body : State → Answer} (h : ∀ t, KeyStep t (body t).2) :
    KeyStep s (s.admin pin body).2 := by
  have hc := keyStep_credential s pin
  unfold State.admin
  split
  · next t v e =>
    rw [e] at hc
    exact hc
  · next t e =>
    rw [e] at hc
    exact hc.trans (h t)

theorem keyStep_classSetBody (p : ClassSetParams) (s : State) : KeyStep s (State.classSetBody p s).2 := by
  unfold State.classSetBody
  split
  · split
    · exact .refl s
    · split <;> exact .refl s
  · exact .refl s

theorem keyStep_tariffSetBody (t : Tariff) (s : State) : KeyStep s (State.tariffSetBody t s).2 := by
  unfold State.tariffSetBody
  split
  · exact .refl s
  · split <;> exact .refl s

theorem keyStep_userSetBody (p : UserSetParams) (s : State) : KeyStep s (State.userSetBody p s).2 := by
  unfold State.userSetBody
  split
  · exact .refl s
  · split
    · exact .refl s
    · split <;> exact .refl s

theorem keyStep_userAdjustBody (user : Nat) (amount : Int) (s : State) : KeyStep s (State.userAdjustBody user amount s).2 := by
  have hadjust : ∀ u, KeyStep s (s.adjustBalance u amount).2 := fun u => by
    unfold State.adjustBalance
    simp only
    split <;> exact .refl s
  unfold State.userAdjustBody
  split
  · exact .refl s
  · split
    · exact .refl s
    · split
      · exact .refl s
      · exact .refl s
      · exact hadjust _
      · exact hadjust _

theorem keyStep_userQueryBody (user : Nat) (s : State) : KeyStep s (State.userQueryBody user s).2 := by
  unfold State.userQueryBody
  split <;> exact .refl s

theorem keyStep_deptSetBody (dept : Nat) (allowance : Option Nat) (s : State) :
    KeyStep s (State.deptSetBody dept allowance s).2 := by
  unfold State.deptSetBody
  split
  · exact .refl s
  · split
    · exact .refl s
    · split <;> exact .refl s

theorem keyStep_periodResetBody (which : DeptChoice) (s : State) : KeyStep s (State.periodResetBody which s).2 := by
  unfold State.periodResetBody
  split <;> exact .refl s

theorem keyStep_servicePinSetBody (newPin : Word8) (s : State) : KeyStep s (State.servicePinSetBody newPin s).2 := by
  unfold State.servicePinSetBody
  split <;> exact .refl s

theorem keyStep_bayConfigBody (p : BayConfigParams) (s : State) : KeyStep s (State.bayConfigBody p s).2 := by
  unfold State.bayConfigBody
  split <;> exact .refl s

/-! ## Jobs (R45 to R51, R58 to R60) -/

/-- The opening of a job (R31, R46): its slot is live, and its key is that of a new draw, which no slot has. -/
theorem keysKept_opened {s t : State} {j : Fin 16} (hlive : (t.job j).state.live = true)
    (hjob : ∀ k, k ≠ j → t.job k = s.job k) (hkeys : t.keys = s.keys.set j (some (Config.randomKey s.draws)))
    (hdraws : t.draws = s.draws + 1) : KeysKept s t where
  keyLaw h k := by
    rw [hkeys, get_set]
    split
    · next hk => rw [hk, hlive]; rfl
    · next hk => rw [hjob k hk]; exact h k
  drawnLaw := fun ⟨hdrawn, hdistinct⟩ => by
    have hfresh : ∀ (i : Fin 16), s.keys[i] ≠ some (Config.randomKey s.draws) := fun i hi => by
      obtain ⟨n, hn, e⟩ := hdrawn i _ hi
      exact absurd (randomKey_injective e) (Nat.ne_of_gt hn)
    rw [State.drawnLaw, hkeys, hdraws]
    refine ⟨fun k x hx => ?_, fun i k hik x hx hk => ?_⟩
    · rw [get_set] at hx
      split at hx
      · exact ⟨s.draws, Nat.lt_succ_self _, (Option.some.inj hx).symm⟩
      · obtain ⟨n, hn, e⟩ := hdrawn k x hx
        exact ⟨n, Nat.lt_succ_of_lt hn, e⟩
    · rw [get_set] at hx hk
      split at hx
      · next hi =>
        rw [if_neg (fun e => hik (hi.trans e.symm)), ← hx] at hk
        exact hfresh k hk
      · split at hk
        · exact hfresh i (hx.trans hk.symm)
        · exact hdistinct i k hik x hx hk

theorem keysKept_openSlot (s : State) (p : JobOpenOk) : KeysKept s (s.openSlot p).2 := by
  unfold State.openSlot
  split
  · exact (KeyStep.refl s).keysKept
  · split
    · exact (KeyStep.refl s).keysKept
    · next j _ =>
      have hjob : ∀ k : Fin 16, (s.jct.slots.set j (p.slot (s.jct.openCounter + 1)))[k]
          = if k = j then p.slot (s.jct.openCounter + 1) else s.job k := fun k => get_set _ j k _
      refine keysKept_opened ?_ (fun k hk => (hjob k).trans (if_neg hk)) rfl rfl
      refine (congrArg (fun q => q.state.live) ((hjob j).trans (if_pos rfl))).trans ?_
      unfold JobOpenOk.slot
      cases p.hold <;> rfl

theorem keysKept_jobOpen (s : State) (p : JobOpenParams) : KeysKept s (s.jobOpen p).2 := by
  unfold State.jobOpen
  split
  · exact (KeyStep.refl s).keysKept
  · split
    · exact (KeyStep.refl s).keysKept
    · split
      · exact keysKept_openSlot s _
      · split
        · exact (keyStep_pinChecked s _ true).keysKept.trans (keysKept_openSlot _ _)
        · exact (keyStep_pinChecked s _ false).keysKept

theorem keyStep_jobRelease (s : State) (job : Nat) (pin : Word8) : KeyStep s (s.jobRelease job pin).2 := by
  unfold State.jobRelease
  split
  · exact .refl s
  · next j _ =>
    split
    · exact .refl s
    · split
      · next why hheld =>
        have hchecked := keyStep_pinChecked s (s.job j).user true
        split
        · exact .refl s
        · split
          · exact keyStep_pinChecked s _ false
          · simp only
            split
            · exact hchecked
            · refine hchecked.trans (keyStep_modJob _ j _ ?_)
              rw [(frame_pinChecked s (s.job j).user true).states j, hheld]
              rfl
      · exact .refl s

theorem bindable_live {st : JobState} (h : st.bindable = true) : st.live = true := by
  cases st with
  | opened => rfl
  | held why => rfl
  | free => cases h
  | closing => cases h
  | wiping => cases h

theorem keyStep_ownContext (s : State) (m : Marked) : KeyStep s (s.ownContext m) := keyStep_modJob s m.job _ rfl

theorem keyStep_closeJob (s : State) (j : Fin 16) (tag : BitVec 16) (h : (s.job j).state.bindable = true) :
    KeyStep s (s.closeJob j tag) := by
  have hclosing : KeyStep s (s.modJob j fun q => { q with state := .closing, closeTag := tag }) :=
    keyStep_modJob s j _ (bindable_live h).symm
  have hpending : ∀ t : State, KeyStep t (if t.jct.isStacked j = true
      then t.modJob j fun q => { q with closePending := true } else t) := fun t => .ite (keyStep_modJob t j _ rfl) (.refl t)
  have hunmark : ∀ (t : State) (m : Marked), KeyStep t (({ t with jct := { t.jct with marking := none } } : State).ownContext m) :=
    fun t m => keyStep_ownContext { t with jct := { t.jct with marking := none } } m
  unfold State.closeJob
  refine hclosing.trans ?_
  simp only
  split
  · exact .ite (hunmark _ _) (hpending _)
  · exact hpending _

theorem keyStep_jobClose (s : State) (job : Nat) (tag : BitVec 16) : KeyStep s (s.jobClose job tag).2 := by
  unfold State.jobClose
  split
  · exact .refl s
  · split
    · next h => exact keyStep_closeJob s _ tag h
    · exact .refl s

theorem keyStep_mark (s : State) (j : Fin 16) : KeyStep s (s.mark j) :=
  keyStep_modJob { s with jct := { s.jct with marking := some ⟨j, .fresh⟩ } } j _ rfl

theorem keyStep_markSelect (s : State) (job : Nat) : KeyStep s (s.markSelect job).2 := by
  unfold State.markSelect
  split
  · exact .refl s
  · split
    · exact .refl s
    · split
      · exact .refl s
      · exact keyStep_mark s.releaseMarking _

theorem keyStep_markInterrupt (s : State) (job : Nat) : KeyStep s (s.markInterrupt job).2 := by
  unfold State.markInterrupt
  split
  · exact .refl s
  · split
    · exact .refl s
    · split
      · exact keyStep_mark s _
      · split
        · exact .refl s
        · next m _ _ =>
          exact keyStep_mark { s.releaseMarking with jct := { s.jct with stack := m :: s.jct.stack } } _

theorem keyStep_popStack (l : List Marked) (s : State) (n : Nat) : KeyStep s (s.popStack l n).1 := by
  induction l generalizing s n with
  | nil => exact .refl s
  | cons m l ih =>
    unfold State.popStack
    split
    · exact (keyStep_ownContext s m).trans (ih _ _)
    · exact .refl s

theorem keyStep_markResume (s : State) : KeyStep s s.markResume.2 := by
  unfold State.markResume
  split
  · exact .refl s
  · split
    · exact .refl s
    · exact keyStep_popStack s.jct.stack s.releaseMarking 0

/-! ## Every ring command -/

theorem KeysKept.report {s : State} {a : Answer} (kind tag : BitVec 16) (h : KeysKept s a.2) : KeysKept s (report kind tag a) := by
  have hhanded : KeyStep a.2 (Sys2Proof.Machine.report kind tag a) := .refl a.2
  exact h.trans hhanded.keysKept

theorem KeyStep.report {s : State} {a : Answer} (kind tag : BitVec 16) (h : KeyStep s a.2) : KeysKept s (report kind tag a) :=
  h.keysKept.report kind tag

theorem keysKept_runCommand (c : Instr) (s : State) : KeysKept s (runCommand c s) := by
  cases c with
  | regionSet tag p => exact (keyStep_regionSet s p).report _ _
  | regionClear tag i => exact (keyStep_regionClear s i).report _ _
  | regionsCommit tag => exact (keyStep_regionsCommit s tag).report _ _
  | captureClear tag => exact KeyStep.report (a := (_, s.clearCapture)) _ _ (.refl s)
  | jobOpen tag p => exact (keysKept_jobOpen s p).report _ _
  | jobRelease tag j pin => exact (keyStep_jobRelease s j pin).report (a := plainAnswer _) _ _
  | jobClose tag j => exact (keyStep_jobClose s j tag).report (a := plainAnswer _) _ _
  | jobQuery tag j => exact KeyStep.report (a := (_, s)) _ _ (.refl s)
  | markSelect tag j => exact (keyStep_markSelect s j).report (a := plainAnswer _) _ _
  | markInterrupt tag j => exact (keyStep_markInterrupt s j).report _ _
  | markResume tag => exact (keyStep_markResume s).report _ _
  | classSet tag p => exact (keyStep_admin s p.pin (keyStep_classSetBody p)).report _ _
  | tariffSet tag p => exact (keyStep_admin s p.pin (keyStep_tariffSetBody _)).report _ _
  | userSet tag p => exact (keyStep_admin s p.servicePin (keyStep_userSetBody p)).report _ _
  | userAdjust tag pin u a => exact (keyStep_admin s pin (keyStep_userAdjustBody u a)).report _ _
  | userQuery tag pin u => exact (keyStep_admin s pin (keyStep_userQueryBody u)).report _ _
  | deptSet tag pin d a => exact (keyStep_admin s pin (keyStep_deptSetBody d a)).report _ _
  | periodReset tag pin w => exact (keyStep_admin s pin (keyStep_periodResetBody w)).report _ _
  | meterQuery tag pin => exact (keyStep_admin s pin (body := State.meterQueryBody) fun t => .refl t).report _ _
  | servicePinSet tag pin x => exact (keyStep_admin s pin (keyStep_servicePinSetBody x)).report _ _
  | bayQuery tag b => exact (keyStep_bayQuery s b).report _ _
  | bayConfig tag p => exact (keyStep_admin s p.pin (keyStep_bayConfigBody p)).report _ _
  | wipeRange tag p => exact (keyStep_wipeRange s tag p).report _ _
  | standbyEnter tag m => exact (keyStep_standbyEnter s m tag).report _ _
  | unknownKind tag x => exact KeyStep.report (a := (_, s)) _ _ (.refl s)
  | _ => exact (KeyStep.refl s).keysKept

theorem keysKept_direct (s : State) (c : Instr) : KeysKept s (s.direct (runCommand c)) := by
  unfold State.direct
  split
  · exact (keyStep_rci s _).keysKept.trans (keysKept_runCommand c _)
  · exact (KeyStep.refl s).keysKept

theorem keysKept_ring {s t : State} {c : Instr} (h : ringEvent (runCommand c) s = .next t) : KeysKept s t :=
  .event h (keysKept_direct s.beginEvent c)

theorem keysKept_refuseKind (tag kind : BitVec 16) (s : State) : KeysKept s (State.refuseKind tag kind s) := by
  unfold State.refuseKind
  split
  · exact (KeyStep.refl s).keysKept
  · exact keysKept_direct s (.unknownKind tag kind)

/-- A fetched line is executed as its command alone would be (R187). -/
theorem keysKept_returnFetch (s : State) (i : Fin 8) (okay : Bool) (l : Line) : KeysKept s (s.returnFetch i okay l) := by
  have hdown : ∀ d : Down, KeyStep s { s with down := d } := fun _ => .refl s
  unfold State.returnFetch
  split
  · split
    · exact (hdown _).keysKept
    · split
      · exact (hdown _).keysKept.trans ((keysKept_runCommand (commandOfLine l) _).trans (keyStep_rci _ _).keysKept)
      · split
        · have hskip : ∀ t : State, KeyStep t t.skipCommand := fun t => .refl t
          exact ((hdown _).trans (hskip _)).keysKept
        · exact (hdown _).keysKept
  · exact (KeyStep.refl s).keysKept

/-! ## Supply and resets (R40, R42) -/

/-- A part without keys and without live jobs meets both laws. -/
theorem keysKept_of_gone {s t : State} (h : ∀ j : Fin 16, t.keys[j] = none ∧ (t.job j).state.live = false) : KeysKept s t where
  keyLaw _ j := by
    obtain ⟨hkey, hlive⟩ := h j
    rw [hkey, hlive]
    rfl
  drawnLaw _ := by
    refine ⟨fun j k hk => ?_, fun i j _ k hk => ?_⟩
    · rw [(h j).1] at hk
      cases hk
    · rw [(h i).1] at hk
      cases hk

theorem keysKept_volatileReset (s u : State) (straps : BitVec 2) (powered : Bool) :
    KeysKept s { u.volatileReset straps with powered := powered } :=
  keysKept_of_gone fun j => ⟨Vector.getElem_replicate j.isLt, congrArg (fun q : JobSlot => q.state.live) (Vector.getElem_replicate j.isLt)⟩

theorem keysKept_loseSupply (s : State) : KeysKept s s.loseSupply := by
  unfold State.loseSupply
  split
  · exact keysKept_volatileReset s s.tearWrite s.rci.straps false
  · exact KeyStep.keysKept (.refl s)

theorem keysKept_lrst {s t : State} {straps : BitVec 2} (h : exec (.lrst straps) s = .next t) : KeysKept s t := by
  cases hp : s.powered with
  | true =>
    obtain ⟨-, hreset, -⟩ := Proofs.linkReset
    obtain ⟨u, hu, hjobs, -⟩ := hreset straps s hp
    obtain rfl : u = t := Host.Outcome.next.inj (hu.symm.trans h)
    refine keysKept_of_gone fun j => ?_
    obtain ⟨hkey, hlive, -⟩ := hjobs j
    exact ⟨hkey, hlive⟩
  | false =>
    have hnone : exec (.lrst straps) s = .next s.beginEvent := by
      show resetEvent (fun t => t.linkReset straps) s = _
      rw [resetEvent, hp]
      rfl
    obtain rfl : s.beginEvent = t := Host.Outcome.next.inj (hnone.symm.trans h)
    exact KeyStep.keysKept (.refl s)

/-! ## Every command, and time -/

/-- The event of an effect that is no opening. -/
theorem keysKept_of_keyStep {s t : State} (body : State → State) (h : event body s = .next t)
    (hb : ∀ u, KeyStep u (body u)) : KeysKept s t := .event h (hb s.beginEvent).keysKept

theorem exec_keysKept {c : Instr} {s t : State} (h : exec c s = .next t) : KeysKept s t := by
  cases c with
  | por straps =>
    obtain rfl : s.powerOn straps = t := Host.Outcome.next.inj h
    exact keysKept_volatileReset s (if s.powered then s.tearWrite else s) straps true
  | supplyLoss =>
    obtain rfl : s.loseSupply = t := Host.Outcome.next.inj h
    exact keysKept_loseSupply s
  | lrst straps => exact keysKept_lrst h
  | fetchStart => exact keysKept_of_keyStep State.startFetch h keyStep_startFetch
  | fetchReadReturn i okay l =>
    exact .event (body := fun u => u.returnFetch i okay l) h (keysKept_returnFetch s.beginEvent i okay l)
  | wake a => exact keysKept_of_keyStep (fun u => u.setWakePin a) h fun u => keyStep_rci u _
  | loadingEnd => exact keysKept_of_keyStep State.finishLoading h keyStep_finishLoading
  | takeTransaction d p =>
    exact keysKept_of_keyStep (fun u => (u.present p).takePort d) h fun u => (keyStep_present u p).trans (keyStep_takePort _ d)
  | releasedTaken => exact keysKept_of_keyStep State.takeReleased h keyStep_takeReleased
  | downstreamGrant => exact keysKept_of_keyStep State.grant h keyStep_grant
  | readReturn ref okay ls => exact keysKept_of_keyStep (fun u => u.completeRead ref okay ls) h fun u => keyStep_completeRead u ref okay ls
  | writeAnswer ref okay => exact keysKept_of_keyStep (fun u => u.completeWriteAt ref okay) h fun u => keyStep_completeWriteAt u ref okay
  | commitCompletion => exact keysKept_of_keyStep State.completeCommit h keyStep_completeCommit
  | recordSettle => exact keysKept_of_keyStep State.settleDue h keyStep_settleDue
  | jobLeavesClosing j => exact keysKept_of_keyStep (fun u => u.leaveIfDue j) h fun u => keyStep_leaveIfDue u j
  | wipeStart => exact keysKept_of_keyStep State.startWipe h keyStep_startWipe
  | wipeWriteIssue => exact keysKept_of_keyStep State.issueWipeWrite h keyStep_issueWipeWrite
  | wipeWriteAnswer i okay => exact keysKept_of_keyStep (fun u => u.answerWipeWrite i okay) h fun u => keyStep_answerWipeWrite u i okay
  | verifyReadIssue => exact keysKept_of_keyStep State.issueVerifyRead h keyStep_issueVerifyRead
  | verifyReadReturn i okay ls =>
    exact keysKept_of_keyStep (fun u => u.returnVerifyRead i okay ls) h fun u => keyStep_returnVerifyRead u i okay ls
  | wipeDone => exact keysKept_of_keyStep State.finishWipe h keyStep_finishWipe
  | reportWriteIssue => exact keysKept_of_keyStep State.issueReportWrite h keyStep_issueReportWrite
  | reportWriteAnswer i okay => exact keysKept_of_keyStep (fun u => u.answerReportWrite i okay) h fun u => keyStep_answerReportWrite u i okay
  | indexWriteIssue => exact keysKept_of_keyStep State.issueIndexWrite h keyStep_issueIndexWrite
  | indexWriteAnswer i okay => exact keysKept_of_keyStep (fun u => u.answerIndexWrite i okay) h fun u => keyStep_answerIndexWrite u i okay
  | accountFault => exact keysKept_of_keyStep State.joinFault h keyStep_joinFault
  | amemWriteStart => exact keysKept_of_keyStep State.beginWrite h keyStep_beginWrite
  | amemWriteComplete => exact keysKept_of_keyStep State.completeWrite h keyStep_completeWrite
  | lockoutExpiry => exact keysKept_of_keyStep State.lockoutEnds h keyStep_lockoutEnds
  | statusReq p => exact keysKept_of_keyStep (fun u => u.sendStatus p) h fun u => keyStep_sendStatus u p
  | identReq p => exact keysKept_of_keyStep (fun u => u.sendIdent p) h fun u => keyStep_sendIdent u p
  | proveReq p => exact keysKept_of_keyStep (fun u => u.sendProve p) h fun u => keyStep_sendProve u p
  | debitReq p => exact keysKept_of_keyStep (fun u => u.sendDebit p) h fun u => keyStep_sendDebit u p
  | statusRep p fr => exact keysKept_of_keyStep (fun u => u.replyEnds .status p fr) h fun u => keyStep_replyEnds u .status p fr
  | identRep p fr => exact keysKept_of_keyStep (fun u => u.replyEnds .ident p fr) h fun u => keyStep_replyEnds u .ident p fr
  | proveRep p fr => exact keysKept_of_keyStep (fun u => u.replyEnds .prove p fr) h fun u => keyStep_replyEnds u .prove p fr
  | debitRep p fr => exact keysKept_of_keyStep (fun u => u.replyEnds .debit p fr) h fun u => keyStep_replyEnds u .debit p fr
  | exchangeTimeout p => exact keysKept_of_keyStep (fun u => u.timeOut p) h fun u => keyStep_timeOut u p
  | replyFrameBegins p => exact keysKept_of_keyStep (fun u => u.replyBegins p) h fun u => keyStep_replyBegins u p
  | standbyDrainEnd => exact keysKept_of_keyStep State.drainEnd h keyStep_drainEnd
  | flushComplete => exact keysKept_of_keyStep State.flushEnd h keyStep_flushEnd
  | standbyPostEnd => exact keysKept_of_keyStep State.postEnd h keyStep_postEnd
  | unknownKind tag kind => exact .event (body := State.refuseKind tag kind) h (keysKept_refuseKind tag kind s.beginEvent)
  | regionSet tag p => exact keysKept_ring (c := .regionSet tag p) h
  | regionClear tag i => exact keysKept_ring (c := .regionClear tag i) h
  | regionsCommit tag => exact keysKept_ring (c := .regionsCommit tag) h
  | captureClear tag => exact keysKept_ring (c := .captureClear tag) h
  | jobOpen tag p => exact keysKept_ring (c := .jobOpen tag p) h
  | jobRelease tag j pin => exact keysKept_ring (c := .jobRelease tag j pin) h
  | jobClose tag j => exact keysKept_ring (c := .jobClose tag j) h
  | jobQuery tag j => exact keysKept_ring (c := .jobQuery tag j) h
  | markSelect tag j => exact keysKept_ring (c := .markSelect tag j) h
  | markInterrupt tag j => exact keysKept_ring (c := .markInterrupt tag j) h
  | markResume tag => exact keysKept_ring (c := .markResume tag) h
  | classSet tag p => exact keysKept_ring (c := .classSet tag p) h
  | tariffSet tag p => exact keysKept_ring (c := .tariffSet tag p) h
  | userSet tag p => exact keysKept_ring (c := .userSet tag p) h
  | userAdjust tag pin u a => exact keysKept_ring (c := .userAdjust tag pin u a) h
  | userQuery tag pin u => exact keysKept_ring (c := .userQuery tag pin u) h
  | deptSet tag pin d a => exact keysKept_ring (c := .deptSet tag pin d a) h
  | periodReset tag pin w => exact keysKept_ring (c := .periodReset tag pin w) h
  | meterQuery tag pin => exact keysKept_ring (c := .meterQuery tag pin) h
  | servicePinSet tag pin x => exact keysKept_ring (c := .servicePinSet tag pin x) h
  | bayQuery tag b => exact keysKept_ring (c := .bayQuery tag b) h
  | bayConfig tag p => exact keysKept_ring (c := .bayConfig tag p) h
  | wipeRange tag p => exact keysKept_ring (c := .wipeRange tag p) h
  | standbyEnter tag m => exact keysKept_ring (c := .standbyEnter tag m) h

theorem keyStep_tick (s : State) : KeyStep s s.tick := .ite (.refl s) (.refl s)

theorem step_keysKept {s t : State} (h : step s = .next t) : KeysKept s t := by
  unfold step at h
  split at h
  · obtain rfl : s.tick = t := Host.Outcome.next.inj h
    exact (keyStep_tick s).keysKept
  · next c rest _ =>
    have htaken : KeyStep s { s with pending := rest } := .refl s
    exact htaken.keysKept.trans (exec_keysKept h)

end Sys2Proof.Machine

namespace Sys2Proof.Proofs
open Sys2Proof Sys2Proof.Machine

/-- Settles O6: the opening of a job gives a FREE slot the key of a new draw (`keysKept_opened`); every other operation leaves each key
with its job, or destroys it as the job stops being live (`KeyStep`). -/
theorem stepKeepsKeys : Obligations.StepKeepsKeys := by
  unfold Obligations.StepKeepsKeys
  exact ⟨fun _ _ hlaw hstep => (step_keysKept hstep).keyLaw hlaw, fun _ _ hlaw hstep => (step_keysKept hstep).drawnLaw hlaw⟩

end Sys2Proof.Proofs
end

section
/-!
POR without supply before it, and a loss of supply: the volatile stores take their reset values, and AMEM keeps every record but the one
whose write a loss of supply tears. Settles O9.
-/

namespace Sys2Proof.Machine

/-! ## Values after POR (R42, R54, R66, R89, R109, R133, R154, R167, R175, R184) -/

theorem powerOn_unpowered {s : State} (straps : BitVec 2) (h : s.powered = false) : s.powerOn straps = s.volatileReset straps := by
  rw [State.powerOn, h]
  rfl

theorem volatileReset_key (s : State) (straps : BitVec 2) (j : Fin 16) : (s.volatileReset straps).keys[j] = none :=
  Vector.getElem_replicate j.isLt

theorem volatileReset_job (s : State) (straps : BitVec 2) (j : Fin 16) : (s.volatileReset straps).job j = JobSlot.por :=
  reset_job j

theorem volatileReset_user (s : State) (straps : BitVec 2) (u : Fin 256) :
    (s.volatileReset straps).ace.users[u] = ⟨factoryUser, 0, 0, .clean⟩ := Vector.getElem_replicate u.isLt

theorem volatileReset_dept (s : State) (straps : BitVec 2) (d : Fin 16) :
    (s.volatileReset straps).ace.depts[d] = ⟨factoryDept, 0, 0, .clean⟩ := Vector.getElem_replicate d.isLt

theorem volatileReset_bay (s : State) (straps : BitVec 2) (p : Fin 4) : (s.volatileReset straps).bay p = Bay.por :=
  Vector.getElem_replicate p.isLt

theorem volatileReset_plane (s : State) (straps : BitVec 2) (p : Fin 4) : (s.volatileReset straps).plane p = Figures.por :=
  Vector.getElem_replicate p.isLt

/-! ## A torn record (R127, R129) -/

/-- AMEM outside one record. -/
structure Amem.SameBut (r : RecId) (m n : Amem) : Prop where
  service : r ≠ .service → n.service = m.service
  tariff : r ≠ .tariff → n.tariff = m.tariff
  classes : r ≠ .classes → n.classes = m.classes
  bays : r ≠ .bays → n.bays = m.bays
  meters : r ≠ .meters → n.meters = m.meters
  depts : ∀ i : Fin 16, r ≠ .dept i → n.depts[i] = m.depts[i]
  users : ∀ i : Fin 256, r ≠ .user i → n.users[i] = m.users[i]

theorem Amem.SameBut.refl (r : RecId) (m : Amem) : m.SameBut r m :=
  ⟨fun _ => rfl, fun _ => rfl, fun _ => rfl, fun _ => rfl, fun _ => rfl, fun _ _ => rfl, fun _ _ => rfl⟩

/-- A loss of supply tears the record being written and no other. -/
theorem Amem.tear_sameBut (m : Amem) (n : Nat) (c : AmemContent) : m.SameBut c.id (m.tear n c) := by
  cases c with
  | service x => exact { Amem.SameBut.refl _ m with service := fun h => absurd rfl h }
  | tariff x => exact { Amem.SameBut.refl _ m with tariff := fun h => absurd rfl h }
  | classes x => exact { Amem.SameBut.refl _ m with classes := fun h => absurd rfl h }
  | bays x => exact { Amem.SameBut.refl _ m with bays := fun h => absurd rfl h }
  | meters x => exact { Amem.SameBut.refl _ m with meters := fun h => absurd rfl h }
  | dept i x =>
    exact { Amem.SameBut.refl _ m with depts := fun k h => upd_get_ne _ _ fun e => h (congrArg RecId.dept e.symm) }
  | user i x =>
    exact { Amem.SameBut.refl _ m with users := fun k h => upd_get_ne _ _ fun e => h (congrArg RecId.user e.symm) }

theorem Amem.tear_dept (m : Amem) (n : Nat) (i : Fin 16) (x : DeptStored) :
    (m.tear n (.dept i x)).depts[i] = ⟨Config.tornDept n (m.depts[i]).content x, Config.tornAgrees n⟩ := upd_get_same _ i _

theorem Amem.tear_user (m : Amem) (n : Nat) (i : Fin 256) (x : UserStored) :
    (m.tear n (.user i x)).users[i] = ⟨Config.tornUser n (m.users[i]).content x, Config.tornAgrees n⟩ := upd_get_same _ i _

theorem loseSupply_amem {s : State} (h : s.powered = true) : s.loseSupply.amem = s.tearWrite.amem := by
  rw [State.loseSupply, if_pos h]
  rfl

theorem tearWrite_amem_none {s : State} (h : s.ace.writing = none) : s.tearWrite.amem = s.amem := by
  rw [State.tearWrite, h]

theorem tearWrite_amem_some {s : State} {c : AmemContent} (h : s.ace.writing = some c) :
    s.tearWrite.amem = s.amem.tear s.losses c := by
  rw [State.tearWrite, h]

theorem tearWrite_pending (s : State) : s.tearWrite.pending = s.pending := by
  unfold State.tearWrite
  split <;> rfl

end Sys2Proof.Machine

namespace Sys2Proof.Proofs
open Sys2Proof Sys2Proof.Machine

/-- Settles O9: the stores of POR are those of `State.reset`, and a loss of supply changes AMEM by `Amem.tear` alone. -/
theorem powerOnRest : Obligations.PowerOnRest := by
  unfold Obligations.PowerOnRest
  refine ⟨fun straps s hp => ?_, fun s hp => ⟨s.loseSupply, rfl, ?_, ?_, fun hnone => ?_, fun c hc => ?_⟩⟩
  · have hexec : exec (.por straps) s = .next (s.volatileReset straps) := congrArg _ (powerOn_unpowered straps hp)
    refine ⟨_, hexec, rfl, rfl, rfl, rfl, fun j => ?_, rfl, rfl, rfl, rfl, rfl, rfl, rfl, rfl, rfl, fun u => ?_, fun d => ?_,
      rfl, fun p => ?_, rfl, volatileReset_plane s straps, rfl, rfl, rfl⟩
    · rw [volatileReset_key, volatileReset_job]
      exact ⟨rfl, rfl, rfl, rfl, rfl, rfl, rfl, rfl, rfl, rfl⟩
    · rw [volatileReset_user]
      exact ⟨rfl, rfl⟩
    · rw [volatileReset_dept]
      exact ⟨rfl, rfl⟩
    · rw [volatileReset_bay]
      exact ⟨rfl, rfl, rfl, rfl, rfl, rfl, rfl, rfl, rfl, rfl, rfl, rfl, rfl, rfl, rfl, rfl, rfl⟩
  · rw [State.loseSupply, if_pos hp]
  · rw [State.loseSupply, if_pos hp]
    exact tearWrite_pending s
  · rw [loseSupply_amem hp, tearWrite_amem_none hnone]
  · rw [loseSupply_amem hp, tearWrite_amem_some hc]
    obtain ⟨hservice, htariff, hclasses, hbays, hmeters, hdepts, husers⟩ := s.amem.tear_sameBut s.losses c
    refine ⟨hservice, htariff, hclasses, hbays, hmeters, hdepts, husers, fun x e => ?_, fun x e => ?_, fun x e => ?_,
      fun x e => ?_, fun x e => ?_, fun i x e => ?_, fun i x e => ?_⟩ <;> rw [e]
    case refine_6 => exact s.amem.tear_dept s.losses i x
    case refine_7 => exact s.amem.tear_user s.losses i x
    all_goals rfl

end Sys2Proof.Proofs
end

section
/-!
JOB_OPEN: the PIN check and the opening of a slot, each as equations, and the ring event around them. Settles O37.
-/

namespace Sys2Proof.Machine

/-! ## What a write-back leaves of a user's stored fields (R124 to R126) -/

theorem Ace.setWb_stored (a : Ace) (r : RecId) (w : WbState) (v : Fin 256) :
    ((a.setWb r w).users[v]).stored = (a.users[v]).stored := by
  cases r with
  | user i =>
    show ((upd a.users i fun u => { u with wb := w })[v]).stored = _
    rw [upd_get]
    split <;> rfl
  | _ => rfl

/-- A trigger moves a record towards AMEM and alters none. -/
theorem Ace.trigger_stored (a : Ace) (r : RecId) (v : Fin 256) : ((a.trigger r).users[v]).stored = (a.users[v]).stored := by
  rcases a.trigger_cases r with ⟨-, e⟩ | ⟨-, -, -, e⟩ | ⟨-, -, e⟩
  · rw [e]
  · rw [e]
    exact a.setWb_stored r .queued v
  · rw [e]
    exact a.setWb_stored r .waiting v

theorem Ace.putUser_stored_same (a : Ace) (u : Fin 256) (r : UserStored) : ((a.putUser u r).users[u]).stored = r := by
  simp only [Ace.putUser, upd_get_same]

/-! ## The PIN check (R47) -/

/-- ACE after a PIN of user `u` that matched: a failure count above 0 is cleared and the record triggered. -/
def Ace.pinCleared (a : Ace) (u : Fin 256) : Ace :=
  if (a.users[u]).stored.failures = 0 then a
  else (a.putUser u { (a.users[u]).stored with failures := 0 }).trigger (.user u)

theorem Ace.pinCleared_maxJobs (a : Ace) (u : Fin 256) :
    ((a.pinCleared u).users[u]).stored.maxJobs = (a.users[u]).stored.maxJobs := by
  unfold Ace.pinCleared
  split
  · rfl
  · rw [Ace.trigger_stored, Ace.putUser_stored_same]

theorem State.pinChecked_match (s : State) (u : Fin 256) : s.pinChecked u true = { s with ace := s.ace.pinCleared u } := by
  unfold State.pinChecked Ace.pinCleared
  by_cases h : (s.ace.users[u]).stored.failures = 0
  · have hsame : { (s.ace.users[u]).stored with failures := 0 } = (s.ace.users[u]).stored := by rw [← h]
    rw [if_pos h]
    exact if_pos hsame
  · have hdiff : { (s.ace.users[u]).stored with failures := 0 } ≠ (s.ace.users[u]).stored :=
      fun e => h (congrArg UserStored.failures e).symm
    rw [if_neg h]
    exact if_neg hdiff

/-- A PIN that does not match raises the failure count, and the fifth failure locks the record. -/
theorem State.pinChecked_mismatch (s : State) (u : Fin 256) {st : UserState} (hst : (s.ace.users[u]).stored.state = st)
    (hf : (s.ace.users[u]).stored.failures ≤ 4) : s.pinChecked u false = { s with
      ace := (s.ace.putUser u { (s.ace.users[u]).stored with
        failures := (s.ace.users[u]).stored.failures + 1
        state := if (s.ace.users[u]).stored.failures = 4 then .locked else st }).trigger (.user u) } := by
  unfold State.pinChecked
  subst hst
  generalize (s.ace.users[u]).stored = r at hf ⊢
  by_cases h : r.failures = 4
  · have hdiff : { r with failures := 5, state := .locked } ≠ r := fun e => by
      have : 5 = r.failures := congrArg UserStored.failures e
      omega
    simp [h, hdiff]
  · have hle : ¬ 5 ≤ r.failures + 1 := by omega
    have hdiff : { r with failures := r.failures + 1 } ≠ r := fun e => by
      have : r.failures + 1 = r.failures := congrArg UserStored.failures e
      omega
    simp only [if_false, Bool.false_eq_true, if_neg hle, if_neg hdiff, if_neg h]

/-! ## The slots (R45 steps 6 and 7, R46) -/

theorem Jobs.freeJob?_eq_some {c : Jobs} {j : Fin 16} (hj : (c.slots[j]).state = .free)
    (hlow : ∀ i < j, (c.slots[i]).state ≠ .free) : c.freeJob? = some j := by
  unfold Jobs.freeJob?
  rw [List.find?_eq_some_iff_getElem]
  refine ⟨beq_iff_eq.2 hj, j.val, by simp, by simp, fun i hi => ?_⟩
  simpa using hlow ⟨i, by omega⟩ hi

theorem Jobs.freeJob?_eq_none {c : Jobs} (h : ∀ j : Fin 16, (c.slots[j]).state ≠ .free) : c.freeJob? = none := by
  simpa [Jobs.freeJob?] using h

/-- The part with the new job `k` in slot `j`, its key drawn (R31, R46). -/
def State.opened (s : State) (k : JobOpenOk) (j : Fin 16) : State :=
  { s with
    jct := { s.jct with
      slots := s.jct.slots.set j (k.slot (s.jct.openCounter + 1)), openCounter := s.jct.openCounter + 1 }
    keys := s.keys.set j (some (Config.randomKey s.draws)), draws := s.draws + 1 }

theorem State.openSlot_busy {s : State} {k : JobOpenOk}
    (h : (s.ace.users[k.user]).stored.maxJobs ≤ s.jct.countOf k.user) : s.openSlot k = ((.userBusy, .none), s) := if_pos h

theorem State.openSlot_full {s : State} {k : JobOpenOk}
    (h : s.jct.countOf k.user < (s.ace.users[k.user]).stored.maxJobs) (hfull : ∀ j : Fin 16, (s.job j).state ≠ .free) :
    s.openSlot k = ((.noSlot, .none), s) := by
  rw [State.openSlot, if_neg (Nat.not_le.2 h), Jobs.freeJob?_eq_none hfull]

theorem State.openSlot_opened {s : State} {k : JobOpenOk} {j : Fin 16}
    (h : s.jct.countOf k.user < (s.ace.users[k.user]).stored.maxJobs) (hj : (s.job j).state = .free)
    (hlow : ∀ i < j, (s.job i).state ≠ .free) :
    s.openSlot k = ((.ok, .jobOpened j (s.jct.openCounter + 1)), s.opened k j) := by
  rw [State.openSlot, if_neg (Nat.not_le.2 h), Jobs.freeJob?_eq_some hj hlow]
  rfl

/-! ## The row's answer (R45) -/

/-- ACE once the user of `k` is admitted: a job without hold has had its PIN checked. -/
def Ace.admitted (a : Ace) (k : JobOpenOk) : Ace := if k.hold then a else a.pinCleared k.user

theorem Ace.admitted_maxJobs (a : Ace) (k : JobOpenOk) :
    ((a.admitted k).users[k.user]).stored.maxJobs = (a.users[k.user]).stored.maxJobs := by
  unfold Ace.admitted
  split
  · rfl
  · exact a.pinCleared_maxJobs k.user

theorem State.jobOpen_badParam (s : State) {p : JobOpenParams} (h : jobOpenOk? p = none) :
    s.jobOpen p = ((.badParam, .none), s) := by
  rw [State.jobOpen, h]

theorem State.jobOpen_userRefusal (s : State) {p : JobOpenParams} {k : JobOpenOk} {code : ResultCode}
    (h : jobOpenOk? p = some k) (hr : userRefusal (s.ace.users[k.user]).stored.state = some code) :
    s.jobOpen p = ((code, .none), s) := by
  simp only [State.jobOpen, h, hr]

theorem State.pinMatches_iff (s : State) (u : Fin 256) (pin : Word8) :
    s.pinMatches u pin = true ↔ (s.ace.users[u]).stored.digest = some (Config.userDigest u pin) := by
  simp [State.pinMatches]

theorem State.jobOpen_badPin (s : State) {p : JobOpenParams} {k : JobOpenOk} (h : jobOpenOk? p = some k)
    (hs : (s.ace.users[k.user]).stored.state = .active) (hk : k.hold = false)
    (hd : (s.ace.users[k.user]).stored.digest ≠ some (Config.userDigest k.user p.pin)) :
    s.jobOpen p = ((.badPin, .none), s.pinChecked k.user false) := by
  have hpin : ¬ s.pinMatches k.user p.pin = true := mt (s.pinMatches_iff _ _).1 hd
  simp only [State.jobOpen, h, hs, userRefusal, hk, hpin, if_false, Bool.false_eq_true]

/-- An active user who needs no PIN, or whose PIN matches, comes to the limit and the slots. -/
theorem State.jobOpen_admitted (s : State) {p : JobOpenParams} {k : JobOpenOk} (h : jobOpenOk? p = some k)
    (hs : (s.ace.users[k.user]).stored.state = .active)
    (hd : k.hold = false → (s.ace.users[k.user]).stored.digest = some (Config.userDigest k.user p.pin)) :
    s.jobOpen p = ({ s with ace := s.ace.admitted k } : State).openSlot k := by
  cases hk : k.hold with
  | true =>
    have hsame : s.ace.admitted k = s.ace := by simp [Ace.admitted, hk]
    simp only [State.jobOpen, h, hs, userRefusal, hk, hsame, if_true]
  | false =>
    have hcleared : s.ace.admitted k = s.ace.pinCleared k.user := by simp [Ace.admitted, hk]
    have hpin : s.pinMatches k.user p.pin = true := (s.pinMatches_iff _ _).2 (hd hk)
    simp only [State.jobOpen, h, hs, userRefusal, hk, hpin, hcleared, s.pinChecked_match, if_true, if_false, Bool.false_eq_true]

/-! ## The ring event -/

/-- A refusal that has changed working records alone is reported, and nothing else comes about (R187). -/
theorem ringEvent_refusedAce {s : State} {run : State → State} {kind tag : BitVec 16} {code : ResultCode} {a : Ace}
    (h : s.ready = true) (hrun : run s.running = report kind tag ((code, .none), { s.running with ace := a })) :
    ringEvent run s = .next (({ s with ace := a } : State).refused kind tag code) := by
  obtain ⟨hrest, -, -, -⟩ := s.ready_iff.1 h
  obtain ⟨-, hsb, hf, hn⟩ := s.resting_iff.1 hrest
  rw [ringEvent_eq h hrun (State.nothingDue_congr hn hsb hf rfl rfl rfl rfl rfl rfl rfl) rfl rfl rfl]
  rfl

/-- A new job brings no context with it. -/
theorem opened_metered {s : State} (h : s.jct.metered = true) (k : JobOpenOk) (j : Fin 16) :
    (s.opened k j).jct.metered = true := by
  have hown : ∀ i : Fin 16, ∀ c ∈ ((s.opened k j).jct.slots[i]).own, c ∈ (s.jct.slots[i]).own := by
    intro i c
    show c ∈ ((s.jct.slots.set j (k.slot (s.jct.openCounter + 1)))[i]).own → _
    rw [get_set]
    split
    · exact fun hc => nomatch hc
    · exact id
  rw [Jobs.metered_iff] at h ⊢
  refine ⟨fun m hm => h.1 m ?_, fun i c hc => h.2 i c (hown i c hc)⟩
  rcases (Jobs.mem_contexts_iff _ m).1 hm with hm | hm | ⟨i, c, hc, e⟩
  · exact (s.jct.mem_contexts_iff m).2 (.inl hm)
  · exact (s.jct.mem_contexts_iff m).2 (.inr (.inl hm))
  · exact (s.jct.mem_contexts_iff m).2 (.inr (.inr ⟨i, c, hown i c hc, e⟩))

theorem opened_noneClosing {s : State} (h : s.noneClosing = true) (k : JobOpenOk) (j : Fin 16) :
    (s.opened k j).noneClosing = true := by
  rw [State.noneClosing_iff] at h ⊢
  intro i
  show ((s.jct.slots.set j (k.slot (s.jct.openCounter + 1)))[i]).state ≠ .closing
  rw [get_set]
  split
  · intro e
    have := slot_bindable k (s.jct.openCounter + 1)
    rw [e] at this
    cases this
  · exact h i

/-- Nothing falls due when a job opens. -/
theorem opened_nothingDue {s : State} (hrun : s.rci.standby = .running) (hf : s.rci.faultWaiting = false)
    (hn : s.nothingDue = true) (hnc : s.noneClosing = true) (k : JobOpenOk) (j : Fin 16) :
    (s.opened k j).nothingDue = true := by
  obtain ⟨hmetered, hcommit, hdone, -, hstart, -, -⟩ := s.nothingDue_iff.1 hn
  refine (State.nothingDue_iff _).2 ⟨opened_metered hmetered k j, hcommit, hdone,
    State.mayLeave_of_noneClosing _ (opened_noneClosing hnc k j), hstart, ?_, ?_⟩
  · simp [State.standbySettled, State.opened, hrun]
  · simp [State.opened, hf]

/-- An answer of JOB_OPEN that refuses, with what it has changed of the working records, is the row's report. -/
theorem exec_jobOpen_refused {s : State} {tag : BitVec 16} {p : JobOpenParams} {code : ResultCode} {a : Ace}
    (h : s.ready = true) (hanswer : s.running.jobOpen p = ((code, .none), { s.running with ace := a })) :
    exec (.jobOpen tag p) s = .next (({ s with ace := a } : State).refused 5 tag code) :=
  ringEvent_refusedAce h (congrArg (report 5 tag) hanswer)

/-- A record that is not active refuses the job (R45 steps 2 to 4). -/
theorem exec_jobOpen_userRefusal (s : State) (tag : BitVec 16) {p : JobOpenParams} {k : JobOpenOk} {code : ResultCode}
    (h : s.ready = true) (hok : jobOpenOk? p = some k)
    (hr : userRefusal (s.ace.users[k.user]).stored.state = some code) :
    exec (.jobOpen tag p) s = .next (s.refused 5 tag code) :=
  exec_jobOpen_refused h (s.running.jobOpen_userRefusal hok hr)

/-- JOB_OPEN with a slot for its job: the job is opened and its slot and nonce are reported. -/
theorem exec_jobOpen_opened {s : State} {tag : BitVec 16} {p : JobOpenParams} {k : JobOpenOk} {j : Fin 16}
    (h : s.ready = true) (hok : jobOpenOk? p = some k) (hs : (s.ace.users[k.user]).stored.state = .active)
    (hd : k.hold = false → (s.ace.users[k.user]).stored.digest = some (Config.userDigest k.user p.pin))
    (hc : s.jct.countOf k.user < (s.ace.users[k.user]).stored.maxJobs) (hj : (s.job j).state = .free)
    (hlow : ∀ i < j, (s.job i).state ≠ .free) :
    exec (.jobOpen tag p) s = .next ((({ s with ace := s.ace.admitted k } : State).opened k j).reported
      (.result 5 .ok (.jobOpened j (s.jct.openCounter + 1))) tag) := by
  obtain ⟨hrest, -, -, hnc⟩ := s.ready_iff.1 h
  obtain ⟨-, hsb, hf, hn⟩ := s.resting_iff.1 hrest
  have hlimit : s.jct.countOf k.user < ((s.ace.admitted k).users[k.user]).stored.maxJobs := by
    rw [Ace.admitted_maxJobs]
    exact hc
  have hanswer : s.running.jobOpen p = ((.ok, .jobOpened j (s.jct.openCounter + 1)),
      ({ s.running with ace := s.ace.admitted k } : State).opened k j) :=
    (s.running.jobOpen_admitted hok hs hd).trans (State.openSlot_opened hlimit hj hlow)
  have hbefore : ({ s.running with ace := s.ace.admitted k } : State).nothingDue = true :=
    State.nothingDue_congr hn hsb hf rfl rfl rfl rfl rfl rfl rfl
  have hdue := opened_nothingDue (s := { s.running with ace := s.ace.admitted k }) hsb hf hbefore hnc k j
  have hrun : State.runJobOpen tag p s.running = report 5 tag ((.ok, .jobOpened j (s.jct.openCounter + 1)),
      ({ s.running with ace := s.ace.admitted k } : State).opened k j) := congrArg (report 5 tag) hanswer
  exact ringEvent_eq h hrun hdue rfl rfl rfl

/-- An admitted user at the limit is refused (R45 step 6). -/
theorem exec_jobOpen_userBusy {s : State} {tag : BitVec 16} {p : JobOpenParams} {k : JobOpenOk}
    (h : s.ready = true) (hok : jobOpenOk? p = some k) (hs : (s.ace.users[k.user]).stored.state = .active)
    (hd : k.hold = false → (s.ace.users[k.user]).stored.digest = some (Config.userDigest k.user p.pin))
    (hc : (s.ace.users[k.user]).stored.maxJobs ≤ s.jct.countOf k.user) :
    exec (.jobOpen tag p) s = .next (({ s with ace := s.ace.admitted k } : State).refused 5 tag .userBusy) := by
  rw [← s.ace.admitted_maxJobs k] at hc
  exact exec_jobOpen_refused h ((s.running.jobOpen_admitted hok hs hd).trans (State.openSlot_busy hc))

/-- An admitted user below the limit is refused when no slot is FREE (R45 step 7). -/
theorem exec_jobOpen_noSlot {s : State} {tag : BitVec 16} {p : JobOpenParams} {k : JobOpenOk}
    (h : s.ready = true) (hok : jobOpenOk? p = some k) (hs : (s.ace.users[k.user]).stored.state = .active)
    (hd : k.hold = false → (s.ace.users[k.user]).stored.digest = some (Config.userDigest k.user p.pin))
    (hc : s.jct.countOf k.user < (s.ace.users[k.user]).stored.maxJobs) (hfull : ∀ j : Fin 16, (s.job j).state ≠ .free) :
    exec (.jobOpen tag p) s = .next (({ s with ace := s.ace.admitted k } : State).refused 5 tag .noSlot) := by
  rw [← s.ace.admitted_maxJobs k] at hc
  exact exec_jobOpen_refused h ((s.running.jobOpen_admitted hok hs hd).trans (State.openSlot_full hc hfull))

theorem State.admitted_hold (s : State) {k : JobOpenOk} (hk : k.hold = true) : { s with ace := s.ace.admitted k } = s := by
  simp [Ace.admitted, hk]

theorem State.admitted_pin (s : State) {k : JobOpenOk} (hk : k.hold = false) : { s with ace := s.ace.admitted k } =
    if (s.ace.users[k.user]).stored.failures = 0 then s else { s with
      ace := (s.ace.putUser k.user { (s.ace.users[k.user]).stored with failures := 0 }).trigger (.user k.user) } := by
  have hcleared : s.ace.admitted k = s.ace.pinCleared k.user := by simp [Ace.admitted, hk]
  rw [hcleared, Ace.pinCleared]
  split <;> rfl

theorem State.admitted_eq (s : State) (k : JobOpenOk) : { s with ace := s.ace.admitted k } =
    if k.hold ∨ (s.ace.users[k.user]).stored.failures = 0 then s else { s with
      ace := (s.ace.putUser k.user { (s.ace.users[k.user]).stored with failures := 0 }).trigger (.user k.user) } := by
  cases hk : k.hold with
  | true => rw [s.admitted_hold hk, if_pos (.inl rfl)]
  | false => simp only [s.admitted_pin hk, Bool.false_eq_true, false_or]

/-! ## The parameters (R45 step 1) -/

theorem fin?_eq_some_iff {n v : Nat} {i : Fin n} : fin? n v = some i ↔ v = i.val := by
  refine ⟨fun h => ?_, fin?_val i⟩
  unfold fin? at h
  split at h
  · exact congrArg Fin.val (Option.some.inj h)
  · cases h

theorem finOpt?_eq_some_iff {n : Nat} {v : Option Nat} {d : Option (Fin n)} : finOpt? n v = some d ↔ v = d.map Fin.val := by
  cases v <;> cases d <;> simp [finOpt?, fin?_eq_some_iff]

theorem yesNo?_eq_some_iff {v : Nat} {b : Bool} : yesNo? v = some b ↔ v = if b then 1 else 0 := by
  unfold yesNo?
  split <;> cases b <;> simp_all

theorem jobKind?_eq_getElem? (v : Nat) : jobKind? v = [JobKind.copy, .scan, .print][v]? :=
  match v with
  | 0 | 1 | 2 => rfl
  | _ + 3 => rfl

theorem jobOpenOk?_eq_some_iff (p : JobOpenParams) (k : JobOpenOk) : jobOpenOk? p = some k ↔
    fin? 256 p.user = some k.user ∧ jobKind? p.kind = some k.kind ∧ yesNo? p.hold = some k.hold
      ∧ finOpt? 8 p.declared = some k.declared ∧ p.passes = k.passes ∧ yesNo? p.verify = some k.verify
      ∧ p.passes ≤ 3 ∧ pinDigits p.pin = true ∧ (k.hold = true → k.kind = .print) := by
  constructor
  · intro h
    unfold jobOpenOk? at h
    split at h
    · next hu hk hh hd hv =>
      split at h
      · next hrange =>
        obtain rfl := Option.some.inj h
        obtain ⟨hpasses, hpin, hhold⟩ := hrange
        exact ⟨hu, hk, hh, hd, rfl, hv, hpasses, hpin, hhold⟩
      · cases h
    · cases h
  · rintro ⟨hu, hk, hh, hd, hp, hv, hpasses, hpin, hhold⟩
    simp only [jobOpenOk?, hu, hk, hh, hd, hv]
    rw [if_pos ⟨hpasses, hpin, hhold⟩, hp]

end Sys2Proof.Machine

namespace Sys2Proof.Proofs

open Sys2Proof Sys2Proof.Machine

/-- Settles O37: the success and each refusal from the row's answer, the parameters field by field. -/
theorem jobOpens : Obligations.JobOpens := by
  unfold Obligations.JobOpens
  refine ⟨fun s tag p k j h hok hs hd hc hj hlow => ?_, fun s tag p h => ⟨fun hbad => ?_, fun k hok => ?_⟩, fun p k => ?_⟩
  · have hopened := exec_jobOpen_opened (tag := tag) h hok hs hd hc hj hlow
    rw [s.admitted_eq k] at hopened
    exact hopened
  · exact exec_jobOpen_refused h (s.running.jobOpen_badParam hbad)
  · refine ⟨fun hs => ?_, fun hs => ?_, fun hs => ?_, fun hs hk hd hf => ?_, fun hs hk hc => ?_, fun hs hk hc hfull => ?_,
      fun hs hk hd => ?_⟩
    · exact exec_jobOpen_userRefusal s tag h hok (by rw [hs]; rfl)
    · exact exec_jobOpen_userRefusal s tag h hok (by rw [hs]; rfl)
    · exact exec_jobOpen_userRefusal s tag h hok (by rw [hs]; rfl)
    · exact exec_jobOpen_refused h ((s.running.jobOpen_badPin hok hs hk hd).trans
        (congrArg _ (s.running.pinChecked_mismatch k.user hs hf)))
    · rw [exec_jobOpen_userBusy h hok hs (by simp [hk]) hc, s.admitted_hold hk]
    · rw [exec_jobOpen_noSlot h hok hs (by simp [hk]) hc hfull, s.admitted_hold hk]
    · refine ⟨fun hc => ?_, fun hc hfull => ?_⟩
      · rw [exec_jobOpen_userBusy h hok hs (fun _ => hd) hc, s.admitted_pin hk]
      · rw [exec_jobOpen_noSlot h hok hs (fun _ => hd) hc hfull, s.admitted_pin hk]
  · rw [jobOpenOk?_eq_some_iff, fin?_eq_some_iff, jobKind?_eq_getElem?, yesNo?_eq_some_iff, finOpt?_eq_some_iff,
      yesNo?_eq_some_iff]
    constructor
    · rintro ⟨hu, hk, hh, hd, hp, hv, hpasses, hpin, hhold⟩
      exact ⟨hu, hk, hh, hd, hp, hp ▸ hpasses, hv, hpin, hhold⟩
    · rintro ⟨hu, hk, hh, hd, hp, hpasses, hv, hpin, hhold⟩
      exact ⟨hu, hk, hh, hd, hp, hv, hp ▸ hpasses, hpin, hhold⟩

end Sys2Proof.Proofs
end

section
/-!
A metered read at the port: refused QUOTA, or accepted with its trial. Settles O20.
-/

namespace Sys2Proof.Proofs
open Sys2Proof Sys2Proof.Machine

/-- Settles O20: the verdict QUOTA makes the job HELD, and an acceptance after a trial takes its context, its reserves and a slot;
neither makes anything due. -/
theorem takeMetered : Obligations.TakeMetered := by
  unfold Obligations.TakeMetered
  refine ⟨fun s t rest i j hs he hport hd hmay hx hc => ?_,
    fun s t rest e j v tr p depth reserve i m hs hport hd hmay hx hi hm hset hdue => ?_⟩
  · obtain ⟨hp, hstill⟩ := State.still_of_resting hs
    have hu := State.still_popped hstill .read rest
    have htake := s.takePort_eq (d := .read) hport hmay
    rw [hx] at htake
    have htake := htake.trans ((s.popped .read rest).quotaDenied_eq (t := t) i j hd hc)
    rw [exec_takeTransaction, event_reported (b := .jobHeld j (s.job j).nonce (s.job j).user .quota) (tag := 0) hp
      (by rw [htake]; exact State.still_held hu j .quota ⟨rfl, rfl, rfl, rfl⟩ rfl rfl rfl)
      (by rw [htake]; exact he) (by rw [htake]; rfl), htake]
    rfl
  · obtain ⟨hp, hstill⟩ := State.still_of_resting hs
    have hu := State.still_popped hstill .read rest
    have hi' : freeSlot? (s.popped .read rest).path.reads = some i := hi
    have hm' : (s.popped .read rest).jct.marking = some m := hm
    have htake := s.takePort_eq (d := .read) hport hmay
    rw [hx] at htake
    have htake := htake.trans ((s.popped .read rest).accept_metered (e := e) (j := j) (v := v) (p := p) (depth := depth)
      (reserve := reserve) hd hi' hm' hset)
    rw [exec_takeTransaction, event_quietly hp (by rw [htake]; exact State.still_metered hu hi' _ _ _ hm' hdue _ _)
      (by rw [htake]; rfl), htake]
    rfl

end Sys2Proof.Proofs
end

section
/-!
JOB_QUERY and BAY_QUERY: what they report, at a part that they leave as it is. Settles O40.
-/

namespace Sys2Proof.Machine

/-! ## A command that changes nothing -/

/-- A command whose owner answers without a change reports its answer, and nothing else comes about (R187). -/
theorem ringEvent_answered {s : State} {run : State → State} {kind tag : BitVec 16} {x : ResultCode × ResultValues}
    (h : s.ready = true) (hrun : run s.running = report kind tag (x, s.running)) :
    ringEvent run s = .next (s.reported (.result kind x.1 x.2) tag) := by
  obtain ⟨hrest, -, -, -⟩ := s.ready_iff.1 h
  obtain ⟨-, hsb, hf, hn⟩ := s.resting_iff.1 hrest
  rw [ringEvent_eq h hrun (State.nothingDue_congr hn hsb hf rfl rfl rfl rfl rfl rfl rfl) rfl rfl rfl]
  rfl

/-! ## The place on the Marking Stack (R55) -/

/-- The depth counted from `n` is that of the job's first entry. -/
theorem stackDepth_of_first {j : Fin 16} {l : List Marked} {k : Nat} {m : Marked} (hk : l[k]? = some m) (hm : m.job = j)
    (hfirst : ∀ i < k, ∀ x ∈ l[i]?, x.job ≠ j) (n : Nat) : stackDepth j l n = some (n + k) := by
  induction l generalizing k n with
  | nil => cases hk
  | cons a l ih =>
    cases k with
    | zero =>
      obtain rfl : a = m := by simpa using hk
      exact if_pos hm
    | succ k =>
      have hne : a.job ≠ j := hfirst 0 (Nat.succ_pos k) a rfl
      have hrest := ih hk (fun i hi => hfirst (i + 1) (Nat.succ_lt_succ hi)) (n + 1)
      rw [stackDepth, if_neg hne, hrest, Nat.add_right_comm, Nat.add_assoc]

theorem stackDepth_none {j : Fin 16} {l : List Marked} (h : ∀ m ∈ l, m.job ≠ j) (n : Nat) : stackDepth j l n = none := by
  induction l generalizing n with
  | nil => rfl
  | cons a l ih =>
    rw [stackDepth, if_neg (h a List.mem_cons_self)]
    exact ih (fun m hm => h m (List.mem_cons_of_mem a hm)) (n + 1)

theorem position_marking {c : Jobs} {j : Fin 16} (h : c.isMarking j = true) : c.position j = .marking := if_pos h

theorem position_stacked {c : Jobs} {j : Fin 16} {k : Nat} {m : Marked} (h : c.isMarking j = false)
    (hk : c.stack[k]? = some m) (hm : m.job = j) (hfirst : ∀ i < k, ∀ x ∈ c.stack[i]?, x.job ≠ j) :
    c.position j = .stacked (k + 1) := by
  rw [Jobs.position, h, stackDepth_of_first hk hm hfirst 1, Nat.add_comm]
  rfl

theorem position_own {c : Jobs} {j : Fin 16} (h : c.isMarking j = false) (hs : ∀ m ∈ c.stack, m.job ≠ j) :
    c.position j = match (c.slots[j]).own with | some c => .ownContext c.queue.length | none => .none := by
  rw [Jobs.position, h, stackDepth_none hs 1]
  cases (c.slots[j]).own <;> rfl

/-! ## The answers -/

theorem State.jobQuery_badParam (s : State) {n : Nat} (h : 15 < n) : s.jobQuery n = (.badParam, .none) := by
  rw [State.jobQuery, fin?_none h]

theorem State.jobQuery_ok (s : State) (j : Fin 16) : s.jobQuery j.val = (.ok, .jobInfo (s.job j) (s.jct.position j)) := by
  rw [State.jobQuery, fin?_val j rfl]

theorem State.bayQuery_badParam (s : State) {n : Nat} (h : 3 < n) : s.bayQuery n = s.refuse .badParam := by
  rw [State.bayQuery, fin?_none h]

theorem State.bayQuery_ok (s : State) (p : Fin 4) : s.bayQuery p.val =
    ((.ok, .bayInfo (s.bay p) (s.conf p) (s.plane p) (s.plane p).estimate s.ccu.departed), s) := by
  rw [State.bayQuery, fin?_val p rfl]

/-- The level estimate (R163), the two amounts taken off one after the other. -/
theorem Figures.estimate_eq (f : Figures) : f.estimate =
    if f.view = .genuine ∨ f.view = .unproven then some (f.viewLevel - f.pending - f.inFlight) else none := by
  rw [Figures.estimate, Nat.sub_sub]

theorem exec_jobQuery {s : State} {tag : BitVec 16} {n : Nat} {x : ResultCode × ResultValues} (h : s.ready = true)
    (hx : s.running.jobQuery n = x) : exec (.jobQuery tag n) s = .next (s.reported (.result 8 x.1 x.2) tag) :=
  ringEvent_answered (run := State.runJobQuery tag n) h (congrArg (fun x => report 8 tag (x, s.running)) hx)

theorem exec_bayQuery {s : State} {tag : BitVec 16} {n : Nat} {x : ResultCode × ResultValues} (h : s.ready = true)
    (hx : s.running.bayQuery n = (x, s.running)) : exec (.bayQuery tag n) s = .next (s.reported (.result 21 x.1 x.2) tag) :=
  ringEvent_answered (run := State.runBayQuery tag n) h (congrArg (report 21 tag) hx)

end Sys2Proof.Machine

namespace Sys2Proof.Proofs
open Sys2Proof Sys2Proof.Machine

/-- Settles O40: both owners answer without a change, JOB_QUERY with the job's marking position, BAY_QUERY with the estimate. -/
theorem jobAndBayQueried : Obligations.JobAndBayQueried := by
  unfold Obligations.JobAndBayQueried
  refine ⟨fun s tag n h => ⟨fun hn => ?_, ?_⟩, fun s tag n h => ⟨fun hn => ?_, ?_⟩⟩
  · exact exec_jobQuery h (s.running.jobQuery_badParam hn)
  · rintro j rfl
    refine ⟨s.jct.position j, ?_, position_marking, fun hm k m hk hj hfirst => position_stacked hm hk hj hfirst, position_own⟩
    exact exec_jobQuery h (s.running.jobQuery_ok j)
  · exact exec_bayQuery h (s.running.bayQuery_badParam hn)
  · rintro p rfl
    have hok := s.running.bayQuery_ok p
    rw [Figures.estimate_eq] at hok
    exact exec_bayQuery h hok

end Sys2Proof.Proofs
end

section
/-!
The marking gate up to the trial: what each of its tests says in numbers, and the gate as one equation. Settles O15.
-/

namespace Sys2Proof.Machine

/-! ## At most two frames (R69) -/

/-- A list with one number more, unless it holds it. -/
def addDistinct (acc : List Nat) (n : Nat) : List Nat := if acc.contains n then acc else acc ++ [n]

theorem distinctNats_eq (ns : List Nat) : distinctNats ns = ns.foldl addDistinct [] := rfl

theorem addDistinct_nodup {acc : List Nat} (h : acc.Nodup) (n : Nat) : (addDistinct acc n).Nodup := by
  unfold addDistinct
  split
  · exact h
  · next hn =>
    refine List.nodup_append.2 ⟨h, List.nodup_singleton n, fun a ha b hb e => hn ?_⟩
    rw [← List.mem_singleton.1 hb, ← e]
    exact List.contains_iff_mem.2 ha

theorem mem_addDistinct (acc : List Nat) (n x : Nat) : x ∈ addDistinct acc n ↔ x ∈ acc ∨ x = n := by
  unfold addDistinct
  split
  · next hn =>
    refine ⟨.inl, ?_⟩
    rintro (hx | rfl)
    · exact hx
    · exact List.contains_iff_mem.1 hn
  · simp

theorem foldl_addDistinct (ns : List Nat) {acc : List Nat} (h : acc.Nodup) :
    (ns.foldl addDistinct acc).Nodup ∧ ∀ x, x ∈ ns.foldl addDistinct acc ↔ x ∈ acc ∨ x ∈ ns := by
  induction ns generalizing acc with
  | nil => simp [h]
  | cons n ns ih =>
    obtain ⟨hnodup, hmem⟩ := ih (addDistinct_nodup h n)
    refine ⟨hnodup, fun x => (hmem x).trans ?_⟩
    rw [mem_addDistinct, List.mem_cons, or_assoc]

/-- A list has at most two distinct numbers exactly when among any three of its members two are equal. -/
theorem distinctNats_le_two_iff (ns : List Nat) : (distinctNats ns).length ≤ 2 ↔
    ∀ a ∈ ns, ∀ b ∈ ns, ∀ c ∈ ns, a = b ∨ b = c ∨ a = c := by
  obtain ⟨hnodup, hmem⟩ := foldl_addDistinct ns List.nodup_nil
  rw [distinctNats_eq]
  have hset : (ns.foldl addDistinct []).toFinset = ns.toFinset := by
    ext x
    simpa using hmem x
  rw [← List.toFinset_card_of_nodup hnodup, hset, ← not_lt, Finset.two_lt_card]
  simp only [List.mem_toFinset, not_exists, not_and, ne_eq]
  constructor
  · intro h a ha b hb c hc
    have := h a ha b hb c hc
    tauto
  · intro h a ha b hb c hc hab hac hbc
    rcases h a ha b hb c hc with e | e | e
    · exact hab e
    · exact hbc e
    · exact hac e

/-! ## The tests of the gate (R69, R144, R165) -/

/-- The lines of a well-formed transaction do not wrap. -/
theorem lineAddr_toNat {t : Txn} (h : t.wellFormed = true) {k : Nat} (hk : k < t.len) :
    (lineAddr t.addr k).toNat = t.addr.toNat + 64 * k := by
  obtain ⟨-, -, hlen, hpage⟩ := (wellFormed_iff t).1 h
  have hlt := t.addr.isLt
  rw [lineAddr, BitVec.toNat_add, BitVec.toNat_ofNat]
  omega

/-- Gate step 2 (R69): every line lies in a whole frame, and among three lines two lie in the same one. -/
theorem geometryOk_iff (env : TrialEnv) (count : Nat) {t : Txn} (h : t.wellFormed = true) {frameOf : Nat → Nat}
    (hframe : ∀ k, frameOf k = ((t.addr.toNat + 64 * k) - env.base * 4096) / env.raster.geom.frameBytes) :
    geometryOk env count t.lineAddrs = true ↔
      (∀ k < t.len, frameOf k < env.raster.geom.frames count)
      ∧ ∀ a < t.len, ∀ b < t.len, ∀ c < t.len, frameOf a = frameOf b ∨ frameOf b = frameOf c ∨ frameOf a = frameOf c := by
  have hplace : ∀ k < t.len, (env.place (lineAddr t.addr k)).1 = frameOf k := fun k hk => by
    rw [hframe, ← lineAddr_toNat h hk]
    rfl
  have hframes : t.lineAddrs.map (fun a => (env.place a).1) = (List.range t.len).map frameOf := by
    rw [Txn.lineAddrs, List.map_map]
    exact List.map_congr_left fun k hk => hplace k (List.mem_range.1 hk)
  have hall : (t.lineAddrs.all fun a => (env.place a).1 < env.raster.geom.frames count) = true
      ↔ ∀ x ∈ t.lineAddrs.map (fun a => (env.place a).1), x < env.raster.geom.frames count := by
    simp
  rw [geometryOk, Bool.and_eq_true, decide_eq_true_eq, hall, distinctNats_le_two_iff, hframes]
  simp only [List.forall_mem_map, List.mem_range]

theorem State.mayMark_iff (s : State) (p : Fin 4) : s.mayMark p = true ↔
    (s.bay p).state = .genuine ∨ ((s.bay p).state = .unproven ∧ (s.conf p).policy = .allowUnproven) := by
  simp [State.mayMark]

theorem State.graceExhausted_iff (s : State) (p : Fin 4) : s.graceExhausted p = true ↔
    (s.plane p).level = .out ∧ (s.conf p).grace ≤ (s.plane p).overrun := by
  simp [State.graceExhausted]

/-! ## The gate -/

/-- Gate step 1 (R70): the entry's job does not mark. -/
theorem State.gate_notMarking (s : State) (t : Txn) (i : Fin 32) (e : RegionEntry) (r : Raster) (j : Fin 16) (v : View)
    (h : ∀ m, s.jct.marking = some m → m.job ≠ j) : s.gate t i e r j v = .deny ⟨.notMarking, .error, .entry i⟩ := by
  unfold State.gate
  split
  · rfl
  · next m hm => exact if_pos (h m hm)

/-- The gate for a read of the marking job: geometry, cartridge, toner, then the trial. -/
theorem State.gate_marking (s : State) (t : Txn) (i : Fin 32) (e : RegionEntry) (r : Raster) (j : Fin 16) (v : View) {m : Marked}
    (hm : s.jct.marking = some m) (hj : m.job = j) : s.gate t i e r j v =
      if geometryOk (s.trialEnv e r j) e.count t.lineAddrs = false then .deny ⟨.geometry, .error, .entry i⟩
      else if s.mayMark r.plane = false then .deny ⟨.cartridge, .error, .entry i⟩
      else if s.graceExhausted r.plane = true then .deny ⟨.tonerOut, .error, .entry i⟩
      else
        match s.runTrial (s.trialEnv e r j) m.ctx t.lineAddrs with
        | .ok tr => .accept ⟨some i, some j, v, false, some (tr, r.plane, r.geom.depth, s.reserveOf j)⟩
        | .error .held => .holdAssembly j
        | .error .quota => .quota i j := by
  simp only [State.gate, hm, hj, ne_eq, not_true, if_false, Bool.not_eq_true', denyError]
  rfl

/-- Step 8 for a MARK read of a RASTER entry whose job is HELD or CLOSING (R48). -/
theorem State.examineJob_markBarred (s : State) (t : Txn) (i : Fin 32) (e : RegionEntry) (j : Fin 16)
    (hm : t.dir = .read ∧ e.raster.isSome = true ∧ s.path.role? t.source = some .mark)
    (h : (∃ why, (s.job j).state = .held why) ∨ (s.job j).state = .closing) :
    s.examineJob t i e j = .deny ⟨.jobState, e.behaviour, .entry i⟩ := by
  obtain ⟨hd, hr, hrole⟩ := hm
  rcases h with ⟨why, h⟩ | h <;> simp [State.examineJob, h, hd, hr, hrole, JobState.letsPass, denyAs]

/-- A MARK read of a RASTER entry of an OPEN job comes to the gate. -/
theorem State.examineJob_marks (s : State) (t : Txn) (i : Fin 32) (e : RegionEntry) (j : Fin 16) {r : Raster}
    (hd : t.dir = .read) (hr : e.raster = some r) (hrole : s.path.role? t.source = some .mark)
    (h : (s.job j).state = .opened) : s.examineJob t i e j = s.gate t i e r j (e.view t.source) := by
  simp [State.examineJob, h, hd, hr, hrole, JobState.letsPass]

end Sys2Proof.Machine

namespace Sys2Proof.Proofs
open Sys2Proof Sys2Proof.Machine

/-- Settles O15: the read comes to `State.gate`, and each premise picks the branch of `gate_marking`. -/
theorem markingGate : Obligations.MarkingGate := by
  unfold Obligations.MarkingGate
  intro s t i e j r ha hc hf hw hring hhold hmatch he hj hr hd hperm hrole g frames frameOf deny marks tonerOut twoFrames view
  have hpermits : e.permits t.dir t.source = true := by rw [hd]; exact hperm
  have hexam : s.examine t = s.examineJob t i e j := by
    rw [s.examine_match ha hc hf hw hring, s.examineMatch_some t i e hhold hmatch he, s.examineEntry_job t i e j hpermits hj]
  refine ⟨fun hs => ?_, fun hopen => ?_⟩
  · rw [hexam, s.examineJob_markBarred t i e j ⟨hd, by rw [hr]; rfl, hrole⟩ hs]
  have hgate : s.examine t = s.gate t i e r j view := by
    rw [hexam, s.examineJob_marks t i e j hd hr hrole hopen, e.view_eq]
  refine ⟨fun hm => hgate.trans (s.gate_notMarking t i e r j view hm), fun m hm hmj => ?_⟩
  have hgeom : geometryOk (s.trialEnv e r j) e.count t.lineAddrs = true ↔ (∀ k < t.len, frameOf k < frames) ∧ twoFrames :=
    geometryOk_iff (s.trialEnv e r j) e.count hf fun _ => rfl
  have hmay : s.mayMark r.plane = true ↔ marks := s.mayMark_iff r.plane
  have hout : s.graceExhausted r.plane = true ↔ tonerOut := s.graceExhausted_iff r.plane
  rw [s.gate_marking t i e r j view hm hmj] at hgate
  refine ⟨fun hbad => ?_, fun hframes htwo => ?_⟩
  · rw [if_pos] at hgate
    · exact hgate
    · rw [← Bool.not_eq_true, hgeom]
      rintro ⟨hall, htwo⟩
      rcases hbad with ⟨k, hk, hle⟩ | hnot
      · exact absurd (hall k hk) (Nat.not_lt.2 hle)
      · exact hnot htwo
  rw [if_neg (by rw [hgeom.2 ⟨hframes, htwo⟩]; decide)] at hgate
  refine ⟨fun hnot => ?_, fun hmarks hout' => ?_, fun hmarks hnotOut => ?_⟩
  · rwa [if_pos (by rw [← Bool.not_eq_true, hmay]; exact hnot)] at hgate
  · rwa [if_neg (by rw [hmay.2 hmarks]; decide), if_pos (hout.2 hout')] at hgate
  · rw [if_neg (by rw [hmay.2 hmarks]; decide), if_neg (mt hout.1 hnotOut)] at hgate
    refine ⟨fun tr htr => ?_, fun htr => ?_, fun htr => ?_⟩ <;>
    · rw [htr] at hgate
      exact hgate

end Sys2Proof.Proofs
end

section
/-!
What a ring command's event still brings about after the command: an own context without records goes, and a result is reported. And
how the marking register, the stack and a job's own context bear on what is due.
-/

namespace Sys2Proof.Machine

/-! ## The records of an own context (R57, R84, R85) -/

/-- A job slot whose own context is `c`, or none when `c` holds no record (R57). -/
def JobSlot.keepOwn (c : Context) (q : JobSlot) : JobSlot := { q with own := if c.queue = [] then none else some c }

/-- Where no record is due, settling discards the own contexts that are empty, and does nothing else. -/
theorem State.settleDue_undue (s : State) (h : ∀ m ∈ s.jct.contexts, ∀ r ∈ m.ctx.queue, r.isDue = false) :
    s.settleDue = { s with jct := { s.jct with slots := s.jct.slots.map JobSlot.dropEmptyOwn } } := by
  have hfilter : ∀ m ∈ s.jct.contexts, m.ctx.queue.filter PageRecord.isDue = [] := fun m hm =>
    List.filter_eq_nil_iff.2 fun r hr => by simp [h m hm r hr]
  have hdue : s.jct.due = [] := List.flatMap_eq_nil_iff.2 hfilter
  have hmap : s.jct.mapContexts Context.dropDue = s.jct :=
    s.jct.mapContexts_eq _ fun m hm => Context.dropDue_eq _ (hfilter m hm)
  have howners : (s.jct.contexts.filter fun m => m.ctx.queue.any PageRecord.isDue) = [] := by
    rw [List.filter_eq_nil_iff]
    intro m hm hany
    obtain ⟨r, hr, hdue⟩ := List.any_eq_true.1 hany
    rw [h m hm r hr] at hdue
    cases hdue
  unfold State.settleDue
  rw [howners, hdue, hmap]
  simp only [List.map_nil, State.releaseAssembly_nil]
  rfl

theorem dropEmptyOwn_eq_self {q : JobSlot} (h : ∀ c ∈ q.own, c.queue ≠ []) : q.dropEmptyOwn = q := by
  have hown : (q.own.filter fun c => !c.queue.isEmpty) = q.own := by
    cases ho : q.own with
    | none => rfl
    | some c => simp [Option.filter, h c ho]
  rw [JobSlot.dropEmptyOwn, hown]

theorem dropEmptyOwn_eq_keepOwn {q : JobSlot} {c : Context} (h : q.own = some c) : q.dropEmptyOwn = q.keepOwn c := by
  rw [JobSlot.dropEmptyOwn, JobSlot.keepOwn, h]
  by_cases hc : c.queue = [] <;> simp [Option.filter, hc]

/-- The contexts of a part besides the own context of slot `j`. -/
theorem mem_contexts_modOwn {s : State} {j : Fin 16} {f : JobSlot → JobSlot} {m : Marked} (h : m ∈ (s.modJob j f).jct.contexts) :
    (∃ c ∈ (f (s.job j)).own, m = ⟨j, c⟩) ∨ m ∈ s.jct.contexts := by
  rcases (Jobs.mem_contexts_iff _ m).1 h with hm | hm | ⟨i, c, hc, e⟩
  · exact .inr ((Jobs.mem_contexts_iff _ m).2 (.inl hm))
  · exact .inr ((Jobs.mem_contexts_iff _ m).2 (.inr (.inl hm)))
  · have hc' : c ∈ ((s.modJob j f).job i).own := hc
    rw [State.modJob_job] at hc'
    split at hc'
    · next hi =>
      subst hi
      exact .inl ⟨c, hc', e⟩
    · exact .inr ((Jobs.mem_contexts_iff _ m).2 (.inr (.inr ⟨i, c, hc', e⟩)))

/-- A new own context with no due record leaves nothing to settle, if it holds a record. -/
theorem metered_modJob {s : State} (h : s.jct.metered = true) (j : Fin 16) {f : JobSlot → JobSlot}
    (hf : ∀ c ∈ (f (s.job j)).own, c.queue ≠ [] ∧ ∀ r ∈ c.queue, r.isDue = false) : (s.modJob j f).jct.metered = true := by
  rw [Jobs.metered_iff] at h ⊢
  refine ⟨fun m hm r hr => ?_, fun i c hc => ?_⟩
  · rcases mem_contexts_modOwn hm with ⟨c, hc, rfl⟩ | hm
    · exact (hf c hc).2 r hr
    · exact h.1 m hm r hr
  · have hc' : c ∈ ((s.modJob j f).job i).own := hc
    rw [State.modJob_job] at hc'
    split at hc'
    · next hi =>
      subst hi
      exact (hf c hc').1
    · exact h.2 i c hc'

theorem mem_keepOwn {c d : Context} {q : JobSlot} (h : d ∈ (q.keepOwn c).own) : d = c ∧ c.queue ≠ [] := by
  unfold JobSlot.keepOwn at h
  split at h
  · cases h
  · next hc => exact ⟨(Option.some.inj h).symm, hc⟩

theorem metered_keepOwn {s : State} (h : s.jct.metered = true) (j : Fin 16) {c : Context}
    (hc : ∀ r ∈ c.queue, r.isDue = false) : (s.modJob j (JobSlot.keepOwn c)).jct.metered = true :=
  metered_modJob h j fun d hd => by
    obtain ⟨rfl, hne⟩ := mem_keepOwn hd
    exact ⟨hne, hc⟩

/-- A context without a due record that becomes an own context stays if it holds a record, and is discarded otherwise. -/
theorem settleDue_newOwn {s : State} (h : s.jct.metered = true) (j : Fin 16) {c : Context}
    (hc : ∀ r ∈ c.queue, r.isDue = false) :
    (s.modJob j fun q => { q with own := some c }).settleDue = s.modJob j (JobSlot.keepOwn c) := by
  rw [Jobs.metered_iff] at h
  rw [State.settleDue_undue]
  · have hslots : (upd s.jct.slots j fun q => { q with own := some c }).map JobSlot.dropEmptyOwn
        = upd s.jct.slots j (JobSlot.keepOwn c) := vector_ext fun i => by
      rw [Fin.getElem_fin, Vector.getElem_map, ← Fin.getElem_fin, upd_get, upd_get]
      split
      · rw [dropEmptyOwn_eq_keepOwn (c := c) rfl]
        rfl
      · exact dropEmptyOwn_eq_self (h.2 i)
    exact congrArg (fun v => ({ s with jct := { s.jct with slots := v } } : State)) hslots
  · intro m hm r hr
    rcases mem_contexts_modOwn hm with ⟨d, hd, rfl⟩ | hm
    · cases hd
      exact hc r hr
    · exact h.1 m hm r hr

/-! ## The marking register and the stack -/

/-- The register and the stack take contexts of the part, or empty ones. -/
theorem metered_registers {j k : Jobs} (h : j.metered = true)
    (hctx : ∀ m, m ∈ k.marking ∨ m ∈ k.stack → m.ctx.queue = [] ∨ m ∈ j.marking ∨ m ∈ j.stack)
    (ho : ∀ i : Fin 16, (k.slots[i]).own = (j.slots[i]).own) : k.metered = true := by
  rw [Jobs.metered_iff] at h ⊢
  have hmarked : ∀ m, m ∈ k.marking ∨ m ∈ k.stack → ∀ r ∈ m.ctx.queue, r.isDue = false := fun m hm r hr => by
    rcases hctx m hm with e | hm
    · rw [e] at hr
      cases hr
    · exact h.1 m ((j.mem_contexts_iff m).2 (hm.imp_right .inl)) r hr
  refine ⟨fun m hm r hr => ?_, fun i c hc => h.2 i c (ho i ▸ hc)⟩
  rcases (k.mem_contexts_iff m).1 hm with hm | hm | ⟨i, c, hc, e⟩
  · exact hmarked m (.inl hm) r hr
  · exact hmarked m (.inr hm) r hr
  · exact h.1 m ((j.mem_contexts_iff m).2 (.inr (.inr ⟨i, c, ho i ▸ hc, e⟩))) r hr

/-- A record with lines in flight is not due. -/
theorem isDue_of_lines {r : PageRecord} (h : 0 < r.lines) : r.isDue = false := by
  simp [PageRecord.isDue, Nat.ne_of_gt h]

theorem forceCloseAll_queue_nil (c : Context) : c.forceCloseAll.queue = [] ↔ c.queue = [] := List.map_eq_nil_iff

theorem forceCloseAll_undue {c : Context} (h : ∀ r ∈ c.queue, 0 < r.lines) : ∀ r ∈ c.forceCloseAll.queue, r.isDue = false := by
  intro r hr
  obtain ⟨q, hq, rfl⟩ := List.mem_map.1 hr
  exact isDue_of_lines (h q hq)

/-! ## Force-close in the terms of the statements (R86) -/

theorem PlaneRec.forceClose_eq (q : PlaneRec) : q.forceClose = { q with
    status := if q.status = .notSeen then .absent else if q.status = .opened then .closed else q.status } := by
  obtain ⟨geom, status, chunks, dots⟩ := q
  cases status <;> rfl

theorem Tracker.clearTie_eq (rs : List PageRecord) (t : Tracker) : t.clearTie (rs.map PageRecord.opened) =
    if rs.any (fun r => t.tied == some r.opened) then ⟨none, none, 0, none⟩ else t := by
  have hany : ∀ n, (rs.map PageRecord.opened).contains n = rs.any fun r => some n == some r.opened := fun n => by
    rw [Bool.eq_iff_iff, List.contains_iff_mem, List.mem_map, List.any_eq_true]
    exact exists_congr fun r => and_congr_right fun _ => by rw [beq_iff_eq, Option.some.injEq, eq_comm]
  cases h : t.tied with
  | none => simp [Tracker.clearTie, h]
  | some n =>
    simp only [Tracker.clearTie, h, hany]
    rfl

theorem Context.forceCloseAll_eq (c : Context) : c.forceCloseAll =
    { trackers := c.trackers.map fun t => if c.queue.any (fun r => t.tied == some r.opened) then ⟨none, none, 0, none⟩ else t
      queue := c.queue.map fun r => { r with
        incomplete := true
        planes := r.planes.map fun q => q.map fun q => { q with
          status := if q.status = .notSeen then .absent else if q.status = .opened then .closed else q.status } } } := by
  have htrackers : Tracker.clearTie (c.queue.map PageRecord.opened) = fun t =>
      if c.queue.any (fun r => t.tied == some r.opened) then ⟨none, none, 0, none⟩ else t :=
    funext fun t => t.clearTie_eq c.queue
  have hplanes : PlaneRec.forceClose = fun q => { q with
      status := if q.status = .notSeen then .absent else if q.status = .opened then .closed else q.status } :=
    funext PlaneRec.forceClose_eq
  rw [Context.forceCloseAll, htrackers, show PageRecord.forceClose = fun r => { r with
    planes := r.planes.map (Option.map PlaneRec.forceClose), incomplete := true } from rfl, hplanes]

/-! ## Released holds (R87) -/

theorem HoldEntry.releaseFor_one (j : Fin 16) (h : HoldEntry) :
    h.releaseFor [j] = if h.cause = .assembly j then { h with released := true } else h := by
  cases hc : h.cause <;> simp [HoldEntry.releaseFor, hc]

theorem State.releaseMarking_eq (s : State) : s.releaseMarking = { s with
    path := { s.path with
      hold := s.path.hold.map fun h =>
        if ∃ m ∈ s.jct.marking, h.cause = .assembly m.job then { h with released := true } else h } } := by
  have hrelease : HoldEntry.releaseFor (s.jct.marking.map Marked.job).toList = fun h =>
      if ∃ m ∈ s.jct.marking, h.cause = .assembly m.job then { h with released := true } else h := funext fun h => by
    cases hm : s.jct.marking with
    | none => cases hc : h.cause <;> simp [HoldEntry.releaseFor, hc]
    | some m => simp [h.releaseFor_one m.job]
  rw [State.releaseMarking, State.releaseAssembly, hrelease]

/-! ## The event around a command -/

/-- A ring command's event, where one may be executed. -/
theorem ringEvent_ready {s : State} {run : State → State} (hp : s.powered = true) (hc : s.commandReady = true) :
    ringEvent run s = .next (run s.running).endEvent := by
  have hc' : s.beginEvent.commandReady = true := hc
  have hdirect : s.beginEvent.direct run = run s.running := by
    simp only [State.direct, hc', if_true]
    rfl
  rw [ringEvent, event_powered hp, hdirect]

/-- What settles in an event may have settled before its other consequences. -/
theorem State.endEvent_settled (s : State) (h : s.settleDue.jct.metered = true) : s.endEvent = s.settleDue.endEvent := by
  simp only [State.endEvent, State.consequences, s.settleDue.settleDue_eq h]

/-- The end of a command's event in which, after the settling of records, nothing is due but its result. -/
theorem ringEvent_settled {s t : State} {run : State → State} {kind tag : BitVec 16} {x : ResultCode × ResultValues}
    (hs : s.resting = true) (hc : s.commandReady = true) (hheld : s.rci.held = false)
    (hset : (run s.running).settleDue = report kind tag (x, t)) (hn : t.nothingDue = true)
    (hr : t.rci = { s.rci with held := true }) (hh : t.handed = []) (hm : t.ms = s.ms) :
    ringEvent run s = .next { t with handed := [], rci := s.rci.joined (.result kind x.1 x.2) tag s.ms } := by
  obtain ⟨hp, hsb, hfw, -⟩ := s.resting_iff.1 hs
  obtain ⟨-, -, -, -, hq⟩ := s.commandReady_iff.1 hc
  have hrci : (report kind tag (x, t)).rci = { s.rci with held := true } := hr
  have hrun : (report kind tag (x, t)).rci.standby = .running := by rw [hrci]; exact hsb
  have hfault : (report kind tag (x, t)).rci.faultWaiting = false := by rw [hrci]; exact hfw
  have hdue : (report kind tag (x, t)).nothingDue = true :=
    State.nothingDue_congr hn hrun hfault rfl rfl rfl rfl rfl rfl rfl
  have hentry : (report kind tag (x, t)).rci.hasEntry true = true := by
    rw [hrci, Rci.hasEntry]
    simp only [Bool.not_true, Bool.and_false, Bool.false_eq_true, if_false, decide_eq_true_eq]
    omega
  have hhanded : (report kind tag (x, t)).handed = [⟨.result kind x.1 x.2, tag, true⟩] := by
    show t.handed ++ _ = _
    rw [hh]
    rfl
  rw [ringEvent_ready hp hc, State.endEvent_settled _ (by rw [hset]; exact (State.nothingDue_iff _ |>.1 hdue).1), hset,
    State.endEvent_one _ hdue hrun hfault _ hhanded hentry]
  simp only [report, State.handHeld, hr, hm, Rci.joined, hheld, Bool.not_true, Bool.and_false]

theorem State.still_running {s : State} (h : s.resting = true) : s.running.still = true :=
  State.still_congr (State.still_of_resting h).2 rfl rfl rfl rfl rfl rfl rfl rfl

end Sys2Proof.Machine
end

section
/-!
MARK_SELECT, MARK_INTERRUPT and MARK_RESUME: each answer as an equation, and the event around it. Settles O39.
-/

namespace Sys2Proof.Machine

/-! ## The selected job (R58 step 1, R59 step 1) -/

theorem State.selectable?_large (s : State) {n : Nat} (h : 15 < n) : s.selectable? n = none := by
  rw [State.selectable?, fin?_none h]

theorem State.selectable?_scan (s : State) {j : Fin 16} (hk : (s.job j).kind = .scan) (hs : (s.job j).state ≠ .free) :
    s.selectable? j.val = none := by
  simp only [State.selectable?, fin?_val j rfl]
  exact if_pos ⟨hk, hs⟩

theorem State.selectable?_some (s : State) {j : Fin 16} (h : (s.job j).state = .free ∨ (s.job j).kind ≠ .scan) :
    s.selectable? j.val = some j := by
  simp only [State.selectable?, fin?_val j rfl]
  exact if_neg fun ⟨hk, hs⟩ => h.elim hs fun hne => hne hk

theorem Jobs.pageOpen_iff (j : Jobs) : j.pageOpen = true ↔ ∃ m ∈ j.marking, m.ctx.queue ≠ [] := by
  cases h : j.marking <;> simp [Jobs.pageOpen, h]

theorem Jobs.pageOpen_eq_false_iff (j : Jobs) : j.pageOpen = false ↔ ∀ m ∈ j.marking, m.ctx.queue = [] := by
  rw [← Bool.not_eq_true, j.pageOpen_iff]
  simp only [not_exists, not_and, ne_eq, not_not]

/-! ## MARK_SELECT (R58) -/

theorem State.markSelect_badParam (s : State) {n : Nat} (h : s.selectable? n = none) : s.markSelect n = (.badParam, s) := by
  rw [State.markSelect, h]

theorem State.markSelect_jobState (s : State) {n : Nat} {j : Fin 16} (h : s.selectable? n = some j)
    (hs : (s.job j).state ≠ .opened ∨ s.jct.isStacked j = true) : s.markSelect n = (.jobState, s) := by
  simp only [State.markSelect, h]
  exact if_pos hs

theorem State.markSelect_opened (s : State) {n : Nat} {j : Fin 16} (h : s.selectable? n = some j)
    (ho : (s.job j).state = .opened) (hst : s.jct.isStacked j = false) :
    s.markSelect n = if s.jct.pageOpen then (.pageOpen, s) else (.ok, s.releaseMarking.mark j) := by
  simp only [State.markSelect, h]
  exact if_neg (by simp [ho, hst])

/-! ## MARK_INTERRUPT (R59) -/

theorem State.markInterrupt_badParam (s : State) {n : Nat} (h : s.selectable? n = none) :
    s.markInterrupt n = ((.badParam, .none), s) := by
  rw [State.markInterrupt, h]

theorem State.markInterrupt_jobState (s : State) {n : Nat} {j : Fin 16} (h : s.selectable? n = some j)
    (hs : (s.job j).state ≠ .opened ∨ s.jct.isMarking j = true ∨ s.jct.isStacked j = true) :
    s.markInterrupt n = ((.jobState, .none), s) := by
  simp only [State.markInterrupt, h]
  exact if_pos hs

theorem State.markInterrupt_idle (s : State) {n : Nat} {j : Fin 16} (h : s.selectable? n = some j)
    (ho : (s.job j).state = .opened) (hst : s.jct.isStacked j = false) (hm : s.jct.marking = none) :
    s.markInterrupt n = ((.ok, .depth s.jct.stack.length), s.mark j) := by
  simp only [State.markInterrupt, h]
  rw [if_neg (by simp [ho, hst, Jobs.isMarking, hm]), hm]

theorem State.markInterrupt_busy (s : State) {n : Nat} {j : Fin 16} {m : Marked} (h : s.selectable? n = some j)
    (ho : (s.job j).state = .opened) (hst : s.jct.isStacked j = false) (hm : s.jct.marking = some m) (hne : m.job ≠ j) :
    s.markInterrupt n = if 4 ≤ s.jct.stack.length then ((.stackFull, .none), s)
      else ((.ok, .depth (s.jct.stack.length + 1)),
        ({ s.releaseMarking with jct := { s.jct with stack := m :: s.jct.stack } } : State).mark j) := by
  simp only [State.markInterrupt, h]
  rw [if_neg (by simp [ho, hst, Jobs.isMarking, hm, hne]), hm]

/-! ## MARK_RESUME (R60) -/

theorem State.markResume_empty (s : State) (h : s.jct.stack = []) : s.markResume = ((.stackEmpty, .none), s) := by
  rw [State.markResume, h]
  rfl

theorem State.markResume_pageOpen (s : State) (h : s.jct.stack ≠ []) (hp : s.jct.pageOpen = true) :
    s.markResume = ((.pageOpen, .none), s) := by
  rw [State.markResume, if_neg (by simpa using h), if_pos hp]

/-- A stack whose top has no close pending: its top marks again, or none if it is empty. -/
theorem State.popStack_top (s : State) {l : List Marked} (n : Nat) (h : ∀ x ∈ l.head?, (s.job x.job).closePending = false) :
    s.popStack l n = ({ s with jct := { s.jct with marking := l.head?, stack := l.tail } }, n) := by
  cases l with
  | nil => rfl
  | cons m rest =>
    have hm := h m rfl
    rw [State.popStack, if_neg (by simp [hm])]
    rfl

/-- MARK_RESUME whose top has no close pending. -/
theorem State.markResume_top (s : State) {m : Marked} {rest : List Marked} (hst : s.jct.stack = m :: rest)
    (hp : s.jct.pageOpen = false) (hc : (s.job m.job).closePending = false) : s.markResume =
      ((.ok, .resumed (some m.job) 0),
        { s.releaseMarking with jct := { s.jct with marking := some m, stack := rest } }) := by
  have hpop : s.releaseMarking.popStack (m :: rest) 0 =
      ({ s.releaseMarking with jct := { s.jct with marking := some m, stack := rest } }, 0) :=
    s.releaseMarking.popStack_top 0 fun x hx => by
      obtain rfl : m = x := by simpa using hx
      exact hc
  rw [State.markResume, hst, if_neg (by simp), if_neg (by simp [hp]), hpop]
  rfl

/-- The part after a MARK_RESUME that pops the stacked job `m` and then takes the top of `rest`, if any, the context of `m` apart. -/
def State.poppedOne (s : State) (m : Marked) (rest : List Marked) : State :=
  { s.releaseAssembly [m.job] with jct := { s.jct with marking := rest.head?, stack := rest.tail } }

/-- MARK_RESUME, while no job marks, whose top has close pending and the one under it has not. -/
theorem State.markResume_pending (s : State) {m : Marked} {rest : List Marked} (hst : s.jct.stack = m :: rest)
    (hm : s.jct.marking = none) (hc : (s.job m.job).closePending = true)
    (hrest : ∀ x ∈ rest.head?, (s.job x.job).closePending = false) : s.markResume =
      ((.ok, .resumed (rest.head?.map Marked.job) 1),
        (s.poppedOne m rest).modJob m.job fun q => { q with own := some m.ctx.forceCloseAll }) := by
  have hrelease : s.releaseMarking = s := by
    rw [State.releaseMarking, hm]
    exact s.releaseAssembly_nil
  have hmem : m ∈ s.jct.contexts := (Jobs.mem_contexts_iff _ m).2 (.inr (.inl (by rw [hst]; exact List.mem_cons_self)))
  have hpop := (s.ownContext m).popStack_top 1 fun x hx => ((frame_ownContext s m hmem).pending x.job).trans (hrest x hx)
  have hpageOpen : s.jct.pageOpen = false := s.jct.pageOpen_eq_false_iff.2 (by simp [hm])
  rw [State.markResume, hst, if_neg (by simp), if_neg (by simp [hpageOpen]), hrelease, State.popStack, if_pos hc, hpop]
  rfl

/-! ## The events -/

/-- Nothing is due after a change of the marking register, the stack, the holds and of slots that keep their states and contexts. -/
theorem nothingDue_registers {s t : State} (h : s.ready = true)
    (ht : t.rci = s.running.rci ∧ t.rgt = s.rgt ∧ t.wpe = s.wpe ∧ t.down = s.down)
    (hpath : t.path.reads = s.path.reads ∧ t.path.writes = s.path.writes)
    (hctx : ∀ m, m ∈ t.jct.marking ∨ m ∈ t.jct.stack → m.ctx.queue = [] ∨ m ∈ s.jct.marking ∨ m ∈ s.jct.stack)
    (hjobs : ∀ i, (t.job i).state = (s.job i).state ∧ (t.job i).own = (s.job i).own) : t.nothingDue = true := by
  obtain ⟨hrest, -, -, hclosing⟩ := s.ready_iff.1 h
  obtain ⟨hrci, hrgt, hwpe, hdown⟩ := ht
  have hstill := State.still_running hrest
  have hmetered : s.jct.metered = true := (State.nothingDue_iff _ |>.1 (State.still_iff _ |>.1 hstill).2.2).1
  have hnone : t.noneClosing = true := t.noneClosing_iff.2 fun i => by
    rw [(hjobs i).1]
    exact s.noneClosing_iff.1 hclosing i
  refine (State.still_iff t |>.1 (State.still_mono hstill (by rw [hrci]) (by rw [hrci]) ?_ (by rw [hrgt]; exact id) hwpe
    (fun i hi => ?_) ?_)).2.2
  · exact metered_registers hmetered hctx fun i => (hjobs i).2
  · rw [State.mayLeave_of_noneClosing t hnone i] at hi
    cases hi
  · exact State.quiet_of_placed (fun _ _ hi => hpath.1 ▸ hi) (fun _ _ hi => hpath.2 ▸ hi) (by rw [hdown]; rfl)

/-- A job that takes the marking register keeps its state and its context. -/
theorem mark_jobs (s : State) (j i : Fin 16) :
    ((s.mark j).job i).state = (s.job i).state ∧ ((s.mark j).job i).own = (s.job i).own := by
  have hjob : (s.mark j).job i = if i = j then { s.job i with marked := true } else s.job i := State.modJob_job _ _ _ _
  rw [hjob]
  split <;> exact ⟨rfl, rfl⟩

theorem exec_markSelect {s : State} {tag : BitVec 16} {n : Nat} {code : ResultCode} {t : State} (h : s.ready = true)
    (hx : s.running.markSelect n = (code, t)) (hn : t.nothingDue = true) (hr : t.rci = s.running.rci) (hh : t.handed = [])
    (hm : t.ms = s.ms) : exec (.markSelect tag n) s =
      .next { t with handed := [], rci := s.rci.joined (.result 9 code .none) tag s.ms } :=
  ringEvent_eq (run := State.runMarkSelect tag n) (a := ((code, .none), t)) h
    (congrArg (fun x => report 9 tag (plainAnswer x)) hx) hn hr hh hm

theorem exec_markInterrupt {s : State} {tag : BitVec 16} {n : Nat} {a : Answer} (h : s.ready = true)
    (hx : s.running.markInterrupt n = a) (hn : a.2.nothingDue = true) (hr : a.2.rci = s.running.rci) (hh : a.2.handed = [])
    (hm : a.2.ms = s.ms) : exec (.markInterrupt tag n) s =
      .next { a.2 with handed := [], rci := s.rci.joined (.result 10 a.1.1 a.1.2) tag s.ms } :=
  ringEvent_eq (run := State.runMarkInterrupt tag n) h (congrArg (report 10 tag) hx) hn hr hh hm

theorem exec_markSelect_refused {s : State} {tag : BitVec 16} {n : Nat} {code : ResultCode} (h : s.ready = true)
    (hx : s.running.markSelect n = (code, s.running)) : exec (.markSelect tag n) s = .next (s.refused 9 tag code) :=
  ringEvent_refused (run := State.runMarkSelect tag n) h (congrArg (fun x => report 9 tag (plainAnswer x)) hx)

theorem exec_markInterrupt_refused {s : State} {tag : BitVec 16} {n : Nat} {code : ResultCode} (h : s.ready = true)
    (hx : s.running.markInterrupt n = ((code, .none), s.running)) :
    exec (.markInterrupt tag n) s = .next (s.refused 10 tag code) :=
  ringEvent_refused (run := State.runMarkInterrupt tag n) h (congrArg (report 10 tag) hx)

theorem exec_markResume_refused {s : State} {tag : BitVec 16} {code : ResultCode} (h : s.ready = true)
    (hx : s.running.markResume = ((code, .none), s.running)) : exec (.markResume tag) s = .next (s.refused 11 tag code) :=
  ringEvent_refused (run := State.runMarkResume tag) h (congrArg (report 11 tag) hx)

/-- The ASSEMBLY holds of the marking job as a ring command releases them. -/
theorem State.running_releaseMarking (s : State) : s.running.releaseMarking = { s.running with
    path := { s.path with
      hold := s.path.hold.map fun h =>
        if ∃ m ∈ s.jct.marking, h.cause = .assembly m.job then { h with released := true } else h } } :=
  s.running.releaseMarking_eq

theorem any_eq_false_of_head_tail {α : Type} {l : List α} {p : α → Bool} (hh : l.head?.any p = false) (ht : l.tail.any p = false) :
    l.any p = false := by
  cases l with
  | nil => rfl
  | cons a l => exact (List.any_cons ..).trans (Bool.or_eq_false_iff.2 ⟨hh, ht⟩)

/-- MARK_RESUME that pops the top of the stack: nothing is due after it but what its job's context has left. -/
theorem poppedOne_nothingDue {s : State} {m : Marked} {rest : List Marked} {c : Context} (hs : s.still = true)
    (hst : s.jct.stack = m :: rest) (hm : s.jct.marking = none) (hrefs : 0 < (s.job m.job).refs)
    (hc : ∀ r ∈ c.queue, r.isDue = false) :
    (s.poppedOne m rest).jct.metered = true
    ∧ ((s.poppedOne m rest).modJob m.job (JobSlot.keepOwn c)).nothingDue = true := by
  have hmetered : s.jct.metered = true := (State.nothingDue_iff s |>.1 (s.still_iff.1 hs).2.2).1
  have hpopped : (s.poppedOne m rest).jct.metered = true := metered_registers hmetered (fun x hx => .inr (.inr (by
    rw [hst]
    refine List.mem_cons_of_mem m ?_
    rcases hx with hx | hx
    · exact List.mem_of_mem_head? hx
    · exact List.mem_of_mem_tail hx))) fun _ => rfl
  refine ⟨hpopped, (State.still_iff _ |>.1 (State.still_mono
    (t := (s.poppedOne m rest).modJob m.job (JobSlot.keepOwn c)) hs rfl rfl (metered_keepOwn hpopped m.job hc) id rfl
    (fun k hk => ?_) fun base count hq => ?_)).2.2⟩
  · have hjob : ((s.poppedOne m rest).modJob m.job (JobSlot.keepOwn c)).job k
        = if k = m.job then (s.job k).keepOwn c else s.job k := State.modJob_job _ _ _ _
    by_cases hkm : k = m.job
    · obtain ⟨-, hzero, -, -⟩ := mayLeave_facts hk
      rw [hjob, if_pos hkm, hkm] at hzero
      exact absurd hzero (Nat.ne_of_gt hrefs)
    · obtain ⟨-, -, hmark, hstack⟩ := mayLeave_facts hk
      have hstacked : s.jct.isStacked k = false := by
        rw [Jobs.isStacked, hst, List.any_cons, beq_eq_false_iff_ne.2 (Ne.symm hkm), Bool.false_or]
        exact any_eq_false_of_head_tail hmark hstack
      have hidle : s.jct.isMarking k = false := by rw [Jobs.isMarking, hm]; rfl
      simp only [State.mayLeave, hjob, if_neg hkm, hmark, hstack] at hk
      simp only [State.mayLeave, hstacked, hidle]
      exact hk
  · exact State.quiet_of_placed (fun _ _ hi => hi) (fun _ _ hi => hi) rfl base count hq

/-- MARK_RESUME whose top has close pending. -/
theorem exec_markResume_pending {s : State} {tag : BitVec 16} {m : Marked} {rest : List Marked} (hs : s.resting = true)
    (hready : s.commandReady = true) (hheld : s.rci.held = false) (hst : s.jct.stack = m :: rest) (hm : s.jct.marking = none)
    (hc : (s.job m.job).closePending = true) (hrefs : 0 < (s.job m.job).refs) (hlines : ∀ r ∈ m.ctx.queue, 0 < r.lines)
    (hrest : ∀ x ∈ rest.head?, (s.job x.job).closePending = false) :
    exec (.markResume tag) s = .next
      (((s.poppedOne m rest).modJob m.job (JobSlot.keepOwn m.ctx.forceCloseAll)).reported
        (.result 11 .ok (.resumed (rest.head?.map Marked.job) 1)) tag) := by
  have hundue := forceCloseAll_undue hlines
  obtain ⟨hmetered, hdue⟩ := poppedOne_nothingDue (s := s.running) (State.still_running hs) hst hm hrefs hundue
  have hrun : State.runMarkResume tag s.running = report 11 tag ((.ok, .resumed (rest.head?.map Marked.job) 1),
      (s.running.poppedOne m rest).modJob m.job fun q => { q with own := some m.ctx.forceCloseAll }) :=
    congrArg (report 11 tag) (s.running.markResume_pending hst hm hc hrest)
  have hset : (State.runMarkResume tag s.running).settleDue = report 11 tag ((.ok, .resumed (rest.head?.map Marked.job) 1),
      (s.running.poppedOne m rest).modJob m.job (JobSlot.keepOwn m.ctx.forceCloseAll)) := by
    rw [hrun]
    exact settleDue_newOwn (s := report 11 tag ((.ok, .resumed (rest.head?.map Marked.job) 1), s.running.poppedOne m rest))
      hmetered m.job hundue
  exact ringEvent_settled (run := State.runMarkResume tag) hs hready hheld hset hdue rfl rfl rfl

end Sys2Proof.Machine

namespace Sys2Proof.Proofs
open Sys2Proof Sys2Proof.Machine

/-- Settles O39: each command by the equation of its answer; the job popped by MARK_RESUME keeps its force-closed context while it
holds a record. -/
theorem markCommands : Obligations.MarkCommands := by
  unfold Obligations.MarkCommands
  refine ⟨?_, ?_, ?_⟩
  · intro s tag j h released slots fresh
    refine ⟨fun hk ho hst => ?_, ?_, ?_, ?_⟩
    · have hsel : s.running.selectable? j.val = some j := s.running.selectable?_some (.inr hk)
      refine ⟨fun hm => ?_, fun hm => ?_, fun m hm hne hlen => ?_, fun hm => ?_, fun m hm hne hlen => ?_⟩
      · have hx := (s.running.markSelect_opened hsel ho hst).trans
          (if_neg (Bool.not_eq_true _ ▸ s.jct.pageOpen_eq_false_iff.2 hm))
        rw [s.running_releaseMarking] at hx
        refine exec_markSelect h hx (nothingDue_registers h ⟨rfl, rfl, rfl, rfl⟩ ⟨rfl, rfl⟩ ?_ (mark_jobs _ j)) rfl rfl rfl
        rintro x (hx | hx)
        · cases hx
          exact .inl rfl
        · exact .inr (.inr hx)
      · have hx := s.running.markInterrupt_idle hsel ho hst hm
        refine exec_markInterrupt h hx (nothingDue_registers h ⟨rfl, rfl, rfl, rfl⟩ ⟨rfl, rfl⟩ ?_ (mark_jobs _ j)) rfl rfl rfl
        rintro x (hx | hx)
        · cases hx
          exact .inl rfl
        · exact .inr (.inr hx)
      · have hx := (s.running.markInterrupt_busy hsel ho hst hm hne).trans (if_neg (Nat.not_le.2 hlen))
        rw [s.running_releaseMarking] at hx
        refine exec_markInterrupt h hx (nothingDue_registers h ⟨rfl, rfl, rfl, rfl⟩ ⟨rfl, rfl⟩ ?_ (mark_jobs _ j)) rfl rfl rfl
        rintro x (hx | hx)
        · cases hx
          exact .inl rfl
        · rcases List.mem_cons.1 hx with rfl | hx
          · exact .inr (.inl hm)
          · exact .inr (.inr hx)
      · exact exec_markSelect_refused h
          ((s.running.markSelect_opened hsel ho hst).trans (if_pos (s.jct.pageOpen_iff.2 hm)))
      · exact exec_markInterrupt_refused h ((s.running.markInterrupt_busy hsel ho hst hm hne).trans (if_pos hlen))
    · intro m rest hst hm hc
      have hx := s.running.markResume_top hst (s.jct.pageOpen_eq_false_iff.2 hm) hc
      rw [s.running_releaseMarking] at hx
      refine ringEvent_eq (run := State.runMarkResume tag) h (congrArg (report 11 tag) hx)
        (nothingDue_registers h ⟨rfl, rfl, rfl, rfl⟩ ⟨rfl, rfl⟩ ?_ fun _ => ⟨rfl, rfl⟩) rfl rfl rfl
      rintro x (hx | hx)
      · cases hx
        exact .inr (.inr (by rw [hst]; exact List.mem_cons_self))
      · exact .inr (.inr (by rw [hst]; exact List.mem_cons_of_mem m hx))
    · exact fun hst => exec_markResume_refused h (s.running.markResume_empty hst)
    · exact fun m hm hq hst => exec_markResume_refused h
        (s.running.markResume_pageOpen hst (s.jct.pageOpen_iff.2 ⟨m, hm, hq⟩))
  · refine fun s tag n h => ⟨fun hn => ?_, ?_⟩
    · have hsel := s.running.selectable?_large hn
      exact ⟨exec_markSelect_refused h (s.running.markSelect_badParam hsel),
        exec_markInterrupt_refused h (s.running.markInterrupt_badParam hsel)⟩
    · rintro j rfl
      refine ⟨fun hk hs => ?_, fun hs => ?_, fun hk hm => ?_⟩
      · have hsel : s.running.selectable? j.val = none := s.running.selectable?_scan hk hs
        exact ⟨exec_markSelect_refused h (s.running.markSelect_badParam hsel),
          exec_markInterrupt_refused h (s.running.markInterrupt_badParam hsel)⟩
      · have hsel : s.running.selectable? j.val = some j := s.running.selectable?_some (hs.imp_right And.left)
        have hbad : (s.job j).state ≠ .opened ∨ s.jct.isStacked j = true :=
          hs.elim (fun hfree => .inl (by rw [hfree]; decide)) And.right
        exact ⟨exec_markSelect_refused h (s.running.markSelect_jobState hsel hbad),
          exec_markInterrupt_refused h (s.running.markInterrupt_jobState hsel (hbad.imp_right .inr))⟩
      · exact exec_markInterrupt_refused h
          (s.running.markInterrupt_jobState (s.running.selectable?_some (.inr hk)) (.inr (.inl hm)))
  · intro s tag m rest hs hready hheld hst hm hc hrefs hlines hrest forced
    have hrun := exec_markResume_pending (tag := tag) hs hready hheld hst hm hc hrefs hlines hrest
    have hforced : m.ctx.forceCloseAll = forced := m.ctx.forceCloseAll_eq
    have hhold : HoldEntry.releaseFor [m.job] = fun h : HoldEntry =>
        if h.cause = .assembly m.job then { h with released := true } else h := funext fun h => h.releaseFor_one m.job
    have hempty : (forced.queue = []) = (m.ctx.queue = []) :=
      propext ((congrArg (fun c : Context => c.queue = []) hforced.symm :).to_iff.trans (forceCloseAll_queue_nil m.ctx))
    rw [hrun, hforced]
    simp only [State.poppedOne, State.releaseAssembly, State.modJob, upd, JobSlot.keepOwn, hhold, hempty]

end Sys2Proof.Proofs
end

section
/-!
A job that leaves CLOSING: what the leaving changes, said once, and the event that ends with a leaving or with the start of a wipe.
Settles O36.
-/

namespace Sys2Proof.Machine

/-! ## The end of an event in which a wipe starts (R170) -/

theorem doneDue_of_wipeStartDue {s : State} (h : s.wipeStartDue = true) : s.wpe.doneDue = false := by
  cases hq : s.wpe.queue with
  | nil => simp [Wpe.doneDue, hq]
  | cons e rest =>
    have hwait : e.progress = .waiting := by
      simp only [State.wipeStartDue, hq, Bool.and_eq_true, beq_iff_eq] at h
      exact h.1
    simp [Wpe.doneDue, hq, WipeEntry.isDone, hwait]

/-- Where nothing is due once the head wipe has started, its start is all that an event still brings about. -/
theorem State.consequences_started (s : State) (h : s.startWipe.still = true) : s.consequences = s.startWipe := by
  obtain ⟨w, hw⟩ := startWipe_leaves s
  obtain ⟨hrun, -, hn⟩ := State.still_iff _ |>.1 h
  obtain ⟨hmetered, hcommit, hdone, hleave, -, -, -⟩ := State.nothingDue_iff _ |>.1 hn
  have hmetered' : s.jct.metered = true := by rw [← startWipe_jct]; exact hmetered
  have hcommit' : s.rgt.commitDue = false := by rw [hw] at hcommit; exact hcommit
  have hdone' : s.wpe.doneDue = false := by
    by_cases hstart : s.wipeStartDue = true
    · exact doneDue_of_wipeStartDue hstart
    · rwa [s.startWipe_eq (by simpa using hstart)] at hdone
  have hleave' : ∀ j, s.mayLeave j = false := fun j => by
    have hroom : s.startWipe.wpe.room = s.wpe.room := by rw [Wpe.room, Wpe.room, (startWipe_queue s).1]
    have hjob : s.startWipe.job j = s.job j := by rw [State.job, State.job, startWipe_jct]
    have := hleave j
    simp only [State.mayLeave, hroom, hjob, startWipe_jct] at this
    exact this
  rw [State.consequences, s.settleDue_eq hmetered', s.completeCommit_eq hcommit', s.finishWipe_eq hdone', s.leaveAll_eq hleave',
    State.standbyStep_running _ hrun]

theorem State.endEvent_started (s : State) (h : s.startWipe.still = true) : s.endEvent = s.startWipe.endEvent := by
  obtain ⟨hrun, -, hn⟩ := State.still_iff _ |>.1 h
  rw [State.endEvent, State.endEvent, s.consequences_started h, State.consequences_eq _ hn hrun]

theorem State.endEvent_still (s : State) (h : s.still = true) : s.endEvent = s.concluded := by
  obtain ⟨hrun, hfault, hn⟩ := s.still_iff.1 h
  exact s.endEvent_eq hn hrun hfault

/-! ## Reports that join after JOB_CLOSED (R188) -/

/-- The reports handed only grow, by such as join after a JOB_CLOSED of the same event. -/
def HandsLater (s t : State) : Prop := ∃ more, t.handed = s.handed ++ more ∧ ∀ x ∈ more, ∀ f, 6 < x.body.rank f

theorem HandsLater.of_eq {s t : State} (h : t.handed = s.handed) : HandsLater s t := 
  ⟨[], by rw [h, List.append_nil], fun _ hx => absurd hx List.not_mem_nil⟩

theorem HandsLater.trans {s t u : State} (h : HandsLater s t) (g : HandsLater t u) : HandsLater s u := by
  obtain ⟨x, hx, hlx⟩ := h
  obtain ⟨y, hy, hly⟩ := g
  refine ⟨x ++ y, by rw [hy, hx, List.append_assoc], fun z hz => ?_⟩
  exact (List.mem_append.1 hz).elim (hlx z) (hly z)

theorem HandsLater.ite {s t u : State} {p : Prop} [Decidable p] (ht : HandsLater s t) (hu : HandsLater s u) :
    HandsLater s (if p then t else u) := by
  split
  · exact ht
  · exact hu

theorem HandsLater.foldl {α : Type} {f : State → α → State} (hf : ∀ s a, HandsLater s (f s a)) (as : List α) (s : State) :
    HandsLater s (as.foldl f s) := by
  induction as generalizing s with
  | nil => exact .of_eq rfl
  | cons a as ih => exact (hf s a).trans (ih (f s a))

theorem handsLater_hand (s : State) (b : ReportBody) (tag : BitVec 16) (h : ∀ f, 6 < b.rank f) : HandsLater s (s.hand b tag) :=
  ⟨[⟨b, tag, false⟩], rfl, fun x hx => by rw [List.mem_singleton.1 hx]; exact h⟩

theorem handsLater_tonerReport (s : State) (p : Fin 4) (isOut : Bool) : HandsLater s (s.tonerReport p isOut) :=
  handsLater_hand s _ 0 fun _ => by simp [ReportBody.rank]

theorem handsLater_evalLevel (s : State) (p : Fin 4) : HandsLater s (s.evalLevel p) := by
  have hlow : HandsLater s (s.checkLow p) := .ite (handsLater_tonerReport (s.modPlane p _) p false) (.of_eq rfl)
  exact hlow.trans (.ite (handsLater_tonerReport ((s.checkLow p).modPlane p _) p true) (.of_eq rfl))

theorem handsLater_startRound (s : State) (p : Fin 4) : HandsLater s (s.startRound p) :=
  .ite (.ite (.of_eq rfl) (.of_eq rfl)) (handsLater_evalLevel ((s.modPlane p _).modPlane p _) p)

theorem handsLater_debitTest (s : State) (p : Fin 4) : HandsLater s (s.debitTest p) :=
  .ite (handsLater_startRound s p) (.ite (.of_eq rfl) (.of_eq rfl))

theorem handsLater_closeNotice (s : State) : HandsLater s s.closeNotice := by
  have hflush : HandsLater s { s with tmu := s.tmu.map fun f => { f with flush := true } } := .of_eq rfl
  unfold State.closeNotice
  exact hflush.trans (HandsLater.foldl handsLater_debitTest _ _)

theorem handsLater_tellEnded (s : State) (u : Fin 256) (marked : Bool) : HandsLater s (s.tellEnded u marked) :=
  .ite (handsLater_closeNotice { s with ace := s.ace.jobEnded u }) (.of_eq rfl)

theorem handsLater_reportSkipped (s : State) (j : Fin 16) (a : Nat) (rs : List (Nat × Nat)) (c : SkipCause) :
    HandsLater s (s.reportSkipped j a rs c) := .ite (.of_eq rfl) (handsLater_hand s _ 0 fun _ => by simp [ReportBody.rank])

/-! ## The job's slot (R53 steps 4 and 5) -/

theorem left_state (q : JobSlot) (a : Nat) : (q.left a).state = if a = 0 then .free else .wiping := by
  unfold JobSlot.left
  split <;> rfl

theorem left_wipes (q : JobSlot) (a : Nat) : (q.left a).wipes = a := by
  unfold JobSlot.left
  split
  · next h => exact h.symm
  · rfl

theorem left_nonce (q : JobSlot) (a : Nat) : (q.left a).nonce = q.nonce := by
  unfold JobSlot.left
  split <;> rfl

/-! ## What the leaving of CLOSING changes (R53) -/

/-- The ranges of job `j` that join the Wipe Queue as it leaves CLOSING: the first 32, as far as there is room (R53 step 2, R169). -/
def State.joiningRanges (s : State) (j : Fin 16) : List (Nat × Nat) := (s.wipeRanges j).take (min 32 s.wpe.room)

/-- The JOB_CLOSED of a job of whose `total` ranges `a` have joined. -/
def JobSlot.closedReport (q : JobSlot) (j : Fin 16) (total a : Nat) : Handed :=
  ⟨.jobClosed j q.nonce q.user q.counters a (total - a) (if a = 0 then .free else .wiping), q.closeTag, false⟩

/-- What is left when job `j` has left CLOSING: its key is destroyed, its entries are invalid and the bound range counts follow, its
ranges have joined, and JOB_CLOSED is handed before what else there is to report. -/
structure LeavesClosing (s : State) (j : Fin 16) (e : State) : Prop where
  keys : e.keys = s.keys.set j none
  rgt : e.rgt = s.rgt.invalidate fun x => x.names j
  wpe : e.wpe = (s.appendWipes j (s.joiningRanges j)).wpe
  state : (e.job j).state = if (s.joiningRanges j).length = 0 then .free else .wiping
  wipes : (e.job j).wipes = (s.joiningRanges j).length
  nonce : (e.job j).nonce = (s.job j).nonce
  own : (s.job j).own = none → (e.job j).own = none
  others : ∀ k, k ≠ j → e.job k = { s.job k with bound := (e.rgt.rangesOf k).length }
  marking : e.jct.marking = s.jct.marking
  stack : e.jct.stack = s.jct.stack
  rci : e.rci = s.rci
  ms : e.ms = s.ms
  handed : ∃ more, e.handed = s.handed
      ++ (s.job j).closedReport j (s.wipeRanges j).length (s.joiningRanges j).length :: more
    ∧ ∀ x ∈ more, ∀ f, 6 < x.body.rank f

theorem leaveStart_job (s : State) (j : Fin 16) (app : List (Nat × Nat)) (k : Fin 16) : (s.leaveStart j app).job k =
    { s.job k with bound := ((s.rgt.invalidate fun x => x.names j).rangesOf k).length } := by
  rw [State.leaveStart, State.setRegions_job]
  rfl

/-- Besides the bound range counts, steps 2, 3 and 6 of R53 change the keys, the entries and the Wipe Queue. -/
theorem leaveStart_rest (s : State) (j : Fin 16) (app : List (Nat × Nat)) : ∃ v, s.leaveStart j app = { s with
    keys := s.keys.set j none, rgt := s.rgt.invalidate fun x => x.names j, wpe := (s.appendWipes j app).wpe
    jct := { s.jct with slots := v } } := by
  rw [State.leaveStart, State.setRegions_eq]
  exact ⟨_, rfl⟩

theorem leaveSlot_job (s : State) (j : Fin 16) (q : JobSlot) (a b : Nat) (k : Fin 16) :
    (s.leaveSlot j q a b).job k = if k = j then (s.job k).left a else s.job k := State.modJob_job _ _ _ _

theorem leaveSlot_handed (s : State) (j : Fin 16) (q : JobSlot) (a b : Nat) : (s.leaveSlot j q a b).handed = s.handed ++
    [⟨.jobClosed j q.nonce q.user q.counters a b (if a = 0 then .free else .wiping), q.closeTag, false⟩] := by
  have hstate : ((s.modJob j fun q => q.left a).job j).state = if a = 0 then .free else .wiping := by
    rw [State.modJob_job, if_pos rfl, left_state]
  rw [State.leaveSlot, hstate]
  rfl

/-! What comes after the JOB_CLOSED (R53 steps 7 and 8, R169): a WIPE_SKIPPED, ACE told, and the close notice. -/

theorem aside_told (s : State) (j : Fin 16) (a : Nat) (rs : List (Nat × Nat)) (c : SkipCause) (u : Fin 256) (m : Bool) :
    Aside s ((s.reportSkipped j a rs c).tellEnded u m) := by
  have hskipped : Aside s (s.reportSkipped j a rs c) := by
    rw [reportSkipped_rest]
    exact ⟨rfl, rfl, rfl, rfl⟩
  exact hskipped.trans (aside_tellEnded _ u m)

theorem tellEnded_rci (s : State) (u : Fin 256) (m : Bool) : (s.tellEnded u m).rci = s.rci := by
  unfold State.tellEnded
  split
  · exact (sided_closeNotice.path_rci _).2
  · rfl

theorem told_rci (s : State) (j : Fin 16) (a : Nat) (rs : List (Nat × Nat)) (c : SkipCause) (u : Fin 256) (m : Bool) :
    ((s.reportSkipped j a rs c).tellEnded u m).rci = s.rci := by
  rw [tellEnded_rci, reportSkipped_rest]

theorem told_ms (s : State) (j : Fin 16) (a : Nat) (rs : List (Nat × Nat)) (c : SkipCause) (u : Fin 256) (m : Bool) :
    ((s.reportSkipped j a rs c).tellEnded u m).ms = s.ms := by
  rw [(stands_tellEnded _ u m).ms, reportSkipped_rest]

theorem handsLater_told (s : State) (j : Fin 16) (a : Nat) (rs : List (Nat × Nat)) (c : SkipCause) (u : Fin 256) (m : Bool) :
    HandsLater s ((s.reportSkipped j a rs c).tellEnded u m) :=
  (handsLater_reportSkipped s j a rs c).trans (handsLater_tellEnded _ u m)

/-- The leaving of CLOSING, in one statement (R53). -/
theorem leavesClosing (s : State) (j : Fin 16) : LeavesClosing s j (s.leaveClosing j) := by
  have heq : s.leaveClosing j = ((((s.leaveStart j (s.joiningRanges j)).leaveSlot j (s.job j) (s.joiningRanges j).length
      ((s.wipeRanges j).length - (s.joiningRanges j).length)).reportSkipped j (s.joiningRanges j).length
      ((s.wipeRanges j).drop (s.joiningRanges j).length) .overLimit).tellEnded (s.job j).user (s.job j).marked) :=
    leaveClosing_eq s j
  generalize (s.wipeRanges j).drop (s.joiningRanges j).length = skipped at heq
  have hjobs := leaveStart_job s j (s.joiningRanges j)
  obtain ⟨v, hstart⟩ := leaveStart_rest s j (s.joiningRanges j)
  generalize hn : (s.joiningRanges j).length = n at heq
  generalize s.leaveStart j (s.joiningRanges j) = t at heq hjobs hstart
  have hslot := leaveSlot_job t j (s.job j) n ((s.wipeRanges j).length - n)
  have hhand := leaveSlot_handed t j (s.job j) n ((s.wipeRanges j).length - n)
  have haside := aside_told (t.leaveSlot j (s.job j) n ((s.wipeRanges j).length - n)) j n skipped .overLimit (s.job j).user
    (s.job j).marked
  have hrci := told_rci (t.leaveSlot j (s.job j) n ((s.wipeRanges j).length - n)) j n skipped .overLimit (s.job j).user
    (s.job j).marked
  have hms := told_ms (t.leaveSlot j (s.job j) n ((s.wipeRanges j).length - n)) j n skipped .overLimit (s.job j).user
    (s.job j).marked
  obtain ⟨more, hmore, hlate⟩ := handsLater_told (t.leaveSlot j (s.job j) n ((s.wipeRanges j).length - n)) j n skipped .overLimit
    (s.job j).user (s.job j).marked
  rw [← heq] at haside hrci hms hmore
  have hjob : ∀ k, (s.leaveClosing j).job k = if k = j then (t.job k).left n else t.job k := fun k => by
    rw [State.job, haside.jct]
    exact hslot k
  have hjobj : (s.leaveClosing j).job j = (t.job j).left n := (hjob j).trans (if_pos rfl)
  have hrgt : (s.leaveClosing j).rgt = s.rgt.invalidate fun x => x.names j := haside.rgt.trans (congrArg State.rgt hstart :)
  refine {
    keys := haside.keys.trans (congrArg State.keys hstart :), rgt := hrgt
    wpe := haside.wpe.trans (congrArg State.wpe hstart :), state := ?_, wipes := ?_, nonce := ?_, own := fun ho => ?_
    others := fun k hk => ?_, marking := ?_, stack := ?_, rci := hrci.trans (congrArg State.rci hstart :)
    ms := hms.trans (congrArg State.ms hstart :), handed := ⟨more, ?_, hlate⟩ }
  · rw [hjobj, left_state, hn]
  · rw [hjobj, left_wipes, hn]
  · rw [hjobj, left_nonce, hjobs]
  · rw [hjobj]
    refine Option.eq_none_iff_forall_not_mem.2 fun c hc => ?_
    have := left_own _ _ c hc
    rw [hjobs, ho] at this
    cases this
  · rw [hjob k, if_neg hk, hjobs, hrgt]
  · rw [haside.jct]
    exact (congrArg (fun a : State => a.jct.marking) hstart :)
  · rw [haside.jct]
    exact (congrArg (fun a : State => a.jct.stack) hstart :)
  · rw [hmore, hhand, (congrArg State.handed hstart :), JobSlot.closedReport, hn, List.append_assoc]
    rfl

/-- The entry that the `k`-th range `r` of a job of slot `q` takes in a queue whose counter stood at `c`. -/
def JobSlot.wipeEntry (q : JobSlot) (j : Fin 16) (c : BitVec 32) (k : Nat) (r : Nat × Nat) : WipeEntry :=
  ⟨c + BitVec.ofNat 32 (k + 1), r.1, r.2, q.passes, q.verify, .job j q.nonce, .waiting, 0⟩

theorem appendWipes_wpe (s : State) (j : Fin 16) (rs : List (Nat × Nat)) : (s.appendWipes j rs).wpe =
    { queue := s.wpe.queue ++ rs.mapIdx ((s.job j).wipeEntry j s.wpe.counter)
      counter := s.wpe.counter + BitVec.ofNat 32 rs.length } := by
  have hjoin : (s.appendWipes j rs).wpe = (rs.map fun r => (j, r.1, r.2)).foldl s.joinForced s.wpe := by
    rw [List.foldl_map]
    rfl
  have hmap : (rs.map fun r => (j, r.1, r.2)).mapIdx (s.forcedEntry s.wpe.counter)
      = rs.mapIdx ((s.job j).wipeEntry j s.wpe.counter) := List.ext_getElem (by simp) fun k h₁ h₂ => by
    simp only [List.getElem_mapIdx, List.getElem_map]
    rfl
  rw [hjoin, joinForced_all, hmap, List.length_map]

theorem appendWipes_entry (s : State) (j : Fin 16) {rs : List (Nat × Nat)} {k : Nat} {r : Nat × Nat} (h : rs[k]? = some r) :
    (s.appendWipes j rs).wpe.queue[s.wpe.queue.length + k]? = some ((s.job j).wipeEntry j s.wpe.counter k r) := by
  rw [appendWipes_wpe]
  show (s.wpe.queue ++ _)[s.wpe.queue.length + k]? = _
  rw [List.getElem?_append_right (Nat.le_add_right _ _), Nat.add_sub_cancel_left, List.getElem?_mapIdx, h]
  rfl

theorem joiningRanges_get (s : State) (j : Fin 16) {k : Nat} (h : k < (s.joiningRanges j).length) :
    (s.joiningRanges j)[k]? = (s.wipeRanges j)[k]? :=
  List.getElem?_take_of_lt (h.trans_le (List.length_take_le _ _))

theorem joiningRanges_length (s : State) (j : Fin 16) : (s.joiningRanges j).length =
    min (s.wipeRanges j).length (min 32 (32 - s.wpe.queue.length)) := by
  rw [State.joiningRanges, List.length_take, Nat.min_comm]
  rfl

theorem mayLeave_of {s : State} {j : Fin 16} (hs : (s.job j).state = .closing) (hr : (s.job j).refs = 0)
    (hm : s.jct.isMarking j = false) (hst : s.jct.isStacked j = false) (ho : (s.job j).own = none)
    (hw : (s.job j).passes = 0 ∨ min (s.job j).bound 32 ≤ 32 - s.wpe.queue.length) : s.mayLeave j = true := by
  simpa [State.mayLeave, hs, hr, hm, hst, ho, Wpe.room] using hw

/-- An event that ends with the start of the head wipe, where that leaves nothing else due. -/
theorem event_started {s : State} {body : State → State} (hp : s.powered = true)
    (h : (body s.beginEvent).startWipe.still = true) : event body s = .next (body s.beginEvent).startWipe.concluded := by
  rw [event_powered hp, State.endEvent_started _ h, State.endEvent_still _ h]

end Sys2Proof.Machine

namespace Sys2Proof.Proofs

open Sys2Proof Sys2Proof.Machine

/-- Settles O36: the leaving is the event's body, and the start of the head wipe its only consequence. -/
theorem jobLeavesClosing : Obligations.JobLeavesClosing := by
  intro s j hp hs hr hm hst ho hw q e rs n hstill
  obtain ⟨hkeys, hrgt, hwpe, hstate, hwipes, hnonce, -, hothers, -, -, -, -, more, hhanded, -⟩ := leavesClosing s.beginEvent j
  have hmay : s.beginEvent.mayLeave j = true := mayLeave_of hs hr hm hst ho hw
  have hbody : s.beginEvent.leaveIfDue j = e := if_pos hmay
  have hn : (s.beginEvent.joiningRanges j).length = n := joiningRanges_length s.beginEvent j
  have hqueue := hwpe.trans (appendWipes_wpe s.beginEvent j (s.beginEvent.joiningRanges j))
  rw [hn] at hqueue hstate hwipes
  have hlen : e.wpe.queue.length = s.wpe.queue.length + n := by
    rw [hqueue, List.length_append, List.length_mapIdx, hn]
    rfl
  refine ⟨?_, hkeys, fun i => ⟨?_, ?_⟩, hlen, (congrArg Wpe.counter hqueue :), fun k hk => ?_, hstate, hwipes, hnonce,
    fun k hk => ?_, ?_⟩
  · refine (event_started (body := fun t => t.leaveIfDue j) hp ?_).trans ?_
    · rw [hbody]
      exact hstill
    · rw [hbody]
  · rw [hrgt]
    exact Vector.getElem_map ..
  · rw [hrgt]
    exact Vector.getElem_map ..
  · have hget : k < (s.beginEvent.joiningRanges j).length := hn ▸ hk
    have hsome := List.getElem?_eq_getElem hget
    exact ⟨_, (joiningRanges_get s.beginEvent j hget).symm.trans hsome, hwpe ▸ appendWipes_entry s.beginEvent j hsome⟩
  · rw [hothers k hk]
    rfl
  · rw [hhanded, JobSlot.closedReport, hn]
    exact List.mem_append_right _ List.mem_cons_self

end Sys2Proof.Proofs
end

section
/-!
The head wipe completes, and a CLOSING job leaves for the room that it makes: what completes, and the event's end with one job that
leaves. Settles O50.
-/

namespace Sys2Proof.Machine

/-! ## One job leaves CLOSING in an event (R52) -/

theorem foldl_leaveIfDue_idle {s : State} (js : List (Fin 16)) (h : ∀ k ∈ js, s.mayLeave k = false) :
    js.foldl State.leaveIfDue s = s := by
  induction js with
  | nil => rfl
  | cons k js ih =>
    rw [List.foldl_cons, State.leaveIfDue, if_neg (by simp [h k List.mem_cons_self])]
    exact ih fun i hi => h i (List.mem_cons_of_mem _ hi)

theorem mayLeave_of_not_closing {s : State} {j : Fin 16} (h : (s.job j).state ≠ .closing) : s.mayLeave j = false := by
  rw [← Bool.not_eq_true]
  exact fun hl => h (mayLeave_facts hl).1

/-- The live and the shadow entries that do not name the job remain. -/
theorem LeavesClosing.entries {s e : State} {j : Fin 16} (h : LeavesClosing s j e) (i : Fin 32) :
    e.rgt.live[i] = (s.rgt.live[i]).filter (fun x => !x.names j)
    ∧ e.rgt.shadow[i] = (s.rgt.shadow[i]).filter (fun x => !x.names j) := by
  rw [h.rgt]
  exact ⟨Vector.getElem_map .., Vector.getElem_map ..⟩

/-- Where `j` alone is in CLOSING, none is after `j` has left. -/
theorem LeavesClosing.none_closing {s e : State} {j : Fin 16} (h : LeavesClosing s j e)
    (ho : ∀ k, k ≠ j → (s.job k).state ≠ .closing) (k : Fin 16) : (e.job k).state ≠ .closing := by
  by_cases hk : k = j
  · subst hk
    rw [h.state]
    split <;> simp
  · rw [h.others k hk]
    exact ho k hk

/-- Where `j` alone is in CLOSING and may leave, `j` alone leaves. -/
theorem leaveAll_one {s : State} {j : Fin 16} (hj : s.mayLeave j = true) (ho : ∀ k, k ≠ j → (s.job k).state ≠ .closing) :
    s.leaveAll = s.leaveClosing j := by
  obtain ⟨before, after, hsplit⟩ := List.append_of_mem (List.mem_finRange j)
  have hnodup : (before ++ j :: after).Nodup := hsplit ▸ List.nodup_finRange 16
  have hbefore : ∀ k ∈ before, s.mayLeave k = false := fun k hk =>
    mayLeave_of_not_closing (ho k fun e => (List.nodup_append.1 hnodup).2.2 k hk j List.mem_cons_self e)
  have hafter : ∀ k ∈ after, (s.leaveClosing j).mayLeave k = false := fun k _ =>
    mayLeave_of_not_closing ((leavesClosing s j).none_closing ho k)
  rw [State.leaveAll, hsplit, List.foldl_append, foldl_leaveIfDue_idle before hbefore, List.foldl_cons, State.leaveIfDue, if_pos hj,
    foldl_leaveIfDue_idle after hafter]

/-- The end of an event in which, besides its reports, `j` leaves CLOSING and a wipe may start for it. -/
theorem State.endEvent_leaves {s : State} {j : Fin 16} (hmetered : s.jct.metered = true) (hcommit : s.rgt.commitDue = false)
    (hwiped : s.wpe.doneDue = false) (hj : s.mayLeave j = true) (ho : ∀ k, k ≠ j → (s.job k).state ≠ .closing)
    (hrun : s.rci.standby = .running) (hfault : s.rci.faultWaiting = false) :
    s.endEvent = (s.leaveClosing j).startWipe.concluded := by
  have hrci : (s.leaveClosing j).startWipe.rci = s.rci := (startWipe_rci _).trans (leavesClosing s j).rci
  have hrun' : (s.leaveClosing j).startWipe.rci.standby = .running := by rw [hrci]; exact hrun
  have hcons : s.consequences = (s.leaveClosing j).startWipe := by
    rw [State.consequences, s.settleDue_eq hmetered, s.completeCommit_eq hcommit, s.finishWipe_eq hwiped, leaveAll_one hj ho,
      State.standbyStep_running _ hrun']
  have hjoin : (s.leaveClosing j).startWipe.joinAll = (s.leaveClosing j).startWipe.concluded := by
    rw [State.joinAll, State.joinFault_eq _ (by rw [hrci]; exact hfault)]
    rfl
  have hjoined : (s.leaveClosing j).startWipe.concluded.rci.standby = .running := by
    show (List.foldl State.joinOne _ _).rci.standby = .running
    rw [State.foldl_joinOne_standby, hrun']
  rw [State.endEvent, hcons, hjoin, State.postEnd_running _ hjoined, State.wakeCheck_running _ hjoined]

/-- The reports of an event that join change RCI alone. -/
theorem concluded_leaves (s : State) : ∃ r, s.concluded = { s with rci := r, handed := [] } := joinHanded_leaves s

/-- The start of a wipe and the joining of the reports leave the keys, the entries and the jobs, and of the Wipe Queue its counter and
length. -/
theorem started_concluded (s : State) : s.startWipe.concluded.keys = s.keys ∧ s.startWipe.concluded.rgt = s.rgt
    ∧ s.startWipe.concluded.jct = s.jct ∧ s.startWipe.concluded.wpe = s.startWipe.wpe := by
  obtain ⟨r, hr⟩ := concluded_leaves s.startWipe
  obtain ⟨w, hw⟩ := startWipe_leaves s
  rw [hr, hw]
  exact ⟨rfl, rfl, rfl, rfl⟩

/-! ## The head wipe completes (R54, R173) -/

/-- The part after its head wipe has left the queue, with `rest` behind it. -/
def State.wipeLeft (s : State) (rest : List WipeEntry) : State := { s with wpe := { s.wpe with queue := rest } }

/-- The WIPE_DONE of a wipe. -/
def WipeEntry.doneReport (e : WipeEntry) : ReportBody :=
  .wipeDone e.number e.base e.count e.passes e.verify e.origin e.mismatch

theorem State.finishWipe_explicit {s : State} {e : WipeEntry} {rest : List WipeEntry} {tag : BitVec 16}
    (hq : s.wpe.queue = e :: rest) (hd : e.isDone = true) (ho : e.origin = .explicit tag) :
    s.finishWipe = (s.wipeLeft rest).hand e.doneReport tag := by
  simp only [State.finishWipe, hq, hd, if_true, WipeEntry.doneReport, ho]
  rfl

theorem State.finishWipe_job {s : State} {e : WipeEntry} {rest : List WipeEntry} {j : Fin 16} {nonce : BitVec 32}
    (hq : s.wpe.queue = e :: rest) (hd : e.isDone = true) (ho : e.origin = .job j nonce) :
    s.finishWipe = ((s.wipeLeft rest).hand e.doneReport 0).jobWiped j := by
  simp only [State.finishWipe, hq, hd, if_true, WipeEntry.doneReport, ho]
  rfl

/-- A job's wipe that is not its last one. -/
theorem State.jobWiped_more {s : State} {j : Fin 16} (h : 2 ≤ (s.job j).wipes) :
    s.jobWiped j = s.modJob j fun q => { q with wipes := q.wipes - 1 } := by
  unfold State.jobWiped
  refine if_neg ?_
  rw [State.modJob_job_same]
  rintro ⟨hzero, -⟩
  have : (s.job j).wipes - 1 = 0 := hzero
  omega

/-- A job's last wipe. -/
theorem State.jobWiped_last {s : State} {j : Fin 16} (hrun : s.rci.standby = .running) (h : (s.job j).wipes = 1)
    (hs : (s.job j).state = .wiping) : s.jobWiped j = (s.modJob j JobSlot.freed).hand (.jobFreed j (s.job j).nonce) := by
  have hslots : upd (upd s.jct.slots j fun q => { q with wipes := q.wipes - 1 }) j JobSlot.freed = upd s.jct.slots j JobSlot.freed :=
    upd_upd ..
  have hzero : ((s.modJob j fun q => { q with wipes := q.wipes - 1 }).job j).wipes = 0 := by
    rw [State.modJob_job_same, h]
  have hwiping : ((s.modJob j fun q => { q with wipes := q.wipes - 1 }).job j).state = .wiping := by
    rw [State.modJob_job_same]
    exact hs
  have hnonce : ((s.modJob j fun q => { q with wipes := q.wipes - 1 }).job j).nonce = (s.job j).nonce := by
    rw [State.modJob_job_same]
  unfold State.jobWiped
  rw [if_pos ⟨hzero, hwiping⟩, hnonce]
  dsimp only
  rw [tally_running _ _ _ (by exact hrun)]
  exact congrArg (fun v => ({ s with jct := { s.jct with slots := v } } : State).hand (.jobFreed j (s.job j).nonce)) hslots

theorem hasEntry_of_length {r : Rci} (h : r.queue.length ≤ 14) : r.hasEntry false = true := by
  unfold Rci.hasEntry
  split <;> exact decide_eq_true (by omega)

/-- WIPE_DONE is joined before the JOB_FREED of the same event (R188). -/
theorem joinOrder_freed (e : WipeEntry) (j : Fin 16) (nonce : BitVec 32) (a b : BitVec 16) (x y : Bool) :
    joinOrder [⟨e.doneReport, a, x⟩, ⟨.jobFreed j nonce, b, y⟩] = [⟨e.doneReport, a, x⟩, ⟨.jobFreed j nonce, b, y⟩] := rfl

/-- The event of a completion that hands its WIPE_DONE alone, where `u` is what the part is otherwise. -/
theorem wipeDone_reported {s u : State} {b : ReportBody} {tag : BitVec 16} (hp : s.powered = true)
    (hlen : s.rci.queue.length ≤ 13) (hbody : s.beginEvent.finishWipe = u.hand b tag) (hh : u.handed = []) (hr : u.rci = s.rci)
    (hstill : u.still = true) : exec .wipeDone s = .next (u.reported b tag u.out) := by
  refine (event_reported (body := State.finishWipe) (b := b) (tag := tag) hp ?_ ?_ ?_).trans ?_
  · rw [hbody]
    exact State.still_congr hstill rfl rfl rfl rfl rfl rfl rfl rfl
  · rw [hbody]
    show u.rci.hasEntry false = true
    rw [hr]
    exact hasEntry_of_length (by omega)
  · rw [hbody]
    show u.handed ++ _ = _
    rw [hh]
    rfl
  · rw [hbody]
    rfl

end Sys2Proof.Machine

namespace Sys2Proof.Proofs

open Sys2Proof Sys2Proof.Machine

/-- The end of one wipe, with nothing else due: O50, its first part. -/
theorem wipeCompletes_alone (s : State) (e : WipeEntry) (rest : List WipeEntry) (hp : s.powered = true)
    (hq : s.wpe.queue = e :: rest) (hd : e.isDone = true) (hlen : s.rci.queue.length ≤ 13) :
    (∀ tag, e.origin = .explicit tag → (s.wipeLeft rest).still = true →
      exec .wipeDone s = .next ((s.wipeLeft rest).reported e.doneReport tag))
    ∧ (∀ j nonce, e.origin = .job j nonce → 2 ≤ (s.job j).wipes →
      let v := (s.wipeLeft rest).modJob j fun q => { q with wipes := q.wipes - 1 }
      v.still = true → exec .wipeDone s = .next (v.reported e.doneReport 0))
    ∧ ∀ j nonce, e.origin = .job j nonce → (s.job j).wipes = 1 → (s.job j).state = .wiping →
      let v := (s.wipeLeft rest).modJob j JobSlot.freed
      v.still = true → exec .wipeDone s = .next { v with
        out := [], handed := []
        rci := (s.rci.joined e.doneReport 0 s.ms).joined (.jobFreed j (s.job j).nonce) 0 s.ms } := by
  have hq' : s.beginEvent.wpe.queue = e :: rest := hq
  refine ⟨fun tag ho hstill => ?_, fun j nonce ho hw => ?_, fun j nonce ho hw hs => ?_⟩
  · exact wipeDone_reported (u := s.beginEvent.wipeLeft rest) hp hlen (State.finishWipe_explicit hq' hd ho) rfl rfl
      (State.still_congr hstill rfl rfl rfl rfl rfl rfl rfl rfl)
  · intro v hstill
    refine wipeDone_reported (u := (s.beginEvent.wipeLeft rest).modJob j fun q => { q with wipes := q.wipes - 1 }) hp hlen ?_ rfl rfl
      (State.still_congr hstill rfl rfl rfl rfl rfl rfl rfl rfl)
    rw [State.finishWipe_job hq' hd ho, State.jobWiped_more (by exact hw)]
    rfl
  · intro v hstill
    obtain ⟨hrun, hfault, hn⟩ := State.still_iff _ |>.1 hstill
    have hbody : s.beginEvent.finishWipe =
        (((s.beginEvent.wipeLeft rest).modJob j JobSlot.freed).hand e.doneReport 0).hand (.jobFreed j (s.job j).nonce) := by
      rw [State.finishWipe_job hq' hd ho, State.jobWiped_last (by exact hrun) (by exact hw) (by exact hs)]
      rfl
    refine (event_powered (body := State.finishWipe) hp).trans (congrArg _ ?_)
    have hdue : s.beginEvent.finishWipe.nothingDue = true := by
      rw [hbody]
      exact State.nothingDue_congr hn hrun hfault rfl rfl rfl rfl rfl rfl rfl
    rw [State.endEvent_two (x := ⟨e.doneReport, 0, false⟩) (y := ⟨.jobFreed j (s.job j).nonce, 0, false⟩) _ hdue
      (by rw [hbody]; exact hrun) (by rw [hbody]; exact hfault) (by rw [hbody]; rfl) (joinOrder_freed ..)]
    · rw [hbody]
      simp only [Bool.not_false, Bool.and_true]
      rfl
    · rw [hbody]
      exact hasEntry_of_length (by exact Nat.le_succ_of_le hlen)
    · rw [hbody]
      refine hasEntry_of_length ?_
      show (s.rci.queue ++ _).length ≤ 14
      rw [List.length_append, List.length_singleton]
      omega

/-- The next wipe starts: O50, its second part. -/
theorem wipeCompletes_next (s : State) (e x : WipeEntry) (rest : List WipeEntry) (tag : BitVec 16) (hp : s.powered = true)
    (hq : s.wpe.queue = e :: x :: rest) (hd : e.isDone = true) (ho : e.origin = .explicit tag) (hx : x.progress = .waiting)
    (hquiet : s.quiet x.base x.count = true) (hlen : s.rci.queue.length ≤ 13)
    (hstill : (s.wipeLeft ({ x with progress := passStart 1 x.base } :: rest)).still = true) :
    exec .wipeDone s = .next ((s.wipeLeft ({ x with progress := passStart 1 x.base } :: rest)).reported e.doneReport tag) := by
  have hbody : s.beginEvent.finishWipe = (s.beginEvent.wipeLeft (x :: rest)).hand e.doneReport tag :=
    State.finishWipe_explicit (by exact hq) hd ho
  have hdue : ((s.beginEvent.wipeLeft (x :: rest)).hand e.doneReport tag).wipeStartDue = true := by
    show (x.progress == .waiting && s.quiet x.base x.count) = true
    rw [hx, hquiet]
    rfl
  have hstart : s.beginEvent.finishWipe.startWipe =
      (s.beginEvent.wipeLeft ({ x with progress := passStart 1 x.base } :: rest)).hand e.doneReport tag := by
    rw [hbody, State.startWipe, if_pos hdue]
    rfl
  have hstill' : s.beginEvent.finishWipe.startWipe.still = true := by
    rw [hstart]
    exact State.still_congr hstill rfl rfl rfl rfl rfl rfl rfl rfl
  obtain ⟨hrun, hfault, hn⟩ := State.still_iff _ |>.1 hstill'
  refine (event_powered (body := State.finishWipe) hp).trans (congrArg _ ?_)
  rw [State.endEvent_started _ hstill', State.endEvent_one _ hn hrun hfault ⟨e.doneReport, tag, false⟩]
  · rw [hstart]
    simp [Rci.joined]
    rfl
  · rw [hstart]
    rfl
  · rw [hstart]
    exact hasEntry_of_length (by exact Nat.le_succ_of_le hlen)

/-- A job leaves for the room that the wipe has made: O50, its third part. -/
theorem wipeCompletes_leaves (s : State) (e : WipeEntry) (rest : List WipeEntry) (tag : BitVec 16) (j : Fin 16)
    (hp : s.powered = true) (hrun : s.rci.standby = .running) (hfault : s.rci.faultWaiting = false)
    (hq : s.wpe.queue = e :: rest) (hd : e.isDone = true) (ho : e.origin = .explicit tag) (hmetered : s.jct.metered = true)
    (hcommit : s.rgt.commitDue = false) (hrest : ∀ y ∈ rest, y.isDone = false) (hs : (s.job j).state = .closing)
    (hr : (s.job j).refs = 0) (hm : s.jct.isMarking j = false) (hst : s.jct.isStacked j = false) (hown : (s.job j).own = none)
    (hothers : ∀ k : Fin 16, k ≠ j → (s.job k).state ≠ .closing) (hpasses : 1 ≤ (s.job j).passes)
    (hbound : (s.job j).bound = (s.rgt.rangesOf j).length) (hone : 1 ≤ (s.job j).bound)
    (hroom : (s.job j).bound ≤ 32 - rest.length) :
    ∃ t, exec .wipeDone s = .next t ∧ t.keys = s.keys.set j none ∧ (t.job j).state = .wiping
      ∧ (t.job j).wipes = (s.job j).bound ∧ t.wpe.queue.length = rest.length + (s.job j).bound
      ∧ (∀ i : Fin 32, ∀ y ∈ t.rgt.live[i], y.job ≠ some j) := by
  have hbody : s.beginEvent.finishWipe = (s.beginEvent.wipeLeft rest).hand e.doneReport tag :=
    State.finishWipe_explicit (by exact hq) hd ho
  have hwait : min (s.job j).bound 32 ≤ 32 - rest.length := by omega
  have hmay : ((s.beginEvent.wipeLeft rest).hand e.doneReport tag).mayLeave j = true :=
    mayLeave_of hs hr hm hst hown (.inr hwait)
  have hidle : ((s.beginEvent.wipeLeft rest).hand e.doneReport tag).wpe.doneDue = false := by
    cases rest with
    | nil => rfl
    | cons y rest => exact hrest y List.mem_cons_self
  have hend := State.endEvent_leaves (s := (s.beginEvent.wipeLeft rest).hand e.doneReport tag) hmetered hcommit hidle hmay hothers
    hrun hfault
  have hexec : exec .wipeDone s =
      .next (((s.beginEvent.wipeLeft rest).hand e.doneReport tag).leaveClosing j).startWipe.concluded := by
    refine (event_powered (body := State.finishWipe) hp).trans (congrArg _ ?_)
    rw [hbody]
    exact hend
  have hranges : ((s.beginEvent.wipeLeft rest).hand e.doneReport tag).wipeRanges j = s.rgt.rangesOf j := if_neg (by
    show (s.job j).passes ≠ 0
    omega)
  have hn : (((s.beginEvent.wipeLeft rest).hand e.doneReport tag).joiningRanges j).length = (s.job j).bound := by
    rw [joiningRanges_length, hranges, ← hbound]
    show min _ (min 32 (32 - rest.length)) = _
    omega
  have hleft := leavesClosing ((s.beginEvent.wipeLeft rest).hand e.doneReport tag) j
  generalize ((s.beginEvent.wipeLeft rest).hand e.doneReport tag).leaveClosing j = f at hexec hleft
  obtain ⟨hkeys, hrgt, hjct, hwpe⟩ := started_concluded f
  have hjob : ∀ k, f.startWipe.concluded.job k = f.job k := fun k => congrArg (fun a : Jobs => a.slots[k]) hjct
  refine ⟨_, hexec, hkeys.trans hleft.keys, ?_, ?_, ?_, fun i y hy hname => ?_⟩
  · rw [hjob, hleft.state, hn, if_neg (by omega)]
  · rw [hjob, hleft.wipes, hn]
  · rw [hwpe, (startWipe_queue f).1, hleft.wpe, State.appendWipes, Wpe.joinAll_length, hn]
    rfl
  · rw [hrgt, (hleft.entries i).1] at hy
    simp [RegionEntry.names, hname] at hy

/-- Settles O50: a completion alone, with the start of the next wipe, and with the leaving of a job. -/
theorem wipeCompletes : Obligations.WipeCompletes :=
  ⟨wipeCompletes_alone, fun s e x rest tag hp _ => wipeCompletes_next s e x rest tag hp, wipeCompletes_leaves⟩

end Sys2Proof.Proofs
end

section
/-!
JOB_RELEASE and JOB_CLOSE: each answer as an equation, what a matching PIN leaves unchanged, and the event in which a closed job
leaves CLOSING at once. Settles O38.
-/

namespace Sys2Proof.Machine

/-! ## The reserve check after a PIN (R47, R97) -/

/-- The reserve check looks at amounts, the department and the allowance. -/
theorem Ace.Posted.reservePasses {a b : Ace} (h : a.Posted b) (u : Fin 256) (more r : Nat) :
    b.reservePasses u more r = a.reservePasses u more r := by
  obtain ⟨hstored, hreserved, -⟩ := h.users u
  have hdept : ∀ d : Fin 16, (b.depts[d]).stored = (a.depts[d]).stored ∧ (b.depts[d]).reserved = (a.depts[d]).reserved := fun d =>
    ⟨(h.depts d).1, (h.depts d).2.1⟩
  simp only [Ace.reservePasses, Ace.userTest, Ace.deptTest, Ace.deptOf, hstored, hreserved, fun d => (hdept d).1,
    fun d => (hdept d).2]

theorem Ace.putUser_reservePasses (a : Ace) (u : Fin 256) (x : UserStored) (more r : Nat)
    (hb : x.balance = (a.users[u]).stored.balance) (ho : x.overdraft = (a.users[u]).stored.overdraft)
    (hd : x.department = (a.users[u]).stored.department) :
    (a.putUser u x).reservePasses u more r = a.reservePasses u more r := by
  have hreserved : ((a.putUser u x).users[u]).reserved = (a.users[u]).reserved := by
    simp only [Ace.putUser, upd_get_same]
  simp only [Ace.reservePasses, Ace.userTest, Ace.deptTest, Ace.deptOf, Ace.putUser_stored_same, hreserved, hb, ho, hd]
  rfl

theorem Ace.pinCleared_reservePasses (a : Ace) (u : Fin 256) (more r : Nat) :
    (a.pinCleared u).reservePasses u more r = a.reservePasses u more r := by
  unfold Ace.pinCleared
  split
  · rfl
  · exact ((trigger_stands _ _).2.reservePasses _ _ _).trans (Ace.putUser_reservePasses _ _ _ _ _ rfl rfl rfl)

theorem Ace.pinCleared_stands (a : Ace) (u : Fin 256) : a.Stands (a.pinCleared u) := by
  unfold Ace.pinCleared
  split
  · exact .refl a
  · exact (putUser_stands a u _).trans (trigger_stands _ _).1

theorem State.trialPasses_pinCleared (s : State) (j : Fin 16) :
    ({ s with ace := s.ace.pinCleared (s.job j).user } : State).trialPasses j = s.trialPasses j := by
  have hstands := s.ace.pinCleared_stands (s.job j).user
  have hreserve : ({ s with ace := s.ace.pinCleared (s.job j).user } : State).reserveOf j = s.reserveOf j := by
    show pageReserve (s.ace.pinCleared _).classes (s.ace.pinCleared _).tariff _ _ = _
    rw [hstands.classes, hstands.tariff]
    rfl
  rw [State.trialPasses, hreserve]
  exact s.ace.pinCleared_reservePasses _ 0 _

theorem State.pinCleared_eq (s : State) (u : Fin 256) : { s with ace := s.ace.pinCleared u } =
    if (s.ace.users[u]).stored.failures = 0 then s else { s with
      ace := (s.ace.putUser u { (s.ace.users[u]).stored with failures := 0 }).trigger (.user u) } := by
  rw [Ace.pinCleared]
  split <;> rfl

/-! ## JOB_RELEASE (R50) -/

theorem State.jobRelease_large (s : State) {n : Nat} (pin : Word8) (h : 15 < n) : s.jobRelease n pin = (.badParam, s) := by
  rw [State.jobRelease, fin?_none h]

theorem State.jobRelease_notDigits (s : State) (n : Nat) {pin : Word8} (h : pinDigits pin = false) :
    s.jobRelease n pin = (.badParam, s) := by
  unfold State.jobRelease
  cases fin? 16 n with
  | none => rfl
  | some j => exact if_pos (by rw [h]; rfl)

/-- JOB_RELEASE of a slot that is not HELD. -/
theorem State.jobRelease_notHeld (s : State) {j : Fin 16} {pin : Word8} (h : pinDigits pin = true)
    (hs : ∀ why, (s.job j).state ≠ .held why) : s.jobRelease j.val pin = (.jobState, s) := by
  simp only [State.jobRelease, fin?_val j rfl, h, Bool.not_true, Bool.false_eq_true, if_false]

/-- JOB_RELEASE of a HELD job: the user's state, the PIN, then the reserve check of a job held for QUOTA. -/
theorem State.jobRelease_held (s : State) {j : Fin 16} {pin : Word8} {why : HoldReason} (h : pinDigits pin = true)
    (hs : (s.job j).state = .held why) : s.jobRelease j.val pin =
      if (s.ace.users[(s.job j).user]).stored.state = .locked then (.userLocked, s)
      else if s.pinMatches (s.job j).user pin then
        if why = .quota ∧ s.trialPasses j = false then (.quota, { s with ace := s.ace.pinCleared (s.job j).user })
        else (.ok, ({ s with ace := s.ace.pinCleared (s.job j).user } : State).modJob j fun q => { q with state := .opened })
      else (.badPin, s.pinChecked (s.job j).user false) := by
  simp only [State.jobRelease, fin?_val j rfl, h, hs, Bool.not_true, Bool.false_eq_true, if_false, State.pinChecked_match,
    State.trialPasses_pinCleared, Bool.not_eq_true']
  cases s.pinMatches (s.job j).user pin <;> rfl

/-! ## JOB_CLOSE (R51) -/

theorem State.jobClose_large (s : State) {n : Nat} (tag : BitVec 16) (h : 15 < n) : s.jobClose n tag = (.badParam, s) := by
  rw [State.jobClose, fin?_none h]

theorem State.jobClose_val (s : State) (j : Fin 16) (tag : BitVec 16) : s.jobClose j.val tag =
    if (s.job j).state.bindable then (.ok, s.closeJob j tag) else (.jobState, s) := by
  simp only [State.jobClose, fin?_val j rfl]

/-- The slot of a job that goes to CLOSING, with close pending where the job is stacked (R51, R61). -/
def JobSlot.closing (q : JobSlot) (tag : BitVec 16) (stacked : Bool) : JobSlot :=
  { q with state := .closing, closeTag := tag, closePending := stacked || q.closePending }

theorem modJob_modJob (s : State) (j : Fin 16) (f g : JobSlot → JobSlot) : (s.modJob j f).modJob j g = s.modJob j (g ∘ f) :=
  congrArg (fun v => ({ s with jct := { s.jct with slots := v } } : State)) (upd_upd s.jct.slots j f g)

theorem State.closeJob_notMarking (s : State) {j : Fin 16} (tag : BitVec 16) (h : s.jct.isMarking j = false) :
    s.closeJob j tag = s.modJob j fun q => q.closing tag (s.jct.isStacked j) := by
  rw [closeJob_other s j tag h]
  cases s.jct.isStacked j with
  | true => exact modJob_modJob s j _ _
  | false => rfl

/-- The part after the marking job `j` has gone to CLOSING, its context apart: the marking register is empty and the ASSEMBLY holds of
`j` are released. -/
def State.unmarked (s : State) (j : Fin 16) (tag : BitVec 16) : State :=
  ({ s.releaseAssembly [j] with jct := { s.jct with marking := none } } : State).modJob j fun q =>
    { q with state := .closing, closeTag := tag }

theorem State.closeJob_marked (s : State) {m : Marked} (tag : BitVec 16) (h : s.jct.marking = some m) : s.closeJob m.job tag =
    (s.unmarked m.job tag).modJob m.job fun q => { q with own := some m.ctx.forceCloseAll } := by
  rw [closeJob_marking s tag h, State.unmarked, modJob_modJob]
  rfl

/-- The part after the marking job has gone to CLOSING and its context has become its own, in the terms of the statements. -/
theorem State.unmarked_keepOwn (s : State) (j : Fin 16) (tag : BitVec 16) (c : Context) :
    (s.unmarked j tag).modJob j (JobSlot.keepOwn c) = { s with
      jct := { s.jct with
        marking := none
        slots := s.jct.slots.set j { s.jct.slots[j] with
          state := .closing, closeTag := tag, own := if c.queue = [] then none else some c } }
      path := { s.path with
        hold := s.path.hold.map fun h => if h.cause = .assembly j then { h with released := true } else h } } := by
  have hrelease : HoldEntry.releaseFor [j] = fun h => if h.cause = .assembly j then { h with released := true } else h :=
    funext fun h => h.releaseFor_one j
  rw [State.unmarked, modJob_modJob, State.releaseAssembly, hrelease]
  rfl

theorem metered_unmarked {s : State} (h : s.jct.metered = true) (j : Fin 16) (tag : BitVec 16) :
    (s.unmarked j tag).jct.metered = true :=
  metered_registers h (fun _ hy => hy.elim (fun e => by cases e) fun e => .inr (.inr e)) fun i => by
    show ((upd s.jct.slots j fun q => { q with state := .closing, closeTag := tag })[i]).own = _
    rw [upd_get]
    split <;> rfl

/-- The records of the context do not settle, so it stays, or is discarded if it holds none (R57). -/
theorem State.settleDue_closed (s : State) {m : Marked} (tag : BitVec 16) (hmetered : s.jct.metered = true)
    (h : s.jct.marking = some m) (hlines : ∀ r ∈ m.ctx.queue, 0 < r.lines) (kind : BitVec 16) (x : ResultCode × ResultValues) :
    (report kind tag (x, s.closeJob m.job tag)).settleDue =
      report kind tag (x, (s.unmarked m.job tag).modJob m.job (JobSlot.keepOwn m.ctx.forceCloseAll)) := by
  have hunmarked : (report kind tag (x, s.unmarked m.job tag)).jct.metered = true := metered_unmarked hmetered m.job tag
  rw [s.closeJob_marked tag h]
  exact settleDue_newOwn hunmarked m.job (forceCloseAll_undue hlines)

/-! ## The events -/

/-- Nothing is due in a resting part after a change of the jobs by which nothing settles and none may leave. -/
theorem nothingDue_jobs {s t : State} (h : s.resting = true)
    (ht : t.rci = s.running.rci ∧ t.rgt = s.rgt ∧ t.wpe = s.wpe ∧ t.down = s.down)
    (hpath : t.path.reads = s.path.reads ∧ t.path.writes = s.path.writes) (hm : t.jct.metered = true)
    (hl : ∀ k, t.mayLeave k = false) : t.nothingDue = true := by
  obtain ⟨hrci, hrgt, hwpe, hdown⟩ := ht
  refine (State.still_iff t |>.1 (State.still_mono (State.still_running h) (by rw [hrci]) (by rw [hrci]) hm (by rw [hrgt]; exact id)
    hwpe (fun k hk => ?_) ?_)).2.2
  · rw [hl k] at hk
    cases hk
  · exact State.quiet_of_placed (fun _ _ hi => hpath.1 ▸ hi) (fun _ _ hi => hpath.2 ▸ hi) (by rw [hdown]; rfl)

theorem State.metered_of_resting {s : State} (h : s.resting = true) : s.jct.metered = true :=
  (State.nothingDue_iff _ |>.1 (s.resting_iff.1 h).2.2.2).1

/-- Only a job in CLOSING, without references and without an own context, may leave. -/
theorem mayLeave_eq_false {s : State} {k : Fin 16}
    (h : (s.job k).state ≠ .closing ∨ (s.job k).refs ≠ 0 ∨ (s.job k).own ≠ none) : s.mayLeave k = false := by
  rcases h with h | h | h
  · exact mayLeave_of_not_closing h
  · rw [← Bool.not_eq_true]
    exact fun hl => h (mayLeave_facts hl).2.1
  · simp [State.mayLeave, h]

/-! ## The reports of a job that leaves in its closing event (R188) -/

/-- Reports that join append to the queue. -/
theorem foldl_joinOne_queue (hs : List Handed) (s : State) :
    ∃ more, (hs.foldl State.joinOne s).rci.queue = s.rci.queue ++ more := by
  induction hs generalizing s with
  | nil => exact ⟨[], (List.append_nil _).symm⟩
  | cons h hs ih =>
    obtain ⟨x, hx⟩ : ∃ x, (s.joinOne h).rci.queue = s.rci.queue ++ x := by
      rcases s.joinAt_cases s.ms h with ⟨-, e⟩ | ⟨-, e⟩
      · exact ⟨_, congrArg (fun t : State => t.rci.queue) e⟩
      · exact ⟨[], (congrArg (fun t : State => t.rci.queue) e).trans (List.append_nil _).symm⟩
    obtain ⟨y, hy⟩ := ih (s.joinOne h)
    exact ⟨x ++ y, by rw [List.foldl_cons, hy, hx, List.append_assoc]⟩

/-- A result and a JOB_CLOSED join first, in this order, where every other report of the event is later. -/
theorem joinOrder_closed {x y : Handed} {more : List Handed} (hx : ∀ f, x.body.rank f = 1) (hy : ∀ f, y.body.rank f = 6)
    (hm : ∀ z ∈ more, ∀ f, 6 < z.body.rank f) : ∃ rest, joinOrder (x :: y :: more) = x :: y :: rest := by
  have hlate : ∀ k ≤ 6, ∀ f, more.filter (fun z => z.body.rank f == k) = [] := fun k hk f =>
    List.filter_eq_nil_iff.2 fun z hz => by
      have := hm z hz f
      simp only [beq_iff_eq]
      omega
  have hrange : List.range 15 = [0, 1, 2, 3, 4, 5, 6] ++ List.range' 7 8 := rfl
  unfold joinOrder
  generalize (x :: y :: more).any (fun z => z.body.isFreed) = f
  rw [hrange, List.flatMap_append]
  simp [List.filter_cons, hx, hy, hlate]

/-- The end of an event whose result finds the entry held for it, and whose JOB_CLOSED finds one that is free. -/
theorem concluded_closed {s : State} {x y : Handed} {more : List Handed} (hh : s.handed = x :: y :: more)
    (hx : ∀ f, x.body.rank f = 1) (hy : ∀ f, y.body.rank f = 6) (hm : ∀ z ∈ more, ∀ f, 6 < z.body.rank f)
    (hux : x.usesHeld = true) (huy : y.usesHeld = false) (hheld : s.rci.held = true) (hlen : s.rci.queue.length ≤ 14) :
    ∃ rest, s.concluded.rci.queue = s.rci.queue
      ++ ⟨x.body, x.tag, s.ms, s.rci.droppedMark, if s.rci.droppedMark then s.rci.lost else 0⟩
      :: ⟨y.body, y.tag, s.ms, false, 0⟩ :: rest := by
  obtain ⟨rest, horder⟩ := joinOrder_closed hx hy hm
  have hresult : s.rci.hasEntry x.usesHeld = true := by
    rw [hux, Rci.hasEntry, if_neg (by simp)]
    exact decide_eq_true (by omega)
  have hjoinx : s.joinOne x = { s with rci := { (s.rci.joined x.body x.tag s.ms) with held := false } } := by
    rw [State.joinOne, State.joinAt, if_pos hresult, hux, hheld]
    rfl
  have hclosed : (s.joinOne x).rci.hasEntry y.usesHeld = true := by
    rw [hjoinx, huy, Rci.hasEntry, if_neg (by simp)]
    refine decide_eq_true ?_
    show (s.rci.queue ++ _).length < 16
    rw [List.length_append, List.length_singleton]
    omega
  have hjoiny : ((s.joinOne x).joinOne y).rci.queue = s.rci.queue
      ++ [⟨x.body, x.tag, s.ms, s.rci.droppedMark, if s.rci.droppedMark then s.rci.lost else 0⟩]
      ++ [⟨y.body, y.tag, s.ms, false, 0⟩] := by
    rw [State.joinOne, State.joinAt, if_pos hclosed, hjoinx]
    rfl
  obtain ⟨tail, htail⟩ := foldl_joinOne_queue rest ((s.joinOne x).joinOne y)
  refine ⟨tail, ?_⟩
  show ((joinOrder s.handed).foldl State.joinOne s).rci.queue = _
  rw [hh, horder, List.foldl_cons, List.foldl_cons, htail, hjoiny]
  simp only [List.append_assoc, List.cons_append, List.nil_append]

/-! ## The Wipe Queue once a job has left (R53 step 2) -/

theorem LeavesClosing.queue_length {s e : State} {j : Fin 16} (h : LeavesClosing s j e) :
    e.wpe.queue.length = s.wpe.queue.length + (s.joiningRanges j).length := by
  rw [h.wpe]
  exact Wpe.joinAll_length ..

theorem LeavesClosing.queue_counter {s e : State} {j : Fin 16} (h : LeavesClosing s j e) :
    e.wpe.counter = s.wpe.counter + BitVec.ofNat 32 (s.joiningRanges j).length := by
  rw [h.wpe, appendWipes_wpe]

/-- Each joining range has its entry behind those that stood, also once the head wipe has started. -/
theorem LeavesClosing.queue_entry {s e : State} {j : Fin 16} (h : LeavesClosing s j e) {k : Nat}
    (hk : k < (s.joiningRanges j).length) : ∃ r progress, (s.wipeRanges j)[k]? = some r
      ∧ e.startWipe.wpe.queue[s.wpe.queue.length + k]?
        = some { (s.job j).wipeEntry j s.wpe.counter k r with progress := progress } := by
  have hsome := List.getElem?_eq_getElem hk
  have hentry := appendWipes_entry s j hsome
  rw [← h.wpe] at hentry
  obtain ⟨progress, hstarted⟩ := (startWipe_queue e).2.2.2 _ _ hentry
  exact ⟨_, progress, (joiningRanges_get s j hk).symm.trans hsome, hstarted⟩

/-- The end of an event in which a command is answered and its job leaves: its result and the JOB_CLOSED join first. -/
theorem LeavesClosing.queue_reports {s e : State} {j : Fin 16} (h : LeavesClosing s j e) {kind tag : BitVec 16} {c : ResultCode}
    {v : ResultValues} (hh : s.handed = [⟨.result kind c v, tag, true⟩]) (hheld : s.rci.held = true)
    (hlen : s.rci.queue.length ≤ 14) : ∃ rest, e.startWipe.concluded.rci.queue = s.rci.queue
      ++ ⟨.result kind c v, tag, s.ms, s.rci.droppedMark, if s.rci.droppedMark then s.rci.lost else 0⟩
      :: ⟨((s.job j).closedReport j (s.wipeRanges j).length (s.joiningRanges j).length).body, (s.job j).closeTag, s.ms, false, 0⟩
      :: rest := by
  obtain ⟨more, hmore, hlate⟩ := h.handed
  obtain ⟨w, hw⟩ := startWipe_leaves e
  have hhanded : e.startWipe.handed = _ := (congrArg State.handed hw).trans (hmore.trans (by rw [hh, List.singleton_append]))
  have hrci : e.startWipe.rci = s.rci := (startWipe_rci e).trans h.rci
  have hms : e.startWipe.ms = s.ms := (congrArg State.ms hw).trans h.ms
  have hconcluded := concluded_closed hhanded (fun _ => rfl) (fun _ => rfl) hlate rfl rfl (by rw [hrci]; exact hheld)
    (by rw [hrci]; exact hlen)
  rw [hrci, hms] at hconcluded
  exact hconcluded

/-! ## JOB_CLOSE of a job to which nothing refers (R51, R52) -/

/-- The part after an idle job has gone to CLOSING and its context has gone, with the path `p` that the release of holds leaves. -/
def State.idleClosed (s : State) (j : Fin 16) (tag : BitVec 16) (p : Path) : State :=
  ({ s with path := p, jct := { s.jct with marking := if s.jct.isMarking j then none else s.jct.marking } } : State).modJob j
    fun q => { q with state := .closing, closeTag := tag, own := none }

theorem metered_idleClosed {s : State} (h : s.jct.metered = true) (j : Fin 16) (tag : BitVec 16) (p : Path) :
    (s.idleClosed j tag p).jct.metered = true := by
  refine metered_modJob (s := { s with
    path := p
    jct := { s.jct with marking := if s.jct.isMarking j then none else s.jct.marking } }) ?_ j fun c hc => by cases hc
  refine metered_registers h (fun y hy => .inr (hy.imp_left fun hm => ?_)) fun _ => rfl
  split at hm
  · cases hm
  · exact hm

/-- What the closing of an idle job leaves once records have settled, whether the job marked or not. -/
theorem settleDue_idleClosed {s : State} (j : Fin 16) (tag : BitVec 16) (hmetered : s.jct.metered = true)
    (hempty : ∀ m, s.jct.marking = some m → m.job = j → m.ctx.queue = []) (hst : s.jct.isStacked j = false)
    (hown : (s.job j).own = none) (kind : BitVec 16) (x : ResultCode × ResultValues) :
    ∃ p, (report kind tag (x, s.closeJob j tag)).settleDue = report kind tag (x, s.idleClosed j tag p) := by
  by_cases hmark : s.jct.isMarking j = true
  · obtain ⟨m, hm, rfl⟩ : ∃ m, s.jct.marking = some m ∧ m.job = j := by
      obtain ⟨m, hm, hj⟩ := Option.any_eq_true _ _ |>.1 hmark
      exact ⟨m, hm, beq_iff_eq.1 hj⟩
    have hq : m.ctx.queue = [] := hempty m hm rfl
    refine ⟨(s.releaseAssembly [m.job]).path, ?_⟩
    rw [s.settleDue_closed tag hmetered hm (by rw [hq]; exact fun r hr => absurd hr List.not_mem_nil), State.unmarked, modJob_modJob,
      State.idleClosed, if_pos hmark]
    have hkeep : JobSlot.keepOwn m.ctx.forceCloseAll = fun q => { q with own := none } := funext fun q => by
      rw [JobSlot.keepOwn, if_pos ((forceCloseAll_queue_nil _).2 hq)]
    rw [hkeep]
    rfl
  · rw [Bool.not_eq_true] at hmark
    refine ⟨s.path, ?_⟩
    have hclose : s.closeJob j tag = s.idleClosed j tag s.path := by
      rw [s.closeJob_notMarking tag hmark, hst, State.idleClosed, hmark]
      refine congrArg (fun v => ({ s with jct := { s.jct with slots := v } } : State)) (vector_ext fun i => ?_)
      rw [upd_get, upd_get]
      split
      · next e =>
        subst e
        have : (s.jct.slots[i]).own = none := hown
        simp only [JobSlot.closing, Bool.false_or, this]
      · rfl
    rw [hclose]
    exact State.settleDue_eq _ (metered_idleClosed hmetered j tag s.path)

theorem State.idleClosed_job (s : State) (j : Fin 16) (tag : BitVec 16) (p : Path) (k : Fin 16) : (s.idleClosed j tag p).job k =
    if k = j then { s.job k with state := .closing, closeTag := tag, own := none } else s.job k := State.modJob_job _ _ _ _

/-- The closed job may leave at once, if the Wipe Queue has room. -/
theorem mayLeave_idleClosed {s : State} {j : Fin 16} (tag : BitVec 16) (p : Path) (hr : (s.job j).refs = 0)
    (hst : s.jct.isStacked j = false) (hw : (s.job j).passes = 0 ∨ min (s.job j).bound 32 ≤ 32 - s.wpe.queue.length) :
    (s.idleClosed j tag p).mayLeave j = true := by
  have hjob := (s.idleClosed_job j tag p j).trans (if_pos rfl)
  have hmark : (s.idleClosed j tag p).jct.isMarking j = false := by
    show ({ s.jct with marking := if s.jct.isMarking j then none else s.jct.marking } : Jobs).isMarking j = false
    by_cases hm : s.jct.isMarking j = true
    · rw [if_pos hm]
      rfl
    · rw [if_neg hm]
      exact Bool.not_eq_true _ ▸ hm
  exact mayLeave_of (by rw [hjob]) (by rw [hjob]; exact hr) hmark hst (by rw [hjob]) (by rw [hjob]; exact hw)

theorem State.runJobClose_bindable (s : State) {j : Fin 16} (tag : BitVec 16) (h : (s.job j).state.bindable = true) :
    State.runJobClose tag j.val s = report 7 tag ((.ok, .none), s.closeJob j tag) := by
  rw [State.runJobClose, s.jobClose_val, if_pos h]
  rfl

/-- Where no job is in CLOSING, a changed slot alone can let its job leave. -/
theorem mayLeave_modJob {s : State} (h : s.noneClosing = true) {j : Fin 16} {f : JobSlot → JobSlot}
    (hf : (f (s.job j)).state ≠ .closing ∨ (f (s.job j)).refs ≠ 0 ∨ (f (s.job j)).own ≠ none) (k : Fin 16) :
    (s.modJob j f).mayLeave k = false := by
  refine mayLeave_eq_false ?_
  rw [State.modJob_job]
  split
  · next e =>
    rw [e]
    exact hf
  · exact .inl (s.noneClosing_iff.1 h k)

/-- A slot that keeps its own context leaves nothing to settle. -/
theorem metered_sameOwn {s : State} (h : s.jct.metered = true) {j : Fin 16} {f : JobSlot → JobSlot}
    (hf : ∀ q : JobSlot, (f q).own = q.own) : (s.modJob j f).jct.metered = true :=
  Jobs.metered_congr h rfl rfl fun i => by
    rw [State.modJob_slots, upd_get]
    split
    · exact hf _
    · rfl

end Sys2Proof.Machine

namespace Sys2Proof.Proofs

open Sys2Proof Sys2Proof.Machine

/-- JOB_RELEASE that opens its job: O38, its first part. -/
theorem jobRelease_opens (s : State) (tag : BitVec 16) (j : Fin 16) (why : HoldReason) (pin : Word8) (h : s.ready = true)
    (hs : (s.job j).state = .held why) (hpin : pinDigits pin = true)
    (hlocked : (s.ace.users[(s.job j).user]).stored.state ≠ .locked)
    (hdigest : (s.ace.users[(s.job j).user]).stored.digest = some (Config.userDigest (s.job j).user pin))
    (hquota : why = .quota → s.ace.reservePasses (s.job j).user 0 (s.reserveOf j) = true) :
    exec (.jobRelease tag j.val pin) s = .next
      ((({ s with ace := s.ace.pinCleared (s.job j).user } : State).modJob j fun q => { q with state := .opened }).reported
        (.result 6 .ok .none) tag) := by
  obtain ⟨hrest, -, -, hclosing⟩ := s.ready_iff.1 h
  have hmetered := State.metered_of_resting hrest
  have hpass : ¬ (why = .quota ∧ s.running.trialPasses j = false) := fun ⟨hw, hf⟩ => by
    have : s.running.trialPasses j = true := hquota hw
    rw [this] at hf
    cases hf
  have hmatch : s.running.pinMatches (s.job j).user pin = true := (s.running.pinMatches_iff _ _).2 hdigest
  let base : State := { s.running with ace := s.ace.pinCleared (s.job j).user }
  have hrelease : s.running.jobRelease j.val pin = (.ok, base.modJob j fun q => { q with state := .opened }) :=
    (s.running.jobRelease_held hpin hs).trans ((if_neg hlocked).trans ((if_pos hmatch).trans (if_neg hpass)))
  refine (ringEvent_eq (run := State.runJobRelease tag j.val pin) h (congrArg (fun x => report 6 tag (plainAnswer x)) hrelease)
    (nothingDue_jobs hrest ⟨rfl, rfl, rfl, rfl⟩ ⟨rfl, rfl⟩ ?_ fun k => ?_) rfl rfl rfl)
  · exact metered_sameOwn (s := base) hmetered fun _ => rfl
  · exact mayLeave_modJob (s := base) hclosing (.inl (by simp)) k

/-- JOB_CLOSE of a job with references that does not mark: O38. -/
theorem jobClose_waits (s : State) (tag : BitVec 16) (j : Fin 16) (h : s.ready = true) (hb : (s.job j).state.bindable = true)
    (hr : 0 < (s.job j).refs) (hm : s.jct.isMarking j = false) : exec (.jobClose tag j.val) s = .next
      ((s.modJob j fun q => q.closing tag (s.jct.isStacked j)).reported (.result 7 .ok .none) tag) := by
  obtain ⟨hrest, -, -, hclosing⟩ := s.ready_iff.1 h
  have hmetered := State.metered_of_resting hrest
  have hclose : State.runJobClose tag j.val s.running =
      report 7 tag ((.ok, .none), s.running.modJob j fun q => q.closing tag (s.jct.isStacked j)) := by
    rw [s.running.runJobClose_bindable tag (by exact hb), s.running.closeJob_notMarking tag (by exact hm)]
    rfl
  refine ringEvent_eq (run := State.runJobClose tag j.val) h hclose
    (nothingDue_jobs hrest ⟨rfl, rfl, rfl, rfl⟩ ⟨rfl, rfl⟩ ?_ fun k => ?_) rfl rfl rfl
  · exact metered_sameOwn (s := s.running) hmetered fun _ => rfl
  · exact mayLeave_modJob (s := s.running) hclosing (.inr (.inl (Nat.ne_of_gt hr))) k

/-- JOB_CLOSE of the marking job, whose records have lines in flight, where a reference or a record keeps it in CLOSING: O38. -/
theorem jobClose_marking (s : State) (tag : BitVec 16) (m : Marked) (h : s.ready = true) (hm : s.jct.marking = some m)
    (hb : (s.job m.job).state.bindable = true) (hlines : ∀ r ∈ m.ctx.queue, 0 < r.lines)
    (hstay : 0 < (s.job m.job).refs ∨ m.ctx.queue ≠ []) : exec (.jobClose tag m.job.val) s = .next
      (((s.unmarked m.job tag).modJob m.job (JobSlot.keepOwn m.ctx.forceCloseAll)).reported (.result 7 .ok .none) tag) := by
  obtain ⟨hrest, hc, hheld, hclosing⟩ := s.ready_iff.1 h
  have hmetered := State.metered_of_resting hrest
  have hset : (State.runJobClose tag m.job.val s.running).settleDue = report 7 tag ((.ok, .none),
      (s.running.unmarked m.job tag).modJob m.job (JobSlot.keepOwn m.ctx.forceCloseAll)) := by
    rw [s.running.runJobClose_bindable tag (by exact hb)]
    exact s.running.settleDue_closed tag hmetered hm hlines 7 _
  refine ringEvent_settled (run := State.runJobClose tag m.job.val) hrest hc hheld hset
    (nothingDue_jobs hrest ⟨rfl, rfl, rfl, rfl⟩ ⟨rfl, rfl⟩ ?_ fun k => ?_) rfl rfl rfl
  · exact metered_keepOwn (metered_unmarked (s := s.running) hmetered m.job tag) m.job (forceCloseAll_undue hlines)
  · rw [State.unmarked, modJob_modJob]
    refine mayLeave_modJob (by exact hclosing) (.inr ?_) k
    by_cases hq : m.ctx.queue = []
    · exact .inl (Nat.ne_of_gt (hstay.resolve_right (not_not.2 hq)))
    · refine .inr ?_
      show (if m.ctx.forceCloseAll.queue = [] then none else some _) ≠ none
      rw [if_neg (mt (forceCloseAll_queue_nil _).1 hq)]
      exact Option.some_ne_none _

/-- JOB_CLOSE of an idle job, which leaves CLOSING in the same event: O38. -/
theorem jobClose_leaves (s : State) (tag : BitVec 16) (j : Fin 16) (h : s.ready = true) (hb : (s.job j).state.bindable = true)
    (hr : (s.job j).refs = 0) (hempty : ∀ m, s.jct.marking = some m → m.job = j → m.ctx.queue = [])
    (hst : s.jct.isStacked j = false) (hown : (s.job j).own = none)
    (hw : (s.job j).passes = 0 ∨ min (s.job j).bound 32 ≤ 32 - s.wpe.queue.length) :
    ∃ p, exec (.jobClose tag j.val) s =
      .next ((report 7 tag ((.ok, .none), s.running.idleClosed j tag p)).leaveClosing j).startWipe.concluded := by
  obtain ⟨hrest, hc, -, hclosing⟩ := s.ready_iff.1 h
  obtain ⟨hp, hrun, hfault, hn⟩ := s.resting_iff.1 hrest
  obtain ⟨hmetered, hcommit, hwiped, -, -, -, -⟩ := s.nothingDue_iff.1 hn
  obtain ⟨p, hp'⟩ := settleDue_idleClosed (s := s.running) j tag hmetered hempty hst hown 7 (.ok, .none)
  refine ⟨p, ?_⟩
  have hset : (State.runJobClose tag j.val s.running).settleDue = report 7 tag ((.ok, .none), s.running.idleClosed j tag p) := by
    rw [s.running.runJobClose_bindable tag (by exact hb)]
    exact hp'
  have hothers : ∀ k, k ≠ j → ((s.running.idleClosed j tag p).job k).state ≠ .closing := fun k hk => by
    rw [State.idleClosed_job, if_neg hk]
    exact s.noneClosing_iff.1 hclosing k
  have hidle := metered_idleClosed (s := s.running) hmetered j tag p
  have hmay : (report 7 tag ((.ok, .none), s.running.idleClosed j tag p)).mayLeave j = true :=
    mayLeave_idleClosed (s := s.running) tag p hr hst hw
  refine (ringEvent_ready (run := State.runJobClose tag j.val) hp hc).trans (congrArg _ ?_)
  rw [State.endEvent_settled _ (by rw [hset]; exact hidle), hset]
  exact State.endEvent_leaves hidle hcommit hwiped hmay hothers hrun hfault

/-- What is left when an idle job has left CLOSING in its closing event: O38, its third part. -/
theorem jobClose_left (s : State) (tag : BitVec 16) (j : Fin 16) (h : s.ready = true) (hb : (s.job j).state.bindable = true)
    (hr : (s.job j).refs = 0) (hempty : ∀ m, s.jct.marking = some m → m.job = j → m.ctx.queue = [])
    (hst : s.jct.isStacked j = false) (hown : (s.job j).own = none)
    (hw : (s.job j).passes = 0 ∨ min (s.job j).bound 32 ≤ 32 - s.wpe.queue.length) :
    let q := s.job j
    let rs := if q.passes = 0 then [] else s.rgt.rangesOf j
    let n := min rs.length (min 32 (32 - s.wpe.queue.length))
    let after : JobState := if n = 0 then .free else .wiping
    ∃ t, exec (.jobClose tag j.val) s = .next t
      ∧ t.keys = s.keys.set j none
      ∧ (∀ i : Fin 32, t.rgt.live[i] = (s.rgt.live[i]).filter (fun x => !x.names j)
          ∧ t.rgt.shadow[i] = (s.rgt.shadow[i]).filter (fun x => !x.names j))
      ∧ t.wpe.queue.length = s.wpe.queue.length + n ∧ t.wpe.counter = s.wpe.counter + BitVec.ofNat 32 n
      ∧ (∀ k < n, ∃ r e, rs[k]? = some r ∧ t.wpe.queue[s.wpe.queue.length + k]? = some e
          ∧ e.number = s.wpe.counter + BitVec.ofNat 32 (k + 1) ∧ e.base = r.1 ∧ e.count = r.2 ∧ e.passes = q.passes
          ∧ e.verify = q.verify ∧ e.origin = .job j q.nonce ∧ e.mismatch = 0)
      ∧ (t.job j).state = after ∧ (t.job j).wipes = n ∧ (t.job j).nonce = q.nonce ∧ (t.job j).own = none
      ∧ (∀ k : Fin 16, k ≠ j → t.job k = { s.job k with bound := (t.rgt.rangesOf k).length })
      ∧ t.jct.marking = (if s.jct.isMarking j then none else s.jct.marking) ∧ t.jct.stack = s.jct.stack
      ∧ ∃ more, t.rci.queue = s.rci.queue
          ++ ⟨.result 7 .ok .none, tag, s.ms, s.rci.droppedMark, if s.rci.droppedMark then s.rci.lost else 0⟩
          :: ⟨.jobClosed j q.nonce q.user q.counters n (rs.length - n) after, tag, s.ms, false, 0⟩ :: more := by
  obtain ⟨p, hexec⟩ := jobClose_leaves s tag j h hb hr hempty hst hown hw
  intro q rs n after
  obtain ⟨-, hc, -, -⟩ := s.ready_iff.1 h
  obtain ⟨-, -, -, -, hlen⟩ := s.commandReady_iff.1 hc
  have hleft := leavesClosing (report 7 tag ((.ok, .none), s.running.idleClosed j tag p)) j
  have hclosed : (report 7 tag ((.ok, .none), s.running.idleClosed j tag p)).job j =
      { q with state := .closing, closeTag := tag, own := none } := (s.running.idleClosed_job j tag p j).trans (if_pos rfl)
  have hothers : ∀ k, k ≠ j → (report 7 tag ((.ok, .none), s.running.idleClosed j tag p)).job k = s.job k := fun k hk =>
    (s.running.idleClosed_job j tag p k).trans (if_neg hk)
  have hranges : (report 7 tag ((.ok, .none), s.running.idleClosed j tag p)).wipeRanges j = rs := by
    rw [State.wipeRanges, hclosed]
    rfl
  have hn : ((report 7 tag ((.ok, .none), s.running.idleClosed j tag p)).joiningRanges j).length = n := by
    rw [joiningRanges_length, hranges]
    rfl
  have hreports := hleft.queue_reports rfl rfl hlen
  generalize (report 7 tag ((.ok, .none), s.running.idleClosed j tag p)).leaveClosing j = e at hexec hleft hreports
  obtain ⟨hkeys, hrgt, hjct, hwpe⟩ := started_concluded e
  have hjob : ∀ k, e.startWipe.concluded.job k = e.job k := fun k => congrArg (fun a : Jobs => a.slots[k]) hjct
  obtain ⟨hlength, -, hcounter, -⟩ := startWipe_queue e
  refine ⟨_, hexec, hkeys.trans hleft.keys, fun i => ?_, ?_, ?_, fun k hk => ?_, ?_, ?_, ?_, ?_, fun k hk => ?_, ?_, ?_, ?_⟩
  · rw [hrgt]
    exact hleft.entries i
  · rw [hwpe, hlength, hleft.queue_length, hn]
    rfl
  · rw [hwpe, hcounter, hleft.queue_counter, hn]
    rfl
  · obtain ⟨r, progress, hr, hentry⟩ := hleft.queue_entry (hn ▸ hk)
    rw [hranges] at hr
    rw [hclosed] at hentry
    refine ⟨r, _, hr, hwpe ▸ hentry, rfl, rfl, rfl, rfl, rfl, rfl, rfl⟩
  · rw [hjob, hleft.state, hn]
  · rw [hjob, hleft.wipes, hn]
  · rw [hjob, hleft.nonce, hclosed]
  · rw [hjob]
    exact hleft.own (by rw [hclosed])
  · rw [hjob, hleft.others k hk, hothers k hk, hrgt]
  · exact (congrArg Jobs.marking hjct).trans hleft.marking
  · exact (congrArg Jobs.stack hjct).trans hleft.stack
  · rw [hranges, hn, hclosed] at hreports
    exact hreports

theorem exec_jobRelease_refused {s : State} {tag : BitVec 16} {n : Nat} {pin : Word8} {code : ResultCode} (h : s.ready = true)
    (hx : s.running.jobRelease n pin = (code, s.running)) : exec (.jobRelease tag n pin) s = .next (s.refused 6 tag code) :=
  ringEvent_refused (run := State.runJobRelease tag n pin) h (congrArg (fun x => report 6 tag (plainAnswer x)) hx)

theorem exec_jobRelease_refusedAce {s : State} {tag : BitVec 16} {n : Nat} {pin : Word8} {code : ResultCode} {a : Ace}
    (h : s.ready = true) (hx : s.running.jobRelease n pin = (code, { s.running with ace := a })) :
    exec (.jobRelease tag n pin) s = .next (({ s with ace := a } : State).refused 6 tag code) :=
  ringEvent_refusedAce (run := State.runJobRelease tag n pin) h (congrArg (fun x => report 6 tag (plainAnswer x)) hx)

theorem exec_jobClose_refused {s : State} {tag : BitVec 16} {n : Nat} {code : ResultCode} (h : s.ready = true)
    (hx : s.running.jobClose n tag = (code, s.running)) : exec (.jobClose tag n) s = .next (s.refused 7 tag code) :=
  ringEvent_refused (run := State.runJobClose tag n) h (congrArg (fun x => report 7 tag (plainAnswer x)) hx)

/-- The refusals of JOB_RELEASE for a HELD job: O38, its last part. -/
theorem jobRelease_refusals (s : State) (tag : BitVec 16) (j : Fin 16) (why : HoldReason) (pin : Word8) (h : s.ready = true)
    (hpin : pinDigits pin = true) (hs : (s.job j).state = .held why) :
    let v := (s.job j).user
    let r := (s.ace.users[v]).stored
    (r.state = .locked → exec (.jobRelease tag j.val pin) s = .next (s.refused 6 tag .userLocked))
    ∧ (r.state ≠ .locked → r.digest ≠ some (Config.userDigest v pin) → r.failures ≤ 4 →
      let r' := { r with failures := r.failures + 1, state := if r.failures = 4 then .locked else r.state }
      exec (.jobRelease tag j.val pin) s = .next (({ s with
        ace := (s.ace.putUser v r').trigger (.user v) } : State).refused 6 tag .badPin))
    ∧ (r.state ≠ .locked → r.digest = some (Config.userDigest v pin) → why = .quota →
      s.ace.reservePasses v 0 (s.reserveOf j) = false →
      let u : State := if r.failures = 0 then s else
        { s with ace := (s.ace.putUser v { r with failures := 0 }).trigger (.user v) }
      exec (.jobRelease tag j.val pin) s = .next (u.refused 6 tag .quota)) := by
  have hheld := s.running.jobRelease_held hpin (by exact hs)
  refine ⟨fun hl => ?_, fun hl hd hf => ?_, fun hl hd hw hq => ?_⟩
  · exact exec_jobRelease_refused h (hheld.trans (if_pos hl))
  · have hmatch : ¬ s.running.pinMatches (s.job j).user pin = true := fun hm => hd ((s.running.pinMatches_iff _ _).1 hm)
    exact exec_jobRelease_refusedAce h ((hheld.trans ((if_neg hl).trans (if_neg hmatch))).trans
      (congrArg _ (s.running.pinChecked_mismatch _ rfl hf)))
  · have hmatch : s.running.pinMatches (s.job j).user pin = true := (s.running.pinMatches_iff _ _).2 hd
    have hrefused := exec_jobRelease_refusedAce (tag := tag) h
      (hheld.trans ((if_neg hl).trans ((if_pos hmatch).trans (if_pos ⟨hw, hq⟩))))
    rw [show ({ s with ace := s.running.ace.pinCleared (s.running.job j).user } : State) = _ from s.pinCleared_eq (s.job j).user]
      at hrefused
    exact hrefused

/-- Settles O38: JOB_RELEASE by its answers; JOB_CLOSE by whether the job marks, and whether it may leave CLOSING at once. -/
theorem jobReleaseAndClose : Obligations.JobReleaseAndClose := by
  refine ⟨fun s tag j h => ⟨?_, fun hb hr => ⟨fun hm => ?_, ?_⟩⟩, ?_, jobClose_left, ?_⟩
  · intro why pin hs hpin hlocked hdigest hquota v r u
    have hopens := jobRelease_opens s tag j why pin h hs hpin hlocked hdigest hquota
    rw [s.pinCleared_eq] at hopens
    exact hopens
  · exact jobClose_waits s tag j h hb hr hm
  · rintro m hm rfl hq
    have hclose := jobClose_marking s tag m h hm hb (by rw [hq]; exact fun r hr => absurd hr List.not_mem_nil) (.inl hr)
    rw [s.unmarked_keepOwn, if_pos ((forceCloseAll_queue_nil _).2 hq)] at hclose
    exact hclose
  · rintro s tag j m h hm rfl hb hq hlines forced
    have hclose := jobClose_marking s tag m h hm hb hlines (.inr hq)
    rw [s.unmarked_keepOwn, if_neg (mt (forceCloseAll_queue_nil _).1 hq), m.ctx.forceCloseAll_eq] at hclose
    exact hclose
  · refine fun s tag n pin h => ⟨fun hn => ⟨?_, ?_⟩, fun hd => ?_, ?_⟩
    · exact exec_jobRelease_refused h (s.running.jobRelease_large pin hn)
    · exact exec_jobClose_refused h (s.running.jobClose_large tag hn)
    · exact exec_jobRelease_refused h (s.running.jobRelease_notDigits n hd)
    · rintro j rfl
      refine ⟨fun hb => ?_, fun hpin => ⟨fun hs => ?_, fun why hs => jobRelease_refusals s tag j why pin h hpin hs⟩⟩
      · exact exec_jobClose_refused h ((s.running.jobClose_val j tag).trans (if_neg (Bool.not_eq_true _ ▸ hb)))
      · exact exec_jobRelease_refused h (s.running.jobRelease_notHeld hpin hs)

end Sys2Proof.Proofs
end

section
/-!
The shapes that keep a settled part settled: what the Wipe Queue, the Region Table and the bound range counts must be for one pass of
the consequences to leave nothing due (R44, R168, R170), and how an operation carries them over.
-/

namespace Sys2Proof.Machine

/-- The shapes of the settled-state law: of the Wipe Queue, of the Region Table and of the bound range counts. -/
def State.shaped (s : State) : Prop := s.wpe.shapeLaw ∧ s.rgt.countLaw ∧ s.boundLaw

/-- The shapes go over from `s` to `t`. -/
def KeepsShape (s t : State) : Prop := s.shaped → t.shaped

theorem KeepsShape.refl (s : State) : KeepsShape s s := fun h => h

theorem KeepsShape.trans {s t u : State} (h : KeepsShape s t) (g : KeepsShape t u) : KeepsShape s u := fun x => g (h x)

theorem KeepsShape.ite {s t u : State} {p : Prop} [Decidable p] (ht : KeepsShape s t) (hu : KeepsShape s u) :
    KeepsShape s (if p then t else u) := by
  split
  · exact ht
  · exact hu

theorem KeepsShape.foldl {α : Type} {f : State → α → State} (hf : ∀ s a, KeepsShape s (f s a)) (as : List α) (s : State) :
    KeepsShape s (as.foldl f s) := by
  induction as generalizing s with
  | nil => exact .refl s
  | cons a as ih => exact (hf s a).trans (ih (f s a))

/-- The shapes look at the Wipe Queue, at the entries, and at the bound range counts, of which a lower one keeps its bound. -/
theorem keepsShape_of_eq {s t : State} (hw : t.wpe.queue = s.wpe.queue) (hl : t.rgt.live = s.rgt.live)
    (hs : t.rgt.shadow = s.rgt.shadow) (hb : ∀ j, (t.job j).bound ≤ (s.job j).bound) : KeepsShape s t := by
  rintro ⟨⟨htail, hcount⟩, hentries, hbound⟩
  refine ⟨⟨by rw [hw]; exact htail, by rw [hw]; exact hcount⟩, fun i => ?_, fun j => (hb j).trans ?_⟩
  · rw [hl, hs]
    exact hentries i
  · simp only [Regions.rangesOf, hl, hs]
    exact hbound j

theorem Aside.keepsShape {s t : State} (h : Aside s t) : KeepsShape s t :=
  keepsShape_of_eq (by rw [h.wpe]) (by rw [h.rgt]) (by rw [h.rgt]) fun j => by rw [State.job, State.job, h.jct]

theorem Aside.ite {s t u : State} {p : Prop} [Decidable p] (ht : Aside s t) (hu : Aside s u) : Aside s (if p then t else u) := by
  split
  · exact ht
  · exact hu

/-! ## Jobs and the Region Table -/

/-- A change of one job slot that does not raise its bound range count. -/
theorem keepsShape_modJob (s : State) (j : Fin 16) (f : JobSlot → JobSlot) (h : (f (s.job j)).bound ≤ (s.job j).bound) :
    KeepsShape s (s.modJob j f) :=
  keepsShape_of_eq rfl rfl rfl fun k => by
    rw [State.modJob_job]
    split
    · next hk => rw [hk]; exact h
    · exact Nat.le_refl _

/-- New entries of at least one page, with their bound range counts (R44). -/
theorem keepsShape_setRegions (s : State) (g : Regions) (h : s.rgt.countLaw → g.countLaw) : KeepsShape s (s.setRegions g) := by
  rintro ⟨hwipes, hentries, -⟩
  refine ⟨by rw [s.setRegions_eq]; exact hwipes, by rw [s.setRegions_rgt]; exact h hentries, fun j => ?_⟩
  rw [s.setRegions_job, s.setRegions_rgt]

/-- Entries that come from those of another table have as many pages as they. -/
theorem Regions.countLaw_of_mem {g r : Regions} (hl : ∀ i : Fin 32, ∀ e ∈ r.live[i], e ∈ g.live[i] ∨ e ∈ g.shadow[i])
    (hs : ∀ i : Fin 32, ∀ e ∈ r.shadow[i], e ∈ g.live[i] ∨ e ∈ g.shadow[i]) (h : g.countLaw) : r.countLaw := fun i =>
  ⟨fun e he => (hl i e he).elim ((h i).1 e) ((h i).2 e), fun e he => (hs i e he).elim ((h i).1 e) ((h i).2 e)⟩

theorem Regions.invalidate_live (g : Regions) (gone : RegionEntry → Bool) (i : Fin 32) :
    (g.invalidate gone).live[i] = (g.live[i]).filter fun e => !gone e := Vector.getElem_map ..

theorem Regions.invalidate_shadow (g : Regions) (gone : RegionEntry → Bool) (i : Fin 32) :
    (g.invalidate gone).shadow[i] = (g.shadow[i]).filter fun e => !gone e := Vector.getElem_map ..

theorem Regions.invalidate_countLaw (g : Regions) (gone : RegionEntry → Bool) (h : g.countLaw) : (g.invalidate gone).countLaw := by
  refine Regions.countLaw_of_mem (g := g) (fun i e he => .inl ?_) (fun i e he => .inr ?_) h
  · rw [g.invalidate_live] at he
    exact (Option.mem_filter_iff.1 he).1
  · rw [g.invalidate_shadow] at he
    exact (Option.mem_filter_iff.1 he).1

/-- The entries after a commit are such as stood in the shadow table or live. -/
theorem State.carried_countLaw (s : State) (is : List (Fin 32)) (h : s.rgt.countLaw) : (s.carried is).countLaw := by
  have hkept : ∀ i, ∀ e ∈ s.committed i, e ∈ s.rgt.shadow[i] := fun i e he => (Option.mem_filter_iff.1 he).1
  rw [s.carried_eq]
  refine Regions.countLaw_of_mem (g := s.rgt) (fun i e he => ?_) (fun i e he => .inr ?_) h
  · rw [get_ofFn] at he
    split at he
    · exact .inr (hkept i e he)
    · exact .inl he
  · rw [get_ofFn] at he
    split at he
    · exact hkept i e he
    · exact he

/-- A spelled entry has at least one page (section 1.4, R12 step 2). -/
theorem regionEntry?_count {p : RegionSetParams} {e : RegionEntry} (h : regionEntry? p = some e) : 1 ≤ e.count := by
  unfold regionEntry? at h
  split at h
  · split at h
    · split at h
      · next hok =>
        cases h
        have hrange := hok.1
        simp only [rangeOk, Bool.and_eq_true, decide_eq_true_eq] at hrange
        exact hrange.1.1.2
      · cases h
    · cases h
  · cases h

/-! ## Ranges (R44) -/

theorem mem_distinct {rs : List (Nat × Nat)} {r : Nat × Nat} (h : r ∈ distinct rs) : r ∈ rs := by
  have hall : ∀ (rs acc : List (Nat × Nat)), r ∈ rs.foldl (fun acc r => if acc.contains r then acc else acc ++ [r]) acc →
      r ∈ acc ∨ r ∈ rs := by
    intro rs
    induction rs with
    | nil => exact fun _ h => .inl h
    | cons x rs ih =>
      intro acc h
      rcases ih _ h with h | h
      · dsimp only at h
        split at h
        · exact .inl h
        · rcases List.mem_append.1 h with h | h
          · exact .inl h
          · exact .inr (List.mem_cons.2 (.inl (List.mem_singleton.1 h)))
      · exact .inr (List.mem_cons_of_mem x h)
  exact (hall rs [] h).elim (fun h => nomatch h) id

/-- A range of a job is that of a valid entry, so it has at least one page. -/
theorem rangesOf_count {g : Regions} (h : g.countLaw) {j : Fin 16} {r : Nat × Nat} (hr : r ∈ g.rangesOf j) : 1 ≤ r.2 := by
  have hrange : ∀ o : Option RegionEntry, (∀ e ∈ o, 1 ≤ e.count) → r ∈ (boundRange j o).toList → 1 ≤ r.2 := fun o ho hm => by
    obtain ⟨e, he, rfl⟩ := Option.map_eq_some_iff.1 (Option.mem_toList.1 hm)
    exact ho e (Option.mem_filter_iff.1 he).1
  obtain ⟨i, -, hi⟩ := List.mem_flatMap.1 (mem_distinct hr)
  rcases List.mem_append.1 hi with hi | hi
  · exact hrange _ (h i).1 hi
  · exact hrange _ (h i).2 hi

/-- The invalidation of another job's entries leaves a job its ranges. -/
theorem rangesOf_invalidate (g : Regions) {j k : Fin 16} (h : k ≠ j) : (g.invalidate fun e => e.names j).rangesOf k = g.rangesOf k := by
  have hsame : ∀ o : Option RegionEntry, boundRange k (o.filter fun e => !e.names j) = boundRange k o := fun o => by
    have hnames : ∀ e : RegionEntry, (!e.names j && e.names k) = e.names k := fun e => by
      by_cases hk : e.job = some k
      · simp [RegionEntry.names, hk, h]
      · simp [RegionEntry.names, hk]
    simp only [boundRange, Option.filter_filter, hnames]
  simp only [Regions.rangesOf, g.invalidate_live, g.invalidate_shadow, hsame]

/-! ## The Wipe Queue (R168, R170) -/

theorem Wpe.join_shapeLaw {w : Wpe} {base count passes : Nat} {verify : Bool} {origin : WipeOrigin} (hc : 1 ≤ count)
    (h : w.shapeLaw) : (w.join base count passes verify origin).shapeLaw := by
  obtain ⟨htail, hcount⟩ := h
  refine ⟨fun e he => ?_, fun e he => ?_⟩
  · have hmem : e ∈ w.queue.tail ∨ e ∈ [(⟨w.counter + 1, base, count, passes, verify, origin, .waiting, 0⟩ : WipeEntry)] := by
      cases hq : w.queue with
      | nil => simp [Wpe.join, hq] at he
      | cons x rest => simpa [Wpe.join, hq] using he
    rcases hmem with he | he
    · exact htail e he
    · rw [List.mem_singleton.1 he]
  · rcases List.mem_append.1 he with he | he
    · exact hcount e he
    · rw [List.mem_singleton.1 he]
      exact hc

theorem Wpe.joinAll_shapeLaw (rs : List (Nat × Nat)) (passes : Nat) (verify : Bool) (origin : WipeOrigin) (w : Wpe)
    (hrs : ∀ r ∈ rs, 1 ≤ r.2) (h : w.shapeLaw) : (w.joinAll rs passes verify origin).shapeLaw := by
  induction rs generalizing w with
  | nil => exact h
  | cons r rs ih =>
    exact ih _ (fun x hx => hrs x (List.mem_cons_of_mem r hx)) (Wpe.join_shapeLaw (hrs r List.mem_cons_self) h)

/-- A change of the head entry that keeps its page count. -/
theorem Wpe.modHead_shapeLaw {w : Wpe} {f : WipeEntry → WipeEntry} (hf : ∀ e, (f e).count = e.count) (h : w.shapeLaw) :
    (w.modHead f).shapeLaw := by
  obtain ⟨htail, hcount⟩ := h
  unfold Wpe.modHead
  split
  · exact ⟨htail, hcount⟩
  · next e rest hq =>
    rw [hq] at htail hcount
    refine ⟨htail, fun x hx => ?_⟩
    rcases List.mem_cons.1 hx with rfl | hx
    · rw [hf]
      exact hcount e List.mem_cons_self
    · exact hcount x (List.mem_cons_of_mem e hx)

/-- The queue behind a head that has left: what was WAITING behind it. -/
theorem Wpe.tail_shapeLaw {w : Wpe} {e : WipeEntry} {rest : List WipeEntry} (hq : w.queue = e :: rest) (h : w.shapeLaw) :
    ({ w with queue := rest } : Wpe).shapeLaw := by
  obtain ⟨htail, hcount⟩ := h
  rw [hq] at htail hcount
  exact ⟨fun x hx => htail x (List.mem_of_mem_tail hx), fun x hx => hcount x (List.mem_cons_of_mem e hx)⟩

theorem keepsShape_wpe (s : State) (w : Wpe) (h : s.wpe.shapeLaw → w.shapeLaw) : KeepsShape s { s with wpe := w } :=
  fun ⟨hwipes, hrest⟩ => ⟨h hwipes, hrest⟩

theorem wipeRanges_count {s : State} (h : s.rgt.countLaw) (j : Fin 16) : ∀ r ∈ s.wipeRanges j, 1 ≤ r.2 := fun r hr => by
  unfold State.wipeRanges at hr
  split at hr
  · cases hr
  · exact rangesOf_count h hr

/-- The first ranges of a job join the Wipe Queue. -/
theorem keepsShape_appendWipes (s : State) (j : Fin 16) (n : Nat) : KeepsShape s (s.appendWipes j ((s.wipeRanges j).take n)) :=
  fun h => keepsShape_wpe s _ (Wpe.joinAll_shapeLaw _ _ _ _ _ fun r hr => wipeRanges_count h.2.1 j r (List.mem_of_mem_take hr)) h

end Sys2Proof.Machine
end

section
/-!
What leaves the keys, the entries, the jobs and the Wipe Queue as they are: the operations of the bays, of ACE, of the Ring Interface
and of the downstream port, and the admin commands.
-/

namespace Sys2Proof.Machine

/-! ## Bays (chapter 7) -/

theorem aside_modBay (s : State) (p : Fin 4) (f : Bay → Bay) : Aside s (s.modBay p f) := ⟨rfl, rfl, rfl, rfl⟩

theorem aside_exchangeFailed (s : State) (p : Fin 4) (isDebit : Bool) : Aside s (s.exchangeFailed p isDebit) := by
  unfold State.exchangeFailed
  simp only
  cases (s.bay p).state with
  | vacant => exact aside_modBay s p _
  | settling => exact (((sided_bayChanged _).modBay p _).comp (sided_endExchange p)).aside s
  | _ =>
    have hcount : Aside s ((s.endExchange p).modBay p fun b => { b with failures := min 7 (b.failures + 1) }) := ⟨rfl, rfl, rfl, rfl⟩
    have hevaluated : ∀ t : State, Aside t (if isDebit = true then t.evalLevel p else t) := fun t =>
      .ite ((sided_evalLevel p).aside t) (.refl t)
    refine hcount.trans (.ite ((hevaluated _).trans ?_) (.ite ((sided_roundFailed p).aside _) (.refl _)))
    exact (Sided.depart (fun items => sided_bayChanged (departReport p (s.bay p) .vacant .detach items)) p).aside _

theorem aside_goodStatus (s : State) (p : Fin 4) (fr : List Byte) : Aside s (s.goodStatus p fr) := by
  unfold State.goodStatus
  simp only
  have hbegin : Aside s ((s.endExchange p).modBay p fun b =>
    { b with statusLevel := BitVec.ofNat 32 (frameField fr 3 4), statusFlags := byte (frameField fr 7 1) }) := ⟨rfl, rfl, rfl, rfl⟩
  refine hbegin.trans ?_
  generalize (s.endExchange p).modBay p _ = t
  have hsettling : ∀ (u : State) (f : Bay → Bay) (r : BayReport), Aside u (((u.modBay p f).attachTest p).bayChanged r) :=
    fun u f r => (((sided_bayChanged r).comp (sided_attachTest p)).modBay p f).aside u
  cases (s.bay p).state with
  | vacant => exact hsettling t _ _
  | settling => exact hsettling t _ _
  | identifying => exact aside_modBay t p _
  | proving => exact aside_modBay t p _
  | _ => exact .ite (((Sided.depart (f := fun _ u => u) (fun _ => Sided.id) p).aside t).trans (hsettling _ _ _)) (aside_modBay t p _)

theorem aside_goodIdent (s : State) (p : Fin 4) (fr : List Byte) : Aside s (s.goodIdent p fr) := by
  have hwrong : ∀ (t : State) (c : BayCause) (serial : Word8) (colour : Byte) (cap : BitVec 32),
      Aside t (t.wrongBay p c serial colour cap) := fun t c serial colour cap => ((sided_bayChanged _).modBay p _).aside t
  have hidentified : ∀ (t : State) (serial : Word8) (colour : Byte) (cap : BitVec 32),
      Aside t (t.identified p serial colour cap) := fun t serial colour cap => by
    unfold State.identified
    simp only
    refine Aside.trans ?_ ((sided_bayChanged _).aside _)
    cases t.ccu.departedEntry? serial <;> exact ⟨rfl, rfl, rfl, rfl⟩
  unfold State.goodIdent
  simp only
  exact ((sided_endExchange p).aside s).trans
    (.ite (.ite (hwrong _ _ _ _ _) (.ite (hwrong _ _ _ _ _) (hidentified _ _ _ _))) (aside_modBay _ p _))

theorem aside_proofGood (s : State) (p : Fin 4) (level : BitVec 32) (seq : BitVec 16) : Aside s (s.proofGood p level seq) := by
  unfold State.proofGood
  simp only
  refine Aside.trans ?_ ((sided_bayChanged _).aside _)
  refine Aside.trans ?_ ((sided_proofView p _ _).aside _)
  cases ((s.bay p).unconfirmed.filter fun u => u.seq == seq).map Unconfirmed.amount with
  | none => exact aside_modBay s p _
  | some a => exact ((sided_confirm p a).modBay p _).aside s

theorem aside_goodProve (s : State) (p : Fin 4) (nonce : Word8) (fr : List Byte) : Aside s (s.goodProve p nonce fr) := by
  unfold State.goodProve
  simp only
  refine ((sided_endExchange p).aside s).trans ?_
  split
  · exact .ite (aside_proofGood _ p _ _) ((((sided_bayChanged _).comp (sided_proofView p _ _)).modBay p _).aside _)
  · exact aside_modBay _ p _

theorem aside_goodDebit (s : State) (p : Fin 4) (fr : List Byte) : Aside s (s.goodDebit p fr) := by
  unfold State.goodDebit
  simp only
  refine ((sided_endExchange p).aside s).trans ?_
  split
  · exact .ite (((sided_roundGood p _).modBay p _).aside _)
      ((((sided_bayChanged _).comp (sided_roundTagBad p)).modBay p _).aside _)
  · exact aside_modBay _ p _

theorem aside_replyEnds (s : State) (k : Exch) (p : Fin 4) (fr : List Byte) : Aside s (s.replyEnds k p fr) := by
  unfold State.replyEnds
  split
  · exact .refl s
  · next e _ =>
    refine .ite (.refl s) (.ite ?_ (aside_exchangeFailed s p _))
    unfold State.goodReply
    cases e.kind with
    | status => exact aside_goodStatus s p fr
    | ident => exact aside_goodIdent s p fr
    | prove => exact aside_goodProve s p e.nonce fr
    | debit => exact aside_goodDebit s p fr

theorem aside_waitUntil (s : State) (t : BitVec 32) (n : Nat) : Aside s (s.waitUntil t n) := .ite ⟨rfl, rfl, rfl, rfl⟩ (.refl s)

theorem aside_waitDue (s : State) (p : Fin 4) : Aside s (s.waitDue p) := by
  unfold State.waitDue
  split
  · exact .refl s
  · exact .refl s
  · exact aside_waitUntil s _ 200

theorem aside_sendFrame (s : State) (p : Fin 4) (k : Exch) (nonce : Word8) (payload : List Byte) :
    Aside s (s.sendFrame p k nonce payload) := ⟨rfl, rfl, rfl, rfl⟩

theorem aside_draw (s : State) : Aside s s.draw := ⟨rfl, rfl, rfl, rfl⟩

theorem aside_sendStatus (s : State) (p : Fin 4) : Aside s (s.sendStatus p) :=
  .ite ((aside_waitDue s p).trans (aside_sendFrame _ _ _ _ _)) (.refl s)

theorem aside_sendIdent (s : State) (p : Fin 4) : Aside s (s.sendIdent p) :=
  .ite ((aside_waitDue s p).trans (aside_sendFrame _ _ _ _ _)) (.refl s)

theorem aside_sendProve (s : State) (p : Fin 4) : Aside s (s.sendProve p) :=
  .ite ((aside_waitDue s p).trans ((aside_sendFrame _ _ _ _ _).trans (aside_draw _))) (.refl s)

theorem aside_sendDebit (s : State) (p : Fin 4) : Aside s (s.sendDebit p) := by
  unfold State.sendDebit
  split
  · exact .ite ⟨rfl, rfl, rfl, rfl⟩ (.refl s)
  · exact .refl s

theorem aside_timeOut (s : State) (p : Fin 4) : Aside s (s.timeOut p) := by
  unfold State.timeOut
  split
  · exact (aside_waitUntil s _ 21).trans (aside_exchangeFailed _ p _)
  · exact .refl s

theorem aside_replyBegins (s : State) (p : Fin 4) : Aside s (s.replyBegins p) := by
  unfold State.replyBegins
  split
  · exact .ite (.refl s) ⟨rfl, rfl, rfl, rfl⟩
  · exact .refl s

/-! ## The accounts (chapter 6) -/

theorem aside_ace (s : State) (a : Ace) : Aside s { s with ace := a } := ⟨rfl, rfl, rfl, rfl⟩

theorem aside_examinePin (s : State) (pin : Word8) : Aside s (s.examinePin pin).1 := by
  rcases s.examinePin_cases pin with ⟨-, h⟩ | ⟨-, a, h⟩ <;> rw [h] <;> exact aside_ace s _

theorem aside_expireLockout (s : State) (t : BitVec 32) : Aside s (s.expireLockout t) :=
  (aside_waitUntil s t 60000).trans (aside_ace _ _)

theorem aside_credential (s : State) (pin : Word8) : Aside s (s.credential pin).1 := by
  rcases s.credential_cases pin with ⟨t, -, -, h⟩ | ⟨t, -, -, h⟩ | ⟨-, h⟩ <;> rw [h]
  · exact .refl s
  · exact (aside_expireLockout s t).trans (aside_examinePin _ pin)
  · exact aside_examinePin s pin

theorem aside_pinChecked (s : State) (u : Fin 256) (good : Bool) : Aside s (s.pinChecked u good) :=
  .ite (.refl s) (aside_ace s _)

theorem aside_completeWrite (s : State) : Aside s s.completeWrite := by
  unfold State.completeWrite
  split
  · exact .refl s
  · exact ⟨rfl, rfl, rfl, rfl⟩

theorem aside_beginWrite (s : State) : Aside s s.beginWrite := .ite ⟨rfl, rfl, rfl, rfl⟩ (.refl s)

theorem aside_lockoutEnds (s : State) : Aside s s.lockoutEnds := by
  unfold State.lockoutEnds
  split
  · exact aside_expireLockout s _
  · exact .refl s

theorem aside_finishLoading (s : State) : Aside s s.finishLoading := by
  have hload : Aside s s.endLoad := by
    unfold State.endLoad
    exact aside_ace s _
  have hleave : ∀ t : State, Aside t t.leaveLoading := fun t => .ite ⟨rfl, rfl, rfl, rfl⟩ ⟨rfl, rfl, rfl, rfl⟩
  exact .ite ((hload.trans (hleave _)).trans (sided_firstPolls.aside _)) (.refl s)

/-! ## The admin commands (R116) -/

/-- After the credential check an admin command changes ACE alone. -/
def AceOnly (body : State → Answer) : Prop := ∀ s, ∃ a, (body s).2 = { s with ace := a }

theorem AceOnly.ite {b c : State → Answer} {p : State → Prop} [∀ s, Decidable (p s)] (hb : AceOnly b) (hc : AceOnly c) :
    AceOnly fun s => if p s then b s else c s := fun s => by
  dsimp only
  split
  · exact hb s
  · exact hc s

theorem aceOnly_refuse (c : ResultCode) : AceOnly fun s => s.refuse c := fun s => ⟨s.ace, rfl⟩

theorem aceOnly_set (x : State → ResultCode × ResultValues) (a : State → Ace) : AceOnly fun s => (x s, { s with ace := a s }) :=
  fun s => ⟨a s, rfl⟩

theorem aceOnly_classSet (p : ClassSetParams) : AceOnly (State.classSetBody p) := by
  unfold State.classSetBody
  cases fin? 8 p.index with
  | none => exact aceOnly_refuse _
  | some i =>
    cases classEntry? p with
    | none => exact aceOnly_refuse _
    | some e => exact .ite (aceOnly_refuse _) (.ite (aceOnly_refuse _) (aceOnly_set _ _))

theorem aceOnly_tariffSet (t : Tariff) : AceOnly (State.tariffSetBody t) :=
  .ite (aceOnly_refuse _) (.ite (aceOnly_refuse _) (aceOnly_set _ _))

theorem aceOnly_userSet (p : UserSetParams) : AceOnly (State.userSetBody p) := by
  unfold State.userSetBody
  cases userRecord? p with
  | none => exact aceOnly_refuse _
  | some x => exact .ite (aceOnly_refuse _) (.ite (aceOnly_refuse _) (aceOnly_set _ _))

theorem aceOnly_adjustBalance (u : Fin 256) (amount : Int) : AceOnly fun s => s.adjustBalance u amount :=
  .ite (aceOnly_refuse _) (aceOnly_set _ _)

theorem aceOnly_userAdjust (user : Nat) (amount : Int) : AceOnly (State.userAdjustBody user amount) := by
  unfold State.userAdjustBody
  cases fin? 256 user with
  | none => exact aceOnly_refuse _
  | some u =>
    refine .ite (aceOnly_refuse _) fun s => ?_
    cases (s.ace.users[u]).stored.state with
    | unused => exact aceOnly_refuse _ s
    | suspect => exact aceOnly_refuse _ s
    | active => exact aceOnly_adjustBalance u amount s
    | locked => exact aceOnly_adjustBalance u amount s

theorem aceOnly_userQuery (user : Nat) : AceOnly (State.userQueryBody user) := by
  unfold State.userQueryBody
  cases fin? 256 user with
  | none => exact aceOnly_refuse _
  | some u => exact fun s => ⟨s.ace, rfl⟩

theorem aceOnly_deptSet (dept : Nat) (allowance : Option Nat) : AceOnly (State.deptSetBody dept allowance) := by
  unfold State.deptSetBody
  cases fin? 16 dept with
  | none => exact aceOnly_refuse _
  | some d => exact .ite (aceOnly_refuse _) (.ite (aceOnly_refuse _) (aceOnly_set _ _))

theorem aceOnly_periodReset (which : DeptChoice) : AceOnly (State.periodResetBody which) := by
  unfold State.periodResetBody
  cases deptsNamed? which with
  | none => exact aceOnly_refuse _
  | some ds => exact aceOnly_set _ _

theorem aceOnly_meterQuery : AceOnly State.meterQueryBody := fun s => ⟨s.ace, rfl⟩

theorem aceOnly_servicePinSet (newPin : Word8) : AceOnly (State.servicePinSetBody newPin) :=
  .ite (aceOnly_refuse _) (aceOnly_set _ _)

theorem aceOnly_bayConfig (p : BayConfigParams) : AceOnly (State.bayConfigBody p) := by
  unfold State.bayConfigBody
  cases fin? 4 p.bay with
  | none => exact aceOnly_refuse _
  | some b =>
    cases bayConf? p with
    | none => exact aceOnly_refuse _
    | some c => exact aceOnly_set _ _

theorem aside_admin (s : State) (pin : Word8) {body : State → Answer} (h : AceOnly body) : Aside s (s.admin pin body).2 := by
  have hc := aside_credential s pin
  unfold State.admin
  split
  · next t v e =>
    rw [e] at hc
    exact hc
  · next t e =>
    rw [e] at hc
    obtain ⟨a, ha⟩ := h t
    rw [ha]
    exact hc.trans (aside_ace t a)

theorem aside_bayQuery (s : State) (bay : Nat) : Aside s (s.bayQuery bay).2 := by
  unfold State.bayQuery
  split <;> exact .refl s

/-! ## The memory path and the downstream port (chapter 1) -/

theorem aside_path (s : State) (p : Path) : Aside s { s with path := p } := ⟨rfl, rfl, rfl, rfl⟩

theorem aside_down (s : State) (d : Down) : Aside s { s with down := d } := ⟨rfl, rfl, rfl, rfl⟩

theorem aside_deny (s : State) (t : Txn) (d : Denial) : Aside s (s.deny t d) :=
  .ite (.ite ⟨rfl, rfl, rfl, rfl⟩ (.ite ⟨rfl, rfl, rfl, rfl⟩ ⟨rfl, rfl, rfl, rfl⟩)) (.ite ⟨rfl, rfl, rfl, rfl⟩ ⟨rfl, rfl, rfl, rfl⟩)

theorem aside_present (s : State) (t : Option Txn) : Aside s (s.present t) := by
  cases t <;> exact ⟨rfl, rfl, rfl, rfl⟩

theorem aside_joinHold (s : State) (t : Txn) (c : Option HoldCause) : Aside s (s.joinHold t c) := by
  cases c <;> exact ⟨rfl, rfl, rfl, rfl⟩

theorem aside_putHold (s : State) (n : Nat) (t : Txn) (c : Option HoldCause) : Aside s (s.putHold n t c) := by
  cases c <;> exact ⟨rfl, rfl, rfl, rfl⟩

theorem aside_grant (s : State) : Aside s s.grant := by
  unfold State.grant
  refine .ite (.refl s) ?_
  split
  · exact .refl s
  · exact ⟨rfl, rfl, rfl, rfl⟩
  · exact ⟨rfl, rfl, rfl, rfl⟩
  · exact .ite ⟨rfl, rfl, rfl, rfl⟩ ⟨rfl, rfl, rfl, rfl⟩

theorem aside_dropOrphan (s : State) (k : Nat) (d : Dir) : Aside s (s.dropOrphan k d) := by
  unfold State.dropOrphan
  split
  · exact .ite ⟨rfl, rfl, rfl, rfl⟩ (.refl s)
  · exact .refl s

theorem aside_offerAnchor (s : State) (a : Addr) (ls : List WriteLine) : Aside s (s.offerAnchor a ls) := by
  unfold State.offerAnchor
  split
  · refine .ite ?_ (.refl s)
    split
    · exact .ite ⟨rfl, rfl, rfl, rfl⟩ ⟨rfl, rfl, rfl, rfl⟩
    · exact .refl s
  · exact .refl s

theorem aside_handIndex (s : State) (w : WriteSlot) : Aside s (s.handIndex w) := by
  have htake : ∀ l, Aside s (s.takeIndex l) := fun l => by
    unfold State.takeIndex
    split
    · exact .ite ⟨rfl, rfl, rfl, rfl⟩ ⟨rfl, rfl, rfl, rfl⟩
    · exact .refl s
  unfold State.handIndex
  split
  · split
    · exact htake _
    · exact .refl s
  · exact .refl s

/-! ## The Ring Interface (chapter 10) -/

theorem aside_rci (s : State) (r : Rci) : Aside s { s with rci := r } := ⟨rfl, rfl, rfl, rfl⟩

theorem aside_startFetch (s : State) : Aside s s.startFetch := by
  unfold State.startFetch
  split
  · exact .ite ⟨rfl, rfl, rfl, rfl⟩ (.refl s)
  · exact .refl s

theorem aside_issueReportWrite (s : State) : Aside s s.issueReportWrite := by
  unfold State.issueReportWrite
  split
  · refine .ite ?_ (.refl s)
    split
    · exact ⟨rfl, rfl, rfl, rfl⟩
    · exact .refl s
  · exact .refl s

theorem aside_answerReportWrite (s : State) (i : Fin 8) (okay : Bool) : Aside s (s.answerReportWrite i okay) := by
  unfold State.answerReportWrite
  split
  · exact .ite ⟨rfl, rfl, rfl, rfl⟩ (.ite ⟨rfl, rfl, rfl, rfl⟩ (.ite ⟨rfl, rfl, rfl, rfl⟩ ⟨rfl, rfl, rfl, rfl⟩))
  · exact .refl s

theorem aside_issueIndexWrite (s : State) : Aside s s.issueIndexWrite := by
  unfold State.issueIndexWrite
  split
  · exact .ite ⟨rfl, rfl, rfl, rfl⟩ (.refl s)
  · exact .refl s

theorem aside_answerIndexWrite (s : State) (i : Fin 8) (okay : Bool) : Aside s (s.answerIndexWrite i okay) := by
  unfold State.answerIndexWrite
  split
  · exact .ite ⟨rfl, rfl, rfl, rfl⟩ ⟨rfl, rfl, rfl, rfl⟩
  · exact .refl s

theorem aside_standbyEnter (s : State) (mode : Nat) (tag : BitVec 16) : Aside s (s.standbyEnter mode tag).2 := by
  unfold State.standbyEnter
  split
  · exact .refl s
  · split
    · exact .refl s
    · split
      · exact .refl s
      · exact ⟨rfl, rfl, rfl, rfl⟩

/-! ## The joining of reports, and standby after phase DRAIN (R177, R178, R188, R189) -/

theorem aside_joinFault (s : State) : Aside s s.joinFault := by
  unfold State.joinFault
  split
  · exact .refl s
  · next time _ =>
    refine .ite ?_ (.refl s)
    rcases s.joinAt_cases time ⟨.accountFault s.ace.faults, 0, false⟩ with ⟨-, h⟩ | ⟨-, h⟩ <;> rw [h] <;> exact ⟨rfl, rfl, rfl, rfl⟩

theorem aside_joinAll (s : State) : Aside s s.joinAll := (aside_joinFault s).trans (aside_joinHanded _)

theorem aside_flushTrigger (s : State) : Aside s s.flushTrigger := by
  unfold State.flushTrigger
  split
  · exact aside_ace s _
  · exact .refl s

theorem aside_flushEnd (s : State) : Aside s s.flushEnd := by
  unfold State.flushEnd
  split
  · exact .ite ⟨rfl, rfl, rfl, rfl⟩ (.refl s)
  · exact .refl s

theorem aside_postEnd (s : State) : Aside s s.postEnd := by
  unfold State.postEnd
  split
  · exact .ite (aside_rci s _) (.refl s)
  · exact .refl s

theorem aside_wakeCheck (s : State) : Aside s s.wakeCheck := .ite ⟨rfl, rfl, rfl, rfl⟩ (.refl s)

end Sys2Proof.Machine
end

section
/-!
The shapes of the settled-state law over the operations that touch the jobs, the entries or the Wipe Queue, and over what falls due in an
event.
-/

namespace Sys2Proof.Machine

/-! ## Records (chapter 4) -/

/-- A change of ACE and of a job's counters. -/
theorem keepsShape_counters (s : State) (a : Ace) (j : Fin 16) (f : JobCounters → JobCounters) :
    KeepsShape s (({ s with ace := a } : State).modJob j fun q => { q with counters := f q.counters }) :=
  keepsShape_modJob { s with ace := a } j _ (Nat.le_refl _)

theorem keepsShape_settle (report : Bool) (s : State) (r : PageRecord) : KeepsShape s (s.settle report r) := by
  unfold State.settle
  simp only
  have hcharge := keepsShape_counters s (s.ace.postCharge r (s.price r)) r.job fun c => c.post (s.price r).charge (s.price r).colour
  have habort := keepsShape_counters s (s.ace.modReserved r.user (· - r.reserve)) r.job fun c => { c with aborted := sat32 (c.aborted + 1) }
  exact .ite (.ite hcharge hcharge) (.ite habort habort)

theorem keepsShape_mapContexts (s : State) (f : Context → Context) : KeepsShape s { s with jct := s.jct.mapContexts f } :=
  keepsShape_of_eq rfl rfl rfl fun j => Nat.le_of_eq (congrArg JobSlot.bound (mapContexts_slot s.jct f j) :)

theorem keepsShape_settleDue (s : State) : KeepsShape s s.settleDue := by
  have hdrop : ∀ t : State, KeepsShape t { t with jct := { t.jct with slots := t.jct.slots.map JobSlot.dropEmptyOwn } } := fun t =>
    keepsShape_of_eq rfl rfl rfl fun j => Nat.le_of_eq (congrArg JobSlot.bound (Vector.getElem_map ..) :)
  have hrelease : ∀ (t : State) (js : List (Fin 16)), KeepsShape t (t.releaseAssembly js) := fun t js => (aside_path t _).keepsShape
  unfold State.settleDue
  exact (keepsShape_mapContexts s _).trans ((hdrop _).trans ((hrelease _ _).trans (KeepsShape.foldl (keepsShape_settle true) _ _)))

theorem keepsShape_settleMarks (s : State) (marks : List LineMark) (sums : List Nat) : KeepsShape s (s.settleMarks marks sums) := by
  have hmark : ∀ (t : State) (m : LineMark) (d : Nat), KeepsShape t { t with jct := t.jct.returnMark m d } := fun t m d => by
    cases m with
    | none => exact .refl t
    | first n p => exact keepsShape_mapContexts t _
    | remark r p => exact .refl t
  have hfold : ∀ (ms : List (LineMark × Nat)) (s : State),
      KeepsShape s { s with jct := ms.foldl (fun j m => j.returnMark m.1 m.2) s.jct } := fun ms => by
    induction ms with
    | nil => exact fun s => .refl s
    | cons m ms ih => exact fun s => (hmark s m.1 m.2).trans (ih _)
  exact hfold _ s

theorem keepsShape_meterReturn (s : State) (r : ReadSlot) (lines : List Line) : KeepsShape s (s.meterReturn r lines) := by
  unfold State.meterReturn
  split
  · next p depth j _ _ =>
    have hdots : ∀ (t : State) (n : Nat), KeepsShape t (t.addDots j p n) := fun t n => keepsShape_modJob t j _ (Nat.le_refl _)
    exact (keepsShape_settleMarks s _ _).trans ((hdots _ _).trans ((sided_accrue p _).aside _).keepsShape)
  · exact .refl s

/-! ## The memory path (chapters 1, 2 and 4) -/

theorem keepsShape_addRef (s : State) (j : Option (Fin 16)) : KeepsShape s (s.addRef j) := by
  cases j with
  | none => exact .refl s
  | some j => exact keepsShape_modJob s j _ (Nat.le_refl _)

theorem keepsShape_lower (s : State) (e : Option (Fin 32)) (d : Down) : KeepsShape s { s with rgt := s.rgt.lower e, down := d } := by
  cases e <;> exact .refl s

theorem keepsShape_raise (s : State) (e : Option (Fin 32)) : KeepsShape s { s with rgt := s.rgt.raise e } := by
  cases e <;> exact .refl s

theorem keepsShape_releaseSlot (s : State) (e : Option (Fin 32)) (j : Option (Fin 16)) : KeepsShape s (s.releaseSlot e j) := by
  have hlower := keepsShape_lower s e { s.down with credits := s.down.credits + 1 }
  cases j with
  | none => exact hlower
  | some j => exact hlower.trans (keepsShape_modJob _ j _ (Nat.le_refl _))

theorem keepsShape_takeTrial (s : State) (j : Fin 16) (tr : Trial) (reserve : Nat) : KeepsShape s (s.takeTrial j tr reserve) := by
  unfold State.takeTrial
  simp only
  split
  · exact .refl s
  · refine KeepsShape.trans ?_ (KeepsShape.foldl (keepsShape_settle true) _ _)
    exact .refl s

theorem keepsShape_acceptEffects (s : State) (a : Accept) : KeepsShape s (s.acceptEffects a) := by
  have href : KeepsShape s (({ s with rgt := s.rgt.raise a.entry } : State).addRef a.job) :=
    (keepsShape_raise s a.entry).trans (keepsShape_addRef _ a.job)
  unfold State.acceptEffects
  simp only
  split
  · exact href.trans (keepsShape_takeTrial _ _ _ _)
  · exact href

theorem keepsShape_accept (s : State) (t : Txn) (a : Accept) : KeepsShape s (s.accept t a) := by
  unfold State.accept
  split
  · split
    · exact keepsShape_acceptEffects (s.placeRead _ _) a
    · exact .refl s
  · split
    · exact keepsShape_acceptEffects (s.placeWrite _ _) a
    · exact .refl s

theorem keepsShape_resolve (s : State) (t : Txn) (v : Verdict) : KeepsShape s (s.resolve t v).1 := by
  cases v with
  | accept a => exact keepsShape_accept s t a
  | deny d => exact (aside_deny s t d).keepsShape
  | holdCommit => exact .refl s
  | holdAssembly j =>
    have hroom : KeepsShape s { s with jct := s.jct.makeRoom } := .refl s
    exact hroom
  | quota i j => exact (aside_deny s t _).keepsShape.trans (keepsShape_modJob _ j _ (Nat.le_refl _))

theorem keepsShape_takePort (s : State) (d : Dir) : KeepsShape s (s.takePort d) := by
  unfold State.takePort
  split
  · exact .refl s
  · next t rest _ =>
    refine .ite ?_ (.refl s)
    exact (aside_path s (s.path.setPort d rest)).keepsShape.trans
      ((keepsShape_resolve _ t _).trans (aside_joinHold _ t _).keepsShape)

theorem keepsShape_takeReleased (s : State) : KeepsShape s s.takeReleased := by
  unfold State.takeReleased
  split
  · exact .refl s
  · next before h behind _ =>
    refine .ite ?_ (.refl s)
    exact (aside_path s { s.path with hold := before ++ behind }).keepsShape.trans
      ((keepsShape_resolve _ h.txn _).trans (aside_putHold _ _ h.txn _).keepsShape)

theorem keepsShape_returnRead (s : State) (i : Fin 32) (r : ReadSlot) (okay : Bool) (lines : List Line) :
    KeepsShape s (s.returnRead i r okay lines) := by
  have hmeter : ∀ up, KeepsShape s (if okay = true then s.meterReturn r up else s.meterLost r) := fun up =>
    .ite (keepsShape_meterReturn s r up) (keepsShape_settleMarks s r.marks _)
  have hfree : ∀ t : State, KeepsShape t (({ t with path := { t.path with reads := t.path.reads.set i none } } : State).releaseSlot
      r.entry r.job) := fun t =>
    keepsShape_releaseSlot { t with path := { t.path with reads := t.path.reads.set i none } } r.entry r.job
  exact (hmeter (upstreamLines r.view (s.keyOf r.job) r.addr lines)).trans (hfree _)

theorem keepsShape_completeRead (s : State) (ref : DnRef) (okay : Bool) (lines : List Line) :
    KeepsShape s (s.completeRead ref okay lines) := by
  unfold State.completeRead
  split
  · exact (aside_dropOrphan s _ .read).keepsShape
  · split
    · exact .ite (.refl s) (keepsShape_returnRead s _ _ okay lines)
    · exact .refl s

theorem keepsShape_completeWriteAt (s : State) (ref : DnRef) (okay : Bool) : KeepsShape s (s.completeWriteAt ref okay) := by
  have hanswer : ∀ (i : Fin 32) (w : WriteSlot), KeepsShape s (s.answerWrite i w okay) := fun i w => by
    have hfree : KeepsShape s ((({ s with path := { s.path with writes := s.path.writes.set i none } } : State).releaseSlot
        w.entry w.job).give (.response w.id .write okay [])) :=
      keepsShape_releaseSlot { s with path := { s.path with writes := s.path.writes.set i none } } w.entry w.job
    exact .ite (hfree.trans ((aside_handIndex _ w).trans (aside_offerAnchor _ _ _)).keepsShape) hfree
  unfold State.completeWriteAt
  split
  · exact (aside_dropOrphan s _ .write).keepsShape
  · split
    · exact hanswer _ _
    · exact .refl s

/-! ## The Region Table (section 1.5) -/

theorem keepsShape_completeCommit (s : State) : KeepsShape s s.completeCommit := by
  rcases s.completeCommit_cases with h | ⟨c, -, h⟩ <;> rw [h]
  · exact .refl s
  · have hset := keepsShape_setRegions s (s.carried c.changed) (s.carried_countLaw c.changed)
    have hhand : ∀ (t : State) (p : Path) (b : ReportBody) (tag : BitVec 16),
        KeepsShape t (({ t with path := p } : State).hand b tag) := fun t _ _ _ => .refl t
    exact hset.trans (hhand _ _ _ _)

theorem set_countLaw {g : Regions} (i : Fin 32) {e : Option RegionEntry} (he : ∀ x ∈ e, 1 ≤ x.count) (h : g.countLaw) :
    ({ g with shadow := g.shadow.set i e } : Regions).countLaw := fun k => by
  refine ⟨(h k).1, ?_⟩
  show ∀ x ∈ (g.shadow.set i e)[k], 1 ≤ x.count
  rw [get_set]
  split
  · exact he
  · exact (h k).2

theorem keepsShape_regionSet (s : State) (p : RegionSetParams) : KeepsShape s (s.regionSet p).2 := by
  unfold State.regionSet
  split
  · exact .refl s
  · split
    · next i e _ he =>
      split
      · exact keepsShape_setRegions s _ (set_countLaw i fun x hx => by cases hx; exact regionEntry?_count he)
      · exact .refl s
    · exact .refl s

theorem keepsShape_regionClear (s : State) (index : Nat) : KeepsShape s (s.regionClear index).2 := by
  unfold State.regionClear
  split
  · exact .refl s
  · split
    · next i _ => exact keepsShape_setRegions s _ (set_countLaw i fun x hx => nomatch hx)
    · exact .refl s

theorem keepsShape_regionsCommit (s : State) (tag : BitVec 16) : KeepsShape s (s.regionsCommit tag).2 := by
  unfold State.regionsCommit
  split
  · exact .refl s
  · split <;> exact .refl s

/-! ## The Wipe Engine (sections 9.1 to 9.3) -/

theorem keepsShape_modHead (s : State) (f : WipeEntry → WipeEntry) (hf : ∀ e, (f e).count = e.count) :
    KeepsShape s { s with wpe := s.wpe.modHead f } := keepsShape_wpe s _ (Wpe.modHead_shapeLaw hf)

theorem keepsShape_downHead (s : State) (d : Down) (f : WipeEntry → WipeEntry) (hf : ∀ e, (f e).count = e.count) :
    KeepsShape s { s with down := d, wpe := s.wpe.modHead f } :=
  (aside_down s d).keepsShape.trans (keepsShape_modHead { s with down := d } f hf)

theorem oneDone_count (e : WipeEntry) : e.oneDone.count = e.count := by
  unfold WipeEntry.oneDone
  split <;> rfl

theorem advance_count (e : WipeEntry) : e.advance.count = e.count := by
  unfold WipeEntry.advance
  split
  · split
    · rfl
    · split
      · rfl
      · split <;> rfl
  · rfl

theorem keepsShape_issueWipeWrite (s : State) : KeepsShape s s.issueWipeWrite := by
  unfold State.issueWipeWrite
  split
  · split
    · exact .ite (keepsShape_downHead s _ _ fun _ => rfl) (.refl s)
    · exact .refl s
  · exact .refl s

theorem keepsShape_issueVerifyRead (s : State) : KeepsShape s s.issueVerifyRead := by
  unfold State.issueVerifyRead
  split
  · split
    · exact .ite (keepsShape_downHead s _ _ fun _ => rfl) (.refl s)
    · exact .refl s
  · exact .refl s

theorem keepsShape_answerWipeWrite (s : State) (i : Fin 8) (okay : Bool) : KeepsShape s (s.answerWipeWrite i okay) := by
  unfold State.answerWipeWrite
  split
  · refine .ite (aside_down s _).keepsShape (keepsShape_downHead s _ _ fun e => ?_)
    rw [advance_count, oneDone_count]
    split <;> rfl
  · exact .refl s

theorem keepsShape_returnVerifyRead (s : State) (i : Fin 8) (okay : Bool) (lines : List Line) :
    KeepsShape s (s.returnVerifyRead i okay lines) := by
  unfold State.returnVerifyRead
  split
  · refine .ite (.refl s) (keepsShape_downHead s _ _ fun e => ?_)
    rw [advance_count, oneDone_count]
    rfl
  · exact .refl s

theorem keepsShape_startWipe (s : State) : KeepsShape s s.startWipe := .ite (keepsShape_modHead s _ fun _ => rfl) (.refl s)

theorem keepsShape_jobWiped (s : State) (j : Fin 16) : KeepsShape s (s.jobWiped j) := by
  unfold State.jobWiped
  simp only
  have hless : KeepsShape s (s.modJob j fun q => { q with wipes := q.wipes - 1 }) := keepsShape_modJob s j _ (Nat.le_refl _)
  split
  · exact hless.trans (keepsShape_modJob _ j JobSlot.freed (Nat.zero_le _))
  · exact hless

theorem keepsShape_finishWipe (s : State) : KeepsShape s s.finishWipe := by
  unfold State.finishWipe
  split
  · exact .refl s
  · next e rest hq =>
    have hleft : ∀ (b : ReportBody) (tag : BitVec 16),
        KeepsShape s (({ s with wpe := { s.wpe with queue := rest } } : State).hand b tag) := fun _ _ =>
      keepsShape_wpe s { s.wpe with queue := rest } (Wpe.tail_shapeLaw hq)
    refine .ite ?_ (.refl s)
    simp only
    split
    · exact hleft _ _
    · exact (hleft _ _).trans (keepsShape_jobWiped _ _)

theorem keepsShape_wipeRange (s : State) (tag : BitVec 16) (p : WipeRangeParams) : KeepsShape s (s.wipeRange tag p).2 := by
  unfold State.wipeRange
  split
  · exact .refl s
  · split
    · exact .refl s
    · next hok =>
      have hcount : 1 ≤ p.count := by
        simp only [rangeOk, Bool.not_and, Bool.or_eq_true, Bool.not_eq_true', decide_eq_true_eq, decide_eq_false_iff_not] at hok
        omega
      split
      · exact .refl s
      · split
        · exact .refl s
        · split
          · exact .refl s
          · exact keepsShape_wpe s _ (Wpe.join_shapeLaw hcount)

/-! ## Jobs (chapter 3) -/

theorem left_bound (q : JobSlot) (a : Nat) : (q.left a).bound ≤ q.bound := by
  unfold JobSlot.left
  split
  · exact Nat.zero_le _
  · exact Nat.le_refl _

theorem keepsShape_leaveClosing (s : State) (j : Fin 16) : KeepsShape s (s.leaveClosing j) := by
  have hkeys : ∀ (t : State) (ks : Vector (Option Key) 16), KeepsShape t { t with keys := ks } := fun t _ => .refl t
  have hskipped : ∀ (t : State) (n : Nat) (rs : List (Nat × Nat)) (c : SkipCause), KeepsShape t (t.reportSkipped j n rs c) :=
    fun t _ _ _ => .ite (.refl t) (.refl t)
  have hhand : ∀ (t : State) (b : ReportBody) (tag : BitVec 16), KeepsShape t (t.hand b tag) := fun t _ _ => .refl t
  unfold State.leaveClosing
  simp only
  refine KeepsShape.trans ?_ (aside_tellEnded _ _ _).keepsShape
  refine KeepsShape.trans ?_ (hskipped _ _ _ _)
  refine KeepsShape.trans ?_ (hhand _ _ _)
  refine KeepsShape.trans ?_ (keepsShape_modJob _ j _ (left_bound _ _))
  refine KeepsShape.trans ((keepsShape_appendWipes s j (min 32 s.wpe.room)).trans (hkeys _ (s.keys.set j none))) ?_
  exact keepsShape_setRegions _ _ (Regions.invalidate_countLaw _ _)

theorem keepsShape_leaveIfDue (s : State) (j : Fin 16) : KeepsShape s (s.leaveIfDue j) :=
  .ite (keepsShape_leaveClosing s j) (.refl s)

theorem keepsShape_leaveAll (s : State) : KeepsShape s s.leaveAll := KeepsShape.foldl keepsShape_leaveIfDue _ s

theorem keepsShape_erase (s : State) : KeepsShape s s.erase := by
  have hjob : ∀ (t : State) (j : Fin 16), KeepsShape t (t.eraseJob j) := fun t j => by
    have hfreed : KeepsShape t { (t.modJob j JobSlot.freed) with keys := t.keys.set j none } :=
      keepsShape_modJob t j JobSlot.freed (Nat.zero_le _)
    exact hfreed.trans (aside_tellEnded _ _ _).keepsShape
  exact (keepsShape_setRegions s _ (Regions.invalidate_countLaw _ _)).trans (KeepsShape.foldl hjob _ _)

theorem aside_detachedAs (s : State) (x : Standby) : Aside s (s.detachedAs x) := (sided_detachAll.aside s).trans (aside_rci _ _)

theorem keepsShape_drainEnd (s : State) : KeepsShape s s.drainEnd := by
  unfold State.drainEnd
  split
  · next m tag n _ =>
    refine .ite ?_ (.refl s)
    cases m with
    | retain =>
      rw [eraseAndDetach_retain]
      exact (aside_detachedAs s _).keepsShape
    | erase =>
      rw [eraseAndDetach_erase]
      exact (keepsShape_erase s).trans (aside_detachedAs s.erase _).keepsShape
  · exact .refl s

theorem keepsShape_consequences (s : State) : KeepsShape s s.consequences :=
  (keepsShape_settleDue s).trans ((keepsShape_completeCommit _).trans ((keepsShape_finishWipe _).trans ((keepsShape_leaveAll _).trans
    ((keepsShape_startWipe _).trans ((keepsShape_drainEnd _).trans
      ((aside_flushTrigger _).trans (aside_flushEnd _)).keepsShape)))))

/-! ## Commands on jobs (R45 to R51, R58 to R60) -/

theorem keepsShape_openSlot (s : State) (k : JobOpenOk) : KeepsShape s (s.openSlot k).2 := by
  unfold State.openSlot
  split
  · exact .refl s
  · split
    · exact .refl s
    · next j _ =>
      refine keepsShape_of_eq rfl rfl rfl fun i => ?_
      show ((s.jct.slots.set j (k.slot (s.jct.openCounter + 1)))[i]).bound ≤ _
      rw [get_set]
      split
      · exact Nat.zero_le _
      · exact Nat.le_refl _

theorem keepsShape_jobOpen (s : State) (p : JobOpenParams) : KeepsShape s (s.jobOpen p).2 := by
  unfold State.jobOpen
  split
  · exact .refl s
  · split
    · exact .refl s
    · split
      · exact keepsShape_openSlot s _
      · split
        · exact (aside_pinChecked s _ true).keepsShape.trans (keepsShape_openSlot _ _)
        · exact (aside_pinChecked s _ false).keepsShape

theorem keepsShape_jobRelease (s : State) (job : Nat) (pin : Word8) : KeepsShape s (s.jobRelease job pin).2 := by
  unfold State.jobRelease
  split
  · exact .refl s
  · next j _ =>
    split
    · exact .refl s
    · split
      · have hchecked := (aside_pinChecked s (s.job j).user true).keepsShape
        split
        · exact .refl s
        · split
          · exact (aside_pinChecked s _ false).keepsShape
          · simp only
            split
            · exact hchecked
            · exact hchecked.trans (keepsShape_modJob _ j _ (Nat.le_refl _))
      · exact .refl s

theorem keepsShape_ownContext (s : State) (m : Marked) : KeepsShape s (s.ownContext m) := keepsShape_modJob s m.job _ (Nat.le_refl _)

theorem keepsShape_jobClose (s : State) (job : Nat) (tag : BitVec 16) : KeepsShape s (s.jobClose job tag).2 := by
  have hpending : ∀ (t : State) (j : Fin 16), KeepsShape t (if t.jct.isStacked j = true
      then t.modJob j fun q => { q with closePending := true } else t) := fun t j => .ite (keepsShape_modJob t j _ (Nat.le_refl _)) (.refl t)
  have hunmark : ∀ (t : State) (m : Marked), KeepsShape t (({ t with jct := { t.jct with marking := none } } : State).ownContext m) :=
    fun t m => keepsShape_ownContext { t with jct := { t.jct with marking := none } } m
  have hclose : ∀ j, KeepsShape s (s.closeJob j tag) := fun j => by
    refine (keepsShape_modJob s j (fun q => { q with state := .closing, closeTag := tag }) (Nat.le_refl _)).trans ?_
    unfold State.closeJob
    simp only
    split
    · exact .ite (hunmark _ _) (hpending _ j)
    · exact hpending _ j
  unfold State.jobClose
  split
  · exact .refl s
  · split
    · exact hclose _
    · exact .refl s

theorem keepsShape_mark (s : State) (j : Fin 16) : KeepsShape s (s.mark j) :=
  keepsShape_modJob { s with jct := { s.jct with marking := some ⟨j, .fresh⟩ } } j _ (Nat.le_refl _)

theorem keepsShape_markSelect (s : State) (job : Nat) : KeepsShape s (s.markSelect job).2 := by
  unfold State.markSelect
  split
  · exact .refl s
  · split
    · exact .refl s
    · split
      · exact .refl s
      · exact keepsShape_mark s.releaseMarking _

theorem keepsShape_markInterrupt (s : State) (job : Nat) : KeepsShape s (s.markInterrupt job).2 := by
  unfold State.markInterrupt
  split
  · exact .refl s
  · split
    · exact .refl s
    · split
      · exact keepsShape_mark s _
      · split
        · exact .refl s
        · next m _ _ => exact keepsShape_mark { s.releaseMarking with jct := { s.jct with stack := m :: s.jct.stack } } _

theorem keepsShape_markResume (s : State) : KeepsShape s s.markResume.2 := by
  have hpop : ∀ (l : List Marked) (t : State) (n : Nat), KeepsShape t (t.popStack l n).1 := fun l => by
    induction l with
    | nil => exact fun t _ => .refl t
    | cons m l ih =>
      intro t n
      unfold State.popStack
      split
      · exact (keepsShape_ownContext t m).trans (ih _ _)
      · exact .refl t
  unfold State.markResume
  split
  · exact .refl s
  · split
    · exact .refl s
    · exact hpop s.jct.stack s.releaseMarking 0

end Sys2Proof.Machine
end

section
/-!
Every command keeps the shapes: the ring commands, the link reset, and the rows of the table one by one.
-/

namespace Sys2Proof.Machine

/-! ## Every ring command -/

theorem KeepsShape.report {s : State} {a : Answer} (kind tag : BitVec 16) (h : KeepsShape s a.2) : KeepsShape s (report kind tag a) := by
  have hhanded : KeepsShape a.2 (Sys2Proof.Machine.report kind tag a) := .refl a.2
  exact h.trans hhanded

theorem Aside.report {s : State} {a : Answer} (kind tag : BitVec 16) (h : Aside s a.2) : KeepsShape s (report kind tag a) :=
  h.keepsShape.report kind tag

theorem keepsShape_runCommand (c : Instr) (s : State) : KeepsShape s (runCommand c s) := by
  cases c with
  | regionSet tag p => exact (keepsShape_regionSet s p).report _ _
  | regionClear tag i => exact (keepsShape_regionClear s i).report _ _
  | regionsCommit tag => exact (keepsShape_regionsCommit s tag).report _ _
  | captureClear tag => exact KeepsShape.report (a := (_, s.clearCapture)) _ _ (.refl s)
  | jobOpen tag p => exact (keepsShape_jobOpen s p).report _ _
  | jobRelease tag j pin => exact (keepsShape_jobRelease s j pin).report (a := plainAnswer _) _ _
  | jobClose tag j => exact (keepsShape_jobClose s j tag).report (a := plainAnswer _) _ _
  | jobQuery tag j => exact KeepsShape.report (a := (_, s)) _ _ (.refl s)
  | markSelect tag j => exact (keepsShape_markSelect s j).report (a := plainAnswer _) _ _
  | markInterrupt tag j => exact (keepsShape_markInterrupt s j).report _ _
  | markResume tag => exact (keepsShape_markResume s).report _ _
  | classSet tag p => exact (aside_admin s p.pin (aceOnly_classSet p)).report _ _
  | tariffSet tag p => exact (aside_admin s p.pin (aceOnly_tariffSet _)).report _ _
  | userSet tag p => exact (aside_admin s p.servicePin (aceOnly_userSet p)).report _ _
  | userAdjust tag pin u a => exact (aside_admin s pin (aceOnly_userAdjust u a)).report _ _
  | userQuery tag pin u => exact (aside_admin s pin (aceOnly_userQuery u)).report _ _
  | deptSet tag pin d a => exact (aside_admin s pin (aceOnly_deptSet d a)).report _ _
  | periodReset tag pin w => exact (aside_admin s pin (aceOnly_periodReset w)).report _ _
  | meterQuery tag pin => exact (aside_admin s pin aceOnly_meterQuery).report _ _
  | servicePinSet tag pin x => exact (aside_admin s pin (aceOnly_servicePinSet x)).report _ _
  | bayQuery tag b => exact (aside_bayQuery s b).report _ _
  | bayConfig tag p => exact (aside_admin s p.pin (aceOnly_bayConfig p)).report _ _
  | wipeRange tag p => exact (keepsShape_wipeRange s tag p).report _ _
  | standbyEnter tag m => exact (aside_standbyEnter s m tag).report _ _
  | unknownKind tag x => exact KeepsShape.report (a := (_, s)) _ _ (.refl s)
  | _ => exact .refl s

theorem keepsShape_direct (s : State) (c : Instr) : KeepsShape s (s.direct (runCommand c)) := by
  have hheld : KeepsShape s { s with rci := { s.rci with held := true } } := .refl s
  exact .ite (hheld.trans (keepsShape_runCommand c _)) (.refl s)

theorem keepsShape_refuseKind (tag kind : BitVec 16) (s : State) : KeepsShape s (State.refuseKind tag kind s) :=
  .ite (.refl s) (keepsShape_direct s (.unknownKind tag kind))

theorem keepsShape_returnFetch (s : State) (i : Fin 8) (okay : Bool) (l : Line) : KeepsShape s (s.returnFetch i okay l) := by
  have hdown := fun d => (aside_down s d).keepsShape
  have hdone : ∀ (t : State) (r : Rci), KeepsShape t { t with rci := r } := fun t r => (aside_rci t r).keepsShape
  have hskip : ∀ t : State, KeepsShape t t.skipCommand := fun t => .refl t
  unfold State.returnFetch
  split
  · refine .ite (hdown _) (.ite ?_ (.ite ((hdown _).trans (hskip _)) (hdown _)))
    exact (hdown _).trans ((keepsShape_runCommand (commandOfLine l) _).trans (hdone _ _))
  · exact .refl s

/-! ## The link reset (R64) -/

theorem keepsShape_freeTrackers (s : State) : KeepsShape s s.freeTrackers :=
  keepsShape_of_eq rfl rfl rfl fun j => by
    have hslot : s.freeTrackers.job j = { (s.jct.mapContexts Context.loseLines).slots[j] with refs := 0 } := Vector.getElem_map ..
    rw [hslot, mapContexts_slot]
    exact Nat.le_refl _

theorem keepsShape_endContexts (s : State) : KeepsShape s s.endContexts := by
  have hended : ∀ t : State, KeepsShape t { t with jct := { t.jct with
      marking := none, stack := [], slots := t.jct.slots.map fun q => { q with own := none } } } := fun t =>
    keepsShape_of_eq rfl rfl rfl fun j => Nat.le_of_eq (congrArg JobSlot.bound (Vector.getElem_map ..) :)
  exact (KeepsShape.foldl (keepsShape_settle false) _ s).trans (hended _)

theorem keepsShape_forceWipes (s : State) (j : Fin 16) : KeepsShape s (s.forceWipes j) := by
  have hskipped : ∀ (t : State) (n : Nat) (rs : List (Nat × Nat)), KeepsShape t (t.reportSkipped j n rs .queueFull) := fun t _ _ =>
    .ite (.refl t) (.refl t)
  exact (keepsShape_appendWipes s j s.wpe.room).trans ((keepsShape_modJob _ j _ (Nat.le_refl _)).trans (hskipped _ _ _))

theorem keepsShape_clearKeysAndRegions (s : State) : KeepsShape s s.clearKeysAndRegions := by
  have hkeys : KeepsShape s { s with keys := Vector.replicate 16 none } := .refl s
  have hnone : ∀ i : Fin 32, (Vector.replicate 32 none : RegionTable)[i] = none := fun i => Vector.getElem_replicate i.isLt
  refine hkeys.trans (keepsShape_setRegions _ _ fun _ i => ⟨fun e he => ?_, fun e he => ?_⟩)
  · rw [hnone] at he
    cases he
  · rw [hnone] at he
    cases he

theorem forced_bound (q : JobSlot) : q.forced.bound ≤ q.bound := by
  unfold JobSlot.forced
  split
  · exact Nat.zero_le _
  · exact Nat.le_refl _

theorem keepsShape_forceJobs (s : State) : KeepsShape s s.forceJobs := by
  have hwipes : ∀ t : State, KeepsShape t (s.jct.liveJobs.foldl State.forceWipes t) := KeepsShape.foldl keepsShape_forceWipes _
  have hforced : ∀ t : State, KeepsShape t (s.jct.liveJobs.foldl State.forceState t) :=
    KeepsShape.foldl (fun t j => keepsShape_modJob t j _ (forced_bound _)) _
  have htold : ∀ (xs : List (Fin 16 × Bool)) (t : State), KeepsShape t (xs.foldl State.forceTellAs t) :=
    KeepsShape.foldl fun t x => (aside_tellEnded t (t.job x.1).user x.2).keepsShape
  exact (keepsShape_freeTrackers s).trans ((keepsShape_endContexts _).trans ((hwipes _).trans
    ((keepsShape_clearKeysAndRegions _).trans ((hforced _).trans (htold _ _)))))

theorem keepsShape_linkReset (s : State) (straps : BitVec 2) : KeepsShape s (s.linkReset straps) := by
  have hbegin : KeepsShape s { s with path := s.path.linkReset, rci := s.rci.linkReset straps } := .refl s
  have hforced := hbegin.trans (keepsShape_forceJobs _)
  exact .ite (hforced.trans (sided_firstPolls.aside _).keepsShape) hforced

end Sys2Proof.Machine
end

section
/-!
What the settling of records leaves, said once: the due records and the own contexts without records are gone from the contexts, and the
postings reach ACE, the counters of jobs and the reports handed (R84, R85, R104, R105).
-/

namespace Sys2Proof.Machine

/-- A posting reaches ACE, the counters of jobs and the reports handed, and nothing else. -/
structure PostsOnly (s t : State) : Prop where
  rest : t = { s with ace := t.ace, jct := { s.jct with slots := t.jct.slots }, handed := t.handed }
  jobs : ∀ j, t.job j = { s.job j with counters := (t.job j).counters }

theorem PostsOnly.refl (s : State) : PostsOnly s s := ⟨rfl, fun _ => rfl⟩

theorem PostsOnly.trans {s t u : State} (h : PostsOnly s t) (g : PostsOnly t u) : PostsOnly s u where
  rest := by
    have hu := g.rest
    rw [h.rest] at hu
    exact hu
  jobs j := by
    have hu := g.jobs j
    rw [h.jobs j] at hu
    exact hu

theorem PostsOnly.foldl {α : Type} {f : State → α → State} (hf : ∀ s a, PostsOnly s (f s a)) (as : List α) (s : State) :
    PostsOnly s (as.foldl f s) := by
  induction as generalizing s with
  | nil => exact .refl s
  | cons a as ih => exact (hf s a).trans (ih (f s a))

theorem postsOnly_counters (s : State) (a : Ace) (j : Fin 16) (f : JobCounters → JobCounters) :
    PostsOnly s (({ s with ace := a } : State).modJob j fun q => { q with counters := f q.counters }) := by
  refine ⟨rfl, fun k => ?_⟩
  rw [State.modJob_job]
  split
  · rfl
  · rfl

theorem postsOnly_settle (report : Bool) (s : State) (r : PageRecord) : PostsOnly s (s.settle report r) := by
  have hreport : ∀ (t : State) (b : ReportBody), PostsOnly t (if report then t.hand b else t) := fun t b => by
    split
    · exact ⟨rfl, fun _ => rfl⟩
    · exact .refl t
  unfold State.settle
  split
  · exact (postsOnly_counters s (s.ace.postCharge r (s.price r)) r.job
      fun c => c.post (s.price r).charge (s.price r).colour).trans (hreport _ (.pageCharged (s.price r)))
  · exact (postsOnly_counters s (s.ace.modReserved r.user (· - r.reserve)) r.job
      fun c => { c with aborted := sat32 (c.aborted + 1) }).trans (hreport _ (.pageAborted r))

/-- JCT without its due records, the trackers tied to them untied, and without own contexts that hold no record. -/
def Jobs.withoutDue (j : Jobs) : Jobs :=
  { (j.mapContexts Context.dropDue) with slots := (j.mapContexts Context.dropDue).slots.map JobSlot.dropEmptyOwn }

/-- The slots of the jobs with a due record, context by context. -/
def Jobs.dueOwners (j : Jobs) : List (Fin 16) := (j.contexts.filter fun m => m.ctx.queue.any PageRecord.isDue).map Marked.job

/-- The part when the due records have left, before ACE posts them. -/
def State.withoutDue (s : State) : State := ({ s with jct := s.jct.withoutDue } : State).releaseAssembly s.jct.dueOwners

theorem settleDue_eq_posted (s : State) : s.settleDue = (sortRecords s.jct.due).foldl (State.settle true) s.withoutDue := rfl

theorem settleDue_posts (s : State) : PostsOnly s.withoutDue s.settleDue := PostsOnly.foldl (postsOnly_settle true) _ _

theorem withoutDue_slot (j : Jobs) (i : Fin 16) : j.withoutDue.slots[i] =
    { j.slots[i] with own := ((j.slots[i]).own.map Context.dropDue).filter fun c => !c.queue.isEmpty } := by
  have hslot : j.withoutDue.slots[i] = ((j.mapContexts Context.dropDue).slots[i]).dropEmptyOwn := Vector.getElem_map ..
  rw [hslot, mapContexts_slot]
  rfl

theorem dropDue_undue (c : Context) : ∀ r ∈ c.dropDue.queue, r.isDue = false := fun r hr => by
  simpa using (List.mem_filter.1 hr).2

/-- No record of what remains is due, and no own context is empty. -/
theorem withoutDue_metered (j : Jobs) : j.withoutDue.metered = true := by
  have hown : ∀ (i : Fin 16), ∀ c ∈ (j.withoutDue.slots[i]).own,
      (∃ d ∈ (j.slots[i]).own, d.dropDue = c) ∧ c.queue ≠ [] := fun i c hc => by
    rw [withoutDue_slot] at hc
    obtain ⟨hmap, hne⟩ := Option.mem_filter_iff.1 hc
    exact ⟨Option.mem_map.1 hmap, by simpa using hne⟩
  refine j.withoutDue.metered_iff.2 ⟨fun m hm => ?_, fun i c hc => (hown i c hc).2⟩
  have hdropped : ∃ c : Context, m.ctx = c.dropDue := by
    rcases (Jobs.mem_contexts_iff _ m).1 hm with hm | hm | ⟨i, c, hc, rfl⟩
    · obtain ⟨x, -, rfl⟩ := Option.mem_map.1 hm
      exact ⟨x.ctx, rfl⟩
    · obtain ⟨x, -, rfl⟩ := List.mem_map.1 hm
      exact ⟨x.ctx, rfl⟩
    · obtain ⟨⟨d, -, rfl⟩, -⟩ := hown i c hc
      exact ⟨d, rfl⟩
  obtain ⟨c, hc⟩ := hdropped
  rw [hc]
  exact dropDue_undue c

/-- A posting leaves the contexts as they are. -/
theorem PostsOnly.metered {s t : State} (h : PostsOnly s t) (hm : s.jct.metered = true) : t.jct.metered = true :=
  Jobs.metered_congr hm (congrArg (fun u : State => u.jct.marking) h.rest :) (congrArg (fun u : State => u.jct.stack) h.rest :)
    fun i => (congrArg JobSlot.own (h.jobs i) :)

theorem settleDue_metered (s : State) : s.settleDue.jct.metered = true := (settleDue_posts s).metered (withoutDue_metered s.jct)

end Sys2Proof.Machine
end

section
/-!
Nothing that an event must bring about is left undone after it: each consequence brings about what is due and leaves undue what the
consequences before it have brought about (R15, R52, R84, R170, R173, R177, R178, R189).
-/

namespace Sys2Proof.Machine

/-! ## Records, a commit, and the head wipe -/

/-- What is due before a job leaves CLOSING has come about: no record waits to settle, no commit to complete, and the head wipe is not
done. -/
structure Cleared (s : State) : Prop where
  metered : s.jct.metered = true
  commit : s.rgt.commitDue = false
  wiped : s.wpe.doneDue = false

/-- Contexts that go with their slots, where others stand, leave nothing to settle. -/
theorem metered_of_fewer {j k : Jobs} (h : j.metered = true) (hm : k.marking = j.marking) (hs : k.stack = j.stack)
    (ho : ∀ i : Fin 16, ∀ c ∈ (k.slots[i]).own, c ∈ (j.slots[i]).own) : k.metered = true := by
  rw [Jobs.metered_iff] at h ⊢
  refine ⟨fun m hmem => h.1 m ?_, fun i c hc => h.2 i c (ho i c hc)⟩
  rw [Jobs.mem_contexts_iff] at hmem ⊢
  rw [← hm, ← hs]
  exact hmem.imp_right (Or.imp_right fun ⟨i, c, hc, e⟩ => ⟨i, c, ho i c hc, e⟩)

/-- A change of a slot that brings no own context. -/
theorem metered_dropOwn {s : State} (h : s.jct.metered = true) (j : Fin 16) {f : JobSlot → JobSlot}
    (hf : ∀ c ∈ (f (s.job j)).own, c ∈ (s.job j).own) : (s.modJob j f).jct.metered = true := by
  refine metered_of_fewer h rfl rfl fun i c hc => ?_
  have hslot : c ∈ ((s.modJob j f).job i).own := hc
  rw [State.modJob_job] at hslot
  split at hslot
  · next hi =>
    subst hi
    exact hf c hslot
  · exact hslot

theorem completeCommit_undue (s : State) : s.completeCommit.rgt.commitDue = false := by
  by_cases h : s.rgt.commitDue = true
  · obtain ⟨c, hc, hz⟩ := s.rgt.commitDue_iff.1 h
    refine commitDue_of_none ?_
    have hrgt : s.completeCommit.rgt = s.carried c.changed := by
      simp only [s.completeCommit_some hc hz, State.hand_rgt, State.setRegions_rgt]
    rw [hrgt, s.carried_eq]
  · have hundue : s.rgt.commitDue = false := by simpa using h
    rw [s.completeCommit_eq hundue]
    exact hundue

theorem jobWiped_metered {s : State} (h : s.jct.metered = true) (j : Fin 16) : (s.jobWiped j).jct.metered = true := by
  have hless : (s.modJob j fun q => { q with wipes := q.wipes - 1 }).jct.metered = true := metered_dropOwn h j fun _ hc => hc
  unfold State.jobWiped
  simp only
  split
  · exact metered_dropOwn hless j (freed_own _)
  · exact hless

theorem jobWiped_wpe (s : State) (j : Fin 16) : (s.jobWiped j).wpe = s.wpe := by
  unfold State.jobWiped
  simp only
  split <;> rfl

theorem finishWipe_metered {s : State} (h : s.jct.metered = true) : s.finishWipe.jct.metered = true := by
  unfold State.finishWipe
  split
  · exact h
  · next e rest _ =>
    have hleft : ∀ (b : ReportBody) (tag : BitVec 16),
        (({ s with wpe := { s.wpe with queue := rest } } : State).hand b tag).jct.metered = true := fun _ _ => h
    split
    · simp only
      split
      · exact hleft _ _
      · exact jobWiped_metered (hleft _ _) _
    · exact h

/-- A WAITING head is not done. -/
theorem doneDue_of_waiting {w : Wpe} (h : ∀ e ∈ w.queue, e.progress = .waiting) : w.doneDue = false := by
  cases hq : w.queue with
  | nil => simp [Wpe.doneDue, hq]
  | cons e rest => simp [Wpe.doneDue, hq, WipeEntry.isDone, h e (hq ▸ List.mem_cons_self)]

/-- What comes behind a head that has completed is WAITING (R170). -/
theorem finishWipe_undone {s : State} (h : s.wpe.shapeLaw) : s.finishWipe.wpe.doneDue = false := by
  cases hd : s.wpe.doneDue with
  | false => rw [s.finishWipe_eq hd]; exact hd
  | true =>
    cases hq : s.wpe.queue with
    | nil => simp [Wpe.doneDue, hq] at hd
    | cons e rest =>
      have hdone : e.isDone = true := by simpa [Wpe.doneDue, hq] using hd
      have hqueue : s.finishWipe.wpe.queue = rest := by
        simp only [State.finishWipe, hq, hdone, if_true]
        split
        · rfl
        · rw [jobWiped_wpe]
          rfl
      refine doneDue_of_waiting fun x hx => h.1 x ?_
      rw [hqueue] at hx
      rw [hq]
      exact hx

/-- After the first three consequences, records, commit and head wipe are cleared. -/
theorem cleared (s : State) (h : s.shaped) : Cleared s.settleDue.completeCommit.finishWipe where
  metered := finishWipe_metered (by rw [State.completeCommit_metered]; exact settleDue_metered s)
  commit := by
    rw [(wipeDone_finishWipe _).rgt]
    exact completeCommit_undue _
  wiped := finishWipe_undone (((keepsShape_settleDue s).trans (keepsShape_completeCommit _)) h).1

/-! ## Jobs in CLOSING (R52) -/

theorem doneDue_append {w v : Wpe} {more : List WipeEntry} (h : w.doneDue = false) (hv : v.queue = w.queue ++ more)
    (hmore : ∀ e ∈ more, e.progress = .waiting) : v.doneDue = false := by
  cases hq : w.queue with
  | nil =>
    refine doneDue_of_waiting fun e he => hmore e ?_
    rwa [hv, hq] at he
  | cons e rest =>
    rw [Wpe.doneDue, hq] at h
    rw [Wpe.doneDue, hv, hq]
    exact h

theorem invalidate_commitDue (g : Regions) (gone : RegionEntry → Bool) : (g.invalidate gone).commitDue = g.commitDue := rfl

theorem cleared_leaveClosing {s : State} (h : Cleared s) {j : Fin 16} (hj : s.mayLeave j = true) : Cleared (s.leaveClosing j) where
  metered := by
    have hl := leavesClosing s j
    refine metered_of_fewer h.metered hl.marking hl.stack fun i c hc => ?_
    have hjob : c ∈ ((s.leaveClosing j).job i).own := hc
    by_cases hi : i = j
    · have hown : (s.job j).own = none := by
        simp only [State.mayLeave, Bool.and_eq_true, Option.isNone_iff_eq_none] at hj
        exact hj.1.2
      rw [hi, hl.own hown] at hjob
      cases hjob
    · rw [hl.others i hi] at hjob
      exact hjob
  commit := by
    rw [(leavesClosing s j).rgt, invalidate_commitDue]
    exact h.commit
  wiped := by
    have hqueue := congrArg Wpe.queue ((leavesClosing s j).wpe.trans (appendWipes_wpe s j _))
    refine doneDue_append h.wiped hqueue fun e he => ?_
    obtain ⟨k, -, rfl⟩ := List.mem_mapIdx.1 he
    rfl

/-- A job that may leave after another has left could before: its bound range count has not fallen, and the room has not grown. -/
theorem mayLeave_of_leaveClosing {s : State} (hb : s.boundLaw) {k j : Fin 16} (h : (s.leaveClosing k).mayLeave j = true) :
    s.mayLeave j = true ∧ j ≠ k := by
  have hl := leavesClosing s k
  obtain ⟨hclosing, hrefs, hmark, hstack⟩ := mayLeave_facts h
  have hne : j ≠ k := fun e => by
    rw [e, hl.state] at hclosing
    split at hclosing <;> cases hclosing
  refine ⟨?_, hne⟩
  have hjob := hl.others j hne
  have hranges : ((s.leaveClosing k).rgt.rangesOf j).length = (s.rgt.rangesOf j).length := by rw [hl.rgt, rangesOf_invalidate _ hne]
  have hroom : (s.leaveClosing k).wpe.room ≤ s.wpe.room := by
    rw [hl.wpe, appendWipes_wpe, Wpe.room, Wpe.room, List.length_append]
    omega
  have hbound := hb j
  have hwait : (s.leaveClosing k).jct.isMarking j = s.jct.isMarking j ∧ (s.leaveClosing k).jct.isStacked j = s.jct.isStacked j := by
    simp only [Jobs.isMarking, Jobs.isStacked, hl.marking, hl.stack, and_self]
  simp only [State.mayLeave, hjob, hranges, hwait, Bool.and_eq_true, Bool.or_eq_true, beq_iff_eq, decide_eq_true_eq] at h ⊢
  exact ⟨h.1, h.2.imp_right fun hfits => by omega⟩

theorem foldl_leaveIfDue {js : List (Fin 16)} {s : State} (h : Cleared s) (hs : s.shaped) :
    Cleared (js.foldl State.leaveIfDue s)
    ∧ ∀ j, (js.foldl State.leaveIfDue s).mayLeave j = true → s.mayLeave j = true ∧ j ∉ js := by
  induction js generalizing s with
  | nil => exact ⟨h, fun j hj => ⟨hj, List.not_mem_nil⟩⟩
  | cons k js ih =>
    rw [List.foldl_cons]
    by_cases hk : s.mayLeave k = true
    · rw [State.leaveIfDue, if_pos hk]
      obtain ⟨hcleared, hleft⟩ := ih (cleared_leaveClosing h hk) (keepsShape_leaveClosing s k hs)
      refine ⟨hcleared, fun j hj => ?_⟩
      obtain ⟨hmay, hnot⟩ := hleft j hj
      obtain ⟨hbefore, hne⟩ := mayLeave_of_leaveClosing hs.2.2 hmay
      exact ⟨hbefore, fun hmem => (List.mem_cons.1 hmem).elim hne hnot⟩
    · rw [State.leaveIfDue, if_neg hk]
      obtain ⟨hcleared, hleft⟩ := ih h hs
      refine ⟨hcleared, fun j hj => ?_⟩
      obtain ⟨hmay, hnot⟩ := hleft j hj
      exact ⟨hmay, fun hmem => (List.mem_cons.1 hmem).elim (fun e => hk (e ▸ hmay)) hnot⟩

/-- After every job that may leave CLOSING has, none may. -/
theorem leaveAll_idle {s : State} (h : Cleared s) (hs : s.shaped) : Cleared s.leaveAll ∧ ∀ j, s.leaveAll.mayLeave j = false := by
  obtain ⟨hcleared, hleft⟩ := foldl_leaveIfDue (js := List.finRange 16) h hs
  refine ⟨hcleared, fun j => ?_⟩
  rw [← Bool.not_eq_true]
  exact fun hj => (hleft j hj).2 (List.mem_finRange j)

/-! ## The start of a wipe (R170) -/

/-- Nothing is due but what standby and a waiting ACCOUNT_FAULT make so. -/
structure WorkDone (s : State) : Prop extends Cleared s where
  leaving : ∀ j, s.mayLeave j = false
  started : s.wipeStartDue = false

theorem mayLeave_congr {s t : State} (hj : t.jct = s.jct) (hq : t.wpe.queue.length = s.wpe.queue.length) (j : Fin 16) :
    t.mayLeave j = s.mayLeave j := by
  have hroom : t.wpe.room = s.wpe.room := by rw [Wpe.room, Wpe.room, hq]
  have hjob : t.job j = s.job j := by rw [State.job, State.job, hj]
  rw [State.mayLeave, State.mayLeave, hroom, hjob, hj]

/-- The head that has started is in its first pass, with lines left to write. -/
theorem workDone_startWipe {s : State} (h : Cleared s) (hl : ∀ j, s.mayLeave j = false) (hs : s.shaped) : WorkDone s.startWipe := by
  cases hq : s.wpe.queue with
  | nil =>
    have hundue : s.wipeStartDue = false := by simp [State.wipeStartDue, hq]
    rw [s.startWipe_eq hundue]
    exact { h with leaving := hl, started := hundue }
  | cons e rest =>
    cases hstart : s.wipeStartDue with
    | false =>
      rw [s.startWipe_eq hstart]
      exact { h with leaving := hl, started := hstart }
    | true =>
      have hcount : 1 ≤ e.count := hs.1.2 e (hq ▸ List.mem_cons_self)
      have heq : s.startWipe = { s with wpe := { s.wpe with queue := { e with progress := passStart 1 e.base } :: rest } } := by
        rw [State.startWipe, if_pos hstart, Wpe.modHead, hq]
      have hundone : ({ e with progress := passStart 1 e.base } : WipeEntry).isDone = false := by
        have hlines : ¬ e.count * 64 ≤ 0 := by omega
        simp only [WipeEntry.isDone, passStart, WipeEntry.totalLines, hlines, decide_false, Bool.false_and]
      have hjobs : ∀ j, s.startWipe.mayLeave j = s.mayLeave j :=
        mayLeave_congr (startWipe_jct s) (startWipe_queue s).1
      refine { metered := ?_, commit := ?_, wiped := ?_, leaving := fun j => (hjobs j).trans (hl j), started := ?_ }
      · rw [startWipe_jct]
        exact h.metered
      · rw [heq]
        exact h.commit
      · rw [heq]
        exact hundone
      · rw [heq]
        rfl

end Sys2Proof.Machine
end

section
/-!
The end of an event: standby entry goes on, the reports join, POST may end, and the part may wake; then nothing is due (R128, R177, R178,
R189).
-/

namespace Sys2Proof.Machine

/-! ## Write-back states (R125) -/

theorem wb_setWb_same (a : Ace) (r : RecId) (w : WbState) : (a.setWb r w).wb r = w := by
  cases r with
  | dept i => exact congrArg DeptRec.wb (upd_get_same a.depts i _)
  | user i => exact congrArg UserRec.wb (upd_get_same a.users i _)
  | _ => rfl

theorem wb_setWb_ne (a : Ace) {r q : RecId} (w : WbState) (h : q ≠ r) : (a.setWb r w).wb q = a.wb q := by
  cases r with
  | dept i =>
    cases q with
    | dept k => exact congrArg DeptRec.wb (upd_get_ne a.depts _ fun e => h (congrArg RecId.dept e))
    | _ => rfl
  | user i =>
    cases q with
    | user k => exact congrArg UserRec.wb (upd_get_ne a.users _ fun e => h (congrArg RecId.user e))
    | _ => rfl
  | service => cases q with | service => exact absurd rfl h | _ => rfl
  | tariff => cases q with | tariff => exact absurd rfl h | _ => rfl
  | classes => cases q with | classes => exact absurd rfl h | _ => rfl
  | bays => cases q with | bays => exact absurd rfl h | _ => rfl
  | meters => cases q with | meters => exact absurd rfl h | _ => rfl

theorem wb_lists (a : Ace) (l k : List RecId) (q : RecId) : ({ a with queue := l, waiting := k } : Ace).wb q = a.wb q := by
  cases q <;> rfl

/-- A triggered record is not DIRTY, and no other record becomes so. -/
theorem trigger_wb (a : Ace) (r q : RecId) (h : (a.trigger r).wb q = .dirty) : a.wb q = .dirty ∧ q ≠ r := by
  have hset : ∀ (w : WbState) (l k : List RecId), w ≠ .dirty → ({ a.setWb r w with queue := l, waiting := k } : Ace).wb q = .dirty →
      a.wb q = .dirty ∧ q ≠ r := fun w l k hw hq => by
    rw [wb_lists] at hq
    have hne : q ≠ r := fun e => hw (by rwa [e, wb_setWb_same] at hq)
    rw [wb_setWb_ne a w hne] at hq
    exact ⟨hq, hne⟩
  rcases a.trigger_cases r with ⟨hclean, e⟩ | ⟨-, -, -, e⟩ | ⟨-, -, e⟩ <;> rw [e] at h
  · exact ⟨h, fun hqr => hclean (hqr ▸ h)⟩
  · exact hset .queued _ _ (by decide) h
  · exact hset .waiting _ _ (by decide) h

theorem triggerAll_wb (rs : List RecId) (a : Ace) (q : RecId) (h : (a.triggerAll rs).wb q = .dirty) : a.wb q = .dirty ∧ q ∉ rs := by
  induction rs generalizing a with
  | nil => exact ⟨h, List.not_mem_nil⟩
  | cons r rs ih =>
    obtain ⟨hdirty, hnot⟩ := ih (a.trigger r) h
    obtain ⟨hbefore, hne⟩ := trigger_wb a r q hdirty
    exact ⟨hbefore, fun hmem => (List.mem_cons.1 hmem).elim hne hnot⟩

/-- After the flush's triggers no record is DIRTY (R128). -/
theorem flush_clean (a : Ace) : (allRecords.all fun r => (a.triggerAll allRecords).wb r != .dirty) = true :=
  List.all_eq_true.2 fun r hr => bne_iff_ne.2 fun hd => (triggerAll_wb allRecords a r hd).2 hr

/-! ## Standby entry (R177) -/

/-- What the steps of standby entry leave: the phase, POST apart, has not reached its end. -/
def State.entryStepped (s : State) : Prop :=
  match s.rci.standby with
  | .entering _ .drain _ _ => s.drained = false
  | .entering _ .flush _ _ => s.ace.flushed = false ∧ (allRecords.all fun r => s.ace.wb r != .dirty) = true
  | .entering _ .post _ _ => True
  | .running => True
  | .standby => True

theorem WorkDone.congr {s t : State} (h : WorkDone s) (hj : t.jct = s.jct) (hg : t.rgt = s.rgt) (hw : t.wpe = s.wpe)
    (hr : t.path.reads = s.path.reads) (hx : t.path.writes = s.path.writes) (ho : t.down.orphans = s.down.orphans) : WorkDone t where
  metered := by rw [hj]; exact h.metered
  commit := by rw [hg]; exact h.commit
  wiped := by rw [hw]; exact h.wiped
  leaving j := (mayLeave_congr hj (by rw [hw]) j).trans (h.leaving j)
  started := by
    have hquiet : ∀ base count, t.quiet base count = s.quiet base count := fun base count => by
      rw [State.quiet, State.quiet, hr, hx, ho]
    have hsame : t.wipeStartDue = s.wipeStartDue := by
      unfold State.wipeStartDue
      rw [hw]
      simp only [hquiet]
    rw [hsame]
    exact h.started

/-- No commit is pending, the Wipe Queue is empty, and no job is in CLOSING: as a drained part is, and as ERASE leaves it. -/
structure Emptied (s : State) : Prop where
  metered : s.jct.metered = true
  commit : s.rgt.commit = none
  queue : s.wpe.queue = []
  closing : ∀ j, (s.job j).state ≠ .closing

theorem Emptied.workDone {s : State} (h : Emptied s) : WorkDone s where
  metered := h.metered
  commit := commitDue_of_none h.commit
  wiped := doneDue_of_waiting fun e he => by rw [h.queue] at he; cases he
  leaving j := mayLeave_of_not_closing (h.closing j)
  started := by simp [State.wipeStartDue, h.queue]

theorem Emptied.aside {s t : State} (h : Emptied s) (g : Aside s t) : Emptied t where
  metered := by rw [g.jct]; exact h.metered
  commit := by rw [g.rgt]; exact h.commit
  queue := by rw [g.wpe]; exact h.queue
  closing j := by rw [State.job, g.jct]; exact h.closing j

theorem emptied_drained {s : State} (hm : s.jct.metered = true) (hd : s.drained = true) : Emptied s := by
  simp only [State.drained, Bool.and_eq_true, Option.isNone_iff_eq_none, List.isEmpty_iff, all_toList_iff, bne_iff_ne] at hd
  obtain ⟨⟨⟨-, hcommit⟩, hclosing⟩, hqueue⟩ := hd
  exact ⟨hm, hcommit, hqueue, hclosing⟩

theorem emptied_eraseJob {s : State} (h : Emptied s) (j : Fin 16) : Emptied (s.eraseJob j) := by
  have hfreed : Emptied { (s.modJob j JobSlot.freed) with keys := s.keys.set j none } := {
    metered := metered_dropOwn h.metered j (freed_own _)
    commit := h.commit
    queue := h.queue
    closing := fun k => by
      show ((s.modJob j JobSlot.freed).job k).state ≠ .closing
      rw [State.modJob_job]
      split
      · exact fun e => nomatch e
      · exact h.closing k }
  exact hfreed.aside (aside_tellEnded _ _ _)

theorem emptied_erase {s : State} (h : Emptied s) : Emptied s.erase := by
  have hinvalid : Emptied (s.setRegions (s.rgt.invalidate RegionEntry.jobBound)) := {
    metered := (s.setRegions_metered _).trans h.metered
    commit := by rw [State.setRegions_rgt]; exact h.commit
    queue := by rw [State.setRegions_eq]; exact h.queue
    closing := fun j => by rw [State.setRegions_job]; exact h.closing j }
  have hall : ∀ (js : List (Fin 16)) (t : State), Emptied t → Emptied (js.foldl State.eraseJob t) := by
    intro js
    induction js with
    | nil => exact fun _ h => h
    | cons j js ih => exact fun t h => ih _ (emptied_eraseJob h j)
  exact hall _ _ hinvalid

theorem detachedAs_standby (s : State) (x : Standby) : (s.detachedAs x).rci.standby = x := rfl

/-- The end of DRAIN, if it has come (R177). -/
theorem drainEnd_done {s : State} (h : WorkDone s) : WorkDone s.drainEnd
    ∧ ∀ m tag n, s.drainEnd.rci.standby = .entering m .drain tag n → s.drainEnd.drained = false := by
  unfold State.drainEnd
  split
  · next m tag n hdrain =>
    cases hd : s.drained with
    | false => exact ⟨h, fun _ _ _ _ => hd⟩
    | true =>
      have hempty := emptied_drained h.metered hd
      rw [if_pos rfl]
      cases m with
      | retain =>
        rw [eraseAndDetach_retain]
        exact ⟨(hempty.aside (aside_detachedAs s _)).workDone, fun _ _ _ e => nomatch (detachedAs_standby s _).symm.trans e⟩
      | erase =>
        rw [eraseAndDetach_erase]
        exact ⟨((emptied_erase hempty).aside (aside_detachedAs s.erase _)).workDone,
          fun _ _ _ e => nomatch (detachedAs_standby s.erase _).symm.trans e⟩
  · next hno => exact ⟨h, fun m tag n e => absurd e (hno m tag n)⟩

/-- Outside FLUSH there is nothing to trigger and no flush to end. -/
theorem flush_idle {s : State} (h : ∀ m tag n, s.rci.standby ≠ .entering m .flush tag n) : s.flushTrigger.flushEnd = s := by
  have htrigger : s.flushTrigger = s := by
    unfold State.flushTrigger
    split
    · next hs => exact absurd hs (h _ _ _)
    · rfl
  rw [htrigger]
  unfold State.flushEnd
  split
  · next hs => exact absurd hs (h _ _ _)
  · rfl

/-- The flush's triggers and its end, if it has come (R128, R177). -/
theorem flush_done {s : State} (h : WorkDone s) (hd : ∀ m tag n, s.rci.standby = .entering m .drain tag n → s.drained = false) :
    WorkDone s.flushTrigger.flushEnd ∧ s.flushTrigger.flushEnd.entryStepped := by
  by_cases hflush : ∃ m tag n, s.rci.standby = .entering m .flush tag n
  · obtain ⟨m, tag, n, hs⟩ := hflush
    have htrigger : s.flushTrigger = { s with ace := s.ace.triggerAll allRecords } := by rw [State.flushTrigger, hs]
    rw [htrigger]
    cases hf : (s.ace.triggerAll allRecords).flushed with
    | true =>
      simp only [State.flushEnd, hs, hf, if_true]
      exact ⟨h.congr rfl rfl rfl rfl rfl rfl, trivial⟩
    | false =>
      simp only [State.flushEnd, hs, hf, Bool.false_eq_true, if_false]
      refine ⟨h.congr rfl rfl rfl rfl rfl rfl, ?_⟩
      simp only [State.entryStepped, hs]
      exact ⟨hf, flush_clean s.ace⟩
  · rw [flush_idle fun m tag n hs => hflush ⟨m, tag, n, hs⟩]
    refine ⟨h, ?_⟩
    unfold State.entryStepped
    split
    · next hs => exact hd _ _ _ hs
    · next hs => exact absurd ⟨_, _, _, hs⟩ hflush
    · trivial
    · trivial
    · trivial

/-- After its consequences an event has left nothing due but what the joining of reports, the end of POST and a wake still bring. -/
theorem consequences_done (s : State) (h : s.shaped) : WorkDone s.consequences ∧ s.consequences.entryStepped := by
  have hcleared := cleared s h
  have hshape : s.settleDue.completeCommit.finishWipe.shaped :=
    ((keepsShape_settleDue s).trans ((keepsShape_completeCommit _).trans (keepsShape_finishWipe _))) h
  obtain ⟨hleft, hidle⟩ := leaveAll_idle hcleared hshape
  obtain ⟨hdone, hdrain⟩ := drainEnd_done (workDone_startWipe hleft hidle (keepsShape_leaveAll _ hshape))
  have heq : s.consequences = s.settleDue.completeCommit.finishWipe.leaveAll.startWipe.drainEnd.flushTrigger.flushEnd := rfl
  rw [heq]
  exact flush_done hdone hdrain

/-! ## Reports, the end of POST, and a wake (R177, R178, R189) -/

/-- No entry of the Report Queue is free for a waiting ACCOUNT_FAULT, or none waits. -/
def Rci.faultSettled (r : Rci) : Prop := r.faultWaiting = true → r.hasEntry false = false

/-- A report that joins or is dropped makes no room for another, and leaves ACCOUNT_FAULT and standby as they are. -/
theorem joinAt_rci (s : State) (time : BitVec 32) (h : Handed) : (s.joinAt time h).rci.faultAt = s.rci.faultAt
    ∧ (s.joinAt time h).rci.standby = s.rci.standby
    ∧ (s.rci.hasEntry false = false → (s.joinAt time h).rci.hasEntry false = false) := by
  rcases s.joinAt_cases time h with ⟨he, e⟩ | ⟨he, e⟩ <;> rw [e] <;> refine ⟨rfl, rfl, fun hf => ?_⟩
  · cases huse : h.usesHeld with
    | false =>
      rw [huse, hf] at he
      cases he
    | true =>
      have hlong : 15 ≤ s.rci.queue.length := by
        simp only [Rci.hasEntry, decide_eq_false_iff_not] at hf
        split at hf <;> omega
      simp only [Rci.hasEntry, Rci.joined, Bool.not_true, Bool.and_false, Bool.false_and, List.length_append, List.length_singleton,
        decide_eq_false_iff_not]
      rw [if_neg Bool.false_ne_true]
      omega
  · cases huse : h.usesHeld with
    | false =>
      simp only [Rci.hasEntry, Bool.not_false, Bool.and_true] at hf ⊢
      exact hf
    | true =>
      rw [huse] at he
      simpa [Rci.hasEntry] using he

theorem joinHanded_rci (s : State) : s.joinHanded.rci.faultAt = s.rci.faultAt ∧ s.joinHanded.rci.standby = s.rci.standby
    ∧ (s.rci.hasEntry false = false → s.joinHanded.rci.hasEntry false = false) := by
  have hall : ∀ (hs : List Handed) (t : State), (hs.foldl State.joinOne t).rci.faultAt = t.rci.faultAt
      ∧ (hs.foldl State.joinOne t).rci.standby = t.rci.standby
      ∧ (t.rci.hasEntry false = false → (hs.foldl State.joinOne t).rci.hasEntry false = false) := by
    intro hs
    induction hs with
    | nil => exact fun t => ⟨rfl, rfl, fun h => h⟩
    | cons x hs ih =>
      intro t
      obtain ⟨hfault, hstandby, hfull⟩ := ih (t.joinOne x)
      obtain ⟨xfault, xstandby, xfull⟩ := joinAt_rci t t.ms x
      exact ⟨hfault.trans xfault, hstandby.trans xstandby, fun h => hfull (xfull h)⟩
  exact hall (joinOrder s.handed) s

/-- A waiting ACCOUNT_FAULT has joined, if it could (R189). -/
theorem joinFault_settled (s : State) : s.joinFault.rci.faultSettled := by
  cases hf : s.rci.faultAt with
  | none =>
    have hnone : s.rci.faultWaiting = false := by simp [Rci.faultWaiting, hf]
    rw [s.joinFault_eq hnone]
    exact fun h => absurd (hnone.symm.trans h) (by decide)
  | some time =>
    cases he : s.rci.hasEntry false with
    | true =>
      rw [s.joinFault_some time hf he]
      exact fun h => nomatch h
    | false =>
      have hsame : s.joinFault = s := by simp only [State.joinFault, hf, he, Bool.false_eq_true, if_false]
      rw [hsame]
      exact fun _ => he

theorem joinHanded_settled {s : State} (h : s.rci.faultSettled) : s.joinHanded.rci.faultSettled := fun hwaits => by
  obtain ⟨hfault, -, hfull⟩ := joinHanded_rci s
  rw [Rci.faultWaiting, hfault] at hwaits
  exact hfull (h hwaits)

theorem entryStepped_congr {s t : State} (h : s.entryStepped) (hs : t.rci.standby = s.rci.standby) (hd : t.drained = s.drained)
    (hf : t.ace.flushed = s.ace.flushed) (hw : ∀ r, t.ace.wb r = s.ace.wb r) : t.entryStepped := by
  simp only [State.entryStepped, hs, hd, hf, hw]
  exact h

/-- The work of an event is done, and the phase of standby entry has not ended, POST apart. -/
def State.stepped (s : State) : Prop := WorkDone s ∧ s.entryStepped

theorem stepped_joinHanded {s : State} (h : s.stepped) : s.joinHanded.stepped := by
  obtain ⟨hwork, hentry⟩ := h
  obtain ⟨-, hstandby, -⟩ := joinHanded_rci s
  obtain ⟨r, hr⟩ := joinHanded_leaves s
  rw [hr] at hstandby ⊢
  exact ⟨hwork.congr rfl rfl rfl rfl rfl rfl, entryStepped_congr hentry hstandby rfl rfl fun _ => rfl⟩

theorem stepped_joinFault {s : State} (h : s.stepped) : s.joinFault.stepped := by
  cases hf : s.rci.faultAt with
  | none =>
    rw [s.joinFault_eq (by simp [Rci.faultWaiting, hf])]
    exact h
  | some time =>
    cases he : s.rci.hasEntry false with
    | true =>
      have hwb : ∀ r, ({ s.ace with faults := .empty } : Ace).wb r = s.ace.wb r := fun r => by cases r <;> rfl
      have hflushed : ({ s.ace with faults := .empty } : Ace).flushed = s.ace.flushed := by simp only [Ace.flushed, hwb]
      rw [s.joinFault_some time hf he]
      exact ⟨h.1.congr rfl rfl rfl rfl rfl rfl, entryStepped_congr h.2 rfl rfl hflushed hwb⟩
    | false =>
      have hsame : s.joinFault = s := by simp only [State.joinFault, hf, he, Bool.false_eq_true, if_false]
      rw [hsame]
      exact h

theorem nothingDue_of {s : State} (h : WorkDone s) (hs : s.standbySettled = true)
    (hf : s.rci.startup = .anchored → s.rci.faultSettled) : s.nothingDue = true := by
  refine s.nothingDue_iff.2 ⟨h.metered, h.commit, h.wiped, h.leaving, h.started, hs, ?_⟩
  rw [Bool.and_eq_false_iff, Bool.and_eq_false_iff]
  by_cases hanchored : s.rci.startup = .anchored
  · cases hwaits : s.rci.faultWaiting with
    | false => exact .inl (.inr rfl)
    | true => exact .inr (hf hanchored hwaits)
  · exact .inl (.inl (beq_eq_false_iff_ne.2 hanchored))

/-- The part wakes, if it is in STANDBY with the wake pin asserted (R178). -/
theorem wakeCheck_settled {s : State} (h : WorkDone s) (hs : s.rci.standby ≠ .standby → s.standbySettled = true)
    (hf : s.rci.startup = .anchored → s.rci.faultSettled) : s.wakeCheck.nothingDue = true := by
  unfold State.wakeCheck
  split
  · exact nothingDue_of (h.congr rfl rfl rfl rfl rfl rfl) rfl hf
  · next hno =>
    refine nothingDue_of h ?_ hf
    by_cases hstandby : s.rci.standby = .standby
    · have hpin : s.rci.wakePin = false := by simpa [hstandby] using hno
      simp only [State.standbySettled, hstandby, hpin, Bool.not_false]
    · exact hs hstandby

/-- POST ends, if it has come to its end (R177), and then the part may wake. -/
theorem postEnd_settled {s : State} (h : s.stepped) (hf : s.rci.startup = .anchored → s.rci.faultSettled) :
    s.postEnd.wakeCheck.nothingDue = true := by
  obtain ⟨hwork, hentry⟩ := h
  unfold State.postEnd
  split
  · next m tag n hpost =>
    cases hp : s.posted with
    | true =>
      rw [if_pos rfl]
      exact wakeCheck_settled (hwork.congr rfl rfl rfl rfl rfl rfl) (fun hno => absurd rfl hno) hf
    | false =>
      rw [if_neg Bool.false_ne_true]
      exact wakeCheck_settled hwork (fun _ => by simp only [State.standbySettled, hpost, hp, Bool.not_false]) hf
  · next hno =>
    refine wakeCheck_settled hwork (fun hstandby => ?_) hf
    simp only [State.entryStepped] at hentry
    cases hs : s.rci.standby with
    | running => simp only [State.standbySettled, hs]
    | standby => exact absurd hs hstandby
    | entering m ph tag n =>
      rw [hs] at hentry
      cases ph with
      | drain => simp only [State.standbySettled, hs]; exact congrArg not hentry
      | flush => simp only [State.standbySettled, hs, hentry.1, hentry.2, Bool.not_false, Bool.and_true]
      | post => exact absurd hs (hno m tag n)

/-! ## The end of an event -/

theorem shaped_joined {s : State} (h : s.shaped) : s.joinAll.postEnd.wakeCheck.shaped :=
  ((aside_joinAll s).trans ((aside_postEnd _).trans (aside_wakeCheck _))).keepsShape h

theorem endEvent_settledLaw {s : State} (h : s.shaped) : s.endEvent.settledLaw := by
  have hstepped : s.consequences.joinAll.stepped := stepped_joinHanded (stepped_joinFault (consequences_done s h))
  exact ⟨postEnd_settled hstepped fun _ => joinHanded_settled (joinFault_settled _), shaped_joined (keepsShape_consequences s h)⟩

theorem postEnd_startup (s : State) : s.postEnd.rci.startup = s.rci.startup := by
  unfold State.postEnd
  split
  · split <;> rfl
  · rfl

theorem wakeCheck_startup (s : State) : s.wakeCheck.rci.startup = s.rci.startup := by
  unfold State.wakeCheck
  split <;> rfl

/-- Where the event of a link reset leaves the part not ANCHORED, a waiting ACCOUNT_FAULT is not due (R184). -/
theorem endReset_settledLaw {s : State} (h : s.shaped) (ha : s.endReset.rci.startup ≠ .anchored) : s.endReset.settledLaw := by
  have hstartup : s.endReset.rci.startup = s.consequences.joinHanded.rci.startup := by
    rw [State.endReset, wakeCheck_startup, postEnd_startup]
  exact ⟨postEnd_settled (stepped_joinHanded (consequences_done s h)) fun hanchored => absurd (hstartup.trans hanchored) ha,
    ((aside_joinHanded _).trans ((aside_postEnd _).trans (aside_wakeCheck _))).keepsShape (keepsShape_consequences s h)⟩

/-- LRST leaves LOADING to go on and takes the anchor otherwise (R184). -/
theorem linkReset_startup (s : State) (straps : BitVec 2) : (s.linkReset straps).endReset.rci.startup ≠ .anchored := by
  have hstartup : (s.linkReset straps).endReset.rci.startup = if s.rci.startup = .loading then .loading else .awaitAnchor := by
    rw [linkReset_endReset]
    exact (congrArg Rci.startup (stands_afterReset s straps).rci :).trans
      (congrArg (fun t => t.rci.startup) (contextsEnded_rest s straps) :)
  rw [hstartup]
  split <;> exact fun h => nomatch h

/-! ## Every command, and time -/

/-- A state that comes of one with the settled-state law has it too. -/
def KeepsSettled (s t : State) : Prop := s.settledLaw → t.settledLaw

/-- An event: its effect keeps the shapes, and its end leaves nothing due. -/
theorem KeepsSettled.event {s t : State} {body : State → State} (h : event body s = .next t)
    (hb : KeepsShape s.beginEvent (body s.beginEvent)) : KeepsSettled s t := fun hs => by
  cases hp : s.powered with
  | true =>
    obtain rfl : (body s.beginEvent).endEvent = t := Host.Outcome.next.inj ((event_powered hp).symm.trans h)
    exact endEvent_settledLaw (hb hs.2)
  | false =>
    rw [Sys2Proof.Machine.event, hp] at h
    obtain rfl : s.beginEvent = t := Host.Outcome.next.inj h
    exact hs

theorem keepsSettled_lrst {s t : State} {straps : BitVec 2} (h : exec (.lrst straps) s = .next t) : KeepsSettled s t := fun hs => by
  have hexec : exec (.lrst straps) s = resetEvent (fun u => u.linkReset straps) s := rfl
  rw [hexec, resetEvent] at h
  split at h
  · obtain rfl : (s.beginEvent.linkReset straps).endReset = t := Host.Outcome.next.inj h
    exact endReset_settledLaw (keepsShape_linkReset s.beginEvent straps hs.2) (linkReset_startup s.beginEvent straps)
  · obtain rfl : s.beginEvent = t := Host.Outcome.next.inj h
    exact hs

/-- Every volatile store at its value after POR: nothing is due. -/
theorem volatileReset_settledLaw (s : State) (straps : BitVec 2) (powered : Bool) :
    ({ s.volatileReset straps with powered := powered } : State).settledLaw := by
  obtain ⟨hdue, hshapes⟩ := reset_settledLaw
  exact ⟨State.nothingDue_congr hdue rfl rfl rfl rfl rfl rfl rfl rfl rfl, hshapes⟩

theorem keepsSettled_loseSupply (s : State) : KeepsSettled s s.loseSupply := fun hs => by
  unfold State.loseSupply
  split
  · exact volatileReset_settledLaw s.tearWrite s.rci.straps false
  · exact hs

theorem keepsSettled_ring {s t : State} {c : Instr} (h : ringEvent (runCommand c) s = .next t) : KeepsSettled s t :=
  .event h (keepsShape_direct s.beginEvent c)

theorem keepsSettled_aside {s t : State} (body : State → State) (h : event body s = .next t) (hb : ∀ u, Aside u (body u)) :
    KeepsSettled s t := .event h (hb s.beginEvent).keepsShape

theorem keepsSettled_shape {s t : State} (body : State → State) (h : event body s = .next t) (hb : ∀ u, KeepsShape u (body u)) :
    KeepsSettled s t := .event h (hb s.beginEvent)

theorem exec_keepsSettled {c : Instr} {s t : State} (h : exec c s = .next t) : KeepsSettled s t := by
  cases c with
  | por straps =>
    obtain rfl : s.powerOn straps = t := Host.Outcome.next.inj h
    exact fun _ => volatileReset_settledLaw (if s.powered then s.tearWrite else s) straps true
  | supplyLoss =>
    obtain rfl : s.loseSupply = t := Host.Outcome.next.inj h
    exact keepsSettled_loseSupply s
  | lrst straps => exact keepsSettled_lrst h
  | fetchStart => exact keepsSettled_aside State.startFetch h aside_startFetch
  | fetchReadReturn i okay l => exact keepsSettled_shape (fun u => u.returnFetch i okay l) h fun u => keepsShape_returnFetch u i okay l
  | wake a => exact keepsSettled_aside (fun u => u.setWakePin a) h fun u => aside_rci u _
  | loadingEnd => exact keepsSettled_aside State.finishLoading h aside_finishLoading
  | takeTransaction d p =>
    exact keepsSettled_shape (fun u => (u.present p).takePort d) h fun u => (aside_present u p).keepsShape.trans (keepsShape_takePort _ d)
  | releasedTaken => exact keepsSettled_shape State.takeReleased h keepsShape_takeReleased
  | downstreamGrant => exact keepsSettled_aside State.grant h aside_grant
  | readReturn ref okay ls => exact keepsSettled_shape (fun u => u.completeRead ref okay ls) h fun u => keepsShape_completeRead u ref okay ls
  | writeAnswer ref okay => exact keepsSettled_shape (fun u => u.completeWriteAt ref okay) h fun u => keepsShape_completeWriteAt u ref okay
  | commitCompletion => exact keepsSettled_shape State.completeCommit h keepsShape_completeCommit
  | recordSettle => exact keepsSettled_shape State.settleDue h keepsShape_settleDue
  | jobLeavesClosing j => exact keepsSettled_shape (fun u => u.leaveIfDue j) h fun u => keepsShape_leaveIfDue u j
  | wipeStart => exact keepsSettled_shape State.startWipe h keepsShape_startWipe
  | wipeWriteIssue => exact keepsSettled_shape State.issueWipeWrite h keepsShape_issueWipeWrite
  | wipeWriteAnswer i okay => exact keepsSettled_shape (fun u => u.answerWipeWrite i okay) h fun u => keepsShape_answerWipeWrite u i okay
  | verifyReadIssue => exact keepsSettled_shape State.issueVerifyRead h keepsShape_issueVerifyRead
  | verifyReadReturn i okay ls =>
    exact keepsSettled_shape (fun u => u.returnVerifyRead i okay ls) h fun u => keepsShape_returnVerifyRead u i okay ls
  | wipeDone => exact keepsSettled_shape State.finishWipe h keepsShape_finishWipe
  | reportWriteIssue => exact keepsSettled_aside State.issueReportWrite h aside_issueReportWrite
  | reportWriteAnswer i okay => exact keepsSettled_aside (fun u => u.answerReportWrite i okay) h fun u => aside_answerReportWrite u i okay
  | indexWriteIssue => exact keepsSettled_aside State.issueIndexWrite h aside_issueIndexWrite
  | indexWriteAnswer i okay => exact keepsSettled_aside (fun u => u.answerIndexWrite i okay) h fun u => aside_answerIndexWrite u i okay
  | accountFault => exact keepsSettled_aside State.joinFault h aside_joinFault
  | amemWriteStart => exact keepsSettled_aside State.beginWrite h aside_beginWrite
  | amemWriteComplete => exact keepsSettled_aside State.completeWrite h aside_completeWrite
  | lockoutExpiry => exact keepsSettled_aside State.lockoutEnds h aside_lockoutEnds
  | statusReq p => exact keepsSettled_aside (fun u => u.sendStatus p) h fun u => aside_sendStatus u p
  | identReq p => exact keepsSettled_aside (fun u => u.sendIdent p) h fun u => aside_sendIdent u p
  | proveReq p => exact keepsSettled_aside (fun u => u.sendProve p) h fun u => aside_sendProve u p
  | debitReq p => exact keepsSettled_aside (fun u => u.sendDebit p) h fun u => aside_sendDebit u p
  | statusRep p fr => exact keepsSettled_aside (fun u => u.replyEnds .status p fr) h fun u => aside_replyEnds u .status p fr
  | identRep p fr => exact keepsSettled_aside (fun u => u.replyEnds .ident p fr) h fun u => aside_replyEnds u .ident p fr
  | proveRep p fr => exact keepsSettled_aside (fun u => u.replyEnds .prove p fr) h fun u => aside_replyEnds u .prove p fr
  | debitRep p fr => exact keepsSettled_aside (fun u => u.replyEnds .debit p fr) h fun u => aside_replyEnds u .debit p fr
  | exchangeTimeout p => exact keepsSettled_aside (fun u => u.timeOut p) h fun u => aside_timeOut u p
  | replyFrameBegins p => exact keepsSettled_aside (fun u => u.replyBegins p) h fun u => aside_replyBegins u p
  | standbyDrainEnd => exact keepsSettled_shape State.drainEnd h keepsShape_drainEnd
  | flushComplete => exact keepsSettled_aside State.flushEnd h aside_flushEnd
  | standbyPostEnd => exact keepsSettled_aside State.postEnd h aside_postEnd
  | unknownKind tag kind => exact keepsSettled_shape (State.refuseKind tag kind) h (keepsShape_refuseKind tag kind)
  | regionSet tag p => exact keepsSettled_ring (c := .regionSet tag p) h
  | regionClear tag i => exact keepsSettled_ring (c := .regionClear tag i) h
  | regionsCommit tag => exact keepsSettled_ring (c := .regionsCommit tag) h
  | captureClear tag => exact keepsSettled_ring (c := .captureClear tag) h
  | jobOpen tag p => exact keepsSettled_ring (c := .jobOpen tag p) h
  | jobRelease tag j pin => exact keepsSettled_ring (c := .jobRelease tag j pin) h
  | jobClose tag j => exact keepsSettled_ring (c := .jobClose tag j) h
  | jobQuery tag j => exact keepsSettled_ring (c := .jobQuery tag j) h
  | markSelect tag j => exact keepsSettled_ring (c := .markSelect tag j) h
  | markInterrupt tag j => exact keepsSettled_ring (c := .markInterrupt tag j) h
  | markResume tag => exact keepsSettled_ring (c := .markResume tag) h
  | classSet tag p => exact keepsSettled_ring (c := .classSet tag p) h
  | tariffSet tag p => exact keepsSettled_ring (c := .tariffSet tag p) h
  | userSet tag p => exact keepsSettled_ring (c := .userSet tag p) h
  | userAdjust tag pin u a => exact keepsSettled_ring (c := .userAdjust tag pin u a) h
  | userQuery tag pin u => exact keepsSettled_ring (c := .userQuery tag pin u) h
  | deptSet tag pin d a => exact keepsSettled_ring (c := .deptSet tag pin d a) h
  | periodReset tag pin w => exact keepsSettled_ring (c := .periodReset tag pin w) h
  | meterQuery tag pin => exact keepsSettled_ring (c := .meterQuery tag pin) h
  | servicePinSet tag pin x => exact keepsSettled_ring (c := .servicePinSet tag pin x) h
  | bayQuery tag b => exact keepsSettled_ring (c := .bayQuery tag b) h
  | bayConfig tag p => exact keepsSettled_ring (c := .bayConfig tag p) h
  | wipeRange tag p => exact keepsSettled_ring (c := .wipeRange tag p) h
  | standbyEnter tag m => exact keepsSettled_ring (c := .standbyEnter tag m) h

theorem keepsSettled_tick (s : State) : KeepsSettled s s.tick := fun h => by
  unfold State.tick
  split
  · exact h
  · exact h

theorem step_keepsSettled {s t : State} (h : step s = .next t) : KeepsSettled s t := by
  unfold step at h
  split at h
  · obtain rfl : s.tick = t := Host.Outcome.next.inj h
    exact keepsSettled_tick s
  · next c rest _ =>
    have htaken : KeepsSettled s { s with pending := rest } := fun hs => hs
    exact fun hs => exec_keepsSettled h (htaken hs)

end Sys2Proof.Machine

namespace Sys2Proof.Proofs

open Sys2Proof Sys2Proof.Machine

/-- Settles O4: an effect keeps the shapes (`KeepsShape`), and from these the end of its event leaves nothing due, whatever stood due
before (`consequences_done`, `postEnd_settled`). -/
theorem stepKeepsSettled : Obligations.StepKeepsSettled := by
  unfold Obligations.StepKeepsSettled
  exact fun _ _ hlaw hstep => step_keepsSettled hstep hlaw

end Sys2Proof.Proofs
end

section
/-!
Dot sums, and what a returned mark does to the records. Settles O31.
-/

namespace Sys2Proof.Machine

/-! ## Dot sums (R80) -/

theorem sum_map_le {n b : Nat} {f : Nat → Nat} (h : ∀ i, f i ≤ b) : ((List.range n).map f).sum ≤ n * b := by
  have hle := List.sum_le_card_nsmul ((List.range n).map f) b fun x hx => by
    obtain ⟨i, -, rfl⟩ := List.mem_map.1 hx
    exact h i
  simpa using hle

theorem sum_map_const {n b : Nat} {f : Nat → Nat} (h : ∀ i < n, f i = b) : ((List.range n).map f).sum = n * b := by
  rw [List.map_congr_left fun i hi => h i (List.mem_range.1 hi)]
  simp

/-- No dot value is above that of a dot of all ones. -/
theorem dotSum_le (depth : Nat) (l : Line) : dotSum depth l ≤ 512 / depth * (2 ^ depth - 1) :=
  sum_map_le fun i => Nat.le_sub_one_of_lt (l.extractLsb' (i * depth) depth).isLt

/-- A line of all ones gives the most. -/
theorem dotSum_ones {depth : Nat} (h : depth ∣ 512) : dotSum depth onesLine = 512 / depth * (2 ^ depth - 1) := by
  refine sum_map_const fun i hi => ?_
  have hfits : i * depth + depth ≤ 512 := by
    calc i * depth + depth = (i + 1) * depth := (Nat.succ_mul i depth).symm
      _ ≤ 512 / depth * depth := Nat.mul_le_mul_right depth hi
      _ = 512 := Nat.div_mul_cancel h
  have hones : onesLine.extractLsb' (i * depth) depth = BitVec.allOnes depth := by
    ext k hk
    have hin : i * depth + k < 512 := by omega
    simp only [onesLine, BitVec.getElem_extractLsb', BitVec.getLsbD_allOnes, BitVec.getElem_allOnes, hin, decide_true]
  rw [hones, BitVec.toNat_allOnes]

/-- A blank line has no dots. -/
theorem dotSum_blank (depth : Nat) : dotSum depth 0 = 0 :=
  (sum_map_const fun i _ => by simp).trans (Nat.mul_zero _)

/-- At depth 1 a dot is a bit. -/
theorem dotSum_one (l : Line) : dotSum 1 l = ((List.range 512).map fun i => if l.getLsbD i then 1 else 0).sum := by
  refine congrArg List.sum (List.map_congr_left fun i _ => ?_)
  rw [Nat.mul_one, BitVec.extractLsb'_toNat, Nat.shiftRight_eq_div_pow, pow_one, BitVec.getLsbD, Nat.testBit_eq_decide_div_mod_eq]
  rcases Nat.mod_two_eq_zero_or_one (l.toNat / 2 ^ i) with h | h <;> simp [h]

theorem dotSum_eq (depth : Nat) (l : Line) :
    dotSum depth l = ((List.range (512 / depth)).map fun i => (l.extractLsb' (depth * i) depth).toNat).sum := by
  simp only [dotSum, Nat.mul_comm]

end Sys2Proof.Machine

namespace Sys2Proof.Proofs

open Sys2Proof Sys2Proof.Machine

/-- Settles O31: the sums are those of equal fields of the line, and a mark maps every context alike (`mapContexts_contexts`). -/
theorem dotSums : Obligations.DotSums := by
  unfold Obligations.DotSums
  refine ⟨fun l => ⟨dotSum_one l, dotSum_le 1 l, dotSum_eq 2 l, dotSum_le 2 l, dotSum_eq 4 l, dotSum_le 4 l, dotSum_ones ⟨512, rfl⟩,
    dotSum_ones ⟨256, rfl⟩, dotSum_ones ⟨128, rfl⟩, dotSum_blank 1, dotSum_blank 2, dotSum_blank 4⟩, fun j n p d => ⟨?_, ?_⟩⟩
  · exact mapContexts_contexts _ _
  · exact ⟨fun _ => rfl, rfl⟩

end Sys2Proof.Proofs
end

section
/-!
The event RECORD_SETTLE: which records leave, and what is posted for a lone one. Settles O33.
-/

namespace Sys2Proof.Machine

/-! ## What the due records take with them (R85, R87) -/

/-- A tracker tied to one of the records that leave is untied, and else stands. -/
theorem untie_opened (gone : List PageRecord) (t : Tracker) : t.untie (gone.map PageRecord.opened) =
    if ∃ n, t.tied = some n ∧ gone.any (fun r => r.opened == n) = true then { t with tied := none } else t := by
  obtain ⟨frame, geom, hw, tied⟩ := t
  cases tied with
  | none => simp [Tracker.untie]
  | some n => simp [Tracker.untie]

/-- The ASSEMBLY holds of the given jobs are released, and no others. -/
theorem releaseFor_eq (js : List (Fin 16)) (h : HoldEntry) {p : Prop} [Decidable p] (hp : p ↔ ∃ j ∈ js, h.cause = .assembly j) :
    h.releaseFor js = if p then { h with released := true } else h := by
  obtain ⟨txn, cause, released⟩ := h
  cases cause with
  | commit =>
    have hnot : ¬ p := fun x => by
      obtain ⟨j, -, e⟩ := hp.1 x
      cases e
    rw [if_neg hnot]
    rfl
  | assembly j =>
    have hmem : p ↔ js.contains j = true := hp.trans ⟨fun ⟨k, hk, e⟩ => by cases e; exact List.contains_iff_mem.2 hk,
      fun hj => ⟨j, List.contains_iff_mem.1 hj, rfl⟩⟩
    simp only [HoldEntry.releaseFor, hmem]

theorem mem_dueOwners (j : Jobs) (i : Fin 16) :
    i ∈ j.dueOwners ↔ ∃ m ∈ j.contexts, m.job = i ∧ ∃ r ∈ m.ctx.queue, r.isDue = true := by
  simp only [Jobs.dueOwners, List.mem_map, List.mem_filter, List.any_eq_true]
  exact ⟨fun ⟨m, ⟨hm, hr⟩, e⟩ => ⟨m, hm, e, hr⟩, fun ⟨m, hm, e, hr⟩ => ⟨m, ⟨hm, hr⟩, e⟩⟩

theorem withoutDue_job (s : State) (j : Fin 16) : s.withoutDue.job j =
    { s.job j with own := ((s.job j).own.map Context.dropDue).filter fun c => !c.queue.isEmpty } := withoutDue_slot s.jct j

/-! ## The posting of one record (R104, R105) -/

/-- The part after a charged record is posted and its report handed. -/
def State.chargedPosted (s : State) (r : PageRecord) : State :=
  (({ s with ace := s.ace.postCharge r (s.price r) } : State).modJob r.job fun q =>
    { q with counters := q.counters.post (s.price r).charge (s.price r).colour }).hand (.pageCharged (s.price r))

/-- The part after an aborted record has given its reserve back and its report is handed. -/
def State.abortPosted (s : State) (r : PageRecord) : State :=
  (({ s with ace := s.ace.modReserved r.user (· - r.reserve) } : State).modJob r.job fun q =>
    { q with counters := { q.counters with aborted := sat32 (q.counters.aborted + 1) } }).hand (.pageAborted r)

theorem settle_charged {s : State} {r : PageRecord} (h : r.isCharged = true) : s.settle true r = s.chargedPosted r := if_pos h

theorem settle_aborted {s : State} {r : PageRecord} (h : r.isCharged = false) : s.settle true r = s.abortPosted r :=
  if_neg (Bool.not_eq_true _ ▸ h)

theorem chargedPosted_counters (s : State) (r : PageRecord) : ((s.chargedPosted r).job r.job).counters =
    (s.job r.job).counters.post (s.price r).charge (s.price r).colour :=
  congrArg JobSlot.counters (State.modJob_job_same _ r.job _)

theorem abortPosted_counters (s : State) (r : PageRecord) : ((s.abortPosted r).job r.job).counters =
    { (s.job r.job).counters with aborted := sat32 ((s.job r.job).counters.aborted + 1) } :=
  congrArg JobSlot.counters (State.modJob_job_same _ r.job _)

/-- The counters of the record's job change, and those of no other. -/
theorem settle_others (report : Bool) (s : State) (r : PageRecord) {j : Fin 16} (h : j ≠ r.job) :
    (s.settle report r).job j = s.job j := by
  have hother : ∀ (t : State) (f : JobSlot → JobSlot), (t.modJob r.job f).job j = t.job j := fun t f => by
    rw [State.modJob_job, if_neg h]
  unfold State.settle
  cases report <;> split <;> exact hother _ _

/-- The price does not depend on the contexts. -/
theorem withoutDue_price (s : State) (r : PageRecord) : s.withoutDue.price r = s.price r := by
  have hdeclared : (s.withoutDue.job r.job).declared = (s.job r.job).declared := by rw [withoutDue_job]
  rw [State.price, State.price, hdeclared]
  rfl

theorem settleDue_lone {s : State} {r : PageRecord} (h : s.jct.due = [r]) : s.settleDue = s.withoutDue.settle true r := by
  rw [settleDue_eq_posted, h]
  rfl

end Sys2Proof.Machine

namespace Sys2Proof.Proofs

open Sys2Proof Sys2Proof.Machine

/-- Settles O33: the due records leave (`State.withoutDue`), and then ACE posts them one by one, which reaches ACE, the counters and the
reports alone (`PostsOnly`). -/
theorem recordsSettle : Obligations.RecordsSettle := by
  unfold Obligations.RecordsSettle
  intro s hp e left
  obtain ⟨hrest, hjobs⟩ := settleDue_posts s.beginEvent
  have hleft : ∀ c : Context, c.dropDue = left c := fun c => by
    have htracker : ∀ t : Tracker, t.untie ((c.queue.filter PageRecord.isDue).map PageRecord.opened) =
        match t.tied with
        | some n => if (c.queue.filter fun r => r.isDue).any (fun r => r.opened == n) then { t with tied := none } else t
        | none => t := fun t => by
      rw [untie_opened]
      obtain ⟨frame, geom, hw, tied⟩ := t
      cases tied <;> simp
    exact congrArg (fun f => (⟨c.trackers.map f, c.queue.filter fun r => !r.isDue⟩ : Context)) (funext htracker)
  have hmapped : ∀ m : Marked, ({ m with ctx := m.ctx.dropDue } : Marked) = ⟨m.job, left m.ctx⟩ := fun m => by rw [hleft]
  have hjob : ∀ j, e.job j = { s.job j with
      own := ((s.job j).own.map Context.dropDue).filter fun c => !c.queue.isEmpty, counters := (e.job j).counters } := fun j => by
    rw [hjobs j, withoutDue_job]
    rfl
  refine ⟨fun hstill => ?_, ?_, ?_, fun j => ?_, ?_, fun j => ?_, ?_, fun r hr => ?_⟩
  · have hexec : exec .recordSettle s = event State.settleDue s := rfl
    rw [hexec, event_powered hp, State.endEvent_still _ hstill]
  · rw [(congrArg (fun t : State => t.jct.marking) hrest : e.jct.marking = _)]
    exact congrArg (fun f => s.jct.marking.map f) (funext hmapped)
  · rw [(congrArg (fun t : State => t.jct.stack) hrest : e.jct.stack = _)]
    exact congrArg (fun f => s.jct.stack.map f) (funext hmapped)
  · rw [hjob]
    cases (s.job j).own with
    | none => rfl
    | some c =>
      show _ = if (left c).queue = [] then none else some (left c)
      rw [← hleft]
      by_cases hc : c.dropDue.queue = [] <;> simp [Option.filter, hc]
  · rw [(congrArg State.path hrest : e.path = _)]
    have hhold : ∀ h : HoldEntry, h.releaseFor s.jct.dueOwners =
        if ∃ m ∈ s.jct.contexts, h.cause = .assembly m.job ∧ ∃ r ∈ m.ctx.queue, r.isDue = true then { h with released := true }
        else h := fun h => by
      refine releaseFor_eq _ h ?_
      simp only [mem_dueOwners]
      exact ⟨fun ⟨m, hm, hc, hr⟩ => ⟨m.job, ⟨m, hm, rfl, hr⟩, hc⟩, fun ⟨j, ⟨m, hm, e, hr⟩, hc⟩ => ⟨m, hm, e ▸ hc, hr⟩⟩
    exact congrArg (fun f => { s.path with hold := s.path.hold.map f }) (funext hhold)
  · rw [hjob]
  · have hpath : e.path = s.beginEvent.withoutDue.path := (congrArg State.path hrest :)
    have hjct : e.jct = { s.beginEvent.withoutDue.jct with slots := e.jct.slots } := (congrArg State.jct hrest :)
    rw [hpath, hjct]
    exact hrest
  · have hlone : e = s.beginEvent.withoutDue.settle true r := settleDue_lone hr
    have hprice : s.beginEvent.withoutDue.price r = s.price r := withoutDue_price s.beginEvent r
    have hcounters : (s.beginEvent.withoutDue.job r.job).counters = (s.job r.job).counters := by
      rw [withoutDue_job]
      rfl
    refine ⟨fun hcharged => ?_, fun haborted => ?_, fun j hj => ?_⟩
    · rw [hlone, settle_charged hcharged, chargedPosted_counters, State.chargedPosted, hprice]
      exact ⟨rfl, rfl, congrArg (fun c : JobCounters => c.post (s.price r).charge (s.price r).colour) hcounters⟩
    · rw [hlone, settle_aborted haborted, abortPosted_counters, State.abortPosted]
      exact ⟨rfl, rfl, congrArg (fun c : JobCounters => { c with aborted := sat32 (c.aborted + 1) }) hcounters⟩
    · rw [hlone, settle_others true _ r hj, withoutDue_job]
      rfl

end Sys2Proof.Proofs
end

section
/-!
The new-pass test, the start of a pass step by step, and the classification of a line. Settles O30.
-/

namespace Sys2Proof.Machine

/-! ## The new-pass test (R72, R75) -/

theorem isComplete_iff (t : Tracker) : t.isComplete = true ↔ ∃ h, t.geom = some h ∧ t.hw = h.chunksPerFrame := by
  unfold Tracker.isComplete
  split
  · next hnone => simp [hnone]
  · next g hsome => simp [hsome]

theorem needsPass_iff (t : Tracker) (g : Geometry) (f chunk : Nat) : t.needsPass g f chunk = true ↔
    t.frame = none ∨ (∃ h, t.frame = some h ∧ h ≠ f) ∨ t.geom ≠ some g
      ∨ ((∃ h, t.geom = some h ∧ t.hw = h.chunksPerFrame) ∧ chunk = 0) := by
  have hframe : t.frame ≠ some f ↔ t.frame = none ∨ ∃ h, t.frame = some h ∧ h ≠ f := by
    cases t.frame <;> simp
  rw [← isComplete_iff, ← or_assoc, ← hframe]
  simp [Tracker.needsPass, or_assoc]

theorem line_eq (env : TrialEnv) (tr : Trial) (passes : Nat → Bool) {a : Addr} {f chunk : Nat} (h : env.place a = (f, chunk)) :
    tr.line env passes a =
      if (tr.ctx.trackers[env.raster.plane]).needsPass env.raster.geom f chunk then
        (tr.startPass env passes f chunk).map (·.classify env chunk)
      else .ok (tr.classify env chunk) := by
  simp only [Trial.line, h]
  split
  · cases tr.startPass env passes f chunk <;> rfl
  · rfl

/-! ## Step 1 of a pass start: the tie goes (R75, R84, R85) -/

/-- A record is due when each expected plane is CLOSED or ABSENT and no line is in flight (R83, R84). -/
theorem isDue_eq (r : PageRecord) : r.isDue =
    (r.planes.toList.all (fun q => q.all fun x => x.status == .closed || x.status == .absent) && r.lines == 0) := by
  have hdone : ∀ x : PlaneStatus, x.isDone = (x == .closed || x == .absent) := fun x => by cases x <;> rfl
  have hclosed : r.isClosed = true ↔
      r.planes.toList.all (fun q => q.all fun x => x.status == .closed || x.status == .absent) = true := by
    rw [all_toList_iff]
    simp only [PageRecord.isClosed, PageRecord.expected, List.all_eq_true, List.mem_filterMap, List.mem_finRange, true_and, ← hdone,
      Option.all_eq_true]
    constructor
    · exact fun h i x hx => h (i, x) ⟨i, by simp [hx]⟩
    · rintro h e ⟨i, hi⟩
      obtain ⟨x, hx, rfl⟩ := Option.map_eq_some_iff.1 hi
      exact h i x hx
  rw [PageRecord.isDue, Bool.eq_iff_iff.2 hclosed]

theorem closeTie_of_free {tr : Trial} {p : Fin 4} (h : (tr.ctx.trackers[p]).tied = none) : tr.closeTie p = tr := by
  unfold Trial.closeTie
  rw [h]

/-- The trial context with plane `p` untied from record `n`, whose OPEN plane `p` is CLOSED. -/
def Trial.untied (tr : Trial) (p : Fin 4) (n : Nat) : Context where
  trackers := upd tr.ctx.trackers p fun t => { t with tied := none }
  queue := (tr.ctx.modRecord n fun r =>
    r.modPlane p fun q => if q.status = .opened then { q with status := .closed } else q).queue

theorem closeTie_of_tied {tr : Trial} {p : Fin 4} {n : Nat} (h : (tr.ctx.trackers[p]).tied = some n) : tr.closeTie p =
    { tr with
      ctx := (tr.untied p n).dropDue, settled := tr.settled ++ (tr.untied p n).queue.filter PageRecord.isDue } := by
  unfold Trial.closeTie
  rw [h]
  rfl

theorem untie_of_free {t : Tracker} (gone : List Nat) (h : t.tied = none) : t.untie gone = t := by
  unfold Tracker.untie
  rw [h]

/-- The tracker of the plane is free after step 1, and keeps its frame, its geometry and its first-pass mark. -/
theorem closeTie_tracker {tr : Trial} {p : Fin 4} {n : Nat} (h : (tr.ctx.trackers[p]).tied = some n) :
    (tr.closeTie p).ctx.trackers[p] = { tr.ctx.trackers[p] with tied := none } := by
  have hfree : (tr.untied p n).trackers[p] = { tr.ctx.trackers[p] with tied := none } := upd_get_same _ p _
  have hkept : (tr.closeTie p).ctx.trackers[p] = ((tr.untied p n).trackers[p]).untie
      (((tr.untied p n).queue.filter PageRecord.isDue).map PageRecord.opened) := by
    rw [closeTie_of_tied h]
    exact Vector.getElem_map ..
  rw [hkept, hfree]
  exact untie_of_free _ rfl

theorem startPass_closeTie (env : TrialEnv) (passes : Nat → Bool) (tr : Trial) (f chunk : Nat) :
    (tr.closeTie env.raster.plane).startPass env passes f chunk = tr.startPass env passes f chunk := by
  have hfree : ((tr.closeTie env.raster.plane).ctx.trackers[env.raster.plane]).tied = none := by
    cases h : (tr.ctx.trackers[env.raster.plane]).tied with
    | none => rw [closeTie_of_free h]; exact h
    | some n => rw [closeTie_tracker h]
  rw [Trial.startPass, Trial.startPass, closeTie_of_free hfree]

/-! ## Step 2: the record (R75 to R77) -/

theorem lacks_iff (r : PageRecord) (p : Fin 4) (f : Nat) (g : Geometry) :
    r.lacks p f g = true ↔ r.frame = f ∧ ∃ q ∈ r.planes[p], q.status = .notSeen ∧ q.geom = g := by
  simp [PageRecord.lacks, Option.any_eq_true]

/-- The oldest record that lacks the plane is taken. -/
theorem choose_oldest {env : TrialEnv} (passes : Nat → Bool) {tr : Trial} {f : Nat} {before behind : List PageRecord} {r : PageRecord}
    (hq : tr.ctx.queue = before ++ r :: behind) (hb : ∀ x ∈ before, x.lacks env.raster.plane f env.raster.geom = false)
    (hr : r.lacks env.raster.plane f env.raster.geom = true) : tr.choose env passes f = .ok (tr, r.opened) := by
  have hfind : (tr.ctx.queue.find? fun x => x.lacks env.raster.plane f env.raster.geom) = some r :=
    List.find?_eq_some_iff_append.2 ⟨hr, before, behind, hq, fun x hx => by simp [hb x hx]⟩
  simp only [Trial.choose, hfind]

/-- Where no record lacks the plane, one opens if there is room and its reserve passes. -/
theorem choose_new {env : TrialEnv} (passes : Nat → Bool) {tr : Trial} {f : Nat}
    (h : ∀ x ∈ tr.ctx.queue, x.lacks env.raster.plane f env.raster.geom = false) : tr.choose env passes f =
      if 4 ≤ tr.ctx.queue.length then .error .held
      else if passes (tr.openedNow * env.reserve) then
        .ok ({ tr with
          ctx := { tr.ctx with queue := tr.ctx.queue ++ [env.newRecord tr.rmu f] }
          rmu := ⟨tr.rmu.recordCounter + 1, tr.rmu.opened + 1⟩
          openedNow := tr.openedNow + 1 }, tr.rmu.opened + 1)
      else .error .quota := by
  have hfind : (tr.ctx.queue.find? fun x => x.lacks env.raster.plane f env.raster.geom) = none :=
    List.find?_eq_none.2 fun x hx => by simp [h x hx]
  simp only [Trial.choose, hfind]

/-! ## Steps 3 and 4: the tie (R75) -/

/-- A record whose plane `p` a pass that starts at `chunk` takes. -/
def PageRecord.started (r : PageRecord) (p : Fin 4) (chunk : Nat) : PageRecord :=
  { r with
    planes := r.planes.set p ((r.planes[p]).map fun q => { q with status := .opened, chunks := 0 })
    irregular := r.irregular || decide (chunk ≠ 0) }

theorem tie_eq (env : TrialEnv) (tr : Trial) (n f chunk : Nat) : tr.tie env n f chunk = { tr with ctx := {
    trackers := tr.ctx.trackers.set env.raster.plane ⟨some f, some env.raster.geom, 0, some n⟩
    queue := tr.ctx.queue.map fun r => if r.opened = n then r.started env.raster.plane chunk else r } } := by
  have hpast : (chunk != 0) = decide (chunk ≠ 0) := by
    rw [Bool.eq_iff_iff, bne_iff_ne, decide_eq_true_eq]
  simp only [Trial.tie, Context.modRecord, hpast]
  rfl

theorem startPass_ok {env : TrialEnv} {passes : Nat → Bool} {tr tr' : Trial} {f n : Nat} (chunk : Nat)
    (hfree : (tr.ctx.trackers[env.raster.plane]).tied = none) (hc : tr.choose env passes f = .ok (tr', n)) :
    tr.startPass env passes f chunk = .ok (tr'.tie env n f chunk) := by
  simp only [Trial.startPass, closeTie_of_free hfree, hc]

theorem startPass_error {env : TrialEnv} {passes : Nat → Bool} {tr : Trial} {f : Nat} {e : TrialStop} (chunk : Nat)
    (hfree : (tr.ctx.trackers[env.raster.plane]).tied = none) (hc : tr.choose env passes f = .error e) :
    tr.startPass env passes f chunk = .error e := by
  simp only [Trial.startPass, closeTie_of_free hfree, hc]

/-- Of the records, the one that has just opened takes the tie. -/
theorem started_new {rs : List PageRecord} {r : PageRecord} {n : Nat} (p : Fin 4) (chunk : Nat) (hrs : ∀ x ∈ rs, x.opened < n)
    (hr : r.opened = n) : ((rs ++ [r]).map fun x => if x.opened = n then x.started p chunk else x) = rs ++ [r.started p chunk] := by
  have hold : (rs.map fun x => if x.opened = n then x.started p chunk else x) = rs := by
    conv_rhs => rw [← List.map_id rs]
    exact List.map_congr_left fun x hx => if_neg (Nat.ne_of_lt (hrs x hx))
  rw [List.map_append, hold, List.map_singleton, if_pos hr]

/-- The planes of a record that opens for plane `p`: this one OPEN, the others not seen (R76). -/
theorem started_planes (env : TrialEnv) (m : Rmu) (f : Nat) (p : Fin 4) (chunk : Nat) (q : Fin 4) :
    (((env.newRecord m f).started p chunk).planes)[q] =
      (env.planes[q]).map fun g => ⟨g, if q = p then .opened else .notSeen, 0, 0⟩ := by
  have hnew : ∀ i : Fin 4, (env.newRecord m f).planes[i] = (env.planes[i]).map fun g => ⟨g, .notSeen, 0, 0⟩ := fun i =>
    Vector.getElem_map ..
  have hset : (((env.newRecord m f).started p chunk).planes)[q] = if q = p then
      ((env.newRecord m f).planes[p]).map (fun x => { x with status := .opened, chunks := 0 }) else (env.newRecord m f).planes[q] :=
    get_set _ _ _ _
  rw [hset]
  by_cases hq : q = p
  · rw [if_pos hq, hnew, Option.map_map, hq]
    simp only [if_true]
    rfl
  · rw [if_neg hq, hnew]
    simp only [hq, if_false]

/-! ## Classification (R78, R79) -/

theorem classify_first {env : TrialEnv} {tr : Trial} {chunk n : Nat} (h : (tr.ctx.trackers[env.raster.plane]).tied = some n)
    (hc : (tr.ctx.trackers[env.raster.plane]).isComplete = false) (hw : (tr.ctx.trackers[env.raster.plane]).hw ≤ chunk) :
    tr.classify env chunk = { tr with
      ctx := {
        trackers := upd tr.ctx.trackers env.raster.plane fun t => { t with hw := chunk + 1 }
        queue := tr.ctx.queue.map fun r => if r.opened = n then
          r.firstLine env (chunk + 1) ((tr.ctx.trackers[env.raster.plane]).hw < chunk) else r }
      marks := tr.marks ++ [.first n env.raster.plane] } := by
  have hpast : decide (chunk < (tr.ctx.trackers[env.raster.plane]).hw) = false := decide_eq_false (Nat.not_lt.2 hw)
  simp only [Trial.classify, h, hc, hpast, Bool.or_self, Bool.false_eq_true, if_false]
  rfl

theorem classify_remark {env : TrialEnv} {tr : Trial} {chunk n : Nat} (h : (tr.ctx.trackers[env.raster.plane]).tied = some n)
    (hr : (tr.ctx.trackers[env.raster.plane]).isComplete = true ∨ chunk < (tr.ctx.trackers[env.raster.plane]).hw) :
    tr.classify env chunk = { tr with marks := tr.marks ++ [.remark (some n) env.raster.plane] } := by
  have hcond : ((tr.ctx.trackers[env.raster.plane]).isComplete || decide (chunk < (tr.ctx.trackers[env.raster.plane]).hw)) = true := by
    rw [Bool.or_eq_true, decide_eq_true_eq]
    exact hr
  simp only [Trial.classify, h, hcond, if_true]

theorem classify_free {env : TrialEnv} {tr : Trial} (chunk : Nat) (h : (tr.ctx.trackers[env.raster.plane]).tied = none) :
    tr.classify env chunk = { tr with marks := tr.marks ++ [.remark none env.raster.plane] } := by
  simp only [Trial.classify, h]

end Sys2Proof.Machine

namespace Sys2Proof.Proofs

open Sys2Proof Sys2Proof.Machine

/-- Settles O30, one clause after the other: the test, the steps of a pass start (`closeTie_of_tied`, `choose_oldest`, `choose_new`,
`tie_eq`), and the classification. -/
theorem lineClassified : Obligations.LineClassified := by
  unfold Obligations.LineClassified
  intro env tr f chunk passes p g t total complete closed due started lacks
  have hdue : PageRecord.isDue = due := funext isDue_eq
  have hclosed : ∀ n, (tr.untied p n).queue = tr.ctx.queue.map (closed n) := fun n => rfl
  have hlacks : ∀ r : PageRecord, r.lacks p f g = true ↔ lacks r := fun r => lacks_iff r p f g
  have hnot : ∀ r : PageRecord, ¬ lacks r → r.lacks p f g = false := fun r h => Bool.eq_false_iff.2 (mt (hlacks r).1 h)
  refine ⟨needsPass_iff t g f chunk, fun a ha => line_eq env tr passes ha, ?_, closeTie_of_free, ?_, ?_,
    fun n h hr => classify_remark h hr, classify_free chunk, ?_⟩
  · intro n u htied hu
    have htracker : u.ctx.trackers[p] = { t with tied := none } := hu ▸ closeTie_tracker htied
    have hstart := startPass_closeTie env passes tr f chunk
    have hclose := closeTie_of_tied htied
    rw [← hu] at hclose hstart
    refine ⟨?_, ?_, ?_, ?_, ?_, ?_, ?_, ?_, hstart.symm⟩
    · rw [hclose, ← hdue]
      rfl
    · rw [hclose, ← hdue]
      rfl
    · rw [htracker]
    · rw [htracker]
    · rw [htracker]
    all_goals rw [hclose]
  · intro before r behind hfree hq hb hr
    rw [startPass_ok chunk hfree (choose_oldest passes hq (fun x hx => hnot x (hb x hx)) ((hlacks r).2 hr)), tie_eq]
    rfl
  · intro n htied hc hw
    rw [classify_first htied hc hw]
    rfl
  · intro hfree hnames hnone
    have hchoose := choose_new passes fun x hx => hnot x (hnone x hx)
    refine ⟨fun hfull => ?_, fun hroom hquota => ?_, fun hroom hpasses => ?_⟩
    · rw [if_pos hfull] at hchoose
      exact startPass_error chunk hfree hchoose
    · rw [if_neg (Nat.not_le.2 hroom), if_neg (by rw [hquota]; exact Bool.false_ne_true)] at hchoose
      exact startPass_error chunk hfree hchoose
    · rw [if_neg (Nat.not_le.2 hroom), if_pos hpasses] at hchoose
      refine ⟨_, (env.newRecord tr.rmu f).started p chunk, startPass_ok chunk hfree hchoose, ?_⟩
      rw [tie_eq]
      refine ⟨started_new p chunk (fun x hx => Nat.lt_succ_of_le (hnames x hx)) rfl, rfl, rfl, rfl, rfl, rfl, rfl, rfl, ?_, rfl, rfl,
        rfl, rfl, rfl, rfl, started_planes env tr.rmu f p chunk⟩
      exact Bool.false_or _

end Sys2Proof.Proofs
end

section
/-!
Reserved amounts and postings: what each operation of ACE that moves an amount leaves in the users, the departments and the device meters
(R97, R99, R104, R105). Settles O35.
-/

namespace Sys2Proof.Machine

/-! ## Stored fields that are replaced -/

theorem putUser_user (a : Ace) (u v : Fin 256) (x : UserStored) :
    ((a.putUser u x).users[v]).stored = (if v = u then x else (a.users[v]).stored)
    ∧ ((a.putUser u x).users[v]).reserved = (a.users[v]).reserved
    ∧ ((a.putUser u x).users[v]).posting = (a.users[v]).posting := by
  simp only [Ace.putUser, upd_get]
  split <;> exact ⟨rfl, rfl, rfl⟩

theorem putDept_dept (a : Ace) (d e : Fin 16) (x : DeptStored) :
    ((a.putDept d x).depts[e]).stored = (if e = d then x else (a.depts[e]).stored)
    ∧ ((a.putDept d x).depts[e]).reserved = (a.depts[e]).reserved := by
  simp only [Ace.putDept, upd_get]
  split <;> exact ⟨rfl, rfl⟩

/-! ## Posting counts -/

theorem triggerIf_posted (a : Ace) (r : RecId) (p : Prop) [Decidable p] : a.Posted (if p then a.trigger r else a) := by
  split
  · exact (trigger_stands a r).2
  · exact .refl a

theorem countUser_posted (a : Ace) (u : Fin 256) :
    ({ a with users := upd a.users u fun r => { r with posting := postingUp r.posting } } : Ace).Posted (a.countUser u) :=
  triggerIf_posted _ _ _

theorem countDept_posted (a : Ace) (d : Fin 16) :
    ({ a with depts := upd a.depts d fun r => { r with posting := postingUp r.posting } } : Ace).Posted (a.countDept d) :=
  triggerIf_posted _ _ _

theorem countMeters_posted (a : Ace) :
    ({ a with meters := { a.meters with posting := postingUp a.meters.posting } } : Ace).Posted a.countMeters :=
  triggerIf_posted _ _ _

theorem countUser_user (a : Ace) (u v : Fin 256) :
    ((a.countUser u).users[v]).stored = (a.users[v]).stored ∧ ((a.countUser u).users[v]).reserved = (a.users[v]).reserved
    ∧ ((a.countUser u).users[v]).posting = if v = u then postingUp (a.users[v]).posting else (a.users[v]).posting := by
  obtain ⟨hs, hr, hp⟩ := (countUser_posted a u).users v
  rw [hs, hr, hp]
  simp only [upd_get]
  split <;> exact ⟨rfl, rfl, rfl⟩

theorem countDept_dept (a : Ace) (d e : Fin 16) :
    ((a.countDept d).depts[e]).stored = (a.depts[e]).stored ∧ ((a.countDept d).depts[e]).reserved = (a.depts[e]).reserved := by
  obtain ⟨hs, hr, -⟩ := (countDept_posted a d).depts e
  rw [hs, hr]
  simp only [upd_get]
  split <;> exact ⟨rfl, rfl⟩

/-! ## Postings to a department, and reserved amounts -/

theorem postDept_users (a : Ace) (u v : Fin 256) (x : Nat) :
    ((a.postDept u x).users[v]).stored = (a.users[v]).stored ∧ ((a.postDept u x).users[v]).reserved = (a.users[v]).reserved
    ∧ ((a.postDept u x).users[v]).posting = (a.users[v]).posting := by
  unfold Ace.postDept
  split
  · exact ⟨rfl, rfl, rfl⟩
  · exact (countDept_posted _ _).users v

theorem postDept_meters (a : Ace) (u : Fin 256) (x : Nat) : (a.postDept u x).meters.stored = a.meters.stored := by
  unfold Ace.postDept
  split
  · rfl
  · exact (countDept_posted _ _).meters.1

theorem postDept_dept (a : Ace) (u : Fin 256) (x : Nat) (d : Fin 16) :
    ((a.postDept u x).depts[d]).stored = (if a.deptOf u = some d then
        { (a.depts[d]).stored with used := sat32 ((a.depts[d]).stored.used + x) } else (a.depts[d]).stored)
    ∧ ((a.postDept u x).depts[d]).reserved = (a.depts[d]).reserved := by
  unfold Ace.postDept
  split
  · next hnone => simp [hnone]
  · next e hsome =>
    obtain ⟨hs, hr⟩ := countDept_dept (a.putDept e { (a.depts[e]).stored with used := sat32 ((a.depts[e]).stored.used + x) }) e d
    obtain ⟨gs, gr⟩ := putDept_dept a e d { (a.depts[e]).stored with used := sat32 ((a.depts[e]).stored.used + x) }
    rw [hs, hr, gs, gr, hsome]
    by_cases he : d = e
    · subst he
      simp
    · rw [if_neg he, if_neg fun h => he (Option.some.inj h).symm]
      exact ⟨rfl, rfl⟩

theorem modReserved_user (a : Ace) (u v : Fin 256) (f : Nat → Nat) :
    ((a.modReserved u f).users[v]).stored = (a.users[v]).stored
    ∧ ((a.modReserved u f).users[v]).reserved = (if v = u then f (a.users[v]).reserved else (a.users[v]).reserved)
    ∧ ((a.modReserved u f).users[v]).posting = (a.users[v]).posting := by
  simp only [Ace.modReserved, upd_get]
  split <;> exact ⟨rfl, rfl, rfl⟩

theorem modReserved_dept (a : Ace) (u : Fin 256) (f : Nat → Nat) (d : Fin 16) :
    ((a.modReserved u f).depts[d]).stored = (a.depts[d]).stored
    ∧ ((a.modReserved u f).depts[d]).reserved =
      if a.deptOf u = some d then f (a.depts[d]).reserved else (a.depts[d]).reserved := by
  unfold Ace.modReserved
  cases hu : a.deptOf u with
  | none => simp
  | some e =>
    simp only [upd_get, Option.some.injEq, eq_comm (a := e)]
    split <;> exact ⟨rfl, rfl⟩

/-! ## The posting of a charge -/

/-- ACE when a charge has reached its user and the department, before the reserve is given back. -/
def Ace.chargedUser (a : Ace) (r : PageRecord) (p : PageCharge) : Ace :=
  ((a.putUser r.user ((a.users[r.user]).stored.post p.charge p.colour)).countUser r.user).postDept r.user p.charge

theorem chargedUser_deptOf (a : Ace) (r : PageRecord) (p : PageCharge) (v : Fin 256) :
    ((a.putUser r.user ((a.users[r.user]).stored.post p.charge p.colour)).countUser r.user).deptOf v = a.deptOf v := by
  obtain ⟨hs, -, -⟩ := countUser_user (a.putUser r.user ((a.users[r.user]).stored.post p.charge p.colour)) r.user v
  rw [Ace.deptOf, hs, (putUser_user _ _ _ _).1, Ace.deptOf]
  split
  · next h => rw [h]; rfl
  · rfl

/-- What a charge leaves in every user's record. -/
theorem postCharge_user (a : Ace) (r : PageRecord) (p : PageCharge) (v : Fin 256) :
    ((a.postCharge r p).users[v]).stored =
      (if v = r.user then (a.users[v]).stored.post p.charge p.colour else (a.users[v]).stored)
    ∧ ((a.postCharge r p).users[v]).reserved =
      (if v = r.user then (a.users[v]).reserved - r.reserve else (a.users[v]).reserved)
    ∧ ((a.postCharge r p).users[v]).posting = if v = r.user then postingUp (a.users[v]).posting else (a.users[v]).posting := by
  obtain ⟨ms, mr, mp⟩ := (countMeters_posted (((a.chargedUser r p).modReserved r.user (· - r.reserve)).putMeters
    (((a.chargedUser r p).modReserved r.user (· - r.reserve)).meters.stored.raise r.unproven
      (meterIndex (Fin.ofNat 8 p.chargeClass) p.colour)))).users v
  obtain ⟨rs, rr, rp⟩ := modReserved_user (a.chargedUser r p) r.user v (· - r.reserve)
  obtain ⟨ds, dr, dp⟩ := postDept_users
    ((a.putUser r.user ((a.users[r.user]).stored.post p.charge p.colour)).countUser r.user) r.user v p.charge
  obtain ⟨cs, cr, cp⟩ := countUser_user (a.putUser r.user ((a.users[r.user]).stored.post p.charge p.colour)) r.user v
  obtain ⟨us, ur, up⟩ := putUser_user a r.user v ((a.users[r.user]).stored.post p.charge p.colour)
  refine ⟨ms.trans (rs.trans (ds.trans (cs.trans (us.trans ?_)))), mr.trans (rr.trans ?_),
    mp.trans (rp.trans (dp.trans (cp.trans ?_)))⟩
  · split
    · next h => rw [h]
    · rfl
  · rw [Ace.chargedUser, dr, cr, ur]
  · rw [up]

/-- What a charge leaves in every department's record. -/
theorem postCharge_dept (a : Ace) (r : PageRecord) (p : PageCharge) (d : Fin 16) :
    ((a.postCharge r p).depts[d]).stored = (if a.deptOf r.user = some d then
        { (a.depts[d]).stored with used := sat32 ((a.depts[d]).stored.used + p.charge) } else (a.depts[d]).stored)
    ∧ ((a.postCharge r p).depts[d]).reserved =
      if a.deptOf r.user = some d then (a.depts[d]).reserved - r.reserve else (a.depts[d]).reserved := by
  obtain ⟨ms, mr, -⟩ := (countMeters_posted (((a.chargedUser r p).modReserved r.user (· - r.reserve)).putMeters
    (((a.chargedUser r p).modReserved r.user (· - r.reserve)).meters.stored.raise r.unproven
      (meterIndex (Fin.ofNat 8 p.chargeClass) p.colour)))).depts d
  obtain ⟨rs, rr⟩ := modReserved_dept (a.chargedUser r p) r.user (· - r.reserve) d
  obtain ⟨ds, dr⟩ := postDept_dept
    ((a.putUser r.user ((a.users[r.user]).stored.post p.charge p.colour)).countUser r.user) r.user p.charge d
  obtain ⟨cs, cr, -⟩ :=
    (countUser_posted (a.putUser r.user ((a.users[r.user]).stored.post p.charge p.colour)) r.user).depts d
  have hdept : (a.chargedUser r p).deptOf r.user = a.deptOf r.user := by
    rw [← chargedUser_deptOf a r p r.user]
    exact congrArg UserStored.department (postDept_users _ _ _ _).1
  rw [chargedUser_deptOf, cs] at ds
  rw [hdept] at rr
  exact ⟨ms.trans (rs.trans ds), mr.trans (rr.trans (by rw [Ace.chargedUser, dr, cr]; rfl))⟩

theorem postCharge_meters (a : Ace) (r : PageRecord) (p : PageCharge) : (a.postCharge r p).meters.stored =
    a.meters.stored.raise r.unproven (meterIndex (Fin.ofNat 8 p.chargeClass) p.colour) := by
  have hmeters : (a.chargedUser r p).meters.stored = a.meters.stored := by
    rw [Ace.chargedUser, postDept_meters]
    exact (countUser_posted _ _).meters.1
  refine (countMeters_posted _).meters.1.trans ?_
  show (a.chargedUser r p).meters.stored.raise _ _ = _
  rw [hmeters]

theorem meterIndex_val {n : Nat} (h : n < 8) (colour : Bool) :
    (meterIndex (Fin.ofNat 8 n) colour).val = 2 * n + if colour then 1 else 0 := by
  cases colour <;> simp [meterIndex, Nat.mod_eq_of_lt h]

/-- One counter of one bank rises. -/
theorem raise_counters (m : Meters) (outside : Bool) (i k : Fin 16) :
    (m.raise outside i).contract[k] = (if outside = false ∧ k.val = i.val then sat32 (m.contract[k] + 1) else m.contract[k])
    ∧ (m.raise outside i).outside[k] = if outside = true ∧ k.val = i.val then sat32 (m.outside[k] + 1) else m.outside[k] := by
  cases outside with
  | false => exact ⟨(upd_get m.contract i k _).trans (by simp [Fin.ext_iff]), by simp [Meters.raise]⟩
  | true => exact ⟨by simp [Meters.raise], (upd_get m.outside i k _).trans (by simp [Fin.ext_iff])⟩

/-! ## The reserve check -/

theorem userTest_iff (a : Ace) (u : Fin 256) (more r : Nat) : a.userTest u more r = true ↔
    -((a.users[u]).stored.overdraft : Int) ≤ (a.users[u]).stored.balance - ((a.users[u]).reserved + more : Nat) - r := by
  simp [Ace.userTest]

theorem deptTest_iff (a : Ace) (u : Fin 256) (more r : Nat) : a.deptTest u more r = true ↔
    ∀ (d : Fin 16) (limit : Nat), a.deptOf u = some d → (a.depts[d]).stored.allowance = some limit →
      (a.depts[d]).stored.used + ((a.depts[d]).reserved + more) + r ≤ limit := by
  unfold Ace.deptTest
  split
  · next hnone => simp [hnone]
  · next d hsome =>
    split
    · next hfree =>
      refine iff_of_true rfl fun e l he hl => ?_
      cases Option.some.inj (hsome.symm.trans he)
      cases hfree.symm.trans hl
    · next limit hlimit =>
      refine decide_eq_true_iff.trans ⟨fun h e l he hl => ?_, fun h => h d limit hsome hlimit⟩
      cases Option.some.inj (hsome.symm.trans he)
      cases Option.some.inj (hlimit.symm.trans hl)
      exact h

theorem reservePasses_iff (a : Ace) (u : Fin 256) (more r : Nat) : a.reservePasses u more r = true ↔
    -((a.users[u]).stored.overdraft : Int) ≤ (a.users[u]).stored.balance - ((a.users[u]).reserved + more : Nat) - r
    ∧ ∀ (d : Fin 16) (limit : Nat), a.deptOf u = some d → (a.depts[d]).stored.allowance = some limit →
        (a.depts[d]).stored.used + ((a.depts[d]).reserved + more) + r ≤ limit := by
  rw [Ace.reservePasses, Bool.and_eq_true, userTest_iff, deptTest_iff]

/-! ## The bounds of users and departments (R104) -/

/-- Every user is within its overdraft limit and every limited department within its allowance. -/
def Ace.Within (a : Ace) : Prop :=
  (∀ u : Fin 256, -((a.users[u]).stored.overdraft : Int) ≤ (a.users[u]).stored.balance - (a.users[u]).reserved)
  ∧ ∀ (d : Fin 16) (limit : Nat), (a.depts[d]).stored.allowance = some limit →
      (a.depts[d]).stored.used + (a.depts[d]).reserved ≤ limit

/-- A reserve that passes its check keeps the bounds, on top of what earlier grants of the same trial have raised. -/
theorem within_reserve {a : Ace} {u : Fin 256} {more r : Nat} (h : a.Within) (hr : a.reservePasses u more r = true) :
    (a.modReserved u (· + (more + r))).Within := by
  obtain ⟨huser, hdept⟩ := (reservePasses_iff a u more r).1 hr
  obtain ⟨hu, hd⟩ := h
  refine ⟨fun v => ?_, fun d limit hlimit => ?_⟩
  · obtain ⟨hs, hres, -⟩ := modReserved_user a u v (· + (more + r))
    rw [hs, hres]
    split
    · next h => subst h; omega
    · exact hu v
  · obtain ⟨hs, hres⟩ := modReserved_dept a u (· + (more + r)) d
    rw [hs] at hlimit ⊢
    rw [hres]
    split
    · next h => have := hdept d limit h hlimit; omega
    · exact hd d limit hlimit

/-- A charge within its reserve keeps the bounds. -/
theorem within_postCharge {a : Ace} {r : PageRecord} {p : PageCharge} (h : a.Within) (hp : p.charge ≤ r.reserve)
    (hu : r.reserve ≤ (a.users[r.user]).reserved) (hd : ∀ d, a.deptOf r.user = some d → r.reserve ≤ (a.depts[d]).reserved) :
    (a.postCharge r p).Within := by
  obtain ⟨huser, hdept⟩ := h
  refine ⟨fun v => ?_, fun d limit hlimit => ?_⟩
  · obtain ⟨hs, hres, -⟩ := postCharge_user a r p v
    rw [hs, hres]
    split
    · next h =>
      subst h
      have := huser r.user
      simp only [UserStored.post]
      omega
    · exact huser v
  · obtain ⟨hs, hres⟩ := postCharge_dept a r p d
    rw [hs] at hlimit ⊢
    rw [hres]
    split at hlimit
    · next h =>
      have hsat : sat32 ((a.depts[d]).stored.used + p.charge) ≤ (a.depts[d]).stored.used + p.charge := Nat.min_le_right _ _
      have hlim := hdept d limit hlimit
      have hd := hd d h
      rw [if_pos h, if_pos h]
      dsimp only
      omega
    · next h =>
      rw [if_neg h, if_neg h]
      exact hdept d limit hlimit

theorem settle_counters {s : State} {r : PageRecord} (report : Bool) (h : r.isCharged = true) :
    ((s.settle report r).job r.job).counters = (s.job r.job).counters.post (s.price r).charge (s.price r).colour := by
  cases report with
  | true => rw [settle_charged h, chargedPosted_counters]
  | false =>
    rw [State.settle, if_pos h]
    exact congrArg JobSlot.counters (State.modJob_job_same _ r.job _)

end Sys2Proof.Machine

namespace Sys2Proof.Proofs

open Sys2Proof Sys2Proof.Machine

/-- Settles O35, from the rules of the reserve check (`reservePasses_iff`), of the bounds (`within_reserve`, `within_postCharge`) and of a
posting (`postCharge_user`, `postCharge_dept`, `postCharge_meters`). -/
theorem chargePosted : Obligations.ChargePosted := by
  unfold Obligations.ChargePosted
  refine ⟨reservePasses_iff, ⟨fun a u r hgood hr => ?_, fun a r p hgood hp hu hd => ?_⟩,
    ?_, fun s r report h => settle_counters report h⟩
  · have hkept : (a.modReserved u (· + (0 + r))).Within := within_reserve hgood hr
    rwa [Nat.zero_add] at hkept
  · have hkept : (a.postCharge r p).Within := within_postCharge hgood hp hu hd
    exact hkept
  · intro a r p hclass
    dsimp only
    obtain ⟨hstored, hreserved, hposting⟩ := postCharge_user a r p r.user
    refine ⟨hstored.trans (if_pos rfl), hreserved.trans (if_pos rfl), hposting.trans (if_pos rfl), fun v hv => ?_, fun d hd => ?_,
      fun d hd => ?_, fun k => ?_⟩
    · obtain ⟨gs, gr, -⟩ := postCharge_user a r p v
      exact ⟨gs.trans (if_neg hv), gr.trans (if_neg hv)⟩
    · obtain ⟨gs, gr⟩ := postCharge_dept a r p d
      rw [if_pos (show a.deptOf r.user = some d from hd)] at gs gr
      rw [gs]
      exact ⟨rfl, gr, rfl⟩
    · obtain ⟨gs, gr⟩ := postCharge_dept a r p d
      exact ⟨gs.trans (if_neg hd), gr.trans (if_neg hd)⟩
    · obtain ⟨hcontract, houtside⟩ :=
        raise_counters a.meters.stored r.unproven (meterIndex (Fin.ofNat 8 p.chargeClass) p.colour) k
      rw [meterIndex_val hclass] at hcontract houtside
      rw [postCharge_meters]
      exact ⟨hcontract, houtside⟩

end Sys2Proof.Proofs
end

section
/-!
The class lookups, the page reserve and the charge in closed form, and the bound of a charge by the reserve of its job (R91, R96, R100 to
R104). Settles O34.
-/

namespace Sys2Proof.Machine

/-! ## The first and the last index with a property -/

theorem find_first_iff {n : Nat} (p : Fin n → Bool) (i : Fin n) :
    (List.finRange n).find? p = some i ↔ p i = true ∧ ∀ k < i, p k = false := by
  rw [List.find?_eq_some_iff_getElem]
  refine and_congr_right fun _ => ⟨fun ⟨m, hm, hi, hbefore⟩ k hk => ?_, fun hbefore => ?_⟩
  · have hval : m = i.val := by rw [← hi]; simp
    simpa using hbefore k.val (by omega)
  · exact ⟨i.val, by simp, by simp, fun m hm => by simpa using hbefore ⟨m, by omega⟩ hm⟩

theorem find_last_iff {n : Nat} (p : Fin n → Bool) (i : Fin n) :
    (List.finRange n).reverse.find? p = some i ↔ p i = true ∧ ∀ k, i < k → p k = false := by
  have hrev : (List.finRange n).reverse.find? p = some i ↔ (List.finRange n).find? (p ∘ Fin.rev) = some i.rev := by
    rw [List.finRange_reverse, List.find?_map, Option.map_eq_some_iff]
    exact ⟨fun ⟨k, hk, hi⟩ => by rw [hk, ← hi, Fin.rev_rev], fun h => ⟨i.rev, h, Fin.rev_rev i⟩⟩
  rw [hrev, find_first_iff]
  simp only [Function.comp, Fin.rev_rev]
  refine and_congr_right fun _ => ⟨fun h k hk => ?_, fun h k hk => h k.rev (Fin.lt_rev_iff.1 hk)⟩
  simpa using h k.rev (Fin.rev_lt_rev.2 hk)

/-! ## Class lookups (R91) -/

/-- Some entry of the table is valid. -/
def hasClass (t : ClassTable) : Prop := ∃ k : Fin 8, (t[k]).valid = true

/-- Index `k` is valid and admits `lines` by `dots`. -/
def fitsClass (t : ClassTable) (lines dots : Nat) (k : Fin 8) : Prop :=
  (t[k]).valid = true ∧ lines ≤ (t[k]).maxLines ∧ dots ≤ (t[k]).maxDots

/-- The largest valid index is `i`. -/
def lastClass (t : ClassTable) (i : Fin 8) : Prop := (t[i]).valid = true ∧ ∀ k : Fin 8, i < k → (t[k]).valid = false

theorem fitsClass_iff (t : ClassTable) (lines dots : Nat) (k : Fin 8) :
    ((t[k]).valid && (t[k]).admits lines dots) = true ↔ fitsClass t lines dots k := by
  simp [fitsClass, ClassEntry.admits]

theorem largestClass_iff {t : ClassTable} (h : hasClass t) (i : Fin 8) : largestClass t = i ↔ lastClass t i := by
  obtain ⟨k, hk⟩ := h
  obtain ⟨m, hm⟩ := Option.isSome_iff_exists.1
    (List.find?_isSome.2 ⟨k, List.mem_reverse.2 (List.mem_finRange k), hk⟩ :
      ((List.finRange 8).reverse.find? fun i : Fin 8 => (t[i]).valid).isSome = true)
  rw [← show _ ↔ lastClass t i from find_last_iff (fun i : Fin 8 => (t[i]).valid) i, hm, largestClass, hm, Option.getD_some,
    Option.some.injEq]

theorem smallestClass_eq {t : ClassTable} {i : Fin 8} (hi : (t[i]).valid = true) (hbefore : ∀ k < i, (t[k]).valid = false) :
    smallestClass t = i := by
  rw [smallestClass, (find_first_iff (fun i : Fin 8 => (t[i]).valid) i).2 ⟨hi, hbefore⟩, Option.getD_some]

theorem classOf_fits_iff (t : ClassTable) (lines dots : Nat) (i : Fin 8) :
    classOf t lines dots = (i, false) ↔ fitsClass t lines dots i ∧ ∀ k < i, ¬ fitsClass t lines dots k := by
  have hfirst := find_first_iff (fun k : Fin 8 => (t[k]).valid && (t[k]).admits lines dots) i
  simp only [← Bool.not_eq_true, fitsClass_iff] at hfirst
  rw [← hfirst, classOf]
  split
  · next m hm => rw [hm, Prod.mk.injEq, Option.some.injEq, and_iff_left rfl]
  · next hnone => exact iff_of_false (fun e => by cases congrArg Prod.snd e) (by rw [hnone]; exact nofun)

theorem classOf_oversize_iff {t : ClassTable} (h : hasClass t) (lines dots : Nat) (i : Fin 8) :
    classOf t lines dots = (i, true) ↔ (∀ k, ¬ fitsClass t lines dots k) ∧ lastClass t i := by
  have hnone : (List.finRange 8).find? (fun k : Fin 8 => (t[k]).valid && (t[k]).admits lines dots) = none ↔
      ∀ k, ¬ fitsClass t lines dots k := by
    simp only [List.find?_eq_none, List.mem_finRange, true_implies, fitsClass_iff]
  rw [← hnone, ← largestClass_iff h, classOf]
  split
  · next m hm => exact iff_of_false (fun e => by cases congrArg Prod.snd e) fun e => by cases hm.symm.trans e.1
  · next hm => exact ⟨fun e => ⟨hm, congrArg Prod.fst e⟩, fun e => Prod.ext e.2 rfl⟩

theorem effectiveClass_iff {t : ClassTable} (h : hasClass t) (d i : Fin 8) : effectiveClass t d = i ↔
    ((t[i]).valid = true ∧ d ≤ i ∧ ∀ k : Fin 8, d ≤ k → k < i → (t[k]).valid = false)
    ∨ ((∀ k : Fin 8, d ≤ k → (t[k]).valid = false) ∧ lastClass t i) := by
  have hfirst := find_first_iff fun i : Fin 8 => decide (d ≤ i) && (t[i]).valid
  rw [effectiveClass]
  cases hfind : (List.finRange 8).find? fun i : Fin 8 => decide (d ≤ i) && (t[i]).valid with
  | some m =>
    obtain ⟨hm, hbefore⟩ := (hfirst m).1 hfind
    have hm : d ≤ m ∧ (t[m]).valid = true := by simpa using hm
    rw [Option.getD_some]
    refine ⟨fun e => .inl ?_, fun hi => ?_⟩
    · subst e
      exact ⟨hm.2, hm.1, fun k hd hk => by simpa [hd] using hbefore k hk⟩
    · rcases hi with ⟨hvalid, hd, hi⟩ | ⟨hnone, -⟩
      · refine Option.some.inj (hfind.symm.trans ((hfirst i).2 ⟨by simp [-Fin.getElem_fin, hd, hvalid], fun k hk => ?_⟩))
        by_cases hdk : d ≤ k
        · simp [-Fin.getElem_fin, hi k hdk hk]
        · simp [hdk]
      · exact absurd hm.2 (by rw [hnone m hm.1]; exact Bool.false_ne_true)
  | none =>
    have hnone : ∀ k : Fin 8, d ≤ k → (t[k]).valid = false := fun k hd => by
      simpa [hd] using List.find?_eq_none.1 hfind k (List.mem_finRange k)
    rw [Option.getD_none, largestClass_iff h]
    exact ⟨fun hi => .inr ⟨hnone, hi⟩,
      fun hi => hi.elim (fun ⟨hvalid, hd, _⟩ => absurd hvalid (by rw [hnone i hd]; exact Bool.false_ne_true)) And.right⟩

/-! ## Valid classes and their order -/

theorem lastClass_ge {t : ClassTable} {i k : Fin 8} (h : lastClass t i) (hk : (t[k]).valid = true) : k ≤ i := by
  by_contra hlt
  exact Bool.false_ne_true ((h.2 k (not_le.1 hlt)).symm.trans hk)

theorem largestClass_last {t : ClassTable} (h : hasClass t) : lastClass t (largestClass t) := (largestClass_iff h _).1 rfl

/-- A lookup finds the first index that fits, or the largest valid one where none fits. -/
theorem classOf_cases {t : ClassTable} (h : hasClass t) (lines dots : Nat) :
    (fitsClass t lines dots (classOf t lines dots).1 ∧ ∀ k < (classOf t lines dots).1, ¬ fitsClass t lines dots k)
    ∨ ((∀ k, ¬ fitsClass t lines dots k) ∧ lastClass t (classOf t lines dots).1) := by
  cases hover : (classOf t lines dots).2 with
  | false => exact .inl ((classOf_fits_iff t lines dots _).1 (Prod.ext rfl hover))
  | true => exact .inr ((classOf_oversize_iff h lines dots _).1 (Prod.ext rfl hover))

theorem classOf_valid {t : ClassTable} (h : hasClass t) (lines dots : Nat) : (t[(classOf t lines dots).1]).valid = true := by
  rcases classOf_cases h lines dots with ⟨hfits, -⟩ | ⟨-, hlast⟩
  · exact hfits.1
  · exact hlast.1

/-- A larger sheet is of no smaller class. -/
theorem classOf_mono {t : ClassTable} (h : hasClass t) {lines lines' dots dots' : Nat} (hl : lines ≤ lines') (hd : dots ≤ dots') :
    (classOf t lines dots).1 ≤ (classOf t lines' dots').1 := by
  have hsmaller : ∀ k, fitsClass t lines' dots' k → fitsClass t lines dots k :=
    fun k ⟨hv, hl', hd'⟩ => ⟨hv, hl.trans hl', hd.trans hd'⟩
  rcases classOf_cases h lines' dots' with ⟨hfits, -⟩ | ⟨-, hlast⟩
  · rcases classOf_cases h lines dots with ⟨-, hfirst⟩ | ⟨hnone, -⟩
    · exact not_lt.1 fun hlt => hfirst _ hlt (hsmaller _ hfits)
    · exact absurd (hsmaller _ hfits) (hnone _)
  · exact lastClass_ge hlast (classOf_valid h lines dots)

/-- The class of the smallest sheet is the smallest valid one. -/
theorem classOf_zero_le {t : ClassTable} (h : hasClass t) {k : Fin 8} (hk : (t[k]).valid = true) : (classOf t 0 0).1 ≤ k := by
  have hfits : ∀ k : Fin 8, (t[k]).valid = true → fitsClass t 0 0 k := fun k hk => ⟨hk, Nat.zero_le _, Nat.zero_le _⟩
  rcases classOf_cases h 0 0 with ⟨-, hfirst⟩ | ⟨hnone, -⟩
  · exact not_lt.1 fun hlt => hfirst k hlt (hfits k hk)
  · exact absurd (hfits k hk) (hnone k)

theorem effectiveClass_valid {t : ClassTable} (h : hasClass t) (d : Fin 8) : (t[effectiveClass t d]).valid = true := by
  rcases (effectiveClass_iff h d _).1 rfl with ⟨hv, -⟩ | ⟨-, hlast⟩
  · exact hv
  · exact hlast.1

theorem smallestClass_classOf {t : ClassTable} (h : hasClass t) : smallestClass t = (classOf t 0 0).1 :=
  smallestClass_eq (classOf_valid h 0 0) fun k hk => by
    by_contra hv
    exact absurd (classOf_zero_le h (by simpa using hv)) (not_le.2 hk)

theorem raisedClass_valid {t : ClassTable} (h : hasClass t) (declared : Option (Fin 8)) {c : Fin 8} (hc : (t[c]).valid = true) :
    (t[raisedClass t declared c]).valid = true := by
  cases declared with
  | none => exact hc
  | some d =>
    rcases max_choice c (effectiveClass t d) with he | he
    · simpa only [raisedClass, he] using hc
    · simpa only [raisedClass, he] using effectiveClass_valid h d

theorem raisedClass_mono (t : ClassTable) (declared : Option (Fin 8)) {c e : Fin 8} (h : c ≤ e) :
    raisedClass t declared c ≤ raisedClass t declared e := by
  cases declared with
  | none => exact h
  | some d => exact max_le_max_right _ h

/-! ## A sound table (R91) -/

theorem ClassEntry.le_iff (a b : ClassEntry) : a.le b = true ↔
    a.maxLines ≤ b.maxLines ∧ a.maxDots ≤ b.maxDots ∧ a.basePrice ≤ b.basePrice ∧ a.colourPrice ≤ b.colourPrice := by
  simp [ClassEntry.le, and_assoc]

theorem classListMonotone_iff (l : List ClassEntry) : classListMonotone l = true ↔ l.Pairwise fun a b => a.le b = true := by
  have htrans : ∀ {a b c : ClassEntry}, a.le b = true → b.le c = true → a.le c = true := by
    simp only [ClassEntry.le_iff]
    omega
  rw [← @List.isChain_iff_pairwise _ (fun a b : ClassEntry => a.le b = true) l ⟨htrans⟩]
  induction l with
  | nil => simp [classListMonotone]
  | cons a l ih =>
    cases l with
    | nil => simp [classListMonotone]
    | cons b rest =>
      rw [classListMonotone, Bool.and_eq_true, List.isChain_cons_cons]
      exact and_congr_right fun _ => ih

/-- A sound table is monotone over its valid entries, and some entry is valid. -/
theorem sound_iff (t : ClassTable) : ClassTable.sound t = true ↔
    (∀ i j : Fin 8, i < j → (t[i]).valid = true → (t[j]).valid = true → (t[i]).maxLines ≤ (t[j]).maxLines
      ∧ (t[i]).maxDots ≤ (t[j]).maxDots ∧ (t[i]).basePrice ≤ (t[j]).basePrice ∧ (t[i]).colourPrice ≤ (t[j]).colourPrice)
    ∧ hasClass t := by
  rw [ClassTable.sound, Bool.and_eq_true, classListMonotone_iff, ClassTable.valids, List.pairwise_filter, List.pairwise_iff_getElem]
  refine and_congr ⟨fun h i j hij hi hj => ?_, fun h i j hi hj hij hvi hvj => ?_⟩ ?_
  · exact (ClassEntry.le_iff _ _).1 (h i.val j.val (by simp) (by simp) hij hi hj)
  · exact (ClassEntry.le_iff _ _).2 (h ⟨i, by simpa using hi⟩ ⟨j, by simpa using hj⟩ hij hvi hvj)
  · simp only [Bool.not_eq_true', List.isEmpty_eq_false_iff_exists_mem, List.mem_filter]
    refine ⟨fun ⟨e, he, hv⟩ => ?_, fun ⟨k, hk⟩ => ⟨t[k], by simp, hk⟩⟩
    obtain ⟨k, hk, rfl⟩ := List.getElem_of_mem he
    exact ⟨⟨k, by simpa using hk⟩, hv⟩

/-- In a sound table, a valid class at or above another has no lower price. -/
theorem prices_mono {t : ClassTable} (h : ClassTable.sound t = true) {i j : Fin 8} (hij : i ≤ j) (hi : (t[i]).valid = true)
    (hj : (t[j]).valid = true) : (t[i]).basePrice ≤ (t[j]).basePrice ∧ (t[i]).colourPrice ≤ (t[j]).colourPrice := by
  rcases eq_or_lt_of_le hij with rfl | hlt
  · exact ⟨le_rfl, le_rfl⟩
  · obtain ⟨-, -, hprices⟩ := ((sound_iff t).1 h).1 i j hlt hi hj
    exact hprices

/-! ## The greatest of a list -/

theorem listMax_le {ns : List Nat} {m : Nat} (h : ∀ n ∈ ns, n ≤ m) : listMax ns ≤ m := by
  induction ns with
  | nil => exact Nat.zero_le m
  | cons n ns ih => exact max_le (h n List.mem_cons_self) (ih fun k hk => h k (List.mem_cons_of_mem n hk))

theorem le_listMax {ns : List Nat} {n : Nat} (h : n ∈ ns) : n ≤ listMax ns := by
  induction ns with
  | nil => cases h
  | cons m ns ih =>
    rcases List.mem_cons.1 h with rfl | h
    · exact le_max_left _ _
    · exact (ih h).trans (le_max_right _ _)

theorem listMax_eq {ns : List Nat} {m : Nat} (hm : m ∈ ns) (h : ∀ n ∈ ns, n ≤ m) : listMax ns = m :=
  le_antisymm (listMax_le h) (le_listMax hm)

/-! ## The measures of a record (R100 to R102) -/

theorem mem_expected (r : PageRecord) (p : Fin 4) (q : PlaneRec) : (p, q) ∈ r.expected ↔ r.planes[p] = some q := by
  simp [PageRecord.expected, List.mem_filterMap]

/-- The expected planes, by index. -/
theorem expected_map {α : Type} (r : PageRecord) (f : PlaneRec → α) (g : Fin 4 → α)
    (h : ∀ (p : Fin 4) (q : PlaneRec), r.planes[p] = some q → g p = f q) :
    r.expected.map (fun e => f e.2) = ((List.finRange 4).filter fun p => (r.planes[p]).isSome).map g := by
  rw [PageRecord.expected, List.map_filterMap, ← List.filterMap_eq_map, ← List.filterMap_eq_filter, List.filterMap_filterMap]
  refine List.filterMap_congr fun p _ => ?_
  cases hp : r.planes[p] with
  | none => simp [Option.guard, hp]
  | some q => simp [Option.guard, hp, h p q hp]

theorem expected_length (r : PageRecord) :
    r.expected.length = ((List.finRange 4).filter fun p => (r.planes[p]).isSome).length := by
  have := congrArg List.length (expected_map r (fun _ => ()) (fun _ => ()) fun _ _ _ => rfl)
  simpa only [List.length_map] using this

theorem linesReached_eq (q : PlaneRec) :
    q.linesReached = (q.chunks + q.geom.stride / 64 - 1) / (q.geom.stride / 64) := by
  rw [PlaneRec.linesReached, Geometry.chunksPerLine]
  rcases Nat.eq_zero_or_pos (q.geom.stride / 64) with h | h
  · simp [h]
  · rw [Nat.add_sub_assoc h]

/-- A plane that is not read past its frame reaches no more lines than the frame has. -/
theorem linesReached_le {q : PlaneRec} (hc : q.chunks ≤ q.geom.chunksPerFrame) (hs : 64 ≤ q.geom.stride) :
    q.linesReached ≤ q.geom.frameLines := by
  have hline : 0 < q.geom.chunksPerLine := Nat.div_pos hs (by omega)
  rw [PlaneRec.linesReached]
  refine Nat.le_of_lt_succ (Nat.div_lt_of_lt_mul ?_)
  rw [Geometry.chunksPerFrame] at hc
  rw [Nat.mul_succ]
  omega

theorem isColour_iff (r : PageRecord) (threshold : Nat) : r.isColour threshold = true ↔
    ∃ (i : Fin 4) (q : PlaneRec), i ≠ 0 ∧ r.planes[i] = some q ∧ threshold ≤ q.coverage := by
  simp only [PageRecord.isColour, List.any_eq_true, Prod.exists, mem_expected, isColourPlane, Bool.and_eq_true, bne_iff_ne,
    decide_eq_true_eq]
  exact ⟨fun ⟨i, q, hq, hi, hc⟩ => ⟨i, q, hi, hq, hc⟩, fun ⟨i, q, hi, hq, hc⟩ => ⟨i, q, hq, hi, hc⟩⟩

theorem pageLines_le {r : PageRecord} {n : Nat} (h : ∀ (p : Fin 4) (q : PlaneRec), r.planes[p] = some q → q.status = .closed →
    q.linesReached ≤ n) : r.pageLines ≤ n :=
  listMax_le fun m hm => by
    obtain ⟨⟨p, q⟩, hq, rfl⟩ := List.mem_map.1 hm
    obtain ⟨hq, hclosed⟩ := List.mem_filter.1 hq
    exact h p q ((mem_expected r p q).1 hq) (by simpa using hclosed)

theorem le_pageLines {r : PageRecord} {p : Fin 4} {q : PlaneRec} (h : r.planes[p] = some q) (hclosed : q.status = .closed) :
    q.linesReached ≤ r.pageLines :=
  le_listMax (List.mem_map.2 ⟨(p, q), List.mem_filter.2 ⟨(mem_expected r p q).2 h, by simpa using hclosed⟩, rfl⟩)

theorem pageWidth_le {r : PageRecord} {n : Nat} (h : ∀ (p : Fin 4) (q : PlaneRec), r.planes[p] = some q → q.geom.width ≤ n) :
    r.pageWidth ≤ n :=
  listMax_le fun m hm => by
    obtain ⟨⟨p, q⟩, hq, rfl⟩ := List.mem_map.1 hm
    exact h p q ((mem_expected r p q).1 hq)

theorem le_pageWidth {r : PageRecord} {p : Fin 4} {q : PlaneRec} (h : r.planes[p] = some q) : q.geom.width ≤ r.pageWidth :=
  le_listMax (List.mem_map.2 ⟨(p, q), (mem_expected r p q).2 h, rfl⟩)

theorem priceOf_coverage (t : ClassTable) (tar : Tariff) (declared : Option (Fin 8)) (r : PageRecord) (b : Int) (i : Fin 4) :
    (priceOf t tar declared r b).coverage[i] = ((r.planes[i]).map PlaneRec.coverage).getD 0 := Vector.getElem_map ..

theorem surchargeOf_le (tar : Tariff) (n : Nat) : surchargeOf tar n ≤ tar.cap := Nat.min_le_left _ _

/-! ## The page reserve (R96) -/

/-- The class of the reserve of a job with RASTER entries is that of the largest frame, raised. -/
theorem reserveClass_of_max (t : ClassTable) (declared : Option (Fin 8)) {es : List Raster} {lines width : Nat}
    (hl : ∃ e ∈ es, e.geom.frameLines = lines) (hle : ∀ e ∈ es, e.geom.frameLines ≤ lines)
    (hw : ∃ e ∈ es, e.geom.width = width) (hwe : ∀ e ∈ es, e.geom.width ≤ width) :
    reserveClass t declared es = raisedClass t declared (classOf t lines width).1 := by
  have hlines : listMax (es.map fun r => r.geom.frameLines) = lines :=
    listMax_eq (List.mem_map.2 hl) fun n hn => by
      obtain ⟨e, he, rfl⟩ := List.mem_map.1 hn
      exact hle e he
  have hwidth : listMax (es.map fun r => r.geom.width) = width :=
    listMax_eq (List.mem_map.2 hw) fun n hn => by
      obtain ⟨e, he, rfl⟩ := List.mem_map.1 hn
      exact hwe e he
  cases es with
  | nil =>
    obtain ⟨e, he, -⟩ := hl
    cases he
  | cons e rest => rw [reserveClass, hlines, hwidth]

theorem pageReserve_colour (t : ClassTable) (tar : Tariff) (declared : Option (Fin 8)) (es : List Raster) :
    pageReserve t tar declared es = (classEntry t (reserveClass t declared es)).basePrice
      + (if es.any (fun e => e.plane ≠ 0) then (classEntry t (reserveClass t declared es)).colourPrice else 0) + tar.cap := by
  have hplane : (fun e : Raster => isColourPlane e.plane) = fun e => decide (e.plane ≠ 0) := by
    funext e
    by_cases h : e.plane = 0 <;> simp [isColourPlane, h]
  rw [pageReserve, hplane]

/-- The class of a record whose frames are those of RASTER entries is at most the class of their reserve, and both are valid. -/
theorem chargeClass_le {t : ClassTable} (h : hasClass t) (declared : Option (Fin 8)) {es : List Raster} {lines width : Nat}
    (hl : lines ≤ listMax (es.map fun e => e.geom.frameLines)) (hw : width ≤ listMax (es.map fun e => e.geom.width)) :
    raisedClass t declared (classOf t lines width).1 ≤ reserveClass t declared es
    ∧ (t[reserveClass t declared es]).valid = true := by
  cases es with
  | nil =>
    have hzero : (classOf t lines width).1 = (classOf t 0 0).1 := by
      rw [Nat.le_zero.1 hl, Nat.le_zero.1 hw]
    rw [hzero]
    cases declared with
    | none =>
      refine ⟨(smallestClass_classOf h).ge, ?_⟩
      show (classEntry t (smallestClass t)).valid = true
      rw [smallestClass_classOf h]
      exact classOf_valid h 0 0
    | some d => exact ⟨max_le (classOf_zero_le h (effectiveClass_valid h d)) le_rfl, effectiveClass_valid h d⟩
  | cons e rest => exact ⟨raisedClass_mono t declared (classOf_mono h hl hw), raisedClass_valid h declared (classOf_valid h _ _)⟩

/-- No page costs more than its reserve (R103, R104). -/
theorem charge_le_reserve {t : ClassTable} (tar : Tariff) (declared : Option (Fin 8)) {es : List Raster} {r : PageRecord} (b : Int)
    (hsound : ClassTable.sound t = true)
    (hplanes : ∀ (p : Fin 4) (q : PlaneRec), r.planes[p] = some q →
      (∃ e ∈ es, e.plane = p ∧ e.geom = q.geom) ∧ q.chunks ≤ q.geom.chunksPerFrame ∧ 64 ≤ q.geom.stride) :
    (priceOf t tar declared r b).charge ≤ pageReserve t tar declared es := by
  obtain ⟨-, hclass⟩ := (sound_iff t).1 hsound
  have hlines : r.pageLines ≤ listMax (es.map fun e => e.geom.frameLines) := pageLines_le fun p q hq _ => by
    obtain ⟨⟨e, he, -, hgeom⟩, hchunks, hstride⟩ := hplanes p q hq
    exact (linesReached_le hchunks hstride).trans (hgeom ▸ le_listMax (List.mem_map.2 ⟨e, he, rfl⟩))
  have hwidth : r.pageWidth ≤ listMax (es.map fun e => e.geom.width) := pageWidth_le fun p q hq => by
    obtain ⟨⟨e, he, -, hgeom⟩, -, -⟩ := hplanes p q hq
    exact hgeom ▸ le_listMax (List.mem_map.2 ⟨e, he, rfl⟩)
  obtain ⟨hle, hvalid⟩ := chargeClass_le hclass declared hlines hwidth
  obtain ⟨hbase, hcolour⟩ := prices_mono hsound hle (raisedClass_valid hclass declared (classOf_valid hclass _ _)) hvalid
  have hany : r.isColour tar.threshold = true → es.any (fun e => isColourPlane e.plane) = true := fun h => by
    obtain ⟨p, q, hp, hq, -⟩ := (isColour_iff r _).1 h
    obtain ⟨⟨e, he, hplane, -⟩, -, -⟩ := hplanes p q hq
    exact List.any_eq_true.2 ⟨e, he, by simpa [isColourPlane, hplane] using hp⟩
  refine Nat.add_le_add (Nat.add_le_add hbase ?_) (surchargeOf_le tar _)
  split
  · next h => rw [if_pos (hany h)]; exact hcolour
  · exact Nat.zero_le _

theorem mem_rastersOf (g : Regions) (j : Fin 16) (e : Raster) : e ∈ g.rastersOf j ↔
    ∃ i : Fin 32, ∃ x, g.live[i] = some x ∧ x.job = some j ∧ x.raster = some e := by
  rw [Regions.rastersOf, List.mem_filterMap]
  refine ⟨fun ⟨o, ho, he⟩ => ?_, fun ⟨i, x, hx, hj, he⟩ => ⟨some x, ?_, by simpa [hj] using he⟩⟩
  · obtain ⟨i, hi, rfl⟩ := List.getElem_of_mem ho
    split at he
    · next x hx =>
      split at he
      · next hj => exact ⟨⟨i, by simpa using hi⟩, x, hx, hj, he⟩
      · cases he
    · cases he
  · rw [← hx]
    exact List.getElem_mem (l := g.live.toList) (by simp)

end Sys2Proof.Machine

namespace Sys2Proof.Proofs

open Sys2Proof Sys2Proof.Machine

/-- Settles O34: the lookups by the first and the last index with a property, the reserve and the charge from the largest frame and the
largest measures, and the bound by their monotony (`charge_le_reserve`). -/
theorem chargeWithinReserve : Obligations.ChargeWithinReserve := by
  unfold Obligations.ChargeWithinReserve
  refine ⟨fun t tar declared es r b hsound hplanes => charge_le_reserve tar declared b hsound hplanes,
    fun t lines dots d i hclass => ⟨classOf_fits_iff t lines dots i, classOf_oversize_iff hclass lines dots i,
      effectiveClass_iff hclass d i⟩,
    fun t tar declared es => ⟨fun lines width hl hle hw hwe => ?_, fun d hd => ?_, fun c hd hc hbefore => ?_⟩, ?_,
    fun s j r => ⟨⟨_, rfl, mem_rastersOf s.rgt j⟩, rfl⟩⟩
  · have hreserve := reserveClass_of_max t declared hl hle hw hwe
    rw [pageReserve_colour, hreserve]
    cases declared <;> rfl
  · rw [hd, pageReserve_colour]
    rfl
  · rw [hd, pageReserve_colour, reserveClass.eq_def]
    show (classEntry t (smallestClass t)).basePrice + _ + _ = _
    rw [smallestClass_eq hc hbefore]
    rfl
  · intro t tar declared r b lines width
    dsimp only
    intro ⟨i, q, hq, hclosed, hlines⟩ hle ⟨k, w, hw, hwidth⟩ hwle
    have hpage : r.pageLines = lines := le_antisymm
      (pageLines_le fun p q hq hclosed => (linesReached_eq q).trans_le (hle p q hq hclosed))
      (((linesReached_eq q).trans hlines).ge.trans (le_pageLines hq hclosed))
    have hwide : r.pageWidth = width := le_antisymm (pageWidth_le hwle) (hwidth.ge.trans (le_pageWidth hw))
    have hcovers : ∀ (p : Fin 4) (q : PlaneRec), r.planes[p] = some q →
        (priceOf t tar declared r b).coverage[p] = q.coverage := fun p q hq => by
      rw [priceOf_coverage, hq]
      rfl
    subst hpage hwide
    refine ⟨rfl, rfl, rfl, rfl, by cases declared <;> rfl, fun p q hq => hcovers p q hq, fun p hp => ?_,
      (isColour_iff r tar.threshold).trans ⟨fun ⟨p, q, hp, hq, hc⟩ => ?_, fun ⟨p, hp, hsome, hc⟩ => ?_⟩, ?_, rfl,
      by cases declared <;> rfl, fun hprices hcap => ?_⟩
    · rw [priceOf_coverage, hp]
      rfl
    · exact ⟨p, hp, by simp [hq], by rwa [hcovers p q hq]⟩
    · obtain ⟨q, hq⟩ := Option.isSome_iff_exists.1 hsome
      exact ⟨p, q, hp, hq, by rwa [← hcovers p q hq]⟩
    · show r.covsum = _
      rw [PageRecord.covsum, expected_length, expected_map r PlaneRec.coverage _ hcovers]
    · obtain ⟨hbase, hcolour⟩ := hprices (raisedClass t declared (classOf t r.pageLines r.pageWidth).1)
      have hsur : (priceOf t tar declared r b).surcharge ≤ tar.cap := surchargeOf_le tar _
      have hterm : (if (priceOf t tar declared r b).colour = true
          then (t[raisedClass t declared (classOf t r.pageLines r.pageWidth).1]).colourPrice else 0) ≤ 65535 := by
        split
        · exact hcolour
        · omega
      show (t[raisedClass t declared (classOf t r.pageLines r.pageWidth).1]).basePrice
        + (if (priceOf t tar declared r b).colour = true
          then (t[raisedClass t declared (classOf t r.pageLines r.pageWidth).1]).colourPrice else 0)
        + (priceOf t tar declared r b).surcharge ≤ 196605
      omega

end Sys2Proof.Proofs
end

section
/-!
CLASS_SET, TARIFF_SET, SERVICE_PIN_SET and BAY_CONFIG: an admin command on a PIN that passes is its body on the checked part, and each body
in closed form (R92 to R94, R114, R116, R123, R151). Settles O43.
-/

namespace Sys2Proof.Machine

/-! ## An admin command on a PIN that passes (R114, R116) -/

theorem checked_service (s : State) : s.checked.ace.service = { s.ace.service with failures := 0 } := by
  show (s.ace.serviceFailures 0).service = _
  unfold Ace.serviceFailures
  split
  · next h => rw [h]
  · exact (trigger_stands _ _).1.service

theorem checked_stands (s : State) : s.checked.ace.classes = s.ace.classes ∧ s.checked.ace.tariff = s.ace.tariff
    ∧ s.checked.ace.bays = s.ace.bays := by
  show (s.ace.serviceFailures 0).classes = _ ∧ (s.ace.serviceFailures 0).tariff = _ ∧ (s.ace.serviceFailures 0).bays = _
  unfold Ace.serviceFailures
  split
  · exact ⟨rfl, rfl, rfl⟩
  · obtain ⟨h, -⟩ := trigger_stands (s.ace.putService { s.ace.service with failures := 0 }) .service
    exact ⟨h.classes, h.tariff, h.bays⟩

theorem admin_passes {s : State} {pin : Word8} (h : s.passes pin = true) (body : State → Answer) :
    s.admin pin body = body s.checked := by
  obtain ⟨hlock, hdigest⟩ := (Bool.and_eq_true _ _).to_iff.1 h
  rw [State.admin, State.credential, Option.isNone_iff_eq_none.1 hlock, State.examinePin, if_pos (of_decide_eq_true hdigest)]
  rfl

/-- An admin command whose PIN passes and whose body changes ACE alone: its result joins the Report Queue. -/
theorem ringEvent_admin {s : State} {pin : Word8} {run : State → State} {kind tag : BitVec 16} {body : State → Answer}
    {code : ResultCode} {v : ResultValues} {a : Ace} (h : s.ready = true) (hpass : s.passes pin = true)
    (hrun : run s.running = report kind tag (s.running.admin pin body))
    (hbody : body s.checked.running = ((code, v), { s.checked.running with ace := a })) :
    ringEvent run s = .next (({ s.checked with ace := a } : State).reported (.result kind code v) tag) := by
  obtain ⟨hrest, -, -, -⟩ := s.ready_iff.1 h
  obtain ⟨-, hsb, hf, hn⟩ := s.resting_iff.1 hrest
  have hadmin : s.running.admin pin body = ((code, v), { s.checked.running with ace := a }) :=
    (admin_passes (s := s.running) hpass body).trans hbody
  rw [ringEvent_eq h (hrun.trans (congrArg _ hadmin)) (State.nothingDue_congr hn hsb hf rfl rfl rfl rfl rfl rfl rfl) rfl rfl rfl]
  rfl

/-- An admin command whose PIN passes and whose body refuses. -/
theorem ringEvent_adminRefused {s : State} {pin : Word8} {run : State → State} {kind tag : BitVec 16} {body : State → Answer}
    {code : ResultCode} (h : s.ready = true) (hpass : s.passes pin = true)
    (hrun : run s.running = report kind tag (s.running.admin pin body))
    (hbody : body s.checked.running = s.checked.running.refuse code) :
    ringEvent run s = .next (s.checked.refused kind tag code) :=
  ringEvent_admin h hpass hrun hbody

/-! ## CLASS_SET (R91, R92) -/

/-- The fields of CLASS_SET pass step 2 of R92. -/
def classFits (p : ClassSetParams) : Prop :=
  p.valid = 0 ∨ (p.valid = 1 ∧ 1 ≤ p.maxLines ∧ p.maxLines ≤ 16384 ∧ 1 ≤ p.maxDots ∧ p.maxDots ≤ 65536
    ∧ p.basePrice ≤ 65535 ∧ p.colourPrice ≤ 65535)

/-- The entry that CLASS_SET names. -/
def classFields (p : ClassSetParams) : ClassEntry :=
  ⟨decide (p.valid = 1), p.maxLines, p.maxDots, p.basePrice, p.colourPrice⟩

theorem ClassEntry.inRange_iff (e : ClassEntry) : e.inRange = true ↔ 1 ≤ e.maxLines ∧ e.maxLines ≤ 16384 ∧ 1 ≤ e.maxDots
    ∧ e.maxDots ≤ 65536 ∧ e.basePrice ≤ 65535 ∧ e.colourPrice ≤ 65535 := by
  simp [ClassEntry.inRange, and_assoc]

theorem classEntry?_fits {p : ClassSetParams} (h : classFits p) : classEntry? p = some (classFields p) := by
  rcases h with h | ⟨h, hrange⟩
  · simp [classEntry?, yesNo?, classFields, h]
  · have hin := (ClassEntry.inRange_iff (classFields p)).2 hrange
    simp only [classFields, h, decide_true] at hin
    simp [classEntry?, yesNo?, classFields, h, hin]

theorem classEntry?_none {p : ClassSetParams} (h : ¬ classFits p) : classEntry? p = none := by
  have hnot0 : p.valid ≠ 0 := fun h0 => h (.inl h0)
  by_cases h1 : p.valid = 1
  · have hin : ¬ (classFields p).inRange = true := fun hin => h (.inr ⟨h1, (ClassEntry.inRange_iff _).1 hin⟩)
    simp only [classFields, h1, decide_true, Bool.not_eq_true] at hin
    simp [classEntry?, yesNo?, h1, hin]
  · have hspelled : yesNo? p.valid = none := by
      unfold yesNo?
      split <;> simp_all
    simp [classEntry?, hspelled]

theorem classSetBody_spelled (s : State) {p : ClassSetParams} {i : Fin 8} {e : ClassEntry} (hi : p.index = i.val)
    (he : classEntry? p = some e) : s.classSetBody p =
      if !ClassTable.sound (s.ace.classes.set i e) then s.refuse .badParam
      else if s.jct.frozen then s.refuse .markingActive
      else ((.ok, .classTable (s.ace.classes.set i e)), { s with ace := s.ace.setClasses (s.ace.classes.set i e) }) := by
  simp only [State.classSetBody, fin?_val i hi, he]

theorem classSetBody_takes (s : State) {p : ClassSetParams} {i : Fin 8} {e : ClassEntry} (hi : p.index = i.val)
    (he : classEntry? p = some e) (hsound : ClassTable.sound (s.ace.classes.set i e) = true) (hfree : s.jct.frozen = false) :
    s.classSetBody p =
      ((.ok, .classTable (s.ace.classes.set i e)), { s with ace := s.ace.setClasses (s.ace.classes.set i e) }) := by
  simp [classSetBody_spelled s hi he, hsound, hfree]

theorem classSetBody_unsound (s : State) {p : ClassSetParams} {i : Fin 8} {e : ClassEntry} (hi : p.index = i.val)
    (he : classEntry? p = some e) (hsound : ClassTable.sound (s.ace.classes.set i e) = false) :
    s.classSetBody p = s.refuse .badParam := by
  simp [classSetBody_spelled s hi he, hsound]

theorem classSetBody_frozen (s : State) {p : ClassSetParams} {i : Fin 8} {e : ClassEntry} (hi : p.index = i.val)
    (he : classEntry? p = some e) (hsound : ClassTable.sound (s.ace.classes.set i e) = true) (hfrozen : s.jct.frozen = true) :
    s.classSetBody p = s.refuse .markingActive := by
  simp [classSetBody_spelled s hi he, hsound, hfrozen]

theorem classSetBody_bad (s : State) {p : ClassSetParams} (h : 7 < p.index ∨ ¬ classFits p) :
    s.classSetBody p = s.refuse .badParam := by
  rcases h with h | h
  · simp only [State.classSetBody, fin?_none (n := 8) h]
  · cases hi : fin? 8 p.index <;> simp only [State.classSetBody, classEntry?_none h, hi]

/-! ## The freeze (R94) -/

theorem frozen_iff (j : Jobs) : j.frozen = true ↔ j.marking ≠ none ∨ j.stack ≠ [] ∨ ∃ i : Fin 16, (j.slots[i]).own ≠ none := by
  have hown : (j.slots.toList.any fun q => q.own.isSome) = true ↔ ∃ i : Fin 16, (j.slots[i]).own ≠ none := by
    rw [List.any_eq_true]
    refine ⟨fun ⟨q, hq, ho⟩ => ?_, fun ⟨i, hi⟩ => ⟨j.slots[i], by simp, Option.isSome_iff_ne_none.2 hi⟩⟩
    obtain ⟨i, hi, rfl⟩ := List.getElem_of_mem hq
    exact ⟨⟨i, by simpa using hi⟩, Option.isSome_iff_ne_none.1 ho⟩
  simp only [Jobs.frozen, Bool.or_eq_true, hown, Option.isSome_iff_ne_none, Bool.not_eq_true', List.isEmpty_eq_false_iff, or_assoc]

/-! ## TARIFF_SET, SERVICE_PIN_SET and BAY_CONFIG (R93, R123, R151) -/

theorem Tariff.inRange_iff (t : Tariff) : t.inRange = true ↔
    t.free ≤ 40000 ∧ t.surcharge ≤ 65535 ∧ t.cap ≤ 65535 ∧ 1 ≤ t.threshold ∧ t.threshold ≤ 10000 := by
  simp [Tariff.inRange, and_assoc]

theorem tariffSetBody_takes (s : State) {t : Tariff} (ht : t.inRange = true) (hfree : s.jct.frozen = false) :
    s.tariffSetBody t = ((.ok, .tariff t), { s with ace := s.ace.setTariff t }) := by
  simp [State.tariffSetBody, ht, hfree]

theorem tariffSetBody_frozen (s : State) {t : Tariff} (ht : t.inRange = true) (hfrozen : s.jct.frozen = true) :
    s.tariffSetBody t = s.refuse .markingActive := by
  simp [State.tariffSetBody, ht, hfrozen]

theorem tariffSetBody_bad (s : State) {t : Tariff} (ht : t.inRange = false) : s.tariffSetBody t = s.refuse .badParam := by
  simp [State.tariffSetBody, ht]

theorem servicePinSetBody_takes (s : State) {new : Word8} (h : pinDigits new = true) : s.servicePinSetBody new =
    ((.ok, .none), { s with ace := s.ace.setService { s.ace.service with digest := Config.serviceDigest new } }) := by
  simp [State.servicePinSetBody, h]

theorem servicePinSetBody_bad (s : State) {new : Word8} (h : pinDigits new = false) :
    s.servicePinSetBody new = s.refuse .badParam := by
  simp [State.servicePinSetBody, h]

theorem pinDigits_iff (pin : Word8) : pinDigits pin = true ↔ ∀ k < 8, (pin.extractLsb' (8 * k) 8).toNat ≤ 9 := by
  simp [pinDigits]

theorem BayConf.inRange_iff (c : BayConf) : c.inRange = true ↔ 1 ≤ c.attach ∧ c.attach ≤ 15 ∧ 1 ≤ c.detach ∧ c.detach ≤ 7
    ∧ 1 ≤ c.dotMass ∧ c.dotMass ≤ 65535 ∧ 1 ≤ c.quantum ∧ c.quantum ≤ 1000 ∧ c.lowMark ≤ 65535 ∧ c.grace ≤ 65535 := by
  simp [BayConf.inRange, and_assoc]

/-- The policy that BAY_CONFIG's field spells. -/
theorem policy?_eq (n : Nat) :
    policy? n = if n ≤ 1 then some (if n = 0 then .genuineOnly else .allowUnproven) else none := by
  match n with
  | 0 => rfl
  | 1 => rfl
  | n + 2 => simp [policy?]

/-- The configuration that BAY_CONFIG names. -/
def bayFields (p : BayConfigParams) : BayConf :=
  ⟨if p.policy = 0 then .genuineOnly else .allowUnproven, p.attach, p.detach, p.dotMass, p.quantum, p.lowMark, p.grace⟩

theorem bayConf?_eq (p : BayConfigParams) :
    bayConf? p = if p.policy ≤ 1 ∧ (bayFields p).inRange = true then some (bayFields p) else none := by
  rw [bayConf?, policy?_eq]
  by_cases h : p.policy ≤ 1
  · simp only [h, true_and]
    rfl
  · simp only [h, false_and, if_false]

theorem bayConfigBody_spelled (s : State) {p : BayConfigParams} {b : Fin 4} {c : BayConf} (hb : p.bay = b.val)
    (hc : bayConf? p = some c) :
    s.bayConfigBody p = ((.ok, .bayConf c), { s with ace := s.ace.setBays (s.ace.bays.set b c) }) := by
  simp only [State.bayConfigBody, fin?_val b hb, hc]

theorem bayConfigBody_bad (s : State) {p : BayConfigParams} (h : 3 < p.bay ∨ bayConf? p = none) :
    s.bayConfigBody p = s.refuse .badParam := by
  rcases h with h | h
  · simp only [State.bayConfigBody, fin?_none (n := 4) h]
  · cases hb : fin? 4 p.bay <;> simp only [State.bayConfigBody, h, hb]

end Sys2Proof.Machine

namespace Sys2Proof.Proofs

open Sys2Proof Sys2Proof.Machine

/-- Settles O43: each command is its body on the checked part (`ringEvent_admin`), and the bodies are decided by the fields' ranges, the
table's soundness and the freeze. -/
theorem tableCommands : Obligations.TableCommands := by
  unfold Obligations.TableCommands
  intro s tag pin hready hpass
  obtain ⟨hclasses, htariff, hbays⟩ := checked_stands s
  dsimp only
  rw [← hclasses, ← htariff, ← hbays]
  refine ⟨?_, ?_, fun new hdigits => ?_, ?_, ?_, frozen_iff s.jct, sound_iff, ?_, ?_, fun new => ⟨pinDigits_iff new, fun hbad => ?_⟩,
    ?_⟩
  · rintro p i e rfl hi he hsound hfree
    exact ringEvent_admin hready hpass rfl (classSetBody_takes s.checked.running hi he hsound hfree)
  · rintro p rfl hfree hsurcharge hcap hlow hhigh hunfrozen
    have hrange : (tariffOf p).inRange = true := (Tariff.inRange_iff _).2 ⟨hfree, hsurcharge, hcap, hlow, hhigh⟩
    exact ringEvent_admin hready hpass rfl (tariffSetBody_takes s.checked.running hrange hunfrozen)
  · have hservice : ({ s.checked.ace.service with digest := Config.serviceDigest new } : ServiceStored) =
        ⟨Config.serviceDigest new, 0⟩ := by rw [checked_service]
    rw [← hservice]
    exact ringEvent_admin hready hpass rfl (servicePinSetBody_takes s.checked.running hdigits)
  · rintro p b c rfl hb hc
    exact ringEvent_admin hready hpass rfl (bayConfigBody_spelled s.checked.running hb hc)
  · rintro hfrozen p rfl hrange
    exact ringEvent_adminRefused hready hpass rfl (tariffSetBody_frozen s.checked.running hrange hfrozen)
  · rintro p rfl
    refine ⟨classEntry?_fits, fun hbad => ?_, fun i hi hfits => ⟨fun hsound => ?_, fun hsound hfrozen => ?_⟩⟩
    · exact ringEvent_adminRefused hready hpass rfl (classSetBody_bad s.checked.running hbad)
    · exact ringEvent_adminRefused hready hpass rfl
        (classSetBody_unsound s.checked.running hi (classEntry?_fits hfits) hsound)
    · exact ringEvent_adminRefused hready hpass rfl
        (classSetBody_frozen s.checked.running hi (classEntry?_fits hfits) hsound hfrozen)
  · rintro p rfl
    exact ⟨Tariff.inRange_iff _, fun hbad =>
      ringEvent_adminRefused hready hpass rfl (tariffSetBody_bad s.checked.running hbad)⟩
  · exact ringEvent_adminRefused hready hpass rfl (servicePinSetBody_bad s.checked.running hbad)
  · rintro p rfl
    have hfits := and_congr_right fun (_ : p.policy ≤ 1) => BayConf.inRange_iff (bayFields p)
    refine ⟨fun h => (bayConf?_eq p).trans (if_pos (hfits.2 h)), fun hbad => ?_⟩
    exact ringEvent_adminRefused hready hpass rfl
      (bayConfigBody_bad s.checked.running (hbad.imp_right fun hnot => (bayConf?_eq p).trans (if_neg (mt hfits.1 hnot))))

end Sys2Proof.Proofs
end

section
/-!
The end of LOADING and the wake pin as events; what the load gives record by record; and the order of the substitutes' triggers (R126,
R129 to R131, R136, R150, R178, R180). Settles O12.
-/

namespace Sys2Proof.Machine

/-! ## The events -/

/-- ACE after the end of LOADING (R130). -/
def State.loadedAce (s : State) : Ace := { ((s.ace.load s.amem).triggerAll allRecords) with
  lockout := if (s.ace.load s.amem).service.failures = 5 then some s.ms else none }

theorem endLoad_eq (s : State) : s.endLoad = { s with ace := s.loadedAce } := rfl

theorem leaveLoading_unanchored {s : State} (h : s.rci.rings = none) :
    s.leaveLoading = { s with rci := { s.rci with startup := .awaitAnchor } } := by
  rw [State.leaveLoading, h]
  rfl

/-- LOADING ends at a part that awaits an anchor afterwards (R130, R136, R180). -/
theorem loadingEnd_eq {s : State} (hp : s.powered = true) (hs : s.still = true) (hl : s.rci.startup = .loading)
    (hr : s.rci.rings = none) : exec .loadingEnd s = .next { s with
      ace := s.loadedAce, ccu := s.firstPolls.ccu, rci := { s.rci with startup := .awaitAnchor }, out := [], handed := [] } := by
  have hace : s.beginEvent.loadedAce = s.loadedAce := rfl
  have hbody : s.beginEvent.finishLoading = { s with
      ace := s.loadedAce, ccu := s.firstPolls.ccu, rci := { s.rci with startup := .awaitAnchor }, out := [], handed := [] } := by
    rw [State.finishLoading, if_pos (show s.beginEvent.rci.startup = .loading from hl), endLoad_eq, hace]
    generalize s.loadedAce = a
    exact congrArg State.firstPolls (leaveLoading_unanchored (s := { s.beginEvent with ace := a }) hr)
  show event State.finishLoading s = _
  rw [event_quietly hp, hbody]
  · rw [hbody]
    exact State.still_congr hs rfl rfl rfl rfl rfl rfl rfl rfl
  · rw [hbody]

/-- The wake pin at a part that runs (R178). -/
theorem wake_running {s : State} (b : Bool) (hp : s.powered = true) (hn : s.nothingDue = true) (hf : s.rci.faultWaiting = false)
    (hr : s.rci.standby = .running) :
    exec (.wake b) s = .next { s with rci := { s.rci with wakePin := b }, out := [], handed := [] } :=
  event_quietly (body := fun t => t.setWakePin b) hp
    (State.still_congr (s.still_iff.2 ⟨hr, hf, hn⟩) rfl rfl rfl rfl rfl rfl rfl rfl) rfl

theorem standbyStep_standby (s : State) (h : s.rci.standby = .standby) : s.standbyStep = s := by
  have hdrain : s.drainEnd = s := by unfold State.drainEnd; rw [h]
  have htrigger : s.flushTrigger = s := by unfold State.flushTrigger; rw [h]
  have hflush : s.flushEnd = s := by unfold State.flushEnd; rw [h]
  rw [State.standbyStep, hdrain, htrigger, hflush]

/-- The end of an event that hands nothing, at a part in STANDBY at which nothing but the wake is due: it wakes (R178). -/
theorem endEvent_wakes {s : State} (hn : { s with rci := { s.rci with wakePin := false } }.nothingDue = true)
    (hs : s.rci.standby = .standby) (hf : s.rci.faultWaiting = false) (hh : s.handed = []) (hw : s.rci.wakePin = true) :
    s.endEvent = s.wakeUp := by
  obtain ⟨hmetered, hcommit, hdone, hleave, hstart, -, -⟩ := (State.nothingDue_iff _).1 hn
  have hjoined : s.joinAll = s := by
    rw [State.joinAll, s.joinFault_eq hf, State.joinHanded, hh, joinOrder_nil, List.foldl_nil, ← hh]
  have hpost : s.postEnd = s := by unfold State.postEnd; rw [hs]
  rw [State.endEvent, State.consequences, s.settleDue_eq hmetered, s.completeCommit_eq hcommit, s.finishWipe_eq hdone,
    s.leaveAll_eq hleave, s.startWipe_eq hstart, standbyStep_standby s hs, hjoined, hpost, State.wakeCheck, if_pos ⟨hs, hw⟩]

/-- The wake pin is asserted at a part in STANDBY (R178). -/
theorem wake_standby {s : State} (hp : s.powered = true) (hn : s.nothingDue = true) (hf : s.rci.faultWaiting = false)
    (hs : s.rci.standby = .standby) : exec (.wake true) s = .next { s.firstPolls with
      rci := { s.rci with standby := .running, wakePin := true }, path := { s.path with closed := false }
      out := [], handed := [] } := by
  obtain ⟨-, -, -, -, -, hsettled, -⟩ := s.nothingDue_iff.1 hn
  have hpin : s.rci.wakePin = false := by simpa [State.standbySettled, hs] using hsettled
  have hbefore : { s.beginEvent with rci := { s.rci with wakePin := false } }.nothingDue = true := by
    rw [← hpin]
    exact hn
  show event (fun t => t.setWakePin true) s = _
  rw [event_powered hp, endEvent_wakes (s := s.beginEvent.setWakePin true) hbefore hs hf rfl rfl]
  rfl

/-! ## The ranges of the stored records (R91, R93, R110, R112, R113, R129, R150) -/

theorem UserStored.inRange_iff (u : UserStored) : u.inRange = true ↔ u.failures ≤ 5 ∧ -(2 ^ 31 : Int) ≤ u.balance
    ∧ u.balance ≤ 2 ^ 31 - 1 ∧ u.overdraft ≤ 1000000000 ∧ 1 ≤ u.maxJobs ∧ u.maxJobs ≤ 4 ∧ u.lifeMono ≤ max32
    ∧ u.lifeColour ≤ max32 ∧ u.lifeCharge ≤ max32 := by
  simp [UserStored.inRange, and_assoc]

theorem DeptStored.inRange_iff (d : DeptStored) : d.inRange = true ↔ (∀ x ∈ d.allowance, x ≤ 2 ^ 31 - 1) ∧ d.used ≤ max32 := by
  unfold DeptStored.inRange
  cases d.allowance <;> simp

theorem Meters.inRange_iff (m : Meters) : m.inRange = true ↔ ∀ k : Fin 16, m.contract[k] ≤ max32 ∧ m.outside[k] ≤ max32 := by
  rw [Meters.inRange, Bool.and_eq_true, all_toList_iff, all_toList_iff, ← forall_and]
  simp only [decide_eq_true_eq]

theorem ClassTable.inRange_iff (t : ClassTable) : ClassTable.inRange t = true ↔
    (∀ i : Fin 8, (t[i]).valid = true → 1 ≤ (t[i]).maxLines ∧ (t[i]).maxLines ≤ 16384 ∧ 1 ≤ (t[i]).maxDots
      ∧ (t[i]).maxDots ≤ 65536 ∧ (t[i]).basePrice ≤ 65535 ∧ (t[i]).colourPrice ≤ 65535)
    ∧ ClassTable.sound t = true := by
  have hall : (ClassTable.valids t).all ClassEntry.inRange = true ↔
      ∀ i : Fin 8, (t[i]).valid = true → (t[i]).inRange = true := by
    rw [ClassTable.valids, List.all_filter, all_toList_iff]
    exact forall_congr' fun i => by cases (t[i]).valid <;> simp
  rw [ClassTable.inRange, Bool.and_eq_true, hall]
  simp only [ClassEntry.inRange_iff]

theorem bayConfs_inRange_iff (b : BayConfs) : b.toList.all BayConf.inRange = true ↔ ∀ p : Fin 4, 1 ≤ (b[p]).attach
    ∧ (b[p]).attach ≤ 15 ∧ 1 ≤ (b[p]).detach ∧ (b[p]).detach ≤ 7 ∧ 1 ≤ (b[p]).dotMass ∧ (b[p]).dotMass ≤ 65535
    ∧ 1 ≤ (b[p]).quantum ∧ (b[p]).quantum ≤ 1000 ∧ (b[p]).lowMark ≤ 65535 ∧ (b[p]).grace ≤ 65535 := by
  rw [all_toList_iff]
  exact forall_congr' fun p => BayConf.inRange_iff b[p]

/-! ## The fault list's masks -/

theorem maskOf_testBit (bs : List Bool) (i : Nat) : (maskOf bs).testBit i = bs[i]?.getD false := by
  induction bs generalizing i with
  | nil => simp [maskOf]
  | cons b bs ih =>
    have hmask : maskOf (b :: bs) = b.toNat + 2 * maskOf bs := rfl
    rw [hmask]
    cases i with
    | zero => cases b <;> simp
    | succ i =>
      have hhalf : (b.toNat + 2 * maskOf bs) / 2 = maskOf bs := by
        cases b with
        | false => simp
        | true => simp; omega
      rw [Nat.testBit_succ, hhalf, ih]
      rfl

/-- The bit of a record in a mask over a table. -/
theorem maskBit {α : Type} {n : Nat} (v : Vector α n) (f : α → Bool) (i : Fin n) :
    (BitVec.ofNat n (maskOf (v.toList.map f))).getLsbD i.val = f v[i] := by
  rw [BitVec.getLsbD_ofNat, maskOf_testBit]
  simp

/-! ## The load (R129 to R131) -/

/-- A record that agrees and lies in its ranges is copied and CLEAN; else it is substituted, DIRTY and marked. -/
theorem loaded {α : Type} (agrees : Bool) {inRange : Bool} {p : Prop} (h : inRange = true ↔ p) (content substitute : α) :
    (agrees = true ∧ p → (if !(agrees && inRange) then substitute else content) = content
      ∧ loadWb (!!(agrees && inRange)) = .clean ∧ (!(agrees && inRange)) = false)
    ∧ (¬ (agrees = true ∧ p) → (if !(agrees && inRange) then substitute else content) = substitute
      ∧ loadWb (!!(agrees && inRange)) = .dirty ∧ (!(agrees && inRange)) = true) := by
  rw [← h, ← Bool.and_eq_true]
  cases agrees && inRange with
  | true => exact ⟨fun _ => ⟨rfl, rfl, rfl⟩, fun hp => absurd rfl hp⟩
  | false => exact ⟨fun hp => absurd hp Bool.false_ne_true, fun _ => ⟨rfl, rfl, rfl⟩⟩

/-- A department's record after the load, and its mark in the fault list. -/
theorem load_dept (a : Ace) (m : Amem) (d : Fin 16) :
    (goodDept m.depts[d] = true → (a.load m).depts[d] = ⟨(m.depts[d]).content, 0, 0, .clean⟩
      ∧ (a.load m).faults.depts.getLsbD d.val = false)
    ∧ (goodDept m.depts[d] = false → (a.load m).depts[d] = ⟨substituteDept, 0, 0, .dirty⟩
      ∧ (a.load m).faults.depts.getLsbD d.val = true) := by
  have hrec : (a.load m).depts[d] = loadDept m.depts[d] := Vector.getElem_map ..
  have hbit : (a.load m).faults.depts.getLsbD d.val = !goodDept m.depts[d] := maskBit m.depts (fun c => !goodDept c) d
  rw [hrec, hbit, loadDept]
  exact ⟨fun h => by rw [h]; exact ⟨rfl, rfl⟩, fun h => by rw [h]; exact ⟨rfl, rfl⟩⟩

/-- A user's record after the load, and its mark in the fault list. -/
theorem load_user (a : Ace) (m : Amem) (u : Fin 256) :
    (goodUser m.users[u] = true → (a.load m).users[u] = ⟨(m.users[u]).content, 0, 0, .clean⟩
      ∧ (a.load m).faults.users.getLsbD u.val = false)
    ∧ (goodUser m.users[u] = false → (a.load m).users[u] = ⟨suspectUser, 0, 0, .dirty⟩
      ∧ (a.load m).faults.users.getLsbD u.val = true) := by
  have hrec : (a.load m).users[u] = loadUser m.users[u] := Vector.getElem_map ..
  have hbit : (a.load m).faults.users.getLsbD u.val = !goodUser m.users[u] := maskBit m.users (fun c => !goodUser c) u
  rw [hrec, hbit, loadUser]
  exact ⟨fun h => by rw [h]; exact ⟨rfl, rfl⟩, fun h => by rw [h]; exact ⟨rfl, rfl⟩⟩

theorem goodDept_iff (c : Cell DeptStored) : goodDept c = true ↔
    c.agrees = true ∧ (∀ x ∈ c.content.allowance, x ≤ 2 ^ 31 - 1) ∧ c.content.used ≤ max32 :=
  (Bool.and_eq_true _ _).to_iff.trans (and_congr_right fun _ => DeptStored.inRange_iff c.content)

theorem goodUser_iff (c : Cell UserStored) : goodUser c = true ↔ c.agrees = true ∧ c.content.failures ≤ 5
    ∧ -(2 ^ 31 : Int) ≤ c.content.balance ∧ c.content.balance ≤ 2 ^ 31 - 1 ∧ c.content.overdraft ≤ 1000000000
    ∧ 1 ≤ c.content.maxJobs ∧ c.content.maxJobs ≤ 4 ∧ c.content.lifeMono ≤ max32 ∧ c.content.lifeColour ≤ max32
    ∧ c.content.lifeCharge ≤ max32 :=
  (Bool.and_eq_true _ _).to_iff.trans (and_congr_right fun _ => UserStored.inRange_iff c.content)

/-! ## The triggers of several records (R126) -/

/-- The queue holds at most 16 records, and the Waiting List holds records only when it is full. -/
def Ace.listsLaw (a : Ace) : Prop := a.queue.length ≤ 16 ∧ (a.waiting ≠ [] → a.queue.length = 16)

theorem wb_trigger_ne (a : Ace) {r q : RecId} (h : q ≠ r) : (a.trigger r).wb q = a.wb q := by
  rcases a.trigger_cases r with ⟨-, e⟩ | ⟨-, -, -, e⟩ | ⟨-, -, e⟩ <;> rw [e]
  · rw [← wb_setWb_ne a .queued h]
    cases q <;> rfl
  · rw [← wb_setWb_ne a .waiting h]
    cases q <;> rfl

theorem setWb_waiting (a : Ace) (r : RecId) (w : WbState) : (a.setWb r w).waiting = a.waiting := by
  cases r <;> rfl

/-- A trigger appends a DIRTY record to the queue, or behind the Waiting List when the queue is full. -/
theorem trigger_lists {a : Ace} (h : a.listsLaw) (r : RecId) : (a.trigger r).listsLaw
    ∧ (a.trigger r).queue ++ (a.trigger r).waiting = a.queue ++ a.waiting ++ [r].filter fun q => a.wb q == .dirty := by
  obtain ⟨hle, hfull⟩ := h
  rcases a.trigger_cases r with ⟨hclean, e⟩ | ⟨hdirty, hnone, hroom, e⟩ | ⟨hdirty, hno, e⟩ <;> rw [e]
  · exact ⟨⟨hle, hfull⟩, by simp [hclean]⟩
  · refine ⟨⟨?_, fun hw => ?_⟩, ?_⟩
    · show (a.queue ++ [r]).length ≤ 16
      simp only [List.length_append, List.length_singleton]
      omega
    · exact absurd ((setWb_waiting a r .queued).trans hnone) hw
    · show (a.queue ++ [r]) ++ (a.setWb r .queued).waiting = _
      simp [setWb_waiting, hnone, hdirty]
  · have hlen : a.queue.length = 16 := hno.elim hfull fun h => le_antisymm hle h
    refine ⟨⟨?_, fun _ => ?_⟩, ?_⟩
    · show (a.setWb r .waiting).queue.length ≤ 16
      rwa [Ace.setWb_queue]
    · show (a.setWb r .waiting).queue.length = 16
      rwa [Ace.setWb_queue]
    · show (a.setWb r .waiting).queue ++ (a.waiting ++ [r]) = _
      simp [Ace.setWb_queue, hdirty]

theorem triggerAll_lists {rs : List RecId} (hnd : rs.Nodup) {a : Ace} (h : a.listsLaw) : (a.triggerAll rs).listsLaw
    ∧ (a.triggerAll rs).queue ++ (a.triggerAll rs).waiting = a.queue ++ a.waiting ++ rs.filter fun q => a.wb q == .dirty := by
  induction rs generalizing a with
  | nil => exact ⟨h, (List.append_nil _).symm⟩
  | cons r rs ih =>
    obtain ⟨hnot, hnd⟩ := List.nodup_cons.1 hnd
    obtain ⟨hlaw, hlists⟩ := trigger_lists h r
    obtain ⟨hlaw', hlists'⟩ := ih hnd hlaw
    have hrest : (rs.filter fun q => (a.trigger r).wb q == .dirty) = rs.filter fun q => a.wb q == .dirty :=
      List.filter_congr fun q hq => by rw [wb_trigger_ne a (r := r) (q := q) (by rintro rfl; exact hnot hq)]
    refine ⟨hlaw', hlists'.trans ?_⟩
    rw [hlists, hrest, List.append_assoc, ← List.filter_append, List.singleton_append]

theorem allRecords_nodup : allRecords.Nodup := by
  have hdepts : ((List.finRange 16).map RecId.dept).Nodup :=
    (List.nodup_finRange 16).map fun _ _ e => RecId.dept.inj e
  have husers : ((List.finRange 256).map RecId.user).Nodup :=
    (List.nodup_finRange 256).map fun _ _ e => RecId.user.inj e
  refine List.Nodup.append (List.Nodup.append (by decide) hdepts ?_) husers ?_
  · intro r hr hd
    obtain ⟨d, -, rfl⟩ := List.mem_map.1 hd
    simp at hr
  · intro r hr hu
    obtain ⟨u, -, rfl⟩ := List.mem_map.1 hu
    simp at hr

/-- From empty lists, the DIRTY records join in order: the first 16 the queue, the others the Waiting List. -/
theorem triggerAll_take_drop {rs : List RecId} (hnd : rs.Nodup) {a : Ace} (hq : a.queue = []) (hw : a.waiting = []) :
    (a.triggerAll rs).queue = (rs.filter fun q => a.wb q == .dirty).take 16
    ∧ (a.triggerAll rs).waiting = (rs.filter fun q => a.wb q == .dirty).drop 16 := by
  obtain ⟨⟨hle, hfull⟩, hlists⟩ := triggerAll_lists hnd (a := a) ⟨by simp [hq], fun h => absurd hw h⟩
  rw [hq, hw, List.append_nil, List.nil_append] at hlists
  rw [← hlists]
  by_cases hnone : (a.triggerAll rs).waiting = []
  · rw [hnone, List.append_nil]
    exact ⟨(List.take_of_length_le hle).symm, (List.drop_of_length_le hle).symm⟩
  · rw [← hfull hnone]
    exact ⟨List.take_left.symm, List.drop_left.symm⟩

end Sys2Proof.Machine

namespace Sys2Proof.Proofs

open Sys2Proof Sys2Proof.Machine

/-- Settles O12: the two events in closed form (`loadingEnd_eq`, `wake_standby`, `wake_running`), the load record by record, and the
order of the triggers (`triggerAll_take_drop`). -/
theorem loadingEndsAndWake : Obligations.LoadingEndsAndWake := by
  unfold Obligations.LoadingEndsAndWake
  refine ⟨fun s hp hs hl hr => loadingEnd_eq hp hs hl hr,
    fun s hp hn hf => ⟨fun hs => wake_standby hp hn hf hs, fun b hr => wake_running b hp hn hf hr⟩, fun a m => ?_⟩
  dsimp only
  have hservice := loaded m.service.agrees (decide_eq_true_iff (p := m.service.content.failures ≤ 5)) m.service.content
    (⟨Config.factoryServiceDigest, 0⟩ : ServiceStored)
  have htariff := loaded m.tariff.agrees (Tariff.inRange_iff m.tariff.content) m.tariff.content factoryTariff
  have hclasses := loaded m.classes.agrees ((ClassTable.inRange_iff m.classes.content).trans
    (and_congr_right fun _ => sound_iff m.classes.content)) m.classes.content factoryClasses
  have hbays := loaded m.bays.agrees (bayConfs_inRange_iff m.bays.content) m.bays.content factoryBays
  have hmeters := loaded m.meters.agrees (Meters.inRange_iff m.meters.content) m.meters.content zeroMeters
  refine ⟨hservice.1, hservice.2, htariff.1, htariff.2, hclasses.1, fun hbad => ?_, hbays.1, hbays.2, fun hgood => ?_,
    fun hbad => ?_, fun d => ?_, fun u => ?_, rfl, rfl, rfl, rfl, fun hq hw => triggerAll_take_drop allRecords_nodup hq hw⟩
  · obtain ⟨htable, hwb, hmark⟩ := hclasses.2 hbad
    have hempty : ∀ i : Fin 8, 4 ≤ i.val → (factoryClasses[i]).valid = false := by decide
    have ht : (a.load m).classes = factoryClasses := htable
    rw [ht]
    exact ⟨rfl, rfl, rfl, rfl, hempty, hwb, hmark⟩
  · obtain ⟨hcontent, hwb, hmark⟩ := hmeters.1 hgood
    exact ⟨(MeterRec.mk.injEq ..).mpr ⟨hcontent, rfl, hwb, hmark⟩, hmark⟩
  · obtain ⟨hcontent, hwb, hmark⟩ := hmeters.2 hbad
    exact ⟨(MeterRec.mk.injEq ..).mpr ⟨hcontent, rfl, hwb, hmark⟩, hmark⟩
  · obtain ⟨hgood, hbad⟩ := load_dept a m d
    rw [← goodDept_iff]
    exact ⟨hgood, fun h => hbad (Bool.eq_false_of_not_eq_true h)⟩
  · obtain ⟨hgood, hbad⟩ := load_user a m u
    rw [← goodUser_iff]
    exact ⟨hgood, fun h => hbad (Bool.eq_false_of_not_eq_true h)⟩

end Sys2Proof.Proofs
end

section
/-!
The books of the reserved amounts: what a user owes for a list of records, the laws of O10 apart from that of the marking jobs, and the
relation of an operation that keeps them (R99, R104).
-/

namespace Sys2Proof.Machine

/-! ## Sums over tables -/

/-- Two sums over a table that differ at one place. -/
theorem sum_change {n : Nat} (f g : Fin n → Nat) (i : Fin n) (h : ∀ k, k ≠ i → g k = f k) :
    ((List.finRange n).map g).sum + f i = ((List.finRange n).map f).sum + g i := by
  have hrest : ∑ k ∈ {i}ᶜ, g k = ∑ k ∈ {i}ᶜ, f k := Finset.sum_congr rfl fun k hk => h k (by simpa using hk)
  have hg := Fintype.sum_eq_add_sum_compl i g
  have hf := Fintype.sum_eq_add_sum_compl i f
  rw [← Fin.sum_univ_def, ← Fin.sum_univ_def]
  omega

theorem sum_filter_map {α : Type} (l : List α) (p : α → Bool) (f : α → Nat) :
    ((l.filter p).map f).sum = (l.map fun x => if p x then f x else 0).sum := by
  induction l with
  | nil => rfl
  | cons x l ih => cases hp : p x <;> simp [hp, ih]

/-! ## What a user owes -/

/-- The sum of the reserves of user `u`'s records in a list. -/
def owed (rs : List PageRecord) (u : Fin 256) : Nat := ((rs.filter fun r => r.user == u).map PageRecord.reserve).sum

theorem reservesOf_eq_owed (j : Jobs) (u : Fin 256) : j.reservesOf u = owed j.records u := rfl

@[simp] theorem owed_nil (u : Fin 256) : owed [] u = 0 := rfl

theorem owed_cons (r : PageRecord) (rs : List PageRecord) (u : Fin 256) :
    owed (r :: rs) u = (if r.user = u then r.reserve else 0) + owed rs u := by
  by_cases h : r.user = u <;> simp [owed, h]

@[simp] theorem owed_append (rs qs : List PageRecord) (u : Fin 256) : owed (rs ++ qs) u = owed rs u + owed qs u := by
  simp [owed]

theorem owed_perm {rs qs : List PageRecord} (h : rs.Perm qs) (u : Fin 256) : owed rs u = owed qs u :=
  ((h.filter _).map _).sum_eq

theorem owed_flatMap {α : Type} (l : List α) (f : α → List PageRecord) (u : Fin 256) :
    owed (l.flatMap f) u = (l.map fun x => owed (f x) u).sum := by
  induction l with
  | nil => rfl
  | cons x l ih => simp [ih]

/-- The records of a list, told apart by a property. -/
theorem owed_partition (rs : List PageRecord) (p : PageRecord → Bool) (u : Fin 256) :
    owed (rs.filter fun r => !p r) u + owed (rs.filter p) u = owed rs u := by
  induction rs with
  | nil => rfl
  | cons r rs ih =>
    rw [owed_cons, ← ih]
    cases hp : p r <;> simp [hp, owed_cons] <;> omega

/-- A change of the records that leaves their users and reserves. -/
theorem owed_map {f : PageRecord → PageRecord} (rs : List PageRecord) (u : Fin 256)
    (h : ∀ r ∈ rs, (f r).user = r.user ∧ (f r).reserve = r.reserve) : owed (rs.map f) u = owed rs u := by
  induction rs with
  | nil => rfl
  | cons r rs ih =>
    obtain ⟨huser, hreserve⟩ := h r List.mem_cons_self
    rw [List.map_cons, owed_cons, owed_cons, huser, hreserve, ih fun q hq => h q (List.mem_cons_of_mem r hq)]

theorem reserve_le_owed {rs : List PageRecord} {r : PageRecord} (h : r ∈ rs) : r.reserve ≤ owed rs r.user := by
  induction rs with
  | nil => cases h
  | cons q rs ih =>
    rw [owed_cons]
    rcases List.mem_cons.1 h with rfl | h
    · simp
    · exact (ih h).trans (Nat.le_add_left _ _)

/-! ## The records of a part, part by part -/

/-- The records of a context that may be absent. -/
def ownQueue (c : Option Context) : List PageRecord := (c.map Context.queue).getD []

theorem records_eq (j : Jobs) : j.records = ownQueue (j.marking.map Marked.ctx) ++ j.stack.flatMap (fun m => m.ctx.queue)
    ++ (List.finRange 16).flatMap fun i => ownQueue (j.slots[i]).own := by
  have hown : ∀ l : List (Fin 16), (l.filterMap fun i => (j.slots[i]).own.map fun c => (⟨i, c⟩ : Marked)).flatMap
      (fun m => m.ctx.queue) = l.flatMap fun i => ownQueue (j.slots[i]).own := fun l => by
    induction l with
    | nil => rfl
    | cons i l ih =>
      rw [List.flatMap_cons, ← ih]
      cases hi : (j.slots[i]).own with
      | none => simp [-Fin.getElem_fin, hi, ownQueue]
      | some c => simp [-Fin.getElem_fin, hi, ownQueue]
  have hmarking : j.marking.toList.flatMap (fun m => m.ctx.queue) = ownQueue (j.marking.map Marked.ctx) := by
    cases j.marking <;> simp [ownQueue]
  rw [Jobs.records, Jobs.contexts, List.flatMap_append, List.flatMap_append, hown, hmarking]

/-- What the jobs of a user owe: for the marking job, the stacked ones, and the own contexts. -/
theorem reservesOf_eq (j : Jobs) (u : Fin 256) : j.reservesOf u = owed (ownQueue (j.marking.map Marked.ctx)) u
    + (j.stack.map fun m => owed m.ctx.queue u).sum + ((List.finRange 16).map fun i => owed (ownQueue (j.slots[i]).own) u).sum := by
  rw [reservesOf_eq_owed, records_eq, owed_append, owed_append, owed_flatMap, owed_flatMap]

/-! ## Amounts that stand -/

/-- What the laws of the reserved amounts and the prices look at in ACE stands. -/
structure Ace.Agrees (a b : Ace) : Prop where
  reserved : ∀ u : Fin 256, (b.users[u]).reserved = (a.users[u]).reserved
  department : ∀ u : Fin 256, b.deptOf u = a.deptOf u
  balance : ∀ u : Fin 256, (b.users[u]).stored.balance = (a.users[u]).stored.balance
  overdraft : ∀ u : Fin 256, (b.users[u]).stored.overdraft = (a.users[u]).stored.overdraft
  depts : ∀ d : Fin 16, (b.depts[d]).stored = (a.depts[d]).stored ∧ (b.depts[d]).reserved = (a.depts[d]).reserved
  classes : b.classes = a.classes
  tariff : b.tariff = a.tariff

theorem Ace.Agrees.of_tables {a b : Ace} (hu : b.users = a.users) (hd : b.depts = a.depts) (hc : b.classes = a.classes)
    (ht : b.tariff = a.tariff) : a.Agrees b where
  reserved u := by rw [hu]
  department u := by rw [Ace.deptOf, hu]; rfl
  balance u := by rw [hu]
  overdraft u := by rw [hu]
  depts d := by rw [hd]; exact ⟨rfl, rfl⟩
  classes := hc
  tariff := ht

theorem Ace.Agrees.refl (a : Ace) : a.Agrees a := .of_tables rfl rfl rfl rfl

theorem Ace.Agrees.trans {a b c : Ace} (h : a.Agrees b) (g : b.Agrees c) : a.Agrees c where
  reserved u := (g.reserved u).trans (h.reserved u)
  department u := (g.department u).trans (h.department u)
  balance u := (g.balance u).trans (h.balance u)
  overdraft u := (g.overdraft u).trans (h.overdraft u)
  depts d := ⟨(g.depts d).1.trans (h.depts d).1, (g.depts d).2.trans (h.depts d).2⟩
  classes := g.classes.trans h.classes
  tariff := g.tariff.trans h.tariff

/-- Triggers and posting counts leave the amounts. -/
theorem Ace.Agrees.of_posted {a b : Ace} (hs : a.Stands b) (hp : a.Posted b) : a.Agrees b where
  reserved u := (hp.users u).2.1
  department u := congrArg UserStored.department (hp.users u).1
  balance u := congrArg UserStored.balance (hp.users u).1
  overdraft u := congrArg UserStored.overdraft (hp.users u).1
  depts d := ⟨(hp.depts d).1, (hp.depts d).2.1⟩
  classes := hs.classes
  tariff := hs.tariff

theorem Ace.Agrees.ite {a b c : Ace} {p : Prop} [Decidable p] (hb : a.Agrees b) (hc : a.Agrees c) :
    a.Agrees (if p then b else c) := by
  split
  · exact hb
  · exact hc

/-! ## Departments -/

/-- A department's reserved amount is the sum of its users' (R99). -/
def Ace.deptLaw (a : Ace) : Prop := ∀ d : Fin 16, (a.depts[d]).reserved = a.reservedIn d

/-- The sum of a department over every user, 0 for one of another. -/
theorem reservedIn_eq (a : Ace) (d : Fin 16) : a.reservedIn d =
    ((List.finRange 256).map fun u => if a.deptOf u = some d then (a.users[u]).reserved else 0).sum := by
  rw [Ace.reservedIn, sum_filter_map]
  simp only [beq_iff_eq]

theorem reservedIn_congr {a b : Ace} (hr : ∀ u : Fin 256, (b.users[u]).reserved = (a.users[u]).reserved)
    (hd : ∀ u, b.deptOf u = a.deptOf u) (d : Fin 16) : b.reservedIn d = a.reservedIn d := by
  rw [reservedIn_eq, reservedIn_eq]
  simp only [hr, hd]

theorem Ace.Agrees.deptLaw {a b : Ace} (h : a.Agrees b) (hl : a.deptLaw) : b.deptLaw := fun d => by
  rw [(h.depts d).2, hl d, reservedIn_congr h.reserved h.department]

theorem Ace.Agrees.limitLaw {a b : Ace} (h : a.Agrees b) (hl : a.limitLaw) : b.limitLaw := by
  obtain ⟨hu, hd⟩ := hl
  refine ⟨fun u => ?_, fun d limit hlimit => ?_⟩
  · rw [h.balance, h.overdraft, h.reserved]
    exact hu u
  · rw [(h.depts d).1] at hlimit ⊢
    rw [(h.depts d).2]
    exact hd d limit hlimit

/-- A user's share of its department's reserved amount. -/
theorem reserved_le_dept {a : Ace} (h : a.deptLaw) {u : Fin 256} {d : Fin 16} (hd : a.deptOf u = some d) :
    (a.users[u]).reserved ≤ (a.depts[d]).reserved := by
  rw [h d, Ace.reservedIn]
  refine List.single_le_sum (fun _ _ => Nat.zero_le _) _ (List.mem_map.2 ⟨u, List.mem_filter.2 ⟨List.mem_finRange u, ?_⟩, rfl⟩)
  simpa using hd

/-- One user's reserved amount and that of its department change together. -/
theorem deptLaw_change {a b : Ace} (h : a.deptLaw) (u : Fin 256) (hdept : ∀ v, b.deptOf v = a.deptOf v)
    (hother : ∀ v : Fin 256, v ≠ u → (b.users[v]).reserved = (a.users[v]).reserved)
    (hd : ∀ d : Fin 16, (b.depts[d]).reserved + (if a.deptOf u = some d then (a.users[u]).reserved else 0)
      = (a.depts[d]).reserved + if a.deptOf u = some d then (b.users[u]).reserved else 0) : b.deptLaw := fun d => by
  have hsum := sum_change (fun v => if a.deptOf v = some d then (a.users[v]).reserved else 0)
    (fun v => if b.deptOf v = some d then (b.users[v]).reserved else 0) u fun v hv => by
      simp only [hdept, hother v hv]
  rw [← reservedIn_eq, ← reservedIn_eq, hdept] at hsum
  have hdd := hd d
  have hl := h d
  omega

/-! ## Records that are alike -/

/-- The geometry and the chunks reached of each expected plane. -/
def PageRecord.reach (r : PageRecord) (p : Fin 4) : Option (Geometry × Nat) := (r.planes[p]).map fun q => (q.geom, q.chunks)

/-- Two records of one job and user with one reserve, and with the same geometry and chunks reached in each plane. -/
structure PageRecord.Alike (r q : PageRecord) : Prop where
  job : q.job = r.job
  user : q.user = r.user
  reserve : q.reserve = r.reserve
  reach : ∀ p, q.reach p = r.reach p

theorem PageRecord.Alike.refl (r : PageRecord) : r.Alike r := ⟨rfl, rfl, rfl, fun _ => rfl⟩

theorem PageRecord.Alike.trans {r q x : PageRecord} (h : r.Alike q) (g : q.Alike x) : r.Alike x :=
  ⟨g.job.trans h.job, g.user.trans h.user, g.reserve.trans h.reserve, fun p => (g.reach p).trans (h.reach p)⟩

/-- A record costs at most its reserve, whatever its dots, flags and plane states when it settles. -/
def State.covers (s : State) (r : PageRecord) : Prop :=
  ∀ x : PageRecord, x.job = r.job → (∀ p, x.reach p = r.reach p) → (s.price x).charge ≤ r.reserve

/-- Every open record that meets `p` is covered. -/
def State.coversAll (s : State) (p : PageRecord → Prop) : Prop := ∀ r ∈ s.jct.records, p r → s.covers r

theorem State.chargesCovered_iff (s : State) : s.chargesCovered ↔
    (∀ (i : Fin 32), ∀ e ∈ s.rgt.live[i], ∀ r ∈ e.raster, 64 ≤ r.geom.stride ∧ 1 ≤ r.geom.frameLines)
    ∧ s.coversAll fun _ => True :=
  and_congr_right fun _ => ⟨fun h r hr _ => h r hr, fun h r hr => h r hr trivial⟩

/-- The charge of a record depends on the tables and on its job's declared class. -/
theorem price_charge_congr {s t : State} {r : PageRecord} (hc : t.ace.classes = s.ace.classes) (ht : t.ace.tariff = s.ace.tariff)
    (hd : (t.job r.job).declared = (s.job r.job).declared) : (t.price r).charge = (s.price r).charge := by
  rw [State.price, State.price, hc, ht, hd]

theorem covers_congr {s t : State} {r q : PageRecord} (ha : r.Alike q) (hc : t.ace.classes = s.ace.classes)
    (ht : t.ace.tariff = s.ace.tariff) (hd : (t.job r.job).declared = (s.job r.job).declared) (h : s.covers r) : t.covers q := by
  intro x hx hreach
  have hxr : x.job = r.job := hx.trans ha.job
  rw [price_charge_congr hc ht (hxr ▸ hd), ha.reserve]
  exact h x hxr fun p => (hreach p).trans (ha.reach p)

/-- A covered record costs at most its reserve. -/
theorem charge_le_of_covers {s : State} {r : PageRecord} (h : s.covers r) : (s.price r).charge ≤ r.reserve := h r rfl fun _ => rfl

/-! ## The books -/

theorem mem_records (j : Jobs) (r : PageRecord) : r ∈ j.records ↔ ∃ m ∈ j.contexts, r ∈ m.ctx.queue := List.mem_flatMap

/-- An own context is that of a CLOSING job that neither marks nor is stacked, and a job with close pending is CLOSING or WIPING. -/
structure State.Seats (s : State) : Prop where
  own : ∀ j : Fin 16, (s.job j).own.isSome = true → s.rci.startup = .anchored ∧ (s.job j).state = .closing
    ∧ s.jct.isMarking j = false ∧ s.jct.isStacked j = false
  pending : ∀ j : Fin 16, (s.job j).closePending = true → (s.job j).state = .closing ∨ (s.job j).state = .wiping

/-- Every record is that of its context's job and of that job's user. -/
def State.recordLaw (s : State) : Prop :=
  ∀ m ∈ s.jct.contexts, ∀ r ∈ m.ctx.queue, r.job = m.job ∧ r.user = (s.job m.job).user

/-- The law of the reserved amounts without that of the marking jobs. -/
structure State.Books (s : State) : Prop where
  seats : s.Seats
  record : s.recordLaw
  users : ∀ u : Fin 256, (s.ace.users[u]).reserved = s.jct.reservesOf u
  depts : s.ace.deptLaw

theorem State.reserveLaw_iff (s : State) : s.reserveLaw ↔ s.markingLaw ∧ s.Books :=
  and_congr_right fun _ => ⟨fun ⟨hown, hpending, hrecord, husers, hdepts⟩ => ⟨⟨hown, hpending⟩, hrecord, husers, hdepts⟩,
    fun ⟨⟨hown, hpending⟩, hrecord, husers, hdepts⟩ => ⟨hown, hpending, hrecord, husers, hdepts⟩⟩

/-- Each open record comes from one that is alike, of the same job with the same user and declared class. -/
def Stems (s t : State) : Prop :=
  ∀ m ∈ t.jct.contexts, ∀ q ∈ m.ctx.queue, ∃ n ∈ s.jct.contexts, n.job = m.job ∧ (∃ r ∈ n.ctx.queue, r.Alike q)
    ∧ (t.job m.job).user = (s.job m.job).user ∧ (t.job m.job).declared = (s.job m.job).declared

theorem Stems.recordLaw {s t : State} (h : Stems s t) (hr : s.recordLaw) : t.recordLaw := fun m hm q hq => by
  obtain ⟨n, hn, hjob, ⟨r, hr', ha⟩, huser, -⟩ := h m hm q hq
  obtain ⟨hrj, hru⟩ := hr n hn r hr'
  exact ⟨ha.job.trans (hrj.trans hjob), ha.user.trans (hru.trans (by rw [hjob, huser]))⟩

theorem Stems.covers {s t : State} (h : Stems s t) (hr : s.recordLaw) (hc : t.ace.classes = s.ace.classes)
    (ht : t.ace.tariff = s.ace.tariff) (hs : s.coversAll fun _ => True) : t.coversAll fun _ => True := by
  intro q hq _
  obtain ⟨m, hm, hq⟩ := (mem_records _ q).1 hq
  obtain ⟨n, hn, hjob, ⟨r, hr', ha⟩, -, hdeclared⟩ := h m hm q hq
  have hrj : r.job = m.job := (hr n hn r hr').1.trans hjob
  exact covers_congr ha hc ht (by rw [hrj]; exact hdeclared) (hs r ((mem_records _ r).2 ⟨n, hn, hr'⟩) trivial)

/-! ## What an operation keeps -/

/-- The laws of O10 go over from `s` to `t`: the marking law with a command in hand as `h` says, the books, the bounds, and that every
open record is covered. -/
structure Balances (h : Bool) (s t : State) : Prop where
  marks : s.markingLawAs h → t.markingLawAs h
  books : s.markingLawAs h → s.Books → t.Books
  limits : s.markingLawAs h → s.Books → s.ace.limitLaw → t.ace.limitLaw
  covers : s.markingLawAs h → s.Books → (s.coversAll fun _ => True) → t.coversAll fun _ => True

theorem Balances.refl (h : Bool) (s : State) : Balances h s s := ⟨id, fun _ => id, fun _ _ => id, fun _ _ => id⟩

theorem Balances.trans {h : Bool} {s t u : State} (f : Balances h s t) (g : Balances h t u) : Balances h s u where
  marks x := g.marks (f.marks x)
  books x y := g.books (f.marks x) (f.books x y)
  limits x y z := g.limits (f.marks x) (f.books x y) (f.limits x y z)
  covers x y z := g.covers (f.marks x) (f.books x y) (f.covers x y z)

theorem Balances.ite {h : Bool} {s t u : State} {p : Prop} [Decidable p] (ht : Balances h s t) (hu : Balances h s u) :
    Balances h s (if p then t else u) := by
  split
  · exact ht
  · exact hu

theorem Balances.foldl {h : Bool} {α : Type} {f : State → α → State} (hf : ∀ s a, Balances h s (f s a)) (as : List α) (s : State) :
    Balances h s (as.foldl f s) := by
  induction as generalizing s with
  | nil => exact .refl h s
  | cons a as ih => exact (hf s a).trans (ih (f s a))

/-- An operation that leaves the amounts, whose records come from those before it. -/
theorem Stems.balances {h : Bool} {s t : State} (hm : s.markingLawAs h → t.markingLawAs h)
    (hj : s.markingLawAs h → s.Books →
      s.ace.Agrees t.ace ∧ Stems s t ∧ (∀ u, t.jct.reservesOf u = s.jct.reservesOf u) ∧ t.Seats) : Balances h s t where
  marks := hm
  books x y := by
    obtain ⟨hagrees, hstems, howed, hseats⟩ := hj x y
    exact ⟨hseats, hstems.recordLaw y.record, fun u => (hagrees.reserved u).trans ((y.users u).trans (howed u).symm),
      hagrees.deptLaw y.depts⟩
  limits x y := (hj x y).1.limitLaw
  covers x y := by
    obtain ⟨hagrees, hstems, -, -⟩ := hj x y
    exact hstems.covers y.record hagrees.classes hagrees.tariff

/-! ## Operations that leave the contexts -/

/-- The contexts stand with their jobs' users and declared classes; a job whose own context stands keeps its state, and close pending
stays a sign of CLOSING or WIPING. -/
structure Seated (s t : State) : Prop where
  anchored : s.rci.startup = .anchored → t.rci.startup = .anchored
  marking : t.jct.marking = s.jct.marking
  stack : t.jct.stack = s.jct.stack
  own : ∀ j, (t.job j).own = (s.job j).own
  holds : ∀ j, (s.job j).own.isSome = true → (t.job j).state = (s.job j).state
  pending : ∀ j, (t.job j).closePending = true → (t.job j).state = .closing ∨ (t.job j).state = .wiping
    ∨ ((s.job j).closePending = true ∧ (t.job j).state = (s.job j).state)
  jobs : ∀ m ∈ s.jct.contexts, (t.job m.job).user = (s.job m.job).user ∧ (t.job m.job).declared = (s.job m.job).declared

theorem Seated.contexts {s t : State} (h : Seated s t) : t.jct.contexts = s.jct.contexts :=
  Jobs.contexts_congr h.marking h.stack h.own

theorem Seated.trans {s t u : State} (h : Seated s t) (g : Seated t u) : Seated s u where
  anchored x := g.anchored (h.anchored x)
  marking := g.marking.trans h.marking
  stack := g.stack.trans h.stack
  own j := (g.own j).trans (h.own j)
  holds j hj := (g.holds j ((h.own j).symm ▸ hj)).trans (h.holds j hj)
  pending j hj := by
    rcases g.pending j hj with hc | hw | ⟨hp, hst⟩
    · exact .inl hc
    · exact .inr (.inl hw)
    · rw [hst]
      rcases h.pending j hp with hc | hw | ⟨hp, hst⟩
      · exact .inl hc
      · exact .inr (.inl hw)
      · exact .inr (.inr ⟨hp, hst⟩)
  jobs m hm := by
    obtain ⟨hu, hd⟩ := h.jobs m hm
    obtain ⟨gu, gd⟩ := g.jobs m (h.contexts ▸ hm)
    exact ⟨gu.trans hu, gd.trans hd⟩

/-- The slots stand as far as the laws look at them. -/
theorem Seated.of_slots {s t : State} (hr : s.rci.startup = .anchored → t.rci.startup = .anchored)
    (hm : t.jct.marking = s.jct.marking) (hst : t.jct.stack = s.jct.stack)
    (hj : ∀ j, (t.job j).own = (s.job j).own ∧ (t.job j).state = (s.job j).state ∧ (t.job j).closePending = (s.job j).closePending
      ∧ (t.job j).user = (s.job j).user ∧ (t.job j).declared = (s.job j).declared) : Seated s t where
  anchored := hr
  marking := hm
  stack := hst
  own j := (hj j).1
  holds j _ := (hj j).2.1
  pending j hp := .inr (.inr ⟨(hj j).2.2.1 ▸ hp, (hj j).2.1⟩)
  jobs m _ := (hj m.job).2.2.2

theorem Seated.of_jct {s t : State} (hr : s.rci.startup = .anchored → t.rci.startup = .anchored)
    (hj : t.jct = s.jct) : Seated s t :=
  .of_slots hr (by rw [hj]) (by rw [hj]) fun j => by
    rw [State.job, State.job, hj]
    exact ⟨rfl, rfl, rfl, rfl, rfl⟩

theorem Seated.refl (s : State) : Seated s s := .of_jct id rfl

theorem Seated.stems {s t : State} (h : Seated s t) : Stems s t := fun m hm q hq => by
  rw [h.contexts] at hm
  obtain ⟨hu, hd⟩ := h.jobs m hm
  exact ⟨m, hm, rfl, ⟨q, hq, .refl q⟩, hu, hd⟩

theorem Seated.owed {s t : State} (h : Seated s t) (u : Fin 256) : t.jct.reservesOf u = s.jct.reservesOf u := by
  rw [reservesOf_eq_owed, reservesOf_eq_owed, Jobs.records, Jobs.records, h.contexts]

theorem Seated.seats {s t : State} (h : Seated s t) (hs : s.Seats) : t.Seats where
  own j hj := by
    rw [h.own] at hj
    obtain ⟨hanchored, hclosing, hmark, hstack⟩ := hs.own j hj
    refine ⟨h.anchored hanchored, (h.holds j hj).trans hclosing, ?_, ?_⟩
    · rw [Jobs.isMarking, h.marking]
      exact hmark
    · rw [Jobs.isStacked, h.stack]
      exact hstack
  pending j hj := by
    rcases h.pending j hj with hc | hw | ⟨hp, hst⟩
    · exact .inl hc
    · exact .inr hw
    · rw [hst]
      exact hs.pending j hp

/-- An operation leaves the contexts and the amounts. -/
structure Steady (s t : State) : Prop where
  seated : Seated s t
  ace : s.ace.Agrees t.ace

theorem Steady.of_seated {s t : State} (h : Seated s t) (ha : t.ace = s.ace) : Steady s t := ⟨h, ha ▸ .refl _⟩

theorem Steady.refl (s : State) : Steady s s := ⟨.refl s, .refl _⟩

theorem Steady.trans {s t u : State} (h : Steady s t) (g : Steady t u) : Steady s u := ⟨h.seated.trans g.seated, h.ace.trans g.ace⟩

theorem Steady.ite {s t u : State} {p : Prop} [Decidable p] (ht : Steady s t) (hu : Steady s u) : Steady s (if p then t else u) := by
  split
  · exact ht
  · exact hu

theorem Steady.balances {h : Bool} {s t : State} (hm : s.markingLawAs h → t.markingLawAs h)
    (hj : s.markingLawAs h → s.Books → Steady s t) : Balances h s t :=
  Stems.balances hm fun x y => ⟨(hj x y).ace, (hj x y).seated.stems, (hj x y).seated.owed, (hj x y).seated.seats y.seats⟩

end Sys2Proof.Machine
end

section
/-!
The settling of records: each gives back its reserve, a charged one costs its price, and what is left in the contexts is what is still
owed (R84, R99, R104).
-/

namespace Sys2Proof.Machine

/-! ## One record -/

theorem settle_ace (report : Bool) (s : State) (r : PageRecord) : (s.settle report r).ace =
    if r.isCharged then s.ace.postCharge r (s.price r) else s.ace.modReserved r.user (· - r.reserve) := by
  unfold State.settle
  cases report <;> split <;> rfl

/-- A record that settles gives its reserve back to its user and the user's department. -/
theorem settle_reserved (report : Bool) (s : State) (r : PageRecord) :
    (∀ v : Fin 256, ((s.settle report r).ace.users[v]).reserved =
      if v = r.user then (s.ace.users[v]).reserved - r.reserve else (s.ace.users[v]).reserved)
    ∧ (∀ v, (s.settle report r).ace.deptOf v = s.ace.deptOf v)
    ∧ ∀ d : Fin 16, ((s.settle report r).ace.depts[d]).reserved =
      if s.ace.deptOf r.user = some d then (s.ace.depts[d]).reserved - r.reserve else (s.ace.depts[d]).reserved := by
  rw [settle_ace]
  split
  · refine ⟨fun v => (postCharge_user _ _ _ v).2.1, fun v => ?_, fun d => (postCharge_dept _ _ _ d).2⟩
    refine (congrArg UserStored.department (postCharge_user s.ace r (s.price r) v).1).trans ?_
    split <;> rfl
  · exact ⟨fun v => (modReserved_user _ _ v _).2.1, fun v => congrArg UserStored.department (modReserved_user _ _ v _).1,
      fun d => (modReserved_dept _ _ _ d).2⟩

theorem settle_deptLaw (report : Bool) {s : State} {r : PageRecord} (h : s.ace.deptLaw)
    (hr : r.reserve ≤ (s.ace.users[r.user]).reserved) : (s.settle report r).ace.deptLaw := by
  obtain ⟨huser, hdept, hd⟩ := settle_reserved report s r
  refine deptLaw_change h r.user hdept (fun v hv => (huser v).trans (if_neg hv)) fun d => ?_
  have hu := huser r.user
  rw [if_pos rfl] at hu
  rw [hd d, hu]
  split
  · next hsome =>
    have := reserved_le_dept h hsome
    omega
  · rfl

theorem settle_tables (report : Bool) (s : State) (r : PageRecord) :
    (s.settle report r).ace.classes = s.ace.classes ∧ (s.settle report r).ace.tariff = s.ace.tariff := by
  rw [settle_ace]
  split
  · exact ⟨(postCharge_stands _ _ _).classes, (postCharge_stands _ _ _).tariff⟩
  · exact ⟨rfl, rfl⟩

theorem settle_charge (report : Bool) (s : State) (r q : PageRecord) : ((s.settle report r).price q).charge = (s.price q).charge := by
  obtain ⟨hc, ht⟩ := settle_tables report s r
  exact price_charge_congr hc ht (congrArg JobSlot.declared ((postsOnly_settle report s r).jobs q.job) :)

theorem limitLaw_iff (a : Ace) : a.limitLaw ↔ (∀ u : Fin 256, (a.users[u]).stored.balance ≤ 2 ^ 31 - 1) ∧ a.Within :=
  ⟨fun ⟨hu, hd⟩ => ⟨fun u => (hu u).1, fun u => (hu u).2, hd⟩, fun ⟨hb, hu, hd⟩ => ⟨fun u => ⟨hb u, hu u⟩, hd⟩⟩

/-- Reserves that are given back keep the bounds. -/
theorem within_release {a : Ace} (h : a.Within) (u : Fin 256) (n : Nat) : (a.modReserved u (· - n)).Within := by
  obtain ⟨hu, hd⟩ := h
  refine ⟨fun v => ?_, fun d limit hlimit => ?_⟩
  · obtain ⟨hs, hr, -⟩ := modReserved_user a u v (· - n)
    have hv := hu v
    rw [hs, hr]
    split <;> omega
  · obtain ⟨hs, hr⟩ := modReserved_dept a u (· - n) d
    rw [hs] at hlimit ⊢
    have hv := hd d limit hlimit
    rw [hr]
    split <;> omega

/-- A record that costs at most its reserve keeps the bounds as it settles. -/
theorem settle_limitLaw (report : Bool) {s : State} {r : PageRecord} (h : s.ace.limitLaw) (hd : s.ace.deptLaw)
    (hr : r.reserve ≤ (s.ace.users[r.user]).reserved) (hc : (s.price r).charge ≤ r.reserve) :
    (s.settle report r).ace.limitLaw := by
  obtain ⟨hbalance, hwithin⟩ := (limitLaw_iff _).1 h
  refine (limitLaw_iff _).2 ?_
  rw [settle_ace]
  split
  · refine ⟨fun v => ?_, within_postCharge hwithin hc hr fun d hdept => hr.trans (reserved_le_dept hd hdept)⟩
    have hv := hbalance v
    rw [(postCharge_user s.ace r (s.price r) v).1]
    split
    · simp only [UserStored.post]
      omega
    · exact hv
  · exact ⟨fun v => by rw [(modReserved_user _ _ v _).1]; exact hbalance v, within_release hwithin r.user r.reserve⟩

/-! ## A list of records -/

/-- Records whose reserves the users hold, beside the amounts `left`, settle: the amounts `left` stay. -/
theorem settleAll_books (report : Bool) {left : Fin 256 → Nat} (rs : List PageRecord) {s : State}
    (hu : ∀ u : Fin 256, (s.ace.users[u]).reserved = left u + owed rs u) (hd : s.ace.deptLaw) :
    (∀ u : Fin 256, ((rs.foldl (State.settle report) s).ace.users[u]).reserved = left u)
    ∧ (rs.foldl (State.settle report) s).ace.deptLaw := by
  induction rs generalizing s with
  | nil => exact ⟨hu, hd⟩
  | cons r rs ih =>
    have hr : r.reserve ≤ (s.ace.users[r.user]).reserved :=
      (reserve_le_owed List.mem_cons_self).trans ((hu r.user).ge.trans' (Nat.le_add_left _ _))
    refine ih (fun u => ?_) (settle_deptLaw report hd hr)
    have hsum := hu u
    rw [owed_cons] at hsum
    rw [(settle_reserved report s r).1 u]
    by_cases he : u = r.user
    · subst he
      rw [if_pos rfl] at hsum ⊢
      omega
    · rw [if_neg fun e => he e.symm] at hsum
      rw [if_neg he]
      omega

/-- Where each of them costs at most its reserve, the bounds stay as well. -/
theorem settleAll_limitLaw (report : Bool) {left : Fin 256 → Nat} (rs : List PageRecord) {s : State}
    (hu : ∀ u : Fin 256, (s.ace.users[u]).reserved = left u + owed rs u) (hd : s.ace.deptLaw) (hl : s.ace.limitLaw)
    (hc : ∀ r ∈ rs, (s.price r).charge ≤ r.reserve) : (rs.foldl (State.settle report) s).ace.limitLaw := by
  induction rs generalizing s with
  | nil => exact hl
  | cons r rs ih =>
    have hr : r.reserve ≤ (s.ace.users[r.user]).reserved :=
      (reserve_le_owed List.mem_cons_self).trans ((hu r.user).ge.trans' (Nat.le_add_left _ _))
    refine ih (fun u => ?_) (settle_deptLaw report hd hr) (settle_limitLaw report hl hd hr (hc r List.mem_cons_self))
      fun q hq => (settle_charge report s r q).trans_le (hc q (List.mem_cons_of_mem r hq))
    have hsum := hu u
    rw [owed_cons] at hsum
    rw [(settle_reserved report s r).1 u]
    by_cases he : u = r.user
    · subst he
      rw [if_pos rfl] at hsum ⊢
      omega
    · rw [if_neg fun e => he e.symm] at hsum
      rw [if_neg he]
      omega

theorem settleAll_tables (report : Bool) (rs : List PageRecord) (s : State) :
    (rs.foldl (State.settle report) s).ace.classes = s.ace.classes
    ∧ (rs.foldl (State.settle report) s).ace.tariff = s.ace.tariff := by
  induction rs generalizing s with
  | nil => exact ⟨rfl, rfl⟩
  | cons r rs ih =>
    obtain ⟨hc, ht⟩ := settle_tables report s r
    obtain ⟨gc, gt⟩ := ih (s.settle report r)
    exact ⟨gc.trans hc, gt.trans ht⟩

/-- The records in the order of opening are those given. -/
theorem sortRecords_perm (rs : List PageRecord) : (sortRecords rs).Perm rs := by
  have hinsert : ∀ (r : PageRecord) (qs : List PageRecord), (insertRecord r qs).Perm (r :: qs) := fun r qs => by
    induction qs with
    | nil => exact .refl _
    | cons q qs ih =>
      rw [insertRecord]
      split
      · exact .refl _
      · exact (ih.cons q).trans (.swap r q qs)
  induction rs with
  | nil => exact .refl _
  | cons r rs ih => exact (hinsert r (sortRecords rs)).trans (ih.cons r)

/-- A posting leaves the seats and the contexts. -/
theorem PostsOnly.seated {s t : State} (h : PostsOnly s t) : Seated s t :=
  .of_slots (fun e => by rw [h.rest]; exact e) (congrArg (fun u : State => u.jct.marking) h.rest :)
    (congrArg (fun u : State => u.jct.stack) h.rest :) fun j => by
      rw [h.jobs j]
      exact ⟨rfl, rfl, rfl, rfl, rfl⟩

/-! ## The due records -/

theorem ownQueue_map (c : Option Context) {f : Context → Context} {g : List PageRecord → List PageRecord} (hg : g [] = [])
    (h : ∀ x : Context, (f x).queue = g x.queue) : ownQueue (c.map f) = g (ownQueue c) := by
  cases c with
  | none => exact hg.symm
  | some x => exact h x

theorem ownQueue_nonempty (c : Option Context) : ownQueue (c.filter fun x => !x.queue.isEmpty) = ownQueue c := by
  cases c with
  | none => rfl
  | some x =>
    by_cases hx : x.queue = []
    · simp [Option.filter, ownQueue, hx]
    · simp [Option.filter, ownQueue, hx]

theorem withoutDue_records (j : Jobs) : j.withoutDue.records = j.records.filter fun r => !r.isDue := by
  have hmarking : ownQueue (j.withoutDue.marking.map Marked.ctx) =
      (ownQueue (j.marking.map Marked.ctx)).filter fun r => !r.isDue := by
    show ownQueue ((j.marking.map fun m => { m with ctx := m.ctx.dropDue }).map Marked.ctx) = _
    rw [Option.map_map, ← ownQueue_map (j.marking.map Marked.ctx) (f := Context.dropDue) rfl fun _ => rfl, Option.map_map]
    rfl
  have hstack : j.withoutDue.stack.flatMap (fun m => m.ctx.queue) =
      (j.stack.flatMap fun m => m.ctx.queue).filter fun r => !r.isDue := by
    show (j.stack.map fun m => { m with ctx := m.ctx.dropDue }).flatMap (fun m : Marked => m.ctx.queue) = _
    rw [List.flatMap_map, List.filter_flatMap]
    rfl
  have hown : ((List.finRange 16).flatMap fun i => ownQueue (j.withoutDue.slots[i]).own) =
      ((List.finRange 16).flatMap fun i => ownQueue (j.slots[i]).own).filter fun r => !r.isDue := by
    rw [List.filter_flatMap]
    refine List.flatMap_congr fun i _ => ?_
    rw [withoutDue_slot, ← ownQueue_map (j.slots[i]).own (f := Context.dropDue) rfl fun _ => rfl]
    exact ownQueue_nonempty _
  rw [records_eq, records_eq, hmarking, hstack, hown, List.filter_append, List.filter_append]

theorem due_eq (j : Jobs) : j.due = j.records.filter PageRecord.isDue := by
  rw [Jobs.due, Jobs.records, List.filter_flatMap]

/-- What the contexts owe is what is left and what settles. -/
theorem withoutDue_owed (j : Jobs) (u : Fin 256) : j.withoutDue.reservesOf u + owed (sortRecords j.due) u = j.reservesOf u := by
  rw [reservesOf_eq_owed, reservesOf_eq_owed, withoutDue_records, owed_perm (sortRecords_perm _), due_eq]
  exact owed_partition _ _ _

/-- Each context that remains comes from one of the same job whose due records have left. -/
theorem withoutDue_contexts (j : Jobs) {m : Marked} (h : m ∈ j.withoutDue.contexts) :
    ∃ n ∈ j.contexts, n.job = m.job ∧ m.ctx = n.ctx.dropDue := by
  rcases (Jobs.mem_contexts_iff _ m).1 h with h | h | ⟨i, c, hc, rfl⟩
  · obtain ⟨n, hn, rfl⟩ := Option.mem_map.1 h
    exact ⟨n, (Jobs.mem_contexts_iff _ n).2 (.inl hn), rfl, rfl⟩
  · obtain ⟨n, hn, rfl⟩ := List.mem_map.1 h
    exact ⟨n, (Jobs.mem_contexts_iff _ n).2 (.inr (.inl hn)), rfl, rfl⟩
  · rw [withoutDue_slot] at hc
    obtain ⟨hmap, -⟩ := Option.mem_filter_iff.1 hc
    obtain ⟨x, hx, rfl⟩ := Option.mem_map.1 hmap
    exact ⟨⟨i, x⟩, (Jobs.mem_contexts_iff _ _).2 (.inr (.inr ⟨i, x, hx, rfl⟩)), rfl, rfl⟩

theorem withoutDue_stems (s : State) : Stems s s.withoutDue := fun m hm q hq => by
  obtain ⟨n, hn, hjob, hctx⟩ := withoutDue_contexts s.jct hm
  rw [hctx] at hq
  refine ⟨n, hn, hjob, ⟨q, (List.mem_filter.1 hq).1, .refl q⟩, ?_, ?_⟩ <;> rw [withoutDue_job]

theorem withoutDue_seats {s : State} (h : s.Seats) : s.withoutDue.Seats where
  own j hj := by
    rw [withoutDue_job] at hj ⊢
    obtain ⟨c, hc⟩ := Option.isSome_iff_exists.1 hj
    obtain ⟨d, hd, -⟩ := Option.mem_map.1 (Option.mem_filter_iff.1 hc).1
    obtain ⟨hanchored, hclosing, hmark, hstack⟩ := h.own j (by rw [hd]; rfl)
    refine ⟨hanchored, hclosing, ?_, ?_⟩
    · rw [isMarking_eq_false] at hmark ⊢
      intro m hm
      obtain ⟨n, hn, rfl⟩ := Option.mem_map.1 (show m ∈ s.jct.marking.map _ from hm)
      exact hmark n hn
    · rw [isStacked_eq_false] at hstack ⊢
      intro m hm
      obtain ⟨n, hn, rfl⟩ := List.mem_map.1 (show m ∈ s.jct.stack.map _ from hm)
      exact hstack n hn
  pending j hj := by
    rw [withoutDue_job] at hj ⊢
    exact h.pending j hj

/-- The due records settle: the books stand. -/
theorem settleDue_books {s : State} (h : s.Books) : s.settleDue.Books := by
  have hposts := settleDue_posts s
  obtain ⟨husers, hdepts⟩ := settleAll_books true (left := s.withoutDue.jct.reservesOf) (s := s.withoutDue) (sortRecords s.jct.due)
    (fun u => (h.users u).trans (withoutDue_owed s.jct u).symm) h.depts
  exact ⟨hposts.seated.seats (withoutDue_seats h.seats), hposts.seated.stems.recordLaw ((withoutDue_stems s).recordLaw h.record),
    fun u => (husers u).trans (hposts.seated.owed u).symm, hdepts⟩

/-- Where each due record is covered, the bounds stand as well. -/
theorem settleDue_limitLaw {s : State} (h : s.Books) (hl : s.ace.limitLaw) (hc : s.coversAll fun r => r.lines = 0) :
    s.settleDue.ace.limitLaw := by
  refine settleAll_limitLaw true (left := s.withoutDue.jct.reservesOf) (s := s.withoutDue) (sortRecords s.jct.due)
    (fun u => (h.users u).trans (withoutDue_owed s.jct u).symm) h.depts hl fun r hr => ?_
  have hdue := (sortRecords_perm _).mem_iff.1 hr
  rw [due_eq] at hdue
  obtain ⟨hmem, hisDue⟩ := List.mem_filter.1 hdue
  have hlines : r.lines = 0 := by
    rw [PageRecord.isDue, Bool.and_eq_true, beq_iff_eq] at hisDue
    exact hisDue.2
  rw [withoutDue_price]
  exact charge_le_of_covers (hc r hmem hlines)

theorem settleDue_covers {s : State} (h : s.Books) (hc : s.coversAll fun _ => True) : s.settleDue.coversAll fun _ => True := by
  obtain ⟨hclasses, htariff⟩ := settleAll_tables true (sortRecords s.jct.due) s.withoutDue
  have hleft : s.withoutDue.coversAll fun _ => True := (withoutDue_stems s).covers h.record rfl rfl hc
  exact (settleDue_posts s).seated.stems.covers ((withoutDue_stems s).recordLaw h.record) hclasses htariff hleft

theorem State.coversAll.mono {s : State} {p : PageRecord → Prop} (h : s.coversAll fun _ => True) : s.coversAll p :=
  fun r hr _ => h r hr trivial

end Sys2Proof.Machine
end

section
/-!
Operations that leave the jobs and their contexts, and in ACE every amount: those of bays, toner, the memory path, the rings and the wipes,
the credential check, the write-backs, and the joining of reports.
-/

namespace Sys2Proof.Machine

/-- An operation leaves JCT and the amounts of ACE, and the part does not leave ANCHORED. -/
structure Apart (s t : State) : Prop where
  jct : t.jct = s.jct
  ace : s.ace.Agrees t.ace
  anchored : s.rci.startup = .anchored → t.rci.startup = .anchored

theorem Apart.of_eq {s t : State} (hj : t.jct = s.jct) (ha : t.ace = s.ace) (hr : t.rci.startup = s.rci.startup) : Apart s t :=
  ⟨hj, ha ▸ .refl _, fun h => hr.trans h⟩

theorem Apart.refl (s : State) : Apart s s := .of_eq rfl rfl rfl

theorem Apart.trans {s t u : State} (h : Apart s t) (g : Apart t u) : Apart s u :=
  ⟨g.jct.trans h.jct, h.ace.trans g.ace, fun x => g.anchored (h.anchored x)⟩

theorem Apart.ite {s t u : State} {p : Prop} [Decidable p] (ht : Apart s t) (hu : Apart s u) : Apart s (if p then t else u) := by
  split
  · exact ht
  · exact hu

theorem Apart.of_ace {s : State} {a : Ace} (h : s.ace.Agrees a) : Apart s { s with ace := a } := ⟨rfl, h, id⟩

theorem Sided.apart {f : State → State} (hf : Sided f) (s : State) : Apart s (f s) :=
  .of_eq (congrArg State.jct (hf.apply_eq s) :) (hf.ace s) (congrArg (fun t : State => t.rci.startup) (hf.apply_eq s) :)

theorem Apart.steady {s t : State} (h : Apart s t) : Steady s t := ⟨.of_jct h.anchored h.jct, h.ace⟩

/-- Such an operation keeps the laws of O10 where it keeps the marking law. -/
theorem Apart.balances {h : Bool} {s t : State} (g : Apart s t) (hm : s.markingLawAs h → t.markingLawAs h) : Balances h s t :=
  Steady.balances hm fun _ _ => g.steady

theorem Keeps.marksAs {n : Nat} {h : Bool} {s t : State} (k : Keeps n (some h) s t) : s.markingLawAs h → t.markingLawAs h :=
  k.marks.marking h rfl

theorem Apart.kept {h : Bool} {s t : State} (g : Apart s t) (k : Keeps 0 (some h) s t) : Balances h s t := g.balances k.marksAs

theorem Apart.framed {h : Bool} {s t : State} (g : Apart s t) (f : Frame s t) : Balances h s t := g.kept f.keeps

/-! ## Bays (chapter 7) -/

theorem apart_modBay (s : State) (p : Fin 4) (f : Bay → Bay) : Apart s (s.modBay p f) := .of_eq rfl rfl rfl

theorem apart_exchangeFailed (s : State) (p : Fin 4) (isDebit : Bool) : Apart s (s.exchangeFailed p isDebit) := by
  unfold State.exchangeFailed
  simp only
  cases (s.bay p).state with
  | vacant => exact apart_modBay s p _
  | settling => exact (((sided_bayChanged _).modBay p _).comp (sided_endExchange p)).apart s
  | _ =>
    have hcount : Apart s ((s.endExchange p).modBay p fun b => { b with failures := min 7 (b.failures + 1) }) := .of_eq rfl rfl rfl
    have hevaluated : ∀ t : State, Apart t (if isDebit = true then t.evalLevel p else t) := fun t =>
      .ite ((sided_evalLevel p).apart t) (.refl t)
    refine hcount.trans (.ite ((hevaluated _).trans ?_) (.ite ((sided_roundFailed p).apart _) (.refl _)))
    exact (Sided.depart (fun items => sided_bayChanged (departReport p (s.bay p) .vacant .detach items)) p).apart _

theorem apart_goodStatus (s : State) (p : Fin 4) (fr : List Byte) : Apart s (s.goodStatus p fr) := by
  unfold State.goodStatus
  simp only
  have hbegin : Apart s ((s.endExchange p).modBay p fun b =>
    { b with statusLevel := BitVec.ofNat 32 (frameField fr 3 4), statusFlags := byte (frameField fr 7 1) }) := .of_eq rfl rfl rfl
  refine hbegin.trans ?_
  generalize (s.endExchange p).modBay p _ = t
  have hsettling : ∀ (u : State) (f : Bay → Bay) (r : BayReport), Apart u (((u.modBay p f).attachTest p).bayChanged r) :=
    fun u f r => (((sided_bayChanged r).comp (sided_attachTest p)).modBay p f).apart u
  cases (s.bay p).state with
  | vacant => exact hsettling t _ _
  | settling => exact hsettling t _ _
  | identifying => exact apart_modBay t p _
  | proving => exact apart_modBay t p _
  | _ => exact .ite (((Sided.depart (f := fun _ u => u) (fun _ => Sided.id) p).apart t).trans (hsettling _ _ _)) (apart_modBay t p _)

theorem apart_goodIdent (s : State) (p : Fin 4) (fr : List Byte) : Apart s (s.goodIdent p fr) := by
  have hwrong : ∀ (t : State) (c : BayCause) (serial : Word8) (colour : Byte) (cap : BitVec 32),
      Apart t (t.wrongBay p c serial colour cap) := fun t c serial colour cap => ((sided_bayChanged _).modBay p _).apart t
  have hidentified : ∀ (t : State) (serial : Word8) (colour : Byte) (cap : BitVec 32),
      Apart t (t.identified p serial colour cap) := fun t serial colour cap => by
    unfold State.identified
    simp only
    refine Apart.trans ?_ ((sided_bayChanged _).apart _)
    cases t.ccu.departedEntry? serial <;> exact .of_eq rfl rfl rfl
  unfold State.goodIdent
  simp only
  exact ((sided_endExchange p).apart s).trans
    (.ite (.ite (hwrong _ _ _ _ _) (.ite (hwrong _ _ _ _ _) (hidentified _ _ _ _))) (apart_modBay _ p _))

theorem apart_proofGood (s : State) (p : Fin 4) (level : BitVec 32) (seq : BitVec 16) : Apart s (s.proofGood p level seq) := by
  unfold State.proofGood
  simp only
  refine Apart.trans ?_ ((sided_bayChanged _).apart _)
  refine Apart.trans ?_ ((sided_proofView p _ _).apart _)
  cases ((s.bay p).unconfirmed.filter fun u => u.seq == seq).map Unconfirmed.amount with
  | none => exact apart_modBay s p _
  | some a => exact ((sided_confirm p a).modBay p _).apart s

theorem apart_goodProve (s : State) (p : Fin 4) (nonce : Word8) (fr : List Byte) : Apart s (s.goodProve p nonce fr) := by
  unfold State.goodProve
  simp only
  refine ((sided_endExchange p).apart s).trans ?_
  split
  · exact .ite (apart_proofGood _ p _ _) ((((sided_bayChanged _).comp (sided_proofView p _ _)).modBay p _).apart _)
  · exact apart_modBay _ p _

theorem apart_goodDebit (s : State) (p : Fin 4) (fr : List Byte) : Apart s (s.goodDebit p fr) := by
  unfold State.goodDebit
  simp only
  refine ((sided_endExchange p).apart s).trans ?_
  split
  · exact .ite (((sided_roundGood p _).modBay p _).apart _) ((((sided_bayChanged _).comp (sided_roundTagBad p)).modBay p _).apart _)
  · exact apart_modBay _ p _

theorem apart_replyEnds (s : State) (k : Exch) (p : Fin 4) (fr : List Byte) : Apart s (s.replyEnds k p fr) := by
  unfold State.replyEnds
  split
  · exact .refl s
  · next e _ =>
    refine .ite (.refl s) (.ite ?_ (apart_exchangeFailed s p _))
    unfold State.goodReply
    cases e.kind with
    | status => exact apart_goodStatus s p fr
    | ident => exact apart_goodIdent s p fr
    | prove => exact apart_goodProve s p e.nonce fr
    | debit => exact apart_goodDebit s p fr

theorem apart_waitUntil (s : State) (t : BitVec 32) (n : Nat) : Apart s (s.waitUntil t n) := .ite (.of_eq rfl rfl rfl) (.refl s)

/-- A request goes out after the wait for its bay. -/
theorem apart_sent (s : State) (p : Fin 4) (k : Exch) (nonce : Word8) (payload : State → List Byte) :
    Apart s ((s.waitDue p).sendFrame p k nonce (payload (s.waitDue p))) := by
  have hwait : Apart s (s.waitDue p) := by
    unfold State.waitDue
    split
    · exact .refl s
    · exact .refl s
    · exact apart_waitUntil s _ 200
  exact hwait.trans (.of_eq rfl rfl rfl)

theorem apart_sendStatus (s : State) (p : Fin 4) : Apart s (s.sendStatus p) := .ite (apart_sent s p _ _ fun _ => _) (.refl s)

theorem apart_sendIdent (s : State) (p : Fin 4) : Apart s (s.sendIdent p) := .ite (apart_sent s p _ _ fun _ => _) (.refl s)

theorem apart_sendProve (s : State) (p : Fin 4) : Apart s (s.sendProve p) := by
  have hsent := apart_sent s p .prove (Config.randomNonce s.draws) fun _ => word8Bytes (Config.randomNonce s.draws)
  exact .ite (hsent.trans (.of_eq rfl rfl rfl)) (.refl s)

theorem apart_sendDebit (s : State) (p : Fin 4) : Apart s (s.sendDebit p) := by
  unfold State.sendDebit
  split
  · exact .ite (.of_eq rfl rfl rfl) (.refl s)
  · exact .refl s

theorem apart_timeOut (s : State) (p : Fin 4) : Apart s (s.timeOut p) := by
  unfold State.timeOut
  split
  · exact (apart_waitUntil s _ 21).trans (apart_exchangeFailed _ p _)
  · exact .refl s

theorem apart_replyBegins (s : State) (p : Fin 4) : Apart s (s.replyBegins p) := by
  unfold State.replyBegins
  split
  · exact .ite (.refl s) (.of_eq rfl rfl rfl)
  · exact .refl s

/-! ## Write-backs and credentials (chapter 6) -/

theorem agrees_setWb (a : Ace) (r : RecId) (w : WbState) : a.Agrees (a.setWb r w) :=
  .of_posted (setWb_stands a r w).1 (setWb_stands a r w).2

theorem agrees_trigger (a : Ace) (r : RecId) : a.Agrees (a.trigger r) :=
  .of_posted (trigger_stands a r).1 (trigger_stands a r).2

theorem agrees_triggerAll (a : Ace) (rs : List RecId) : a.Agrees (a.triggerAll rs) :=
  .of_posted (triggerAll_stands rs a).1 (triggerAll_stands rs a).2

/-- A user's record takes stored fields with the same department, balance and overdraft limit. -/
theorem agrees_putUser (a : Ace) (u : Fin 256) (x : UserStored) (hd : x.department = (a.users[u]).stored.department)
    (hb : x.balance = (a.users[u]).stored.balance) (ho : x.overdraft = (a.users[u]).stored.overdraft) : a.Agrees (a.putUser u x) where
  reserved v := (putUser_user a u v x).2.1
  department v := by
    rw [Ace.deptOf, (putUser_user a u v x).1]
    split
    · next h => rw [h, hd]; rfl
    · rfl
  balance v := by
    rw [(putUser_user a u v x).1]
    split
    · next h => rw [h, hb]
    · rfl
  overdraft v := by
    rw [(putUser_user a u v x).1]
    split
    · next h => rw [h, ho]
    · rfl
  depts _ := ⟨rfl, rfl⟩
  classes := rfl
  tariff := rfl

theorem agrees_serviceFailures (a : Ace) (n : Nat) : a.Agrees (a.serviceFailures n) :=
  .ite (.refl a) (Ace.Agrees.trans (b := a.putService { a.service with failures := n }) (.of_tables rfl rfl rfl rfl)
    (agrees_trigger _ _))

theorem apart_examinePin (s : State) (pin : Word8) : Apart s (s.examinePin pin).1 := by
  unfold State.examinePin
  split
  · exact .of_ace (agrees_serviceFailures _ _)
  · exact .of_ace ((agrees_serviceFailures _ _).trans (.of_tables rfl rfl rfl rfl))

theorem apart_expireLockout (s : State) (t : BitVec 32) : Apart s (s.expireLockout t) :=
  (apart_waitUntil s t 60000).trans (.of_ace (by
    rw [show s.ace = (s.waitUntil t 60000).ace by unfold State.waitUntil; split <;> rfl]
    exact (agrees_serviceFailures _ _).trans (.of_tables rfl rfl rfl rfl)))

theorem apart_credential (s : State) (pin : Word8) : Apart s (s.credential pin).1 := by
  rcases s.credential_cases pin with ⟨t, -, -, h⟩ | ⟨t, -, -, h⟩ | ⟨-, h⟩ <;> rw [h]
  · exact .refl s
  · exact (apart_expireLockout s t).trans (apart_examinePin _ pin)
  · exact apart_examinePin s pin

theorem apart_pinChecked (s : State) (u : Fin 256) (good : Bool) : Apart s (s.pinChecked u good) := by
  have hput : ∀ x : UserStored, x.department = (s.ace.users[u]).stored.department → x.balance = (s.ace.users[u]).stored.balance →
      x.overdraft = (s.ace.users[u]).stored.overdraft → Apart s { s with ace := (s.ace.putUser u x).trigger (.user u) } :=
    fun x hd hb ho => .of_ace ((agrees_putUser _ u x hd hb ho).trans (agrees_trigger _ _))
  refine .ite (.refl s) (hput _ ?_ ?_ ?_) <;> split_ifs <;> rfl

theorem apart_completeWrite (s : State) : Apart s s.completeWrite := by
  unfold State.completeWrite
  split
  · exact .refl s
  · refine ⟨rfl, ?_, id⟩
    have hidle : s.ace.Agrees ({ s.ace with writing := none } : Ace) := .of_tables rfl rfl rfl rfl
    dsimp only
    split
    · exact hidle.trans ((agrees_setWb _ _ _).trans (agrees_trigger _ _))
    · exact hidle.trans (agrees_setWb _ _ _)

theorem agrees_clearPosting (a : Ace) (r : RecId) : a.Agrees (a.clearPosting r) := by
  cases r with
  | user i =>
    have hu : ∀ v : Fin 256, ((a.clearPosting (.user i)).users[v]).stored = (a.users[v]).stored
        ∧ ((a.clearPosting (.user i)).users[v]).reserved = (a.users[v]).reserved := fun v => by
      simp only [Ace.clearPosting, upd_get]
      split <;> exact ⟨rfl, rfl⟩
    exact ⟨fun v => (hu v).2, fun v => congrArg UserStored.department (hu v).1, fun v => congrArg UserStored.balance (hu v).1,
      fun v => congrArg UserStored.overdraft (hu v).1, fun _ => ⟨rfl, rfl⟩, rfl, rfl⟩
  | dept i =>
    refine ⟨fun _ => rfl, fun _ => rfl, fun _ => rfl, fun _ => rfl, fun d => ?_, rfl, rfl⟩
    simp only [Ace.clearPosting, upd_get]
    split <;> exact ⟨rfl, rfl⟩
  | _ => exact .of_tables rfl rfl rfl rfl

theorem agrees_startWrite (a : Ace) : a.Agrees a.startWrite := by
  have hrefill : ∀ b : Ace, b.Agrees b.refill := fun b => by
    unfold Ace.refill
    split
    · exact .refl b
    · exact (agrees_setWb b _ _).trans (.of_tables rfl rfl rfl rfl)
  unfold Ace.startWrite
  split
  · exact .refl a
  · next r _ _ =>
    refine ((agrees_clearPosting a r).trans (agrees_setWb _ r (.writing false))).trans (Ace.Agrees.trans ?_ (hrefill _))
    exact .of_tables rfl rfl rfl rfl

theorem apart_beginWrite (s : State) : Apart s s.beginWrite :=
  .ite ⟨rfl, agrees_startWrite s.ace, fun h => by
    unfold Rci.tallyWrite Rci.tally
    split
    · split <;> exact h
    · exact h
    · exact h⟩ (.refl s)

theorem apart_lockoutEnds (s : State) : Apart s s.lockoutEnds := by
  unfold State.lockoutEnds
  split
  · exact apart_expireLockout s _
  · exact .refl s

theorem agrees_clearCounts (a : Ace) : a.Agrees a.clearCounts := by
  have hu : ∀ v : Fin 256, (a.clearCounts.users[v]).stored = (a.users[v]).stored
      ∧ (a.clearCounts.users[v]).reserved = (a.users[v]).reserved := fun v => by simp [Ace.clearCounts]
  have hd : ∀ d : Fin 16, (a.clearCounts.depts[d]).stored = (a.depts[d]).stored
      ∧ (a.clearCounts.depts[d]).reserved = (a.depts[d]).reserved := fun d => by simp [Ace.clearCounts]
  exact ⟨fun v => (hu v).2, fun v => congrArg UserStored.department (hu v).1, fun v => congrArg UserStored.balance (hu v).1,
    fun v => congrArg UserStored.overdraft (hu v).1, hd, rfl, rfl⟩

/-! ## The memory path and the downstream port (chapter 1) -/

theorem apart_deny (s : State) (t : Txn) (d : Denial) : Apart s (s.deny t d) :=
  .ite (.ite (.of_eq rfl rfl rfl) (.ite (.of_eq rfl rfl rfl) (.of_eq rfl rfl rfl))) (.ite (.of_eq rfl rfl rfl) (.of_eq rfl rfl rfl))

theorem apart_present (s : State) (t : Option Txn) : Apart s (s.present t) := by
  cases t <;> exact .of_eq rfl rfl rfl

theorem apart_joinHold (s : State) (t : Txn) (c : Option HoldCause) : Apart s (s.joinHold t c) := by
  cases c <;> exact .of_eq rfl rfl rfl

theorem apart_putHold (s : State) (n : Nat) (t : Txn) (c : Option HoldCause) : Apart s (s.putHold n t c) := by
  cases c <;> exact .of_eq rfl rfl rfl

theorem apart_grant (s : State) : Apart s s.grant := by
  unfold State.grant
  refine .ite (.refl s) ?_
  split
  · exact .refl s
  · exact .of_eq rfl rfl rfl
  · exact .of_eq rfl rfl rfl
  · exact .ite (.of_eq rfl rfl rfl) (.of_eq rfl rfl rfl)

theorem apart_dropOrphan (s : State) (k : Nat) (d : Dir) : Apart s (s.dropOrphan k d) := by
  unfold State.dropOrphan
  split
  · exact .ite (.of_eq rfl rfl rfl) (.refl s)
  · exact .refl s

theorem apart_offerAnchor (s : State) (a : Addr) (ls : List WriteLine) : Apart s (s.offerAnchor a ls) := by
  unfold State.offerAnchor
  split
  · refine .ite ?_ (.refl s)
    split
    · exact .ite ⟨rfl, .refl _, fun _ => rfl⟩ (.of_eq rfl rfl rfl)
    · exact .refl s
  · exact .refl s

theorem apart_handIndex (s : State) (w : WriteSlot) : Apart s (s.handIndex w) := by
  have htake : ∀ l, Apart s (s.takeIndex l) := fun l => by
    unfold State.takeIndex
    split
    · exact .ite (.of_eq rfl rfl rfl) (.of_eq rfl rfl rfl)
    · exact .refl s
  unfold State.handIndex
  split
  · split
    · exact htake _
    · exact .refl s
  · exact .refl s

/-! ## The Ring Interface (chapter 10) -/

theorem apart_startFetch (s : State) : Apart s s.startFetch := by
  unfold State.startFetch
  split
  · exact .ite (.of_eq rfl rfl rfl) (.refl s)
  · exact .refl s

theorem apart_issueReportWrite (s : State) : Apart s s.issueReportWrite := by
  unfold State.issueReportWrite
  split
  · refine .ite ?_ (.refl s)
    split
    · exact .of_eq rfl rfl rfl
    · exact .refl s
  · exact .refl s

theorem apart_answerReportWrite (s : State) (i : Fin 8) (okay : Bool) : Apart s (s.answerReportWrite i okay) := by
  have hdone : s.rci.slotDone.startup = s.rci.startup := by
    unfold Rci.slotDone
    split
    · split <;> rfl
    · rfl
  unfold State.answerReportWrite
  split
  · exact .ite (.of_eq rfl rfl rfl) (.ite (.of_eq rfl rfl hdone) (.ite (.of_eq rfl rfl hdone) (.of_eq rfl rfl rfl)))
  · exact .refl s

theorem apart_issueIndexWrite (s : State) : Apart s s.issueIndexWrite := by
  unfold State.issueIndexWrite
  split
  · exact .ite (.of_eq rfl rfl rfl) (.refl s)
  · exact .refl s

theorem apart_answerIndexWrite (s : State) (i : Fin 8) (okay : Bool) : Apart s (s.answerIndexWrite i okay) := by
  unfold State.answerIndexWrite
  split
  · exact .ite (.of_eq rfl rfl rfl) (.of_eq rfl rfl rfl)
  · exact .refl s

theorem apart_standbyEnter (s : State) (mode : Nat) (tag : BitVec 16) : Apart s (s.standbyEnter mode tag).2 := by
  unfold State.standbyEnter
  split
  · exact .refl s
  · split
    · exact .refl s
    · split
      · exact .refl s
      · exact .of_eq rfl rfl rfl

/-! ## Wipes (chapter 9) -/

theorem apart_startWipe (s : State) : Apart s s.startWipe := .ite (.of_eq rfl rfl rfl) (.refl s)

theorem apart_issueWipeWrite (s : State) : Apart s s.issueWipeWrite := by
  unfold State.issueWipeWrite
  split
  · split
    · exact .ite (.of_eq rfl rfl rfl) (.refl s)
    · exact .refl s
  · exact .refl s

theorem apart_issueVerifyRead (s : State) : Apart s s.issueVerifyRead := by
  unfold State.issueVerifyRead
  split
  · split
    · exact .ite (.of_eq rfl rfl rfl) (.refl s)
    · exact .refl s
  · exact .refl s

theorem apart_answerWipeWrite (s : State) (i : Fin 8) (okay : Bool) : Apart s (s.answerWipeWrite i okay) := by
  unfold State.answerWipeWrite
  split
  · exact .ite (.of_eq rfl rfl rfl) (.of_eq rfl rfl rfl)
  · exact .refl s

theorem apart_returnVerifyRead (s : State) (i : Fin 8) (okay : Bool) (lines : List Line) :
    Apart s (s.returnVerifyRead i okay lines) := by
  unfold State.returnVerifyRead
  split
  · exact .ite (.refl s) (.of_eq rfl rfl rfl)
  · exact .refl s

theorem apart_wipeRange (s : State) (tag : BitVec 16) (p : WipeRangeParams) : Apart s (s.wipeRange tag p).2 := by
  unfold State.wipeRange
  split
  · exact .refl s
  · split
    · exact .refl s
    · split
      · exact .refl s
      · split
        · exact .refl s
        · split
          · exact .refl s
          · exact .of_eq rfl rfl rfl

/-! ## The joining of reports, and standby after phase DRAIN (R177, R178, R188, R189) -/

theorem joinAt_apart (s : State) (time : BitVec 32) (h : Handed) : Apart s (s.joinAt time h) := by
  rcases s.joinAt_cases time h with ⟨-, e⟩ | ⟨-, e⟩ <;> rw [e] <;> exact .of_eq rfl rfl rfl

theorem apart_joinHanded (s : State) : Apart s s.joinHanded := by
  have hfold : ∀ (hs : List Handed) (t : State), Apart t (hs.foldl State.joinOne t) := fun hs => by
    induction hs with
    | nil => exact fun t => .refl t
    | cons h hs ih => exact fun t => (joinAt_apart t t.ms h).trans (ih _)
  exact (hfold _ s).trans (.of_eq rfl rfl rfl)

theorem apart_joinFault (s : State) : Apart s s.joinFault := by
  unfold State.joinFault
  split
  · exact .refl s
  · next time _ =>
    refine .ite ?_ (.refl s)
    obtain ⟨hj, -, hr⟩ := joinAt_apart s time ⟨.accountFault s.ace.faults, 0, false⟩
    exact ⟨hj, .of_tables rfl rfl rfl rfl, hr⟩

theorem apart_joinAll (s : State) : Apart s s.joinAll := (apart_joinFault s).trans (apart_joinHanded _)

theorem apart_flushTrigger (s : State) : Apart s s.flushTrigger := by
  unfold State.flushTrigger
  split
  · exact .of_ace (agrees_triggerAll _ _)
  · exact .refl s

theorem apart_flushEnd (s : State) : Apart s s.flushEnd := by
  unfold State.flushEnd
  split
  · exact .ite ⟨rfl, agrees_clearCounts _, id⟩ (.refl s)
  · exact .refl s

theorem apart_postEnd (s : State) : Apart s s.postEnd := by
  unfold State.postEnd
  split
  · exact .ite (.of_eq rfl rfl rfl) (.refl s)
  · exact .refl s

theorem apart_wakeCheck (s : State) : Apart s s.wakeCheck := .ite (.of_eq rfl rfl rfl) (.refl s)

end Sys2Proof.Machine
end

section
/-!
Operations that leave the contexts of the marking jobs: the Region Table, the reference counts, the counters, and a job slot that is
opened, released, closed without a context, freed or wiped.
-/

namespace Sys2Proof.Machine

/-! ## Jobs with and without a context -/

/-- The job of a context may mark, or is CLOSING. -/
theorem context_state {h : Bool} {s : State} (hl : s.markingLawAs h) (hs : s.Seats) {m : Marked} (hm : m ∈ s.jct.contexts) :
    (s.job m.job).state.bindable = true ∨ (s.job m.job).state = .closing := by
  obtain ⟨-, -, hmark, hstack⟩ := hl
  rcases (Jobs.mem_contexts_iff _ m).1 hm with h | h | ⟨i, c, hc, rfl⟩
  · exact .inl (hmark m h)
  · exact (hstack m h).imp_right fun h => h.1
  · have hsome : (s.job i).own.isSome = true := by
      rw [State.job, hc]
      rfl
    exact .inr (hs.own i hsome).2.1

/-- A FREE or WIPING job has no context. -/
theorem no_context {h : Bool} {s : State} (hl : s.markingLawAs h) (hs : s.Seats) {j : Fin 16}
    (hj : (s.job j).state = .free ∨ (s.job j).state = .wiping) : ∀ m ∈ s.jct.contexts, m.job ≠ j := fun m hm e => by
  have hm := context_state hl hs hm
  rw [e] at hm
  rcases hj with hj | hj <;> rcases hm with hm | hm <;> rw [hj] at hm <;> cases hm

theorem State.Seats.own_none {s : State} (hs : s.Seats) {j : Fin 16} (hj : (s.job j).state ≠ .closing) : (s.job j).own = none := by
  cases hown : (s.job j).own with
  | none => rfl
  | some c => exact absurd (hs.own j (by rw [hown]; rfl)).2.1 hj

theorem bindable_ne_closing {st : JobState} (h : st.bindable = true) : st ≠ .closing := fun e => by
  rw [e] at h
  cases h

theorem closePending_false {s : State} (hs : s.Seats) {j : Fin 16} (hj : (s.job j).state.bindable = true) :
    (s.job j).closePending = false := by
  cases hp : (s.job j).closePending with
  | false => rfl
  | true => rcases hs.pending j hp with h | h <;> rw [h] at hj <;> cases hj

/-! ## One job slot -/

/-- One job slot changes; where it has an own context its state stands, and where it has any its user and declared class stand. -/
theorem Seated.modJob {s : State} {j : Fin 16} {f : JobSlot → JobSlot} (hown : (f (s.job j)).own = (s.job j).own)
    (hstate : (s.job j).own.isSome = true → (f (s.job j)).state = (s.job j).state)
    (hpend : (f (s.job j)).closePending = true → (f (s.job j)).state = .closing ∨ (f (s.job j)).state = .wiping
      ∨ ((s.job j).closePending = true ∧ (f (s.job j)).state = (s.job j).state))
    (hjobs : (∃ m ∈ s.jct.contexts, m.job = j) →
      (f (s.job j)).user = (s.job j).user ∧ (f (s.job j)).declared = (s.job j).declared) : Seated s (s.modJob j f) where
  anchored := id
  marking := rfl
  stack := rfl
  own i := by
    rw [State.modJob_job]
    split
    · next e => exact e ▸ hown
    · rfl
  holds i hi := by
    rw [State.modJob_job]
    split
    · next e =>
      subst e
      exact hstate hi
    · rfl
  pending i hi := by
    rw [State.modJob_job] at hi ⊢
    split at hi
    · next e =>
      subst e
      rw [if_pos rfl]
      exact hpend hi
    · next e =>
      rw [if_neg e]
      exact .inr (.inr ⟨hi, rfl⟩)
  jobs m hm := by
    rw [State.modJob_job]
    split
    · next e => exact e ▸ hjobs ⟨m, hm, e⟩
    · exact ⟨rfl, rfl⟩

/-- One job slot changes what the laws do not look at. -/
theorem steady_modJob (s : State) (j : Fin 16) (f : JobSlot → JobSlot)
    (hf : ∀ q, (f q).own = q.own ∧ (f q).state = q.state ∧ (f q).closePending = q.closePending ∧ (f q).user = q.user
      ∧ (f q).declared = q.declared) : Steady s (s.modJob j f) := by
  obtain ⟨hown, hstate, hpend, huser, hdeclared⟩ := hf (s.job j)
  exact .of_seated (.modJob hown (fun _ => hstate) (fun h => .inr (.inr ⟨hpend ▸ h, hstate⟩)) fun _ => ⟨huser, hdeclared⟩) rfl

/-- The job slot of a job that has no own context. -/
theorem steady_ownless {s : State} {j : Fin 16} {f : JobSlot → JobSlot} (hs : (s.job j).own = none) (hf : (f (s.job j)).own = none)
    (hpend : (f (s.job j)).closePending = true → (f (s.job j)).state = .closing ∨ (f (s.job j)).state = .wiping)
    (hjobs : (∃ m ∈ s.jct.contexts, m.job = j) →
      (f (s.job j)).user = (s.job j).user ∧ (f (s.job j)).declared = (s.job j).declared) : Steady s (s.modJob j f) :=
  .of_seated (.modJob (hf.trans hs.symm) (fun h => by rw [hs] at h; cases h) (fun h => (hpend h).imp_right .inl) hjobs) rfl

theorem steady_freed {s : State} {j : Fin 16} (hs : (s.job j).own = none) : Steady s (s.modJob j JobSlot.freed) :=
  steady_ownless hs rfl (fun h => nomatch h) fun _ => ⟨rfl, rfl⟩

/-- A job that may mark is OPEN or HELD then. -/
theorem steady_bindable {s : State} (hs : s.Seats) {j : Fin 16} {st : JobState} (hj : (s.job j).state.bindable = true) :
    Steady s (s.modJob j fun q => { q with state := st }) :=
  steady_ownless (hs.own_none (bindable_ne_closing hj)) (hs.own_none (bindable_ne_closing hj))
    (fun h => by rw [closePending_false hs hj] at h; cases h) fun _ => ⟨rfl, rfl⟩

/-! ## The Region Table and the counts -/

theorem steady_setRegions (s : State) (g : Regions) : Steady s (s.setRegions g) := by
  refine .of_seated (.of_slots ?_ ?_ ?_ fun j => ?_) ?_
  · rw [s.setRegions_eq]
    exact id
  · rw [s.setRegions_eq]
  · rw [s.setRegions_eq]
  · rw [s.setRegions_job]
    exact ⟨rfl, rfl, rfl, rfl, rfl⟩
  · rw [s.setRegions_eq]

theorem steady_completeCommit (s : State) : Steady s s.completeCommit := by
  rcases s.completeCommit_cases with h | ⟨c, -, h⟩ <;> rw [h]
  · exact .refl s
  · have hset := steady_setRegions s (s.carried c.changed)
    generalize s.setRegions (s.carried c.changed) = t at hset ⊢
    exact hset.trans (.of_seated (.of_jct id rfl) rfl)

theorem steady_counted (s : State) (e : Option (Fin 32)) (j : Option (Fin 16)) : Steady s (s.counted e j) :=
  .of_seated (.of_slots id (counted_marking s e j).1 (counted_marking s e j).2 fun k => by
    rw [counted_job]
    exact ⟨rfl, rfl, rfl, rfl, rfl⟩) rfl

theorem steady_uncounted (s : State) (e : Option (Fin 32)) (j : Option (Fin 16)) : Steady s (s.uncounted e j) :=
  .of_seated (.of_slots id (by cases j <;> rfl) (by cases j <;> rfl) fun k => by
    rw [uncounted_job]
    exact ⟨rfl, rfl, rfl, rfl, rfl⟩) rfl

theorem steady_readFreed (s : State) (i : Fin 32) (r : ReadSlot) : Steady s (s.readFreed i r) :=
  (Apart.of_eq rfl rfl rfl : Apart s { s with path := { s.path with reads := s.path.reads.set i none } }).steady.trans
    ((steady_uncounted _ r.entry r.job).trans (Apart.of_eq rfl rfl rfl).steady)

theorem steady_writeFreed (s : State) (i : Fin 32) (w : WriteSlot) : Steady s (s.writeFreed i w) :=
  (Apart.of_eq rfl rfl rfl : Apart s { s with path := { s.path with writes := s.path.writes.set i none } }).steady.trans
    ((steady_uncounted _ w.entry w.job).trans (Apart.of_eq rfl rfl rfl).steady)

theorem steady_regionSet (s : State) (p : RegionSetParams) : Steady s (s.regionSet p).2 := by
  unfold State.regionSet
  split
  · exact .refl s
  · split
    · split
      · exact steady_setRegions s _
      · exact .refl s
    · exact .refl s

theorem steady_regionClear (s : State) (i : Nat) : Steady s (s.regionClear i).2 := by
  unfold State.regionClear
  split
  · exact .refl s
  · split
    · exact steady_setRegions s _
    · exact .refl s

theorem apart_regionsCommit (s : State) (tag : BitVec 16) : Apart s (s.regionsCommit tag).2 := by
  unfold State.regionsCommit
  split
  · exact .refl s
  · split
    · exact .refl s
    · exact .of_eq rfl rfl rfl

/-! ## Jobs that end (R52 to R54, R65, R177) -/

theorem apart_tellEnded (s : State) (u : Fin 256) (marked : Bool) : Apart s (s.tellEnded u marked) := by
  have hace : Apart s { s with ace := s.ace.jobEnded u } := .of_ace (agrees_triggerAll _ _)
  exact .ite (hace.trans (sided_closeNotice.apart _)) hace

theorem apart_reportSkipped (s : State) (j : Fin 16) (a : Nat) (rs : List (Nat × Nat)) (c : SkipCause) :
    Apart s (s.reportSkipped j a rs c) := .ite (.refl s) (.of_eq rfl rfl rfl)

theorem mayLeave_own {s : State} {j : Fin 16} (h : s.mayLeave j = true) : (s.job j).own = none := by
  simp only [State.mayLeave, Bool.and_eq_true] at h
  exact Option.isNone_iff_eq_none.1 h.1.2

theorem apart_hand (s : State) (b : ReportBody) (tag : BitVec 16) : Apart s (s.hand b tag) := .of_eq rfl rfl rfl

/-- The slot of a job without an own context as it leaves CLOSING. -/
theorem steady_left {s : State} {j : Fin 16} (hj : (s.job j).own = none) (a : Nat) : Steady s (s.modJob j fun q => q.left a) := by
  by_cases ha : a = 0
  · simp only [JobSlot.left, ha, if_true]
    exact steady_freed hj
  · simp only [JobSlot.left, ha, if_false]
    exact steady_ownless hj hj (fun _ => .inr rfl) fun _ => ⟨rfl, rfl⟩

theorem steady_leaveClosing {s : State} {j : Fin 16} (h : s.mayLeave j = true) : Steady s (s.leaveClosing j) := by
  have hjoin : Steady s { s.appendWipes j ((s.wipeRanges j).take (min 32 s.wpe.room)) with keys := s.keys.set j none } :=
    .of_seated (.of_jct id rfl) rfl
  have hstart := hjoin.trans (steady_setRegions _
    ((s.appendWipes j ((s.wipeRanges j).take (min 32 s.wpe.room))).rgt.invalidate fun e => e.names j))
  refine Steady.trans ?_ (apart_tellEnded _ _ _).steady
  refine Steady.trans ?_ (apart_reportSkipped _ _ _ _ _).steady
  refine Steady.trans ?_ (apart_hand _ _ _).steady
  exact hstart.trans (steady_left ((hstart.seated.own j).trans (mayLeave_own h)) _)

theorem balances_leaveIfDue {h : Bool} (s : State) (j : Fin 16) : Balances h s (s.leaveIfDue j) := by
  refine Steady.balances (keeps_leaveIfDue (n := 0) s j).marksAs fun _ _ => ?_
  unfold State.leaveIfDue
  split
  · next hmay => exact steady_leaveClosing hmay
  · exact .refl s

theorem balances_leaveAll {h : Bool} (s : State) : Balances h s s.leaveAll := .foldl balances_leaveIfDue _ s

theorem apart_tally (s : State) (ph : StandbyPhase) (f : StandbyTally → StandbyTally) :
    Apart s { s with rci := s.rci.tally ph f } := by
  rcases tally_cases s.rci ph f with h | ⟨m, t, x, -, h⟩ <;> rw [h]
  · exact .refl s
  · exact .of_eq rfl rfl rfl

theorem balances_jobWiped {h : Bool} (s : State) (j : Fin 16) : Balances h s (s.jobWiped j) := by
  refine Steady.balances (keeps_jobWiped (n := 0) s j).marksAs fun _ hb => ?_
  have hwipes : Steady s (s.modJob j fun q => { q with wipes := q.wipes - 1 }) :=
    steady_modJob s j _ fun _ => ⟨rfl, rfl, rfl, rfl, rfl⟩
  have hseats := hwipes.seated.seats hb.seats
  unfold State.jobWiped
  refine hwipes.trans ?_
  generalize (s.modJob j fun q => { q with wipes := q.wipes - 1 }) = t at hseats
  dsimp only
  split
  · next hw =>
    have hown : (t.job j).own = none := hseats.own_none (by rw [hw.2]; exact fun e => nomatch e)
    exact (steady_freed hown).trans ((apart_hand _ _ _).trans (apart_tally _ _ _)).steady
  · exact .refl t

theorem balances_finishWipe {h : Bool} (s : State) : Balances h s s.finishWipe := by
  have hpop : ∀ rest, Apart s { s with wpe := { s.wpe with queue := rest } } := fun _ => .of_eq rfl rfl rfl
  have hreport : ∀ (rest : List WipeEntry) b tag, Balances h s (({ s with wpe := { s.wpe with queue := rest } } : State).hand b tag) :=
    fun rest b tag => Apart.balances ((hpop rest).trans (.of_eq rfl rfl rfl)) (markingLawAs_congr rfl rfl rfl id id (fun _ => rfl) fun _ => rfl)
  unfold State.finishWipe
  split
  · exact .refl h s
  · next e rest _ =>
    split
    · cases e.origin with
      | explicit tag => exact hreport rest _ _
      | job j nonce => exact (hreport rest _ _).trans (balances_jobWiped _ j)
    · exact .refl h s

/-! ## Standby entry (R176, R177) -/

/-- A drained part that enters standby has no context, and its jobs are not CLOSING. -/
theorem drained_ownless {s : State} (hs : s.Seats) (hd : s.drained = true) (j : Fin 16) : (s.job j).own = none := by
  refine hs.own_none fun hc => ?_
  simp only [State.drained, Bool.and_eq_true, all_toList_iff] at hd
  obtain ⟨⟨-, hclosing⟩, -⟩ := hd
  have := hclosing j
  rw [State.job] at hc
  rw [hc] at this
  cases this

theorem steady_eraseJob {s : State} {j : Fin 16} (hj : (s.job j).own = none) : Steady s (s.eraseJob j) :=
  have hkeys : Steady (s.modJob j JobSlot.freed) { (s.modJob j JobSlot.freed) with keys := s.keys.set j none } :=
    .of_seated (.of_jct id rfl) rfl
  (steady_freed hj).trans (hkeys.trans (apart_tellEnded _ _ _).steady)

theorem steady_eraseJobs (js : List (Fin 16)) {s : State} (hs : ∀ j, (s.job j).own = none) :
    Steady s (js.foldl State.eraseJob s) := by
  induction js generalizing s with
  | nil => exact .refl s
  | cons j js ih =>
    have hj := steady_eraseJob (hs j)
    exact hj.trans (ih fun i => (hj.seated.own i).trans (hs i))

theorem steady_erase {s : State} (hs : ∀ j, (s.job j).own = none) : Steady s s.erase :=
  (steady_setRegions s _).trans (steady_eraseJobs _ fun j => ((steady_setRegions s _).seated.own j).trans (hs j))

theorem apart_detachedAs (s : State) (x : Standby) : Apart s (s.detachedAs x) := by
  have hdetach := sided_detachAll.apart s
  unfold State.detachedAs
  generalize s.detachAll = t at hdetach ⊢
  exact hdetach.trans (.of_eq rfl rfl rfl)

theorem balances_drainEnd {h : Bool} (s : State) : Balances h s s.drainEnd := by
  refine Steady.balances (keeps_drainEnd (n := 0) s).marksAs fun _ hb => ?_
  unfold State.drainEnd
  split
  · next m tag x _ =>
    split
    · next hd =>
      have hown := drained_ownless hb.seats hd
      cases m with
      | retain =>
        rw [eraseAndDetach_retain]
        exact (apart_detachedAs s _).steady
      | erase =>
        rw [eraseAndDetach_erase]
        exact (steady_erase hown).trans (apart_detachedAs _ _).steady
    · exact .refl s
  · exact .refl s

/-! ## Jobs opened, released and closed (R45 to R51) -/

theorem balances_openSlot {h : Bool} (s : State) (p : JobOpenOk) : Balances h s (s.openSlot p).2 := by
  refine Steady.balances (keeps_openSlot (n := 0) s p).marksAs fun hl hb => ?_
  unfold State.openSlot
  split
  · exact .refl s
  · split
    · exact .refl s
    · next j hj =>
      have hfree : (s.job j).state = .free := by simpa [State.job] using List.find?_some hj
      have hslot : Steady s (s.modJob j fun _ => p.slot (s.jct.openCounter + 1)) := by
        refine steady_ownless (hb.seats.own_none (by rw [hfree]; exact fun e => nomatch e)) rfl (fun e => nomatch e) ?_
        rintro ⟨m, hm, e⟩
        exact absurd e (no_context hl hb.seats (.inl hfree) m hm)
      exact hslot.trans (.of_seated (.of_slots id rfl rfl fun _ => ⟨rfl, rfl, rfl, rfl, rfl⟩) rfl)

theorem balances_jobOpen {h : Bool} (s : State) (p : JobOpenParams) : Balances h s (s.jobOpen p).2 := by
  have hpin : ∀ u good, Balances h s (s.pinChecked u good) := fun u good =>
    (apart_pinChecked s u good).framed (frame_pinChecked s u good)
  unfold State.jobOpen
  split
  · exact .refl h s
  · split
    · exact .refl h s
    · split
      · exact balances_openSlot s _
      · split
        · exact (hpin _ _).trans (balances_openSlot _ _)
        · exact hpin _ _

theorem balances_jobRelease {h : Bool} (s : State) (job : Nat) (pin : Word8) : Balances h s (s.jobRelease job pin).2 := by
  refine Steady.balances (keeps_jobRelease (n := 0) s job pin).marksAs fun _ hb => ?_
  unfold State.jobRelease
  split
  · exact .refl s
  · next j _ =>
    split
    · exact .refl s
    · split
      · next why hheld =>
        split
        · exact .refl s
        · split
          · exact (apart_pinChecked s _ _).steady
          · have hpin : Apart s (s.pinChecked (s.job j).user true) := apart_pinChecked s _ _
            dsimp only
            split
            · exact hpin.steady
            · have hjob : ((s.pinChecked (s.job j).user true).job j) = s.job j := by rw [State.job, hpin.jct]; rfl
              exact hpin.steady.trans (steady_bindable (hpin.steady.seated.seats hb.seats) (by rw [hjob, hheld]; rfl))
      · exact .refl s

/-- A job that may mark and does not mark goes to CLOSING. -/
theorem steady_closing {s : State} (hs : s.Seats) {j : Fin 16} (hj : (s.job j).state.bindable = true) (tag : BitVec 16) :
    Steady s (if s.jct.isStacked j = true
      then (s.modJob j fun q => { q with state := .closing, closeTag := tag }).modJob j fun q => { q with closePending := true }
      else s.modJob j fun q => { q with state := .closing, closeTag := tag }) := by
  have hown := hs.own_none (bindable_ne_closing hj)
  have hclosing : Steady s (s.modJob j fun q => { q with state := .closing, closeTag := tag }) :=
    steady_ownless hown hown (fun _ => .inl rfl) fun _ => ⟨rfl, rfl⟩
  have hjob := State.modJob_job_same s j fun q => { q with state := .closing, closeTag := tag }
  refine .ite (hclosing.trans (steady_ownless ?_ ?_ (fun _ => .inl ?_) fun _ => ⟨rfl, rfl⟩)) hclosing
  · rw [hjob]
    exact hown
  · rw [hjob]
    exact hown
  · rw [hjob]

end Sys2Proof.Machine
end

section
/-!
Operations that change the records of a context, or move a context: the return of a metered read, the force-close of R77, and the commands
that mark and close (R51, R57 to R61, R77, R81, R82).
-/

namespace Sys2Proof.Machine

/-! ## Contexts whose records are alike -/

/-- A context whose records are those of another, each alike. -/
def Context.Resembles (c d : Context) : Prop :=
  ∃ g : PageRecord → PageRecord, (∀ r : PageRecord, r.Alike (g r)) ∧ d.queue = c.queue.map g

theorem Context.Resembles.refl (c : Context) : c.Resembles c := ⟨id, .refl, (List.map_id _).symm⟩

theorem Context.Resembles.mem {c d : Context} (h : c.Resembles d) {q : PageRecord} (hq : q ∈ d.queue) :
    ∃ r ∈ c.queue, r.Alike q := by
  obtain ⟨g, hg, hqueue⟩ := h
  rw [hqueue] at hq
  obtain ⟨r, hr, rfl⟩ := List.mem_map.1 hq
  exact ⟨r, hr, hg r⟩

theorem Context.Resembles.owed {c d : Context} (h : c.Resembles d) (u : Fin 256) : owed d.queue u = owed c.queue u := by
  obtain ⟨g, hg, hqueue⟩ := h
  rw [hqueue]
  exact owed_map _ u fun r _ => ⟨(hg r).user, (hg r).reserve⟩

theorem Context.modRecord_resembles (c : Context) (n : Nat) {f : PageRecord → PageRecord} (hf : ∀ r : PageRecord, r.Alike (f r)) :
    c.Resembles (c.modRecord n f) :=
  ⟨fun r => if r.opened = n then f r else r, fun r => by
    dsimp only
    split
    · exact hf r
    · exact .refl r, rfl⟩

/-- A plane changed but in its geometry and its chunks reached. -/
theorem reach_modPlane (r : PageRecord) (p : Fin 4) {f : PlaneRec → PlaneRec}
    (hf : ∀ q, (f q).geom = q.geom ∧ (f q).chunks = q.chunks) (i : Fin 4) : (r.modPlane p f).reach i = r.reach i := by
  show Option.map _ ((upd r.planes p (Option.map f))[i]) = Option.map _ (r.planes[i])
  rw [upd_get]
  split
  · rw [Option.map_map]
    exact Option.map_congr fun q _ => Prod.ext (hf q).1 (hf q).2
  · rfl

theorem PageRecord.forceClose_alike (r : PageRecord) : r.Alike r.forceClose where
  job := rfl
  user := rfl
  reserve := rfl
  reach i := by
    show Option.map _ ((r.planes.map (Option.map PlaneRec.forceClose))[i]) = Option.map _ (r.planes[i])
    simp only [Fin.getElem_fin, Vector.getElem_map, Option.map_map]
    exact Option.map_congr fun q _ => by simp [PlaneRec.forceClose_eq]

theorem Context.forceCloseAll_resembles (c : Context) : c.Resembles c.forceCloseAll :=
  ⟨PageRecord.forceClose, PageRecord.forceClose_alike, rfl⟩

theorem Context.makeRoom_resembles (c : Context) : c.Resembles c.makeRoom := by
  unfold Context.makeRoom
  split
  · next r _ =>
    obtain ⟨g, hg, hqueue⟩ := c.modRecord_resembles r.opened PageRecord.forceClose_alike
    exact ⟨g, hg, hqueue⟩
  · exact .refl c

/-! ## Every context changed, and the current one -/

theorem reservesOf_contexts (j : Jobs) (u : Fin 256) : j.reservesOf u = (j.contexts.map fun m => owed m.ctx.queue u).sum := by
  rw [reservesOf_eq_owed, Jobs.records, owed_flatMap]

theorem balances_mapContexts {h : Bool} (s : State) {f : Context → Context} (hf : ∀ c : Context, c.Resembles (f c)) :
    Balances h s { s with jct := s.jct.mapContexts f } := by
  have hjob : ∀ j, ({ s with jct := s.jct.mapContexts f } : State).job j = { s.job j with own := (s.job j).own.map f } :=
    mapContexts_slot s.jct f
  have hmarking := mapContexts_marking s.jct f
  have hstack := mapContexts_stack s.jct f
  refine Stems.balances (markingLawAs_congr rfl hmarking hstack id id (fun j => by rw [hjob]) fun j => by rw [hjob])
    fun _ hb => ⟨.refl _, fun m hm q hq => ?_, fun u => ?_, ?_⟩
  · obtain ⟨n, hn, rfl⟩ := mem_mapContexts hm
    exact ⟨n, hn, rfl, (hf n.ctx).mem hq, by rw [hjob], by rw [hjob]⟩
  · rw [reservesOf_contexts, reservesOf_contexts, mapContexts_contexts, List.map_map]
    exact congrArg List.sum (List.map_congr_left fun m _ => (hf m.ctx).owed u)
  · constructor <;> intro j hj <;> rw [hjob] at hj ⊢
    · obtain ⟨hanchored, hclosing, hmark, hst⟩ := hb.seats.own j (by rw [Option.isSome_map] at hj; exact hj)
      exact ⟨hanchored, hclosing, (isMarking_congr hmarking j).trans hmark, (isStacked_congr hstack j).trans hst⟩
    · exact hb.seats.pending j hj

theorem balances_makeRoom {h : Bool} (s : State) : Balances h s { s with jct := s.jct.makeRoom } := by
  have hmarking : s.jct.makeRoom.marking.map Marked.job = s.jct.marking.map Marked.job := by
    cases hm : s.jct.marking <;> simp [Jobs.makeRoom, hm]
  refine Stems.balances (markingLawAs_congr rfl hmarking rfl id id (fun _ => rfl) fun _ => rfl)
    fun _ hb => ⟨.refl _, fun m hm q hq => ?_, fun u => ?_, ?_⟩
  · rcases (Jobs.mem_contexts_iff _ m).1 hm with hm | hm
    · obtain ⟨n, hn, rfl⟩ := Option.mem_map.1 hm
      exact ⟨n, (Jobs.mem_contexts_iff _ n).2 (.inl hn), rfl, n.ctx.makeRoom_resembles.mem hq, rfl, rfl⟩
    · exact ⟨m, (Jobs.mem_contexts_iff _ m).2 (.inr hm), rfl, ⟨q, hq, .refl q⟩, rfl, rfl⟩
  · have hcurrent : owed (ownQueue (s.jct.makeRoom.marking.map Marked.ctx)) u = owed (ownQueue (s.jct.marking.map Marked.ctx)) u := by
      cases hm : s.jct.marking with
      | none => simp [Jobs.makeRoom, hm]
      | some m =>
        simp only [Jobs.makeRoom, hm, Option.map_some]
        exact m.ctx.makeRoom_resembles.owed u
    rw [reservesOf_eq, reservesOf_eq, hcurrent]
    rfl
  · constructor <;> intro j hj
    · obtain ⟨hanchored, hclosing, hmark, hst⟩ := hb.seats.own j hj
      exact ⟨hanchored, hclosing, (isMarking_congr hmarking j).trans hmark, hst⟩
    · exact hb.seats.pending j hj

/-! ## The return of a metered read (R81, R82) -/

theorem balances_returnMark {h : Bool} (mark : LineMark) (sum : Nat) (s : State) :
    Balances h s { s with jct := s.jct.returnMark mark sum } := by
  cases mark with
  | none => exact .refl h s
  | first n p =>
    exact balances_mapContexts s fun c => c.modRecord_resembles n fun r =>
      ⟨rfl, rfl, rfl, reach_modPlane r p (f := fun q => { q with dots := q.dots + sum }) fun _ => ⟨rfl, rfl⟩⟩
  | remark r p => exact .refl h s

theorem balances_settleMarks {h : Bool} (s : State) (marks : List LineMark) (sums : List Nat) :
    Balances h s (s.settleMarks marks sums) := by
  have hfold : ∀ (ms : List (LineMark × Nat)) (s : State),
      Balances h s { s with jct := ms.foldl (fun j m => j.returnMark m.1 m.2) s.jct } := fun ms => by
    induction ms with
    | nil => exact fun s => .refl h s
    | cons m ms ih => exact fun s => (balances_returnMark m.1 m.2 s).trans (ih _)
  exact hfold _ s

theorem balances_counters {h : Bool} (s : State) (j : Fin 16) (f : JobCounters → JobCounters) :
    Balances h s (s.modJob j fun q => { q with counters := f q.counters }) :=
  Steady.balances ((frame_counters s j f).keeps (n := 0)).marksAs fun _ _ => steady_modJob s j _ fun _ => ⟨rfl, rfl, rfl, rfl, rfl⟩

theorem balances_sided {h : Bool} {f : State → State} (hf : Sided f) (s : State) : Balances h s (f s) :=
  (hf.apart s).framed (hf.frame s)

theorem balances_meterReturn {h : Bool} (s : State) (r : ReadSlot) (lines : List Line) : Balances h s (s.meterReturn r lines) := by
  unfold State.meterReturn
  split
  · exact (balances_settleMarks s _ _).trans
      ((balances_counters _ _ fun c => _).trans (balances_sided (sided_accrue _ _) _))
  · exact .refl h s

theorem balances_returnRead {h : Bool} (s : State) {i : Fin 32} {r : ReadSlot} (okay : Bool) (lines : List Line)
    (hr : s.issuedRead? i = some r) : Balances h s (s.returnRead i r okay lines) := by
  have hmeter : ∀ up, Frame s (if okay then s.meterReturn r up else s.meterLost r) := fun up =>
    Frame.ite (frame_meterReturn s r up) (frame_settleMarks s _ _)
  have hbalance : ∀ up, Balances h s (if okay then s.meterReturn r up else s.meterLost r) := fun up =>
    Balances.ite (balances_meterReturn s r up) (balances_settleMarks s _ _)
  unfold State.returnRead
  simp only [State.releaseSlot_eq]
  have hup := hmeter (upstreamLines r.view (s.keyOf r.job) r.addr lines)
  refine (hbalance (upstreamLines r.view (s.keyOf r.job) r.addr lines)).trans ?_
  generalize (if okay = true then s.meterReturn r (upstreamLines r.view (s.keyOf r.job) r.addr lines) else s.meterLost r) = t at hup ⊢
  exact Steady.balances ((keeps_readFreed (n := 0) t ((issuedRead?_frame hup i).trans hr)).trans (frame_give _ _).keeps).marksAs
    fun _ _ => (steady_readFreed t i r).trans (.of_seated (.of_jct id rfl) rfl)

theorem balances_answerWrite {h : Bool} (s : State) {i : Fin 32} {w : WriteSlot} (okay : Bool)
    (hw : s.issuedWrite? i = some w) : Balances h s (s.answerWrite i w okay) := by
  have hfreed : Balances h s ((s.writeFreed i w).give (.response w.id .write okay [])) :=
    Steady.balances ((keeps_writeFreed (n := 0) s hw).trans (frame_give _ _).keeps).marksAs
      fun _ _ => (steady_writeFreed s i w).trans (.of_seated (.of_jct id rfl) rfl)
  unfold State.answerWrite
  simp only [State.releaseSlot_eq]
  refine hfreed.trans ?_
  split
  · exact ((apart_handIndex _ w).framed (frame_handIndex _ w)).trans
      ((apart_offerAnchor _ w.addr w.lines).framed (frame_offerAnchor _ _ _))
  · exact .refl h _

theorem balances_completeRead {h : Bool} (s : State) (ref : DnRef) (okay : Bool) (lines : List Line) :
    Balances h s (s.completeRead ref okay lines) := by
  unfold State.completeRead
  split
  · exact (apart_dropOrphan s _ _).kept (keeps_dropOrphan s _ _)
  · split
    · next r hr =>
      split
      · exact .refl h s
      · exact balances_returnRead s okay lines hr
    · exact .refl h s

theorem balances_completeWriteAt {h : Bool} (s : State) (ref : DnRef) (okay : Bool) :
    Balances h s (s.completeWriteAt ref okay) := by
  unfold State.completeWriteAt
  split
  · exact (apart_dropOrphan s _ _).kept (keeps_dropOrphan s _ _)
  · split
    · next w hw => exact balances_answerWrite s okay hw
    · exact .refl h s

/-! ## The marking register and the stack (R58 to R60) -/

/-- The register and the stack change; their contexts with records stood there before, and owe the same; no job in them has an own
context. -/
theorem balances_registers {h : Bool} (s : State) (mk : Option Marked) (st : List Marked)
    (hm : s.markingLawAs h → ({ s with jct := { s.jct with marking := mk, stack := st } } : State).markingLawAs h)
    (hctx : ∀ m, m ∈ mk ∨ m ∈ st → m.ctx.queue = [] ∨ m ∈ s.jct.marking ∨ m ∈ s.jct.stack)
    (howed : ∀ u, owed (ownQueue (mk.map Marked.ctx)) u + (st.map fun m => owed m.ctx.queue u).sum
      = owed (ownQueue (s.jct.marking.map Marked.ctx)) u + (s.jct.stack.map fun m => owed m.ctx.queue u).sum)
    (hown : s.Seats → ∀ m, m ∈ mk ∨ m ∈ st → (s.job m.job).own = none) :
    Balances h s { s with jct := { s.jct with marking := mk, stack := st } } := by
  refine Stems.balances hm fun _ hb => ⟨.refl _, fun m hm q hq => ?_, fun u => ?_, ?_⟩
  · have hold : m ∈ s.jct.contexts := by
      have hregister : m ∈ mk ∨ m ∈ st → m ∈ s.jct.contexts := fun hm => by
        rcases hctx m hm with h0 | hm | hm
        · rw [h0] at hq
          cases hq
        · exact (Jobs.mem_contexts_iff _ m).2 (.inl hm)
        · exact (Jobs.mem_contexts_iff _ m).2 (.inr (.inl hm))
      rcases (Jobs.mem_contexts_iff _ m).1 hm with hm | hm | hm
      · exact hregister (.inl hm)
      · exact hregister (.inr hm)
      · exact (Jobs.mem_contexts_iff _ m).2 (.inr (.inr hm))
    exact ⟨m, hold, rfl, ⟨q, hq, .refl q⟩, rfl, rfl⟩
  · rw [reservesOf_eq, reservesOf_eq]
    dsimp only
    rw [howed u]
  · refine ⟨fun j hj => ?_, hb.seats.pending⟩
    obtain ⟨hanchored, hclosing, -, -⟩ := hb.seats.own j hj
    have hother : ∀ m, m ∈ mk ∨ m ∈ st → m.job ≠ j := fun m hm e => by
      have hnone := hown hb.seats m hm
      rw [e] at hnone
      rw [State.job] at hnone hj
      rw [show ({ s.jct with marking := mk, stack := st } : Jobs).slots = s.jct.slots from rfl, hnone] at hj
      cases hj
    exact ⟨hanchored, hclosing, (isMarking_eq_false _ _).2 fun m hm => hother m (.inl hm),
      (isStacked_eq_false _ _).2 fun m hm => hother m (.inr hm)⟩

/-- A context of the register or the stack becomes the own context of its job, which goes to CLOSING or is in it. -/
theorem balances_moved {h : Bool} (s : State) (m : Marked) (mk : Option Marked) (st : List Marked) (f : JobSlot → JobSlot)
    (hm : s.markingLawAs h →
      (({ s with jct := { s.jct with marking := mk, stack := st } } : State).modJob m.job f).markingLawAs h)
    (hplace : s.markingLawAs h → s.Seats → m ∈ s.jct.contexts ∧ s.rci.startup = .anchored ∧ (s.job m.job).own = none)
    (hrest : ∀ x, x ∈ mk ∨ x ∈ st → x ∈ s.jct.marking ∨ x ∈ s.jct.stack)
    (hother : s.markingLawAs h → ∀ x, x ∈ mk ∨ x ∈ st → x.job ≠ m.job)
    (howed : ∀ u, owed (ownQueue (mk.map Marked.ctx)) u + (st.map fun m => owed m.ctx.queue u).sum + owed m.ctx.queue u
      = owed (ownQueue (s.jct.marking.map Marked.ctx)) u + (s.jct.stack.map fun m => owed m.ctx.queue u).sum)
    (hf : (f (s.job m.job)).own = some m.ctx.forceCloseAll ∧ (f (s.job m.job)).user = (s.job m.job).user
      ∧ (f (s.job m.job)).declared = (s.job m.job).declared)
    (hclosing : s.markingLawAs h → s.Seats → (f (s.job m.job)).state = .closing) :
    Balances h s (({ s with jct := { s.jct with marking := mk, stack := st } } : State).modJob m.job f) := by
  obtain ⟨hown, huser, hdeclared⟩ := hf
  have hjob : ∀ j, ((({ s with jct := { s.jct with marking := mk, stack := st } } : State).modJob m.job f).job j)
      = if j = m.job then f (s.job j) else s.job j := fun j => State.modJob_job _ m.job j f
  have hjobs : ∀ j, ((({ s with jct := { s.jct with marking := mk, stack := st } } : State).modJob m.job f).job j).user
        = (s.job j).user
      ∧ ((({ s with jct := { s.jct with marking := mk, stack := st } } : State).modJob m.job f).job j).declared
        = (s.job j).declared := fun j => by
    rw [hjob]
    split
    · next e => exact e ▸ ⟨huser, hdeclared⟩
    · exact ⟨rfl, rfl⟩
  generalize ht : ({ s with jct := { s.jct with marking := mk, stack := st } } : State).modJob m.job f = t at *
  have hmarking : t.jct.marking = mk := by rw [← ht]; rfl
  have hstack : t.jct.stack = st := by rw [← ht]; rfl
  refine Stems.balances hm fun hl hb => ?_
  obtain ⟨hmem, hanchored, hnone⟩ := hplace hl hb.seats
  refine ⟨by rw [← ht]; exact .refl _, fun x hx q hq => ?_, fun u => ?_, ⟨fun j hj => ?_, fun j hj => ?_⟩⟩
  · obtain ⟨n, hn, hnj, hr⟩ : ∃ n ∈ s.jct.contexts, n.job = x.job ∧ ∃ r ∈ n.ctx.queue, r.Alike q := by
      rcases (Jobs.mem_contexts_iff _ x).1 hx with hx | hx | ⟨i, c, hc, rfl⟩
      · rw [hmarking] at hx
        exact ⟨x, (Jobs.mem_contexts_iff _ x).2 ((hrest x (.inl hx)).imp_right .inl), rfl, q, hq, .refl q⟩
      · rw [hstack] at hx
        exact ⟨x, (Jobs.mem_contexts_iff _ x).2 ((hrest x (.inr hx)).imp_right .inl), rfl, q, hq, .refl q⟩
      · have hc' : c ∈ (t.job i).own := hc
        rw [hjob] at hc'
        split at hc'
        · next e =>
          rw [e, hown] at hc'
          cases hc'
          exact ⟨m, hmem, e.symm, m.ctx.forceCloseAll_resembles.mem hq⟩
        · exact ⟨⟨i, c⟩, (Jobs.mem_contexts_iff _ _).2 (.inr (.inr ⟨i, c, hc', rfl⟩)), rfl, q, hq, .refl q⟩
    exact ⟨n, hn, hnj, hr, (hjobs x.job).1, (hjobs x.job).2⟩
  · have hsum := sum_change (fun i => owed (ownQueue (s.job i).own) u) (fun i => owed (ownQueue (t.job i).own) u) m.job fun i hi => by
      simp only [hjob, if_neg hi]
    have hm' : owed (ownQueue (t.job m.job).own) u = owed m.ctx.queue u := by
      rw [hjob, if_pos rfl, hown]
      exact m.ctx.forceCloseAll_resembles.owed u
    rw [hm', hnone] at hsum
    have hregister := howed u
    rw [reservesOf_eq, reservesOf_eq, hmarking, hstack]
    show _ + _ + ((List.finRange 16).map fun i => owed (ownQueue (t.job i).own) u).sum
      = _ + _ + ((List.finRange 16).map fun i => owed (ownQueue (s.job i).own) u).sum
    simp only [ownQueue, Option.map_none, Option.getD_none, owed_nil] at hsum hregister ⊢
    omega
  · have hstartup : t.rci.startup = .anchored := by rw [← ht]; exact hanchored
    by_cases hjm : j = m.job
    · subst hjm
      rw [hjob, if_pos rfl]
      refine ⟨hstartup, hclosing hl hb.seats, ?_, ?_⟩
      · rw [isMarking_eq_false, hmarking]
        exact fun x hx => hother hl x (.inl hx)
      · rw [isStacked_eq_false, hstack]
        exact fun x hx => hother hl x (.inr hx)
    · rw [hjob, if_neg hjm] at hj ⊢
      obtain ⟨-, hcl, hmk, hst⟩ := hb.seats.own j hj
      rw [isMarking_eq_false] at hmk ⊢
      rw [isStacked_eq_false] at hst ⊢
      rw [hmarking, hstack]
      exact ⟨hstartup, hcl, fun x hx => (hrest x (.inl hx)).elim (hmk x) (hst x), fun x hx => (hrest x (.inr hx)).elim (hmk x) (hst x)⟩
  · by_cases hjm : j = m.job
    · subst hjm
      rw [hjob, if_pos rfl]
      exact .inl (hclosing hl hb.seats)
    · rw [hjob, if_neg hjm] at hj ⊢
      exact hb.seats.pending j hj

end Sys2Proof.Machine
end

section
/-!
The commands that close and mark (R51, R57 to R61): JOB_CLOSE, MARK_SELECT, MARK_INTERRUPT and MARK_RESUME move contexts and keep what they
owe.
-/

namespace Sys2Proof.Machine

/-! ## Closing (R51) -/

/-- A job in the register marks while the part is ANCHORED, has no own context and is not stacked. -/
theorem marking_facts {h : Bool} {s : State} (hl : s.markingLawAs h) {m : Marked} (hm : s.jct.marking = some m) :
    s.rci.startup = .anchored ∧ (s.job m.job).state.bindable = true ∧ ∀ x ∈ s.jct.stack, x.job ≠ m.job := by
  obtain ⟨⟨-, hnodup⟩, ⟨-, -, hout⟩, hmark, -⟩ := hl
  refine ⟨?_, hmark m hm, fun x hx e => ?_⟩
  · by_contra hne
    rw [(hout (.inl hne)).1] at hm
    cases hm
  · rw [hm] at hnodup
    exact (List.nodup_cons.1 hnodup).1 (List.mem_map.2 ⟨x, hx, e⟩)

theorem apart_releaseAssembly (s : State) (js : List (Fin 16)) : Apart s (s.releaseAssembly js) := .of_eq rfl rfl rfl

theorem balances_closeMarking {h : Bool} (s : State) {m : Marked} (tag : BitVec 16) (hm : s.jct.marking = some m) :
    Balances h s (s.closeJob m.job tag) := by
  have hunmark := keeps_unmark (n := 0) (k := some h) s hm
    (fun q => { q with state := .closing, closeTag := tag, own := some m.ctx.forceCloseAll }) rfl rfl fun c hc => by
      cases hc
      exact m.ctx.forceCloseAll_within
  rw [closeJob_marking s tag hm]
  refine Balances.trans ?_ ((apart_releaseAssembly _ _).framed (frame_releaseAssembly _ _))
  refine balances_moved s m none s.jct.stack _ hunmark.marksAs (fun hl hs => ?_) ?_ (fun hl x hx => ?_) (fun u => ?_)
    ⟨rfl, rfl, rfl⟩ fun _ _ => rfl
  · obtain ⟨hanchored, hbindable, -⟩ := marking_facts hl hm
    exact ⟨(Jobs.mem_contexts_iff _ m).2 (.inl hm), hanchored, hs.own_none (bindable_ne_closing hbindable)⟩
  · rintro x (hx | hx)
    · cases hx
    · exact .inr hx
  · rcases hx with hx | hx
    · cases hx
    · exact (marking_facts hl hm).2.2 x hx
  · rw [hm]
    simp only [Option.map_none, Option.map_some, ownQueue, Option.getD_none, Option.getD_some, owed_nil]
    omega

theorem balances_jobClose {h : Bool} (s : State) (job : Nat) (tag : BitVec 16) : Balances h s (s.jobClose job tag).2 := by
  unfold State.jobClose
  split
  · exact .refl h s
  · next j _ =>
    split
    · next hbindable =>
      cases hmark : s.jct.isMarking j with
      | true =>
        obtain ⟨m, hm, rfl⟩ : ∃ m, s.jct.marking = some m ∧ m.job = j := by
          cases hs : s.jct.marking with
          | none => simp [Jobs.isMarking, hs] at hmark
          | some m => exact ⟨m, rfl, by simpa [Jobs.isMarking, hs] using hmark⟩
        exact balances_closeMarking s tag hm
      | false =>
        refine Steady.balances (keeps_closeJob (n := 0) s j tag).marksAs fun _ hb => ?_
        rw [closeJob_other s j tag hmark]
        exact steady_closing hb.seats hbindable tag
    · exact .refl h s

/-! ## Selecting and interrupting (R58, R59) -/

theorem pageOpen_false {j : Jobs} (h : j.pageOpen = false) : ownQueue (j.marking.map Marked.ctx) = [] := by
  cases hm : j.marking with
  | none => rfl
  | some m => simpa [Jobs.pageOpen, hm, ownQueue] using h

theorem steady_marked (s : State) (j : Fin 16) : Steady s (s.modJob j fun q => { q with marked := true }) :=
  steady_modJob s j _ fun _ => ⟨rfl, rfl, rfl, rfl, rfl⟩

theorem balances_marked {h : Bool} (s : State) (j : Fin 16) : Balances h s (s.modJob j fun q => { q with marked := true }) :=
  Steady.balances ((frame_marked s j).keeps (n := 0)).marksAs fun _ _ => steady_marked s j

/-- The marking law of a part whose register and stack change, from that of the part whose marked field changes too. -/
theorem markingLawAs_unmarked {h : Bool} {s : State} {j : Fin 16}
    (hl : (s.modJob j fun q => { q with marked := true }).markingLawAs h) : s.markingLawAs h := by
  have hjob : ∀ i, (s.job i).state = ((s.modJob j fun q => { q with marked := true }).job i).state
      ∧ (s.job i).closePending = ((s.modJob j fun q => { q with marked := true }).job i).closePending := fun i => by
    rw [State.modJob_job]
    split <;> exact ⟨rfl, rfl⟩
  exact markingLawAs_congr (s := s.modJob j fun q => { q with marked := true }) rfl rfl rfl id id (fun i => (hjob i).1) (fun i => (hjob i).2) hl

theorem opened_own {s : State} (hs : s.Seats) {j : Fin 16} (hj : (s.job j).state = .opened) : (s.job j).own = none :=
  hs.own_none (by rw [hj]; exact fun e => nomatch e)

theorem balances_mark {h : Bool} (s : State) (j : Fin 16) (hr : Runs (some h) s) (ho : (s.job j).state = .opened)
    (hst : s.jct.isStacked j = false) (hpage : ownQueue (s.jct.marking.map Marked.ctx) = []) : Balances h s (s.mark j) := by
  refine (balances_registers s (some ⟨j, .fresh⟩) s.jct.stack
    (fun hl => markingLawAs_unmarked ((keeps_mark (n := 0) s j hr ho hst).marksAs hl)) ?_ (fun u => ?_) ?_).trans (balances_marked _ j)
  · rintro m (hm | hm)
    · cases hm
      exact .inl rfl
    · exact .inr (.inr hm)
  · rw [hpage]
    rfl
  · rintro hs m (hm | hm)
    · cases hm
      exact opened_own hs ho
    · cases hown : (s.job m.job).own with
      | none => rfl
      | some c =>
        obtain ⟨-, -, -, hnot⟩ := hs.own m.job (by rw [hown]; rfl)
        exact absurd rfl ((isStacked_eq_false _ _).1 hnot m hm)

theorem balances_interrupt {h : Bool} (s : State) (j : Fin 16) {m : Marked} (hr : Runs (some h) s)
    (ho : (s.job j).state = .opened) (hm : s.jct.marking = some m) (hmj : s.jct.isMarking j = false)
    (hst : s.jct.isStacked j = false) (hlen : s.jct.stack.length < 4) :
    Balances h s (({ s with jct := { s.jct with stack := m :: s.jct.stack } } : State).mark j) := by
  refine (balances_registers s (some ⟨j, .fresh⟩) (m :: s.jct.stack)
    (fun hl => markingLawAs_unmarked ((keeps_interrupt (n := 0) s j hr ho hm hmj hst hlen).marksAs hl)) ?_ (fun u => ?_) ?_).trans
    (balances_marked _ j)
  · rintro x (hx | hx)
    · cases hx
      exact .inl rfl
    · rcases List.mem_cons.1 hx with rfl | hx
      · exact .inr (.inl hm)
      · exact .inr (.inr hx)
  · rw [hm]
    simp [ownQueue, Context.fresh]
  · intro hs x hx
    cases hown : (s.job x.job).own with
    | none => rfl
    | some c =>
      obtain ⟨-, -, hnotm, hnots⟩ := hs.own x.job (by rw [hown]; rfl)
      rcases hx with hx | hx
      · cases hx
        rw [opened_own hs ho] at hown
        cases hown
      · rcases List.mem_cons.1 hx with rfl | hx
        · exact absurd rfl ((isMarking_eq_false _ _).1 hnotm x hm)
        · exact absurd rfl ((isStacked_eq_false _ _).1 hnots x hx)

theorem balances_releaseMarking {h : Bool} (s : State) : Balances h s s.releaseMarking :=
  (apart_releaseAssembly s _).framed (frame_releaseMarking s)

theorem balances_markSelect {h : Bool} (s : State) (job : Nat) (hr : Runs (some h) s) : Balances h s (s.markSelect job).2 := by
  unfold State.markSelect
  split
  · exact .refl h s
  · next j _ =>
    split
    · exact .refl h s
    · next hj =>
      simp only [not_or, not_not, Bool.not_eq_true] at hj
      obtain ⟨ho, hst⟩ := hj
      split
      · exact .refl h s
      · next hpage =>
        exact (balances_releaseMarking s).trans (balances_mark s.releaseMarking j (hr.of_frame (frame_releaseMarking s)) ho hst
          (pageOpen_false (j := s.jct) (by simpa using hpage)))

theorem balances_markInterrupt {h : Bool} (s : State) (job : Nat) (hr : Runs (some h) s) :
    Balances h s (s.markInterrupt job).2 := by
  unfold State.markInterrupt
  split
  · exact .refl h s
  · next j _ =>
    split
    · exact .refl h s
    · next hj =>
      simp only [not_or, not_not, Bool.not_eq_true] at hj
      obtain ⟨ho, hmj, hst⟩ := hj
      split
      · next hm => exact balances_mark s j hr ho hst (by rw [hm]; rfl)
      · next m hm =>
        split
        · exact .refl h s
        · next hlen =>
          exact (balances_releaseMarking s).trans (balances_interrupt s.releaseMarking j (hr.of_frame (frame_releaseMarking s)) ho hm
            hmj hst (Nat.lt_of_not_le hlen))

/-! ## Resuming (R60) -/

/-- The part as MARK_RESUME takes it while it pops: no job marks, and these entries are still stacked. -/
def State.unwound (s : State) (l : List Marked) : State := { s with jct := { s.jct with marking := none, stack := l } }

/-- A stacked entry, seen from the part that has popped the ones above it. -/
theorem unwound_facts {h : Bool} {s : State} {m : Marked} {rest : List Marked} (hl : (s.unwound (m :: rest)).markingLawAs h) :
    s.rci.startup = .anchored ∧ (∀ x ∈ rest, x.job ≠ m.job) := by
  obtain ⟨⟨-, hnodup⟩, ⟨-, -, hout⟩, -, -⟩ := hl
  refine ⟨?_, fun x hx e => (List.nodup_cons.1 hnodup).1 (List.mem_map.2 ⟨x, hx, e⟩)⟩
  by_contra hne
  cases (hout (.inl hne)).2

theorem unwound_own {s : State} {m : Marked} {rest : List Marked} (hs : (s.unwound (m :: rest)).Seats) : (s.job m.job).own = none := by
  cases hown : (s.job m.job).own with
  | none => rfl
  | some c =>
    obtain ⟨-, -, -, hnot⟩ := hs.own m.job (by rw [show (s.unwound (m :: rest)).job m.job = s.job m.job from rfl, hown]; rfl)
    exact absurd rfl ((isStacked_eq_false _ _).1 hnot m (List.mem_cons_self))

/-- A lower end of the stack of a part that has popped the entries above it. -/
theorem markingLawAs_unwound {h : Bool} {s : State} {m : Marked} {rest : List Marked}
    (hl : (s.unwound (m :: rest)).markingLawAs h) : (s.unwound rest).markingLawAs h :=
  (keeps_registers (n := 0) (k := some h) (s.unwound (m :: rest)) none rest
    (fun x hx => .inr (.inr (hx.elim (fun e => nomatch e) (List.mem_cons_of_mem m))))
    (stackLaw_suffix (pre := [m]) (mk := none) rfl)
    (fun a _ hlaw hout => by cases (hlaw.2.1.2.2 hout).2) (fun _ _ _ _ e => nomatch e)
    fun _ _ hlaw x hx => hlaw.2.2.2 x (List.mem_cons_of_mem m hx)).marksAs hl

/-- A close-pending entry is popped: its context becomes its job's own. -/
theorem balances_popPending {h : Bool} (s : State) (m : Marked) (rest : List Marked) (hp : (s.job m.job).closePending = true) :
    Balances h (s.unwound (m :: rest)) ((s.ownContext m).unwound rest) := by
  have hframe := frame_ownContext (s.unwound (m :: rest)) m ((Jobs.mem_contexts_iff _ m).2 (.inr (.inl List.mem_cons_self)))
  refine (balances_moved (s.unwound (m :: rest)) m none rest (fun q => { q with own := some m.ctx.forceCloseAll })
    (fun hl => ?_) (fun hl hs => ?_) ?_ (fun hl x hx => ?_) (fun u => ?_) ⟨rfl, rfl, rfl⟩ fun hl hs => ?_).trans
    ((apart_releaseAssembly _ [m.job]).framed (frame_releaseAssembly _ _))
  · exact markingLawAs_unwound (s := s.ownContext m) ((hframe.marks (some h)).marking h rfl hl)
  · exact ⟨(Jobs.mem_contexts_iff _ m).2 (.inr (.inl List.mem_cons_self)), (unwound_facts hl).1, unwound_own hs⟩
  · exact fun x hx => .inr (hx.elim (fun e => nomatch e) (List.mem_cons_of_mem m))
  · exact hx.elim (fun e => nomatch e) ((unwound_facts hl).2 x)
  · simp only [State.unwound, List.map_cons, List.sum_cons]
    omega
  · rcases hs.pending m.job hp with hc | hw
    · exact hc
    · obtain ⟨-, -, -, hstack⟩ := hl
      have hm := hstack m List.mem_cons_self
      rw [hw] at hm
      rcases hm with hb | ⟨hc, -⟩
      · cases hb
      · cases hc

/-- An entry that is not close-pending marks again. -/
theorem balances_popMarks {h : Bool} (s : State) (m : Marked) (rest : List Marked) (hp : (s.job m.job).closePending ≠ true) :
    Balances h (s.unwound (m :: rest)) { s with jct := { s.jct with marking := some m, stack := rest } } := by
  refine balances_registers (s.unwound (m :: rest)) (some m) rest
    (keeps_registers (n := 0) (k := some h) (s.unwound (m :: rest)) (some m) rest ?_ (stackLaw_suffix (pre := []) rfl) ?_ ?_ ?_).marksAs
    ?_ (fun u => ?_) ?_
  · rintro x (hx | hx)
    · cases hx
      exact .inr (.inr List.mem_cons_self)
    · exact .inr (.inr (List.mem_cons_of_mem m hx))
  · exact fun _ _ hlaw hout => by cases (hlaw.2.1.2.2 hout).2
  · rintro _ - ⟨-, -, -, hstack⟩ x hx
    cases hx
    exact (hstack m List.mem_cons_self).elim id fun hc => absurd hc.2 hp
  · exact fun _ _ hlaw x hx => hlaw.2.2.2 x (List.mem_cons_of_mem m hx)
  · rintro x (hx | hx)
    · cases hx
      exact .inr (.inr List.mem_cons_self)
    · exact .inr (.inr (List.mem_cons_of_mem m hx))
  · simp [State.unwound, ownQueue]
  · intro hs x hx
    cases hown : (s.job x.job).own with
    | none => exact hown
    | some c =>
      obtain ⟨-, -, -, hnot⟩ := hs.own x.job (by rw [show (s.unwound (m :: rest)).job x.job = s.job x.job from rfl, hown]; rfl)
      refine absurd rfl ((isStacked_eq_false _ _).1 hnot x ?_)
      rcases hx with hx | hx
      · cases hx
        exact List.mem_cons_self
      · exact List.mem_cons_of_mem m hx

theorem balances_popStack {h : Bool} (l : List Marked) (s : State) (n : Nat) : Balances h (s.unwound l) (s.popStack l n).1 := by
  induction l generalizing s n with
  | nil => exact .refl h _
  | cons m rest ih =>
    unfold State.popStack
    split
    · next hp => exact (balances_popPending s m rest hp).trans (ih (s.ownContext m) (n + 1))
    · next hp => exact balances_popMarks s m rest hp

/-- The marking job, whose context holds no record, stops marking as MARK_RESUME starts. -/
theorem balances_unwind {h : Bool} (s : State) (hpage : ownQueue (s.jct.marking.map Marked.ctx) = []) :
    Balances h s (s.unwound s.jct.stack) := by
  refine balances_registers s none s.jct.stack
    (keeps_registers (n := 0) (k := some h) s none s.jct.stack ?_ (stackLaw_suffix (pre := []) (mk := none) rfl) ?_ ?_ ?_).marksAs
    ?_ (fun u => ?_) ?_
  · exact fun x hx => .inr (.inr (hx.elim (fun e => nomatch e) id))
  · exact fun _ _ hlaw hout => ⟨rfl, (hlaw.2.1.2.2 hout).2⟩
  · exact fun _ _ _ _ e => nomatch e
  · exact fun _ _ hlaw => hlaw.2.2.2
  · exact fun x hx => .inr (.inr (hx.elim (fun e => nomatch e) id))
  · rw [hpage]
    rfl
  · intro hs x hx
    cases hown : (s.job x.job).own with
    | none => rfl
    | some c =>
      obtain ⟨-, -, -, hnot⟩ := hs.own x.job (by rw [hown]; rfl)
      exact absurd rfl ((isStacked_eq_false _ _).1 hnot x (hx.elim (fun e => nomatch e) id))

theorem balances_markResume {h : Bool} (s : State) : Balances h s s.markResume.2 := by
  unfold State.markResume
  split
  · exact .refl h s
  · split
    · exact .refl h s
    · next hpage =>
      exact (balances_releaseMarking s).trans ((balances_unwind s.releaseMarking (pageOpen_false (j := s.jct) (by simpa using hpage))).trans
        (balances_popStack s.jct.stack s.releaseMarking 0))

end Sys2Proof.Machine
end

section
/-!
The admin commands (R92 to R94, R117 to R123, R151): none changes a reserved amount, and each keeps the bounds; the class table and the
tariff change only while no record is open (R94).
-/

namespace Sys2Proof.Machine

/-! ## Changes of ACE -/

/-- A change of ACE leaves the reserved amounts and the tables of prices, and keeps the laws of the departments and of the bounds. -/
structure Ace.Keeps (a b : Ace) : Prop where
  reserved : ∀ u : Fin 256, (b.users[u]).reserved = (a.users[u]).reserved
  depts : a.deptLaw → b.deptLaw
  limits : a.limitLaw → b.limitLaw
  classes : b.classes = a.classes
  tariff : b.tariff = a.tariff

theorem Ace.Agrees.keeps {a b : Ace} (h : a.Agrees b) : a.Keeps b := ⟨h.reserved, h.deptLaw, h.limitLaw, h.classes, h.tariff⟩

theorem Ace.Keeps.refl (a : Ace) : a.Keeps a := (Ace.Agrees.refl a).keeps

theorem Ace.Keeps.trans {a b c : Ace} (h : a.Keeps b) (g : b.Keeps c) : a.Keeps c :=
  ⟨fun u => (g.reserved u).trans (h.reserved u), fun x => g.depts (h.depts x), fun x => g.limits (h.limits x),
    g.classes.trans h.classes, g.tariff.trans h.tariff⟩

theorem Ace.Keeps.balances {h : Bool} {s : State} {a : Ace} (k : s.ace.Keeps a) (f : Frame s { s with ace := a }) :
    Balances h s { s with ace := a } where
  marks := (f.marks (some h)).marking h rfl
  books _ y := ⟨⟨y.seats.own, y.seats.pending⟩, y.record, fun u => (k.reserved u).trans (y.users u), k.depts y.depts⟩
  limits _ _ := k.limits
  covers _ y := Stems.covers (fun m hm q hq => ⟨m, hm, rfl, ⟨q, hq, .refl q⟩, rfl, rfl⟩) y.record k.classes k.tariff

/-! ## Users and departments (R117, R118, R120, R121) -/

theorem agrees_setUser (a : Ace) (u : Fin 256) (x : UserStored) : (a.putUser u x).Agrees (a.setUser u x) := by
  unfold Ace.setUser
  split
  · next hx =>
    have hsame : ∀ v : Fin 256, ((a.putUser u x).users[v]).stored = (a.users[v]).stored
        ∧ ((a.putUser u x).users[v]).reserved = (a.users[v]).reserved := fun v => by
      obtain ⟨hstored, hreserved, -⟩ := putUser_user a u v x
      refine ⟨hstored.trans ?_, hreserved⟩
      split
      · next e => rw [e, hx]
      · rfl
    exact ⟨fun v => (hsame v).2.symm, fun v => (congrArg UserStored.department (hsame v).1).symm,
      fun v => (congrArg UserStored.balance (hsame v).1).symm, fun v => (congrArg UserStored.overdraft (hsame v).1).symm,
      fun _ => ⟨rfl, rfl⟩, rfl, rfl⟩
  · exact agrees_trigger _ _

theorem agrees_setDept (a : Ace) (d : Fin 16) (x : DeptStored) : (a.putDept d x).Agrees (a.setDept d x) := by
  unfold Ace.setDept
  split
  · next hx =>
    refine ⟨fun _ => rfl, fun _ => rfl, fun _ => rfl, fun _ => rfl, fun e => ?_, rfl, rfl⟩
    obtain ⟨hstored, hreserved⟩ := putDept_dept a d e x
    refine ⟨(hstored.trans ?_).symm, hreserved.symm⟩
    split
    · next he => rw [he, hx]
    · rfl
  · exact agrees_trigger _ _

/-- A user's record changes; its reserved amount and the bounds stand, and its department where it has reserved something. -/
theorem keeps_setUser {a : Ace} {u : Fin 256} {x : UserStored}
    (hdept : x.department = (a.users[u]).stored.department ∨ (a.users[u]).reserved = 0)
    (hbound : a.limitLaw → x.balance ≤ 2 ^ 31 - 1 ∧ -(x.overdraft : Int) ≤ x.balance - (a.users[u]).reserved) : a.Keeps (a.setUser u x) := by
  refine Ace.Keeps.trans (b := a.putUser u x) ⟨fun v => (putUser_user a u v x).2.1, fun h d => ?_, fun hl => ⟨fun v => ?_, hl.2⟩, rfl, rfl⟩
    (agrees_setUser a u x).keeps
  · refine (h d).trans ?_
    rw [reservedIn_eq, reservedIn_eq]
    refine congrArg List.sum (List.map_congr_left fun v _ => ?_)
    obtain ⟨hstored, hreserved, -⟩ := putUser_user a u v x
    rw [hreserved, Ace.deptOf, Ace.deptOf, hstored]
    by_cases e : v = u
    · subst e
      rw [if_pos rfl]
      rcases hdept with hsame | hzero
      · rw [hsame]
      · rw [hzero, ite_self, ite_self]
    · rw [if_neg e]
  · obtain ⟨hstored, hreserved, -⟩ := putUser_user a u v x
    rw [hstored, hreserved]
    split
    · next e =>
      subst e
      exact hbound hl
    · exact hl.1 v

/-- A department's record changes; its allowance stays at or above what is used and reserved. -/
theorem keeps_setDept {a : Ace} {d : Fin 16} {x : DeptStored}
    (hbound : a.limitLaw → ∀ limit, x.allowance = some limit → x.used + (a.depts[d]).reserved ≤ limit) : a.Keeps (a.setDept d x) := by
  refine Ace.Keeps.trans (b := a.putDept d x) ⟨fun _ => rfl, fun h e => ?_, fun hl => ⟨hl.1, fun e limit hlimit => ?_⟩, rfl, rfl⟩
    (agrees_setDept a d x).keeps
  · exact (putDept_dept a d e x).2.trans (h e)
  · obtain ⟨hstored, hreserved⟩ := putDept_dept a d e x
    rw [hstored] at hlimit ⊢
    rw [hreserved]
    split at hlimit
    · next he =>
      subst he
      rw [if_pos rfl]
      exact hbound hl limit hlimit
    · next he =>
      rw [if_neg he]
      exact hl.2 e limit hlimit

theorem balances_userSetBody {h : Bool} (p : UserSetParams) (s : State) : Balances h s (State.userSetBody p s).2 := by
  have hframe := frame_userSetBody p s
  unfold State.userSetBody at hframe ⊢
  split
  · exact .refl h s
  · next u r hr =>
    split
    · exact .refl h s
    · next hbusy =>
      split
      · exact .refl h s
      · next hlow =>
        simp only [hr, hbusy, hlow, if_false] at hframe
        obtain ⟨hzero, -⟩ : (s.ace.users[u]).reserved = 0 ∧ s.jct.countOf u = 0 := by omega
        have hrange : r.balance ≤ 2 ^ 31 - 1 := by
          unfold userRecord? at hr
          split at hr
          · dsimp only at hr
            split at hr
            · next hin =>
              simp only [Option.some.injEq, Prod.mk.injEq] at hr
              obtain ⟨-, rfl⟩ := hr
              rw [Bool.and_eq_true, UserStored.inRange_iff] at hin
              obtain ⟨-, -, -, hbalance, -⟩ := hin
              exact hbalance
            · cases hr
          · cases hr
        refine (keeps_setUser (.inr hzero) fun _ => ⟨hrange, ?_⟩).balances hframe
        omega

theorem balances_adjustBalance {h : Bool} (s : State) (u : Fin 256) (amount : Int) : Balances h s (s.adjustBalance u amount).2 := by
  have hframe := frame_adjustBalance s u amount
  unfold State.adjustBalance at hframe ⊢
  dsimp only at hframe ⊢
  split
  · exact .refl h s
  · next hlow =>
    rw [if_neg hlow] at hframe
    refine Ace.Keeps.balances (keeps_setUser (.inl rfl) fun hl => ⟨min_le_right _ _, ?_⟩) hframe
    obtain ⟨hbalance, hreserve⟩ := hl.1 u
    dsimp only [adjusted]
    omega

theorem balances_userAdjustBody {h : Bool} (user : Nat) (amount : Int) (s : State) :
    Balances h s (State.userAdjustBody user amount s).2 := by
  unfold State.userAdjustBody
  split
  · exact .refl h s
  · split
    · exact .refl h s
    · split
      · exact .refl h s
      · exact .refl h s
      · exact balances_adjustBalance s _ _
      · exact balances_adjustBalance s _ _

theorem balances_deptSetBody {h : Bool} (dept : Nat) (allowance : Option Nat) (s : State) :
    Balances h s (State.deptSetBody dept allowance s).2 := by
  have hframe := frame_deptSetBody dept allowance s
  unfold State.deptSetBody at hframe ⊢
  split
  · exact .refl h s
  · next d hd =>
    split
    · exact .refl h s
    · next hok =>
      split
      · exact .refl h s
      · next hbelow =>
        simp only [hd, hok, hbelow] at hframe
        refine (keeps_setDept fun _ limit hlimit => ?_).balances hframe
        dsimp only at hlimit
        subst hlimit
        simpa [DeptRec.belowUse] using hbelow

/-- The used amounts of departments become 0. -/
theorem keeps_resetUsed (ds : List (Fin 16)) (a : Ace) : a.Keeps (ds.foldl Ace.resetUsed a) := by
  induction ds generalizing a with
  | nil => exact .refl a
  | cons d ds ih =>
    refine (keeps_setDept fun hl limit hlimit => ?_).trans (ih (a.resetUsed d))
    have hd := hl.2 d limit hlimit
    dsimp only
    omega

theorem balances_periodResetBody {h : Bool} (which : DeptChoice) (s : State) : Balances h s (State.periodResetBody which s).2 := by
  have hframe := frame_periodResetBody which s
  unfold State.periodResetBody at hframe ⊢
  split
  · exact .refl h s
  · next ds hds =>
    simp only [hds] at hframe
    exact (keeps_resetUsed ds s.ace).balances hframe

/-! ## The tables (R92 to R94, R123, R151) -/

/-- No record is open where CLASS_SET and TARIFF_SET change a table. -/
theorem records_of_not_frozen {j : Jobs} (h : j.frozen = false) : j.contexts = [] := by
  have hnot := mt (frozen_iff j).2 (by rw [h]; exact Bool.false_ne_true)
  simp only [not_or, not_not, not_exists] at hnot
  obtain ⟨hmarking, hstack, hown⟩ := hnot
  refine List.eq_nil_iff_forall_not_mem.2 fun m hm => ?_
  rcases (Jobs.mem_contexts_iff j m).1 hm with hm | hm | ⟨i, c, hc, -⟩
  · rw [hmarking] at hm
    cases hm
  · rw [hstack] at hm
    cases hm
  · rw [hown i] at hc
    cases hc

/-- A table of prices changes while no record is open. -/
theorem balances_prices {h : Bool} {s : State} {a b : Ace} (f : Frame s { s with ace := b }) (hc : s.jct.frozen = false)
    (hu : a.users = s.ace.users) (hd : a.depts = s.ace.depts) (hab : a.Agrees b) : Balances h s { s with ace := b } := by
  have hempty := records_of_not_frozen hc
  have hdept : ∀ d, a.reservedIn d = s.ace.reservedIn d := fun d =>
    reservedIn_congr (fun u => by rw [hu]) (fun u => by rw [Ace.deptOf, Ace.deptOf, hu]) d
  exact {
    marks := (f.marks (some h)).marking h rfl
    books := fun _ y => ⟨⟨y.seats.own, y.seats.pending⟩, y.record,
      fun u => (hab.reserved u).trans ((by rw [hu] : (a.users[u]).reserved = (s.ace.users[u]).reserved).trans (y.users u)),
      hab.deptLaw fun d => by rw [hdept, hd]; exact y.depts d⟩
    limits := fun _ _ hl => hab.limitLaw (by
      rw [Ace.limitLaw, hu, hd]
      exact hl)
    covers := fun _ _ _ r hr => by
      obtain ⟨m, hm, -⟩ := (mem_records _ r).1 hr
      rw [hempty] at hm
      cases hm }

theorem balances_classSetBody {h : Bool} (p : ClassSetParams) (s : State) : Balances h s (State.classSetBody p s).2 := by
  have hframe := frame_classSetBody p s
  unfold State.classSetBody at hframe ⊢
  split
  · next i e hi he =>
    split
    · exact .refl h s
    · next hsound =>
      split
      · exact .refl h s
      · next hfrozen =>
        simp only [hi, he, hsound, hfrozen] at hframe
        unfold Ace.setClasses at hframe ⊢
        split
        · exact .refl h s
        · next hne =>
          simp only [hne, if_false] at hframe
          exact balances_prices (a := s.ace.putClasses (s.ace.classes.set i e)) hframe (by simpa using hfrozen) rfl rfl
            (agrees_trigger _ _)
  · exact .refl h s

theorem balances_tariffSetBody {h : Bool} (t : Tariff) (s : State) : Balances h s (State.tariffSetBody t s).2 := by
  have hframe := frame_tariffSetBody t s
  unfold State.tariffSetBody at hframe ⊢
  split
  · exact .refl h s
  · next hrange =>
    split
    · exact .refl h s
    · next hfrozen =>
      simp only [hrange, hfrozen] at hframe
      unfold Ace.setTariff at hframe ⊢
      split
      · exact .refl h s
      · next hne =>
        simp only [hne, if_false] at hframe
        exact balances_prices (a := s.ace.putTariff t) hframe (by simpa using hfrozen) rfl rfl (agrees_trigger _ _)

theorem apart_servicePinSetBody (newPin : Word8) (s : State) : Apart s (State.servicePinSetBody newPin s).2 := by
  unfold State.servicePinSetBody
  split
  · exact .refl s
  · refine .of_ace (.ite (.refl _) (Ace.Agrees.trans (b := s.ace.putService _) ?_ (agrees_trigger _ _)))
    exact .of_tables rfl rfl rfl rfl

theorem apart_bayConfigBody (p : BayConfigParams) (s : State) : Apart s (State.bayConfigBody p s).2 := by
  unfold State.bayConfigBody
  split
  · refine .of_ace (.ite (.refl _) (Ace.Agrees.trans (b := s.ace.putBays _) ?_ (agrees_trigger _ _)))
    exact .of_tables rfl rfl rfl rfl
  · exact .refl s

/-! ## The frame of the admin commands (R116) -/

theorem balances_admin {h : Bool} (s : State) (pin : Word8) {body : State → Answer} (hb : ∀ t, Balances h t (body t).2) :
    Balances h s (s.admin pin body).2 := by
  have hc : Balances h s (s.credential pin).1 := (apart_credential s pin).framed (frame_credential s pin)
  unfold State.admin
  split
  · next t v e =>
    rw [e] at hc
    exact hc
  · next t e =>
    rw [e] at hc
    exact hc.trans (hb t)

end Sys2Proof.Machine
end

section
/-!
Ring commands, the fetch and the end of an event: what an event's effect does to the books and the bounds, and what its consequences leave.
-/

namespace Sys2Proof.Machine

/-! ## Every ring command -/

theorem balances_report {h : Bool} {s : State} (kind tag : BitVec 16) {a : Answer} (hb : Balances h s a.2) :
    Balances h s (report kind tag a) :=
  have hreport : Apart a.2 (report kind tag a) := .of_eq rfl rfl rfl
  hb.trans (hreport.framed (frame_handHeld a.2 _ tag))

theorem balances_runCommand {h : Bool} (c : Instr) (s : State) (hr : Runs (some h) s) : Balances h s (runCommand c s) := by
  have hregions : ∀ t, Steady s t → Frame s t → Balances h s t := fun t g f => Steady.balances (f.keeps (n := 0)).marksAs fun _ _ => g
  cases c with
  | regionSet tag p => exact balances_report _ _ (hregions _ (steady_regionSet s p) (frame_regionSet s p))
  | regionClear tag i => exact balances_report _ _ (hregions _ (steady_regionClear s i) (frame_regionClear s i))
  | regionsCommit tag => exact balances_report _ _ ((apart_regionsCommit s tag).framed (frame_regionsCommit s tag))
  | captureClear tag =>
    have hclear : Apart s s.clearCapture := .of_eq rfl rfl rfl
    exact balances_report _ _ (hclear.framed (frame_clearCapture s))
  | jobOpen tag p => exact balances_report _ _ (balances_jobOpen s p)
  | jobRelease tag j pin => exact balances_report _ _ (balances_jobRelease s j pin)
  | jobClose tag j => exact balances_report _ _ (balances_jobClose s j tag)
  | jobQuery tag j => exact balances_report _ _ (.refl h s)
  | markSelect tag j => exact balances_report _ _ (balances_markSelect s j hr)
  | markInterrupt tag j => exact balances_report _ _ (balances_markInterrupt s j hr)
  | markResume tag => exact balances_report _ _ (balances_markResume s)
  | classSet tag p => exact balances_report _ _ (balances_admin s p.pin (balances_classSetBody p))
  | tariffSet tag p => exact balances_report _ _ (balances_admin s p.pin (balances_tariffSetBody _))
  | userSet tag p => exact balances_report _ _ (balances_admin s p.servicePin (balances_userSetBody p))
  | userAdjust tag pin u a => exact balances_report _ _ (balances_admin s pin (balances_userAdjustBody u a))
  | userQuery tag pin u =>
    refine balances_report _ _ (balances_admin s pin fun t => ?_)
    unfold State.userQueryBody
    split <;> exact .refl h t
  | deptSet tag pin d a => exact balances_report _ _ (balances_admin s pin (balances_deptSetBody d a))
  | periodReset tag pin w => exact balances_report _ _ (balances_admin s pin (balances_periodResetBody w))
  | meterQuery tag pin => exact balances_report _ _ (balances_admin s pin fun t => .refl h t)
  | servicePinSet tag pin x =>
    exact balances_report _ _ (balances_admin s pin fun t => (apart_servicePinSetBody x t).framed (frame_servicePinSetBody x t))
  | bayQuery tag b =>
    refine balances_report _ _ ?_
    unfold State.bayQuery
    split <;> exact .refl h s
  | bayConfig tag p =>
    exact balances_report _ _ (balances_admin s p.pin fun t => (apart_bayConfigBody p t).framed (frame_bayConfigBody p t))
  | wipeRange tag p => exact balances_report _ _ ((apart_wipeRange s tag p).framed (frame_wipeRange s tag p))
  | standbyEnter tag m => exact balances_report _ _ ((apart_standbyEnter s m tag).kept (keeps_standbyEnter s m tag hr))
  | unknownKind tag x => exact balances_report _ _ (.refl h s)
  | _ => exact .refl h s

theorem balances_direct (s : State) (c : Instr) : Balances s.rci.hand s (s.direct (runCommand c)) := by
  unfold State.direct
  split
  · next hready =>
    obtain ⟨hup, -, hrun, hhand, -⟩ := s.commandReady_iff.1 hready
    have hheld : Apart s { s with rci := { s.rci with held := true } } := .of_eq rfl rfl rfl
    refine (hheld.framed (frame_rci (fun e => e) (fun e => e) rfl rfl)).trans (balances_runCommand c _ fun h hk => ?_)
    cases hk
    exact ⟨hhand, hup, hrun⟩
  · exact .refl _ s

/-! ## An event's effect -/

/-- The effect of an event keeps the books and, where no open record costs more than its reserve, the bounds; each record that is due
then is covered. -/
structure Pays (s t : State) : Prop where
  books : s.markingLaw → s.Books → t.Books
  limits : s.markingLaw → s.Books → s.ace.limitLaw → s.chargesCovered → t.ace.limitLaw
  covers : s.markingLaw → s.Books → s.ace.limitLaw → s.chargesCovered → t.coversAll fun r => r.lines = 0

theorem Balances.pays {s t : State} (h : Balances s.rci.hand s t) : Pays s t where
  books := h.books
  limits x y z _ := h.limits x y z
  covers x y _ hc := (h.covers x y ((State.chargesCovered_iff s).1 hc).2).mono

theorem Steady.books {s t : State} (h : Steady s t) (y : s.Books) : t.Books :=
  ⟨h.seated.seats y.seats, h.seated.stems.recordLaw y.record,
    fun u => (h.ace.reserved u).trans ((y.users u).trans (h.seated.owed u).symm), h.ace.deptLaw y.depts⟩

theorem Steady.pays {s t : State} (h : Steady s t) : Pays s t where
  books _ := h.books
  limits _ _ z _ := h.ace.limitLaw z
  covers _ y _ hc := (h.seated.stems.covers y.record h.ace.classes h.ace.tariff ((State.chargesCovered_iff s).1 hc).2).mono

theorem Apart.pays {s t : State} (h : Apart s t) : Pays s t := h.steady.pays

theorem pays_settleDue (s : State) : Pays s s.settleDue where
  books _ := settleDue_books
  limits _ y z hc := settleDue_limitLaw y z ((State.chargesCovered_iff s).1 hc).2.mono
  covers _ y _ hc := (settleDue_covers y ((State.chargesCovered_iff s).1 hc).2).mono

/-! ## The end of an event -/

/-- What an event's consequences do after the due records have settled. -/
theorem balances_afterSettle {h : Bool} (s : State) :
    Balances h s s.completeCommit.finishWipe.leaveAll.startWipe.standbyStep := by
  have hcommit : Balances h s s.completeCommit :=
    Steady.balances ((frame_completeCommit s).keeps (n := 0)).marksAs fun _ _ => steady_completeCommit s
  refine hcommit.trans ((balances_finishWipe _).trans ((balances_leaveAll _).trans ?_))
  refine ((apart_startWipe _).framed (frame_startWipe _)).trans ((balances_drainEnd _).trans ?_)
  exact ((apart_flushTrigger _).framed (frame_flushTrigger _)).trans ((apart_flushEnd _).framed (frame_flushEnd _))

theorem balances_afterJoin {h : Bool} (s : State) : Balances h s s.postEnd.wakeCheck :=
  ((apart_postEnd s).framed (frame_postEnd s)).trans ((apart_wakeCheck _).framed (frame_wakeCheck _))

theorem balances_endEvent {h : Bool} (s : State) : Balances h s.settleDue s.endEvent :=
  (balances_afterSettle s.settleDue).trans
    (((apart_joinAll _).framed (frame_joinAll _)).trans (balances_afterJoin _))

theorem balances_endReset {h : Bool} (s : State) : Balances h s.settleDue s.endReset :=
  (balances_afterSettle s.settleDue).trans
    (((apart_joinHanded _).framed (frame_joinHanded _)).trans (balances_afterJoin _))

/-- A step keeps the books, and out of LOADING the bounds. -/
structure Accounts (s t : State) : Prop where
  books : s.markingLaw → s.Books → t.Books
  limits : s.markingLaw → s.Books → s.ace.limitLaw → s.chargesCovered → s.rci.startup ≠ .loading → t.ace.limitLaw

/-- An event keeps the books and the bounds where its effect does. -/
theorem Pays.accounts {s t u : State} (h : Pays s t) (hm : s.markingLaw → t.markingLaw)
    (hu : ∀ b, Balances b t.settleDue u) : Accounts s u where
  books x y := (hu _).books ((frame_settleDue t).laws.marking (hm x)) (settleDue_books (h.books x y))
  limits x y z hc _ := (hu _).limits ((frame_settleDue t).laws.marking (hm x)) (settleDue_books (h.books x y))
    (settleDue_limitLaw (h.books x y) (h.limits x y z hc) (h.covers x y z hc))

theorem Accounts.event {s t : State} {body : State → State} (h : event body s = .next t)
    (hp : Pays s.beginEvent (body s.beginEvent)) (hk : KeepsLaws s.beginEvent (body s.beginEvent)) : Accounts s t := by
  simp only [Sys2Proof.Machine.event, Host.Outcome.next.injEq] at h
  subst h
  have hbegin : Steady s s.beginEvent := .of_seated (.of_jct id rfl) rfl
  split
  · have ha := hp.accounts hk.marking fun b => balances_endEvent _
    exact ⟨fun x y => ha.books x (hbegin.books y), fun x y => ha.limits x (hbegin.books y)⟩
  · exact ⟨fun _ => hbegin.books, fun _ _ z _ _ => z⟩

/-! ## The fetch (R186, R187) -/

theorem pays_fetched {s : State} {i : Fin 8} {x : InternalSlot} (hx : s.down.outstanding? i = some x) (hf : x.isFetch = true)
    (l : Line) : Pays s (({ s with down := s.down.freeInternal i } : State).executeLine l) := by
  have hrun : s.markingLaw → ({ s with down := s.down.freeInternal i } : State).markingLawAs false
      ∧ Runs (some false) { s with down := s.down.freeInternal i } := fun hlaw => by
    have hhand := hand_of_fetch hx hf hlaw
    refine ⟨markingLawAs_fetchFreed hx hf hlaw, fun h e => ?_⟩
    obtain ⟨-, ⟨-, hin, -⟩, -⟩ := hlaw
    exact ⟨(Option.some.inj e).symm, hin hhand⟩
  have hfreed : Apart s { s with down := s.down.freeInternal i } := .of_eq rfl rfl rfl
  have hdone : ∀ t : State, Apart t { t with rci := t.rci.commandDone } := fun t => .of_eq rfl rfl rfl
  exact {
    books := fun hl y => by
      obtain ⟨hfree, hr⟩ := hrun hl
      exact (hdone _).steady.books ((balances_runCommand (commandOfLine l) _ hr).books hfree (hfreed.steady.books y))
    limits := fun hl y z _ => by
      obtain ⟨hfree, hr⟩ := hrun hl
      exact (balances_runCommand (commandOfLine l) _ hr).limits hfree (hfreed.steady.books y) z
    covers := fun hl y _ hc => by
      obtain ⟨hfree, hr⟩ := hrun hl
      exact ((balances_runCommand (commandOfLine l) _ hr).covers hfree (hfreed.steady.books y)
        ((State.chargesCovered_iff s).1 hc).2).mono }

theorem pays_returnFetch (s : State) (i : Fin 8) (okay : Bool) (l : Line) : Pays s (s.returnFetch i okay l) := by
  unfold State.returnFetch
  split
  · next retried a len discard hx =>
    cases discard with
    | true => exact (Apart.of_eq rfl rfl rfl : Apart s { s with down := s.down.freeInternal i }).pays
    | false =>
      simp only [Bool.false_eq_true, if_false]
      split
      · exact pays_fetched hx rfl l
      · have hskip : Apart s (({ s with down := s.down.freeInternal i } : State).skipCommand) := .of_eq rfl rfl rfl
        have hagain : Apart s { s with down := s.down.handAgain i (.fetch true) } := .of_eq rfl rfl rfl
        exact (Apart.ite hskip hagain).pays
  · exact (Apart.refl s).pays

end Sys2Proof.Machine
end

section
/-!
What a trial does to the reserves: each record that it opens costs one more reserve that has passed its check, and the records that it
settles or leaves with no line in flight are covered (R71, R75 to R79, R97 to R99).
-/

namespace Sys2Proof.Machine

/-! ## The state of a trial -/

/-- A trial against `env` that began with the queue `rs`: its records are those of the job and its user, they owe what `rs` owes and a
reserve for each record opened, and each opening has passed its check on top of those before it. -/
structure Trial.Fair (env : TrialEnv) (passes : Nat → Bool) (rs : List PageRecord) (tr : Trial) : Prop where
  jobs : ∀ r, r ∈ tr.ctx.queue ∨ r ∈ tr.settled → r.job = env.job ∧ r.user = env.user
  sums : ∀ u, owed tr.ctx.queue u + owed tr.settled u = owed rs u + if env.user = u then tr.openedNow * env.reserve else 0
  granted : tr.openedNow = 0 ∨ passes ((tr.openedNow - 1) * env.reserve) = true

/-- Of the trial's records, those settled meet `P`, and so do those without a line in flight, but for the ones named `but`. -/
structure Trial.Meets (P : PageRecord → Prop) (but : Option Nat) (tr : Trial) : Prop where
  queue : ∀ r ∈ tr.ctx.queue, r.lines = 0 → but = some r.opened ∨ P r
  settled : ∀ r ∈ tr.settled, P r

theorem Trial.Fair.start (env : TrialEnv) (passes : Nat → Bool) (c : Context) (m : Rmu)
    (h : ∀ r ∈ c.queue, r.job = env.job ∧ r.user = env.user) : (Trial.start c m).Fair env passes c.queue where
  jobs r hr := hr.elim (h r) fun hr => nomatch hr
  sums u := by simp [Trial.start]
  granted := .inl rfl

theorem Trial.Meets.start {P : PageRecord → Prop} {c : Context} (m : Rmu) (h : ∀ r ∈ c.queue, P r) : (Trial.start c m).Meets P none :=
  ⟨fun r hr _ => .inr (h r hr), fun _ hr => nomatch hr⟩

/-- The queue changes record by record, which keep their job, user and reserve. -/
theorem Trial.Fair.of_map {env : TrialEnv} {passes : Nat → Bool} {rs : List PageRecord} {tr tr' : Trial} (h : tr.Fair env passes rs)
    (g : PageRecord → PageRecord) (hg : ∀ r, (g r).job = r.job ∧ (g r).user = r.user ∧ (g r).reserve = r.reserve)
    (hq : tr'.ctx.queue = tr.ctx.queue.map g) (hs : tr'.settled = tr.settled) (ho : tr'.openedNow = tr.openedNow) :
    tr'.Fair env passes rs where
  jobs r hr := by
    rw [hq, hs] at hr
    rcases hr with hr | hr
    · obtain ⟨x, hx, rfl⟩ := List.mem_map.1 hr
      obtain ⟨hj, hu, -⟩ := hg x
      exact ⟨hj.trans (h.jobs x (.inl hx)).1, hu.trans (h.jobs x (.inl hx)).2⟩
    · exact h.jobs r (.inr hr)
  sums u := by
    rw [hq, hs, ho, owed_map _ u fun r _ => ⟨(hg r).2.1, (hg r).2.2⟩]
    exact h.sums u
  granted := ho ▸ h.granted

/-! ## Step 1: the tie goes (R75) -/

/-- The plane of an untied record changes its status alone. -/
theorem untied_alike (p : Fin 4) (n : Nat) (r : PageRecord) :
    r.Alike (if r.opened = n then r.modPlane p fun q => if q.status = .opened then { q with status := .closed } else q else r) := by
  split
  · refine ⟨rfl, rfl, rfl, reach_modPlane r p fun q => ?_⟩
    split <;> exact ⟨rfl, rfl⟩
  · exact .refl r

theorem Trial.Fair.closeTie {env : TrialEnv} {passes : Nat → Bool} {rs : List PageRecord} {tr : Trial} (h : tr.Fair env passes rs)
    (p : Fin 4) : (tr.closeTie p).Fair env passes rs := by
  cases htied : (tr.ctx.trackers[p]).tied with
  | none => rwa [closeTie_of_free htied]
  | some n =>
    have huntied : ({ tr with ctx := tr.untied p n } : Trial).Fair env passes rs :=
      h.of_map _ (fun r => ⟨(untied_alike p n r).job, (untied_alike p n r).user, (untied_alike p n r).reserve⟩) rfl rfl rfl
    rw [closeTie_of_tied htied]
    refine ⟨fun r hr => huntied.jobs r ?_, fun u => ?_, huntied.granted⟩
    · rcases hr with hr | hr
      · exact .inl (List.mem_of_mem_filter hr)
      · exact (List.mem_append.1 hr).elim .inr fun hr => .inl (List.mem_of_mem_filter hr)
    · have hpart := owed_partition (tr.untied p n).queue PageRecord.isDue u
      have howed := huntied.sums u
      simp only [Context.dropDue, owed_append] at howed ⊢
      omega

theorem Trial.Meets.closeTie {P : PageRecord → Prop} (hP : ∀ r q : PageRecord, r.Alike q → P r → P q) {tr : Trial}
    (h : tr.Meets P none) (p : Fin 4) : (tr.closeTie p).Meets P none := by
  cases htied : (tr.ctx.trackers[p]).tied with
  | none => rwa [closeTie_of_free htied]
  | some n =>
    have huntied : ∀ r ∈ (tr.untied p n).queue, r.lines = 0 → P r := fun r hr hl => by
      obtain ⟨x, hx, rfl⟩ := List.mem_map.1 hr
      refine hP x _ (untied_alike p n x) ((h.queue x hx ?_).elim (fun e => nomatch e) id)
      dsimp only at hl
      split at hl <;> exact hl
    rw [closeTie_of_tied htied]
    refine ⟨fun r hr hl => .inr (huntied r (List.mem_of_mem_filter hr) hl), fun r hr => ?_⟩
    rcases List.mem_append.1 hr with hr | hr
    · exact h.settled r hr
    · obtain ⟨hr, hdue⟩ := List.mem_filter.1 hr
      rw [PageRecord.isDue, Bool.and_eq_true, beq_iff_eq] at hdue
      exact huntied r hr hdue.2

/-! ## Step 2: the record (R75 to R77) -/

theorem Trial.choose_cases {env : TrialEnv} {passes : Nat → Bool} {tr tr' : Trial} {f n : Nat}
    (h : tr.choose env passes f = .ok (tr', n)) : tr' = tr ∨ passes (tr.openedNow * env.reserve) = true ∧ n = tr.rmu.opened + 1
      ∧ tr' = { tr with
          ctx := { tr.ctx with queue := tr.ctx.queue ++ [env.newRecord tr.rmu f] }
          rmu := ⟨tr.rmu.recordCounter + 1, tr.rmu.opened + 1⟩
          openedNow := tr.openedNow + 1 } := by
  unfold Trial.choose at h
  split at h
  · cases h
    exact .inl rfl
  · split at h
    · cases h
    · split at h
      · next hpasses =>
        cases h
        exact .inr ⟨hpasses, rfl, rfl⟩
      · cases h

theorem Trial.Fair.choose {env : TrialEnv} {passes : Nat → Bool} {rs : List PageRecord} {tr tr' : Trial} {f n : Nat}
    (h : tr.Fair env passes rs) (hc : tr.choose env passes f = .ok (tr', n)) : tr'.Fair env passes rs := by
  rcases Trial.choose_cases hc with rfl | ⟨hpasses, -, rfl⟩
  · exact h
  · refine ⟨fun r hr => ?_, fun u => ?_, .inr hpasses⟩
    · rcases hr with hr | hr
      · rcases List.mem_append.1 hr with hr | hr
        · exact h.jobs r (.inl hr)
        · obtain rfl := List.mem_singleton.1 hr
          exact ⟨rfl, rfl⟩
      · exact h.jobs r (.inr hr)
    · have howed := h.sums u
      have hnew : owed [env.newRecord tr.rmu f] u = if env.user = u then env.reserve else 0 := by
        rw [owed_cons, owed_nil]
        rfl
      have hmul : (tr.openedNow + 1) * env.reserve = tr.openedNow * env.reserve + env.reserve := Nat.succ_mul _ _
      simp only [owed_append, hnew, hmul]
      by_cases he : env.user = u
      · rw [if_pos he] at howed ⊢
        rw [if_pos he]
        omega
      · rw [if_neg he] at howed ⊢
        rw [if_neg he]
        omega

theorem Trial.Meets.choose {P : PageRecord → Prop} {env : TrialEnv} {passes : Nat → Bool} {tr tr' : Trial} {f n : Nat}
    (h : tr.Meets P none) (hc : tr.choose env passes f = .ok (tr', n)) : tr'.Meets P (some n) := by
  have hold : ∀ r ∈ tr.ctx.queue, r.lines = 0 → P r := fun r hr hl => (h.queue r hr hl).elim (fun e => nomatch e) id
  rcases Trial.choose_cases hc with rfl | ⟨-, rfl, rfl⟩
  · exact ⟨fun r hr hl => .inr (hold r hr hl), h.settled⟩
  · refine ⟨fun r hr hl => ?_, h.settled⟩
    rcases List.mem_append.1 hr with hr | hr
    · exact .inr (hold r hr hl)
    · obtain rfl := List.mem_singleton.1 hr
      exact .inl rfl

/-! ## Steps 3 and 4, and classification (R75, R78, R79) -/

theorem Trial.Fair.tie {env : TrialEnv} {passes : Nat → Bool} {rs : List PageRecord} {tr : Trial} (h : tr.Fair env passes rs)
    (n f chunk : Nat) : (tr.tie env n f chunk).Fair env passes rs := by
  rw [tie_eq]
  exact h.of_map (fun r => if r.opened = n then r.started env.raster.plane chunk else r)
    (fun r => by split <;> exact ⟨rfl, rfl, rfl⟩) rfl rfl rfl

theorem Trial.Meets.tie {P : PageRecord → Prop} {tr : Trial} {n : Nat} (h : tr.Meets P (some n)) (env : TrialEnv) (f chunk : Nat) :
    (tr.tie env n f chunk).Meets P (some n) := by
  rw [tie_eq]
  refine ⟨fun r hr hl => ?_, h.settled⟩
  obtain ⟨x, hx, rfl⟩ := List.mem_map.1 hr
  by_cases hn : x.opened = n
  · rw [if_pos hn]
    exact .inl (congrArg some hn.symm)
  · rw [if_neg hn] at hl ⊢
    exact h.queue x hx hl

/-- The record that a FIRST line changes has a line in flight then. -/
theorem Trial.Meets.classify {P : PageRecord → Prop} {env : TrialEnv} {tr : Trial} {but : Option Nat} (chunk : Nat) (h : tr.Meets P but)
    (hb : ∀ n ∈ but, (tr.ctx.trackers[env.raster.plane]).tied = some n
      ∧ (tr.ctx.trackers[env.raster.plane]).isComplete = false ∧ (tr.ctx.trackers[env.raster.plane]).hw ≤ chunk) :
    (tr.classify env chunk).Meets P none := by
  have hmarks : but = none → ∀ ms, ({ tr with marks := ms } : Trial).Meets P none := fun e ms => by
    subst e
    exact ⟨h.queue, h.settled⟩
  cases htied : (tr.ctx.trackers[env.raster.plane]).tied with
  | none =>
    rw [classify_free chunk htied]
    refine hmarks (Option.eq_none_iff_forall_not_mem.2 fun n hn => ?_) _
    obtain ⟨e, -⟩ := hb n hn
    rw [htied] at e
    cases e
  | some n =>
    by_cases hr : (tr.ctx.trackers[env.raster.plane]).isComplete = true ∨ chunk < (tr.ctx.trackers[env.raster.plane]).hw
    · rw [classify_remark htied hr]
      refine hmarks (Option.eq_none_iff_forall_not_mem.2 fun k hk => ?_) _
      obtain ⟨-, hc, hw⟩ := hb k hk
      rcases hr with hr | hr
      · rw [hc] at hr
        cases hr
      · omega
    · obtain ⟨hc, hw⟩ := not_or.1 hr
      rw [classify_first htied (by simpa using hc) (by omega)]
      refine ⟨fun r hr hl => ?_, h.settled⟩
      obtain ⟨x, hx, rfl⟩ := List.mem_map.1 hr
      by_cases hn : x.opened = n
      · rw [if_pos hn] at hl
        cases hl
      · rw [if_neg hn] at hl ⊢
        refine .inr ((h.queue x hx hl).elim (fun e => ?_) id)
        obtain ⟨e', -⟩ := hb x.opened e
        rw [htied] at e'
        exact absurd (Option.some.inj e').symm hn

theorem Trial.Fair.classify {env : TrialEnv} {passes : Nat → Bool} {rs : List PageRecord} {tr : Trial} (h : tr.Fair env passes rs)
    (chunk : Nat) : (tr.classify env chunk).Fair env passes rs := by
  have hmarks : ∀ ms, ({ tr with marks := ms } : Trial).Fair env passes rs := fun _ => ⟨h.jobs, h.sums, h.granted⟩
  cases htied : (tr.ctx.trackers[env.raster.plane]).tied with
  | none =>
    rw [classify_free chunk htied]
    exact hmarks _
  | some n =>
    by_cases hr : (tr.ctx.trackers[env.raster.plane]).isComplete = true ∨ chunk < (tr.ctx.trackers[env.raster.plane]).hw
    · rw [classify_remark htied hr]
      exact hmarks _
    · obtain ⟨hc, hw⟩ := not_or.1 hr
      rw [classify_first htied (by simpa using hc) (by omega)]
      exact h.of_map (fun r => if r.opened = n then
          r.firstLine env (chunk + 1) ((tr.ctx.trackers[env.raster.plane]).hw < chunk) else r)
        (fun r => by split <;> exact ⟨rfl, rfl, rfl⟩) rfl rfl rfl

/-! ## Lines and runs -/

theorem Trial.startPass_steps {env : TrialEnv} {passes : Nat → Bool} {tr tr' : Trial} {f chunk : Nat}
    (h : tr.startPass env passes f chunk = .ok tr') :
    ∃ x n, (tr.closeTie env.raster.plane).choose env passes f = .ok (x, n) ∧ tr' = x.tie env n f chunk := by
  unfold Trial.startPass at h
  split at h
  · cases h
  · next x n hc =>
    cases h
    exact ⟨x, n, hc, rfl⟩

/-- A line starts a pass and is then classified, or is classified as it is. -/
theorem Trial.line_steps {env : TrialEnv} {passes : Nat → Bool} {tr tr' : Trial} {a : Addr} (h : tr.line env passes a = .ok tr') :
    (∃ x, tr.startPass env passes (env.place a).1 (env.place a).2 = .ok x ∧ tr' = x.classify env (env.place a).2)
    ∨ tr' = tr.classify env (env.place a).2 := by
  unfold Trial.line at h
  dsimp only at h
  split at h
  · split at h
    · cases h
    · next x hx =>
      cases h
      exact .inl ⟨x, hx, rfl⟩
  · cases h
    exact .inr rfl

/-- The tracker that a pass start leaves is tied, and its pass has reached no chunk. -/
theorem tie_tracker (env : TrialEnv) (tr : Trial) (n f chunk : Nat) (hg : env.raster.geom.chunksPerFrame ≠ 0) :
    ((tr.tie env n f chunk).ctx.trackers[env.raster.plane]).tied = some n
    ∧ ((tr.tie env n f chunk).ctx.trackers[env.raster.plane]).isComplete = false
    ∧ ((tr.tie env n f chunk).ctx.trackers[env.raster.plane]).hw = 0 := by
  have ht : (tr.tie env n f chunk).ctx.trackers[env.raster.plane] = ⟨some f, some env.raster.geom, 0, some n⟩ := by
    rw [tie_eq]
    exact (get_set _ _ _ _).trans (if_pos rfl)
  rw [ht]
  exact ⟨rfl, beq_eq_false_iff_ne.2 hg.symm, rfl⟩

theorem Trial.Fair.line {env : TrialEnv} {passes : Nat → Bool} {rs : List PageRecord} {tr tr' : Trial} {a : Addr}
    (h : tr.Fair env passes rs) (hl : tr.line env passes a = .ok tr') : tr'.Fair env passes rs := by
  rcases Trial.line_steps hl with ⟨x, hx, rfl⟩ | rfl
  · obtain ⟨y, n, hc, rfl⟩ := Trial.startPass_steps hx
    exact (((h.closeTie _).choose hc).tie n _ _).classify _
  · exact h.classify _

theorem Trial.Meets.line {P : PageRecord → Prop} (hP : ∀ r q : PageRecord, r.Alike q → P r → P q) {env : TrialEnv}
    (hg : env.raster.geom.chunksPerFrame ≠ 0) {passes : Nat → Bool} {tr tr' : Trial} {a : Addr} (h : tr.Meets P none)
    (hl : tr.line env passes a = .ok tr') : tr'.Meets P none := by
  rcases Trial.line_steps hl with ⟨x, hx, rfl⟩ | rfl
  · obtain ⟨y, n, hc, rfl⟩ := Trial.startPass_steps hx
    refine (((h.closeTie hP _).choose hc).tie env _ _).classify _ fun k hk => ?_
    cases hk
    obtain ⟨htied, hcomplete, hw⟩ := tie_tracker env y n (env.place a).1 (env.place a).2 hg
    exact ⟨htied, hcomplete, by rw [hw]; exact Nat.zero_le _⟩
  · exact h.classify _ fun _ hn => nomatch hn

theorem Trial.Fair.run {env : TrialEnv} {passes : Nat → Bool} {rs : List PageRecord} {as : List Addr} {tr tr' : Trial}
    (h : tr.Fair env passes rs) (hr : Trial.run env passes as tr = .ok tr') : tr'.Fair env passes rs := by
  induction as generalizing tr with
  | nil =>
    cases hr
    exact h
  | cons a as ih =>
    rw [Trial.run] at hr
    cases hl : tr.line env passes a with
    | error e => simp [hl] at hr
    | ok x =>
      simp only [hl] at hr
      exact ih (h.line hl) hr

theorem Trial.Meets.run {P : PageRecord → Prop} (hP : ∀ r q : PageRecord, r.Alike q → P r → P q) {env : TrialEnv}
    (hg : env.raster.geom.chunksPerFrame ≠ 0) {passes : Nat → Bool} {as : List Addr} {tr tr' : Trial} (h : tr.Meets P none)
    (hr : Trial.run env passes as tr = .ok tr') : tr'.Meets P none := by
  induction as generalizing tr with
  | nil =>
    cases hr
    exact h
  | cons a as ih =>
    rw [Trial.run] at hr
    cases hl : tr.line env passes a with
    | error e => simp [hl] at hr
    | ok x =>
      simp only [hl] at hr
      exact ih (h.line hP hg hl) hr

end Sys2Proof.Machine
end

section
/-!
The memory path takes a transaction: what the gate accepts has been tried on the current context against the reserve check, and the trial
taken keeps the books and the bounds (R69 to R71, R97 to R99).
-/

namespace Sys2Proof.Machine

/-! ## What an examination does with the reserves -/

/-- A verdict that takes no trial and holds no job for its quota. -/
def Verdict.Free : Verdict → Prop
  | .accept a => a.trial = none
  | .quota _ _ => False
  | _ => True

/-- The verdict is that of the marking gate on a live RASTER entry, for a job that lets a MARK read pass. -/
def State.Gated (s : State) (t : Txn) (v : Verdict) : Prop :=
  ∃ (i : Fin 32) (e : RegionEntry) (r : Raster) (j : Fin 16) (w : View), s.rgt.live[i] = some e ∧ e.raster = some r
    ∧ (s.job j).state.letsPass true = true ∧ v = s.gate t i e r j w

theorem examineJob_cases (s : State) (t : Txn) {i : Fin 32} {e : RegionEntry} (j : Fin 16) (hi : s.rgt.live[i] = some e) :
    (s.examineJob t i e j).Free ∨ s.Gated t (s.examineJob t i e j) := by
  unfold State.examineJob
  dsimp only
  split
  · exact .inl trivial
  · next hpass =>
    split
    · exact .inl trivial
    · split
      · next r hr =>
        split
        · next hmarks =>
          rw [hmarks] at hpass
          exact .inr ⟨i, e, r, j, _, hi, hr, by simpa using hpass, rfl⟩
        · exact .inl rfl
      · exact .inl rfl

theorem examineMiss_free (s : State) : s.examineMiss.Free := by
  unfold State.examineMiss
  split
  · exact trivial
  · exact rfl

theorem examineMatch_cases (s : State) (t : Txn) : (s.examineMatch t).Free ∨ s.Gated t (s.examineMatch t) := by
  unfold State.examineMatch
  split
  · exact .inl trivial
  · split
    · exact .inl (examineMiss_free s)
    · next i _ =>
      split
      · next e hi =>
        unfold State.examineEntry
        split
        · exact .inl trivial
        · split
          · exact .inl rfl
          · exact examineJob_cases s t _ hi
      · exact .inl (examineMiss_free s)

theorem examineFrom2_cases (s : State) (t : Txn) : (s.examineFrom2 t).Free ∨ s.Gated t (s.examineFrom2 t) := by
  unfold State.examineFrom2
  split
  · exact .inl trivial
  · split
    · exact .inl trivial
    · split
      · exact .inl rfl
      · split
        · split
          · exact .inl rfl
          · exact .inl trivial
        · exact examineMatch_cases s t

theorem examine_cases (s : State) (t : Txn) : (s.examine t).Free ∨ s.Gated t (s.examine t) := by
  unfold State.examine
  split
  · exact .inl trivial
  · exact examineFrom2_cases s t

/-- What an acceptance has tried: a read of a live RASTER entry on the current context, against the reserve check. -/
structure Accept.Tried (a : Accept) (s : State) (j : Fin 16) (tr : Trial) (reserve : Nat) : Prop where
  job : a.job = some j
  found : ∃ (m : Marked) (i : Fin 32) (e : RegionEntry) (r : Raster) (as : List Addr), s.jct.marking = some m ∧ m.job = j
    ∧ s.rgt.live[i] = some e ∧ e.raster = some r ∧ s.runTrial (s.trialEnv e r j) m.ctx as = .ok tr
  reserve : reserve = s.reserveOf j

theorem gate_tried {s : State} {t : Txn} {i : Fin 32} {e : RegionEntry} {r : Raster} {j : Fin 16} {w : View}
    (hi : s.rgt.live[i] = some e) (hr : e.raster = some r) :
    (∀ a, s.gate t i e r j w = .accept a → ∃ tr p d reserve, a.trial = some (tr, p, d, reserve) ∧ a.Tried s j tr reserve)
    ∧ ∀ i' j', s.gate t i e r j w = .quota i' j' → j' = j := by
  unfold State.gate
  split
  · exact ⟨fun _ h => (nomatch h), fun _ _ h => (nomatch h)⟩
  · next m hm =>
    dsimp only
    split
    · exact ⟨fun _ h => (nomatch h), fun _ _ h => (nomatch h)⟩
    · next hj =>
      split
      · exact ⟨fun _ h => (nomatch h), fun _ _ h => (nomatch h)⟩
      · split
        · exact ⟨fun _ h => (nomatch h), fun _ _ h => (nomatch h)⟩
        · split
          · exact ⟨fun _ h => (nomatch h), fun _ _ h => (nomatch h)⟩
          · split
            · next tr htr =>
              refine ⟨fun a ha => ?_, fun _ _ h => (nomatch h)⟩
              cases ha
              exact ⟨tr, _, _, _, rfl, rfl, ⟨m, i, e, r, _, hm, not_not.1 hj, hi, hr, htr⟩, rfl⟩
            · exact ⟨fun _ h => (nomatch h), fun _ _ h => (nomatch h)⟩
            · refine ⟨fun _ h => (nomatch h), fun _ _ h => ?_⟩
              cases h
              rfl

/-! ## The trial taken (R71, R98, R99) -/

/-- The part as the trial becomes its current context and its reserves are taken, before the records settle that it has settled. -/
def State.trialTaken (s : State) (j : Fin 16) (tr : Trial) (reserve : Nat) : State :=
  { s with
    jct := { s.jct with marking := s.jct.marking.map fun m => { m with ctx := tr.ctx } }
    rmu := tr.rmu
    ace := s.ace.modReserved (s.job j).user (· + tr.openedNow * reserve) }

theorem takeTrial_eq (s : State) (j : Fin 16) (tr : Trial) (reserve : Nat) : ∃ u, Apart (s.trialTaken j tr reserve) u
    ∧ s.takeTrial j tr reserve = (sortRecords tr.settled).foldl (State.settle true) u := by
  unfold State.takeTrial
  dsimp only
  split
  · next he =>
    rw [List.isEmpty_iff] at he
    exact ⟨_, .refl _, by rw [he]; rfl⟩
  · exact ⟨_, apart_releaseAssembly _ [j], rfl⟩

section
variable {s : State} {m : Marked} {j : Fin 16} {env : TrialEnv} {tr : Trial}
  (hm : s.jct.marking = some m) (hj : m.job = j) (hjob : env.job = j) (huser : env.user = (s.job j).user)
  (hfair : tr.Fair env (fun more => s.ace.reservePasses env.user more env.reserve) m.ctx.queue)

include hm in
theorem trialTaken_marking (n : Nat) : (s.trialTaken j tr n).jct.marking = some ⟨m.job, tr.ctx⟩ := by
  simp [State.trialTaken, hm]

include hm in
theorem trialTaken_jobs (n : Nat) : (s.trialTaken j tr n).jct.marking.map Marked.job = s.jct.marking.map Marked.job := by
  rw [trialTaken_marking hm, hm]
  rfl

include hm hfair in
theorem trialTaken_owed (n : Nat) (u : Fin 256) : (s.trialTaken j tr n).jct.reservesOf u + owed tr.settled u
    = s.jct.reservesOf u + if env.user = u then tr.openedNow * env.reserve else 0 := by
  have hsums := hfair.sums u
  rw [reservesOf_eq, reservesOf_eq, trialTaken_marking hm, hm]
  simp only [Option.map_some, ownQueue, Option.getD_some, State.trialTaken] at hsums ⊢
  omega

include hm huser hfair in
theorem trialTaken_reserved (hb : s.Books) (u : Fin 256) : ((s.trialTaken j tr env.reserve).ace.users[u]).reserved
    = (s.trialTaken j tr env.reserve).jct.reservesOf u + owed tr.settled u := by
  rw [trialTaken_owed hm hfair, ← hb.users u, huser]
  refine (modReserved_user s.ace (s.job j).user u _).2.1.trans ?_
  by_cases he : u = (s.job j).user
  · rw [if_pos he, if_pos he.symm]
  · rw [if_neg he, if_neg (Ne.symm he), Nat.add_zero]

theorem trialTaken_deptLaw (n : Nat) (h : s.ace.deptLaw) : (s.trialTaken j tr n).ace.deptLaw := by
  refine deptLaw_change h (s.job j).user (fun v => congrArg UserStored.department (modReserved_user _ _ v _).1)
    (fun v hv => (modReserved_user _ _ v _).2.1.trans (if_neg hv)) fun d => ?_
  have hd := (modReserved_dept s.ace (s.job j).user (· + tr.openedNow * n) d).2
  have hu := (modReserved_user s.ace (s.job j).user (s.job j).user (· + tr.openedNow * n)).2.1
  rw [if_pos rfl] at hu
  rw [State.trialTaken, hd, hu]
  split <;> omega

include huser hfair in
/-- Each record opened has passed its check on top of the earlier ones, so that the last check bounds the whole (R98). -/
theorem trialTaken_limitLaw (h : s.ace.limitLaw) : (s.trialTaken j tr env.reserve).ace.limitLaw := by
  obtain ⟨hbalance, hwithin⟩ := (limitLaw_iff _).1 h
  refine (limitLaw_iff _).2 ⟨fun v => ?_, ?_⟩
  · rw [State.trialTaken, (modReserved_user _ _ v _).1]
    exact hbalance v
  · rw [State.trialTaken, ← huser]
    cases hopened : tr.openedNow with
    | zero =>
      rw [Nat.zero_mul]
      exact within_release hwithin env.user 0
    | succ k =>
      have hpasses := hfair.granted.resolve_left (by rw [hopened]; exact Nat.succ_ne_zero k)
      rw [hopened, Nat.add_sub_cancel] at hpasses
      rw [Nat.succ_mul]
      exact within_reserve hwithin hpasses

include hm hj hjob huser hfair in
theorem trialTaken_recordLaw (n : Nat) (h : s.recordLaw) : (s.trialTaken j tr n).recordLaw := fun x hx r hr => by
  rcases trialContexts hm tr.ctx hx with rfl | hx
  · obtain ⟨hrj, hru⟩ := hfair.jobs r (.inl hr)
    exact ⟨hrj.trans (hjob.trans hj.symm), hru.trans (huser.trans (by rw [hj]; rfl))⟩
  · exact h x hx r hr

include hm in
theorem trialTaken_seats (n : Nat) (h : s.Seats) : (s.trialTaken j tr n).Seats where
  own i hi := by
    obtain ⟨hanchored, hclosing, hmark, hst⟩ := h.own i hi
    exact ⟨hanchored, hclosing, (isMarking_congr (trialTaken_jobs hm n) i).trans hmark, hst⟩
  pending := h.pending

include hm hj hjob huser hfair in
/-- The trial taken keeps the books and, where the records are covered, the bounds. -/
theorem takeTrial_keeps (hb : s.Books) : (s.takeTrial j tr env.reserve).Books
    ∧ (s.ace.limitLaw → (∀ r ∈ tr.settled, s.covers r) → (s.takeTrial j tr env.reserve).ace.limitLaw)
    ∧ ((s.coversAll fun _ => True) → (∀ r ∈ tr.ctx.queue, r.lines = 0 → s.covers r) →
      (s.takeTrial j tr env.reserve).coversAll fun r => r.lines = 0) := by
  obtain ⟨u, hu, heq⟩ := takeTrial_eq s j tr env.reserve
  have hreserved : ∀ v : Fin 256, (u.ace.users[v]).reserved
      = (s.trialTaken j tr env.reserve).jct.reservesOf v + owed (sortRecords tr.settled) v := fun v => by
    rw [owed_perm (sortRecords_perm _), hu.ace.reserved v]
    exact trialTaken_reserved hm huser hfair hb v
  have hdepts := hu.ace.deptLaw (trialTaken_deptLaw (tr := tr) (j := j) env.reserve hb.depts)
  have hposts : PostsOnly u ((sortRecords tr.settled).foldl (State.settle true) u) := .foldl (postsOnly_settle true) _ u
  have hseated : Seated (s.trialTaken j tr env.reserve) ((sortRecords tr.settled).foldl (State.settle true) u) :=
    hu.steady.seated.trans hposts.seated
  have hprices : ∀ {r q : PageRecord}, r.Alike q → s.covers r → u.covers q := fun ha =>
    covers_congr ha hu.ace.classes hu.ace.tariff (by rw [State.job, hu.jct]; rfl)
  obtain ⟨hclasses, htariff⟩ := settleAll_tables true (sortRecords tr.settled) u
  rw [heq]
  refine ⟨?_, fun hl hc => ?_, fun hs hq r hr hlines => ?_⟩
  · obtain ⟨husers, hd⟩ := settleAll_books true (sortRecords tr.settled) hreserved hdepts
    exact ⟨hseated.seats (trialTaken_seats hm _ hb.seats),
      hseated.stems.recordLaw (trialTaken_recordLaw hm hj hjob huser hfair _ hb.record),
      fun v => (husers v).trans (hseated.owed v).symm, hd⟩
  · refine settleAll_limitLaw true (sortRecords tr.settled) hreserved hdepts (hu.ace.limitLaw (trialTaken_limitLaw huser hfair hl)) ?_
    exact fun r hr => charge_le_of_covers (hprices (.refl r) (hc r ((sortRecords_perm _).mem_iff.1 hr)))
  · have hcovered : u.covers r := by
      obtain ⟨x, hx, hr⟩ := (mem_records _ r).1 hr
      rw [hseated.contexts] at hx
      rcases trialContexts hm tr.ctx hx with rfl | hx
      · exact hprices (.refl r) (hq r hr hlines)
      · exact hprices (.refl r) (hs r ((mem_records _ r).2 ⟨x, hx, hr⟩) trivial)
    refine covers_congr (.refl r) hclasses htariff ?_ hcovered
    exact (congrArg JobSlot.declared (hposts.jobs r.job) :)

end

/-! ## Acceptance -/

/-- An operation that leaves the contexts and the amounts of a part that meets the laws. -/
theorem Pays.of_steady {s t : State} (h : s.markingLaw → s.Books → Steady s t) : Pays s t where
  books x y := (h x y).books y
  limits x y := (h x y).pays.limits x y
  covers x y := (h x y).pays.covers x y

/-- A live RASTER entry's frame has chunks. -/
theorem chunksPerFrame_ne {g : Geometry} (hs : 64 ≤ g.stride) (hf : 1 ≤ g.frameLines) : g.chunksPerFrame ≠ 0 := by
  have hline : 0 < g.chunksPerLine := Nat.div_pos hs (by decide)
  exact (Nat.mul_pos hline hf).ne'

theorem trial_fair {s : State} {m : Marked} {e : RegionEntry} {r : Raster} {as : List Addr} {tr : Trial}
    (hm : s.jct.marking = some m) (htr : s.runTrial (s.trialEnv e r m.job) m.ctx as = .ok tr) (hr : s.recordLaw) :
    tr.Fair (s.trialEnv e r m.job) (fun more => s.ace.reservePasses (s.job m.job).user more (s.reserveOf m.job)) m.ctx.queue :=
  (Trial.Fair.start _ _ m.ctx s.rmu fun q hq => hr m ((Jobs.mem_contexts_iff _ m).2 (.inl hm)) q hq).run htr

theorem trial_meets {s : State} {m : Marked} {i : Fin 32} {e : RegionEntry} {r : Raster} {as : List Addr} {tr : Trial}
    (hm : s.jct.marking = some m) (hi : s.rgt.live[i] = some e) (hr : e.raster = some r)
    (htr : s.runTrial (s.trialEnv e r m.job) m.ctx as = .ok tr) (hc : s.chargesCovered) : tr.Meets s.covers none := by
  obtain ⟨hgeom, hcovers⟩ := (State.chargesCovered_iff s).1 hc
  obtain ⟨hstride, hlines⟩ := hgeom i e hi r hr
  refine (Trial.Meets.start s.rmu fun q hq => ?_).run (fun _ _ ha h => covers_congr ha rfl rfl rfl h)
    (env := s.trialEnv e r m.job) (chunksPerFrame_ne hstride hlines) htr
  exact hcovers q ((mem_records _ q).2 ⟨m, (Jobs.mem_contexts_iff _ m).2 (.inl hm), hq⟩) trivial

/-- What an acceptance does beside its slot, where its trial ran on the current context. -/
theorem pays_acceptEffects {s t : State} {a : Accept} (hj : t.jct = s.jct) (ha : t.ace = s.ace) (hr : t.rci.startup = s.rci.startup)
    (h : a.trial = none ∨ ∃ tr p d reserve j, a.trial = some (tr, p, d, reserve) ∧ a.Tried s j tr reserve) :
    Pays s (t.acceptEffects a) := by
  have hslot : Steady s (t.counted a.entry a.job) := (Apart.of_eq hj ha hr).steady.trans (steady_counted t a.entry a.job)
  unfold State.acceptEffects
  rw [raise_addRef_eq]
  rcases h with hnone | ⟨tr, p, d, reserve, j, htrial, hjob, ⟨m, i, e, r, as, hm, rfl, hi, hraster, htr⟩, rfl⟩
  · rw [hnone]
    exact hslot.pays
  · have hace : (t.counted a.entry a.job).ace = s.ace := ha
    have hdeclared : ∀ k, ((t.counted a.entry a.job).job k).user = (s.job k).user
        ∧ ((t.counted a.entry a.job).job k).declared = (s.job k).declared := fun k => by
      rw [counted_job, State.job, State.job, hj]
      exact ⟨rfl, rfl⟩
    have hmark : (t.counted a.entry a.job).jct.marking = some m := hslot.seated.marking.trans hm
    rw [htrial, hjob]
    rw [hjob] at hslot hace hdeclared hmark
    have hkeeps := fun (y : s.Books) => takeTrial_keeps (env := s.trialEnv e r m.job) (tr := tr) hmark rfl rfl
      (hdeclared m.job).1.symm (by rw [hace]; exact trial_fair hm htr y.record) (hslot.books y)
    have hcover : ∀ q, s.covers q → (t.counted a.entry (some m.job)).covers q := fun q =>
      covers_congr (.refl q) hslot.ace.classes hslot.ace.tariff (hdeclared q.job).2
    exact {
      books := fun _ y => (hkeeps y).1
      limits := fun _ y z hc => (hkeeps y).2.1 (by rw [hace]; exact z) fun q hq =>
        hcover q ((trial_meets hm hi hraster htr hc).settled q hq)
      covers := fun _ y _ hc => (hkeeps y).2.2
        (hslot.seated.stems.covers y.record hslot.ace.classes hslot.ace.tariff ((State.chargesCovered_iff s).1 hc).2)
        fun q hq hl => hcover q (((trial_meets hm hi hraster htr hc).queue q hq hl).elim (fun e => nomatch e) id) }

theorem pays_accept {s : State} (t : Txn) {a : Accept}
    (h : a.trial = none ∨ ∃ tr p d reserve j, a.trial = some (tr, p, d, reserve) ∧ a.Tried s j tr reserve) :
    Pays s (s.accept t a) := by
  unfold State.accept
  split
  · split
    · exact pays_acceptEffects rfl rfl rfl h
    · exact (Apart.refl s).pays
  · split
    · exact pays_acceptEffects rfl rfl rfl h
    · exact (Apart.refl s).pays

theorem letsPass_bindable {st : JobState} (h : st.letsPass true = true) : st.bindable = true := by
  cases st with
  | opened => rfl
  | held why => cases h
  | closing => cases h
  | wiping => cases h
  | free => cases h

/-- A job denied for its quota is HELD. -/
theorem steady_quotaDenied {s : State} (hs : s.Seats) (t : Txn) (i : Fin 32) {j : Fin 16} (hj : (s.job j).state.bindable = true) :
    Steady s (s.quotaDenied t i j) := by
  have hdeny := apart_deny s t ⟨.quota, .error, .entry i⟩
  have hjob : (s.deny t ⟨.quota, .error, .entry i⟩).job j = s.job j := by rw [State.job, hdeny.jct]; rfl
  exact hdeny.steady.trans ((steady_bindable (hdeny.steady.seated.seats hs) (by rw [hjob]; exact hj)).trans (apart_hand _ _ _).steady)

theorem pays_resolve {s : State} {t : Txn} {v : Verdict} (h : v.Free ∨ s.Gated t v) : Pays s (s.resolve t v).1 := by
  cases v with
  | accept a =>
    refine pays_accept t (h.imp id ?_)
    rintro ⟨i, e, r, j, w, hi, hr, -, hv⟩
    obtain ⟨tr, p, d, reserve, htrial, htried⟩ := (gate_tried hi hr).1 a hv.symm
    exact ⟨tr, p, d, reserve, j, htrial, htried⟩
  | deny d => exact (apart_deny s t d).pays
  | holdCommit => exact (Apart.refl s).pays
  | holdAssembly j => exact (balances_makeRoom s).pays
  | quota i j =>
    obtain ⟨i', e, r, j', w, hi, hr, hpass, hv⟩ := h.resolve_left id
    obtain rfl := (gate_tried hi hr).2 i j hv.symm
    refine .of_steady fun _ y => steady_quotaDenied y.seats t i ?_
    exact letsPass_bindable hpass

/-! ## Taking (R3, R18) -/

/-- An effect between two operations that leave JCT and the amounts. -/
theorem Pays.between {s t u v : State} (hst : Apart s t) (hm : s.markingLaw → t.markingLaw) (hrgt : t.rgt.live = s.rgt.live)
    (h : Pays t u) (huv : Apart u v) : Pays s v := by
  have hbooks : s.Books → t.Books := hst.steady.books
  have hcovers : s.recordLaw → s.chargesCovered → t.chargesCovered := fun hr hc => by
    obtain ⟨hgeom, hcov⟩ := (State.chargesCovered_iff s).1 hc
    refine (State.chargesCovered_iff t).2 ⟨by rw [hrgt]; exact hgeom, ?_⟩
    exact hst.steady.seated.stems.covers hr hst.ace.classes hst.ace.tariff hcov
  exact {
    books := fun x y => huv.steady.books (h.books (hm x) (hbooks y))
    limits := fun x y z hc => huv.ace.limitLaw (h.limits (hm x) (hbooks y) (hst.ace.limitLaw z) (hcovers y.record hc))
    covers := fun x y z hc r hr hl => by
      rw [huv.jct] at hr
      exact covers_congr (.refl r) huv.ace.classes huv.ace.tariff (by rw [State.job, huv.jct]; rfl)
        (h.covers (hm x) (hbooks y) (hst.ace.limitLaw z) (hcovers y.record hc) r hr hl) }

theorem pays_takePort (s : State) (d : Dir) : Pays s (s.takePort d) := by
  unfold State.takePort
  split
  · exact (Apart.refl s).pays
  · next t rest _ =>
    split
    · have hpop : Apart s { s with path := s.path.setPort d rest } := .of_eq rfl rfl rfl
      exact Pays.between hpop (frame_setPort s d rest).laws.marking rfl (pays_resolve (examine_cases _ t)) (apart_joinHold _ _ _)
    · exact (Apart.refl s).pays

theorem pays_takeReleased (s : State) : Pays s s.takeReleased := by
  unfold State.takeReleased
  split
  · exact (Apart.refl s).pays
  · next before h behind _ =>
    split
    · have hpop : Apart s { s with path := { s.path with hold := before ++ behind } } := .of_eq rfl rfl rfl
      refine Pays.between hpop (fun hl => hl) rfl (pays_resolve (examineFrom2_cases _ h.txn)) (apart_putHold _ _ _ _)
    · exact (Apart.refl s).pays

end Sys2Proof.Machine
end

section
/-!
Power-on, the end of LOADING and link reset: a part without contexts owes nothing, and a link reset settles every record before its context
ends (R27, R64, R108, R130).
-/

namespace Sys2Proof.Machine

/-! ## A part without contexts -/

theorem State.Books.of_clear {s : State} (hctx : s.jct.contexts = [])
    (hpend : ∀ j : Fin 16, (s.job j).closePending = true → (s.job j).state = .closing ∨ (s.job j).state = .wiping)
    (hu : ∀ u : Fin 256, (s.ace.users[u]).reserved = 0) (hd : s.ace.deptLaw) : s.Books where
  seats := {
    own := fun j hj => by
      obtain ⟨c, hc⟩ := Option.isSome_iff_exists.1 hj
      have hmem : (⟨j, c⟩ : Marked) ∈ s.jct.contexts := (Jobs.mem_contexts_iff _ _).2 (.inr (.inr ⟨j, c, hc, rfl⟩))
      rw [hctx] at hmem
      cases hmem
    pending := hpend }
  record m hm := by
    rw [hctx] at hm
    cases hm
  users u := by
    rw [hu, reservesOf_eq_owed, Jobs.records, hctx]
    rfl
  depts := hd

theorem deptLaw_of_zero {a : Ace} (hu : ∀ u : Fin 256, (a.users[u]).reserved = 0) (hd : ∀ d : Fin 16, (a.depts[d]).reserved = 0) :
    a.deptLaw := fun d => by
  rw [hd, reservedIn_eq]
  simp only [hu, ite_self]
  exact (List.sum_eq_zero fun x hx => by
    obtain ⟨-, -, rfl⟩ := List.mem_map.1 hx
    rfl).symm

theorem coversAll_of_clear {s : State} (hctx : s.jct.contexts = []) (p : PageRecord → Prop) : s.coversAll p := fun r hr => by
  rw [Jobs.records, hctx] at hr
  cases hr

/-! ## Supply (R27, R127) -/

theorem volatileReset_books (u : State) (straps : BitVec 2) (powered : Bool) :
    ({ u.volatileReset straps with powered := powered } : State).Books :=
  .of_clear reset_contexts (fun j hj => by
    have hj : (State.reset.job j).closePending = true := hj
    rw [reset_job] at hj
    cases hj) (fun u => (reset_user u).1) (deptLaw_of_zero (fun u => (reset_user u).1) fun d => (reset_dept d).1)

theorem accounts_volatileReset (s u : State) (straps : BitVec 2) (powered : Bool) :
    Accounts s { u.volatileReset straps with powered := powered } :=
  ⟨fun _ _ => volatileReset_books u straps powered, fun _ _ _ _ _ => reset_limitLaw⟩

theorem accounts_loseSupply (s : State) : Accounts s s.loseSupply := by
  unfold State.loseSupply
  split
  · exact accounts_volatileReset s s.tearWrite s.rci.straps false
  · have hbegin : Steady s s.beginEvent := .of_seated (.of_jct id rfl) rfl
    exact ⟨fun _ => hbegin.books, fun _ _ z _ _ => z⟩

/-! ## The end of LOADING (R130) -/

/-- A part that is not ANCHORED has no context. -/
theorem contexts_unanchored {s : State} (hs : s.rci.startup ≠ .anchored) (x : s.markingLaw) (y : s.Seats) : s.jct.contexts = [] := by
  obtain ⟨-, ⟨-, -, hout⟩, -, -⟩ := x
  obtain ⟨hmarking, hstack⟩ := hout (.inl hs)
  refine List.eq_nil_iff_forall_not_mem.2 fun m hm => ?_
  rcases (Jobs.mem_contexts_iff _ m).1 hm with hm | hm | ⟨i, c, hc, rfl⟩
  · rw [hmarking] at hm
    cases hm
  · rw [hstack] at hm
    cases hm
  · exact hs (y.own i (by rw [State.job, hc]; rfl)).1

theorem load_reserved (a : Ace) (m : Amem) : (∀ u : Fin 256, ((a.load m).users[u]).reserved = 0)
    ∧ ∀ d : Fin 16, ((a.load m).depts[d]).reserved = 0 := by
  refine ⟨fun u => ?_, fun d => ?_⟩
  · cases hg : goodUser m.users[u] with
    | true => rw [((load_user a m u).1 hg).1]
    | false => rw [((load_user a m u).2 hg).1]
  · cases hg : goodDept m.depts[d] with
    | true => rw [((load_dept a m d).1 hg).1]
    | false => rw [((load_dept a m d).2 hg).1]

theorem finishLoading_books {s : State} (hl : s.rci.startup = .loading) (x : s.markingLaw) (y : s.Books) : s.finishLoading.Books := by
  have hctx := contexts_unanchored (by rw [hl]; exact fun e => nomatch e) x y.seats
  have hlock : ∀ (b : Ace) (l : Option (BitVec 32)), b.Agrees { b with lockout := l } := fun b l => .of_tables rfl rfl rfl rfl
  have hloaded : (s.ace.load s.amem).Agrees s.endLoad.ace := (agrees_triggerAll _ allRecords).trans (hlock _ _)
  have hend : s.endLoad.jct = s.jct := by rw [endLoad_eq]
  rw [State.finishLoading, if_pos hl]
  generalize s.endLoad = u at hloaded hend
  have hleave : u.leaveLoading.jct = u.jct ∧ u.leaveLoading.ace = u.ace := by
    unfold State.leaveLoading
    split <;> exact ⟨rfl, rfl⟩
  have hpolls := sided_firstPolls.apart u.leaveLoading
  have hjct : u.leaveLoading.firstPolls.jct = s.jct := hpolls.jct.trans (hleave.1.trans hend)
  have hace : (s.ace.load s.amem).Agrees u.leaveLoading.firstPolls.ace := hloaded.trans (hleave.2 ▸ hpolls.ace)
  obtain ⟨husers, hdepts⟩ := load_reserved s.ace s.amem
  refine .of_clear (by rw [hjct]; exact hctx) (fun j hj => ?_) (fun u => (hace.reserved u).trans (husers u))
    (hace.deptLaw (deptLaw_of_zero husers hdepts))
  rw [State.job, hjct] at hj ⊢
  exact y.seats.pending j hj

theorem accounts_loadingEnd {s t : State} (h : event State.finishLoading s = .next t) : Accounts s t := by
  by_cases hl : s.rci.startup = .loading
  · refine ⟨fun x y => ?_, fun _ _ _ _ hn => absurd hl hn⟩
    have hbegin : Steady s s.beginEvent := .of_seated (.of_jct id rfl) rfl
    simp only [Sys2Proof.Machine.event, Host.Outcome.next.injEq] at h
    subst h
    split
    · have hmarks := (frame_finishLoading s.beginEvent).laws.trans (frame_settleDue _).laws
      exact (balances_endEvent _).books (hmarks.marking x) (settleDue_books (finishLoading_books hl x (hbegin.books y)))
    · exact hbegin.books y
  · have hidle : s.beginEvent.finishLoading = s.beginEvent := if_neg hl
    refine .event h ?_ (frame_finishLoading _).laws
    rw [hidle]
    exact (Apart.refl _).pays

/-! ## Link reset (R64, R108) -/

/-- What the contexts owe at a link reset is what their records owe as they settle. -/
theorem owed_cut (s : State) (straps : BitVec 2) (u : Fin 256) :
    owed ((s.pathAndRciReset straps).freeTrackers.jct.allRecords.map PageRecord.forceClose) u = s.jct.reservesOf u := by
  have hlost := owed_map (f := fun r : PageRecord => { r with lines := 0 }) s.jct.records u fun _ _ => ⟨rfl, rfl⟩
  rw [allRecords_freed, owed_map (f := PageRecord.forceClose) _ u fun _ _ => ⟨rfl, rfl⟩, owed_perm (sortRecords_perm _), hlost]
  rfl

theorem cut_covered (s : State) (straps : BitVec 2) (hc : s.coversAll fun _ => True) :
    ∀ r ∈ (s.pathAndRciReset straps).freeTrackers.jct.allRecords.map PageRecord.forceClose,
      ((s.pathAndRciReset straps).freeTrackers.price r).charge ≤ r.reserve := by
  intro r hr
  obtain ⟨x, hx, rfl⟩ := List.mem_map.1 hr
  rw [allRecords_freed] at hx
  obtain ⟨y, hy, rfl⟩ := List.mem_map.1 ((sortRecords_perm _).mem_iff.1 hx)
  have hlost : y.Alike { y with lines := 0 } := ⟨rfl, rfl, rfl, fun _ => rfl⟩
  refine charge_le_of_covers (covers_congr (s := s) (hlost.trans (PageRecord.forceClose_alike _)) rfl rfl ?_ (hc y hy trivial))
  rw [freeTrackers_job]
  rfl

/-- The part right after the contexts have ended at a link reset: nothing is reserved. -/
theorem endContexts_keeps (s : State) (straps : BitVec 2) (hb : s.Books) :
    (s.pathAndRciReset straps).freeTrackers.endContexts.Books
    ∧ (s.ace.limitLaw → (s.coversAll fun _ => True) → (s.pathAndRciReset straps).freeTrackers.endContexts.ace.limitLaw) := by
  have hu : ∀ u : Fin 256, ((s.pathAndRciReset straps).freeTrackers.ace.users[u]).reserved
      = 0 + owed ((s.pathAndRciReset straps).freeTrackers.jct.allRecords.map PageRecord.forceClose) u := fun u => by
    rw [owed_cut, Nat.zero_add]
    exact hb.users u
  have hd : (s.pathAndRciReset straps).freeTrackers.ace.deptLaw := hb.depts
  obtain ⟨husers, hdepts⟩ := settleAll_books false (left := fun _ => 0)
    ((s.pathAndRciReset straps).freeTrackers.jct.allRecords.map PageRecord.forceClose) hu hd
  have hposts : PostsOnly (s.pathAndRciReset straps).freeTrackers (s.pathAndRciReset straps).freeTrackers.recordsSettled :=
    .foldl (postsOnly_settle false) _ _
  refine ⟨.of_clear (discardContexts_contexts _) (fun j hj => ?_) husers hdepts, fun hl hc => ?_⟩
  · have hjob : (s.pathAndRciReset straps).freeTrackers.endContexts.job j
        = { (s.pathAndRciReset straps).freeTrackers.recordsSettled.job j with own := none } := discardContexts_job _ j
    rw [hjob, hposts.jobs j, freeTrackers_job] at hj ⊢
    exact hb.seats.pending j hj
  · exact settleAll_limitLaw false (left := fun _ => 0)
      ((s.pathAndRciReset straps).freeTrackers.jct.allRecords.map PageRecord.forceClose) hu hd hl (cut_covered s straps hc)

theorem steady_forceWipes (s : State) (j : Fin 16) : Steady s (s.forceWipes j) := by
  unfold State.forceWipes
  dsimp only
  refine Steady.trans ?_ (apart_reportSkipped _ _ _ _ _).steady
  have hjoin : Apart s (s.appendWipes j ((s.wipeRanges j).take s.wpe.room)) := .of_eq rfl rfl rfl
  exact hjoin.steady.trans (steady_modJob _ j _ fun _ => ⟨rfl, rfl, rfl, rfl, rfl⟩)

theorem steady_clearKeysAndRegions (s : State) : Steady s s.clearKeysAndRegions := by
  have hkeys : Apart s { s with keys := Vector.replicate 16 none } := .of_eq rfl rfl rfl
  exact hkeys.steady.trans (steady_setRegions _ _)

theorem steady_forceState {s : State} {j : Fin 16} (hj : (s.job j).own = none) : Steady s (s.forceState j) := by
  unfold State.forceState
  refine steady_ownless hj ?_ ?_ fun _ => ?_ <;> unfold JobSlot.forced <;> split
  · rfl
  · exact hj
  · exact fun h => nomatch h
  · exact fun h => nomatch h
  · exact ⟨rfl, rfl⟩
  · exact ⟨rfl, rfl⟩

theorem steady_forceStates (js : List (Fin 16)) {s : State} (hs : ∀ j, (s.job j).own = none) :
    Steady s (js.foldl State.forceState s) := by
  induction js generalizing s with
  | nil => exact .refl s
  | cons j js ih =>
    have hj := steady_forceState (hs j)
    exact hj.trans (ih fun i => (hj.seated.own i).trans (hs i))

theorem Steady.foldl {α : Type} {f : State → α → State} (hf : ∀ s a, Steady s (f s a)) (as : List α) (s : State) :
    Steady s (as.foldl f s) := by
  induction as generalizing s with
  | nil => exact .refl s
  | cons a as ih => exact (hf s a).trans (ih (f s a))

/-- What comes after the end of the contexts at a link reset (R64 steps 4 to 7, R136). -/
theorem steady_afterContexts (s : State) (straps : BitVec 2) :
    Steady (s.pathAndRciReset straps).freeTrackers.endContexts (s.linkReset straps) := by
  have hown : ∀ j, ((s.pathAndRciReset straps).freeTrackers.endContexts.job j).own = none := fun j =>
    congrArg JobSlot.own (discardContexts_job (s.pathAndRciReset straps).freeTrackers.recordsSettled j)
  have hstart := (Steady.foldl steady_forceWipes (s.pathAndRciReset straps).jct.liveJobs
    (s.pathAndRciReset straps).freeTrackers.endContexts).trans (steady_clearKeysAndRegions _)
  have hforced := hstart.trans (steady_forceStates (s.pathAndRciReset straps).jct.liveJobs fun j => (hstart.seated.own j).trans (hown j))
  have hjobs : Steady (s.pathAndRciReset straps).freeTrackers.endContexts (s.pathAndRciReset straps).forceJobs :=
    hforced.trans (Steady.foldl (f := State.forceTellAs) (fun t x => (apart_tellEnded t (t.job x.1).user x.2).steady) _ _)
  rw [linkReset_eq]
  exact .ite (hjobs.trans (sided_firstPolls.apart _).steady) hjobs

theorem pays_linkReset (s : State) (straps : BitVec 2) : Pays s (s.linkReset straps) := by
  have hafter := steady_afterContexts s straps
  have hctx : (s.linkReset straps).jct.contexts = [] := hafter.seated.contexts.trans (discardContexts_contexts _)
  exact {
    books := fun _ y => hafter.books (endContexts_keeps s straps y).1
    limits := fun _ y z hc => hafter.ace.limitLaw
      ((endContexts_keeps s straps y).2 z ((State.chargesCovered_iff s).1 hc).2)
    covers := fun _ _ _ _ => coversAll_of_clear hctx _ }

theorem accounts_lrst {s t : State} {straps : BitVec 2} (h : execLrst straps s = .next t) : Accounts s t := by
  simp only [execLrst, resetEvent, Host.Outcome.next.injEq] at h
  subst h
  have hbegin : Steady s s.beginEvent := .of_seated (.of_jct id rfl) rfl
  split
  · have ha := (pays_linkReset s.beginEvent straps).accounts (fun _ => linkReset_markingLaw _ straps) fun b => balances_endReset _
    exact ⟨fun x y => ha.books x (hbegin.books y), fun x y => ha.limits x (hbegin.books y)⟩
  · exact ⟨fun _ => hbegin.books, fun _ _ z _ _ => z⟩

end Sys2Proof.Machine
end

section
/-!
Every step keeps the books of the reserved amounts, and out of LOADING the bounds, where no open record costs more than its reserve.
Settles O10.
-/

namespace Sys2Proof.Machine

/-- The event of an effect that keeps the laws of O10. -/
theorem accounts_of_balances {s t : State} (body : State → State) (h : event body s = .next t)
    (hb : Balances s.rci.hand s.beginEvent (body s.beginEvent))
    (hk : Keeps 0 (some s.rci.hand) s.beginEvent (body s.beginEvent)) : Accounts s t :=
  .event h (Balances.pays (s := s.beginEvent) hb) (Keeps.laws (s := s.beginEvent) hk (Nat.zero_le _))

/-- The event of an effect that leaves JCT and the amounts of ACE. -/
theorem accounts_of_apart {s t : State} (body : State → State) (h : event body s = .next t) (ha : ∀ u, Apart u (body u))
    (hf : ∀ u, Frame u (body u)) : Accounts s t := .event h (ha _).pays (hf _).laws

theorem accounts_apart {s t : State} (body : State → State) (h : event body s = .next t) (ha : ∀ u, Apart u (body u))
    (hk : Keeps 0 (some s.rci.hand) s.beginEvent (body s.beginEvent)) : Accounts s t :=
  .event h (ha _).pays (Keeps.laws (s := s.beginEvent) hk (Nat.zero_le _))

theorem accounts_ring {s t : State} {c : Instr} (h : ringEvent (runCommand c) s = .next t) : Accounts s t :=
  accounts_of_balances _ h (balances_direct s.beginEvent c) (keeps_direct (n := 0) s.beginEvent c fun _ hk => (Option.some.inj hk).symm)

theorem exec_accounts {c : Instr} {s t : State} (h : exec c s = .next t) : Accounts s t := by
  cases c with
  | por straps =>
    obtain rfl : s.powerOn straps = t := Host.Outcome.next.inj h
    exact accounts_volatileReset s (if s.powered then s.tearWrite else s) straps true
  | supplyLoss =>
    obtain rfl : s.loseSupply = t := Host.Outcome.next.inj h
    exact accounts_loseSupply s
  | lrst straps => exact accounts_lrst h
  | fetchStart => exact .event h (apart_startFetch _).pays (keepsLaws_startFetch _)
  | fetchReadReturn i okay l =>
    exact .event (body := fun u => u.returnFetch i okay l) h (pays_returnFetch _ i okay l) (keepsLaws_returnFetch s.beginEvent i okay l)
  | wake a => exact accounts_of_apart (fun u => u.setWakePin a) h (fun u => .of_eq rfl rfl rfl) fun u => frame_setWakePin u a
  | loadingEnd => exact accounts_loadingEnd h
  | takeTransaction d p =>
    refine .event (body := fun u => (u.present p).takePort d) h ?_
      (((frame_present _ p).keeps.trans (keeps_takePort _ d (Nat.le_refl 8))).laws (Nat.le_max_left _ _))
    refine Pays.between (apart_present _ p) (frame_present _ p).laws.marking ?_ (pays_takePort _ d) (.refl _)
    cases p <;> rfl
  | releasedTaken => exact .event h (pays_takeReleased _) ((keeps_takeReleased _ (Nat.le_refl _)).laws (Nat.le_max_right _ _))
  | downstreamGrant => exact accounts_apart State.grant h apart_grant (keeps_grant _)
  | readReturn ref okay ls =>
    exact accounts_of_balances (fun u => u.completeRead ref okay ls) h (balances_completeRead _ ref okay ls)
      (keeps_completeRead _ ref okay ls)
  | writeAnswer ref okay =>
    exact accounts_of_balances (fun u => u.completeWriteAt ref okay) h (balances_completeWriteAt _ ref okay)
      (keeps_completeWriteAt _ ref okay)
  | commitCompletion => exact .event h (steady_completeCommit _).pays (frame_completeCommit _).laws
  | recordSettle => exact .event h (pays_settleDue _) (frame_settleDue _).laws
  | jobLeavesClosing j =>
    exact accounts_of_balances (fun u => u.leaveIfDue j) h (balances_leaveIfDue _ j) (keeps_leaveIfDue _ j)
  | wipeStart => exact accounts_of_apart State.startWipe h apart_startWipe frame_startWipe
  | wipeWriteIssue => exact accounts_apart State.issueWipeWrite h apart_issueWipeWrite (keeps_issueWipeWrite _)
  | wipeWriteAnswer i okay =>
    exact accounts_apart (fun u => u.answerWipeWrite i okay) h (fun u => apart_answerWipeWrite u i okay) (keeps_answerWipeWrite _ i okay)
  | verifyReadIssue => exact accounts_apart State.issueVerifyRead h apart_issueVerifyRead (keeps_issueVerifyRead _)
  | verifyReadReturn i okay ls =>
    exact accounts_apart (fun u => u.returnVerifyRead i okay ls) h (fun u => apart_returnVerifyRead u i okay ls)
      (keeps_returnVerifyRead _ i okay ls)
  | wipeDone => exact accounts_of_balances State.finishWipe h (balances_finishWipe _) (keeps_finishWipe _)
  | reportWriteIssue => exact accounts_apart State.issueReportWrite h apart_issueReportWrite (keeps_issueReportWrite _)
  | reportWriteAnswer i okay =>
    exact accounts_apart (fun u => u.answerReportWrite i okay) h (fun u => apart_answerReportWrite u i okay)
      (keeps_answerReportWrite _ i okay)
  | indexWriteIssue => exact accounts_apart State.issueIndexWrite h apart_issueIndexWrite (keeps_issueIndexWrite _)
  | indexWriteAnswer i okay =>
    exact accounts_apart (fun u => u.answerIndexWrite i okay) h (fun u => apart_answerIndexWrite u i okay)
      (keeps_answerIndexWrite _ i okay)
  | accountFault => exact accounts_of_apart State.joinFault h apart_joinFault frame_joinFault
  | amemWriteStart => exact accounts_of_apart State.beginWrite h apart_beginWrite frame_beginWrite
  | amemWriteComplete => exact accounts_of_apart State.completeWrite h apart_completeWrite frame_completeWrite
  | lockoutExpiry => exact accounts_of_apart State.lockoutEnds h apart_lockoutEnds frame_lockoutEnds
  | statusReq p => exact accounts_of_apart (fun u => u.sendStatus p) h (apart_sendStatus · p) (frame_sendStatus · p)
  | identReq p => exact accounts_of_apart (fun u => u.sendIdent p) h (apart_sendIdent · p) (frame_sendIdent · p)
  | proveReq p => exact accounts_of_apart (fun u => u.sendProve p) h (apart_sendProve · p) (frame_sendProve · p)
  | debitReq p => exact accounts_of_apart (fun u => u.sendDebit p) h (apart_sendDebit · p) (frame_sendDebit · p)
  | statusRep p fr =>
    exact accounts_of_apart (fun u => u.replyEnds .status p fr) h (apart_replyEnds · .status p fr) (frame_replyEnds · .status p fr)
  | identRep p fr =>
    exact accounts_of_apart (fun u => u.replyEnds .ident p fr) h (apart_replyEnds · .ident p fr) (frame_replyEnds · .ident p fr)
  | proveRep p fr =>
    exact accounts_of_apart (fun u => u.replyEnds .prove p fr) h (apart_replyEnds · .prove p fr) (frame_replyEnds · .prove p fr)
  | debitRep p fr =>
    exact accounts_of_apart (fun u => u.replyEnds .debit p fr) h (apart_replyEnds · .debit p fr) (frame_replyEnds · .debit p fr)
  | exchangeTimeout p => exact accounts_of_apart (fun u => u.timeOut p) h (apart_timeOut · p) (frame_timeOut · p)
  | replyFrameBegins p => exact accounts_of_apart (fun u => u.replyBegins p) h (apart_replyBegins · p) (frame_replyBegins · p)
  | standbyDrainEnd => exact accounts_of_balances State.drainEnd h (balances_drainEnd _) (keeps_drainEnd _)
  | flushComplete => exact accounts_of_apart State.flushEnd h apart_flushEnd frame_flushEnd
  | standbyPostEnd => exact accounts_of_apart State.postEnd h apart_postEnd frame_postEnd
  | unknownKind tag kind =>
    exact accounts_of_balances (State.refuseKind tag kind) h
      (.ite (.refl _ _) (balances_direct s.beginEvent (.unknownKind tag kind)))
      (keeps_refuseKind tag kind _ fun _ hk => (Option.some.inj hk).symm)
  | regionSet tag p => exact accounts_ring (c := .regionSet tag p) h
  | regionClear tag i => exact accounts_ring (c := .regionClear tag i) h
  | regionsCommit tag => exact accounts_ring (c := .regionsCommit tag) h
  | captureClear tag => exact accounts_ring (c := .captureClear tag) h
  | jobOpen tag p => exact accounts_ring (c := .jobOpen tag p) h
  | jobRelease tag j pin => exact accounts_ring (c := .jobRelease tag j pin) h
  | jobClose tag j => exact accounts_ring (c := .jobClose tag j) h
  | jobQuery tag j => exact accounts_ring (c := .jobQuery tag j) h
  | markSelect tag j => exact accounts_ring (c := .markSelect tag j) h
  | markInterrupt tag j => exact accounts_ring (c := .markInterrupt tag j) h
  | markResume tag => exact accounts_ring (c := .markResume tag) h
  | classSet tag p => exact accounts_ring (c := .classSet tag p) h
  | tariffSet tag p => exact accounts_ring (c := .tariffSet tag p) h
  | userSet tag p => exact accounts_ring (c := .userSet tag p) h
  | userAdjust tag pin u a => exact accounts_ring (c := .userAdjust tag pin u a) h
  | userQuery tag pin u => exact accounts_ring (c := .userQuery tag pin u) h
  | deptSet tag pin d a => exact accounts_ring (c := .deptSet tag pin d a) h
  | periodReset tag pin w => exact accounts_ring (c := .periodReset tag pin w) h
  | meterQuery tag pin => exact accounts_ring (c := .meterQuery tag pin) h
  | servicePinSet tag pin x => exact accounts_ring (c := .servicePinSet tag pin x) h
  | bayQuery tag b => exact accounts_ring (c := .bayQuery tag b) h
  | bayConfig tag p => exact accounts_ring (c := .bayConfig tag p) h
  | wipeRange tag p => exact accounts_ring (c := .wipeRange tag p) h
  | standbyEnter tag m => exact accounts_ring (c := .standbyEnter tag m) h

theorem step_accounts {s t : State} (h : step s = .next t) : Accounts s t := by
  unfold step at h
  split at h
  · obtain rfl : s.tick = t := by simpa using h
    have htick : Steady s s.tick := Apart.steady (.ite (.of_eq rfl rfl rfl) (.refl s))
    exact ⟨fun _ => htick.books, fun _ _ z _ _ => htick.ace.limitLaw z⟩
  · next c rest _ =>
    have hpop : Steady s { s with pending := rest } := .of_seated (.of_jct id rfl) rfl
    have ha := exec_accounts h
    exact ⟨fun x y => ha.books x (hpop.books y), fun x y => ha.limits x (hpop.books y)⟩

end Sys2Proof.Machine

namespace Sys2Proof.Proofs
open Sys2Proof Sys2Proof.Machine

/-- Settles O10: every command of the table keeps the books, and out of LOADING the bounds, operation by operation (`exec_accounts`). -/
theorem stepKeepsReserves : Obligations.StepKeepsReserves := by
  unfold Obligations.StepKeepsReserves
  refine ⟨fun s t h hstep => ?_, fun s t h hl hc hn hstep => ?_⟩
  · obtain ⟨hmarking, hbooks⟩ := (State.reserveLaw_iff s).1 h
    exact (State.reserveLaw_iff t).2 ⟨(step_keepsLaws hstep).marking hmarking, (step_accounts hstep).books hmarking hbooks⟩
  · obtain ⟨hmarking, hbooks⟩ := (State.reserveLaw_iff s).1 h
    exact (step_accounts hstep).limits hmarking hbooks hl hc hn

end Sys2Proof.Proofs
end
